-- ==== Sys2Proof/Word.lean ====
section
/-! DEFINITION. Words, register fields and the plainest arithmetic on them. -/

namespace Sys2Proof

/-- One byte. -/
abbrev Byte := BitVec 8
/-- A 32-bit register or memory word (R8). -/
abbrev W32 := BitVec 32
/-- A 64-bit value: a register pair (R11) or a generic address (R23). -/
abbrev W64 := BitVec 64
/-- A 7-bit register field of an instruction word (R10). -/
abbrev Fld := BitVec 7

/-- Field value 127, the register z (R10). -/
abbrev Fld.z : Fld := 127#7

/-- The low 32 bits of a 64-bit value. -/
def lo32 (x : W64) : W32 := x.extractLsb' 0 32
/-- The high 32 bits of a 64-bit value. -/
def hi32 (x : W64) : W32 := x.extractLsb' 32 32
/-- The 64-bit value of a pair: the low word sits in the even register (R11). -/
def pair64 (lo hi : W32) : W64 := hi ++ lo

/-- Bits [hi:lo] of `x` as an unsigned number: the helper bits() of R46. -/
def bitsOf {w : Nat} (x : BitVec w) (hi lo : Nat) : Nat := (x.extractLsb' lo (hi + 1 - lo)).toNat

end Sys2Proof
end

