-- ==== Sys2Proof/Syntax.lean ====
section
/-! DEFINITION. The instructions and steps of the Ocdar: one constructor of `Instr` for each row of
spec/opcode_table.json. The operand structures carry the fields of one format (R32); a register field keeps its
seven bits here and is resolved by Machine/Operands.lean, because what a field reaches depends on the thread. -/

namespace Sys2Proof

/-- Format R with d, a and b (R32): `f` and `g` are the empty-read bits fa and fb (R38). -/
structure R3 where
  f : Bool
  g : Bool
  d : Fld
  a : Fld
  b : Fld
  deriving DecidableEq, Repr

/-- Format R with d and a. -/
structure R2 where
  f : Bool
  d : Fld
  a : Fld
  deriving DecidableEq, Repr

/-- Format R with d, a and b whose m field holds a rounding mode (R41) or LEA's shift (R92). -/
structure RR3 where
  f : Bool
  g : Bool
  r : BitVec 3
  d : Fld
  a : Fld
  b : Fld
  deriving DecidableEq, Repr

/-- CVT: format R whose m field is the rounding mode and whose b field is the conversion code (R112). -/
structure RR2 where
  f : Bool
  r : BitVec 3
  d : Fld
  a : Fld
  deriving DecidableEq, Repr

/-- ACT: b holds a table number (R120). -/
structure RT where
  f : Bool
  d : Fld
  a : Fld
  t : BitVec 4
  deriving DecidableEq, Repr

/-- Format R with d alone. -/
structure RD where
  d : Fld
  deriving DecidableEq, Repr

/-- Format R with a and b. -/
structure RAB where
  f : Bool
  g : Bool
  a : Fld
  b : Fld
  deriving DecidableEq, Repr

/-- Format R with a alone. -/
structure RA where
  f : Bool
  a : Fld
  deriving DecidableEq, Repr

/-- STQTRY: d, a and b, of which b is written (R157). -/
structure R3b where
  f : Bool
  d : Fld
  a : Fld
  b : Fld
  deriving DecidableEq, Repr

/-- Format I with an 11-bit immediate. -/
structure I2 where
  f : Bool
  d : Fld
  a : Fld
  i : BitVec 11
  deriving DecidableEq, Repr

/-- LI: d and the immediate; bit 25 is the width and stands in the constructor (R91). -/
structure LiOp where
  d : Fld
  i : BitVec 11
  deriving DecidableEq, Repr

/-- SHI on 32 bits (R90). -/
structure Sh5 where
  f : Bool
  d : Fld
  a : Fld
  n : BitVec 5
  deriving DecidableEq, Repr

/-- SHI on 64 bits (R90). -/
structure Sh6 where
  f : Bool
  d : Fld
  a : Fld
  n : BitVec 6
  deriving DecidableEq, Repr

/-- LD and ST: size code, data register, base register, element offset (R33). -/
structure M2 where
  f : Bool
  s : BitVec 3
  d : Fld
  a : Fld
  i : BitVec 8
  deriving DecidableEq, Repr

/-- LDF and STF, whose size is always 8 bytes (R237). -/
structure L2 where
  f : Bool
  d : Fld
  a : Fld
  i : BitVec 8
  deriving DecidableEq, Repr

/-- LDA and STA: data register, index register, affine record (R242). -/
structure RJ where
  f : Bool
  d : Fld
  a : Fld
  j : BitVec 3
  deriving DecidableEq, Repr

/-- AFFSET: register group and affine record. -/
structure RAJ where
  f : Bool
  a : Fld
  j : BitVec 3
  deriving DecidableEq, Repr

/-- AFFCNT: destination and affine record. -/
structure RDJ where
  d : Fld
  j : BitVec 3
  deriving DecidableEq, Repr

/-- ARRIVE: destination and barrier level (R157). -/
structure RDL where
  d : Fld
  l : BitVec 3
  deriving DecidableEq, Repr

/-- Format B with a tested register (R93). -/
structure B1 where
  f : Bool
  a : Fld
  o : BitVec 15
  deriving DecidableEq, Repr

/-- BRA, whose a field is always z. -/
abbrev O15 := BitVec 15
/-- Format J. -/
abbrev O26 := BitVec 26
/-- TRAP's literal. -/
abbrev N7 := BitVec 7
/-- PROBE's literal. -/
abbrev N4 := BitVec 4

/-- LOOP: count register and body length less one (R98). -/
structure LoopOp where
  f : Bool
  a : Fld
  n : BitVec 8
  deriving DecidableEq, Repr

/-- MFSR (R103). -/
structure MfsrOp where
  d : Fld
  n : BitVec 11
  deriving DecidableEq, Repr

/-- MTSR (R103). -/
structure MtsrOp where
  f : Bool
  a : Fld
  n : BitVec 11
  deriving DecidableEq, Repr

/-- An instruction as fetched: its word, and the x field of the X word before it when there is one (R35, R45). -/
structure RawInstr where
  word : BitVec 32
  x    : Option (BitVec 26)
  deriving DecidableEq, Repr

/-! ### What the steps that are not instruction words name -/

/-- The engines that take commands (R42, R250, R286, R288, R303, R321, R400). Tree descent runs in the matrix
queue of its section (R310). -/
inductive Eng where
  | copy | matrix (sect : Nat) | stack (sect : Nat) | table | fabric | carafe | grinder | caver | press
  deriving DecidableEq, Repr

/-- One engine queue, named through a core that reaches it. -/
structure EngRef where
  core : Nat
  eng  : Eng
  deriving DecidableEq, Repr

/-- A thread: its core and its %tid, 0xFFFF_FFFF being the scalar front end (R184). -/
structure ThreadRef where
  core : Nat
  tid  : BitVec 32
  deriving DecidableEq, Repr

/-- A ZCP datagram as it reaches the device (R404). `accepted` says whether its source address is one that some tenancy
accepts, `own` whether the tenancy that TEN names accepts it, and `mgmt` whether it comes from the management endpoint. (DESIGN CHOICE, log entry 29.) -/
structure Datagram where
  accepted : Bool
  own      : Bool
  mgmt     : Bool
  ver      : BitVec 8
  op       : BitVec 8
  ten      : BitVec 8
  kind     : BitVec 8
  qid      : BitVec 16
  len      : BitVec 16
  seq      : BitVec 32
  code     : BitVec 32
  payload  : List (BitVec 8)
  deriving DecidableEq, Repr

/-- A fabric flit (R397); `crcOk` is the outcome of its CRC-64 check. -/
structure Flit where
  seq     : BitVec 24
  vc      : Nat
  dst     : Nat
  src     : Nat
  kind    : Nat
  res     : BitVec 64
  payload : List (BitVec 8)
  crcOk   : Bool
  deriving DecidableEq, Repr

/-- An RDMA READ (empty `data`) or WRITE of the host (R408). -/
structure RdmaReq where
  ten  : Nat
  conn : Nat
  key  : BitVec 32
  addr : BitVec 64
  len  : Nat
  data : List (BitVec 8)
  deriving DecidableEq, Repr

/-- What a remote DOMAIN access does at its home (R396, R402). -/
inductive RemoteOp where
  | load (n : Nat) | store (n : Nat) (v : BitVec 128) | add (v : BitVec 64)
  deriving DecidableEq, Repr

/-- An access that a thread or fabric command of another device makes to a DOMAIN page of this one. -/
structure RemoteAccess where
  rank : Nat
  ten  : Nat
  addr : BitVec 64
  op   : RemoteOp
  deriving DecidableEq, Repr

/-- One constructor per row of the opcode table. A constructor whose table row ends in _X is the instruction behind
an X word, and `x` is that word's immediate (R35). The constructors before `add` are the steps of the table that no
instruction word encodes: each names the unit in which it takes place. -/
inductive Instr where
  | qmFusedPass (core : Nat) (sect : Nat) (count : Nat)
  | subarrayGate (core : Nat) (sect : Nat) (sub : Nat)
  | tableExchange (core : Nat)
  | tileLaunch (core : Nat) (tile : Nat)
  | tileDelivery (core : Nat) (sect : Nat)
  | backwardSettle (core : Nat)
  | commandCompletion (eng : EngRef) (idx : Nat)
  | lineDelivery (eng : EngRef) (idx : Nat) (line : Nat)
  | engineTranslationFault (eng : EngRef) (idx : Nat) (refused : Bool)
  | stopHold (eng : EngRef)
  | stopRelease (eng : EngRef)
  | resultLands (who : ThreadRef) (idx : Nat)
  | sectionIssue (core : Nat) (sect : Nat)
  | forcedRun (core : Nat) (sect : Nat)
  | yieldDeferralEnd (core : Nat) (sect : Nat) (slot : Nat)
  | governorWindow (core : Nat)
  | gangFormation (core : Nat) (bin : Nat)
  | crewDispatch (cell : Nat)
  | stealRequest (thief : Nat) (victim : Nat)
  | stealAnswer (thief : Nat)
  | stealRoundWait (cell : Nat)
  | costart (ten : Nat) (task : Nat)
  | costartAnnounce (ten : Nat) (task : Nat) (rank : Nat)
  | lineGroupSend (core : Nat) (grp : Nat)
  | lineGroupAtHome (core : Nat) (grp : Nat)
  | lineGroupReply (core : Nat) (grp : Nat)
  | negativeAcknowledgement (core : Nat) (grp : Nat)
  | nackRetry (core : Nat) (grp : Nat)
  | bypassEntryFree (slice : Nat) (entry : Nat)
  | ptsAdvance
  | lanternPass (chan : Nat)
  | meshHop (msg : Nat)
  | routerPowerDown (router : Nat)
  | routerWake (router : Nat)
  | tokenGrant (die : Nat) (unit : Nat)
  | throttleLift (die : Nat)
  | walkComplete (walk : Nat)
  | serviceForward (ten : Nat)
  | serviceResend (ten : Nat) (idx : Nat)
  | preempt (core : Nat) (sub : Nat) (save : BitVec 64)
  | crewRestore (saved : Nat) (core : Nat)
  | spareCoreRepair (core : Nat) (save : BitVec 64)
  | spareSliceRepair (slice : Nat)
  | hbmRowRepair (row : Nat) (ended : Bool)
  | frzN
  | bridgeTransfer (idx : Nat)
  | bridgeCrcFail (idx : Nat)
  | remoteDomainAccess (acc : RemoteAccess)
  | storeRefusalReport (who : ThreadRef) (addr : BitVec 64)
  | flitData (port : Nat) (fl : Flit)
  | flitAcknowledgement (port : Nat) (fl : Flit)
  | flitNegativeAcknowledgement (port : Nat) (fl : Flit)
  | flitReservation (port : Nat) (fl : Flit)
  | flitControl (port : Nat) (fl : Flit)
  | wavelengthRetire (port : Nat) (fibre : Nat) (wave : Nat)
  | fibreFailover (port : Nat) (fibre : Nat)
  | peerUnreachable (port : Nat) (rank : Nat)
  | launchCmd (dg : Datagram)
  | mapCmd (dg : Datagram)
  | unmapCmd (dg : Datagram)
  | signalCmd (dg : Datagram)
  | waitCmd (dg : Datagram)
  | queryDevice (dg : Datagram)
  | queryProbes (dg : Datagram)
  | querySump (dg : Datagram)
  | queryTrace (dg : Datagram)
  | queryAttest (dg : Datagram)
  | journalRead (dg : Datagram)
  | resetTenancy (dg : Datagram)
  | freezeCmd (dg : Datagram)
  | serviceReply (dg : Datagram)
  | zcpCommandStart (ten : Nat) (queue : Nat)
  | doneEvt (ten : Nat) (queue : Nat)
  | journalMirrorWrite (ten : Nat)
  | rdmaRead (rq : RdmaReq)
  | rdmaWrite (rq : RdmaReq)
  | rdmaInvalidRequest (ten : Nat) (conn : Nat)
  | coldReset
  | warmReset
  | alwaysOnPowerLoss
  | thermalEvent (die : Nat)
  | laserModuleSwap (module : Nat)
  | wordNotInstruction (sub : Nat) (raw : RawInstr)
  | fetchTrap
  | zcpOpNotNamed (dg : Datagram)
  | samplingEvt (who : ThreadRef) (eng : Option Eng)
  | voltageDroop (die : Nat)
  | lossOfPower
  | linksComeUp (port : Nat) (rank : Nat)
  | add (o : R3)
  | sub (o : R3)
  | and (o : R3)
  | or (o : R3)
  | xor (o : R3)
  | shl (o : R3)
  | shr (o : R3)
  | sra (o : R3)
  | add64 (o : R3)
  | sub64 (o : R3)
  | and64 (o : R3)
  | or64 (o : R3)
  | xor64 (o : R3)
  | shl64 (o : R3)
  | shr64 (o : R3)
  | sra64 (o : R3)
  | mul (o : R3)
  | mulh (o : R3)
  | mulhu (o : R3)
  | mul64 (o : R3)
  | div (o : R3)
  | divu (o : R3)
  | rem (o : R3)
  | remu (o : R3)
  | seq (o : R3)
  | sne (o : R3)
  | slt (o : R3)
  | sltu (o : R3)
  | sle (o : R3)
  | sleu (o : R3)
  | min (o : R3)
  | max (o : R3)
  | seq64 (o : R3)
  | sne64 (o : R3)
  | slt64 (o : R3)
  | sltu64 (o : R3)
  | sle64 (o : R3)
  | sleu64 (o : R3)
  | min64 (o : R3)
  | max64 (o : R3)
  | popc (o : R2)
  | clz (o : R2)
  | ctz (o : R2)
  | brev (o : R2)
  | bfx (o : R3)
  | bfi (o : R3)
  | prmt (o : R3)
  | andn (o : R3)
  | sel (o : R3)
  | abs (o : R2)
  | neg (o : R2)
  | sext8 (o : R2)
  | sext16 (o : R2)
  | zext8 (o : R2)
  | zext16 (o : R2)
  | unpt (o : R2)
  | addi (o : I2)
  | addi64 (o : I2)
  | andi (o : I2)
  | ori (o : I2)
  | xori (o : I2)
  | addiX (x : BitVec 26) (o : I2)
  | addi64X (x : BitVec 26) (o : I2)
  | andiX (x : BitVec 26) (o : I2)
  | oriX (x : BitVec 26) (o : I2)
  | xoriX (x : BitVec 26) (o : I2)
  | shli (o : Sh5)
  | shri (o : Sh5)
  | srai (o : Sh5)
  | rori (o : Sh5)
  | shli64 (o : Sh6)
  | shri64 (o : Sh6)
  | srai64 (o : Sh6)
  | rori64 (o : Sh6)
  | li (o : LiOp)
  | li64 (o : LiOp)
  | liX (x : BitVec 26) (o : LiOp)
  | li64X (x : BitVec 26) (o : LiOp)
  | lea (o : RR3)
  | fadd32 (o : RR3)
  | fsub32 (o : RR3)
  | fmul32 (o : RR3)
  | ffma32 (o : RR3)
  | fadd64 (o : RR3)
  | fsub64 (o : RR3)
  | fmul64 (o : RR3)
  | ffma64 (o : RR3)
  | hadd2 (o : RR3)
  | hmul2 (o : RR3)
  | hfma2 (o : RR3)
  | badd2 (o : RR3)
  | bmul2 (o : RR3)
  | bfma2 (o : RR3)
  | feq (o : R3)
  | flt (o : R3)
  | fle (o : R3)
  | funord (o : R3)
  | fmin (o : R3)
  | fmax (o : R3)
  | fclass (o : R2)
  | fsgnj (o : R3)
  | feq64 (o : R3)
  | flt64 (o : R3)
  | fle64 (o : R3)
  | funord64 (o : R3)
  | fmin64 (o : R3)
  | fmax64 (o : R3)
  | fclass64 (o : R2)
  | fsgnj64 (o : R3)
  | hmin2 (o : R3)
  | hmax2 (o : R3)
  | heq2 (o : R3)
  | hlt2 (o : R3)
  | bmin2 (o : R3)
  | bmax2 (o : R3)
  | beq2 (o : R3)
  | blt2 (o : R3)
  | cvtF32F64 (o : RR2)
  | cvtF64F32 (o : RR2)
  | cvtF16F32 (o : RR2)
  | cvtF32F16 (o : RR2)
  | cvtBf16F32 (o : RR2)
  | cvtF32Bf16 (o : RR2)
  | cvtE4m3F32 (o : RR2)
  | cvtF32E4m3 (o : RR2)
  | cvtE5m2F32 (o : RR2)
  | cvtF32E5m2 (o : RR2)
  | cvtF6aF32 (o : RR2)
  | cvtF32F6a (o : RR2)
  | cvtF6bF32 (o : RR2)
  | cvtF32F6b (o : RR2)
  | cvtE8m10F32 (o : RR2)
  | cvtF16x2F32 (o : RR2)
  | cvtF32F16x2 (o : RR2)
  | cvtBf16x2F32 (o : RR2)
  | cvtF32Bf16x2 (o : RR2)
  | cvtE4m3x2F32 (o : RR2)
  | cvtE5m2x2F32 (o : RR2)
  | cvtI32F32 (o : RR2)
  | cvtUi32F32 (o : RR2)
  | cvtI64F32 (o : RR2)
  | cvtUi64F32 (o : RR2)
  | cvtI32F64 (o : RR2)
  | cvtUi32F64 (o : RR2)
  | cvtI64F64 (o : RR2)
  | cvtUi64F64 (o : RR2)
  | cvtF32I32 (o : RR2)
  | cvtF32Ui32 (o : RR2)
  | cvtF32I64 (o : RR2)
  | cvtF32Ui64 (o : RR2)
  | cvtF64I32 (o : RR2)
  | cvtF64Ui32 (o : RR2)
  | cvtF64I64 (o : RR2)
  | cvtF64Ui64 (o : RR2)
  | cvtI8F32 (o : RR2)
  | cvtF32I8 (o : RR2)
  | rcp (o : R2)
  | rsq (o : R2)
  | sqrt (o : R2)
  | ex2 (o : R2)
  | lg2 (o : R2)
  | sin (o : R2)
  | cos (o : R2)
  | tanh (o : R2)
  | actNear (o : RT)
  | actLin (o : RT)
  | rand (o : RD)
  | randu (o : RD)
  | randn (o : RD)
  | rskip (o : RAB)
  | rsel (o : R2)
  | epreset
  | epstep
  | rpeek (o : R3)
  | ld (o : M2)
  | st (o : M2)
  | ldX (x : BitVec 26) (o : M2)
  | stX (x : BitVec 26) (o : M2)
  | ldf (o : L2)
  | stf (o : L2)
  | ldfX (x : BitVec 26) (o : L2)
  | stfX (x : BitVec 26) (o : L2)
  | atomAdd (o : R3)
  | atomMin (o : R3)
  | atomMax (o : R3)
  | atomAnd (o : R3)
  | atomOr (o : R3)
  | atomXor (o : R3)
  | atomXchg (o : R3)
  | atomCas (o : R3)
  | atomAdd64 (o : R3)
  | atomCas64 (o : R3)
  | atomXchg64 (o : R3)
  | atomFadd32 (o : R3)
  | atomFadd64 (o : R3)
  | atomBfadd2 (o : R3)
  | atomFmin32 (o : R3)
  | atomFmax32 (o : R3)
  | lda32 (o : RJ)
  | lda64 (o : RJ)
  | sta32 (o : RJ)
  | sta64 (o : RJ)
  | affset (o : RAJ)
  | affcnt (o : RDJ)
  | a2gLoc (o : R2)
  | a2gPad (o : R2)
  | a2gCel (o : R2)
  | g2aLoc (o : R2)
  | g2aPad (o : R2)
  | g2aCel (o : R2)
  | inspace (o : R3)
  | spaceof (o : R2)
  | oprdy
  | drain
  | fenceDom
  | fenceSys
  | barTeam
  | barCrew
  | barCell
  | barStack
  | barDom
  | arrive (o : RDL)
  | waitb (o : RA)
  | shfl (o : R3)
  | shflup (o : R3)
  | shfldn (o : R3)
  | shflx (o : R3)
  | anyLane (o : R2)
  | allLanes (o : R2)
  | ballot (o : R2)
  | matchLanes (o : R2)
  | redadd (o : R2)
  | redmin (o : R2)
  | redmax (o : R2)
  | redfadd (o : R2)
  | scani (o : R2)
  | scane (o : R2)
  | segi (o : R3)
  | sege (o : R3)
  | beqz (o : B1)
  | bnez (o : B1)
  | bltz (o : B1)
  | bgez (o : B1)
  | blez (o : B1)
  | bgtz (o : B1)
  | bra (o : O15)
  | bru (o : B1)
  | beqzX (x : BitVec 26) (o : B1)
  | bnezX (x : BitVec 26) (o : B1)
  | bltzX (x : BitVec 26) (o : B1)
  | bgezX (x : BitVec 26) (o : B1)
  | blezX (x : BitVec 26) (o : B1)
  | bgtzX (x : BitVec 26) (o : B1)
  | braX (x : BitVec 26) (o : O15)
  | bruX (x : BitVec 26) (o : B1)
  | jmp (o : O26)
  | call (o : O26)
  | jmpX (x : BitVec 26) (o : O26)
  | callX (x : BitVec 26) (o : O26)
  | jr (o : RA)
  | jalr (o : R2)
  | ret
  | loop (o : LoopOp)
  | spawn (o : RAB)
  | exitThread
  | regroup (o : RA)
  | yield
  | elect (o : RD)
  | win (o : RA)
  | dqput (o : RA)
  | dqget (o : RD)
  | tasknew (o : R2)
  | trigger
  | waitdep
  | iter (o : RD)
  | fixup (o : R2)
  | stqput (o : RAB)
  | stqget (o : R2)
  | stqtry (o : R3b)
  | mfsr (o : MfsrOp)
  | mtsr (o : MtsrOp)
  | trap (o : N7)
  | eret
  | savefe (o : R2)
  | loadfe (o : RAB)
  | bkpt
  | brk
  | probe (o : N4)
  | halt
  | cpTld (o : R2)
  | cpTst (o : R2)
  | cpGth (o : R2)
  | cpSct (o : R2)
  | cpLin (o : R2)
  | cpFill (o : R2)
  | cpMcst (o : R2)
  | mmE4m3 (o : R2)
  | mmE5m2 (o : R2)
  | mmF6a (o : R2)
  | mmF6b (o : R2)
  | mmBf16 (o : R2)
  | mmFp16 (o : R2)
  | mmI8 (o : R2)
  | mmE8m10 (o : R2)
  | mmsE4m3 (o : R2)
  | mmsE5m2 (o : R2)
  | mmsF6a (o : R2)
  | mmsF6b (o : R2)
  | mmsBf16 (o : R2)
  | mmsFp16 (o : R2)
  | mmsI8 (o : R2)
  | mmsE8m10 (o : R2)
  | qmE4m3B0 (o : R2)
  | qmE4m3B1 (o : R2)
  | qmE4m3B2 (o : R2)
  | qmE4m3B3 (o : R2)
  | qmE5m2B0 (o : R2)
  | qmE5m2B1 (o : R2)
  | qmE5m2B2 (o : R2)
  | qmE5m2B3 (o : R2)
  | qmF6aB0 (o : R2)
  | qmF6aB1 (o : R2)
  | qmF6aB2 (o : R2)
  | qmF6aB3 (o : R2)
  | qmF6bB0 (o : R2)
  | qmF6bB1 (o : R2)
  | qmF6bB2 (o : R2)
  | qmF6bB3 (o : R2)
  | qmBf16 (o : R2)
  | qmFp16 (o : R2)
  | qmI8 (o : R2)
  | qmE8m10 (o : R2)
  | drnF32 (o : R2)
  | drnBf16 (o : R2)
  | drnFp16 (o : R2)
  | drnE4m3 (o : R2)
  | mzero (o : R2)
  | mstat (o : R2)
  | pvE4m3 (o : R2)
  | pvBf16 (o : R2)
  | pvI8 (o : R2)
  | pvMask (o : R2)
  | pvPred (o : R2)
  | tbLoad (o : R2)
  | tbSwap (o : R2)
  | hgBind (o : RD)
  | hgRead (o : R2)
  | hgClr (o : RD)
  | fxPut (o : R2)
  | fxGet (o : R2)
  | fxAredF32 (o : R2)
  | fxAredBf16 (o : R2)
  | fxBcast (o : R2)
  | fxSig (o : R2)
  | neBind (o : R2)
  | neEval (o : R2)
  | neEvalg (o : R2)
  | neBwd (o : R2)
  | neFlush (o : RD)
  | neUnbind (o : R2)
  | tdBind (o : R2)
  | tdDesc (o : R2)
  | tdBwd (o : R2)
  | tdPath (o : R2)
  | grSort32 (o : R2)
  | grSort64 (o : R2)
  | grMorton (o : R2)
  | grSap (o : R2)
  | cvQbox (o : R2)
  | cvQray (o : R2)
  | psLu32 (o : R2)
  | psLu64 (o : R2)
  | psChol32 (o : R2)
  | psChol64 (o : R2)
  | psSolve (o : R2)
  | psBwd (o : R2)
  | psPgs (o : R2)
  deriving DecidableEq, Repr

end Sys2Proof
end

