-- ==== Sys2Proof/Decode.lean ====
section
/-! DEFINITION. From bytes to instructions and back: the formats of R32, the opcode map of R40 to R42 with the X word of
R35 to R37, and the encoder. A word that is no instruction is rejected by the name of its failure (R43). -/

namespace Sys2Proof

/-- Why a word is not an instruction: the failures of R43 that depend on the word alone. -/
inductive DecodeError where
  /-- Sub-cause 1: reserved major opcode, m, c or sz value. -/
  | reserved
  /-- Sub-cause 4: X word misuse (R36). -/
  | xMisuse
  /-- Sub-cause 3: a nonzero reserved field, or an unused operand field that is not 127. -/
  | badField
  /-- Sub-cause 2: an unassigned conversion code, table number or engine command code. -/
  | unassigned
  /-- Fewer bytes than the instruction has. -/
  | short
  deriving DecidableEq, Repr

/-- The ILLEGAL sub-cause of R43; 0 for bytes that end early. -/
def DecodeError.sub : DecodeError → Nat
  | .reserved => 1 | .xMisuse => 4 | .badField => 3 | .unassigned => 2 | .short => 0

/-- Go on only when `c` holds. -/
def need (c : Bool) (e : DecodeError) (r : Except DecodeError Instr) : Except DecodeError Instr :=
  if c then r else .error e

/-! ### Formats (R32) -/

/-- The fields of format R. -/
structure RWord where
  f : Bool
  g : Bool
  m : BitVec 3
  d : Fld
  a : Fld
  b : Fld
  deriving DecidableEq, Repr

/-- The fields of format I. -/
structure IWord where
  f : Bool
  d : Fld
  a : Fld
  i : BitVec 11
  deriving DecidableEq, Repr

/-- The fields of format M. -/
structure MWord where
  f : Bool
  s : BitVec 3
  d : Fld
  a : Fld
  i : BitVec 8
  deriving DecidableEq, Repr

/-- The fields of format B. -/
structure BWord where
  f : Bool
  c : BitVec 3
  a : Fld
  o : BitVec 15
  deriving DecidableEq, Repr

def opOf (w : W32) : BitVec 6 := w.extractLsb' 26 6
def rOf (w : W32) : RWord :=
  { f := w.getLsbD 25, g := w.getLsbD 24, m := w.extractLsb' 21 3, d := w.extractLsb' 14 7, a := w.extractLsb' 7 7,
    b := w.extractLsb' 0 7 }
def iOf (w : W32) : IWord :=
  { f := w.getLsbD 25, d := w.extractLsb' 18 7, a := w.extractLsb' 11 7, i := w.extractLsb' 0 11 }
def mOf (w : W32) : MWord :=
  { f := w.getLsbD 25, s := w.extractLsb' 22 3, d := w.extractLsb' 15 7, a := w.extractLsb' 8 7,
    i := w.extractLsb' 0 8 }
def bOf (w : W32) : BWord :=
  { f := w.getLsbD 25, c := w.extractLsb' 22 3, a := w.extractLsb' 15 7, o := w.extractLsb' 0 15 }
def joOf (w : W32) : BitVec 26 := w.extractLsb' 0 26

def packR (op : BitVec 6) (f g : Bool) (m : BitVec 3) (d a b : Fld) : W32 :=
  op ++ BitVec.ofBool f ++ BitVec.ofBool g ++ m ++ d ++ a ++ b
def packI (op : BitVec 6) (f : Bool) (d a : Fld) (i : BitVec 11) : W32 := op ++ BitVec.ofBool f ++ d ++ a ++ i
def packM (op : BitVec 6) (f : Bool) (s : BitVec 3) (d a : Fld) (i : BitVec 8) : W32 :=
  op ++ BitVec.ofBool f ++ s ++ d ++ a ++ i
def packB (op : BitVec 6) (f : Bool) (c : BitVec 3) (a : Fld) (o : BitVec 15) : W32 :=
  op ++ BitVec.ofBool f ++ c ++ a ++ o
def packJ (op : BitVec 6) (o : BitVec 26) : W32 := op ++ o
/-- The X word (R32): major opcode 0x3F. -/
def packX (x : BitVec 26) : W32 := packJ 0x3F#6 x

/-- The major opcodes whose immediate an X word widens (R36). -/
def xAllowed (op : Nat) : Bool := op ∈ ([0x07, 0x08, 0x09, 0x0A, 0x0B, 0x0D, 0x24, 0x25, 0x26, 0x27, 0x30, 0x31, 0x32] : List Nat)

/-! ### The opcode map -/

/-- Major opcode 0x00 (R40). -/
noncomputable def dec00 (r : RWord) : Except DecodeError Instr :=
  match r.m.toNat with
  | 0 => .ok (.add { f := r.f, g := r.g, d := r.d, a := r.a, b := r.b })
  | 1 => .ok (.sub { f := r.f, g := r.g, d := r.d, a := r.a, b := r.b })
  | 2 => .ok (.and { f := r.f, g := r.g, d := r.d, a := r.a, b := r.b })
  | 3 => .ok (.or { f := r.f, g := r.g, d := r.d, a := r.a, b := r.b })
  | 4 => .ok (.xor { f := r.f, g := r.g, d := r.d, a := r.a, b := r.b })
  | 5 => .ok (.shl { f := r.f, g := r.g, d := r.d, a := r.a, b := r.b })
  | 6 => .ok (.shr { f := r.f, g := r.g, d := r.d, a := r.a, b := r.b })
  | _ => .ok (.sra { f := r.f, g := r.g, d := r.d, a := r.a, b := r.b })

/-- Major opcode 0x01 (R40). -/
noncomputable def dec01 (r : RWord) : Except DecodeError Instr :=
  match r.m.toNat with
  | 0 => .ok (.add64 { f := r.f, g := r.g, d := r.d, a := r.a, b := r.b })
  | 1 => .ok (.sub64 { f := r.f, g := r.g, d := r.d, a := r.a, b := r.b })
  | 2 => .ok (.and64 { f := r.f, g := r.g, d := r.d, a := r.a, b := r.b })
  | 3 => .ok (.or64 { f := r.f, g := r.g, d := r.d, a := r.a, b := r.b })
  | 4 => .ok (.xor64 { f := r.f, g := r.g, d := r.d, a := r.a, b := r.b })
  | 5 => .ok (.shl64 { f := r.f, g := r.g, d := r.d, a := r.a, b := r.b })
  | 6 => .ok (.shr64 { f := r.f, g := r.g, d := r.d, a := r.a, b := r.b })
  | _ => .ok (.sra64 { f := r.f, g := r.g, d := r.d, a := r.a, b := r.b })

/-- Major opcode 0x02 (R40). -/
noncomputable def dec02 (r : RWord) : Except DecodeError Instr :=
  match r.m.toNat with
  | 0 => .ok (.mul { f := r.f, g := r.g, d := r.d, a := r.a, b := r.b })
  | 1 => .ok (.mulh { f := r.f, g := r.g, d := r.d, a := r.a, b := r.b })
  | 2 => .ok (.mulhu { f := r.f, g := r.g, d := r.d, a := r.a, b := r.b })
  | 3 => .ok (.mul64 { f := r.f, g := r.g, d := r.d, a := r.a, b := r.b })
  | 4 => .ok (.div { f := r.f, g := r.g, d := r.d, a := r.a, b := r.b })
  | 5 => .ok (.divu { f := r.f, g := r.g, d := r.d, a := r.a, b := r.b })
  | 6 => .ok (.rem { f := r.f, g := r.g, d := r.d, a := r.a, b := r.b })
  | _ => .ok (.remu { f := r.f, g := r.g, d := r.d, a := r.a, b := r.b })

/-- Major opcode 0x03 (R40). -/
noncomputable def dec03 (r : RWord) : Except DecodeError Instr :=
  match r.m.toNat with
  | 0 => .ok (.seq { f := r.f, g := r.g, d := r.d, a := r.a, b := r.b })
  | 1 => .ok (.sne { f := r.f, g := r.g, d := r.d, a := r.a, b := r.b })
  | 2 => .ok (.slt { f := r.f, g := r.g, d := r.d, a := r.a, b := r.b })
  | 3 => .ok (.sltu { f := r.f, g := r.g, d := r.d, a := r.a, b := r.b })
  | 4 => .ok (.sle { f := r.f, g := r.g, d := r.d, a := r.a, b := r.b })
  | 5 => .ok (.sleu { f := r.f, g := r.g, d := r.d, a := r.a, b := r.b })
  | 6 => .ok (.min { f := r.f, g := r.g, d := r.d, a := r.a, b := r.b })
  | _ => .ok (.max { f := r.f, g := r.g, d := r.d, a := r.a, b := r.b })

/-- Major opcode 0x04 (R40). -/
noncomputable def dec04 (r : RWord) : Except DecodeError Instr :=
  match r.m.toNat with
  | 0 => .ok (.seq64 { f := r.f, g := r.g, d := r.d, a := r.a, b := r.b })
  | 1 => .ok (.sne64 { f := r.f, g := r.g, d := r.d, a := r.a, b := r.b })
  | 2 => .ok (.slt64 { f := r.f, g := r.g, d := r.d, a := r.a, b := r.b })
  | 3 => .ok (.sltu64 { f := r.f, g := r.g, d := r.d, a := r.a, b := r.b })
  | 4 => .ok (.sle64 { f := r.f, g := r.g, d := r.d, a := r.a, b := r.b })
  | 5 => .ok (.sleu64 { f := r.f, g := r.g, d := r.d, a := r.a, b := r.b })
  | 6 => .ok (.min64 { f := r.f, g := r.g, d := r.d, a := r.a, b := r.b })
  | _ => .ok (.max64 { f := r.f, g := r.g, d := r.d, a := r.a, b := r.b })

/-- Major opcode 0x05 (R40). -/
noncomputable def dec05 (r : RWord) : Except DecodeError Instr :=
  match r.m.toNat with
  | 0 => need (!r.g && r.b == Fld.z) .badField <| .ok (.popc { f := r.f, d := r.d, a := r.a })
  | 1 => need (!r.g && r.b == Fld.z) .badField <| .ok (.clz { f := r.f, d := r.d, a := r.a })
  | 2 => need (!r.g && r.b == Fld.z) .badField <| .ok (.ctz { f := r.f, d := r.d, a := r.a })
  | 3 => need (!r.g && r.b == Fld.z) .badField <| .ok (.brev { f := r.f, d := r.d, a := r.a })
  | 4 => .ok (.bfx { f := r.f, g := r.g, d := r.d, a := r.a, b := r.b })
  | 5 => .ok (.bfi { f := r.f, g := r.g, d := r.d, a := r.a, b := r.b })
  | 6 => .ok (.prmt { f := r.f, g := r.g, d := r.d, a := r.a, b := r.b })
  | _ => .ok (.andn { f := r.f, g := r.g, d := r.d, a := r.a, b := r.b })

/-- Major opcode 0x06 (R40). -/
noncomputable def dec06 (r : RWord) : Except DecodeError Instr :=
  match r.m.toNat with
  | 0 => .ok (.sel { f := r.f, g := r.g, d := r.d, a := r.a, b := r.b })
  | 1 => need (!r.g && r.b == Fld.z) .badField <| .ok (.abs { f := r.f, d := r.d, a := r.a })
  | 2 => need (!r.g && r.b == Fld.z) .badField <| .ok (.neg { f := r.f, d := r.d, a := r.a })
  | 3 => need (!r.g && r.b == Fld.z) .badField <| .ok (.sext8 { f := r.f, d := r.d, a := r.a })
  | 4 => need (!r.g && r.b == Fld.z) .badField <| .ok (.sext16 { f := r.f, d := r.d, a := r.a })
  | 5 => need (!r.g && r.b == Fld.z) .badField <| .ok (.zext8 { f := r.f, d := r.d, a := r.a })
  | 6 => need (!r.g && r.b == Fld.z) .badField <| .ok (.zext16 { f := r.f, d := r.d, a := r.a })
  | _ => need (!r.g && r.b == Fld.z) .badField <| .ok (.unpt { f := r.f, d := r.d, a := r.a })

/-- Major opcode 0x07 (R40). -/
noncomputable def dec07 (r : IWord) : Except DecodeError Instr :=
  .ok (.addi { f := r.f, d := r.d, a := r.a, i := r.i })

/-- Major opcode 0x08 (R40). -/
noncomputable def dec08 (r : IWord) : Except DecodeError Instr :=
  .ok (.addi64 { f := r.f, d := r.d, a := r.a, i := r.i })

/-- Major opcode 0x09 (R40). -/
noncomputable def dec09 (r : IWord) : Except DecodeError Instr :=
  .ok (.andi { f := r.f, d := r.d, a := r.a, i := r.i })

/-- Major opcode 0x0A (R40). -/
noncomputable def dec0A (r : IWord) : Except DecodeError Instr :=
  .ok (.ori { f := r.f, d := r.d, a := r.a, i := r.i })

/-- Major opcode 0x0B (R40). -/
noncomputable def dec0B (r : IWord) : Except DecodeError Instr :=
  .ok (.xori { f := r.f, d := r.d, a := r.a, i := r.i })

/-- Major opcode 0x0C (R40). -/
noncomputable def dec0C (r : IWord) : Except DecodeError Instr :=
  need (decide (bitsOf r.i 7 6 = 0)) .badField <|
  match bitsOf r.i 10 8 with
  | 0 => need (decide (bitsOf r.i 5 5 = 0)) .badField <| .ok (.shli { f := r.f, d := r.d, a := r.a, n := r.i.setWidth 5 })
  | 1 => .ok (.shli64 { f := r.f, d := r.d, a := r.a, n := r.i.setWidth 6 })
  | 2 => need (decide (bitsOf r.i 5 5 = 0)) .badField <| .ok (.shri { f := r.f, d := r.d, a := r.a, n := r.i.setWidth 5 })
  | 3 => .ok (.shri64 { f := r.f, d := r.d, a := r.a, n := r.i.setWidth 6 })
  | 4 => need (decide (bitsOf r.i 5 5 = 0)) .badField <| .ok (.srai { f := r.f, d := r.d, a := r.a, n := r.i.setWidth 5 })
  | 5 => .ok (.srai64 { f := r.f, d := r.d, a := r.a, n := r.i.setWidth 6 })
  | 6 => need (decide (bitsOf r.i 5 5 = 0)) .badField <| .ok (.rori { f := r.f, d := r.d, a := r.a, n := r.i.setWidth 5 })
  | _ => .ok (.rori64 { f := r.f, d := r.d, a := r.a, n := r.i.setWidth 6 })

/-- Major opcode 0x0D (R40). -/
noncomputable def dec0D (r : IWord) : Except DecodeError Instr :=
  need (r.a == Fld.z) .badField <|
  if r.f then .ok (.li64 { d := r.d, i := r.i }) else .ok (.li { d := r.d, i := r.i })

/-- Major opcode 0x0E (R40). -/
noncomputable def dec0E (r : RWord) : Except DecodeError Instr :=
  .ok (.lea { f := r.f, g := r.g, r := r.m, d := r.d, a := r.a, b := r.b })

/-- Major opcode 0x0F (R40). -/
noncomputable def dec0F (r : RWord) : Except DecodeError Instr :=
  need (decide (r.m.toNat < 6)) .reserved <| .ok (.fadd32 { f := r.f, g := r.g, r := r.m, d := r.d, a := r.a, b := r.b })

/-- Major opcode 0x10 (R40). -/
noncomputable def dec10 (r : RWord) : Except DecodeError Instr :=
  need (decide (r.m.toNat < 6)) .reserved <| .ok (.fsub32 { f := r.f, g := r.g, r := r.m, d := r.d, a := r.a, b := r.b })

/-- Major opcode 0x11 (R40). -/
noncomputable def dec11 (r : RWord) : Except DecodeError Instr :=
  need (decide (r.m.toNat < 6)) .reserved <| .ok (.fmul32 { f := r.f, g := r.g, r := r.m, d := r.d, a := r.a, b := r.b })

/-- Major opcode 0x12 (R40). -/
noncomputable def dec12 (r : RWord) : Except DecodeError Instr :=
  need (decide (r.m.toNat < 6)) .reserved <| .ok (.ffma32 { f := r.f, g := r.g, r := r.m, d := r.d, a := r.a, b := r.b })

/-- Major opcode 0x13 (R40). -/
noncomputable def dec13 (r : RWord) : Except DecodeError Instr :=
  need (decide (r.m.toNat < 6)) .reserved <| .ok (.fadd64 { f := r.f, g := r.g, r := r.m, d := r.d, a := r.a, b := r.b })

/-- Major opcode 0x14 (R40). -/
noncomputable def dec14 (r : RWord) : Except DecodeError Instr :=
  need (decide (r.m.toNat < 6)) .reserved <| .ok (.fsub64 { f := r.f, g := r.g, r := r.m, d := r.d, a := r.a, b := r.b })

/-- Major opcode 0x15 (R40). -/
noncomputable def dec15 (r : RWord) : Except DecodeError Instr :=
  need (decide (r.m.toNat < 6)) .reserved <| .ok (.fmul64 { f := r.f, g := r.g, r := r.m, d := r.d, a := r.a, b := r.b })

/-- Major opcode 0x16 (R40). -/
noncomputable def dec16 (r : RWord) : Except DecodeError Instr :=
  need (decide (r.m.toNat < 6)) .reserved <| .ok (.ffma64 { f := r.f, g := r.g, r := r.m, d := r.d, a := r.a, b := r.b })

/-- Major opcode 0x17 (R40). -/
noncomputable def dec17 (r : RWord) : Except DecodeError Instr :=
  need (decide (r.m.toNat < 6)) .reserved <| .ok (.hadd2 { f := r.f, g := r.g, r := r.m, d := r.d, a := r.a, b := r.b })

/-- Major opcode 0x18 (R40). -/
noncomputable def dec18 (r : RWord) : Except DecodeError Instr :=
  need (decide (r.m.toNat < 6)) .reserved <| .ok (.hmul2 { f := r.f, g := r.g, r := r.m, d := r.d, a := r.a, b := r.b })

/-- Major opcode 0x19 (R40). -/
noncomputable def dec19 (r : RWord) : Except DecodeError Instr :=
  need (decide (r.m.toNat < 6)) .reserved <| .ok (.hfma2 { f := r.f, g := r.g, r := r.m, d := r.d, a := r.a, b := r.b })

/-- Major opcode 0x1A (R40). -/
noncomputable def dec1A (r : RWord) : Except DecodeError Instr :=
  need (decide (r.m.toNat < 6)) .reserved <| .ok (.badd2 { f := r.f, g := r.g, r := r.m, d := r.d, a := r.a, b := r.b })

/-- Major opcode 0x1B (R40). -/
noncomputable def dec1B (r : RWord) : Except DecodeError Instr :=
  need (decide (r.m.toNat < 6)) .reserved <| .ok (.bmul2 { f := r.f, g := r.g, r := r.m, d := r.d, a := r.a, b := r.b })

/-- Major opcode 0x1C (R40). -/
noncomputable def dec1C (r : RWord) : Except DecodeError Instr :=
  need (decide (r.m.toNat < 6)) .reserved <| .ok (.bfma2 { f := r.f, g := r.g, r := r.m, d := r.d, a := r.a, b := r.b })

/-- Major opcode 0x1D (R40). -/
noncomputable def dec1D (r : RWord) : Except DecodeError Instr :=
  match r.m.toNat with
  | 0 => .ok (.feq { f := r.f, g := r.g, d := r.d, a := r.a, b := r.b })
  | 1 => .ok (.flt { f := r.f, g := r.g, d := r.d, a := r.a, b := r.b })
  | 2 => .ok (.fle { f := r.f, g := r.g, d := r.d, a := r.a, b := r.b })
  | 3 => .ok (.funord { f := r.f, g := r.g, d := r.d, a := r.a, b := r.b })
  | 4 => .ok (.fmin { f := r.f, g := r.g, d := r.d, a := r.a, b := r.b })
  | 5 => .ok (.fmax { f := r.f, g := r.g, d := r.d, a := r.a, b := r.b })
  | 6 => need (!r.g && r.b == Fld.z) .badField <| .ok (.fclass { f := r.f, d := r.d, a := r.a })
  | _ => .ok (.fsgnj { f := r.f, g := r.g, d := r.d, a := r.a, b := r.b })

/-- Major opcode 0x1E (R40). -/
noncomputable def dec1E (r : RWord) : Except DecodeError Instr :=
  match r.m.toNat with
  | 0 => .ok (.feq64 { f := r.f, g := r.g, d := r.d, a := r.a, b := r.b })
  | 1 => .ok (.flt64 { f := r.f, g := r.g, d := r.d, a := r.a, b := r.b })
  | 2 => .ok (.fle64 { f := r.f, g := r.g, d := r.d, a := r.a, b := r.b })
  | 3 => .ok (.funord64 { f := r.f, g := r.g, d := r.d, a := r.a, b := r.b })
  | 4 => .ok (.fmin64 { f := r.f, g := r.g, d := r.d, a := r.a, b := r.b })
  | 5 => .ok (.fmax64 { f := r.f, g := r.g, d := r.d, a := r.a, b := r.b })
  | 6 => need (!r.g && r.b == Fld.z) .badField <| .ok (.fclass64 { f := r.f, d := r.d, a := r.a })
  | _ => .ok (.fsgnj64 { f := r.f, g := r.g, d := r.d, a := r.a, b := r.b })

/-- Major opcode 0x1F (R40). -/
noncomputable def dec1F (r : RWord) : Except DecodeError Instr :=
  match r.m.toNat with
  | 0 => .ok (.hmin2 { f := r.f, g := r.g, d := r.d, a := r.a, b := r.b })
  | 1 => .ok (.hmax2 { f := r.f, g := r.g, d := r.d, a := r.a, b := r.b })
  | 2 => .ok (.heq2 { f := r.f, g := r.g, d := r.d, a := r.a, b := r.b })
  | 3 => .ok (.hlt2 { f := r.f, g := r.g, d := r.d, a := r.a, b := r.b })
  | 4 => .ok (.bmin2 { f := r.f, g := r.g, d := r.d, a := r.a, b := r.b })
  | 5 => .ok (.bmax2 { f := r.f, g := r.g, d := r.d, a := r.a, b := r.b })
  | 6 => .ok (.beq2 { f := r.f, g := r.g, d := r.d, a := r.a, b := r.b })
  | _ => .ok (.blt2 { f := r.f, g := r.g, d := r.d, a := r.a, b := r.b })

/-- Major opcode 0x20 (R40). -/
noncomputable def dec20 (r : RWord) : Except DecodeError Instr :=
  need (decide (r.m.toNat < 6)) .reserved <| need (!r.g) .badField <|
  match r.b.toNat with
  | 0x00 => .ok (.cvtF32F64 { f := r.f, r := r.m, d := r.d, a := r.a })
  | 0x01 => .ok (.cvtF64F32 { f := r.f, r := r.m, d := r.d, a := r.a })
  | 0x02 => .ok (.cvtF16F32 { f := r.f, r := r.m, d := r.d, a := r.a })
  | 0x03 => .ok (.cvtF32F16 { f := r.f, r := r.m, d := r.d, a := r.a })
  | 0x04 => .ok (.cvtBf16F32 { f := r.f, r := r.m, d := r.d, a := r.a })
  | 0x05 => .ok (.cvtF32Bf16 { f := r.f, r := r.m, d := r.d, a := r.a })
  | 0x06 => .ok (.cvtE4m3F32 { f := r.f, r := r.m, d := r.d, a := r.a })
  | 0x07 => .ok (.cvtF32E4m3 { f := r.f, r := r.m, d := r.d, a := r.a })
  | 0x08 => .ok (.cvtE5m2F32 { f := r.f, r := r.m, d := r.d, a := r.a })
  | 0x09 => .ok (.cvtF32E5m2 { f := r.f, r := r.m, d := r.d, a := r.a })
  | 0x0A => .ok (.cvtF6aF32 { f := r.f, r := r.m, d := r.d, a := r.a })
  | 0x0B => .ok (.cvtF32F6a { f := r.f, r := r.m, d := r.d, a := r.a })
  | 0x0C => .ok (.cvtF6bF32 { f := r.f, r := r.m, d := r.d, a := r.a })
  | 0x0D => .ok (.cvtF32F6b { f := r.f, r := r.m, d := r.d, a := r.a })
  | 0x0E => .ok (.cvtE8m10F32 { f := r.f, r := r.m, d := r.d, a := r.a })
  | 0x10 => .ok (.cvtF16x2F32 { f := r.f, r := r.m, d := r.d, a := r.a })
  | 0x11 => .ok (.cvtF32F16x2 { f := r.f, r := r.m, d := r.d, a := r.a })
  | 0x12 => .ok (.cvtBf16x2F32 { f := r.f, r := r.m, d := r.d, a := r.a })
  | 0x13 => .ok (.cvtF32Bf16x2 { f := r.f, r := r.m, d := r.d, a := r.a })
  | 0x14 => .ok (.cvtE4m3x2F32 { f := r.f, r := r.m, d := r.d, a := r.a })
  | 0x15 => .ok (.cvtE5m2x2F32 { f := r.f, r := r.m, d := r.d, a := r.a })
  | 0x20 => .ok (.cvtI32F32 { f := r.f, r := r.m, d := r.d, a := r.a })
  | 0x21 => .ok (.cvtUi32F32 { f := r.f, r := r.m, d := r.d, a := r.a })
  | 0x22 => .ok (.cvtI64F32 { f := r.f, r := r.m, d := r.d, a := r.a })
  | 0x23 => .ok (.cvtUi64F32 { f := r.f, r := r.m, d := r.d, a := r.a })
  | 0x24 => .ok (.cvtI32F64 { f := r.f, r := r.m, d := r.d, a := r.a })
  | 0x25 => .ok (.cvtUi32F64 { f := r.f, r := r.m, d := r.d, a := r.a })
  | 0x26 => .ok (.cvtI64F64 { f := r.f, r := r.m, d := r.d, a := r.a })
  | 0x27 => .ok (.cvtUi64F64 { f := r.f, r := r.m, d := r.d, a := r.a })
  | 0x28 => .ok (.cvtF32I32 { f := r.f, r := r.m, d := r.d, a := r.a })
  | 0x29 => .ok (.cvtF32Ui32 { f := r.f, r := r.m, d := r.d, a := r.a })
  | 0x2A => .ok (.cvtF32I64 { f := r.f, r := r.m, d := r.d, a := r.a })
  | 0x2B => .ok (.cvtF32Ui64 { f := r.f, r := r.m, d := r.d, a := r.a })
  | 0x2C => .ok (.cvtF64I32 { f := r.f, r := r.m, d := r.d, a := r.a })
  | 0x2D => .ok (.cvtF64Ui32 { f := r.f, r := r.m, d := r.d, a := r.a })
  | 0x2E => .ok (.cvtF64I64 { f := r.f, r := r.m, d := r.d, a := r.a })
  | 0x2F => .ok (.cvtF64Ui64 { f := r.f, r := r.m, d := r.d, a := r.a })
  | 0x30 => .ok (.cvtI8F32 { f := r.f, r := r.m, d := r.d, a := r.a })
  | 0x31 => .ok (.cvtF32I8 { f := r.f, r := r.m, d := r.d, a := r.a })
  | _ => .error .unassigned

/-- Major opcode 0x21 (R40). -/
noncomputable def dec21 (r : RWord) : Except DecodeError Instr :=
  match r.m.toNat with
  | 0 => need (!r.g && r.b == Fld.z) .badField <| .ok (.rcp { f := r.f, d := r.d, a := r.a })
  | 1 => need (!r.g && r.b == Fld.z) .badField <| .ok (.rsq { f := r.f, d := r.d, a := r.a })
  | 2 => need (!r.g && r.b == Fld.z) .badField <| .ok (.sqrt { f := r.f, d := r.d, a := r.a })
  | 3 => need (!r.g && r.b == Fld.z) .badField <| .ok (.ex2 { f := r.f, d := r.d, a := r.a })
  | 4 => need (!r.g && r.b == Fld.z) .badField <| .ok (.lg2 { f := r.f, d := r.d, a := r.a })
  | 5 => need (!r.g && r.b == Fld.z) .badField <| .ok (.sin { f := r.f, d := r.d, a := r.a })
  | 6 => need (!r.g && r.b == Fld.z) .badField <| .ok (.cos { f := r.f, d := r.d, a := r.a })
  | _ => need (!r.g && r.b == Fld.z) .badField <| .ok (.tanh { f := r.f, d := r.d, a := r.a })

/-- Major opcode 0x22 (R40). -/
noncomputable def dec22 (r : RWord) : Except DecodeError Instr :=
  match r.m.toNat with
  | 0 => need (!r.g) .badField <| need (decide (r.b.toNat < 16)) .unassigned <| .ok (.actNear { f := r.f, d := r.d, a := r.a, t := r.b.setWidth 4 })
  | 1 => need (!r.g) .badField <| need (decide (r.b.toNat < 16)) .unassigned <| .ok (.actLin { f := r.f, d := r.d, a := r.a, t := r.b.setWidth 4 })
  | _ => .error .reserved

/-- Major opcode 0x23 (R40). -/
noncomputable def dec23 (r : RWord) : Except DecodeError Instr :=
  match r.m.toNat with
  | 0 => need (!r.f && !r.g && r.a == Fld.z && r.b == Fld.z) .badField <| .ok (.rand { d := r.d })
  | 1 => need (!r.f && !r.g && r.a == Fld.z && r.b == Fld.z) .badField <| .ok (.randu { d := r.d })
  | 2 => need (!r.f && !r.g && r.a == Fld.z && r.b == Fld.z) .badField <| .ok (.randn { d := r.d })
  | 3 => need (r.d == Fld.z) .badField <| .ok (.rskip { f := r.f, g := r.g, a := r.a, b := r.b })
  | 4 => need (!r.g && r.b == Fld.z) .badField <| .ok (.rsel { f := r.f, d := r.d, a := r.a })
  | 5 => need (!r.f && !r.g && r.d == Fld.z && r.a == Fld.z && r.b == Fld.z) .badField <| .ok (.epreset)
  | 6 => need (!r.f && !r.g && r.d == Fld.z && r.a == Fld.z && r.b == Fld.z) .badField <| .ok (.epstep)
  | _ => .ok (.rpeek { f := r.f, g := r.g, d := r.d, a := r.a, b := r.b })

/-- Major opcode 0x24 (R33, R40). -/
noncomputable def dec24 (r : MWord) : Except DecodeError Instr :=
  need (r.s != 7#3) .reserved <| .ok (.ld { f := r.f, s := r.s, d := r.d, a := r.a, i := r.i })

/-- Major opcode 0x25 (R33, R40). -/
noncomputable def dec25 (r : MWord) : Except DecodeError Instr :=
  need (r.s != 1#3 && r.s != 3#3 && r.s != 7#3) .reserved <| .ok (.st { f := r.f, s := r.s, d := r.d, a := r.a, i := r.i })

/-- Major opcode 0x26 (R33, R40). -/
noncomputable def dec26 (r : MWord) : Except DecodeError Instr :=
  need (r.s == 5#3) .reserved <| .ok (.ldf { f := r.f, d := r.d, a := r.a, i := r.i })

/-- Major opcode 0x27 (R33, R40). -/
noncomputable def dec27 (r : MWord) : Except DecodeError Instr :=
  need (r.s == 5#3) .reserved <| .ok (.stf { f := r.f, d := r.d, a := r.a, i := r.i })

/-- Major opcode 0x28 (R40). -/
noncomputable def dec28 (r : RWord) : Except DecodeError Instr :=
  match r.m.toNat with
  | 0 => .ok (.atomAdd { f := r.f, g := r.g, d := r.d, a := r.a, b := r.b })
  | 1 => .ok (.atomMin { f := r.f, g := r.g, d := r.d, a := r.a, b := r.b })
  | 2 => .ok (.atomMax { f := r.f, g := r.g, d := r.d, a := r.a, b := r.b })
  | 3 => .ok (.atomAnd { f := r.f, g := r.g, d := r.d, a := r.a, b := r.b })
  | 4 => .ok (.atomOr { f := r.f, g := r.g, d := r.d, a := r.a, b := r.b })
  | 5 => .ok (.atomXor { f := r.f, g := r.g, d := r.d, a := r.a, b := r.b })
  | 6 => .ok (.atomXchg { f := r.f, g := r.g, d := r.d, a := r.a, b := r.b })
  | _ => .ok (.atomCas { f := r.f, g := r.g, d := r.d, a := r.a, b := r.b })

/-- Major opcode 0x29 (R40). -/
noncomputable def dec29 (r : RWord) : Except DecodeError Instr :=
  match r.m.toNat with
  | 0 => .ok (.atomAdd64 { f := r.f, g := r.g, d := r.d, a := r.a, b := r.b })
  | 1 => .ok (.atomCas64 { f := r.f, g := r.g, d := r.d, a := r.a, b := r.b })
  | 2 => .ok (.atomXchg64 { f := r.f, g := r.g, d := r.d, a := r.a, b := r.b })
  | 3 => .ok (.atomFadd32 { f := r.f, g := r.g, d := r.d, a := r.a, b := r.b })
  | 4 => .ok (.atomFadd64 { f := r.f, g := r.g, d := r.d, a := r.a, b := r.b })
  | 5 => .ok (.atomBfadd2 { f := r.f, g := r.g, d := r.d, a := r.a, b := r.b })
  | 6 => .ok (.atomFmin32 { f := r.f, g := r.g, d := r.d, a := r.a, b := r.b })
  | _ => .ok (.atomFmax32 { f := r.f, g := r.g, d := r.d, a := r.a, b := r.b })

/-- Major opcode 0x2A (R40). -/
noncomputable def dec2A (r : RWord) : Except DecodeError Instr :=
  match r.m.toNat with
  | 0 => need (!r.g) .badField <| need (decide (r.b.toNat < 8)) .unassigned <| .ok (.lda32 { f := r.f, d := r.d, a := r.a, j := r.b.setWidth 3 })
  | 1 => need (!r.g) .badField <| need (decide (r.b.toNat < 8)) .unassigned <| .ok (.lda64 { f := r.f, d := r.d, a := r.a, j := r.b.setWidth 3 })
  | 2 => need (!r.g) .badField <| need (decide (r.b.toNat < 8)) .unassigned <| .ok (.sta32 { f := r.f, d := r.d, a := r.a, j := r.b.setWidth 3 })
  | 3 => need (!r.g) .badField <| need (decide (r.b.toNat < 8)) .unassigned <| .ok (.sta64 { f := r.f, d := r.d, a := r.a, j := r.b.setWidth 3 })
  | 4 => need (!r.g && r.d == Fld.z) .badField <| need (decide (r.b.toNat < 8)) .unassigned <| .ok (.affset { f := r.f, a := r.a, j := r.b.setWidth 3 })
  | 5 => need (!r.f && !r.g && r.a == Fld.z) .badField <| need (decide (r.b.toNat < 8)) .unassigned <| .ok (.affcnt { d := r.d, j := r.b.setWidth 3 })
  | _ => .error .reserved

/-- Major opcode 0x2B (R40). -/
noncomputable def dec2B (r : RWord) : Except DecodeError Instr :=
  match r.m.toNat with
  | 0 => need (!r.g && r.b == Fld.z) .badField <| .ok (.a2gLoc { f := r.f, d := r.d, a := r.a })
  | 1 => need (!r.g && r.b == Fld.z) .badField <| .ok (.a2gPad { f := r.f, d := r.d, a := r.a })
  | 2 => need (!r.g && r.b == Fld.z) .badField <| .ok (.a2gCel { f := r.f, d := r.d, a := r.a })
  | 3 => need (!r.g && r.b == Fld.z) .badField <| .ok (.g2aLoc { f := r.f, d := r.d, a := r.a })
  | 4 => need (!r.g && r.b == Fld.z) .badField <| .ok (.g2aPad { f := r.f, d := r.d, a := r.a })
  | 5 => need (!r.g && r.b == Fld.z) .badField <| .ok (.g2aCel { f := r.f, d := r.d, a := r.a })
  | 6 => .ok (.inspace { f := r.f, g := r.g, d := r.d, a := r.a, b := r.b })
  | _ => need (!r.g && r.b == Fld.z) .badField <| .ok (.spaceof { f := r.f, d := r.d, a := r.a })

/-- Major opcode 0x2C (R40). -/
noncomputable def dec2C (r : RWord) : Except DecodeError Instr :=
  match r.m.toNat with
  | 0 => need (!r.f && !r.g && r.d == Fld.z && r.a == Fld.z && r.b == Fld.z) .badField <| .ok (.oprdy)
  | 1 => need (!r.f && !r.g && r.d == Fld.z && r.a == Fld.z && r.b == Fld.z) .badField <| .ok (.drain)
  | 2 => need (!r.f && !r.g && r.d == Fld.z && r.a == Fld.z && r.b == Fld.z) .badField <| .ok (.fenceDom)
  | 3 => need (!r.f && !r.g && r.d == Fld.z && r.a == Fld.z && r.b == Fld.z) .badField <| .ok (.fenceSys)
  | _ => .error .reserved

/-- Major opcode 0x2D (R40). R157 gives an ARRIVE literal from 5 to 7 ILLEGAL, sub-cause 2, and speaks of no literal above 7: it gives
the same. (DESIGN CHOICE, log entry 96.) -/
noncomputable def dec2D (r : RWord) : Except DecodeError Instr :=
  match r.m.toNat with
  | 0 => need (!r.f && !r.g && r.d == Fld.z && r.a == Fld.z && r.b == Fld.z) .badField <| .ok (.barTeam)
  | 1 => need (!r.f && !r.g && r.d == Fld.z && r.a == Fld.z && r.b == Fld.z) .badField <| .ok (.barCrew)
  | 2 => need (!r.f && !r.g && r.d == Fld.z && r.a == Fld.z && r.b == Fld.z) .badField <| .ok (.barCell)
  | 3 => need (!r.f && !r.g && r.d == Fld.z && r.a == Fld.z && r.b == Fld.z) .badField <| .ok (.barStack)
  | 4 => need (!r.f && !r.g && r.d == Fld.z && r.a == Fld.z && r.b == Fld.z) .badField <| .ok (.barDom)
  | 5 => need (!r.f && !r.g && r.a == Fld.z) .badField <| need (decide (r.b.toNat < 5)) .unassigned <| .ok (.arrive { d := r.d, l := r.b.setWidth 3 })
  | 6 => need (!r.g && r.d == Fld.z && r.b == Fld.z) .badField <| .ok (.waitb { f := r.f, a := r.a })
  | _ => .error .reserved

/-- Major opcode 0x2E (R40). -/
noncomputable def dec2E (r : RWord) : Except DecodeError Instr :=
  match r.m.toNat with
  | 0 => .ok (.shfl { f := r.f, g := r.g, d := r.d, a := r.a, b := r.b })
  | 1 => .ok (.shflup { f := r.f, g := r.g, d := r.d, a := r.a, b := r.b })
  | 2 => .ok (.shfldn { f := r.f, g := r.g, d := r.d, a := r.a, b := r.b })
  | 3 => .ok (.shflx { f := r.f, g := r.g, d := r.d, a := r.a, b := r.b })
  | 4 => need (!r.g && r.b == Fld.z) .badField <| .ok (.anyLane { f := r.f, d := r.d, a := r.a })
  | 5 => need (!r.g && r.b == Fld.z) .badField <| .ok (.allLanes { f := r.f, d := r.d, a := r.a })
  | 6 => need (!r.g && r.b == Fld.z) .badField <| .ok (.ballot { f := r.f, d := r.d, a := r.a })
  | _ => need (!r.g && r.b == Fld.z) .badField <| .ok (.matchLanes { f := r.f, d := r.d, a := r.a })

/-- Major opcode 0x2F (R40). -/
noncomputable def dec2F (r : RWord) : Except DecodeError Instr :=
  match r.m.toNat with
  | 0 => need (!r.g && r.b == Fld.z) .badField <| .ok (.redadd { f := r.f, d := r.d, a := r.a })
  | 1 => need (!r.g && r.b == Fld.z) .badField <| .ok (.redmin { f := r.f, d := r.d, a := r.a })
  | 2 => need (!r.g && r.b == Fld.z) .badField <| .ok (.redmax { f := r.f, d := r.d, a := r.a })
  | 3 => need (!r.g && r.b == Fld.z) .badField <| .ok (.redfadd { f := r.f, d := r.d, a := r.a })
  | 4 => need (!r.g && r.b == Fld.z) .badField <| .ok (.scani { f := r.f, d := r.d, a := r.a })
  | 5 => need (!r.g && r.b == Fld.z) .badField <| .ok (.scane { f := r.f, d := r.d, a := r.a })
  | 6 => .ok (.segi { f := r.f, g := r.g, d := r.d, a := r.a, b := r.b })
  | _ => .ok (.sege { f := r.f, g := r.g, d := r.d, a := r.a, b := r.b })

/-- Major opcode 0x30 (R93). -/
noncomputable def dec30 (r : BWord) : Except DecodeError Instr :=
  match r.c.toNat with
  | 0 => .ok (.beqz { f := r.f, a := r.a, o := r.o })
  | 1 => .ok (.bnez { f := r.f, a := r.a, o := r.o })
  | 2 => .ok (.bltz { f := r.f, a := r.a, o := r.o })
  | 3 => .ok (.bgez { f := r.f, a := r.a, o := r.o })
  | 4 => .ok (.blez { f := r.f, a := r.a, o := r.o })
  | 5 => .ok (.bgtz { f := r.f, a := r.a, o := r.o })
  | 6 => need (!r.f && r.a == Fld.z) .badField <| .ok (.bra r.o)
  | _ => .ok (.bru { f := r.f, a := r.a, o := r.o })

/-- Major opcode 0x33 (R40). -/
noncomputable def dec33 (r : RWord) : Except DecodeError Instr :=
  match r.m.toNat with
  | 0 => need (!r.g && r.d == Fld.z && r.b == Fld.z) .badField <| .ok (.jr { f := r.f, a := r.a })
  | 1 => need (!r.g && r.b == Fld.z) .badField <| .ok (.jalr { f := r.f, d := r.d, a := r.a })
  | 2 => need (!r.f && !r.g && r.d == Fld.z && r.a == Fld.z && r.b == Fld.z) .badField <| .ok (.ret)
  | _ => .error .reserved

/-- Major opcode 0x34 (R40). -/
noncomputable def dec34 (r : IWord) : Except DecodeError Instr :=
  need (r.d == Fld.z && decide (bitsOf r.i 10 8 = 0)) .badField <| .ok (.loop { f := r.f, a := r.a, n := r.i.setWidth 8 })

/-- Major opcode 0x35 (R40). -/
noncomputable def dec35 (r : RWord) : Except DecodeError Instr :=
  match r.m.toNat with
  | 0 => need (r.d == Fld.z) .badField <| .ok (.spawn { f := r.f, g := r.g, a := r.a, b := r.b })
  | 1 => need (!r.f && !r.g && r.d == Fld.z && r.a == Fld.z && r.b == Fld.z) .badField <| .ok (.exitThread)
  | 2 => need (!r.g && r.d == Fld.z && r.b == Fld.z) .badField <| .ok (.regroup { f := r.f, a := r.a })
  | 3 => need (!r.f && !r.g && r.d == Fld.z && r.a == Fld.z && r.b == Fld.z) .badField <| .ok (.yield)
  | 4 => need (!r.f && !r.g && r.a == Fld.z && r.b == Fld.z) .badField <| .ok (.elect { d := r.d })
  | 5 => need (!r.g && r.d == Fld.z && r.b == Fld.z) .badField <| .ok (.win { f := r.f, a := r.a })
  | 6 => need (!r.g && r.d == Fld.z && r.b == Fld.z) .badField <| .ok (.dqput { f := r.f, a := r.a })
  | _ => need (!r.f && !r.g && r.a == Fld.z && r.b == Fld.z) .badField <| .ok (.dqget { d := r.d })

/-- Major opcode 0x36 (R40). -/
noncomputable def dec36 (r : RWord) : Except DecodeError Instr :=
  match r.m.toNat with
  | 0 => need (!r.g && r.b == Fld.z) .badField <| .ok (.tasknew { f := r.f, d := r.d, a := r.a })
  | 1 => need (!r.f && !r.g && r.d == Fld.z && r.a == Fld.z && r.b == Fld.z) .badField <| .ok (.trigger)
  | 2 => need (!r.f && !r.g && r.d == Fld.z && r.a == Fld.z && r.b == Fld.z) .badField <| .ok (.waitdep)
  | 3 => need (!r.f && !r.g && r.a == Fld.z && r.b == Fld.z) .badField <| .ok (.iter { d := r.d })
  | 4 => need (!r.g && r.b == Fld.z) .badField <| .ok (.fixup { f := r.f, d := r.d, a := r.a })
  | 5 => need (r.d == Fld.z) .badField <| .ok (.stqput { f := r.f, g := r.g, a := r.a, b := r.b })
  | 6 => need (!r.g && r.b == Fld.z) .badField <| .ok (.stqget { f := r.f, d := r.d, a := r.a })
  | _ => need (!r.g) .badField <| .ok (.stqtry { f := r.f, d := r.d, a := r.a, b := r.b })

/-- Major opcode 0x37 (R40). -/
noncomputable def dec37 (r : IWord) : Except DecodeError Instr :=
  need (!r.f && r.a == Fld.z) .badField <| .ok (.mfsr { d := r.d, n := r.i })

/-- Major opcode 0x38 (R40). -/
noncomputable def dec38 (r : IWord) : Except DecodeError Instr :=
  need (r.d == Fld.z) .badField <| .ok (.mtsr { f := r.f, a := r.a, n := r.i })

/-- Major opcode 0x39 (R40). -/
noncomputable def dec39 (r : RWord) : Except DecodeError Instr :=
  match r.m.toNat with
  | 0 => need (!r.f && !r.g && r.d == Fld.z && r.a == Fld.z) .badField <| .ok (.trap r.b)
  | 1 => need (!r.f && !r.g && r.d == Fld.z && r.a == Fld.z && r.b == Fld.z) .badField <| .ok (.eret)
  | 2 => need (!r.g && r.b == Fld.z) .badField <| .ok (.savefe { f := r.f, d := r.d, a := r.a })
  | 3 => need (r.d == Fld.z) .badField <| .ok (.loadfe { f := r.f, g := r.g, a := r.a, b := r.b })
  | 4 => need (!r.f && !r.g && r.d == Fld.z && r.a == Fld.z && r.b == Fld.z) .badField <| .ok (.bkpt)
  | 5 => need (!r.f && !r.g && r.d == Fld.z && r.a == Fld.z && r.b == Fld.z) .badField <| .ok (.brk)
  | 6 => need (!r.f && !r.g && r.d == Fld.z && r.a == Fld.z) .badField <| need (decide (r.b.toNat < 16)) .unassigned <| .ok (.probe (r.b.setWidth 4))
  | _ => need (!r.f && !r.g && r.d == Fld.z && r.a == Fld.z && r.b == Fld.z) .badField <| .ok (.halt)

/-- Engine 0 of major opcode 0x3A (R42). -/
noncomputable def dec3Am0 (r : RWord) : Except DecodeError Instr :=
  match r.b.toNat with
  | 0 => .ok (.cpTld { f := r.f, d := r.d, a := r.a })
  | 1 => .ok (.cpTst { f := r.f, d := r.d, a := r.a })
  | 2 => .ok (.cpGth { f := r.f, d := r.d, a := r.a })
  | 3 => .ok (.cpSct { f := r.f, d := r.d, a := r.a })
  | 4 => .ok (.cpLin { f := r.f, d := r.d, a := r.a })
  | 5 => .ok (.cpFill { f := r.f, d := r.d, a := r.a })
  | 6 => .ok (.cpMcst { f := r.f, d := r.d, a := r.a })
  | _ => .error .unassigned

/-- Engine 1 of major opcode 0x3A (R42). -/
noncomputable def dec3Am1 (r : RWord) : Except DecodeError Instr :=
  match r.b.toNat with
  | 0 => .ok (.mmE4m3 { f := r.f, d := r.d, a := r.a })
  | 1 => .ok (.mmE5m2 { f := r.f, d := r.d, a := r.a })
  | 2 => .ok (.mmF6a { f := r.f, d := r.d, a := r.a })
  | 3 => .ok (.mmF6b { f := r.f, d := r.d, a := r.a })
  | 4 => .ok (.mmBf16 { f := r.f, d := r.d, a := r.a })
  | 5 => .ok (.mmFp16 { f := r.f, d := r.d, a := r.a })
  | 6 => .ok (.mmI8 { f := r.f, d := r.d, a := r.a })
  | 7 => .ok (.mmE8m10 { f := r.f, d := r.d, a := r.a })
  | 8 => .ok (.mmsE4m3 { f := r.f, d := r.d, a := r.a })
  | 9 => .ok (.mmsE5m2 { f := r.f, d := r.d, a := r.a })
  | 10 => .ok (.mmsF6a { f := r.f, d := r.d, a := r.a })
  | 11 => .ok (.mmsF6b { f := r.f, d := r.d, a := r.a })
  | 12 => .ok (.mmsBf16 { f := r.f, d := r.d, a := r.a })
  | 13 => .ok (.mmsFp16 { f := r.f, d := r.d, a := r.a })
  | 14 => .ok (.mmsI8 { f := r.f, d := r.d, a := r.a })
  | 15 => .ok (.mmsE8m10 { f := r.f, d := r.d, a := r.a })
  | 16 => .ok (.qmE4m3B0 { f := r.f, d := r.d, a := r.a })
  | 17 => .ok (.qmE4m3B1 { f := r.f, d := r.d, a := r.a })
  | 18 => .ok (.qmE4m3B2 { f := r.f, d := r.d, a := r.a })
  | 19 => .ok (.qmE4m3B3 { f := r.f, d := r.d, a := r.a })
  | 20 => .ok (.qmE5m2B0 { f := r.f, d := r.d, a := r.a })
  | 21 => .ok (.qmE5m2B1 { f := r.f, d := r.d, a := r.a })
  | 22 => .ok (.qmE5m2B2 { f := r.f, d := r.d, a := r.a })
  | 23 => .ok (.qmE5m2B3 { f := r.f, d := r.d, a := r.a })
  | 24 => .ok (.qmF6aB0 { f := r.f, d := r.d, a := r.a })
  | 25 => .ok (.qmF6aB1 { f := r.f, d := r.d, a := r.a })
  | 26 => .ok (.qmF6aB2 { f := r.f, d := r.d, a := r.a })
  | 27 => .ok (.qmF6aB3 { f := r.f, d := r.d, a := r.a })
  | 28 => .ok (.qmF6bB0 { f := r.f, d := r.d, a := r.a })
  | 29 => .ok (.qmF6bB1 { f := r.f, d := r.d, a := r.a })
  | 30 => .ok (.qmF6bB2 { f := r.f, d := r.d, a := r.a })
  | 31 => .ok (.qmF6bB3 { f := r.f, d := r.d, a := r.a })
  | 32 => .ok (.qmBf16 { f := r.f, d := r.d, a := r.a })
  | 33 => .ok (.qmFp16 { f := r.f, d := r.d, a := r.a })
  | 34 => .ok (.qmI8 { f := r.f, d := r.d, a := r.a })
  | 35 => .ok (.qmE8m10 { f := r.f, d := r.d, a := r.a })
  | 40 => .ok (.drnF32 { f := r.f, d := r.d, a := r.a })
  | 41 => .ok (.drnBf16 { f := r.f, d := r.d, a := r.a })
  | 42 => .ok (.drnFp16 { f := r.f, d := r.d, a := r.a })
  | 43 => .ok (.drnE4m3 { f := r.f, d := r.d, a := r.a })
  | 44 => .ok (.mzero { f := r.f, d := r.d, a := r.a })
  | 45 => .ok (.mstat { f := r.f, d := r.d, a := r.a })
  | _ => .error .unassigned

/-- Engine 2 of major opcode 0x3A (R42). -/
noncomputable def dec3Am2 (r : RWord) : Except DecodeError Instr :=
  match r.b.toNat with
  | 0 => .ok (.pvE4m3 { f := r.f, d := r.d, a := r.a })
  | 1 => .ok (.pvBf16 { f := r.f, d := r.d, a := r.a })
  | 2 => .ok (.pvI8 { f := r.f, d := r.d, a := r.a })
  | 3 => .ok (.pvMask { f := r.f, d := r.d, a := r.a })
  | 4 => .ok (.pvPred { f := r.f, d := r.d, a := r.a })
  | _ => .error .unassigned

/-- Engine 3 of major opcode 0x3A (R42). -/
noncomputable def dec3Am3 (r : RWord) : Except DecodeError Instr :=
  match r.b.toNat with
  | 0 => .ok (.tbLoad { f := r.f, d := r.d, a := r.a })
  | 1 => .ok (.tbSwap { f := r.f, d := r.d, a := r.a })
  | 2 => need (!r.f && r.a == Fld.z) .badField <| .ok (.hgBind { d := r.d })
  | 3 => .ok (.hgRead { f := r.f, d := r.d, a := r.a })
  | 4 => need (!r.f && r.a == Fld.z) .badField <| .ok (.hgClr { d := r.d })
  | _ => .error .unassigned

/-- Engine 4 of major opcode 0x3A (R42). -/
noncomputable def dec3Am4 (r : RWord) : Except DecodeError Instr :=
  match r.b.toNat with
  | 0 => .ok (.fxPut { f := r.f, d := r.d, a := r.a })
  | 1 => .ok (.fxGet { f := r.f, d := r.d, a := r.a })
  | 2 => .ok (.fxAredF32 { f := r.f, d := r.d, a := r.a })
  | 3 => .ok (.fxAredBf16 { f := r.f, d := r.d, a := r.a })
  | 4 => .ok (.fxBcast { f := r.f, d := r.d, a := r.a })
  | 5 => .ok (.fxSig { f := r.f, d := r.d, a := r.a })
  | _ => .error .unassigned

/-- Major opcode 0x3A (R40). -/
noncomputable def dec3A (r : RWord) : Except DecodeError Instr :=
  match r.m.toNat with
  | 0 => need (!r.g) .badField <| dec3Am0 r
  | 1 => need (!r.g) .badField <| dec3Am1 r
  | 2 => need (!r.g) .badField <| dec3Am2 r
  | 3 => need (!r.g) .badField <| dec3Am3 r
  | 4 => need (!r.g) .badField <| dec3Am4 r
  | _ => .error .reserved

/-- Engine 0 of major opcode 0x3B (R42). -/
noncomputable def dec3Bm0 (r : RWord) : Except DecodeError Instr :=
  match r.b.toNat with
  | 0 => .ok (.neBind { f := r.f, d := r.d, a := r.a })
  | 1 => .ok (.neEval { f := r.f, d := r.d, a := r.a })
  | 2 => .ok (.neEvalg { f := r.f, d := r.d, a := r.a })
  | 3 => .ok (.neBwd { f := r.f, d := r.d, a := r.a })
  | 4 => need (!r.f && r.a == Fld.z) .badField <| .ok (.neFlush { d := r.d })
  | 5 => .ok (.neUnbind { f := r.f, d := r.d, a := r.a })
  | _ => .error .unassigned

/-- Engine 1 of major opcode 0x3B (R42). -/
noncomputable def dec3Bm1 (r : RWord) : Except DecodeError Instr :=
  match r.b.toNat with
  | 0 => .ok (.tdBind { f := r.f, d := r.d, a := r.a })
  | 1 => .ok (.tdDesc { f := r.f, d := r.d, a := r.a })
  | 2 => .ok (.tdBwd { f := r.f, d := r.d, a := r.a })
  | 3 => .ok (.tdPath { f := r.f, d := r.d, a := r.a })
  | _ => .error .unassigned

/-- Engine 2 of major opcode 0x3B (R42). -/
noncomputable def dec3Bm2 (r : RWord) : Except DecodeError Instr :=
  match r.b.toNat with
  | 0 => .ok (.grSort32 { f := r.f, d := r.d, a := r.a })
  | 1 => .ok (.grSort64 { f := r.f, d := r.d, a := r.a })
  | 2 => .ok (.grMorton { f := r.f, d := r.d, a := r.a })
  | 3 => .ok (.grSap { f := r.f, d := r.d, a := r.a })
  | _ => .error .unassigned

/-- Engine 3 of major opcode 0x3B (R42). -/
noncomputable def dec3Bm3 (r : RWord) : Except DecodeError Instr :=
  match r.b.toNat with
  | 0 => .ok (.cvQbox { f := r.f, d := r.d, a := r.a })
  | 1 => .ok (.cvQray { f := r.f, d := r.d, a := r.a })
  | _ => .error .unassigned

/-- Engine 4 of major opcode 0x3B (R42). -/
noncomputable def dec3Bm4 (r : RWord) : Except DecodeError Instr :=
  match r.b.toNat with
  | 0 => .ok (.psLu32 { f := r.f, d := r.d, a := r.a })
  | 1 => .ok (.psLu64 { f := r.f, d := r.d, a := r.a })
  | 2 => .ok (.psChol32 { f := r.f, d := r.d, a := r.a })
  | 3 => .ok (.psChol64 { f := r.f, d := r.d, a := r.a })
  | 4 => .ok (.psSolve { f := r.f, d := r.d, a := r.a })
  | 5 => .ok (.psBwd { f := r.f, d := r.d, a := r.a })
  | 6 => .ok (.psPgs { f := r.f, d := r.d, a := r.a })
  | _ => .error .unassigned

/-- Major opcode 0x3B (R40). -/
noncomputable def dec3B (r : RWord) : Except DecodeError Instr :=
  match r.m.toNat with
  | 0 => need (!r.g) .badField <| dec3Bm0 r
  | 1 => need (!r.g) .badField <| dec3Bm1 r
  | 2 => need (!r.g) .badField <| dec3Bm2 r
  | 3 => need (!r.g) .badField <| dec3Bm3 r
  | 4 => need (!r.g) .badField <| dec3Bm4 r
  | _ => .error .reserved

/-- A word that is not an X word and not behind one (R40). -/
noncomputable def decodeWord (w : W32) : Except DecodeError Instr :=
  match (opOf w).toNat with
  | 0x00 => dec00 (rOf w)
  | 0x01 => dec01 (rOf w)
  | 0x02 => dec02 (rOf w)
  | 0x03 => dec03 (rOf w)
  | 0x04 => dec04 (rOf w)
  | 0x05 => dec05 (rOf w)
  | 0x06 => dec06 (rOf w)
  | 0x07 => dec07 (iOf w)
  | 0x08 => dec08 (iOf w)
  | 0x09 => dec09 (iOf w)
  | 0x0A => dec0A (iOf w)
  | 0x0B => dec0B (iOf w)
  | 0x0C => dec0C (iOf w)
  | 0x0D => dec0D (iOf w)
  | 0x0E => dec0E (rOf w)
  | 0x0F => dec0F (rOf w)
  | 0x10 => dec10 (rOf w)
  | 0x11 => dec11 (rOf w)
  | 0x12 => dec12 (rOf w)
  | 0x13 => dec13 (rOf w)
  | 0x14 => dec14 (rOf w)
  | 0x15 => dec15 (rOf w)
  | 0x16 => dec16 (rOf w)
  | 0x17 => dec17 (rOf w)
  | 0x18 => dec18 (rOf w)
  | 0x19 => dec19 (rOf w)
  | 0x1A => dec1A (rOf w)
  | 0x1B => dec1B (rOf w)
  | 0x1C => dec1C (rOf w)
  | 0x1D => dec1D (rOf w)
  | 0x1E => dec1E (rOf w)
  | 0x1F => dec1F (rOf w)
  | 0x20 => dec20 (rOf w)
  | 0x21 => dec21 (rOf w)
  | 0x22 => dec22 (rOf w)
  | 0x23 => dec23 (rOf w)
  | 0x24 => dec24 (mOf w)
  | 0x25 => dec25 (mOf w)
  | 0x26 => dec26 (mOf w)
  | 0x27 => dec27 (mOf w)
  | 0x28 => dec28 (rOf w)
  | 0x29 => dec29 (rOf w)
  | 0x2A => dec2A (rOf w)
  | 0x2B => dec2B (rOf w)
  | 0x2C => dec2C (rOf w)
  | 0x2D => dec2D (rOf w)
  | 0x2E => dec2E (rOf w)
  | 0x2F => dec2F (rOf w)
  | 0x30 => dec30 (bOf w)
  | 0x31 => .ok (.jmp (joOf w))
  | 0x32 => .ok (.call (joOf w))
  | 0x33 => dec33 (rOf w)
  | 0x34 => dec34 (iOf w)
  | 0x35 => dec35 (rOf w)
  | 0x36 => dec36 (rOf w)
  | 0x37 => dec37 (iOf w)
  | 0x38 => dec38 (iOf w)
  | 0x39 => dec39 (rOf w)
  | 0x3A => dec3A (rOf w)
  | 0x3B => dec3B (rOf w)
  | _ => .error .reserved

/-- The word behind an X word (R35, R36): the formats that take an X word only, and a reserved major opcode stays reserved. -/
noncomputable def decodeX (x : BitVec 26) (w : W32) : Except DecodeError Instr :=
  if (opOf w).toNat ∈ [0x3C, 0x3D, 0x3E] then .error .reserved
  else if xAllowed (opOf w).toNat then
    match decodeWord w with
    | .ok (.addi o) => .ok (.addiX x o)
    | .ok (.addi64 o) => .ok (.addi64X x o)
    | .ok (.andi o) => .ok (.andiX x o)
    | .ok (.ori o) => .ok (.oriX x o)
    | .ok (.xori o) => .ok (.xoriX x o)
    | .ok (.li o) => .ok (.liX x o)
    | .ok (.li64 o) => .ok (.li64X x o)
    | .ok (.ld o) => .ok (.ldX x o)
    | .ok (.st o) => .ok (.stX x o)
    | .ok (.ldf o) => .ok (.ldfX x o)
    | .ok (.stf o) => .ok (.stfX x o)
    | .ok (.beqz o) => .ok (.beqzX x o)
    | .ok (.bnez o) => .ok (.bnezX x o)
    | .ok (.bltz o) => .ok (.bltzX x o)
    | .ok (.bgez o) => .ok (.bgezX x o)
    | .ok (.blez o) => .ok (.blezX x o)
    | .ok (.bgtz o) => .ok (.bgtzX x o)
    | .ok (.bra o) => .ok (.braX x o)
    | .ok (.bru o) => .ok (.bruX x o)
    | .ok (.jmp o) => .ok (.jmpX x o)
    | .ok (.call o) => .ok (.callX x o)
    | .ok _ => .error .xMisuse
    | .error e => .error e
  else if opOf w = 0x3F#6 then .error .xMisuse
  else
    match decodeWord w with
    | .error .reserved => .error .reserved
    | _ => .error .xMisuse

/-- One instruction from a word and, for an X word, the word behind it; the second component is its length in bytes
(R26). -/
noncomputable def decode2 (w : W32) (next : Option W32) : Except DecodeError (Instr × Nat) :=
  if opOf w = 0x3F#6 then
    match next with
    | none => .error .short
    | some w2 => (decodeX (joOf w) w2).map fun i => (i, 8)
  else (decodeWord w).map fun i => (i, 4)

/-- The little-endian word of four bytes (R3). -/
def wordLE (b0 b1 b2 b3 : Byte) : W32 := b3 ++ b2 ++ b1 ++ b0

/-- The first instruction of a list of bytes, with its length. -/
noncomputable def decode : List Byte → Except DecodeError (Instr × Nat)
  | b0 :: b1 :: b2 :: b3 :: b4 :: b5 :: b6 :: b7 :: _ =>
    decode2 (wordLE b0 b1 b2 b3) (some (wordLE b4 b5 b6 b7))
  | b0 :: b1 :: b2 :: b3 :: _ => decode2 (wordLE b0 b1 b2 b3) none
  | _ => .error .short

/-- Byte `i` of a number, least significant first. -/
def byteAt (w i : Nat) : Byte := BitVec.ofNat 8 (w >>> (8 * i))

/-- The instruction that the decoder reads from an instruction whose bits are `w`, numbered as the opcode table numbers
them; the words are laid out in memory order and the bits above the table's are 0. -/
noncomputable def decodeTableWord (nbits w : Nat) : Option Instr :=
  let v := w % 2 ^ (if nbits ≤ 64 then nbits else 64)
  match decode ((List.range 8).map (byteAt v)) with
  | .ok (i, _) => some i
  | .error _ => none

/-! ### The encoder -/

/-- The word of an instruction that stands without an X word (R32, R40, R42); none for the other constructors. -/
def wordOf : Instr → Option W32
  | .add o => some (packR 0#6 o.f o.g 0#3 o.d o.a o.b)
  | .sub o => some (packR 0#6 o.f o.g 1#3 o.d o.a o.b)
  | .and o => some (packR 0#6 o.f o.g 2#3 o.d o.a o.b)
  | .or o => some (packR 0#6 o.f o.g 3#3 o.d o.a o.b)
  | .xor o => some (packR 0#6 o.f o.g 4#3 o.d o.a o.b)
  | .shl o => some (packR 0#6 o.f o.g 5#3 o.d o.a o.b)
  | .shr o => some (packR 0#6 o.f o.g 6#3 o.d o.a o.b)
  | .sra o => some (packR 0#6 o.f o.g 7#3 o.d o.a o.b)
  | .add64 o => some (packR 1#6 o.f o.g 0#3 o.d o.a o.b)
  | .sub64 o => some (packR 1#6 o.f o.g 1#3 o.d o.a o.b)
  | .and64 o => some (packR 1#6 o.f o.g 2#3 o.d o.a o.b)
  | .or64 o => some (packR 1#6 o.f o.g 3#3 o.d o.a o.b)
  | .xor64 o => some (packR 1#6 o.f o.g 4#3 o.d o.a o.b)
  | .shl64 o => some (packR 1#6 o.f o.g 5#3 o.d o.a o.b)
  | .shr64 o => some (packR 1#6 o.f o.g 6#3 o.d o.a o.b)
  | .sra64 o => some (packR 1#6 o.f o.g 7#3 o.d o.a o.b)
  | .mul o => some (packR 2#6 o.f o.g 0#3 o.d o.a o.b)
  | .mulh o => some (packR 2#6 o.f o.g 1#3 o.d o.a o.b)
  | .mulhu o => some (packR 2#6 o.f o.g 2#3 o.d o.a o.b)
  | .mul64 o => some (packR 2#6 o.f o.g 3#3 o.d o.a o.b)
  | .div o => some (packR 2#6 o.f o.g 4#3 o.d o.a o.b)
  | .divu o => some (packR 2#6 o.f o.g 5#3 o.d o.a o.b)
  | .rem o => some (packR 2#6 o.f o.g 6#3 o.d o.a o.b)
  | .remu o => some (packR 2#6 o.f o.g 7#3 o.d o.a o.b)
  | .seq o => some (packR 3#6 o.f o.g 0#3 o.d o.a o.b)
  | .sne o => some (packR 3#6 o.f o.g 1#3 o.d o.a o.b)
  | .slt o => some (packR 3#6 o.f o.g 2#3 o.d o.a o.b)
  | .sltu o => some (packR 3#6 o.f o.g 3#3 o.d o.a o.b)
  | .sle o => some (packR 3#6 o.f o.g 4#3 o.d o.a o.b)
  | .sleu o => some (packR 3#6 o.f o.g 5#3 o.d o.a o.b)
  | .min o => some (packR 3#6 o.f o.g 6#3 o.d o.a o.b)
  | .max o => some (packR 3#6 o.f o.g 7#3 o.d o.a o.b)
  | .seq64 o => some (packR 4#6 o.f o.g 0#3 o.d o.a o.b)
  | .sne64 o => some (packR 4#6 o.f o.g 1#3 o.d o.a o.b)
  | .slt64 o => some (packR 4#6 o.f o.g 2#3 o.d o.a o.b)
  | .sltu64 o => some (packR 4#6 o.f o.g 3#3 o.d o.a o.b)
  | .sle64 o => some (packR 4#6 o.f o.g 4#3 o.d o.a o.b)
  | .sleu64 o => some (packR 4#6 o.f o.g 5#3 o.d o.a o.b)
  | .min64 o => some (packR 4#6 o.f o.g 6#3 o.d o.a o.b)
  | .max64 o => some (packR 4#6 o.f o.g 7#3 o.d o.a o.b)
  | .popc o => some (packR 5#6 o.f false 0#3 o.d o.a 127#7)
  | .clz o => some (packR 5#6 o.f false 1#3 o.d o.a 127#7)
  | .ctz o => some (packR 5#6 o.f false 2#3 o.d o.a 127#7)
  | .brev o => some (packR 5#6 o.f false 3#3 o.d o.a 127#7)
  | .bfx o => some (packR 5#6 o.f o.g 4#3 o.d o.a o.b)
  | .bfi o => some (packR 5#6 o.f o.g 5#3 o.d o.a o.b)
  | .prmt o => some (packR 5#6 o.f o.g 6#3 o.d o.a o.b)
  | .andn o => some (packR 5#6 o.f o.g 7#3 o.d o.a o.b)
  | .sel o => some (packR 6#6 o.f o.g 0#3 o.d o.a o.b)
  | .abs o => some (packR 6#6 o.f false 1#3 o.d o.a 127#7)
  | .neg o => some (packR 6#6 o.f false 2#3 o.d o.a 127#7)
  | .sext8 o => some (packR 6#6 o.f false 3#3 o.d o.a 127#7)
  | .sext16 o => some (packR 6#6 o.f false 4#3 o.d o.a 127#7)
  | .zext8 o => some (packR 6#6 o.f false 5#3 o.d o.a 127#7)
  | .zext16 o => some (packR 6#6 o.f false 6#3 o.d o.a 127#7)
  | .unpt o => some (packR 6#6 o.f false 7#3 o.d o.a 127#7)
  | .addi o => some (packI 7#6 o.f o.d o.a o.i)
  | .addi64 o => some (packI 8#6 o.f o.d o.a o.i)
  | .andi o => some (packI 9#6 o.f o.d o.a o.i)
  | .ori o => some (packI 10#6 o.f o.d o.a o.i)
  | .xori o => some (packI 11#6 o.f o.d o.a o.i)
  | .addiX _ _ => none
  | .addi64X _ _ => none
  | .andiX _ _ => none
  | .oriX _ _ => none
  | .xoriX _ _ => none
  | .shli o => some (packI 12#6 o.f o.d o.a (0#11 ||| o.n.setWidth 11))
  | .shri o => some (packI 12#6 o.f o.d o.a (512#11 ||| o.n.setWidth 11))
  | .srai o => some (packI 12#6 o.f o.d o.a (1024#11 ||| o.n.setWidth 11))
  | .rori o => some (packI 12#6 o.f o.d o.a (1536#11 ||| o.n.setWidth 11))
  | .shli64 o => some (packI 12#6 o.f o.d o.a (256#11 ||| o.n.setWidth 11))
  | .shri64 o => some (packI 12#6 o.f o.d o.a (768#11 ||| o.n.setWidth 11))
  | .srai64 o => some (packI 12#6 o.f o.d o.a (1280#11 ||| o.n.setWidth 11))
  | .rori64 o => some (packI 12#6 o.f o.d o.a (1792#11 ||| o.n.setWidth 11))
  | .li o => some (packI 13#6 false o.d 127#7 o.i)
  | .li64 o => some (packI 13#6 true o.d 127#7 o.i)
  | .liX _ _ => none
  | .li64X _ _ => none
  | .lea o => some (packR 14#6 o.f o.g o.r o.d o.a o.b)
  | .fadd32 o => some (packR 15#6 o.f o.g o.r o.d o.a o.b)
  | .fsub32 o => some (packR 16#6 o.f o.g o.r o.d o.a o.b)
  | .fmul32 o => some (packR 17#6 o.f o.g o.r o.d o.a o.b)
  | .ffma32 o => some (packR 18#6 o.f o.g o.r o.d o.a o.b)
  | .fadd64 o => some (packR 19#6 o.f o.g o.r o.d o.a o.b)
  | .fsub64 o => some (packR 20#6 o.f o.g o.r o.d o.a o.b)
  | .fmul64 o => some (packR 21#6 o.f o.g o.r o.d o.a o.b)
  | .ffma64 o => some (packR 22#6 o.f o.g o.r o.d o.a o.b)
  | .hadd2 o => some (packR 23#6 o.f o.g o.r o.d o.a o.b)
  | .hmul2 o => some (packR 24#6 o.f o.g o.r o.d o.a o.b)
  | .hfma2 o => some (packR 25#6 o.f o.g o.r o.d o.a o.b)
  | .badd2 o => some (packR 26#6 o.f o.g o.r o.d o.a o.b)
  | .bmul2 o => some (packR 27#6 o.f o.g o.r o.d o.a o.b)
  | .bfma2 o => some (packR 28#6 o.f o.g o.r o.d o.a o.b)
  | .feq o => some (packR 29#6 o.f o.g 0#3 o.d o.a o.b)
  | .flt o => some (packR 29#6 o.f o.g 1#3 o.d o.a o.b)
  | .fle o => some (packR 29#6 o.f o.g 2#3 o.d o.a o.b)
  | .funord o => some (packR 29#6 o.f o.g 3#3 o.d o.a o.b)
  | .fmin o => some (packR 29#6 o.f o.g 4#3 o.d o.a o.b)
  | .fmax o => some (packR 29#6 o.f o.g 5#3 o.d o.a o.b)
  | .fclass o => some (packR 29#6 o.f false 6#3 o.d o.a 127#7)
  | .fsgnj o => some (packR 29#6 o.f o.g 7#3 o.d o.a o.b)
  | .feq64 o => some (packR 30#6 o.f o.g 0#3 o.d o.a o.b)
  | .flt64 o => some (packR 30#6 o.f o.g 1#3 o.d o.a o.b)
  | .fle64 o => some (packR 30#6 o.f o.g 2#3 o.d o.a o.b)
  | .funord64 o => some (packR 30#6 o.f o.g 3#3 o.d o.a o.b)
  | .fmin64 o => some (packR 30#6 o.f o.g 4#3 o.d o.a o.b)
  | .fmax64 o => some (packR 30#6 o.f o.g 5#3 o.d o.a o.b)
  | .fclass64 o => some (packR 30#6 o.f false 6#3 o.d o.a 127#7)
  | .fsgnj64 o => some (packR 30#6 o.f o.g 7#3 o.d o.a o.b)
  | .hmin2 o => some (packR 31#6 o.f o.g 0#3 o.d o.a o.b)
  | .hmax2 o => some (packR 31#6 o.f o.g 1#3 o.d o.a o.b)
  | .heq2 o => some (packR 31#6 o.f o.g 2#3 o.d o.a o.b)
  | .hlt2 o => some (packR 31#6 o.f o.g 3#3 o.d o.a o.b)
  | .bmin2 o => some (packR 31#6 o.f o.g 4#3 o.d o.a o.b)
  | .bmax2 o => some (packR 31#6 o.f o.g 5#3 o.d o.a o.b)
  | .beq2 o => some (packR 31#6 o.f o.g 6#3 o.d o.a o.b)
  | .blt2 o => some (packR 31#6 o.f o.g 7#3 o.d o.a o.b)
  | .cvtF32F64 o => some (packR 32#6 o.f false o.r o.d o.a 0#7)
  | .cvtF64F32 o => some (packR 32#6 o.f false o.r o.d o.a 1#7)
  | .cvtF16F32 o => some (packR 32#6 o.f false o.r o.d o.a 2#7)
  | .cvtF32F16 o => some (packR 32#6 o.f false o.r o.d o.a 3#7)
  | .cvtBf16F32 o => some (packR 32#6 o.f false o.r o.d o.a 4#7)
  | .cvtF32Bf16 o => some (packR 32#6 o.f false o.r o.d o.a 5#7)
  | .cvtE4m3F32 o => some (packR 32#6 o.f false o.r o.d o.a 6#7)
  | .cvtF32E4m3 o => some (packR 32#6 o.f false o.r o.d o.a 7#7)
  | .cvtE5m2F32 o => some (packR 32#6 o.f false o.r o.d o.a 8#7)
  | .cvtF32E5m2 o => some (packR 32#6 o.f false o.r o.d o.a 9#7)
  | .cvtF6aF32 o => some (packR 32#6 o.f false o.r o.d o.a 10#7)
  | .cvtF32F6a o => some (packR 32#6 o.f false o.r o.d o.a 11#7)
  | .cvtF6bF32 o => some (packR 32#6 o.f false o.r o.d o.a 12#7)
  | .cvtF32F6b o => some (packR 32#6 o.f false o.r o.d o.a 13#7)
  | .cvtE8m10F32 o => some (packR 32#6 o.f false o.r o.d o.a 14#7)
  | .cvtF16x2F32 o => some (packR 32#6 o.f false o.r o.d o.a 16#7)
  | .cvtF32F16x2 o => some (packR 32#6 o.f false o.r o.d o.a 17#7)
  | .cvtBf16x2F32 o => some (packR 32#6 o.f false o.r o.d o.a 18#7)
  | .cvtF32Bf16x2 o => some (packR 32#6 o.f false o.r o.d o.a 19#7)
  | .cvtE4m3x2F32 o => some (packR 32#6 o.f false o.r o.d o.a 20#7)
  | .cvtE5m2x2F32 o => some (packR 32#6 o.f false o.r o.d o.a 21#7)
  | .cvtI32F32 o => some (packR 32#6 o.f false o.r o.d o.a 32#7)
  | .cvtUi32F32 o => some (packR 32#6 o.f false o.r o.d o.a 33#7)
  | .cvtI64F32 o => some (packR 32#6 o.f false o.r o.d o.a 34#7)
  | .cvtUi64F32 o => some (packR 32#6 o.f false o.r o.d o.a 35#7)
  | .cvtI32F64 o => some (packR 32#6 o.f false o.r o.d o.a 36#7)
  | .cvtUi32F64 o => some (packR 32#6 o.f false o.r o.d o.a 37#7)
  | .cvtI64F64 o => some (packR 32#6 o.f false o.r o.d o.a 38#7)
  | .cvtUi64F64 o => some (packR 32#6 o.f false o.r o.d o.a 39#7)
  | .cvtF32I32 o => some (packR 32#6 o.f false o.r o.d o.a 40#7)
  | .cvtF32Ui32 o => some (packR 32#6 o.f false o.r o.d o.a 41#7)
  | .cvtF32I64 o => some (packR 32#6 o.f false o.r o.d o.a 42#7)
  | .cvtF32Ui64 o => some (packR 32#6 o.f false o.r o.d o.a 43#7)
  | .cvtF64I32 o => some (packR 32#6 o.f false o.r o.d o.a 44#7)
  | .cvtF64Ui32 o => some (packR 32#6 o.f false o.r o.d o.a 45#7)
  | .cvtF64I64 o => some (packR 32#6 o.f false o.r o.d o.a 46#7)
  | .cvtF64Ui64 o => some (packR 32#6 o.f false o.r o.d o.a 47#7)
  | .cvtI8F32 o => some (packR 32#6 o.f false o.r o.d o.a 48#7)
  | .cvtF32I8 o => some (packR 32#6 o.f false o.r o.d o.a 49#7)
  | .rcp o => some (packR 33#6 o.f false 0#3 o.d o.a 127#7)
  | .rsq o => some (packR 33#6 o.f false 1#3 o.d o.a 127#7)
  | .sqrt o => some (packR 33#6 o.f false 2#3 o.d o.a 127#7)
  | .ex2 o => some (packR 33#6 o.f false 3#3 o.d o.a 127#7)
  | .lg2 o => some (packR 33#6 o.f false 4#3 o.d o.a 127#7)
  | .sin o => some (packR 33#6 o.f false 5#3 o.d o.a 127#7)
  | .cos o => some (packR 33#6 o.f false 6#3 o.d o.a 127#7)
  | .tanh o => some (packR 33#6 o.f false 7#3 o.d o.a 127#7)
  | .actNear o => some (packR 34#6 o.f false 0#3 o.d o.a (o.t.setWidth 7))
  | .actLin o => some (packR 34#6 o.f false 1#3 o.d o.a (o.t.setWidth 7))
  | .rand o => some (packR 35#6 false false 0#3 o.d 127#7 127#7)
  | .randu o => some (packR 35#6 false false 1#3 o.d 127#7 127#7)
  | .randn o => some (packR 35#6 false false 2#3 o.d 127#7 127#7)
  | .rskip o => some (packR 35#6 o.f o.g 3#3 127#7 o.a o.b)
  | .rsel o => some (packR 35#6 o.f false 4#3 o.d o.a 127#7)
  | .epreset => some (packR 35#6 false false 5#3 127#7 127#7 127#7)
  | .epstep => some (packR 35#6 false false 6#3 127#7 127#7 127#7)
  | .rpeek o => some (packR 35#6 o.f o.g 7#3 o.d o.a o.b)
  | .ld o => some (packM 36#6 o.f o.s o.d o.a o.i)
  | .st o => some (packM 37#6 o.f o.s o.d o.a o.i)
  | .ldX _ _ => none
  | .stX _ _ => none
  | .ldf o => some (packM 38#6 o.f 5#3 o.d o.a o.i)
  | .stf o => some (packM 39#6 o.f 5#3 o.d o.a o.i)
  | .ldfX _ _ => none
  | .stfX _ _ => none
  | .atomAdd o => some (packR 40#6 o.f o.g 0#3 o.d o.a o.b)
  | .atomMin o => some (packR 40#6 o.f o.g 1#3 o.d o.a o.b)
  | .atomMax o => some (packR 40#6 o.f o.g 2#3 o.d o.a o.b)
  | .atomAnd o => some (packR 40#6 o.f o.g 3#3 o.d o.a o.b)
  | .atomOr o => some (packR 40#6 o.f o.g 4#3 o.d o.a o.b)
  | .atomXor o => some (packR 40#6 o.f o.g 5#3 o.d o.a o.b)
  | .atomXchg o => some (packR 40#6 o.f o.g 6#3 o.d o.a o.b)
  | .atomCas o => some (packR 40#6 o.f o.g 7#3 o.d o.a o.b)
  | .atomAdd64 o => some (packR 41#6 o.f o.g 0#3 o.d o.a o.b)
  | .atomCas64 o => some (packR 41#6 o.f o.g 1#3 o.d o.a o.b)
  | .atomXchg64 o => some (packR 41#6 o.f o.g 2#3 o.d o.a o.b)
  | .atomFadd32 o => some (packR 41#6 o.f o.g 3#3 o.d o.a o.b)
  | .atomFadd64 o => some (packR 41#6 o.f o.g 4#3 o.d o.a o.b)
  | .atomBfadd2 o => some (packR 41#6 o.f o.g 5#3 o.d o.a o.b)
  | .atomFmin32 o => some (packR 41#6 o.f o.g 6#3 o.d o.a o.b)
  | .atomFmax32 o => some (packR 41#6 o.f o.g 7#3 o.d o.a o.b)
  | .lda32 o => some (packR 42#6 o.f false 0#3 o.d o.a (o.j.setWidth 7))
  | .lda64 o => some (packR 42#6 o.f false 1#3 o.d o.a (o.j.setWidth 7))
  | .sta32 o => some (packR 42#6 o.f false 2#3 o.d o.a (o.j.setWidth 7))
  | .sta64 o => some (packR 42#6 o.f false 3#3 o.d o.a (o.j.setWidth 7))
  | .affset o => some (packR 42#6 o.f false 4#3 127#7 o.a (o.j.setWidth 7))
  | .affcnt o => some (packR 42#6 false false 5#3 o.d 127#7 (o.j.setWidth 7))
  | .a2gLoc o => some (packR 43#6 o.f false 0#3 o.d o.a 127#7)
  | .a2gPad o => some (packR 43#6 o.f false 1#3 o.d o.a 127#7)
  | .a2gCel o => some (packR 43#6 o.f false 2#3 o.d o.a 127#7)
  | .g2aLoc o => some (packR 43#6 o.f false 3#3 o.d o.a 127#7)
  | .g2aPad o => some (packR 43#6 o.f false 4#3 o.d o.a 127#7)
  | .g2aCel o => some (packR 43#6 o.f false 5#3 o.d o.a 127#7)
  | .inspace o => some (packR 43#6 o.f o.g 6#3 o.d o.a o.b)
  | .spaceof o => some (packR 43#6 o.f false 7#3 o.d o.a 127#7)
  | .oprdy => some (packR 44#6 false false 0#3 127#7 127#7 127#7)
  | .drain => some (packR 44#6 false false 1#3 127#7 127#7 127#7)
  | .fenceDom => some (packR 44#6 false false 2#3 127#7 127#7 127#7)
  | .fenceSys => some (packR 44#6 false false 3#3 127#7 127#7 127#7)
  | .barTeam => some (packR 45#6 false false 0#3 127#7 127#7 127#7)
  | .barCrew => some (packR 45#6 false false 1#3 127#7 127#7 127#7)
  | .barCell => some (packR 45#6 false false 2#3 127#7 127#7 127#7)
  | .barStack => some (packR 45#6 false false 3#3 127#7 127#7 127#7)
  | .barDom => some (packR 45#6 false false 4#3 127#7 127#7 127#7)
  | .arrive o => some (packR 45#6 false false 5#3 o.d 127#7 (o.l.setWidth 7))
  | .waitb o => some (packR 45#6 o.f false 6#3 127#7 o.a 127#7)
  | .shfl o => some (packR 46#6 o.f o.g 0#3 o.d o.a o.b)
  | .shflup o => some (packR 46#6 o.f o.g 1#3 o.d o.a o.b)
  | .shfldn o => some (packR 46#6 o.f o.g 2#3 o.d o.a o.b)
  | .shflx o => some (packR 46#6 o.f o.g 3#3 o.d o.a o.b)
  | .anyLane o => some (packR 46#6 o.f false 4#3 o.d o.a 127#7)
  | .allLanes o => some (packR 46#6 o.f false 5#3 o.d o.a 127#7)
  | .ballot o => some (packR 46#6 o.f false 6#3 o.d o.a 127#7)
  | .matchLanes o => some (packR 46#6 o.f false 7#3 o.d o.a 127#7)
  | .redadd o => some (packR 47#6 o.f false 0#3 o.d o.a 127#7)
  | .redmin o => some (packR 47#6 o.f false 1#3 o.d o.a 127#7)
  | .redmax o => some (packR 47#6 o.f false 2#3 o.d o.a 127#7)
  | .redfadd o => some (packR 47#6 o.f false 3#3 o.d o.a 127#7)
  | .scani o => some (packR 47#6 o.f false 4#3 o.d o.a 127#7)
  | .scane o => some (packR 47#6 o.f false 5#3 o.d o.a 127#7)
  | .segi o => some (packR 47#6 o.f o.g 6#3 o.d o.a o.b)
  | .sege o => some (packR 47#6 o.f o.g 7#3 o.d o.a o.b)
  | .beqz o => some (packB 48#6 o.f 0#3 o.a o.o)
  | .bnez o => some (packB 48#6 o.f 1#3 o.a o.o)
  | .bltz o => some (packB 48#6 o.f 2#3 o.a o.o)
  | .bgez o => some (packB 48#6 o.f 3#3 o.a o.o)
  | .blez o => some (packB 48#6 o.f 4#3 o.a o.o)
  | .bgtz o => some (packB 48#6 o.f 5#3 o.a o.o)
  | .bra o => some (packB 48#6 false 6#3 127#7 o)
  | .bru o => some (packB 48#6 o.f 7#3 o.a o.o)
  | .beqzX _ _ => none
  | .bnezX _ _ => none
  | .bltzX _ _ => none
  | .bgezX _ _ => none
  | .blezX _ _ => none
  | .bgtzX _ _ => none
  | .braX _ _ => none
  | .bruX _ _ => none
  | .jmp o => some (packJ 49#6 o)
  | .call o => some (packJ 50#6 o)
  | .jmpX _ _ => none
  | .callX _ _ => none
  | .jr o => some (packR 51#6 o.f false 0#3 127#7 o.a 127#7)
  | .jalr o => some (packR 51#6 o.f false 1#3 o.d o.a 127#7)
  | .ret => some (packR 51#6 false false 2#3 127#7 127#7 127#7)
  | .loop o => some (packI 52#6 o.f 127#7 o.a (o.n.setWidth 11))
  | .spawn o => some (packR 53#6 o.f o.g 0#3 127#7 o.a o.b)
  | .exitThread => some (packR 53#6 false false 1#3 127#7 127#7 127#7)
  | .regroup o => some (packR 53#6 o.f false 2#3 127#7 o.a 127#7)
  | .yield => some (packR 53#6 false false 3#3 127#7 127#7 127#7)
  | .elect o => some (packR 53#6 false false 4#3 o.d 127#7 127#7)
  | .win o => some (packR 53#6 o.f false 5#3 127#7 o.a 127#7)
  | .dqput o => some (packR 53#6 o.f false 6#3 127#7 o.a 127#7)
  | .dqget o => some (packR 53#6 false false 7#3 o.d 127#7 127#7)
  | .tasknew o => some (packR 54#6 o.f false 0#3 o.d o.a 127#7)
  | .trigger => some (packR 54#6 false false 1#3 127#7 127#7 127#7)
  | .waitdep => some (packR 54#6 false false 2#3 127#7 127#7 127#7)
  | .iter o => some (packR 54#6 false false 3#3 o.d 127#7 127#7)
  | .fixup o => some (packR 54#6 o.f false 4#3 o.d o.a 127#7)
  | .stqput o => some (packR 54#6 o.f o.g 5#3 127#7 o.a o.b)
  | .stqget o => some (packR 54#6 o.f false 6#3 o.d o.a 127#7)
  | .stqtry o => some (packR 54#6 o.f false 7#3 o.d o.a o.b)
  | .mfsr o => some (packI 55#6 false o.d 127#7 o.n)
  | .mtsr o => some (packI 56#6 o.f 127#7 o.a o.n)
  | .trap o => some (packR 57#6 false false 0#3 127#7 127#7 o)
  | .eret => some (packR 57#6 false false 1#3 127#7 127#7 127#7)
  | .savefe o => some (packR 57#6 o.f false 2#3 o.d o.a 127#7)
  | .loadfe o => some (packR 57#6 o.f o.g 3#3 127#7 o.a o.b)
  | .bkpt => some (packR 57#6 false false 4#3 127#7 127#7 127#7)
  | .brk => some (packR 57#6 false false 5#3 127#7 127#7 127#7)
  | .probe o => some (packR 57#6 false false 6#3 127#7 127#7 (o.setWidth 7))
  | .halt => some (packR 57#6 false false 7#3 127#7 127#7 127#7)
  | .cpTld o => some (packR 58#6 o.f false 0#3 o.d o.a 0#7)
  | .cpTst o => some (packR 58#6 o.f false 0#3 o.d o.a 1#7)
  | .cpGth o => some (packR 58#6 o.f false 0#3 o.d o.a 2#7)
  | .cpSct o => some (packR 58#6 o.f false 0#3 o.d o.a 3#7)
  | .cpLin o => some (packR 58#6 o.f false 0#3 o.d o.a 4#7)
  | .cpFill o => some (packR 58#6 o.f false 0#3 o.d o.a 5#7)
  | .cpMcst o => some (packR 58#6 o.f false 0#3 o.d o.a 6#7)
  | .mmE4m3 o => some (packR 58#6 o.f false 1#3 o.d o.a 0#7)
  | .mmE5m2 o => some (packR 58#6 o.f false 1#3 o.d o.a 1#7)
  | .mmF6a o => some (packR 58#6 o.f false 1#3 o.d o.a 2#7)
  | .mmF6b o => some (packR 58#6 o.f false 1#3 o.d o.a 3#7)
  | .mmBf16 o => some (packR 58#6 o.f false 1#3 o.d o.a 4#7)
  | .mmFp16 o => some (packR 58#6 o.f false 1#3 o.d o.a 5#7)
  | .mmI8 o => some (packR 58#6 o.f false 1#3 o.d o.a 6#7)
  | .mmE8m10 o => some (packR 58#6 o.f false 1#3 o.d o.a 7#7)
  | .mmsE4m3 o => some (packR 58#6 o.f false 1#3 o.d o.a 8#7)
  | .mmsE5m2 o => some (packR 58#6 o.f false 1#3 o.d o.a 9#7)
  | .mmsF6a o => some (packR 58#6 o.f false 1#3 o.d o.a 10#7)
  | .mmsF6b o => some (packR 58#6 o.f false 1#3 o.d o.a 11#7)
  | .mmsBf16 o => some (packR 58#6 o.f false 1#3 o.d o.a 12#7)
  | .mmsFp16 o => some (packR 58#6 o.f false 1#3 o.d o.a 13#7)
  | .mmsI8 o => some (packR 58#6 o.f false 1#3 o.d o.a 14#7)
  | .mmsE8m10 o => some (packR 58#6 o.f false 1#3 o.d o.a 15#7)
  | .qmE4m3B0 o => some (packR 58#6 o.f false 1#3 o.d o.a 16#7)
  | .qmE4m3B1 o => some (packR 58#6 o.f false 1#3 o.d o.a 17#7)
  | .qmE4m3B2 o => some (packR 58#6 o.f false 1#3 o.d o.a 18#7)
  | .qmE4m3B3 o => some (packR 58#6 o.f false 1#3 o.d o.a 19#7)
  | .qmE5m2B0 o => some (packR 58#6 o.f false 1#3 o.d o.a 20#7)
  | .qmE5m2B1 o => some (packR 58#6 o.f false 1#3 o.d o.a 21#7)
  | .qmE5m2B2 o => some (packR 58#6 o.f false 1#3 o.d o.a 22#7)
  | .qmE5m2B3 o => some (packR 58#6 o.f false 1#3 o.d o.a 23#7)
  | .qmF6aB0 o => some (packR 58#6 o.f false 1#3 o.d o.a 24#7)
  | .qmF6aB1 o => some (packR 58#6 o.f false 1#3 o.d o.a 25#7)
  | .qmF6aB2 o => some (packR 58#6 o.f false 1#3 o.d o.a 26#7)
  | .qmF6aB3 o => some (packR 58#6 o.f false 1#3 o.d o.a 27#7)
  | .qmF6bB0 o => some (packR 58#6 o.f false 1#3 o.d o.a 28#7)
  | .qmF6bB1 o => some (packR 58#6 o.f false 1#3 o.d o.a 29#7)
  | .qmF6bB2 o => some (packR 58#6 o.f false 1#3 o.d o.a 30#7)
  | .qmF6bB3 o => some (packR 58#6 o.f false 1#3 o.d o.a 31#7)
  | .qmBf16 o => some (packR 58#6 o.f false 1#3 o.d o.a 32#7)
  | .qmFp16 o => some (packR 58#6 o.f false 1#3 o.d o.a 33#7)
  | .qmI8 o => some (packR 58#6 o.f false 1#3 o.d o.a 34#7)
  | .qmE8m10 o => some (packR 58#6 o.f false 1#3 o.d o.a 35#7)
  | .qmFusedPass _ _ _ => none
  | .drnF32 o => some (packR 58#6 o.f false 1#3 o.d o.a 40#7)
  | .drnBf16 o => some (packR 58#6 o.f false 1#3 o.d o.a 41#7)
  | .drnFp16 o => some (packR 58#6 o.f false 1#3 o.d o.a 42#7)
  | .drnE4m3 o => some (packR 58#6 o.f false 1#3 o.d o.a 43#7)
  | .mzero o => some (packR 58#6 o.f false 1#3 o.d o.a 44#7)
  | .mstat o => some (packR 58#6 o.f false 1#3 o.d o.a 45#7)
  | .subarrayGate _ _ _ => none
  | .pvE4m3 o => some (packR 58#6 o.f false 2#3 o.d o.a 0#7)
  | .pvBf16 o => some (packR 58#6 o.f false 2#3 o.d o.a 1#7)
  | .pvI8 o => some (packR 58#6 o.f false 2#3 o.d o.a 2#7)
  | .pvMask o => some (packR 58#6 o.f false 2#3 o.d o.a 3#7)
  | .pvPred o => some (packR 58#6 o.f false 2#3 o.d o.a 4#7)
  | .tbLoad o => some (packR 58#6 o.f false 3#3 o.d o.a 0#7)
  | .tbSwap o => some (packR 58#6 o.f false 3#3 o.d o.a 1#7)
  | .tableExchange _ => none
  | .hgBind o => some (packR 58#6 false false 3#3 o.d 127#7 2#7)
  | .hgRead o => some (packR 58#6 o.f false 3#3 o.d o.a 3#7)
  | .hgClr o => some (packR 58#6 false false 3#3 o.d 127#7 4#7)
  | .fxPut o => some (packR 58#6 o.f false 4#3 o.d o.a 0#7)
  | .fxGet o => some (packR 58#6 o.f false 4#3 o.d o.a 1#7)
  | .fxAredF32 o => some (packR 58#6 o.f false 4#3 o.d o.a 2#7)
  | .fxAredBf16 o => some (packR 58#6 o.f false 4#3 o.d o.a 3#7)
  | .fxBcast o => some (packR 58#6 o.f false 4#3 o.d o.a 4#7)
  | .fxSig o => some (packR 58#6 o.f false 4#3 o.d o.a 5#7)
  | .neBind o => some (packR 59#6 o.f false 0#3 o.d o.a 0#7)
  | .neEval o => some (packR 59#6 o.f false 0#3 o.d o.a 1#7)
  | .neEvalg o => some (packR 59#6 o.f false 0#3 o.d o.a 2#7)
  | .neBwd o => some (packR 59#6 o.f false 0#3 o.d o.a 3#7)
  | .neFlush o => some (packR 59#6 false false 0#3 o.d 127#7 4#7)
  | .neUnbind o => some (packR 59#6 o.f false 0#3 o.d o.a 5#7)
  | .tileLaunch _ _ => none
  | .tileDelivery _ _ => none
  | .backwardSettle _ => none
  | .tdBind o => some (packR 59#6 o.f false 1#3 o.d o.a 0#7)
  | .tdDesc o => some (packR 59#6 o.f false 1#3 o.d o.a 1#7)
  | .tdBwd o => some (packR 59#6 o.f false 1#3 o.d o.a 2#7)
  | .tdPath o => some (packR 59#6 o.f false 1#3 o.d o.a 3#7)
  | .grSort32 o => some (packR 59#6 o.f false 2#3 o.d o.a 0#7)
  | .grSort64 o => some (packR 59#6 o.f false 2#3 o.d o.a 1#7)
  | .grMorton o => some (packR 59#6 o.f false 2#3 o.d o.a 2#7)
  | .grSap o => some (packR 59#6 o.f false 2#3 o.d o.a 3#7)
  | .cvQbox o => some (packR 59#6 o.f false 3#3 o.d o.a 0#7)
  | .cvQray o => some (packR 59#6 o.f false 3#3 o.d o.a 1#7)
  | .psLu32 o => some (packR 59#6 o.f false 4#3 o.d o.a 0#7)
  | .psLu64 o => some (packR 59#6 o.f false 4#3 o.d o.a 1#7)
  | .psChol32 o => some (packR 59#6 o.f false 4#3 o.d o.a 2#7)
  | .psChol64 o => some (packR 59#6 o.f false 4#3 o.d o.a 3#7)
  | .psSolve o => some (packR 59#6 o.f false 4#3 o.d o.a 4#7)
  | .psBwd o => some (packR 59#6 o.f false 4#3 o.d o.a 5#7)
  | .psPgs o => some (packR 59#6 o.f false 4#3 o.d o.a 6#7)
  | .commandCompletion _ _ => none
  | .lineDelivery _ _ _ => none
  | .engineTranslationFault _ _ _ => none
  | .stopHold _ => none
  | .stopRelease _ => none
  | .resultLands _ _ => none
  | .sectionIssue _ _ => none
  | .forcedRun _ _ => none
  | .yieldDeferralEnd _ _ _ => none
  | .governorWindow _ => none
  | .gangFormation _ _ => none
  | .crewDispatch _ => none
  | .stealRequest _ _ => none
  | .stealAnswer _ => none
  | .stealRoundWait _ => none
  | .costart _ _ => none
  | .costartAnnounce _ _ _ => none
  | .lineGroupSend _ _ => none
  | .lineGroupAtHome _ _ => none
  | .lineGroupReply _ _ => none
  | .negativeAcknowledgement _ _ => none
  | .nackRetry _ _ => none
  | .bypassEntryFree _ _ => none
  | .ptsAdvance => none
  | .lanternPass _ => none
  | .meshHop _ => none
  | .routerPowerDown _ => none
  | .routerWake _ => none
  | .tokenGrant _ _ => none
  | .throttleLift _ => none
  | .walkComplete _ => none
  | .serviceForward _ => none
  | .serviceResend _ _ => none
  | .preempt _ _ _ => none
  | .crewRestore _ _ => none
  | .spareCoreRepair _ _ => none
  | .spareSliceRepair _ => none
  | .hbmRowRepair _ _ => none
  | .frzN => none
  | .bridgeTransfer _ => none
  | .bridgeCrcFail _ => none
  | .remoteDomainAccess _ => none
  | .storeRefusalReport _ _ => none
  | .flitData _ _ => none
  | .flitAcknowledgement _ _ => none
  | .flitNegativeAcknowledgement _ _ => none
  | .flitReservation _ _ => none
  | .flitControl _ _ => none
  | .wavelengthRetire _ _ _ => none
  | .fibreFailover _ _ => none
  | .peerUnreachable _ _ => none
  | .launchCmd _ => none
  | .mapCmd _ => none
  | .unmapCmd _ => none
  | .signalCmd _ => none
  | .waitCmd _ => none
  | .queryDevice _ => none
  | .queryProbes _ => none
  | .querySump _ => none
  | .queryTrace _ => none
  | .queryAttest _ => none
  | .journalRead _ => none
  | .resetTenancy _ => none
  | .freezeCmd _ => none
  | .serviceReply _ => none
  | .zcpCommandStart _ _ => none
  | .doneEvt _ _ => none
  | .journalMirrorWrite _ => none
  | .rdmaRead _ => none
  | .rdmaWrite _ => none
  | .rdmaInvalidRequest _ _ => none
  | .coldReset => none
  | .warmReset => none
  | .alwaysOnPowerLoss => none
  | .thermalEvent _ => none
  | .laserModuleSwap _ => none
  | .wordNotInstruction _ _ => none
  | .fetchTrap => none
  | .zcpOpNotNamed _ => none
  | .samplingEvt _ _ => none
  | .voltageDroop _ => none
  | .lossOfPower => none
  | .linksComeUp _ _ => none

/-- An instruction as it stands in memory: its word, and the x field of the X word before it (R35, R45). -/
noncomputable def rawOf (i : Instr) : Option RawInstr :=
  match i with
  | .addiX x o => (wordOf (.addi o)).map fun w => ⟨w, some x⟩
  | .addi64X x o => (wordOf (.addi64 o)).map fun w => ⟨w, some x⟩
  | .andiX x o => (wordOf (.andi o)).map fun w => ⟨w, some x⟩
  | .oriX x o => (wordOf (.ori o)).map fun w => ⟨w, some x⟩
  | .xoriX x o => (wordOf (.xori o)).map fun w => ⟨w, some x⟩
  | .liX x o => (wordOf (.li o)).map fun w => ⟨w, some x⟩
  | .li64X x o => (wordOf (.li64 o)).map fun w => ⟨w, some x⟩
  | .ldX x o => (wordOf (.ld o)).map fun w => ⟨w, some x⟩
  | .stX x o => (wordOf (.st o)).map fun w => ⟨w, some x⟩
  | .ldfX x o => (wordOf (.ldf o)).map fun w => ⟨w, some x⟩
  | .stfX x o => (wordOf (.stf o)).map fun w => ⟨w, some x⟩
  | .beqzX x o => (wordOf (.beqz o)).map fun w => ⟨w, some x⟩
  | .bnezX x o => (wordOf (.bnez o)).map fun w => ⟨w, some x⟩
  | .bltzX x o => (wordOf (.bltz o)).map fun w => ⟨w, some x⟩
  | .bgezX x o => (wordOf (.bgez o)).map fun w => ⟨w, some x⟩
  | .blezX x o => (wordOf (.blez o)).map fun w => ⟨w, some x⟩
  | .bgtzX x o => (wordOf (.bgtz o)).map fun w => ⟨w, some x⟩
  | .braX x o => (wordOf (.bra o)).map fun w => ⟨w, some x⟩
  | .bruX x o => (wordOf (.bru o)).map fun w => ⟨w, some x⟩
  | .jmpX x o => (wordOf (.jmp o)).map fun w => ⟨w, some x⟩
  | .callX x o => (wordOf (.call o)).map fun w => ⟨w, some x⟩
  | i => (wordOf i).map fun w => ⟨w, none⟩

/-- The words of an instruction in the order in which they stand in memory (R26, R35). -/
noncomputable def encode (i : Instr) : Option (List W32) :=
  (rawOf i).map fun r => match r.x with
    | none => [r.word]
    | some x => [packX x, r.word]

end Sys2Proof
end

