-- ==== Sys2Proof/Config.lean ====
section
/-! DEFINITION. What one Ocdar fixes, and the free values: constants without a body that stand for what the spec
leaves open. No proof can see what they are, so a statement that mentions one holds for every value of it. -/

namespace Sys2Proof.Config

/-- A 32-bit value that the spec leaves open (R5, R101, R184, R229, R334, R372). The list names the place and, where
the value is fresh at each use, the counter State.free. (DESIGN CHOICE, log entry 3; DESIGN CHOICE, log entry 23; DEDUCED, log entry 44.) -/
opaque freeWord : List Nat → BitVec 32

/-- A byte that the spec leaves open (R228, R333, R344, R413). (DESIGN CHOICE, log entry 3.) -/
opaque freeByte : List Nat → BitVec 8

/-- A choice that the spec leaves open: the governor's tokens (R144), hits of a residency hint (R189) when the tags are
not modelled, the bytes of partly performed writes. (DESIGN CHOICE, log entry 67; DESIGN CHOICE, log entry 70.) -/
opaque freeBool : List Nat → Bool

/-- The signatures of an attestation statement over its bytes (R415): the keys are not in the spec. (DESIGN CHOICE, log entry 71.) -/
opaque attestSignature : List (BitVec 8) → List (BitVec 8)

/-- Device identity (R415), and the SHA-384 of a firmware image. Images are numbered by the cold reset that offers them. (DESIGN CHOICE, log entry 71.) -/
opaque deviceIdentity : List (BitVec 8)
opaque firmwareHash : Nat → List (BitVec 8)

/-- Whether the two signatures of a firmware image verify (R415): the ECDSA one and the LMS one. (DESIGN CHOICE, log entry 71.) -/
opaque ecdsaVerifies : Nat → Bool
opaque lmsVerifies : Nat → Bool

/-- The version of a firmware image (R415). (DESIGN CHOICE, log entry 71.) -/
opaque firmwareVersion : Nat → Nat

/-- The rank that firmware assigns to the device at bring-up (R394, R417). (DESIGN CHOICE, log entry 5.) -/
def deviceRank : Nat := 0

/-- Bytes that another device returns: a remote DOMAIN load (R226) or FX.GET (R402). (DESIGN CHOICE, log entry 37.) -/
opaque remoteByte : List Nat → BitVec 8

/-- Whether the home device of a DOMAIN access refuses it (R396). -/
opaque remoteRefuses : List Nat → Bool

/-- The word that rank `r` of a group contributes to a reduction or broadcast (R403), by rank, TAG and element. -/
opaque remoteElement : List Nat → BitVec 32

/-- Cores, cells and stack domains of the device (R2, R7). -/
def cores : Nat := 320
def cells : Nat := 160
def stackDomains : Nat := 8

/-- Bits of HBM4E physical address (R362). -/
def hbmBits : Nat := 39

end Sys2Proof.Config
end

