-- ==== Sys2Proof/Machine/State.lean ====
section
/-! DEFINITION. The state of one Ocdar as plain data: threads, crews, cores, cells, slices, dies, fabric ports,
tenancies and the host's queues, and the machine right after reset. -/

namespace Sys2Proof.Machine
open Sys2Proof

/-! ### Registers and threads -/

/-- A mark on a full register (R301, R369): reading a marked register traps. `load` is that of a load whose data was lost, with
its address; `status2` names the command; `carafe` names the evaluation, its handle and whether the trap is MCHECK. -/
inductive Mark where
  | clean | status2 (cmd : Nat) | storage | load (addr : W64) | carafe (eval handle : Nat) (mcheck : Bool)
  deriving DecidableEq, Repr

/-- A lane or uniform register with its full and valid bits (R13). -/
structure Reg where
  val   : W32
  full  : Bool
  valid : Bool
  mark  : Mark := .clean
  deriving DecidableEq, Repr

/-- Where a lane thread runs (R132, R134). -/
structure Place where
  sect : Nat
  slot : Nat
  lane : Nat
  deriving DecidableEq, Repr

/-- The identity registers of a thread (R17, R184). -/
structure Ident where
  tid   : W32
  crew  : W32
  task  : W32
  nthr  : W32
  envid : W32
  deriving DecidableEq, Repr

/-- The episode, the Philox key and the two draw counters (R123). -/
structure Streams where
  episode : W32
  step    : W32
  seedLo  : W32
  seedHi  : W32
  rngd    : W32
  rngr    : W32
  deriving DecidableEq, Repr

/-- Thread-scope control registers (R17, R68, R75, R383). -/
structure Ctl where
  mmask   : W32
  rmode   : W32
  fpflags : W32
  dbgctl  : W32
  htag    : W32
  nwin    : W32
  bintmo  : W32
  nack    : W32
  deriving DecidableEq, Repr

/-- One loop level: counter and body register (R97), and the loop buffer's copy of the body (R101), word by word: none where the word had
no translation. -/
structure LoopLevel where
  lc   : W32
  lb   : W64
  copy : List (Option W32)
  deriving DecidableEq, Repr

/-- The registers a trap entry writes (R17, R28, R45). -/
structure TrapRegs where
  cause : W32
  pc    : W64
  mask  : W32
  field : W64
  addr  : W64
  inst  : W32
  pre   : W32
  deriving DecidableEq, Repr

/-- The watchpoint registers (R382). -/
structure Watch where
  wp0   : W64
  wp1   : W64
  wpctl : W32
  deriving DecidableEq, Repr

/-- Where one word of a result goes: a physical lane register, a uniform register, or nowhere (field z). -/
inductive Dst where
  | phys (n : Nat) | uni (n : Nat) | drop
  deriving DecidableEq, Repr

/-- What produces a pending result (R13, R244, R352). `quiet` is an arithmetic result that sets no flag (R69), and `future` an LDF. -/
inductive PendKind where
  | arith | quiet | load | future | task | stq | cmd | carafe
  deriving DecidableEq, Repr

/-- A result on its way: its destinations are empty until it lands. `vals` is none until its value is bound. `eval` is the order of the
evaluation that it is of, and its handle (R303). -/
structure Pending where
  id     : Nat
  kind   : PendKind
  dst    : List Dst
  vals   : Option (List W32)
  flags  : W32
  mark   : Mark
  tables : List Nat
  eval   : Option (Nat × Nat) := none
  deriving DecidableEq, Repr

/-- Where the bytes of an access lie (R196, R205, R372): flat memory (HBM4E, PIN-SLICE pages), a scratchpad, a cell
memory, a STATE image, or a page of another device. -/
inductive Loc where
  | mem (a : Nat) | pad (core off : Nat) | cel (cell off : Nat) | state (core slot off : Nat)
  | remote (dev : Nat) (addr : W64)
  deriving DecidableEq, Repr

/-- What a parked thread waits for (R136). `run` is the wait of a whole run at a collective instruction: the empty
registers of its threads (R137). `entry` is the wait of a trap entry for the gang's results (R352). `barrier` is the
waiting half of BAR, `bpend` the wait of ARRIVE or WAITB for a bit of %bpend. `bin` names the entry that a SPAWN offers.
`runOrder` is the wait of a run for the requests of its threads. `collector` names the line that a request wants. `score` names the access that waits for the scoreboard, or
none when the wait is for room in it. `backward` counts the entries that must fit in the backward store.
`stqFull` and `stqEmpty` hold the place and the address of the descriptor, the moment of parking and the group (R179). `reply` names
the address of a load from another device (R396). `row` is the wait for a word whose row is under repair (R390), and `bridge` that for an
access that crosses to the other die (R391). -/
inductive Wait where
  | reg (d : Dst) | run (l : List (W32 × Dst)) | entry | line (core l : Nat) | future | barrier (lvl : Nat) | bpend (lvl : Nat) | dep
  | regroup (key : BitVec 8) | dqPut | dqGet | bin (entry : W64)
  | stqFull (desc : Loc) (va : W64) (since : Nat) (g : Fld) | stqEmpty (desc : Loc) (va : W64) (since : Nat) (g : Fld)
  | walk (root : W64) (page : Nat) | order | runOrder (l : List W32) | collector (line : Nat) | queue (e : Eng)
  | score (r : Option (W64 × Nat × Loc)) | drain | oprdy | fence
  | members | swap (t : Nat) | results | tile | backward (n : Nat) | reply (va : W64) | row (l : Loc) | bridge (va : W64)
  deriving DecidableEq, Repr

/-- The state of a lane position (R134) or of the front end. `held` waits for the trap returns of other threads
(R351): their %tid and trap depth. -/
inductive Status where
  | runnable | parked (w : Wait) | held (on : List (W32 × Nat)) | exited | halted
  deriving DecidableEq, Repr

/-- The registers of a QM command between its issue and its wait event, as one lane sees them (R229): the completion
register, the operand and scale registers, the accumulators, whether an operand was empty at issue or written since, and
whether the command has completed. -/
structure QmHold where
  cmd   : Nat
  d     : Dst
  srcs  : List Nat
  accs  : List Nat
  taint : Bool
  fin   : Bool
  deriving DecidableEq, Repr

/-- What a page walk found (R363): a translation, or a trap cause with its sub-cause. `outside` is a table outside the stacks of the
tenancy, and `lost` an entry that an uncorrectable error took (R369, R393). -/
inductive Found where
  | entry (pte : W64) (lvl : Nat) | fault (lvl : Nat) | malformed | outside | lost
  deriving DecidableEq, Repr

/-- A trap that a thread has taken with others at a collective instruction (R137): its nesting, the PC, and the other lanes that have
still to return from theirs before the instruction is executed. -/
structure Rejoin where
  depth : Nat
  pc    : W64
  mates : List (W32 × Nat)
  deriving DecidableEq, Repr

/-- A thread: lane thread or scalar front end (R8, R31). `far` are the addresses of its stores to DOMAIN pages of other
devices that are not placed yet, oldest first (R226, R396), and `answer` is the address of its load from another device that has been
answered. `crossed` is the address of its access that has been over the die bridge, and whether the transfer was lost (R391, R393). `owed` says that the instruction at which it is parked sets UNSEEN when it completes (R16, R27). -/
structure Thread where
  sfe       : Bool
  place     : Place
  regs      : List Reg
  pc        : W64
  win       : Nat
  allot     : Nat
  ident     : Ident
  str       : Streams
  ctl       : Ctl
  l0        : LoopLevel
  l1        : LoopLevel
  l2        : LoopLevel
  ra        : W64
  ut        : TrapRegs
  kt        : TrapRegs
  uhandler  : W64
  khandler  : W64
  mode      : W32
  ptbase    : W64
  svcq      : W64
  dqpos     : W32
  bpend     : W32
  locbase   : W64
  watch     : Watch
  clkShadow : Option W32
  status    : Status
  pending   : List Pending
  triggered : Bool
  depth     : Nat
  serial    : Nat
  qm        : List QmHold
  walked    : List (Nat × Found)
  refused   : Option W64
  far       : List W64
  answer    : Option W64 := none
  crossed   : Option (W64 × Bool) := none
  owed      : Bool := false
  rejoin    : List Rejoin := []
  deriving DecidableEq, Repr

/-! ### Engines -/

/-- The operand formats of the matrix engine (R42). -/
inductive MFmt where
  | e4m3 | e5m2 | f6a | f6b | bf16 | fp16 | i8 | e8m10
  deriving DecidableEq, Repr

/-- The formats a drain writes (R74). -/
inductive DrnFmt where
  | f32 | bf16 | fp16 | e4m3
  deriving DecidableEq, Repr

/-- The address context that a command takes from its issuer (R274, R368). -/
structure CmdCtx where
  core    : Nat
  sect    : Nat
  tid     : W32
  task    : Nat
  crew    : Nat
  ten     : Nat
  ptbase  : W64
  locbase : W64
  sys     : Bool
  pad     : Nat
  replay  : Bool
  pc      : W64
  deriving DecidableEq, Repr

/-- One evaluation of a Carafe tile (R299, R305): its issuer's context, the pending result it fills (an evaluation's serial
number is also its issue order), inputs, upstream gradient and SEQ, and the pages that the host has refused it (R301). -/
structure Row where
  ctx   : CmdCtx
  pend  : Nat
  ord   : Nat
  x     : List W32
  gamma : List W32
  seq   : W32
  denied : List Nat := []
  deriving DecidableEq, Repr

/-- The commands of the engine queues (R42). A launched Carafe tile stands in a matrix queue as one entry (R299). -/
inductive CmdOp where
  | tld | tst | gth | sct | lin | fill | mcst
  | mm (f : MFmt) | mms (f : MFmt) | qm (f : MFmt) (sel : Nat) | drn (f : DrnFmt) | mzero | mstat
  | pv (f : MFmt) | pvPred | pvMask
  | tbLoad | tbSwap | hgBind | hgRead | hgClr
  | fxPut | fxGet | fxAred (bf : Bool) | fxBcast | fxSig
  | neBind | neFlush | neUnbind
  | tdBind | tdDesc | tdBwd | tdPath
  | sort (w64 : Bool) | morton | sap | qbox | qray
  | lu (w64 : Bool) | chol (w64 : Bool) | solve | psBwd | pgs
  | tile (net : List W32) (handle : Nat) (bind : Nat) (bwd : Bool) (rows : List Row)
  deriving DecidableEq, Repr

/-- What n bytes from a place held when a command was issued: the listed ones, by how far they lie behind it. -/
structure Seen where
  lo    : Loc
  n     : Nat
  cells : List Host.Cell
  deriving DecidableEq, Repr

/-- An engine command in a queue (R250, R379): its bundle, what it captured at issue, the pending results it fills (thread
and number), its sequence number, the pad lines it marked empty, numbered over all cores, and those of them delivered, how far it has come,
whether it waits for a translation, was refused one, waits at a stop, or was let past it, the address of the page that it needs
(R368), whether one of its transfers was lost (R393), what the tree of a query held at its issue (R332), and how far a fabric command has come: it reserves its slots, sends its data, and
waits for their placement (R401, R403). -/
structure Cmd where
  id      : Nat
  op      : CmdOp
  ctx     : CmdCtx
  words   : List W32
  cap     : List W32
  owners  : List (W32 × Nat)
  seq     : W32
  lines   : List Nat
  done    : List Nat
  count   : Nat
  held    : Bool
  refused : Bool
  stop    : Bool
  past    : Bool
  wants   : Option W64 := none
  lost    : Bool := false
  stage   : Nat := 0
  was     : List Seen := []
  deriving DecidableEq, Repr

/-- A part of a range from `lo` to below `hi`: pad offsets when `pad`, generic addresses otherwise. -/
structure ScorePart where
  pad : Bool
  lo  : Nat
  hi  : Nat
  deriving DecidableEq, Repr

/-- A range held in the scoreboard (R260): its PIN-CORE pages of the core are parts of their own. -/
structure ScoreEntry where
  cmd   : Nat
  parts : List ScorePart
  deriving DecidableEq, Repr

/-- An open Carafe tile (R299). -/
structure Tile where
  net    : List W32
  handle : Nat
  bind   : Nat
  bwd    : Bool
  rows   : List Row
  opened : Nat
  nwin   : Nat
  sect   : Nat
  full   : Bool
  ctx    : CmdCtx
  deriving DecidableEq, Repr

/-- A bound weight handle: the descriptor copy and the serial number of its binding (R296). -/
structure Handle where
  net  : List W32
  bind : Nat
  deriving DecidableEq, Repr

/-- One gradient update: an FMA term g × x of a row (R306), or an added sum (R314). -/
inductive GradTerm where
  | fma (addr : W64) (g x : W32) | add (addr : W64) (s : W32)
  deriving DecidableEq, Repr

/-- An entry of the backward store (R306), keyed by (tid, order); `terms` is none until it is filled. `wants` is the page that its
settle has asked for, and `refused` says that the host refused it (R368). -/
structure BackEntry where
  tid   : W32
  order : Nat
  ctx   : CmdCtx
  terms : Option (List GradTerm)
  wants : Option W64
  refused : Bool
  deriving DecidableEq, Repr

/-- An activation table: two banks of 288 words ([] reads as zero bytes) and which is active (R119). -/
structure ActTable where
  b0     : List W32
  b1     : List W32
  active : Bool
  held   : Bool
  deriving DecidableEq, Repr

/-- The histogram unit (R76, R272); unbound when TAG is 0. -/
structure Hist where
  tag   : W32
  count : List W32
  deriving DecidableEq, Repr

/-- A path-trace slot (R311). -/
structure PathSlot where
  desc : List W32
  t    : Nat
  gen  : W32
  deriving DecidableEq, Repr

/-! ### Sections and cores -/

/-- The execution units of a section (R139). -/
inductive ExUnit where
  | va | vb | sfu | mem | cross | control | engine
  deriving DecidableEq, Repr

/-- A leased line with its timestamps; `data` is used by a copy in an L1 (R202) or in a metadata cache (R264), and `bad` are the
words of a copy that came with an uncorrectable error (R369). -/
structure Line where
  line : Nat
  wts  : Nat
  rts  : Nat
  data : List Byte
  bad  : List Nat := []
  deriving DecidableEq, Repr

/-- One quarter of a core: accumulator memory (unlisted words are 0), engine state, queues and issue state. `praw` are the
words of the images of path-trace slots that are written while the slot is unbound (R312, R372), and `mcache` is the metadata
cache of the matrix engine (R264). -/
structure Section where
  acc     : List (Nat × W32)
  metaHi  : W32
  eflags  : W32
  retired : W32
  awake   : BitVec 4
  lastUse : List Nat
  mask    : Option (Nat × Nat)
  paths   : List (Option PathSlot)
  praw    : List (Nat × W32)
  mcache  : List Line
  mq      : List Cmd
  sq      : List Cmd
  cycle   : Nat
  time    : Nat
  timer   : Nat
  anchor  : Option W32
  last    : Option Nat
  busy    : List (ExUnit × Nat)
  forced  : Option W32
  deriving DecidableEq, Repr

/-- A gang slot in use: its age and a YIELD deferral (R166, R195). -/
structure Gang where
  sect  : Nat
  slot  : Nat
  age   : Nat
  defer : Option (W32 × Nat)
  deriving DecidableEq, Repr

/-- A thread held in a spawn bin (R149, R151). -/
structure Spawned where
  arg     : W32
  tid     : W32
  envid   : W32
  episode : W32
  step    : W32
  dqpos   : W32
  deriving DecidableEq, Repr

/-- A spawn bin in use (R149). -/
structure Bin where
  entry   : W64
  threads : List Spawned
  timer   : Nat
  deriving DecidableEq, Repr

/-- An affine layout record and its conflict counter (R212). -/
structure AffRec where
  bits : BitVec 128
  cnt : W32
  deriving DecidableEq, Repr

/-- A crew on its core (R131, R147, R184). `head` numbers the oldest unretired decision-queue entry.
`preempt` is the pre-emption that it is under, with its save area, and `owing` are the threads that have still to take it.
`binRaw` are the words of bin images that a restore has written and that make no whole bin yet, and `dqRaw` those of decision-queue
entries that it has written behind the tail (R372). -/
structure Crew where
  task    : Nat
  no      : Nat
  ten     : Nat
  allot   : Nat
  pad     : Nat
  replay  : Bool
  threads : List Thread
  sfe     : Thread
  k       : List Reg
  gangs   : List Gang
  head    : Nat
  dq      : List W64
  dqRaw   : List (Nat × W32) := []
  bins    : List (Option Bin)
  binRaw  : List (Nat × W32)
  spawned : Nat
  aff     : List AffRec
  rspill  : W32
  preempt : Option (Nat × W64)
  owing   : List W32
  backs   : List BackEntry
  backCnt : Nat
  backSeen : Nat
  deriving DecidableEq, Repr

/-- The operations of ATOM and ATOMX (R239). -/
inductive AtomOp where
  | add | min | max | and | or | xor | xchg | cas | add64 | cas64 | xchg64 | fadd32 | fadd64 | bfadd2 | fmin32 | fmax32
  deriving DecidableEq, Repr

/-- What a memory request does at its home. `future` is an LDF, and `term` a replay term with the crew that issued it (R240). -/
inductive ReqOp where
  | load (sz : Nat) | store (v : BitVec 128) | rmw (op : AtomOp) (y e : W64) | future | stf (v : W64)
  | term (op : AtomOp) (y : W64) (ten task crew : Nat) (tid : W32)
  deriving DecidableEq, Repr

/-- One lane's request (R211, R220). `pend` names the pending result it fills, `len` is the length of its instruction, `inst`
the execution of that instruction, which all its lanes share, and `seq` the request's place in the order of entry into the
collector. -/
structure Req where
  tid  : W32
  pend : Option Nat
  op   : ReqOp
  n    : Nat
  loc  : Loc
  va   : W64
  lane : Nat
  len  : W64
  inst : Nat := 0
  seq  : Nat := 0
  deriving DecidableEq, Repr

/-- Where a line group stands on its way (R203, R208, R211). `sent` counts the packets sent before it (R215). A reply carries the
line as the group leaves it; the core installs it when the group loaded it, and else updates the copy it has, if any. `data` says that
it brings data, on the receive channel, and not on the mesh (R203, R214). -/
inductive Phase where
  | gathering | sent (nth : Nat) | refused (k : Nat) | waiting (k dueAt : Nat) | replied (copy : Option Line) (load data : Bool)
  deriving DecidableEq, Repr

/-- A line group of the request collector (R211), or a single request that does not enter the collector: `solo`, of a scratchpad or a
future word. `cached` is the attribute of its page (R205), `done` counts the requests that its home has performed, and `copy` is the
line as they leave it. `nth` numbers its reply among those that bring data (R215). -/
structure Group where
  id     : Nat
  line   : Nat
  leased : Bool
  opened : Nat
  reqs   : List Req
  phase  : Phase
  tries  : Nat
  solo   : Bool := false
  cached : Bool := false
  done   : Nat := 0
  nth    : Nat := 0
  copy   : Option Line := none
  deriving DecidableEq, Repr

/-- A scratchpad word that has been written or restored since crew start (R200). -/
structure PadWord where
  idx   : Nat
  val   : W32
  valid : Bool
  deriving DecidableEq, Repr

/-- A translation held by an L1 TLB (R364). -/
structure TlbEntry where
  root : W64
  page : Nat
  pte  : W64
  lvl  : Nat
  deriving DecidableEq, Repr

/-- A core (R2, R7), and the physical core behind its number (R390). Unlisted pad words hold undefined values; unlisted pad lines are full.
`descs` are the words of the images of weight handles that are written while the handle is unbound (R296, R372). `debts` are the
delay debts of the 64 gang slots, section by section, and then that of the front end (R386). `govNext` is the step of the governor that
its next issue cycle takes (R144). -/
structure Core where
  id      : Nat
  phys    : Nat
  crew    : Option Crew
  cycle   : Nat
  clk     : Nat
  gov     : Nat
  govNext : Option Nat := none
  govWin  : Nat
  govGate : Nat
  sects   : List Section
  sfeTime : Nat
  sfeMeta : W32
  epoch   : Nat
  pad     : List PadWord
  empty   : List (Nat × Nat)
  pinned  : List Nat
  tables  : List ActTable
  hist    : Hist
  copyq   : List Cmd
  tblq    : List Cmd
  netq    : List Cmd
  caverq  : List Cmd
  pressq  : List Cmd
  score   : List ScoreEntry
  handles : List (Option Handle)
  descs   : List (Nat × W32)
  tiles   : List Tile
  l1      : List Line
  pts     : Nat
  coll    : List Group
  tlb     : List TlbEntry
  lease   : W32
  mgidle  : W32
  trial   : W32
  trlo    : W64
  trhi    : W64
  debts   : List Nat
  seqs    : List (Eng × W32)
  deriving DecidableEq, Repr

/-! ### Tasks and cells -/

/-- The fields of a task control block (R181, R394). -/
structure Tcb where
  scalar  : W64
  lane    : W64
  seed    : W64
  itern   : W64
  reshint : W64
  crews   : W32
  nthr    : W32
  allot   : BitVec 16
  pad128  : BitVec 16
  itert   : W32
  ctl     : W32
  envbase : W32
  stageq  : W64
  dgrp    : W32
  prod    : List W32
  param   : List W32
  deriving DecidableEq, Repr

/-- Crews lo to hi - 1 of a task, allotted to a cell, or held by the dispatcher of a stack domain (R186). -/
structure Allot where
  lo    : Nat
  hi    : Nat
  stack : Nat
  cell  : Option Nat
  deriving DecidableEq, Repr

/-- A task from its acceptance to its end (R183, R185). `order` is its acceptance order; `zcp` the ZCP queue and
sequence number of its LAUNCH; `fix` the FIXUP arrivals of each tile; `gens` the barrier generations of each level
and sub-group; `stage` where the descriptor of its stage queue lies (R192), and `homes` the cells of its cell instances that stack dispatchers have
handed out (R186). -/
structure Task where
  id       : Nat
  ten      : Nat
  tcb      : Tcb
  order    : Nat
  entered  : Bool
  stage    : Option Loc
  zcp      : Option (Nat × W32)
  allots   : List Allot
  homes    : List (Nat × Nat)
  started  : List Nat
  ended    : List Nat
  trig     : List Nat
  fix      : List (Nat × List Nat)
  probes   : List W64
  gens     : List ((Nat × Nat) × Nat)
  bypass   : List (Nat × Nat)
  announced : List Nat
  go       : Bool
  deriving DecidableEq, Repr

/-- What is kept of a saved thread (R373). -/
structure SavedThread where
  tid       : W32
  place     : Place
  bpend     : W32
  triggered : Bool
  live      : Bool
  far       : List W64 := []
  refused   : Option W64 := none
  deriving DecidableEq, Repr

/-- A saved crew (R373). -/
structure SavedCrew where
  task    : Nat
  no      : Nat
  ten     : Nat
  core    : Nat
  save    : W64
  gangs   : List Gang
  threads : List SavedThread
  sfe     : SavedThread
  repair  : Bool
  head    : Nat
  backs   : List BackEntry
  backCnt : Nat
  backSeen : Nat
  deriving DecidableEq, Repr

/-- A cell (R7): its memory (unlisted bytes are undefined), its Grinder, the state of its work stealing, with the shipped
allotments on their way and whether it has found work since its last request, the time of its last throttled packet (R218), and when its
receive channel is free (R214). -/
structure Cell where
  id      : Nat
  bytes   : List Host.Cell
  epoch   : Nat
  grindq  : List Cmd
  asking  : Option Nat
  asked   : Nat
  shipped : Option (Nat × List Allot)
  roundAt : Nat
  sentAt  : Nat
  found   : Bool := false
  recvAt  : Nat := 0
  deriving DecidableEq, Repr

/-- A bypass-buffer entry (R207). -/
structure Bypass where
  line   : Nat
  rts    : Nat
  freeAt : Nat
  deriving DecidableEq, Repr

/-- A slice (R205 to R207, R218, R390), with its shared TLB (R364). `freeAt` is when it may perform its next line group
(R204). -/
structure Slice where
  id     : Nat
  memTs  : Nat
  bypass : List Bypass
  pins   : List Nat
  phys   : Nat
  tlb    : List TlbEntry
  freeAt : Nat
  deriving DecidableEq, Repr

/-! ### Memory shared by the device -/

/-- A deferred LDF (R210). `born` is the device's serial number when it was deferred. -/
structure Deferred where
  word : Loc
  core : Nat
  tid  : W32
  pend : Nat
  len  : W64
  born : Nat := 0
  deriving DecidableEq, Repr

/-- A held floating-point term of a replay task (R240), with the crew that issued it. `seen` are the cores that it is ordered before:
its own, and those that have synchronised since (R180), `put` says that one of them has put an entry into a stage queue since (R219), and
`born` is the device's serial number when it was held. -/
structure Term where
  loc  : Loc
  op   : AtomOp
  ten  : Nat
  task : Nat
  crew : Nat
  tid  : W32
  core : Nat
  val  : W64
  seen : List Nat := []
  put  : Bool := false
  born : Nat := 0
  deriving DecidableEq, Repr

/-- What a stage queue held after its last operation (R178, R179): its descriptor, HEAD, TAIL and the live entries, so
that a store by software to one of them can be told, and whether one was found. (DESIGN CHOICE, log entry 72.) -/
structure StageQ where
  desc : Loc
  head : Nat
  tail : Nat
  ents : List (List W32)
  bad  : Bool
  deriving DecidableEq, Repr

/-! ### Debug, fabric and host -/

/-- A Sump record (R388). -/
structure SumpRec where
  time : Nat
  kind : Nat
  die  : Nat
  ten  : Nat
  unit : Nat
  sub  : Nat
  a    : W64
  b    : W64
  deriving DecidableEq, Repr

/-- The trace ring of a tenancy (R380, R412). -/
structure Trace where
  on      : Bool
  addr    : W64
  cap     : Nat
  count   : Nat
  dropped : Nat
  deriving DecidableEq, Repr

/-- One fibre of a port: active wavelengths, spares left, whether its traffic is on the spare fibre, and the wavelengths retired (R397,
R398). -/
structure Fibre where
  active : Nat
  spares : Nat
  onSpare : Bool
  retired : List Nat := []
  deriving DecidableEq, Repr

/-- A fabric port (R397, R398): next SEQ to send and to receive, the replay buffer, the SEQ of the last negative
acknowledgement sent, flits delivered and flits sent again. Fibres 0 to 7 send and 8 to 15 receive; each direction has a spare. `out` are
the flits that wait for a transmit slot, `resend` the SEQs of those to be sent again, `wire` the flits sent, oldest first, and `held` those
received ahead of their turn. `slotAt` is
when the next slot begins and `dataAt` when it may take a data flit (R399). `naks` and `bads` are the counts of flits sent and delivered
at which negative acknowledgements came and went. -/
structure Port where
  id     : Nat
  peer   : Option Nat
  up     : Bool
  tx     : BitVec 24
  rx     : BitVec 24
  replay : List Flit
  nak    : Option (BitVec 24)
  got    : Nat
  again  : Nat
  fibres : List Fibre
  spareTx : Bool
  spareRx : Bool
  resv   : List W64
  out    : List Flit := []
  resend : List (BitVec 24) := []
  wire   : List Flit := []
  held   : List Flit := []
  slotAt : Nat := 0
  dataAt : Nat := 0
  naks   : List Nat := []
  bads   : List Nat := []
  deriving DecidableEq, Repr

/-- A mesh router (R217). -/
structure Router where
  id     : Nat
  awake  : Bool
  wakeAt : Nat
  last   : Nat
  deriving DecidableEq, Repr

/-- A message on the electrical mesh: the router that sent it, the routers still to enter and when it may enter the next (R216). One that
carries the request, the renewal or the acknowledgement of a line group names its core and the group. -/
structure MeshMsg where
  src   : Nat
  path  : List Nat
  ready : Nat
  cargo : Option (Nat × Nat) := none
  deriving DecidableEq, Repr

/-- The lantern of a home channel (R214): its station, the packets sent in this hold, and when it came there. -/
structure Lantern where
  chan    : Nat
  station : Nat
  used    : Nat
  since   : Nat
  deriving DecidableEq, Repr

/-- An uncorrectable error that arises in a storage word (R369): in memory, a scratchpad or cell memory, or in a register of a
thread of a core; or one that the part corrects, which leaves a record alone (R388). -/
inductive Upset where
  | word (l : Loc) | reg (core : Nat) (tid : W32) (n : Nat) | corrected (l : Loc)
  deriving DecidableEq, Repr

/-- What crosses the die bridge (R391): the packet of a line group or its reply, a mesh message to a router, the transfers of an engine
command, the loads of a page walk, an access of a thread that does not enter the collector, or what the command processor sends to the
other die for a command. -/
inductive Load where
  | packet (core grp : Nat) | mesh (src dst : Nat) (cargo : Option (Nat × Nat)) | cmd (r : EngRef) (id : Nat) (va : W64)
  | walk (die : Nat) (root : W64) (page : Nat) | access (core : Nat) (va : W64) | cp (ten q : Nat) (seq : W32)
  deriving DecidableEq, Repr

/-- A transfer over the die bridge: what it carries, the die that it goes to, and how often it has failed (R391, R393). -/
structure Crossing where
  load     : Load
  die      : Nat
  attempts : Nat
  deriving DecidableEq, Repr

/-- A message of the device to the host: a reply or an unsolicited datagram (R404, R411). -/
structure Reply where
  op      : Nat
  ten     : Nat
  kind    : Nat
  qid     : Nat
  seq     : W32
  code    : W32
  payload : List Byte
  deriving DecidableEq, Repr

/-- A sequenced command that is accepted and not yet DONE (R406, R407). `code` is none while it may still run.
`task` is the task of a LAUNCH, and for an UNMAP the serial number at its start. -/
structure ZCmd where
  seq     : W32
  op      : Nat
  payload : List Byte
  started : Bool
  task    : Nat
  code    : Option W32
  deriving DecidableEq, Repr

/-- A ZCP queue (R406). -/
structure ZQueue where
  next : W32
  live : List ZCmd
  deriving DecidableEq, Repr

/-- A journal entry (R409). -/
structure JEntry where
  seq    : W32
  qid    : Nat
  op     : Nat
  hash   : W64
  time   : Nat
  state  : Nat
  result : W32
  deriving DecidableEq, Repr

/-- A service slot forwarded and not yet answered (R411). -/
structure Service where
  reply   : W64
  payload : List Byte
  sentAt  : Nat
  deriving DecidableEq, Repr

/-- A tenancy (R7, R185, R408 to R413). `jbase` counts the journal entries overwritten so far, and `dirty` are the numbers of the
entries that the mirror has still to take. -/
structure Tenancy where
  id      : Nat
  doms    : List Nat
  root    : W64
  khandler : W64
  svcq    : W64
  svcHead : Nat
  celk    : Nat
  govhold : Bool
  nextTask : Nat
  rdmaKey : W32
  conns   : List Bool
  zqs     : List ZQueue
  journal : List JEntry
  jbase   : Nat
  mirror  : Option W64
  dirty   : List Nat
  trace   : Trace
  service : List Service
  reset   : Option (Nat × W32)
  deriving DecidableEq, Repr

/-- The always-on domain (R388, R389, R409, R416, R417): the Sump, its clock, the monotonic store and the freeze. `resets` counts the
cold resets, and `image` numbers the one that offered the firmware image in use (R415). -/
structure AlwaysOn where
  time     : Nat
  sump     : List SumpRec
  sumpSeq  : Nat
  lms      : Nat
  version  : Nat
  minVer   : Nat
  resets   : Nat
  frozen   : Bool
  power    : Bool
  drops    : Nat
  resends  : Nat
  spareCores : List Nat
  spareSlices : List Nat
  image    : Nat := 0
  deriving DecidableEq, Repr

/-- What each die shares (R144, R218, R364, R399): current tokens, the units that wait for one and those that hold one until they
are settled, the injection limit, when a claim was last seen, and when the receive channel of the bridge port is free (R391). Units 0 to
79 are routers and 80 to 159 slices. -/
structure Die where
  id       : Nat
  tokens   : Nat
  waiting  : List Nat
  settling : List Nat
  claimAt  : Nat
  throttle : Bool
  fabq     : List Cmd
  recvAt   : Nat := 0
  deriving DecidableEq, Repr

/-- The run, or the front end, whose instruction is executed: `mask` names its lanes and `raw` is the instruction as
fetched. -/
structure Issue where
  core : Nat
  sfe  : Bool
  sect : Nat
  slot : Nat
  mask : W32
  raw  : RawInstr
  deriving DecidableEq, Repr

/-- The whole device. `issue` is the run being executed, `slots` the issue slots filled and not yet executed (R140,
R195), `sched` the outside inputs still to come, each with the control cycle since the last reset at which it arrives, and `free`
a counter that makes free values fresh. `upsets` are the storage errors still to arise, each with its control cycle, and `errs` the
4-byte words that hold one now (R369). `ptsAt` is the control cycle of the last rise of every program timestamp (R204), and `ptsLow` is the
timestamp of a core that is not listed. `hostTs` is the greatest timestamp of the host's accesses (R227), and `farTs` holds
those of each other device (R226). `stale` are the valid page-table entries that threads have stored to, each with what stood there
(R365). Lists of units hold those that differ from the state after reset. (DESIGN CHOICE, log entry 73.) -/
structure State where
  issue   : Issue
  slots   : List Issue
  sched   : List (Nat × Instr)
  upsets  : List (Nat × Upset)
  errs    : List Loc
  stale   : List (Nat × W64)
  ptsAt   : Nat
  ptsLow  : Nat
  hostTs  : Nat
  farTs   : List (Nat × Nat)
  free    : Nat
  now     : Nat
  cores   : List Core
  cells   : List Cell
  slices  : List Slice
  dies    : List Die
  mem     : List Host.Cell
  home    : List Line
  futures : List Loc
  deferred : List Deferred
  terms   : List Term
  queues  : List StageQ
  rows    : List Nat
  tasks   : List Task
  order   : Nat
  saved   : List SavedCrew
  dealAt  : List (Nat × Nat)
  tens    : List Tenancy
  stops   : List (EngRef × W32)
  out     : List Reply
  ports   : List Port
  unreach : List Nat
  routers : List Router
  msgs    : List MeshMsg
  lantern : List Lantern
  bridge  : List Crossing
  aon     : AlwaysOn
  dev     : Nat
  serial  : Nat
  deriving DecidableEq, Repr

/-! ### Reasons a step can stop -/

/-- Faults: the device stops. -/
inductive Fault where
  /-- Raised by `step` while the device is without power and no input is left (R416): every clock is stopped, and only a reset with the
  return of power leaves that state. Safe. -/
  | clocksStopped
  deriving DecidableEq, Repr

/-- Refusals: the model gives no meaning. -/
inductive Refusal where
  /-- An arm of Machine/Dispatch.lean that has no meaning yet. Safe. -/
  | notModelled (mnemonic : String)
  deriving DecidableEq, Repr

/-! ### After reset

A cold reset leaves no task, no crew and no command anywhere (R417). The values named here that the spec does not give
are listed in notes/assumptions. -/

/-- An empty table pair: every bank reads as zero bytes (R119). -/
def ActTable.fresh : ActTable := { b0 := [], b1 := [], active := false, held := false }

/-- The histogram unit unbound, its counters at 0. -/
def Hist.fresh : Hist := { tag := 0#32, count := List.replicate 67 0#32 }

/-- A section after reset. -/
def Section.fresh : Section :=
  { acc := [], metaHi := 0#32, eflags := 0#32, retired := 0#32, awake := 15#4, lastUse := [0, 0, 0, 0], mask := none,
    paths := List.replicate 8 none, praw := [], mcache := [], mq := [], sq := [], cycle := 0, time := 0, timer := 0, anchor := none,
    last := none, busy := [], forced := none }

/-- A core after reset: %lease 8 and %mgidle 1,024 (R197, R269), no crew, tables of zero bytes (R119). -/
def Core.fresh (id : Nat) : Core :=
  { id, phys := id, crew := none, cycle := 0, clk := 0, gov := 0, govWin := 0, govGate := 0,
    sects := List.replicate 4 Section.fresh, sfeTime := 0, sfeMeta := 0#32, epoch := 0, pad := [],
    empty := [], pinned := [], tables := List.replicate 16 ActTable.fresh, hist := Hist.fresh, copyq := [], tblq := [],
    netq := [], caverq := [], pressq := [], score := [], handles := List.replicate 64 none, descs := [], tiles := [], l1 := [],
    pts := 0, coll := [], tlb := [], lease := 8#32, mgidle := 1024#32, trial := 0#32, trlo := 0#64, trhi := 0#64,
    debts := List.replicate 65 0, seqs := [] }

/-- A cell after reset. -/
def Cell.fresh (id : Nat) : Cell :=
  { id, bytes := [], epoch := 0, grindq := [], asking := none, asked := 0, shipped := none, roundAt := 0,
    sentAt := 0 }

/-- A slice after reset, behind its own physical number (R390). -/
def Slice.fresh (id : Nat) : Slice := { id, memTs := 0, bypass := [], pins := [], phys := id, tlb := [], freeAt := 0 }

/-- A die after reset: every router and slice waits for a current token before it powers up (R218). How many tokens the budget holds
the spec does not say. (DESIGN CHOICE, log entry 81.) -/
def Die.fresh (id : Nat) : Die :=
  { id, tokens := 8, waiting := List.range 160, settling := [], claimAt := 0, throttle := false, fabq := [] }

/-- A fabric port after reset: 8 fibres of 32 active and 2 spare wavelengths and a spare fibre in each direction (R397). -/
def Port.fresh (id : Nat) : Port :=
  { id, peer := none, up := false, tx := 0#24, rx := 0#24, replay := [], nak := none, got := 0, again := 0,
    fibres := List.replicate 16 { active := 32, spares := 2, onSpare := false }, spareTx := true, spareRx := true, resv := [] }

/-- A router that is awake. -/
def Router.fresh (id : Nat) : Router := { id, awake := true, wakeAt := 0, last := 0 }

/-- A trace ring that is off. -/
def Trace.fresh : Trace := { on := false, addr := 0#64, cap := 0, count := 0, dropped := 0 }

/-- Tenancy t after bring-up: the stack domain t, and firmware's values at 0 (notes/assumptions). (DESIGN CHOICE, log entry 4; DESIGN CHOICE, log entry 33.) -/
def Tenancy.fresh (id : Nat) : Tenancy :=
  { id, doms := [id], root := 0#64, khandler := 0#64, svcq := 0#64, svcHead := 0, celk := 0, govhold := false,
    nextTask := 1, rdmaKey := 0#32, conns := List.replicate 16 true, zqs := List.replicate 16 { next := 0#32, live := [] },
    journal := [], jbase := 0, mirror := none, dirty := [], trace := Trace.fresh, service := [], reset := none }

/-- The always-on domain after its first cold reset, which offered firmware image 0 (R415): 8 spare cores and 2 spare slices per die
(R2). (DESIGN CHOICE, log entry 71.) -/
def AlwaysOn.fresh : AlwaysOn :=
  { time := 0, sump := [], sumpSeq := 0, lms := 0, version := Config.firmwareVersion 0, minVer := 0, resets := 1, frozen := false,
    power := true, drops := 0, resends := 0, spareCores := (List.range 16).map (320 + ·),
    spareSlices := (List.range 4).map (160 + ·) }

/-- The device right after a cold reset (R417): nothing is launched, memory lists nothing, every timestamp is 0, and
the host's queues stand at NEXT 0 (R406). (DESIGN CHOICE, log entries 1, 5, 73.) -/
def State.reset : State :=
  { issue := { core := 0, sfe := false, sect := 0, slot := 0, mask := 0#32, raw := ⟨0#32, none⟩ }, slots := [], sched := [], upsets := [],
    errs := [], stale := [], ptsAt := 0, ptsLow := 0, hostTs := 0, farTs := [],
    free := 0, now := 0, cores := [], cells := [], slices := [], dies := [Die.fresh 0, Die.fresh 1], mem := [],
    home := [], futures := [], deferred := [], terms := [], queues := [], rows := [], tasks := [], order := 0,
    saved := [], dealAt := [], tens := (List.range 8).map Tenancy.fresh, stops := [], out := [],
    ports := (List.range 16).map Port.fresh, unreach := [], routers := [], msgs := [], lantern := [], bridge := [],
    aon := AlwaysOn.fresh, dev := Config.deviceRank, serial := 0 }

end Sys2Proof.Machine
end

