-- ==== Sys2Proof/Machine/Image.lean ====
section
/-! DEFINITION. The image of a core's engine state that a STATE page maps (R372), word by word. -/

namespace Sys2Proof.Machine
open Sys2Proof

/-- Replace the first element with the key of `x`, or append `x`. -/
def putBy {α : Type} (key : α → Nat) (x : α) : List α → List α
  | [] => [x]
  | y :: r => if key y = key x then x :: r else y :: putBy key x r

/-- A value in a list of words by index, unlisted words being 0. -/
def lookWord (l : List (Nat × W32)) (i : Nat) : W32 := ((l.find? fun p => p.1 == i).map (·.2)).getD 0#32

/-- `l` with element `i` replaced by its image, and filled up with `d` when it is shorter. -/
def modifyAt {α : Type} (d : α) (f : α → α) : Nat → List α → List α
  | 0, [] => [f d]
  | 0, x :: r => f x :: r
  | n + 1, [] => d :: modifyAt d f n []
  | n + 1, x :: r => x :: modifyAt d f n r

/-- Whether a command of one of the core's engines is in flight (R372). -/
def Core.engineBusy (c : Core) : Bool :=
  !(c.copyq.isEmpty && c.tblq.isEmpty && c.netq.isEmpty && c.caverq.isEmpty && c.pressq.isEmpty && c.tiles.isEmpty) ||
  c.sects.any fun x => !(x.mq.isEmpty && x.sq.isEmpty)

/-- Half `h` (0 low, 1 high) of a 64-bit value. -/
def half (x : W64) (h : Nat) : W32 := if h = 0 then lo32 x else hi32 x
def setHalf (x : W64) (h : Nat) (v : W32) : W64 := if h = 0 then pair64 v (hi32 x) else pair64 (lo32 x) v

/-- Word `i` of a 128-bit value. -/
def quarter (x : BitVec 128) (i : Nat) : W32 := x.extractLsb' (32 * i) 32
def setQuarter (x : BitVec 128) (i : Nat) (v : W32) : BitVec 128 :=
  (x &&& ~~~((BitVec.allOnes 32).setWidth 128 <<< (32 * i))) ||| (v.setWidth 128 <<< (32 * i))

def Core.sectAt (c : Core) (i : Nat) : Section := c.sects.getD i Section.fresh
def Core.onSect (c : Core) (i : Nat) (f : Section → Section) : Core :=
  { c with sects := modifyAt Section.fresh f i c.sects }
def Core.tableAt (c : Core) (t : Nat) : ActTable := c.tables.getD t ActTable.fresh
def Core.onTable (c : Core) (t : Nat) (f : ActTable → ActTable) : Core :=
  { c with tables := modifyAt ActTable.fresh f t c.tables }
def Core.handleAt (c : Core) (h : Nat) : Option Handle := (c.handles.getD h none)

/-! ### Path-trace slots -/

/-- A word of a list of raw words by index, if it has been written. -/
def rawWord (l : List (Nat × W32)) (i : Nat) : Option W32 := (l.find? fun p => p.1 == i).map (·.2)

/-- Words 0 to 31 of the image of path-trace slot `j`: the descriptor copy, T, the generation and whether it is bound. The words of
an unbound slot are those last written to its image. -/
def Section.pathWord (s : Section) (j i : Nat) : W32 :=
  match s.paths.getD j none with
  | none => if i = 18 then 0#32 else lookWord s.praw (32 * j + i)
  | some p => if i < 16 then p.desc.getD i 0#32 else if i = 16 then BitVec.ofNat 32 p.t else if i = 17 then p.gen
    else if i = 18 then 1#32 else 0#32

/-- The binding that the written words of a slot's image describe. -/
def Section.rawSlot (s : Section) (j : Nat) : PathSlot :=
  { desc := (List.range 16).map fun i => lookWord s.praw (32 * j + i), t := (lookWord s.praw (32 * j + 16)).toNat,
    gen := lookWord s.praw (32 * j + 17) }

/-- Write word `i` of the image of slot `j`. Word 18 alone binds and unbinds: the words of a slot may be restored in any order. -/
def Section.setPathWord (s : Section) (j i : Nat) (v : W32) : Section :=
  if i < 18 then
    let s := { s with praw := putBy (·.1) (32 * j + i, v) s.praw }
    { s with paths := modifyAt none (fun p => p.map fun (q : PathSlot) =>
        if i < 16 then { q with desc := q.desc.set i v } else if i = 16 then { q with t := v.toNat } else { q with gen := v }) j s.paths }
  else if i = 18 then
    { s with paths := modifyAt none (fun p => if v.getLsbD 0 then some (p.getD (s.rawSlot j)) else none) j s.paths }
  else s

/-! ### Weight handles -/

/-- Word `i` of the image of handle `h`: of its binding, or the word last written to the image of an unbound handle. -/
def Core.handleWord (c : Core) (h i : Nat) : W32 :=
  match c.handleAt h with
  | some x => x.net.getD i 0#32
  | none => lookWord c.descs (64 * h + i)

/-- The binding that the written words of a handle's image describe. -/
def Core.rawHandle (c : Core) (h : Nat) : Handle := { net := (List.range 64).map fun i => lookWord c.descs (64 * h + i), bind := h }

/-- Write word `i` of the image of handle `h`: only a handle-valid bit binds (R296). -/
def Core.setHandleWord (c : Core) (h i : Nat) (v : W32) : Core :=
  { c with descs := putBy (·.1) (64 * h + i, v) c.descs,
           handles := modifyAt none (fun x => x.map fun (y : Handle) => { y with net := y.net.set i v }) h c.handles }

/-! ### Spawn bins and the spawn counter

The spec gives the opaque image no layout. Here bin i lies at byte 0x2000 + 0x400 * i: its entry in words 0 and 1, its timer in
word 2, the number of its threads in word 3, and thread t in words 8 + 6 * t to 13 + 6 * t. The counter is at 0x4000, and the words
behind it stand for the backward store. (DESIGN CHOICE, log entry 46.) -/

/-- Word `i` of a bin's image. -/
def binWord (b : Option Bin) (i : Nat) : W32 :=
  match b with
  | none => 0#32
  | some b =>
    match i with
    | 0 => lo32 b.entry | 1 => hi32 b.entry | 2 => BitVec.ofNat 32 b.timer | 3 => BitVec.ofNat 32 b.threads.length
    | _ =>
      if i < 8 then 0#32
      else match b.threads[(i - 8) / 6]? with
        | none => 0#32
        | some x => [x.arg, x.tid, x.envid, x.episode, x.step, x.dqpos].getD ((i - 8) % 6) 0#32

/-- The bin that the written words of its image describe, when every word of it has been written. -/
def rawBin (raw : List (Nat × W32)) (j : Nat) : Option Bin :=
  let w (i : Nat) : Option W32 := rawWord raw (256 * j + i)
  match w 0, w 1, w 2, w 3 with
  | some e0, some e1, some t, some n =>
    let ts := (List.range (min 32 n.toNat)).filterMap fun k =>
      match w (8 + 6 * k), w (9 + 6 * k), w (10 + 6 * k), w (11 + 6 * k), w (12 + 6 * k), w (13 + 6 * k) with
      | some arg, some tid, some envid, some episode, some step, some dqpos =>
        some ({ arg, tid, envid, episode, step, dqpos } : Spawned)
      | _, _, _, _, _, _ => none
    if ts.isEmpty || ts.length != min 32 n.toNat then none else some { entry := pair64 e0 e1, threads := ts, timer := t.toNat }
  | _, _, _, _ => none

/-- Write word `i` of the image of bin `j`: the bin stands when its last word has been written, in whatever order. -/
def Crew.setBinWord (c : Crew) (j i : Nat) (v : W32) : Crew :=
  let raw := putBy (·.1) (256 * j + i, v) c.binRaw
  match rawBin raw j with
  | none => { c with binRaw := raw }
  | some b => { c with bins := c.bins.set j (some b), binRaw := raw.filter fun p => p.1 / 256 != j }

/-- The bits of an affine record that are not reserved (R212). -/
def affMask : BitVec 128 := ~~~(0xFFF#128 <<< 20)

/-- Bits `32 * h` to `32 * h + 31` of a list of truth values. -/
def bitsWord (l : List Bool) (h : Nat) : W32 :=
  BitVec.ofNat 32 (((List.range 32).map fun j => if l.getD (32 * h + j) false then 2 ^ j else 0).sum)

/-! ### The decision queue -/

/-- How far behind the head the entry stands whose number is n modulo 64. -/
def Crew.dqIndex (c : Crew) (n : Nat) : Nat := (n + 64 - c.head % 64) % 64

/-- Half h of entry n of the image of a decision queue: behind the tail, the word last written there. -/
def Crew.dqWord (c : Crew) (n h : Nat) : W32 :=
  match c.dq[c.dqIndex n]? with
  | some x => half x h
  | none => lookWord c.dqRaw (2 * n + h)

/-- Write half h of entry n. Only a write of the tail makes an entry. -/
def Crew.setDqWord (c : Crew) (n h : Nat) (v : W32) : Crew :=
  if c.dqIndex n < c.dq.length then { c with dq := modifyAt 0#64 (fun x => setHalf x h v) (c.dqIndex n) c.dq }
  else { c with dqRaw := putBy (·.1) (2 * n + h, v) c.dqRaw }

/-- Write the tail: the entries up to it are those written to the image before. -/
def Crew.setDqTail (c : Crew) (v : W32) : Crew :=
  let n := min 64 (v - BitVec.ofNat 32 c.head).toNat
  let new := (List.range n).drop c.dq.length
  { c with dq := c.dq.take n ++ new.map fun i => pair64 (c.dqWord ((c.head + i) % 64) 0) (c.dqWord ((c.head + i) % 64) 1),
           dqRaw := c.dqRaw.filter fun p => !decide (c.dqIndex (p.1 / 2) < n) }

/-- The word at byte `off` of image SLOT of a core (R372). Unused words read as 0. (DESIGN CHOICE, log entry 46.) -/
def Core.imageWord (c : Core) (slot off : Nat) : W32 :=
  let w := off / 4
  if slot < 4 then lookWord (c.sectAt slot).acc w
  else if slot = 4 then
    if off < 0x9000 then
      let b := off / 0x480
      let t := c.tableAt (b / 2)
      (if b % 2 = 0 then t.b0 else t.b1).getD (off % 0x480 / 4) 0#32
    else if off = 0x9000 then bitsWord (c.tables.map (·.active)) 0
    else if off = 0x9010 then c.hist.tag
    else if 0x9014 ≤ off ∧ off < 0x9120 then c.hist.count.getD ((off - 0x9014) / 4) 0#32
    else if 0x9200 ≤ off ∧ off < 0x9300 then
      match c.crew.bind fun k => k.aff[(off - 0x9200) / 32]? with
      | none => 0#32
      | some a => let i := off % 32 / 4; if i < 4 then quarter a.bits i else if i = 4 then a.cnt else 0#32
    else if 0x9400 ≤ off ∧ off < 0x9500 then
      let s := c.sectAt ((off - 0x9400) / 64)
      match off % 64 / 4 with
      | 0 => s.eflags | 1 => s.metaHi
      | 2 => BitVec.ofNat 32 ((s.mask.map (·.1)).getD 0)
      | 3 => BitVec.ofNat 32 ((s.mask.map (·.2)).getD 0)
      | _ => 0#32
    else if off = 0x9500 then c.sfeMeta
    else if off = 0x9800 ∨ off = 0x9804 then bitsWord (c.handles.map (·.isSome)) ((off - 0x9800) / 4)
    else if 0xA000 ≤ off ∧ off < 0xE000 then c.handleWord ((off - 0xA000) / 256) (off % 256 / 4)
    else 0#32
  else if slot = 5 then
    if off < 0x200 then
      match c.crew with
      | none => 0#32
      | some k => k.dqWord (off / 8) (off % 8 / 4)
    else if off = 0x200 then (c.crew.map fun k => BitVec.ofNat 32 (k.head + k.dq.length)).getD 0#32
    else if 0x400 ≤ off ∧ off < 0x1400 then
      let i := (off - 0x400) / 128
      (c.sectAt (i / 8)).pathWord (i % 8) (off % 128 / 4)
    else
      match c.crew with
      | none => 0#32
      | some k =>
        if 0x2000 ≤ off ∧ off < 0x4000 then binWord (k.bins.getD ((off - 0x2000) / 1024) none) (off % 1024 / 4)
        else if off = 0x4000 ∨ off = 0x4004 then BitVec.ofNat 32 (k.spawned / 2 ^ (8 * (off - 0x4000)))
        else if 0x4008 ≤ off then Config.freeWord [33, c.id, k.backCnt, k.backs.length, off]
        else 0#32
  else 0#32

/-- Write the word at byte `off` of image SLOT. A crew's entries of the backward store stand with the crew while it is saved, and a
write of their words changes nothing. The engine flags have the four bits of R284. (DESIGN CHOICE, log entry 46.) -/
def Core.setImageWord (c : Core) (slot off : Nat) (v : W32) : Core :=
  let w := off / 4
  if slot < 4 then c.onSect slot fun s => { s with acc := putBy (·.1) (w, v) s.acc }
  else if slot = 4 then
    if off < 0x9000 then
      let b := off / 0x480
      c.onTable (b / 2) fun t =>
        if b % 2 = 0 then { t with b0 := modifyAt 0#32 (fun _ => v) (off % 0x480 / 4) t.b0 }
        else { t with b1 := modifyAt 0#32 (fun _ => v) (off % 0x480 / 4) t.b1 }
    else if off = 0x9000 then
      { c with tables := (c.tables.zipIdx).map fun (t, i) => { t with active := v.getLsbD i } }
    else if off = 0x9010 then { c with hist := { c.hist with tag := v } }
    else if 0x9014 ≤ off ∧ off < 0x9120 then
      { c with hist := { c.hist with count := c.hist.count.set ((off - 0x9014) / 4) v } }
    else if 0x9200 ≤ off ∧ off < 0x9300 then
      let i := off % 32 / 4
      { c with crew := c.crew.map fun k => { k with aff := k.aff.zipIdx.map fun (a, j) =>
          if j = (off - 0x9200) / 32 then
            (if i < 4 then { a with bits := setQuarter a.bits i v &&& affMask } else if i = 4 then { a with cnt := v } else a)
          else a } }
    else if 0x9400 ≤ off ∧ off < 0x9500 then
      c.onSect ((off - 0x9400) / 64) fun s =>
        match off % 64 / 4 with
        | 0 => { s with eflags := v &&& 0x17#32 }
        | 1 => { s with metaHi := v }
        | 2 => { s with mask := some (v.toNat, (s.mask.map (·.2)).getD 0) }
        | 3 => { s with mask := if v = 0#32 then none else some ((s.mask.map (·.1)).getD 0, v.toNat) }
        | _ => s
    else if off = 0x9500 then { c with sfeMeta := v }
    else if off = 0x9800 ∨ off = 0x9804 then
      let h := (off - 0x9800) / 4
      { c with handles := c.handles.zipIdx.map fun (x, i) =>
          if i / 32 = h then (if v.getLsbD (i % 32) then some (x.getD (c.rawHandle i)) else none) else x }
    else if 0xA000 ≤ off ∧ off < 0xE000 then
      c.setHandleWord ((off - 0xA000) / 256) (off % 256 / 4) v
    else c
  else if slot = 5 then
    if off < 0x200 then
      { c with crew := c.crew.map fun k => k.setDqWord (off / 8) (off % 8 / 4) v }
    else if off = 0x200 then { c with crew := c.crew.map fun k => k.setDqTail v }
    else if 0x400 ≤ off ∧ off < 0x1400 then
      let i := (off - 0x400) / 128
      c.onSect (i / 8) fun s => s.setPathWord (i % 8) (off % 128 / 4) v
    else if 0x2000 ≤ off ∧ off < 0x4000 then
      { c with crew := c.crew.map fun k => k.setBinWord ((off - 0x2000) / 1024) (off % 1024 / 4) v }
    else if off = 0x4000 then { c with crew := c.crew.map fun k => { k with spawned := k.spawned / 2 ^ 32 * 2 ^ 32 + v.toNat } }
    else if off = 0x4004 then { c with crew := c.crew.map fun k => { k with spawned := v.toNat * 2 ^ 32 + k.spawned % 2 ^ 32 } }
    else c
  else c

end Sys2Proof.Machine
end

