-- ==== Sys2Proof/Machine/Num.lean ====
section
/-! DEFINITION. Floating-point values, rounding and the exact operations beneath the cards (R53 to R67). A result is
formed exactly as an `FVal` and rounded once by `roundTo`. -/

namespace Sys2Proof.Machine
open Sys2Proof

/-- How a format spends its top encodings (R55). -/
inductive FStyle where
  | ieee | e5m2 | e4m3 | plain
  deriving DecidableEq, Repr

/-- A floating-point format: exponent bits, fraction bits and style (R53, R54). -/
structure Fmt where
  e : Nat
  f : Nat
  style : FStyle
  deriving DecidableEq, Repr

def Fmt.f64 : Fmt := ⟨11, 52, .ieee⟩
def Fmt.f32 : Fmt := ⟨8, 23, .ieee⟩
def Fmt.f16 : Fmt := ⟨5, 10, .ieee⟩
def Fmt.bf16 : Fmt := ⟨8, 7, .ieee⟩
def Fmt.e5m2 : Fmt := ⟨5, 2, .e5m2⟩
def Fmt.e4m3 : Fmt := ⟨4, 3, .e4m3⟩
def Fmt.f6a : Fmt := ⟨3, 2, .plain⟩
def Fmt.f6b : Fmt := ⟨2, 3, .plain⟩

/-- The bias, which is 2^(e-1) - 1 in every format of R54. -/
def Fmt.bias (fm : Fmt) : Nat := 2 ^ (fm.e - 1) - 1
def Fmt.width (fm : Fmt) : Nat := 1 + fm.e + fm.f
/-- The encoding of the largest finite value, without its sign (R54, R55). -/
def Fmt.maxFinite (fm : Fmt) : Nat :=
  match fm.style with
  | .ieee | .e5m2 => (2 ^ fm.e - 1) * 2 ^ fm.f - 1
  | .e4m3 => 2 ^ (fm.e + fm.f) - 2
  | .plain => 2 ^ (fm.e + fm.f) - 1
/-- The encoding of infinity, without its sign, for the formats that have one. -/
def Fmt.infinity (fm : Fmt) : Nat := (2 ^ fm.e - 1) * 2 ^ fm.f
/-- The canonical NaN (R55); +0 for the formats without one (R64). -/
def Fmt.nan (fm : Fmt) : Nat :=
  match fm.style with
  | .ieee => (2 ^ fm.e - 1) * 2 ^ fm.f + 2 ^ (fm.f - 1)
  | .e5m2 => 0x7E
  | .e4m3 => 0x7F
  | .plain => 0
def Fmt.hasInf (fm : Fmt) : Bool := fm.style == .ieee || fm.style == .e5m2
/-- The sign bit set or clear above the magnitude encoding `m`. -/
def Fmt.signed (fm : Fmt) (s : Bool) (m : Nat) : Nat := (if s then 2 ^ (fm.e + fm.f) else 0) + m

/-- An exact value: a NaN (`sig` when signalling), an infinity, a zero, or (-1)^s * m * 2^e with m > 0. -/
inductive FVal where
  | nan (sig : Bool) | inf (s : Bool) | zero (s : Bool) | fin (s : Bool) (m : Nat) (e : Int)
  deriving DecidableEq, Repr

/-- The value of an encoding (R53, R55). -/
def Fmt.decode (fm : Fmt) (x : Nat) : FVal :=
  let s := x.testBit (fm.e + fm.f)
  let ex := x / 2 ^ fm.f % 2 ^ fm.e
  let fr := x % 2 ^ fm.f
  let top := ex == 2 ^ fm.e - 1
  let special : Option FVal := match fm.style with
    | .ieee => if top then some (if fr = 0 then .inf s else .nan (!fr.testBit (fm.f - 1))) else none
    | .e5m2 => if top then some (if fr = 0 then .inf s else .nan false) else none
    | .e4m3 => if top && fr == 2 ^ fm.f - 1 then some (.nan false) else none
    | .plain => none
  match special with
  | some v => v
  | none =>
    if ex = 0 then (if fr = 0 then .zero s else .fin s fr (1 - fm.bias - fm.f))
    else .fin s (2 ^ fm.f + fr) (ex - fm.bias - fm.f)

/-- The sticky flags that an operation raises, as bits of %fpflags (R68). -/
abbrev FFlags := BitVec 6
def FFlags.nx : FFlags := 1
def FFlags.uf : FFlags := 2
def FFlags.of : FFlags := 4
def FFlags.dz : FFlags := 8
def FFlags.nv : FFlags := 16
def FFlags.trit : FFlags := 32

/-- The rounding modes of R61, .dyn resolved. -/
inductive Rnd where
  | rn | rz | ru | rd | sr
  deriving DecidableEq, Repr

/-- Whether the magnitude q + d, with 0 < d < 1 given as `num / 2^k`, rounds up to q + 1 (R61, R66). -/
def roundsUp (mode : Rnd) (s : Bool) (q num k r : Nat) : Bool :=
  match mode with
  | .rn => 2 * num > 2 ^ k || (2 * num == 2 ^ k && q % 2 == 1)
  | .rz => false
  | .ru => !s
  | .rd => s
  | .sr => num * 2 ^ 24 / 2 ^ k + r ≥ 2 ^ 24

/-- Round m * 2^e to a multiple of 2^u: the multiple and whether it is inexact. -/
def roundAt (mode : Rnd) (s : Bool) (m : Nat) (e u : Int) (r : Nat) : Nat × Bool :=
  if u ≤ e then (m * 2 ^ (e - u).toNat, false)
  else
    let k := (u - e).toNat
    let q := m / 2 ^ k
    let num := m % 2 ^ k
    if num = 0 then (q, false)
    else (if roundsUp mode s q num k r then q + 1 else q, true)

/-- What an overflow delivers, without the sign (R62). -/
def Fmt.overflow (fm : Fmt) (mode : Rnd) (s : Bool) : Nat :=
  if !fm.hasInf then fm.maxFinite
  else match mode with
    | .rn | .sr => fm.infinity
    | .rz => fm.maxFinite
    | .ru => if s then fm.maxFinite else fm.infinity
    | .rd => if s then fm.infinity else fm.maxFinite

/-- round(x, fmt, mode) of R46 (R60 to R66), with the low 24 bits `r` of the draw for .sr: the encoding and the flags. -/
def roundTo (fm : Fmt) (mode : Rnd) (r : Nat) : FVal → Nat × FFlags
  | .nan _ => (fm.nan, if fm.style == .plain then FFlags.nv else 0)
  | .inf s => if fm.hasInf then (fm.signed s fm.infinity, 0) else (fm.signed s fm.maxFinite, FFlags.nv)
  | .zero s => (fm.signed s 0, 0)
  | .fin s m e =>
    let top : Int := e + m.log2
    let emin : Int := 1 - fm.bias
    let u := top - fm.f
    let (q, nx) := roundAt mode s m e u r
    -- the exponent of the rounded magnitude, whose multiple may have carried to 2^(f+1)
    let topR := if q = 2 ^ (fm.f + 1) then top + 1 else top
    if topR < emin then
      let (q, nx) := roundAt mode s m e (emin - fm.f) r
      (fm.signed s q, if nx then FFlags.uf ||| FFlags.nx else 0)
    else
      let frac := if q = 2 ^ (fm.f + 1) then 0 else q - 2 ^ fm.f
      let enc := (topR + fm.bias).toNat * 2 ^ fm.f + frac
      if enc > fm.maxFinite then (fm.signed s (fm.overflow mode s), FFlags.of ||| FFlags.nx)
      else (fm.signed s enc, if nx then FFlags.nx else 0)

def FVal.isNan : FVal → Bool
  | .nan _ => true
  | _ => false
def FVal.isSig : FVal → Bool
  | .nan true => true
  | _ => false
def FVal.neg : FVal → FVal
  | .nan b => .nan b
  | .inf s => .inf (!s)
  | .zero s => .zero (!s)
  | .fin s m e => .fin (!s) m e
def FVal.abs : FVal → FVal
  | .nan b => .nan b
  | .inf _ => .inf false
  | .zero _ => .zero false
  | .fin _ m e => .fin false m e
def FVal.sign : FVal → Bool
  | .nan _ => false
  | .inf s | .zero s | .fin s _ _ => s

/-- The value n * 2^e of an integer; zero is +0. -/
def FVal.ofInt (n : Int) (e : Int := 0) : FVal := if n = 0 then .zero false else .fin (n < 0) n.natAbs e

/-- m as a signed integer at exponent u, for u ≤ e. -/
def FVal.scaled (s : Bool) (m : Nat) (e u : Int) : Int :=
  let v : Int := (m * 2 ^ (e - u).toNat : Nat)
  if s then -v else v

/-- The exact sum (R60, R64): the value and whether it is infinity minus infinity. A zero sum of opposite signs is +0
except under .rd. -/
def FVal.add (mode : Rnd) : FVal → FVal → FVal × Bool
  | .nan a, _ => (.nan a, false)
  | _, .nan b => (.nan b, false)
  | .inf s, .inf t => if s = t then (.inf s, false) else (.nan false, true)
  | .inf s, _ => (.inf s, false)
  | _, .inf t => (.inf t, false)
  | .zero s, .zero t => (.zero (if s = t then s else mode == .rd), false)
  | .zero _, y => (y, false)
  | x, .zero _ => (x, false)
  | .fin s m e, .fin t n g =>
    let u := min e g
    let v := scaled s m e u + scaled t n g u
    (if v = 0 then .zero (mode == .rd) else .fin (v < 0) v.natAbs u, false)

/-- The exact product (R64): the value and whether it is zero times infinity. -/
def FVal.mul : FVal → FVal → FVal × Bool
  | .inf _, .zero _ => (.nan false, true)
  | .zero _, .inf _ => (.nan false, true)
  | .nan a, _ => (.nan a, false)
  | _, .nan b => (.nan b, false)
  | .inf s, y => (.inf (s != y.sign), false)
  | x, .inf t => (.inf (x.sign != t), false)
  | .zero s, y => (.zero (s != y.sign), false)
  | x, .zero t => (.zero (x.sign != t), false)
  | .fin s m e, .fin t n g => (.fin (s != t) (m * n) (e + g), false)

/-- NV when `c`. -/
def nvIf (c : Bool) : FFlags := if c then FFlags.nv else 0

/-- x + y rounded once (R60, R64). -/
def fAdd (fm : Fmt) (mode : Rnd) (r : Nat) (x y : FVal) : Nat × FFlags :=
  let (v, bad) := x.add mode y
  let (b, fl) := roundTo fm mode r v
  (b, fl ||| nvIf (bad || x.isSig || y.isSig))

/-- x * y rounded once. -/
def fMul (fm : Fmt) (mode : Rnd) (r : Nat) (x y : FVal) : Nat × FFlags :=
  let (v, bad) := x.mul y
  let (b, fl) := roundTo fm mode r v
  (b, fl ||| nvIf (bad || x.isSig || y.isSig))

/-- x * y + z with one rounding; zero times infinity is invalid whatever the addend (R64). -/
def fFma (fm : Fmt) (mode : Rnd) (r : Nat) (x y z : FVal) : Nat × FFlags :=
  let (p, badM) := x.mul y
  let (v, badA) := if badM then (FVal.nan false, false) else p.add mode z
  let (b, fl) := roundTo fm mode r v
  (b, fl ||| nvIf (badM || badA || x.isSig || y.isSig || z.isSig))

/-- The order of two values that are no NaN; both zeros are equal. -/
def FVal.lt : FVal → FVal → Bool
  | .nan _, _ => false
  | _, .nan _ => false
  | .inf s, .inf t => s && !t
  | .inf s, _ => s
  | _, .inf t => !t
  | .zero _, .zero _ => false
  | .zero _, .fin t _ _ => !t
  | .fin s _ _, .zero _ => s
  | .fin s m e, .fin t n g => let u := min e g; scaled s m e u < scaled t n g u

def FVal.eqv (x y : FVal) : Bool := !x.isNan && !y.isNan && !x.lt y && !y.lt x
def FVal.le (x y : FVal) : Bool := x.lt y || x.eqv y

/-- The integer nearest to x under `mode` (R65): the integer and whether it is inexact; infinities are far out of any
range. -/
def FVal.toInt (mode : Rnd) (r : Nat) : FVal → Int × Bool
  | .nan _ => (0, false)
  | .inf s => (if s then -(2 ^ 200) else 2 ^ 200, false)
  | .zero _ => (0, false)
  | .fin s m e =>
    let (q, nx) := roundAt mode s m e 0 r
    (if s then -(q : Int) else q, nx)

/-- Conversion to an integer format with bounds lo and hi (R65). -/
def toIntFmt (lo hi : Int) (mode : Rnd) (r : Nat) (x : FVal) : Int × FFlags :=
  if x.isNan then (0, FFlags.nv)
  else
    let (v, nx) := x.toInt mode r
    if v > hi then (hi, FFlags.nv)
    else if v < lo then (lo, FFlags.nv)
    else (v, if nx then FFlags.nx else 0)

/-- An encoding as a word. -/
def enc32 (n : Nat) : W32 := BitVec.ofNat 32 n

/-- The counter in which an element of format `fm` with encoding `x` is filed, for a bin base (R76). -/
def histBin (fm : Fmt) (base : Int) (x : Nat) : Nat :=
  match fm.decode x with
  | .nan _ | .inf _ => 66
  | .zero _ => 64
  | .fin _ m e =>
    let ex := e + m.log2
    if ex < 1 - fm.bias then 65
    else (max 0 (min 63 (ex - base))).toNat

end Sys2Proof.Machine
end

