-- ==== Sys2Proof/Machine/Flags.lean ====
section
/-! DEFINITION. The bits of a thread's control registers: the sticky flags, the rounding mode, %dbgctl, %mode, %bpend and
the loop registers. -/

namespace Sys2Proof.Machine
open Sys2Proof

/-- Bit `n` of `x` set to `b`. -/
def setBit {w : Nat} (x : BitVec w) (n : Nat) (b : Bool) : BitVec w :=
  if b then x ||| BitVec.ofNat w (2 ^ n) else x &&& ~~~BitVec.ofNat w (2 ^ n)

/-! ### %mode (R22, R355) and %dbgctl (R21, R383) -/

def Thread.modeS (t : Thread) : Bool := t.mode.getLsbD 0
def Thread.modePS (t : Thread) : Bool := t.mode.getLsbD 1
def Thread.modeUH (t : Thread) : Bool := t.mode.getLsbD 2
def Thread.modePE (t : Thread) : Bool := t.mode.getLsbD 3
def Thread.withMode (t : Thread) (n : Nat) (b : Bool) : Thread := { t with mode := setBit t.mode n b }

def Thread.uninit (t : Thread) : Bool := t.ctl.dbgctl.getLsbD 0
def Thread.wpen (t : Thread) : Bool := t.ctl.dbgctl.getLsbD 2
def Thread.wskip (t : Thread) : Bool := t.ctl.dbgctl.getLsbD 3
/-- A read of never-written data sets UNSEEN (R16). -/
def Thread.setUnseen (t : Thread) : Thread := { t with ctl := { t.ctl with dbgctl := setBit t.ctl.dbgctl 1 true } }
/-- An instruction completes at which its thread has parked: what it owes UNSEEN is paid (R16, R27). -/
def Thread.payOwed (t : Thread) : Thread := if t.owed then { t.setUnseen with owed := false } else t
/-- WSKIP is cleared when the next instruction completes or traps (R383), and what its walks found is used up (R364). -/
def Thread.clearWskip (t : Thread) : Thread := { t with ctl := { t.ctl with dbgctl := setBit t.ctl.dbgctl 3 false }, walked := [] }

/-! ### %fpflags (R68, R69) and %rmode -/

/-- Set sticky flags. -/
def Thread.flag (t : Thread) (f : FFlags) : Thread :=
  { t with ctl := { t.ctl with fpflags := t.ctl.fpflags ||| f.setWidth 32 } }

/-- The rounding mode that the number 0 to 4 names (R41). -/
def Rnd.code : Nat → Rnd
  | 0 => .rn | 1 => .rz | 2 => .ru | 3 => .rd | _ => .sr

/-- mode() of R46: the m field, with .dyn replaced by %rmode[2:0]. -/
def Thread.rnd (t : Thread) (m : BitVec 3) : Rnd :=
  if m = 5#3 then Rnd.code (bitsOf t.ctl.rmode 2 0) else Rnd.code m.toNat

/-! ### Barrier pending bits (R170, R354) -/

def Thread.bpendAt (t : Thread) (l : Nat) : Bool := t.bpend.getLsbD l
def Thread.setBpend (t : Thread) (l : Nat) (b : Bool) : Thread := { t with bpend := setBit t.bpend l b }
def Thread.bRW (t : Thread) : Bool := t.bpend.getLsbD 8
def Thread.bRWLvl (t : Thread) : Nat := bitsOf t.bpend 7 5
def Thread.setRW (t : Thread) (l : Nat) : Thread :=
  { t with bpend := setBit (t.bpend &&& ~~~0xE0#32 ||| BitVec.ofNat 32 (l * 32)) 8 true }
def Thread.clearRW (t : Thread) : Thread := { t with bpend := setBit t.bpend 8 false }

/-! ### Loop levels (R97) -/

def LoopLevel.act (l : LoopLevel) : Bool := l.lb.getLsbD 0
/-- sext(START << 2, 49). -/
def LoopLevel.start (l : LoopLevel) : W64 := (l.lb.extractLsb' 2 47 ++ 0#2).signExtend 64
def LoopLevel.len (l : LoopLevel) : Nat := bitsOf l.lb 63 56
/-- The address of the body's last word. -/
def LoopLevel.stop (l : LoopLevel) : W64 := l.start + BitVec.ofNat 64 (4 * l.len)
def LoopLevel.body (start : W64) (len : BitVec 8) : W64 :=
  len ++ 0#7 ++ start.extractLsb' 2 47 ++ 1#2

def Thread.level (t : Thread) : Nat → LoopLevel
  | 0 => t.l0 | 1 => t.l1 | _ => t.l2
def Thread.setLevel (t : Thread) (n : Nat) (l : LoopLevel) : Thread :=
  match n with
  | 0 => { t with l0 := l } | 1 => { t with l1 := l } | _ => { t with l2 := l }
/-- The number of active levels (R97). -/
def Thread.loopDepth (t : Thread) : Nat :=
  (if t.l0.act then 1 else 0) + (if t.l1.act then 1 else 0) + (if t.l2.act then 1 else 0)

/-- The loop-end event of level `n` (R99), for an instruction that completes at the body end without a transfer. `n + 1`
levels are active. -/
def Thread.loopEnd (n : Nat) (t : Thread) : Thread :=
  let l := t.level n
  if l.lc.toNat ≤ 1 then
    let t := { t.setLevel n { lc := 0#32, lb := setBit l.lb 0 false, copy := [] } with pc := l.stop + 4#64 }
    match n with
    | 0 => t
    | m + 1 => if (t.level m).stop = l.stop then Thread.loopEnd m t else t
  else { t.setLevel n { l with lc := l.lc - 1#32 } with pc := l.start }

/-- Completion without a transfer of control: the PC moves past the instruction, the loop-end event follows when its last
word stands at the innermost body end (R26, R99), and WSKIP clears (R383). -/
def Thread.complete (t : Thread) (len : W64) : Thread :=
  let last := t.pc + len - 4#64
  let d := t.loopDepth
  let t' := { t.clearWskip with pc := t.pc + len }
  if d > 0 && (t.level (d - 1)).stop == last then t'.loopEnd (d - 1) else t'

/-- Completion with a transfer of control: no loop-end event takes place (R99). -/
def Thread.jumpTo (t : Thread) (target : W64) : Thread := { t.clearWskip with pc := target }

/-- Canonical (R23). -/
def canonical (a : W64) : Bool := (a.extractLsb' 49 15) == (if a.getLsbD 48 then BitVec.allOnes 15 else 0#15)

end Sys2Proof.Machine
end

