-- ==== Sys2Proof/Machine/Operands.lean ====
section
/-! DEFINITION. Register fields, the checks that an instruction's operands meet before it does anything (R10, R11, R14 to
R16, R33, R43), and how one lane reads and writes registers. -/

namespace Sys2Proof.Machine
open Sys2Proof

/-- What an instruction of one lane reads and writes: its thread and its crew's uniform registers. -/
structure View where
  th : Thread
  k  : List Reg
  deriving DecidableEq, Repr

/-- Trap causes (R28). -/
def Cause.illegal : Nat := 1
def Cause.emptyread : Nat := 2
def Cause.uninit : Nat := 3
def Cause.misalign : Nat := 4
def Cause.pagefault : Nat := 5
def Cause.prot : Nat := 6
def Cause.watch : Nat := 7
def Cause.bkpt : Nat := 8
def Cause.mcheck : Nat := 9
def Cause.engine : Nat := 10
def Cause.preempt : Nat := 11
def Cause.trapi : Nat := 12

/-- A check that a lane fails: its place in the order of R419 and R43, the cause, the sub-cause and %taddr, and the mark
that the trap clears (R301, R369); `report` says that it reports a refused remote store (R396). Where the spec gives %taddr no value, `addr` is none and the trap writes a free value. -/
structure Trap where
  stage : Nat
  cause : Nat
  sub   : Nat
  addr  : Option W64
  mark  : Mark := .clean
  report : Bool := false
  deriving DecidableEq, Repr

/-- A failed check that clears no mark. -/
def trapAt (stage cause sub : Nat) (addr : W64) : Trap := { stage, cause, sub, addr := some addr }
/-- The same for a trap whose %taddr the spec leaves open. (DEDUCED, log entry 69.) -/
def trapOpen (stage cause sub : Nat) : Trap := { stage, cause, sub, addr := none }

/-- Places in the order of checks: register fields, special registers and modes, kind of thread; the three source-read
checks; then a card's own checks from `stageCard` up. -/
def stageField : Nat := 5
def stageMode : Nat := 6
def stageKind : Nat := 7
def stageEmpty : Nat := 10
def stageUninit : Nat := 11
def stageMark : Nat := 12
def stageCard : Nat := 20

/-- What becomes of one lane at an instruction: it executes, parks, or traps. -/
inductive Verdict where
  | ok | wait (w : Wait) | trap (t : Trap)
  deriving DecidableEq, Repr

/-! ### Registers -/

def Reg.of (v : W32) : Reg := { val := v, full := true, valid := true }
/-- z reads 0, always full and valid (R10). -/
def Reg.z : Reg := Reg.of 0#32

/-- What word `i` of the operand in field `f` reaches (R10, R31). -/
def Thread.ref (t : Thread) (f : Fld) (i : Nat) : Dst :=
  if f = Fld.z then .drop
  else if f.toNat < 112 then .phys (t.win + f.toNat + i)
  else .uni (f.toNat - 112 + i)

def View.get (v : View) : Dst → Reg
  | .phys n => v.th.regs.getD n Reg.z
  | .uni n => v.k.getD n Reg.z
  | .drop => Reg.z

def View.put (v : View) (d : Dst) (r : Reg) : View :=
  match d with
  | .phys n => { v with th := { v.th with regs := v.th.regs.set n r } }
  | .uni n => { v with k := v.k.set n r }
  | .drop => v

def View.word (v : View) (f : Fld) (i : Nat) : W32 := (v.get (v.th.ref f i)).val
/-- rd32 of R46. -/
def View.rd32 (v : View) (f : Fld) : W32 := v.word f 0
/-- rd64 of R46. -/
def View.rd64 (v : View) (f : Fld) : W64 := pair64 (v.word f 0) (v.word f 1)
/-- rd128 of R46. -/
def View.rd128 (v : View) (f : Fld) : BitVec 128 := v.word f 3 ++ v.word f 2 ++ v.word f 1 ++ v.word f 0
/-- The words of a register group of `n`. -/
def View.words (v : View) (f : Fld) (n : Nat) : List W32 := (List.range n).map (v.word f)

/-- Write words to consecutive destinations, full and valid (R13). -/
def View.putAll (v : View) : List Dst → List W32 → View
  | d :: ds, x :: xs => (v.put d (Reg.of x)).putAll ds xs
  | _, _ => v

/-- The destinations of a group of `n` words in field `f`. -/
def Thread.refs (t : Thread) (f : Fld) (n : Nat) : List Dst := (List.range n).map (t.ref f)

/-- wr32 of R46. -/
def View.wr32 (v : View) (f : Fld) (x : W32) : View := v.put (v.th.ref f 0) (Reg.of x)
/-- wr64 of R46. -/
def View.wr64 (v : View) (f : Fld) (x : W64) : View :=
  (v.put (v.th.ref f 0) (Reg.of (lo32 x))).put (v.th.ref f 1) (Reg.of (hi32 x))

/-- Mark destinations empty (R13): values and valid bits stay. -/
def View.markEmpty (v : View) (ds : List Dst) : View :=
  ds.foldl (fun v d => v.put d { v.get d with full := false }) v

/-- A result that lands later: its destinations are empty from now on (R13). -/
def View.produce (v : View) (kind : PendKind) (ds : List Dst) (vals : Option (List W32)) (flags : FFlags)
    (tables : List Nat := []) : View :=
  let v' := v.markEmpty ds
  let p : Pending := { id := v.th.serial, kind, dst := ds, vals, flags := flags.setWidth 32, mark := .clean, tables }
  { v' with th := { v'.th with pending := v'.th.pending ++ [p], serial := v'.th.serial + 1 } }

/-! ### Operand checks -/

/-- A source operand: its field, its words, the alignment of its field, and its empty-read bit. -/
structure Src where
  f    : Fld
  w    : Nat
  al   : Nat
  bang : Bool
  deriving DecidableEq, Repr

/-- A 32-bit source. -/
def Src.r (f : Fld) (bang : Bool) : Src := ⟨f, 1, 1, bang⟩
/-- A 64-bit source: an even pair (R11). -/
def Src.p (f : Fld) (bang : Bool) : Src := ⟨f, 2, 2, bang⟩
/-- A group of four (R33). -/
def Src.q (f : Fld) (bang : Bool) : Src := ⟨f, 4, 4, bang⟩
/-- A base register (R232): an even pair, or one register when the field is odd or 126. -/
def Src.base (f : Fld) (bang : Bool) : Src :=
  if f.toNat % 2 = 1 || f = 126#7 then Src.r f bang else Src.p f bang

/-- The value of a base register (R232). -/
def View.baseVal (v : View) (f : Fld) : W64 :=
  if f = Fld.z then 0#64
  else if f.toNat % 2 = 1 || f = 126#7 then (v.rd32 f).setWidth 64 else v.rd64 f

/-- A destination: its field and its words, which are also its alignment. -/
structure DstOp where
  f : Fld
  w : Nat
  deriving DecidableEq, Repr

/-- An instruction's operands: sources, destinations, whether only lane threads or only the front end may execute it
(sub-cause 7), and whether it needs system mode (R356). -/
structure Opnds where
  srcs : List Src := []
  dsts : List DstOp := []
  laneOnly : Bool := false
  sfeOnly : Bool := false
  priv : Bool := false
  deriving DecidableEq, Repr

/-- Whether a register field passes R10, R11 and R33. The b field of STQTRY may name a uniform register in the front end, as any destination
may (R31): R157 says that one there traps under R10, which is about lane threads. (DESIGN CHOICE, log entry 121.) -/
def Thread.fieldOk (t : Thread) (f : Fld) (w al : Nat) (dst : Bool) : Bool :=
  f == Fld.z ||
  (if f.toNat < 112 then f.toNat % al == 0 && decide (t.win + f.toNat + w ≤ t.allot)
   else f.toNat % al == 0 && decide (f.toNat - 112 + w ≤ 15) && (!dst || t.sfe))

/-- The checks of R43 that depend on the lane: sub-causes 5, 6 and 7. -/
def Opnds.decodeTrap (c : Opnds) (t : Thread) : Option Trap :=
  if !(c.srcs.all fun x => t.fieldOk x.f x.w x.al false) || !(c.dsts.all fun x => t.fieldOk x.f x.w x.w true) then
    some (trapOpen stageField Cause.illegal 5)
  else if c.priv && !t.modeS then some (trapAt stageMode Cause.prot 3 0#64)
  else if (c.laneOnly && t.sfe) || (c.sfeOnly && !t.sfe) then some (trapOpen stageKind Cause.illegal 7)
  else none

/-- The registers of a source. -/
def View.srcRegs (v : View) (x : Src) : List Reg := (v.th.refs x.f x.w).map v.get

/-- The least field value of the sources that satisfy `p`. -/
def leastField (l : List Src) (p : Src → Bool) : Option Fld :=
  l.foldl (fun b x => if p x then (match b with | none => some x.f | some y => some (if x.f.toNat < y.toNat then x.f else y))
    else b) none

/-- The first empty word among destinations, as something to wait for. -/
def View.waitFor (v : View) (l : List Dst) : Option Wait :=
  match l with
  | [] => none
  | d :: r => if (v.get d).full then v.waitFor r else some (.reg d)

/-- A destination that is empty because a producer of the thread has not landed (R15). A register that is empty for
another reason, a cancelled LDF (R353) or LOADFE (R358), waits for its producer and does not hold it back. -/
def View.waitForDst (v : View) (l : List Dst) : Option Wait :=
  v.waitFor (l.filter fun d => v.th.pending.any fun p => p.dst.contains d)

/-- The trap that reading a marked register raises (R301, R369). -/
def Mark.trap (m : Mark) (f : Fld) : Option Trap :=
  match m with
  | .clean => none
  | .status2 c => some { trapAt stageMark Cause.mcheck 2 (f.setWidth 64) with mark := .status2 c }
  | .load a => some (trapAt stageMark Cause.mcheck 1 a)
  | .storage => some (trapAt stageMark Cause.mcheck 4 (f.setWidth 64))
  | .carafe e h mc =>
    -- %ktaddr names the register field (R369), %taddr the handle (R301)
    some { stage := stageMark, cause := if mc then Cause.mcheck else Cause.engine, sub := if mc then 5 else 6,
           addr := some (if mc then f.setWidth 64 else BitVec.ofNat 64 h), mark := .carafe e h mc }

/-- Whether a source reads a lane register that was never written (R16); uniform registers and z are exempt. -/
def View.unwritten (v : View) (x : Src) : Bool :=
  x.f.toNat < 112 && (v.srcRegs x).any fun r => !r.valid

/-- The source reads of an instruction (R14 to R16, R27): EMPTYREAD, then the wait on empty sources and destinations, then
UNINIT and the marks. For UNINIT the spec does not say which of several fields %taddr names: it is the lowest, as R14 has it for
EMPTYREAD. (DESIGN CHOICE, log entry 82.) The test of the bits is made again when a lane that waited reads its sources: a uniform
register that the front end has marked empty meanwhile traps then. (DESIGN CHOICE, log entry 117.) -/
def Opnds.readVerdict (c : Opnds) (v : View) : Verdict :=
  match leastField c.srcs (fun x => x.bang && (v.srcRegs x).any fun r => !r.full) with
  | some f => .trap (trapAt stageEmpty Cause.emptyread 0 (f.setWidth 64))
  | none =>
    match v.waitFor (c.srcs.flatMap fun x => v.th.refs x.f x.w) with
    | some w => .wait w
    | none =>
      match v.waitForDst (c.dsts.flatMap fun x => v.th.refs x.f x.w) with
      | some w => .wait w
      | none =>
        match (if v.th.uninit then leastField c.srcs v.unwritten else none) with
        | some f => .trap (trapAt stageUninit Cause.uninit 0 (f.setWidth 64))
        | none =>
          match c.srcs.findSome? (fun x => (v.srcRegs x).findSome? fun r => r.mark.trap x.f) with
          | some t => .trap t
          | none => .ok

/-- The verdict of an instruction's operands. -/
def Opnds.verdict (c : Opnds) (v : View) : Verdict :=
  match c.decodeTrap v.th with
  | some t => .trap t
  | none => c.readVerdict v

/-- Reading a word that was never written sets UNSEEN while UNINIT is 0 (R16). -/
def Opnds.noteUnseen (c : Opnds) (v : View) : View :=
  if c.srcs.any v.unwritten then { v with th := v.th.setUnseen } else v

/-- One verdict after another: the second counts when the first lets the lane execute. -/
def Verdict.andThen (a : Verdict) (b : Verdict) : Verdict :=
  match a with
  | .ok => b
  | x => x

end Sys2Proof.Machine
end

