-- ==== Sys2Proof/Machine/Units.lean ====
section
/-! DEFINITION. Reaching the units of the device: cores, cells, slices, tenancies, tasks, crews and the threads of the run
that an instruction executes for. A unit that is not listed stands as it is after reset. -/

namespace Sys2Proof.Machine
open Sys2Proof

/-! ### Units by number -/

def State.coreAt (s : State) (i : Nat) : Core := (s.cores.find? fun c => c.id == i).getD { Core.fresh i with pts := s.ptsLow }
def State.putCore (s : State) (c : Core) : State := { s with cores := putBy Core.id c s.cores }
def State.onCore (s : State) (i : Nat) (f : Core → Core) : State := s.putCore { f (s.coreAt i) with id := i }

def State.cellAt (s : State) (i : Nat) : Cell := (s.cells.find? fun c => c.id == i).getD (Cell.fresh i)
def State.onCell (s : State) (i : Nat) (f : Cell → Cell) : State :=
  { s with cells := putBy Cell.id { f (s.cellAt i) with id := i } s.cells }

def State.sliceAt (s : State) (i : Nat) : Slice := (s.slices.find? fun c => c.id == i).getD (Slice.fresh i)
def State.onSlice (s : State) (i : Nat) (f : Slice → Slice) : State :=
  { s with slices := putBy Slice.id { f (s.sliceAt i) with id := i } s.slices }

def State.dieAt (s : State) (i : Nat) : Die := (s.dies.find? fun c => c.id == i).getD (Die.fresh i)
def State.onDie (s : State) (i : Nat) (f : Die → Die) : State :=
  { s with dies := putBy Die.id { f (s.dieAt i) with id := i } s.dies }

def State.tenAt (s : State) (i : Nat) : Tenancy := (s.tens.find? fun c => c.id == i).getD (Tenancy.fresh i)
def State.onTen (s : State) (i : Nat) (f : Tenancy → Tenancy) : State :=
  { s with tens := putBy Tenancy.id { f (s.tenAt i) with id := i } s.tens }

/-- The task `id` of tenancy `ten`, if it has not ended (R183). -/
def State.task? (s : State) (ten id : Nat) : Option Task := s.tasks.find? fun t => t.ten == ten && t.id == id
def State.onTask (s : State) (ten id : Nat) (f : Task → Task) : State :=
  { s with tasks := s.tasks.map fun t => if t.ten = ten ∧ t.id = id then f t else t }

/-! ### The shape of the device (R2, R7) -/

def cellOf (core : Nat) : Nat := core / 2
def stackOfCore (core : Nat) : Nat := core / 40
def stackOfCell (cell : Nat) : Nat := cell / 20
def dieOfCore (core : Nat) : Nat := core / 160

/-- The tenancy that owns a stack domain (R7). (DESIGN CHOICE, log entry 4.) -/
def State.tenOfStack (s : State) (d : Nat) : Option Nat := (s.tens.find? fun t => t.doms.contains d).map (·.id)
/-- %celsz of a cell (R197, R413). -/
def State.celsz (s : State) (cell : Nat) : Nat :=
  match s.tenOfStack (stackOfCell cell) with
  | none => 0
  | some t => (s.tenAt t).celk * 262144

/-! ### Crews and threads -/

def Core.onCrew (c : Core) (f : Crew → Crew) : Core := { c with crew := c.crew.map f }

/-- The tenancy of a core's crew. -/
def Core.ten (c : Core) : Nat := (c.crew.map (·.ten)).getD 0

/-- Apply `f` to the lane threads and the front end that `p` selects. Only the front end's effect on the uniform registers
is kept: a lane thread cannot write one (R10). -/
def Crew.onThreads (c : Crew) (p : Thread → Bool) (f : View → View) : Crew :=
  let lanes := c.threads.map fun t => if p t then (f ⟨t, c.k⟩).th else t
  if p c.sfe then
    let v := f ⟨c.sfe, c.k⟩
    { c with threads := lanes, sfe := v.th, k := v.k }
  else { c with threads := lanes }

/-- Every thread of a crew, the front end last. -/
def Crew.all (c : Crew) : List Thread := c.threads ++ [c.sfe]
def Crew.byTid (c : Crew) (tid : W32) : Option Thread := c.all.find? fun t => t.ident.tid == tid

def Thread.runnable (t : Thread) : Bool := t.status == .runnable
def Thread.live (t : Thread) : Bool :=
  match t.status with
  | .runnable | .parked _ | .held _ => true
  | .exited | .halted => false
/-- Whether a thread has not exited: a halted thread is still a thread of its crew (R360, R373). -/
def Thread.stays (t : Thread) : Bool := t.status != .exited

/-- Whether a thread belongs to a gang slot, or is the front end when `sfe`. -/
def Thread.inGang (t : Thread) (sfe : Bool) (sect slot : Nat) : Bool :=
  if sfe then t.sfe else !t.sfe && t.place.sect == sect && t.place.slot == slot

/-- Whether a thread is in the run that is being issued. -/
def Issue.has (i : Issue) (t : Thread) : Bool :=
  t.inGang i.sfe i.sect i.slot && (i.sfe || i.mask.getLsbD t.place.lane) && t.runnable

/-- The crew of the core that issues. -/
def State.crew? (s : State) : Option Crew := (s.coreAt s.issue.core).crew
/-- The threads of the issuing run, in ascending lane order, each with the uniform registers. -/
def State.run (s : State) : List View :=
  match s.crew? with
  | none => []
  | some c => (c.all.filter s.issue.has).map fun t => ⟨t, c.k⟩

/-- Apply `f` to the threads of core `core` with the given %tids. -/
def State.onTids (s : State) (core : Nat) (tids : List W32) (f : View → View) : State :=
  s.onCore core fun c => c.onCrew fun k => k.onThreads (fun t => tids.contains t.ident.tid) f

/-- Apply `f` to one thread. -/
def State.onThread (s : State) (core : Nat) (tid : W32) (f : View → View) : State := s.onTids core [tid] f

def State.view? (s : State) (core : Nat) (tid : W32) : Option View :=
  match (s.coreAt core).crew with
  | none => none
  | some c => (c.byTid tid).map fun t => ⟨t, c.k⟩

def View.onTh (v : View) (f : Thread → Thread) : View := { v with th := f v.th }

/-- The bit of a thread in %tmask: its lane; the front end has none (R28). -/
def Thread.laneBit (t : Thread) : W32 := if t.sfe then 0#32 else BitVec.ofNat 32 (2 ^ t.place.lane)
def maskOf (l : List Thread) : W32 := l.foldl (fun m t => m ||| t.laneBit) 0#32

/-! ### Time

The model counts time in units of which a control cycle of 1.8 GHz has `unitsPerControl`, so that an issue cycle at each
step of the governor (R144) is a whole number of units. -/

def unitsPerControl : Nat := 1666086800
/-- The units of one issue cycle at governor step g: 300 / (100 + 3g) control cycles (R144). -/
def issueUnits (g : Nat) : Nat := 300 * unitsPerControl / (100 + 3 * g)
/-- The current control cycle. -/
def State.control (s : State) : Nat := s.now / unitsPerControl
/-- %clk of a core (R17, R20). -/
def Core.clock (c : Core) : W64 := BitVec.ofNat 64 (c.clk / unitsPerControl)
/-- The count of the 100 MHz always-on reference (R388). -/
def State.sumpTime (s : State) : Nat := s.aon.time + s.control / 18

/-! ### The Sump (R388) -/

/-- Record an event; when 2,048 records are held the oldest is overwritten. -/
def AlwaysOn.record (a : AlwaysOn) (r : SumpRec) : AlwaysOn :=
  { a with sump := (if a.sump.length < 2048 then a.sump else a.sump.drop (a.sump.length - 2047)) ++ [r],
           sumpSeq := a.sumpSeq + 1 }
def State.sump (s : State) (kind die ten unit sub : Nat) (a b : W64) : State :=
  { s with aon := s.aon.record { time := s.sumpTime, kind, die, ten, unit, sub, a, b } }

end Sys2Proof.Machine
end

