-- ==== Sys2Proof/Machine/Mem.lean ====
section
/-! DEFINITION. Memory: the bytes of every storage, future words, replay terms, timestamps, translation, and the checks that
an access meets (R23 to R25, R196 to R211, R219 to R224, R234, R240, R361 to R364). -/

namespace Sys2Proof.Machine
open Sys2Proof

/-! ### Flat memory: strictly rising addresses, no byte equal to 0, which is what an unlisted address reads as -/

def memGet : List Host.Cell → Nat → Byte
  | [], _ => 0#8
  | (a, b) :: r, x => if a = x then b else memGet r x

def memSet : List Host.Cell → Nat → Byte → List Host.Cell
  | [], x, b => if b = 0#8 then [] else [(x, b)]
  | (a, c) :: r, x, b =>
    if x < a then (if b = 0#8 then (a, c) :: r else (x, b) :: (a, c) :: r)
    else if x = a then (if b = 0#8 then r else (x, b) :: r)
    else (a, c) :: memSet r x b

/-- The canonical form of flat memory. -/
abbrev Memory.wf (l : List Host.Cell) : Prop := l.Pairwise (fun x y => x.1 < y.1) ∧ ∀ x ∈ l, x.2 ≠ 0#8

/-- Where slot `slot` of slice `slice` stands in flat memory: above HBM4E, which is 2^39 bytes (R206, R362). -/
def pinSliceBase (slice slot : Nat) : Nat := 2 ^ 41 + (slice * 32 + slot) * 65536

/-! ### Bytes -/

def leNat : List Byte → Nat
  | [] => 0
  | b :: r => b.toNat + 256 * leNat r
def bytesOf (n : Nat) (v : Nat) : List Byte := (List.range n).map fun i => BitVec.ofNat 8 (v >>> (8 * i))

def Loc.plus (l : Loc) (i : Nat) : Loc :=
  match l with
  | .mem a => .mem (a + i)
  | .pad c o => .pad c (o + i)
  | .cel c o => .cel c (o + i)
  | .state c s o => .state c s (o + i)
  | .remote d a => .remote d (a + BitVec.ofNat 64 i)

/-- The offset of `m` above `l`, when both lie in one storage. -/
def Loc.diff (l m : Loc) : Option Int :=
  match l, m with
  | .mem a, .mem b => some ((b : Int) - a)
  | .pad c a, .pad d b => if c = d then some ((b : Int) - a) else none
  | .cel c a, .cel d b => if c = d then some ((b : Int) - a) else none
  | .state c s a, .state d t b => if c = d ∧ s = t then some ((b : Int) - a) else none
  | .remote c a, .remote d b => if c = d then some ((b.toNat : Int) - a.toNat) else none
  | _, _ => none

/-- Whether n bytes at `l` and k bytes at `m` overlap. -/
def Loc.meets (l : Loc) (n : Nat) (m : Loc) (k : Nat) : Bool :=
  match l.diff m with
  | none => false
  | some d => decide (d < n ∧ -d < k)

/-- A scratchpad word (R200): one that is not listed was never written since crew start, and its value is undefined (R184),
or is a word of a mapped PIN-CORE page, which reads as 0 with V = 1 (R198, R200, R362). (DESIGN CHOICE, log entry 2.) -/
def Core.padWord (c : Core) (i : Nat) : PadWord :=
  match c.pad.find? fun w => w.idx == i with
  | some w => w
  | none =>
    if c.pinned.contains ((262143 - i) / 16384) then { idx := i, val := 0#32, valid := true }
    else { idx := i, val := Config.freeWord [1, c.id, c.epoch, i], valid := false }

def Core.padByte (c : Core) (o : Nat) : Byte := (c.padWord (o / 4)).val.extractLsb' (8 * (o % 4)) 8

/-- A write sets V (R200). -/
def Core.setPadByte (c : Core) (o : Nat) (b : Byte) : Core :=
  let w := c.padWord (o / 4)
  let k := 8 * (o % 4)
  let v := (w.val &&& ~~~(0xFF#32 <<< k)) ||| (b.setWidth 32 <<< k)
  { c with pad := putBy (·.idx) { idx := o / 4, val := v, valid := true } c.pad }

/-- Cell memory: a byte that nothing has written is undefined (R344). (DESIGN CHOICE, log entry 2.) -/
def Cell.byte (c : Cell) (o : Nat) : Byte :=
  match c.bytes.find? fun p => p.1 == o with
  | some p => p.2
  | none => Config.freeByte [2, c.id, c.epoch, o]

def State.rdByte (s : State) : Loc → Byte
  | .mem a => memGet s.mem a
  | .pad c o => (s.coreAt c).padByte o
  | .cel c o => (s.cellAt c).byte o
  | .state c k o =>
    let core := s.coreAt c
    let w := if core.engineBusy then Config.freeWord [3, c, k, o / 4, s.free] else core.imageWord k (o / 4 * 4)
    w.extractLsb' (8 * (o % 4)) 8
  | .remote d a => Config.remoteByte [d, a.toNat, s.free]

def State.wrByte (s : State) (l : Loc) (b : Byte) : State :=
  match l with
  | .mem a => { s with mem := memSet s.mem a b }
  | .pad c o => s.onCore c fun x => x.setPadByte o b
  | .cel c o => s.onCell c fun x => { x with bytes := putBy (·.1) (o, b) x.bytes }
  | .state c k o => s.onCore c fun x =>
      let w := if x.engineBusy then Config.freeWord [4, c, k, o / 4, s.free] else x.imageWord k (o / 4 * 4)
      let sh := 8 * (o % 4)
      x.setImageWord k (o / 4 * 4) ((w &&& ~~~(0xFF#32 <<< sh)) ||| (b.setWidth 32 <<< sh))
  | .remote _ _ => s

/-- The n bytes at a place as a number, least significant first (R25). -/
def State.rd (s : State) (l : Loc) (n : Nat) : Nat := leNat ((List.range n).map fun i => s.rdByte (l.plus i))
/-- Write bytes from a place on. -/
def State.wrBytes (s : State) (l : Loc) : List Byte → State
  | [] => s
  | b :: r => (s.wrByte l b).wrBytes (l.plus 1) r

/-! ### Storage errors (R369) -/

/-- Whether n bytes at a place touch a word with an uncorrectable error. -/
def State.spoiled (s : State) (l : Loc) (n : Nat) : Bool := s.errs.any fun e => e.meets 4 l n
/-- A write of a whole word clears its error. -/
def State.clearErrs (s : State) (l : Loc) (n : Nat) : State :=
  { s with errs := s.errs.filter fun e => match l.diff e with
      | none => true
      | some d => !decide (0 ≤ d ∧ d + 4 ≤ n) }

/-- Write the low n bytes of `v` at a place, least significant first. -/
def State.wr (s : State) (l : Loc) (n v : Nat) : State := (s.wrBytes l (bytesOf n v)).clearErrs l n

/-- Physical memory, as page walks and the command processor read it. -/
def State.phys64 (s : State) (a : Nat) : W64 := BitVec.ofNat 64 (s.rd (.mem a) 8)

/-! ### Homes and timestamps (R202 to R205, R221) -/

/-- The slice that a line of HBM4E is homed at: slice (PA >> 7) mod 20 of the stack domain of its stack (R205, R362). -/
def sliceOfPhys (pa : Nat) : Nat := pa / 2 ^ 36 * 20 + pa / 128 % 20

/-- The slice at which a place is homed; none for scratchpad, images and other devices. -/
def Loc.slice : Loc → Option Nat
  | .mem a => if a < 2 ^ 39 then some (sliceOfPhys a) else some ((a - 2 ^ 41) / (32 * 65536))
  | .cel c _ => some c
  | _ => none

/-- Whether a port has a path to its peer: a fibre of each direction has a wavelength (R397, R399). -/
def Port.usable (p : Port) : Bool := p.up && (p.fibres.take 8).any (fun x => decide (0 < x.active)) && (p.fibres.drop 8).any fun x => decide (0 < x.active)
/-- Whether a device is unreachable: no port has a usable path to it (R399). -/
def State.cutOff (s : State) (rank : Nat) : Bool :=
  s.unreach.contains rank || !(s.ports.any fun p => p.usable && p.peer == some rank)

/-- The flits of a port that its peer has not acknowledged yet, those that wait for a slot among them (R398). -/
def Port.pending (p : Port) : List Flit := p.replay ++ p.out
/-- Whether a data flit whose first address is one of n from `va` on is still to arrive: what it asks for is not done. -/
def State.unsent (s : State) (va : W64) (n : Nat) : Bool :=
  s.ports.any fun p => p.pending.any fun x => x.kind == 1 &&
    decide (va.toNat ≤ leNat (x.payload.take 8) ∧ leNat (x.payload.take 8) < va.toNat + n)
/-- Whether a flit of a reduction is still to arrive. -/
def State.unsentFor (s : State) (res : W64) : Bool := s.ports.any fun p => p.pending.any fun x => x.kind != 5 && x.res == res

/-- A number for the 128-byte line that holds a place. -/
def Loc.line : Loc → Nat
  | .mem a => a / 128
  | .cel c o => 2 ^ 40 + c * 16384 + o / 128
  | .pad c o => 2 ^ 42 + c * 8192 + o / 128
  | .state c k o => 2 ^ 44 + (c * 8 + k) * 512 + o / 128
  | .remote d a => 2 ^ 60 + d * 2 ^ 57 + a.toNat / 128

/-- The first byte of the line that holds a place. -/
def Loc.base (l : Loc) : Loc :=
  match l with
  | .mem a => .mem (a / 128 * 128)
  | .pad c o => .pad c (o / 128 * 128)
  | .cel c o => .cel c (o / 128 * 128)
  | .state c k o => .state c k (o / 128 * 128)
  | .remote d a => .remote d (a &&& ~~~127#64)

/-- The die whose HBM4E a row belongs to, which is free like the lines of the row (R390). -/
def rowDie (row : Nat) : Nat := (Config.freeWord [42, row]).toNat % 2
/-- Whether a line lies in a row under repair: which lines a row of HBM4E holds is free (R390). -/
def State.underRepair (s : State) (l : Loc) : Bool :=
  match l with
  | .mem a => decide (a < 2 ^ 39) && s.rows.any fun r => a / 2 ^ 38 == rowDie r && Config.freeBool [26, r, a / 128]
  | _ => false

/-- Whether a CACHED line's set is fully pinned at its home (R206, R207): eight pinned ways of cell memory, and the eight slots
that cover its set. Which set a line takes is free. (DESIGN CHOICE, log entry 19.) -/
def State.fullyPinned (s : State) (l : Loc) : Bool :=
  match l, l.slice with
  | .mem a, some k =>
    let q := (Config.freeWord [12, a / 128]).toNat % 4
    let celk := match s.tenOfStack (stackOfCell k) with
      | none => 0
      | some t => (s.tenAt t).celk
    decide (a < 2 ^ 39) && decide (celk = 8) && (List.range 8).all fun i => ((s.sliceAt k).pins).contains (4 * i + q)
  | _, _ => false

/-- The timestamps of the line that holds a place. A line that is not listed takes its slice's memory timestamp (R207). -/
def State.stamps (s : State) (l : Loc) : Line :=
  match s.home.find? fun x => x.line == l.line with
  | some x => x
  | none =>
    let t := match l.slice with
      | some k => (s.sliceAt k).memTs
      | none => 0
    { line := l.line, wts := t, rts := t, data := [] }
def State.putStamps (s : State) (l : Line) : State := { s with home := putBy (·.line) l s.home }
def State.raisePts (s : State) (core t : Nat) : State :=
  s.onCore core fun c => { c with pts := max c.pts t }
/-- Every core's timestamp rises to `t` at least. -/
def State.raiseAll (s : State) (t : Nat) : State :=
  { s with cores := s.cores.map fun c => { c with pts := max c.pts t }, ptsLow := max s.ptsLow t }

/-- Whether a place lies on another device, whose order is its own (R226). -/
def Loc.isRemote : Loc → Bool
  | .remote _ _ => true
  | _ => false

/-- A load of a line that is not leased (R221). -/
def State.stampLoad (s : State) (core : Nat) (l : Loc) : State :=
  let x := s.stamps l
  let t := max (s.coreAt core).pts x.wts
  if l.isRemote then s else (s.putStamps { x with rts := max x.rts t }).raisePts core t

/-- One access to several lines of one home (R220): its logical time passes the lease of each line that it writes, and is none before the
version of a line that it reads. -/
def State.stampAll (s : State) (core : Nat) (reads writes : List Loc) : State :=
  let t := writes.foldl (fun m l => max m ((s.stamps l).rts + 1)) (reads.foldl (fun m l => max m (s.stamps l).wts) (s.coreAt core).pts)
  let s := reads.foldl (fun s l => let x := s.stamps l; s.putStamps { x with rts := max x.rts t }) s
  (writes.foldl (fun s l => s.putStamps { s.stamps l with wts := t, rts := t }) s).raisePts core t

/-- A store, a successful atomic or an STF (R203, R221). -/
def State.stampStore (s : State) (core : Nat) (l : Loc) : State :=
  let x := s.stamps l
  let t := max (s.coreAt core).pts (x.rts + 1)
  if l.isRemote then s else (s.putStamps { x with wts := t, rts := t }).raisePts core t

/-- A write for the host or by the device itself, such as the command processor's: it is ordered after the host's earlier ones
(R227). -/
def State.stampDev (s : State) (l : Loc) : State :=
  let x := s.stamps l
  let t := max s.hostTs (x.rts + 1)
  { s.putStamps { x with wts := t, rts := t } with hostTs := t }

/-- The timestamp that the accesses of another device have reached here (R226). -/
def State.farAt (s : State) (dev : Nat) : Nat := ((s.farTs.find? fun x => x.1 == dev).map (·.2)).getD 0
/-- An access of another device at its home here: it takes its place after that device's earlier accesses, which is one of the
orders that R226 allows. (DESIGN CHOICE, log entry 37.) -/
def State.stampFar (s : State) (dev : Nat) (l : Loc) (store : Bool) : State :=
  let x := s.stamps l
  let t := if store then max (s.farAt dev) (x.rts + 1) else max (s.farAt dev) x.wts
  { s.putStamps (if store then { x with wts := t, rts := t } else { x with rts := max x.rts t }) with
    farTs := putBy (·.1) (dev, t) s.farTs }

/-- The die at which a place is homed: that of its slice, or of the core that has it. -/
def Loc.homeDie (l : Loc) (die : Nat) : Nat :=
  match l with
  | .pad c _ | .state c _ _ => dieOfCore c
  | l => ((l.slice).map (· / 80)).getD die

/-- A transfer goes to the bridge (R391). -/
def State.cross (s : State) (load : Load) (die : Nat) : State := { s with bridge := s.bridge ++ [{ load, die, attempts := 0 }] }

/-! ### Atomic operations (R238, R239) -/

/-- The size of an atomic in bytes. -/
def AtomOp.size : AtomOp → Nat
  | .add64 | .cas64 | .xchg64 | .fadd64 => 8
  | _ => 4

/-- The smaller or larger of two FP32 encodings (R109): a NaN loses to a number, two NaNs give the canonical NaN, and -0 is
below +0. -/
def fminmax (fm : Fmt) (big : Bool) (a b : Nat) : Nat :=
  let x := fm.decode a
  let y := fm.decode b
  if x.isNan && y.isNan then fm.nan
  else if x.isNan then b
  else if y.isNan then a
  else
    let less := x.lt y || (x.eqv y && x.sign && !y.sign)
    if less == big then b else a

/-- The new value of an atomic from the memory value x, the operand y and the expected value e; none when a compare fails
(R239). The floating-point forms record no flags. -/
def AtomOp.apply (op : AtomOp) (x y e : Nat) : Option Nat :=
  let si (v : Nat) : Int := (BitVec.ofNat 32 v).toInt
  let fsum (fm : Fmt) (a b : Nat) : Nat := (fAdd fm .rn 0 (fm.decode a) (fm.decode b)).1
  match op with
  | .add => some ((x + y) % 2 ^ 32)
  | .min => some (if si y < si x then y else x)
  | .max => some (if si x < si y then y else x)
  | .and => some (x &&& y)
  | .or => some (x ||| y)
  | .xor => some (x ^^^ y)
  | .xchg | .xchg64 => some y
  | .cas | .cas64 => if x = e then some y else none
  | .add64 => some ((x + y) % 2 ^ 64)
  | .fadd32 => some (fsum .f32 x y)
  | .fadd64 => some (fsum .f64 x y)
  | .bfadd2 => some (fsum .bf16 (x % 65536) (y % 65536) + 65536 * fsum .bf16 (x / 65536) (y / 65536))
  | .fmin32 => some (fminmax .f32 false x y)
  | .fmax32 => some (fminmax .f32 true x y)

/-! ### Future words (R209, R210) -/

/-- The 8-byte word that holds a place. -/
def Loc.word8 : Loc → Loc
  | .mem a => .mem (a / 8 * 8)
  | l => l
def State.futureFull (s : State) (l : Loc) : Bool := s.futures.contains l.word8
def State.setFuture (s : State) (l : Loc) (b : Bool) : State :=
  { s with futures := (s.futures.filter (· != l.word8)) ++ (if b then [l.word8] else []) }
/-- A store or atomic clears the full bit of every future word that it covers. -/
def State.clearFutures (s : State) (l : Loc) (n : Nat) : State :=
  (List.range ((n + 7) / 8)).foldl (fun s i => s.setFuture (l.plus (8 * i)) false) s

/-! ### Page tables (R361 to R363) -/

/-- Where a page is stored (R362). -/
inductive PageHome where
  | cached | uncached | pinSlice | pinCore | state
  deriving DecidableEq, Repr

/-- A page-table entry's fields (R362). -/
structure Pte where
  dev : Nat
  unit : Nat
  slot : Nat
  pa : Nat
  domain : Bool
  future : Bool
  home : Nat
  u : Bool
  x : Bool
  w : Bool
  r : Bool
  leaf : Bool
  v : Bool
  deriving DecidableEq, Repr

def Pte.of (e : W64) : Pte :=
  { dev := bitsOf e 63 57, unit := bitsOf e 56 48, slot := bitsOf e 47 43, pa := bitsOf e 42 16 * 65536,
    domain := e.getLsbD 10, future := e.getLsbD 9, home := bitsOf e 8 6, u := e.getLsbD 5, x := e.getLsbD 4,
    w := e.getLsbD 3, r := e.getLsbD 2, leaf := e.getLsbD 1, v := e.getLsbD 0 }

/-- The bytes that a leaf of level k maps: 64 KiB, 32 MiB or 16 GiB (R361). -/
def pageSize (lvl : Nat) : Nat := match lvl with | 1 => 2 ^ 16 | 2 => 2 ^ 25 | _ => 2 ^ 34

/-- The findings of R363 about a valid entry of level `lvl` taken as a leaf, that make it malformed. -/
def leafMalformed (e : W64) (lvl : Nat) : Bool :=
  let p := Pte.of e
  let hbm := p.home ≤ 1
  bitsOf e 15 11 != 0 || p.home > 4 ||
  (!p.domain && p.dev != 0) ||
  (hbm && (p.unit != 0 || p.slot != 0 || decide (p.pa ≥ 2 ^ Config.hbmBits) || p.pa % pageSize lvl != 0)) ||
  (!hbm && (p.pa != 0 || lvl != 1)) ||
  (p.home == 2 && decide (p.unit ≥ Config.cells)) || (p.home ≥ 3 && decide (p.unit ≥ Config.cores)) ||
  (p.home == 3 && decide (p.slot ≥ 8)) || (p.home == 4 && decide (p.slot ≥ 6)) ||
  (p.future && (p.home == 1 || p.home ≥ 3 || p.domain))

/-- The address of the next table in a non-leaf entry: NEXT in [42:12]. -/
def nextTable (e : W64) : Nat := bitsOf e 42 12 * 4096
/-- A non-leaf entry's bits [11:2] and [63:43] must be 0, and the table it names must lie in HBM4E (R362, R363). -/
def tableMalformed (e : W64) : Bool :=
  bitsOf e 11 2 != 0 || bitsOf e 63 43 != 0 || decide (nextTable e ≥ 2 ^ Config.hbmBits)

/-- The index of a level in an address (R361). -/
def levelIndex (va : W64) (lvl : Nat) : Nat :=
  match lvl with
  | 4 => bitsOf va 48 43 | 3 => bitsOf va 42 34 | 2 => bitsOf va 33 25 | _ => bitsOf va 24 16

/-- The place that an entry of level `lvl` gives an address. -/
def placeOf (dev : Nat) (e : W64) (lvl : Nat) (va : W64) : Loc :=
  let p := Pte.of e
  let off := va.toNat % pageSize lvl
  if p.domain && p.dev != dev then .remote p.dev va
  else match p.home with
    | 2 => .mem (pinSliceBase p.unit p.slot + off)
    | 3 => .pad p.unit (1048576 - 65536 * (p.slot + 1) + off)
    | 4 => .state p.unit p.slot off
    | _ => .mem (p.pa + off)

/-! ### Stores to page tables (R206, R209, R362, R365) -/

/-- What the mapping or the removal of a pinned page does to the unit that holds it (R198, R200, R206, R209): a page that was not mapped,
in the state `was`, reads as zero bytes, with V = 1 (R362). `root` says that its entry is not new, but comes into use with a root. -/
def State.pinPage (was s : State) (e : W64) (lvl : Nat) (on root : Bool) : State :=
  let p := Pte.of e
  let first := on && (if p.home = 2 then !(was.sliceAt p.unit).pins.contains p.slot else !root)
  let upd (l : List Nat) : List Nat := (l.filter (· != p.slot)) ++ (if on then [p.slot] else [])
  if !e.getLsbD 0 || !e.getLsbD 1 || leafMalformed e lvl || (p.domain && p.dev != s.dev) then s
  else
    let s := if p.home = 2 then
        let new := on && !(was.sliceAt p.unit).pins.contains p.slot
        let lo := pinSliceBase p.unit p.slot
        let s := s.onSlice p.unit fun x => { x with pins := upd x.pins }
        if new then { s with mem := s.mem.filter fun c => !decide (lo ≤ c.1 ∧ c.1 < lo + 65536) } else s
      else if p.home = 3 then
        let new := on && !(was.coreAt p.unit).pinned.contains p.slot
        s.onCore p.unit fun c =>
          { c with pinned := upd c.pinned, pad := c.pad.filter fun w => !(new && (262143 - w.idx) / 16384 == p.slot),
                   empty := c.empty.filter fun x => !(new && decide ((8191 - x.1) / 512 = p.slot)) }
      else s
    if p.future && first then
      let lo := match placeOf s.dev e lvl 0#64 with | .mem a => a | _ => 0
      { s with futures := s.futures.filter fun l => match l with
          | .mem a => !decide (lo ≤ a ∧ a < lo + pageSize lvl)
          | _ => true }
    else s

/-- An entry of a level becomes valid, or no longer is: the page that it maps, or every page below the table that it names, is mapped or
removed. -/
def State.mapPages (was s : State) (on root : Bool) (e : W64) : Nat → State
  | 0 => s
  | n + 1 =>
    if !e.getLsbD 0 then s
    else if e.getLsbD 1 then was.pinPage s e (n + 1) on root
    else if n = 0 || tableMalformed e then s
    else (List.range 512).foldl (fun s i => was.mapPages s on root (s.phys64 (nextTable e + 8 * i)) n) s

/-- The pages below a table that becomes a root come into use: the pinned ones among them that were not mapped read as zero bytes. (DEDUCED,
log entry 128.) -/
def State.mapRoot (s : State) (root : Nat) : State :=
  (List.range 64).foldl (fun t i => s.mapPages t true true (t.phys64 (root + 8 * i)) 4) s

/-- The level of the tables below a table, itself included, at which a physical address holds an entry. -/
def State.entryBelow (s : State) (a table : Nat) : Nat → Option Nat
  | 0 => none
  | n + 1 =>
    let size := if n = 3 then 64 else 512
    if table ≤ a ∧ a < table + 8 * size then some (n + 1)
    else if n = 0 then none
    else (List.range size).findSome? fun i =>
      let e := s.phys64 (table + 8 * i)
      if !e.getLsbD 0 || e.getLsbD 1 || tableMalformed e then none else s.entryBelow a (nextTable e) n

/-- The roots that threads translate from. -/
def State.roots (s : State) : List Nat :=
  ((s.cores.flatMap fun c => match c.crew with
    | none => []
    | some k => (k.sfe :: k.threads).map fun t => t.ptbase.toNat) ++ s.tens.map fun t => t.root.toNat).eraseDups

/-- The level at which a physical address holds an entry of page tables in use. -/
def State.entryLevel (s : State) (a : Nat) : Option Nat := s.roots.findSome? fun r => s.entryBelow a r 4

/-- What the store of an entry does beside its bytes: one that makes it valid maps the page, and a valid one that changes is stale. -/
def State.entryStored (s : State) (a : Nat) (old : W64) : State :=
  let new := s.phys64 a
  if new = old then s
  else match s.entryLevel a with
    | none => s
    | some lvl => if old.getLsbD 0 then { s with stale := s.stale ++ [(a, old)] } else s.mapPages s true false new lvl

/-- The bytes of a store, with what it does to page tables. -/
def State.wrTables (s : State) (l : Loc) (n v : Nat) : State :=
  let t := s.wr l n v
  match l with
  | .mem a => (List.range ((n + 7) / 8)).foldl (fun t i => t.entryStored (a / 8 * 8 + 8 * i) (s.phys64 (a / 8 * 8 + 8 * i))) t
  | _ => t

/-! ### Replay terms (R240) -/

def Term.covers (t : Term) (l : Loc) (n : Nat) : Bool := l.meets n t.loc t.op.size

/-- The order in which the terms of a location are applied: by task, then by %tid, then by arrival. -/
def termBefore (a b : Term) : Bool := a.task < b.task || (a.task == b.task && a.tid.toNat ≤ b.tid.toNat)

/-- Insert behind every element that is not after it: a stable sort step. -/
def insertBy {α : Type} (le : α → α → Bool) (x : α) : List α → List α
  | [] => [x]
  | y :: r => if le x y then x :: y :: r else y :: insertBy le x r
/-- A stable sort. -/
def sortBy {α : Type} (le : α → α → Bool) (l : List α) : List α := l.foldr (insertBy le) []

/-- The bytes of a term take their place in M: a future word that it covers becomes empty (R209), and a page table follows (R365). What an
uncorrectable error has taken stays lost (R369). -/
def State.applyTerm (s : State) (t : Term) : State :=
  let n := t.op.size
  if s.spoiled t.loc n then s
  else match t.op.apply (s.rd t.loc n) t.val.toNat 0 with
    | none => s
    | some v => (s.clearFutures t.loc n).wrTables t.loc n v

/-- The terms of a line that settle together take one time, behind the cores of their crews (R204, R240). They come before what the cores
that have synchronised behind one of them do next (R180), so the timestamps of those rise to that time; those of all do where a stage
queue holds, or held, an entry that one of those cores has put (R219). (DEDUCED, log entry 115.) -/
def State.stampTerms (s : State) (ts : List Term) : State :=
  (ts.map fun t => t.loc.base).eraseDups.foldl (fun s l =>
    let here := ts.filter fun t => t.loc.base == l
    let x := s.stamps l
    let t := here.foldl (fun m y => max m (s.coreAt y.core).pts) (x.rts + 1)
    let s := s.putStamps { x with wts := t, rts := t }
    let s := (here.flatMap fun y => y.core :: y.seen).eraseDups.foldl (fun s c => s.raisePts c t) s
    if here.any (·.put) then s.raiseAll t else s) s

/-- Settle every held term that covers bytes of an access (R240). -/
def State.settle (s : State) (l : Loc) (n : Nat) : State :=
  let mine := sortBy termBefore (s.terms.filter fun t => t.covers l n)
  if mine.isEmpty then s
  else (mine.foldl State.applyTerm { s with terms := s.terms.filter fun t => !t.covers l n }).stampTerms mine

/-- Where a term is held: a slice, which holds 1,024, or a core's scratchpad, which holds 256. -/
def Loc.termHome : Loc → Nat × Nat
  | .pad c _ => (1000 + c, 256)
  | l => (l.slice.getD 0, 1024)

/-- Whether a crew had a term among some. -/
def Crew.hadTerm (c : Crew) (l : List Term) : Bool := l.any fun t => t.ten == c.ten && t.task == c.task && t.crew == c.no
/-- One more to %rspill, which saturates. -/
def Crew.spill (c : Crew) : Crew := { c with rspill := if c.rspill = BitVec.allOnes 32 then c.rspill else c.rspill + 1#32 }

/-- A home without room settles first the location of its oldest term, and %rspill of every crew that had a term in that settle
rises (R240, R241). -/
def State.spillTerms (s : State) (home : Nat) : State :=
  match s.terms.find? fun x => x.loc.termHome.1 == home with
  | none => s
  | some o =>
    let had := s.terms.filter fun x => x.covers o.loc o.op.size
    let s := s.settle o.loc o.op.size
    { s with cores := s.cores.map fun k => k.onCrew fun c => if c.hadTerm had then c.spill else c }

/-- Hold a term. One of another size or kind settles first what overlaps it. -/
def State.holdTerm (s : State) (t : Term) : State :=
  let s := if s.terms.any fun x => x.covers t.loc t.op.size && !(x.loc == t.loc && x.op == t.op) then s.settle t.loc t.op.size else s
  let (home, cap) := t.loc.termHome
  let s := if (s.terms.filter fun x => x.loc.termHome.1 == home).length < cap then s else s.spillTerms home
  { s with terms := s.terms ++ [{ t with born := s.serial }] }

/-! ### Page walks (R361, R363, R364) -/

/-- The entry that a walk for an address reads at a physical address: the read settles the terms held for it (R240). A thread that has
stored to a valid entry leaves each access translated under an old entry or the new one, which of them is free (R365).
(DESIGN CHOICE, log entry 84.) -/
def State.entryRead (s : State) (va : W64) (a : Nat) : W64 :=
  let new := (s.settle (.mem a) 8).phys64 a
  let old := (s.stale.filter fun x => x.1 == a).map (·.2)
  if old.isEmpty then new
  else (old[(Config.freeWord [34, s.free, a, va.toNat]).toNat % (old.length + 1)]?).getD new

/-- The walk from a table of level `lvl` (R361, R363), for a tenancy with stack domains `doms`. An entry with an uncorrectable error is
lost (R369). -/
def State.walkFrom (s : State) (doms : List Nat) (va : W64) (table : Nat) : Nat → Found
  | 0 => .malformed
  | lvl + 1 =>
    let l := lvl + 1
    let a := table + 8 * levelIndex va l
    let e := s.entryRead va a
    if s.spoiled (.mem a) 8 then .lost
    else if !e.getLsbD 0 then .fault l
    else if e.getLsbD 1 then
      if l = 4 || leafMalformed e l then .malformed else .entry e l
    else if l = 1 || tableMalformed e then .malformed
    else if !doms.contains (nextTable e / 2 ^ 36) then .outside
    else s.walkFrom doms va (nextTable e) lvl

/-- The walk of an address of a tenancy from a root (R361). -/
def State.walk (s : State) (ten : Nat) (root : W64) (va : W64) : Found :=
  if root.toNat + 512 > 2 ^ Config.hbmBits then .malformed else s.walkFrom (s.tenAt ten).doms va root.toNat 4

/-- Where an access lands: its place, whether the page is FUTURE, whether its line is leased (R205), and its address. -/
structure Hit where
  loc : Loc
  future : Bool := false
  leased : Bool := false
  cached : Bool := false
  state : Bool := false
  domain : Bool := false
  remote : Bool := false
  va : W64 := 0#64
  deriving DecidableEq, Repr

/-- The rights that an access needs (R362). -/
structure Rights where
  r : Bool := false
  w : Bool := false
  x : Bool := false
  deriving DecidableEq, Repr

/-- Whether the memory that an entry names lies in a tenancy (R363). (DEDUCED, log entry 50.) -/
def Pte.inTenancy (p : Pte) (doms : List Nat) (dev : Nat) : Bool :=
  if p.domain && p.dev != dev then true
  else match p.home with
    | 2 => doms.contains (p.unit / 20)
    | 3 | 4 => doms.contains (p.unit / 40)
    | _ => doms.contains (p.pa / 2 ^ 36)

/-- What a walk's finding gives an access in mode `sys` (R363): a place, or the cause and sub-cause of its trap. (DEDUCED, log entry 50.) -/
def State.judge (s : State) (ten : Nat) (sys : Bool) (need : Rights) (va : W64) (f : Found) : Except (Nat × Nat) Hit :=
  match f with
  | .fault l => .error (Cause.pagefault, l)
  | .malformed => .error (Cause.prot, 6)
  | .outside => .error (Cause.prot, 5)
  | .lost => .error (Cause.mcheck, 1)
  | .entry e lvl =>
    let p := Pte.of e
    if (need.r && !p.r) || (need.w && !p.w) || (need.x && !p.x) || (!p.u && !sys) || (p.home == 4 && !sys) then
      .error (Cause.prot, 4)
    else if !p.inTenancy (s.tenAt ten).doms s.dev then .error (Cause.prot, 5)
    else
      let remote := p.domain && p.dev != s.dev
      .ok { loc := placeOf s.dev e lvl va, future := p.future, leased := !p.future && !remote && (p.home == 0 || p.home == 2),
            cached := p.home == 0, state := p.home == 4 && !remote, domain := p.domain, remote }

/-- The TLB entry of a page that a core holds (R364). -/
def Core.tlbFind (c : Core) (root : W64) (va : W64) : Option TlbEntry :=
  c.tlb.find? fun e => e.root == root && e.page / (pageSize e.lvl / 65536) == va.toNat / pageSize e.lvl

/-- What an access finds by a translation that a TLB holds. A thread that has stored to the valid entry leaves each access translated
under the old entry or the new one, which of them is free (R365). (DESIGN CHOICE, log entry 84.) -/
def State.heldEntry (s : State) (ten : Nat) (va : W64) (e : TlbEntry) : Found :=
  let old : Found := .entry e.pte e.lvl
  let new := s.walk ten e.root va
  if new = old ∨ new = .lost then old else if Config.freeBool [34, s.free, e.root.toNat, e.page] then old else new

/-- What an access of a thread finds: the result of the walk that its instruction has waited for, or a translation that its core's L1
TLB holds; none when it must wait for a walk (R364). -/
def State.found (s : State) (core ten : Nat) (t : Thread) (va : W64) : Option Found :=
  match t.walked.find? fun w => w.1 == va.toNat / 65536 with
  | some (_, f) => some f
  | none => ((s.coreAt core).tlbFind t.ptbase va).map (s.heldEntry ten va)

/-! ### Findings of a translation -/

/-- Translation of an address for a walk that nothing waits for: engines and the command processor. -/
def State.translate (s : State) (ten : Nat) (root : W64) (sys : Bool) (need : Rights) (va : W64) : Except (Nat × Nat) Hit :=
  s.judge ten sys need va (s.walk ten root va)

/-! ### Apertures (R196) -/

/-- The aperture window of an address: 0 reserved, 1 local, 2 pad, 3 cel. -/
def windowOf (a : W64) : Option Nat := if bitsOf a 63 34 = 2 ^ 30 - 1 then some (bitsOf a 33 32) else none
def windowOff (a : W64) : Nat := bitsOf a 31 0

/-! ### The checks of an access (R234) -/

/-- An access by a thread: its generic address, its size, what it does, and whether it is LDF or STF. -/
structure Access where
  va : W64
  n : Nat
  rd : Bool
  wr : Bool
  fut : Bool := false
  deriving DecidableEq, Repr

def stageCanon : Nat := 21
def stageAlign : Nat := 22
def stageWindow : Nat := 23
def stageWatch : Nat := 24
def stageRights : Nat := 25
def stageFault : Nat := 26
def stageFuture : Nat := 27

/-- Whether n bytes at an address meet the range of watchpoint `i` with access bit `bit` (R382, R384). -/
def Thread.watchHits (t : Thread) (i bit : Nat) (va : W64) (n : Nat) : Bool :=
  let ctl := t.watch.wpctl >>> (16 * i)
  let len := bitsOf ctl 5 0
  let base := (if i = 0 then t.watch.wp0 else t.watch.wp1).toNat / 2 ^ len * 2 ^ len
  ctl.getLsbD bit && decide (va.toNat < base + 2 ^ len ∧ base < va.toNat + n)

/-- The WATCH sub-cause of a data access (R384); 0 when nothing hits. -/
def Thread.watchSub (t : Thread) (va : W64) (n : Nat) (rd wr : Bool) : Nat :=
  if !t.wpen || t.wskip then 0
  else
    let hit (i : Nat) := (rd && t.watchHits i 6 va n) || (wr && t.watchHits i 7 va n)
    (if hit 0 then 1 else 0) + (if hit 1 then 2 else 0)

/-- Steps 1 to 6 of R234 for one lane: the place of the access, or what becomes of the lane. `core` is the thread's core. -/
def State.check (s : State) (core : Nat) (t : Thread) (a : Access) : Except Verdict Hit :=
  let trap stage cause sub : Except Verdict Hit := .error (.trap (trapAt stage cause sub a.va))
  if !canonical a.va then trap stageCanon Cause.prot 0
  else if a.va.toNat % a.n ≠ 0 then trap stageAlign Cause.misalign 0
  else
    let crew := (s.coreAt core).crew
    let ten := (crew.map (·.ten)).getD 0
    let o := windowOff a.va
    let bad : Bool := match windowOf a.va with
      | none => false
      | some 1 => t.locbase == 0#64 || decide (o + a.n > 65536)
      | some 2 => decide (o + a.n > ((crew.map (·.pad)).getD 0) * 128)
      | some 3 => decide (o + a.n > s.celsz (cellOf core))
      | some _ => true
    if bad then trap stageWindow Cause.prot 0
    else if t.watchSub a.va a.n a.rd a.wr ≠ 0 then trap stageWatch Cause.watch (t.watchSub a.va a.n a.rd a.wr)
    else
      let placed : Except Verdict Hit := match windowOf a.va with
        | some 2 => .ok { loc := .pad core o }
        | some 3 => .ok { loc := .cel (cellOf core) o, leased := true }
        | w =>
          let va := if w = some 1 then t.locbase + BitVec.ofNat 64 o else a.va
          let judged (f : Found) : Except Verdict Hit :=
            match s.judge ten t.modeS { r := a.rd, w := a.wr } va f with
            | .ok h =>
              if h.state && (a.n != 4 || (a.rd && a.wr) || a.fut) then trap stageRights Cause.prot 4
              else if h.remote && a.rd && a.wr then trap stageRights Cause.prot 7
              else .ok h
            | .error (c, sub) => trap (if c = Cause.pagefault ∨ c = Cause.mcheck then stageFault else stageRights) c sub
          match s.found core ten t va with
          | some f => judged f
          | none => .error (.wait (.walk t.ptbase (va.toNat / 65536)))
      match placed with
      | .error e => .error e
      | .ok h => if a.fut && !h.future then trap stageFuture Cause.prot 2 else .ok { h with va := a.va }

/-! ### Waits of an access that passes its checks -/

/-- Whether an access overlaps a range that a copy in flight holds (R260): scratchpad offsets are compared with scratchpad
offsets, generic addresses with generic addresses. An address in the local window is compared as it stands, wherever it leads. -/
def Core.scored (c : Core) (core : Nat) (va : W64) (n : Nat) (l : Loc) : Bool :=
  c.score.any fun r => r.parts.any fun e =>
    if e.pad then
      match l with
      | .pad k o => k == core && windowOf va != some 1 && decide (o < e.hi ∧ e.lo < o + n)
      | _ => false
    else decide (va.toNat < e.hi ∧ e.lo < va.toNat + n)

/-- The empty scratchpad line that n bytes at a place lie in (R199). -/
def State.emptyLine (s : State) (l : Loc) : Option Wait :=
  match l with
  | .pad c o => if (s.coreAt c).empty.any fun e => e.1 == o / 128 then some (.line c (o / 128)) else none
  | _ => none

/-- The requests of a group that its home has still to perform. -/
def Group.left (g : Group) : List Req := g.reqs.drop g.done
/-- Whether a thread has a request that its home has not performed yet. -/
def Core.outstanding (c : Core) (tid : W32) : Bool := c.coll.any fun g => g.left.any fun r => r.tid == tid

/-- Whether a scratchpad word that a load reads was never written (R16, R200). -/
def State.padUnwritten (s : State) (l : Loc) (n : Nat) : Bool :=
  match l with
  | .pad c o => (List.range ((n + 3) / 4)).any fun i => !((s.coreAt c).padWord (o / 4 + i)).valid
  | _ => false

/-- Whether a scratchpad word that a load reads has an uncorrectable error (R369). -/
def State.padSpoiled (s : State) (l : Loc) (n : Nat) : Bool :=
  match l with
  | .pad _ _ => s.spoiled l n
  | _ => false

/-- The verdict of one access, after the checks of R234: the waits for earlier accesses of the thread, for the range
scoreboard and for an empty line, and UNINIT and MCHECK on a scratchpad word. The scratchpad address that UNINIT reports is the generic
address of the access. (DEDUCED, log entry 10; DESIGN CHOICE, log entry 98.) -/
def State.accessVerdict (s : State) (core : Nat) (t : Thread) (a : Access) : Verdict :=
  match s.check core t a with
  | .error v => v
  | .ok h =>
    if (s.coreAt core).outstanding t.ident.tid then .wait .order
    else if (s.coreAt core).scored core a.va a.n h.loc then .wait (.score (some (a.va, a.n, h.loc)))
    else match s.emptyLine h.loc with
      | some w => .wait w
      | none =>
        if a.rd && t.uninit && s.padUnwritten h.loc a.n then .trap (trapAt stageUninit Cause.uninit 0 a.va)
        else if a.rd && s.padSpoiled h.loc a.n then .trap (trapAt stageMark Cause.mcheck 4 a.va)
        else .ok

end Sys2Proof.Machine
end

