-- ==== Sys2Proof/Machine/Ops.lean ====
section
/-! DEFINITION. The operations that every meaning shares: which lanes of a run execute, park, are held or trap (R137, R351,
R419), taking a trap (R27, R28, R352), returning from one (R30), landing results (R13), and releasing threads. -/

namespace Sys2Proof.Machine
open Sys2Proof

/-! ### The lanes of a run at an instruction -/

/-- What becomes of the threads of a run at one instruction, by %tid. `traps` are the traps taken, each with its lanes;
`hold` are the lanes held until the lanes `behind` have returned from theirs (R351); `rejoin` says that those wait for each other
then too (R137). -/
structure Split where
  go    : List W32 := []
  park  : List (W32 × Wait) := []
  hold  : List W32 := []
  behind : List W32 := []
  traps : List (List (W32 × Trap)) := []
  rejoin : Bool := false
  deriving DecidableEq, Repr

def trapsOf (l : List (Thread × Verdict)) : List (Thread × Trap) :=
  l.filterMap fun (t, v) => match v with | .trap x => some (t, x) | _ => none
def oksOf (l : List (Thread × Verdict)) : List W32 :=
  l.filterMap fun (t, v) => match v with | .ok => some t.ident.tid | _ => none
def waitsOf (l : List (Thread × Verdict)) : List (W32 × Wait) :=
  l.filterMap fun (t, v) => match v with | .wait w => some (t.ident.tid, w) | _ => none

/-- The least stage of a list of traps. -/
def minStage (l : List (Thread × Trap)) : Nat := l.foldl (fun m x => min m x.2.stage) 1000

/-- The trap taken of several (R419): the earliest check that any lane fails, with the cause of its lowest lane; the lanes
that failed that check with that cause take it. Which cause is taken where lanes fail one check with different causes the spec
does not say. (DESIGN CHOICE, log entry 83.) -/
def takeTrap (l : List (Thread × Trap)) : List (W32 × Trap) :=
  let m := minStage l
  match l.find? fun x => x.2.stage == m with
  | none => []
  | some x => (l.filter fun y => y.2.stage == m && y.2.cause == x.2.cause).map fun y => (y.1.ident.tid, y.2)

/-- The tids of a list of threads with verdicts, but for the listed ones. -/
def othersThan (l : List (Thread × Verdict)) (t : List (W32 × Trap)) : List W32 :=
  (l.map fun x => x.1.ident.tid).filter fun x => !(t.map (·.1)).contains x

/-- The traps of the source reads, one group for each check in its order (R419). -/
def readTraps (l : List (Thread × Trap)) : List (List (W32 × Trap)) :=
  ([stageEmpty, stageUninit, stageMark].flatMap fun m =>
    let here := l.filter fun x => x.2.stage == m
    (here.map (·.2.cause)).eraseDups.map fun c =>
      (here.filter fun x => x.2.cause == c).map fun x => (x.1.ident.tid, x.2)).filter (!·.isEmpty)

/-- Whether a wait is none of R136's parking but for a page walk: the lane has passed the checks before it, and would execute. -/
def Wait.later : Wait → Bool
  | .order | .walk _ _ => true
  | _ => false

/-- Whether a thread that parks there executes its instruction again from the start (R27, R353). (DEDUCED, log entry 116.) -/
def Wait.again : Wait → Bool
  | .future | .regroup _ | .stqFull .. | .stqEmpty .. => false
  | _ => true

/-- Lanes that wait for their own earlier accesses keep the run together, so that its accesses stand in lane order (R220). (DEDUCED, log entry 11.) -/
def Split.together (sp : Split) : Split :=
  let who := (sp.park.filter fun x => x.2 == .order).map (·.1)
  if who.isEmpty then sp
  else { sp with go := [], park := (sp.park.filter fun x => x.2 != .order) ++ (sp.go ++ who).map fun t => (t, .runOrder who) }

/-- Whether the other lanes move on after a failure of a card's check: PAGEFAULT, and MCHECK at a load (R351). -/
def Trap.soft (x : Trap) : Bool := x.stage == stageFault || x.cause == Cause.mcheck

/-- Failures after which the other lanes move on, a trap for each cause. -/
def softTraps (l : List (Thread × Trap)) : List (List (W32 × Trap)) :=
  (l.map (·.2.cause)).eraseDups.map fun c => (l.filter fun x => x.2.cause == c).map fun x => (x.1.ident.tid, x.2)

/-- An instruction that acts on each lane alone (R137, R351, R419). Encoding failures hold every other lane; after
source-read traps the other lanes go on; lanes that wait park; a later failure holds the lanes that would have executed,
unless every failure is a PAGEFAULT or an MCHECK at a load. -/
def splitLanes (l : List (Thread × Verdict)) : Split :=
  let tr := trapsOf l
  if tr.any fun x => x.2.stage < stageEmpty then
    let t := takeTrap tr
    { hold := othersThan l t, behind := t.map (·.1), traps := [t] }
  else
    let reads := readTraps (tr.filter fun x => x.2.stage < stageCard)
    let card := tr.filter fun x => x.2.stage ≥ stageCard
    if card.all fun x => x.2.soft then
      ({ go := oksOf l, park := waitsOf l, traps := reads ++ softTraps card } : Split).together
    else
      let late := takeTrap card
      { park := (waitsOf l).filter fun x => !x.2.later,
        hold := oksOf l ++ ((waitsOf l).filter fun x => x.2.later).map (·.1) ++
          ((card.map fun x => x.1.ident.tid).filter fun x => !(late.map (·.1)).contains x),
        behind := late.map (·.1), traps := reads ++ [late] }

/-- A collective instruction (R137): every lane executes, or the whole run parks, or failing lanes trap and the others are
held. Traps of the decode checks and source reads come first, then the wait of the whole run, then the card's own checks.
The wait of the run names every empty register, else every lane whose requests are still to be performed; any other wait is
shared by all its lanes. -/
def splitAll (l : List (Thread × Verdict)) : Split :=
  let tr := trapsOf l
  let early := tr.filter fun x => x.2.stage < stageCard
  if !early.isEmpty then
    let t := takeTrap early
    { hold := othersThan l t, behind := t.map (·.1), traps := [t], rejoin := true }
  else
    match waitsOf l with
    | [] =>
      if tr.isEmpty then { go := oksOf l }
      else
        let t := takeTrap tr
        { hold := othersThan l t, behind := t.map (·.1), traps := [t], rejoin := true }
    | (tid, w) :: r =>
      let regs := ((tid, w) :: r).filterMap fun x => match x.2 with | .reg d => some (x.1, d) | _ => none
      let reqs := ((tid, w) :: r).filterMap fun x => match x.2 with | .order => some x.1 | _ => none
      let all : Wait := if !regs.isEmpty then .run regs else if !reqs.isEmpty then .runOrder reqs else w
      { park := l.map fun x => (x.1.ident.tid, all) }

/-! ### Trap registers (R28, R44, R45) -/

/-- The format code of a major opcode (R40, R44). -/
def fmtOf (op : Nat) : Nat :=
  if op = 0x3F then 5
  else if op ≥ 0x3C then 7
  else if op = 0x31 ∨ op = 0x32 then 4
  else if op = 0x30 then 3
  else if 0x24 ≤ op ∧ op ≤ 0x27 then 2
  else if (0x07 ≤ op ∧ op ≤ 0x0D) ∨ op = 0x34 ∨ op = 0x37 ∨ op = 0x38 then 1
  else 0

/-- %tfield: the decoded fields of a word (R44). -/
def fieldsOf (w : W32) : W64 :=
  let op := bitsOf w 31 26
  let fm := fmtOf op
  let b (n : Nat) (hi lo : Nat) : Nat := bitsOf w hi lo * 2 ^ n
  let isR := fm = 0 ∨ fm = 7
  BitVec.ofNat 64 (fm * 2 ^ 61 + op * 2 ^ 53 +
    (if fm = 4 ∨ fm = 5 then 0 else b 60 25 25) + (if isR then b 59 24 24 else 0) +
    (if isR then b 50 23 21 else if fm = 2 ∨ fm = 3 then b 50 24 22 else 0) +
    (if isR then b 43 20 14 else if fm = 1 then b 43 24 18 else if fm = 2 then b 43 21 15 else 0) +
    (if isR then b 36 13 7 else if fm = 1 then b 36 17 11 else if fm = 2 then b 36 14 8
     else if fm = 3 then b 36 21 15 else 0) +
    (if isR then b 29 6 0 else 0) +
    (match fm with | 1 => b 0 10 0 | 2 => b 0 7 0 | 3 => b 0 14 0 | 4 => b 0 25 0 | 5 => b 0 25 0 | _ => 0))

/-- %tprefix (R45). -/
def xReg (r : RawInstr) : W32 :=
  match r.x with
  | none => 0#32
  | some x => 0x80000000#32 ||| x.setWidth 32

/-- The trap registers of a trap at an instruction with word `raw`. -/
def trapRegs (cause sub : Nat) (pc : W64) (mask : W32) (addr : W64) (raw : RawInstr) : TrapRegs :=
  { cause := BitVec.ofNat 32 (sub * 256 + cause), pc, mask, field := fieldsOf raw.word, addr, inst := raw.word, pre := xReg raw }

/-- Whether a cause goes to the user handler (R28). -/
def userCause (c : Nat) : Bool := c ∈ [1, 2, 3, 4, 7, 8, 10, 12]

/-- Taking a trap at a mark clears it: that of the completion register of one command (R369), or every mark of one evaluation
(R301). What a lost load left and a storage error stand until the register is written. -/
def Thread.clearMark (t : Thread) (m : Mark) : Thread :=
  match m with
  | .clean | .storage | .load _ => t
  | .status2 c => { t with regs := t.regs.map fun r => if r.mark = .status2 c then { r with mark := .clean } else r }
  | .carafe e _ _ => { t with regs := t.regs.map fun r => match r.mark with
      | .carafe e' _ _ => if e = e' then { r with mark := .clean } else r
      | _ => r }

/-- What a trap does to one thread (R28): the destination by cause and mode, the trap registers, the mode and the PC. Its
WSKIP clears (R383), and a privileged trap clears PE (R355). -/
def Thread.enterTrap (t : Thread) (r : TrapRegs) : Thread :=
  -- a BAR left at its waiting half resumes there (R354)
  let t := match t.status with
    | .parked (.barrier l) => t.setRW l
    | _ => t
  let t := { t.clearWskip with depth := t.depth + 1, owed := false, answer := none, crossed := none }
  if userCause (bitsOf r.cause 7 0) && t.uhandler != 0#64 && !t.modeS && !t.modeUH then
    { t.withMode 2 true with ut := r, pc := t.uhandler }
  else
    let s := t.modeS
    { ((t.withMode 1 s).withMode 0 true).withMode 3 false with kt := r, pc := t.khandler }

/-! ### What a trap entry waits for, and what it cancels (R352) -/

/-- Whether a thread has nothing in flight that a trap entry of its gang completes first: arithmetic results, loads, QM
commands and Carafe results. An LDF that has no answer yet is no such thing. -/
def Thread.settled (t : Thread) : Bool :=
  (t.qm.all (·.fin)) &&
    t.pending.all fun p => match p.kind with | .arith | .quiet | .load | .carafe => false | .future => p.vals.isNone | .task | .stq | .cmd => true

def Crew.gangSettled (c : Crew) (t : Thread) : Bool :=
  (c.all.filter fun x => x.inGang t.sfe t.place.sect t.place.slot && x.live).all Thread.settled

/-- Whether a request is an LDF that its home refused for want of a slot (R210). -/
def Req.isLdf (r : Req) : Bool := match r.op with | .future => true | _ => false

/-- Cancel a thread's deferred LDF, or one that is being retried (R210): its slot is freed and its destination stays
empty. (DEDUCED, log entry 20.) -/
def State.cancelDeferred (s : State) (core : Nat) (tid : W32) : State :=
  let mine := s.deferred.filter fun d => d.core == core && d.tid == tid
  let tried := (s.coreAt core).coll.filter fun g => g.reqs.any fun r => r.isLdf && r.tid == tid
  if mine.isEmpty && tried.isEmpty then s
  else
    let ids := mine.map (·.pend) ++ tried.flatMap fun g => g.reqs.filterMap (·.pend)
    let s := { s with deferred := s.deferred.filter fun d => !(d.core == core && d.tid == tid) }
    let s := s.onCore core fun c => { c with coll := c.coll.filter fun g => !(g.reqs.any fun r => r.isLdf && r.tid == tid) }
    s.onThread core tid fun v => v.onTh fun t => { t with pending := t.pending.filter fun p => !ids.contains p.id }

/-- Every open tile that holds an evaluation of the thread launches at once (R302). -/
def Core.closeTiles (c : Core) (tid : W32) : Core :=
  { c with tiles := c.tiles.map fun t => if t.rows.any fun r => r.ctx.tid == tid then { t with full := true } else t }

/-- The Sump records of a trap: kind 1 for MCHECK, PREEMPT and PROT sub-causes 5 and 6 (R388). (DESIGN CHOICE, log entry 34.) -/
def State.sumpTrap (s : State) (core ten cause : Nat) (subs : List Nat) (pc : W64) (mask : W32) : State :=
  subs.eraseDups.foldl (fun s sub =>
    if cause = Cause.mcheck ∨ cause = Cause.preempt ∨ (cause = Cause.prot ∧ (sub = 5 ∨ sub = 6)) then
      s.sump 1 (dieOfCore core) ten core sub pc (pair64 (BitVec.ofNat 32 (sub * 256 + cause)) mask)
    else s) s

/-- TAKING A TRAP (R28, R351, R352): the listed threads of core `core` take one trap together at the instruction `regs`
describes. A thread whose gang has results in flight enters its handler when they have landed. (DEDUCED, log entry 20.) -/
def State.takeTrap (s : State) (core : Nat) (group : List (W32 × Trap)) (mk : Thread → Trap → W32 → TrapRegs) : State :=
  match (s.coreAt core).crew with
  | none => s
  | some c =>
    let who := c.all.filter fun t => (group.map (·.1)).contains t.ident.tid
    let mask := maskOf who
    -- a WATCH sub-cause gathers the hits of every lane listed (R384)
    let wsub := group.foldl (fun m x => m ||| x.2.sub) 0
    let adj (x : Trap) : Trap := if x.cause = Cause.watch then { x with sub := wsub } else x
    let s := who.foldl (fun s t => s.cancelDeferred core t.ident.tid) s
    let s := group.foldl (fun s x => s.onThread core x.1 fun v => v.onTh fun t =>
      let t' := (t.clearMark x.2.mark).enterTrap (mk t (adj x.2) mask)
      if x.2.report then { t' with refused := none } else t') s
    let s := s.onCore core fun k => (group.map (·.1)).foldl Core.closeTiles k
    let s := s.onCore core fun k => k.onCrew fun c => c.onThreads (fun t => (group.map (·.1)).contains t.ident.tid) fun v =>
      v.onTh fun t => if c.gangSettled t then { t with status := .runnable, qm := [] } else { t with status := .parked .entry }
    match who with
    | [] => s
    | t :: _ => s.sumpTrap core c.ten ((group.map (·.2.cause)).headD 0) (group.map (·.2.sub)) t.pc mask

/-- What a trap writes to %taddr: a free value where the spec gives none. (DEDUCED, log entry 69.) -/
def State.taddr (s : State) (t : Thread) (x : Trap) : W64 :=
  match x.addr with
  | some a => a
  | none => pair64 (Config.freeWord [6, s.free, t.ident.tid.toNat, 0]) (Config.freeWord [6, s.free, t.ident.tid.toNat, 1])

/-- The trap registers of a trap at the instruction being executed. -/
def State.mkRegs (s : State) (t : Thread) (x : Trap) (mask : W32) : TrapRegs :=
  trapRegs x.cause x.sub t.pc mask (s.taddr t x) s.issue.raw

/-! ### Release of held lanes, and ERET (R30, R351) -/

/-- What is left to wait for when thread `tid` has returned from its trap at a nesting above `depth`. -/
def returned (tid : W32) (depth : Nat) (l : List (W32 × Nat)) : List (W32 × Nat) :=
  l.filter fun (x : W32 × Nat) => !(x.1 == tid && decide (depth < x.2))

/-- Threads held for the trap of thread `tid` at a nesting above `depth` are held for it no longer. -/
def Crew.release (c : Crew) (tid : W32) (depth : Nat) : Crew :=
  c.onThreads (fun _ => true) fun v => v.onTh fun t =>
    let t : Thread := { t with rejoin := t.rejoin.map fun (r : Rejoin) => { r with mates := returned tid depth r.mates } }
    match t.status with
    | .held l =>
      let l' := returned tid depth l
      { t with status := if l'.isEmpty then .runnable else .held l' }
    | _ => t

/-- A thread that has returned to a collective instruction waits there for the other lanes that trapped with it (R137). -/
def Thread.regather (t : Thread) : Thread :=
  let here := t.rejoin.filter fun r => r.depth == t.depth + 1 && r.pc == t.pc && !r.mates.isEmpty
  let t := { t with rejoin := t.rejoin.filter fun r => decide (r.depth ≤ t.depth) }
  match here with
  | [] => t
  | r :: _ => { t with status := .held r.mates }

/-- ERET of one thread that may execute it: the mode and the PC it returns to (R30). WSKIP outlives it: the handler of a
watchpoint sets WSKIP before ERET, and the instruction returned to skips the checks (R384). -/
def Thread.eret (t : Thread) : Thread :=
  let t := { t with depth := t.depth - 1 }
  let target := if t.modeS then t.kt.pc else t.ut.pc
  let t := if t.modeS then t.withMode 0 t.modePS else t.withMode 2 false
  let t := { t with pc := target }
  -- ERET to the address past the innermost body end is a loop-end event (R99)
  let d := t.loopDepth
  if d > 0 && (t.level (d - 1)).stop + 4#64 == target then t.loopEnd (d - 1) else t

/-! ### Carrying out a split -/

def State.setStatus (s : State) (core : Nat) (tid : W32) (st : Status) : State :=
  s.onThread core tid fun v => v.onTh fun t => { t with status := st }

/-! ### The registers of QM commands in flight (R229) -/

/-- The lane registers among operands. -/
def physOf (l : List Dst) : List Nat := l.filterMap fun d => match d with | .phys n => some n | _ => none
def Opnds.reads (o : Opnds) (t : Thread) : List Dst := o.srcs.flatMap fun x => t.refs x.f x.w
def Opnds.writes (o : Opnds) (t : Thread) : List Dst := o.dsts.flatMap fun x => t.refs x.f x.w

/-- Give registers values that nothing constrains. -/
def Thread.scramble (t : Thread) (key : List Nat) (ns : List Nat) : Thread :=
  { t with regs := ns.foldl (fun l n => l.set n { (l.getD n Reg.z) with val := Config.freeWord (8 :: n :: key) }) t.regs }

/-- The accumulators that an instruction reads before the wait event of their command. -/
def Opnds.hidden (o : Opnds) (t : Thread) : List Nat :=
  (physOf (o.reads t)).filter fun n => t.qm.any fun h => h.accs.contains n

/-- The commands in flight before an instruction, in thread `old`, of which it writes an operand or scale register. -/
def Opnds.spoils (o : Opnds) (old : Thread) : List Nat :=
  let w := physOf (o.writes old)
  (old.qm.filter fun h => w.any fun n => h.srcs.contains n).map (·.cmd)

/-- Whether an instruction of `old` reads the completion register of a command that was in flight before it: its wait event. -/
def Opnds.awaits (o : Opnds) (old : Thread) (h : QmHold) : Bool :=
  (old.qm.any fun x => x.cmd == h.cmd) && h.d != .drop && (o.reads old).contains h.d

/-- The accumulator elements of the given commands that a thread holds become undefined: at once where the command has completed,
and else when it does. `keep` are registers that the instruction has written itself. -/
def Thread.spoil (t : Thread) (key : List Nat) (cmds keep : List Nat) : Thread :=
  let t := (t.qm.filter fun h => h.fin && cmds.contains h.cmd).foldl
    (fun t h => t.scramble key (h.accs.filter fun n => !keep.contains n)) t
  { t with qm := t.qm.map fun h => { h with taint := h.taint || cmds.contains h.cmd } }

/-- The destinations of an instruction that has read an accumulator before its command's wait event hold undefined values, and so
do its results that land later. -/
def Thread.blur (t : Thread) (o : Opnds) (key : List Nat) (old : Thread) : Thread :=
  let t := t.scramble key ((physOf (o.writes old)).filter fun n => (t.regs.getD n Reg.z).full)
  { t with pending := t.pending.map fun p =>
      if p.id < old.serial then p
      else { p with vals := p.vals.map fun l => (List.range l.length).map fun i => Config.freeWord (8 :: i :: p.id :: key) } }

/-- Whether an instruction that parked has had no effect yet: its thread executes it again (R27). -/
def Thread.untouched (t : Thread) : Bool :=
  match t.status with
  | .parked w => w.again
  | _ => false

/-- Execute `act` for lanes of which some have such commands. What they read of an accumulator is undefined, and so is what they
write; a write of an operand register leaves the accumulator elements of the whole quarter operation undefined, in every lane of
it; and a read of the completion register is the wait event. A lane whose instruction parks without an effect keeps its registers (R27). -/
def State.actQm (s : State) (o : Opnds) (act : List W32 → State → State) (tids : List W32) : State :=
  let who := s.run.filter fun v => tids.contains v.th.ident.tid && !v.th.qm.isEmpty
  if who.isEmpty then act tids s
  else
    let core := s.issue.core
    let key (t : Thread) : List Nat := [s.free, t.ident.tid.toNat]
    let s := who.foldl (fun s v => s.onThread core v.th.ident.tid fun x => x.onTh fun t =>
      t.scramble (key t) (o.hidden t)) s
    let s := act tids s
    let acted (v : View) : Bool := ((s.view? core v.th.ident.tid).map fun x => !x.th.untouched).getD true
    let cmds := (who.filter acted).flatMap fun v => o.spoils v.th
    let s := who.foldl (fun s v =>
      let old := v.th
      let restore (l : List Nat) (t : Thread) : Thread := { t with regs := l.foldl (fun l n => l.set n (old.regs.getD n Reg.z)) t.regs }
      s.onThread core old.ident.tid fun x => x.onTh fun t =>
        if t.untouched then restore (o.hidden old) t
        else
          let back := (o.hidden old).filter fun n => !(physOf (o.writes old)).contains n
          let t := if (o.hidden old).isEmpty then t else t.blur o (key t) old
          let t := (restore back t).spoil (key t) (o.spoils old) (physOf (o.writes old))
          { t with qm := t.qm.filter fun h => !o.awaits old h }) s
    -- the other lanes of the quarter
    if cmds.isEmpty then s
    else s.onCore core fun k => k.onCrew fun c => c.onThreads (fun t => !tids.contains t.ident.tid && !t.qm.isEmpty) fun v =>
      v.onTh fun t => t.spoil (key t) cmds []

/-- A thread that traps with others at a collective instruction notes them. -/
def Thread.noteTrap (t : Thread) (all : List (W32 × Nat)) : Thread :=
  { t with rejoin := { depth := t.depth + 1, pc := t.pc, mates := all.filter fun x => x.1 != t.ident.tid } :: t.rejoin }

/-- Carry out a split at the issuing core: `act` executes the instruction for the lanes that go on; then lanes park, are
held, or trap. -/
def State.applySplit (s : State) (o : Opnds) (sp : Split) (act : List W32 → State → State) : State :=
  let core := s.issue.core
  let depths : List (W32 × Nat) := sp.behind.filterMap fun x => (s.view? core x).map fun v => (x, v.th.depth + 1)
  let mk := s.mkRegs
  let s : State := if sp.go.isEmpty then s else s.actQm o act sp.go
  let s := sp.park.foldl (fun s x => s.setStatus core x.1 (.parked x.2)) s
  let s := sp.hold.foldl (fun s x => s.setStatus core x (.held depths)) s
  let s := if sp.rejoin then sp.behind.foldl (fun s x => s.onThread core x fun v => v.onTh fun t => t.noteTrap depths) s else s
  sp.traps.foldl (fun s g => s.takeTrap core g mk) s

/-- The verdicts of the run's lanes. -/
def State.verdicts (s : State) (f : View → Verdict) : List (Thread × Verdict) := s.run.map fun v => (v.th, f v)

/-- An instruction as the lanes of a run meet it: its operands, the verdict of a lane, and the effect on the lanes that
execute. -/
structure LaneForm where
  opn     : Opnds
  verdict : View → Verdict
  act     : List W32 → State → State

/-- The form whose verdict is that of its operands, then `chk`, the checks of its card. -/
def LaneForm.of (o : Opnds) (chk : View → Verdict) (act : List W32 → State → State) : LaneForm :=
  { opn := o, verdict := fun v => (o.verdict v).andThen (chk v), act }

/-- The same for an instruction whose effect `op` on a lane reaches that lane alone; `after` is what it does to what the
lanes share. -/
def LaneForm.thenDo (o : Opnds) (chk : View → Verdict) (op : View → View) (after : List W32 → State → State) : LaneForm :=
  .of o chk fun tids s => after tids (s.onTids s.issue.core tids fun v => op (o.noteUnseen v))

/-- An instruction of each lane alone. -/
def State.eachLane (s : State) (k : LaneForm) : State := s.applySplit k.opn (splitLanes (s.verdicts k.verdict)) k.act

/-- An instruction that its card says never parks: a lane whose requests are still to be performed stays at it, runnable, and the
instruction is issued again (R180, R219). (DEDUCED, log entry 11.) -/
def Split.still (sp : Split) : Split :=
  { sp with park := sp.park.filter fun x => match x.2 with | .order | .runOrder _ => false | _ => true }
def State.stillLanes (s : State) (k : LaneForm) : State := s.applySplit k.opn (splitLanes (s.verdicts k.verdict)).still k.act

/-- A collective instruction (R137). -/
def State.allLanes (s : State) (k : LaneForm) : State := s.applySplit k.opn (splitAll (s.verdicts k.verdict)) k.act

/-- An instruction of each lane alone that changes only its lane: `op` is its effect on one lane, its completion included. -/
def State.lanes (s : State) (o : Opnds) (chk : View → Verdict) (op : View → View) : State :=
  s.eachLane (.thenDo o chk op fun _ s => s)

/-- No check of the card's own. -/
def noCheck : View → Verdict := fun _ => .ok

/-- A 32-bit or wider result written at once, and completion. -/
def View.done (v : View) (len : W64) : View := v.onTh fun t => t.complete len

/-! ### Landing (R13, R69, R352) -/

/-- Write words to destinations, full and valid, with a mark. -/
def View.putMarked (v : View) (m : Mark) : List Dst → List W32 → View
  | d :: ds, x :: xs => (v.put d { Reg.of x with mark := m }).putMarked m ds xs
  | _, _ => v

/-- A result lands: its destinations become full, its flags are set, and a mark goes with it. -/
def View.land (v : View) (p : Pending) : View :=
  let v := match p.vals with
    | none => v
    | some xs => v.putMarked p.mark p.dst xs
  v.onTh fun t => { t with pending := t.pending.filter fun q => q.id != p.id,
                           ctl := { t.ctl with fpflags := t.ctl.fpflags ||| p.flags } }

/-- Fill the pending result `id` of a thread with words, at once. -/
def State.fill (s : State) (core : Nat) (tid : W32) (id : Nat) (xs : List W32) (mark : Mark := .clean) : State :=
  s.onThread core tid fun v =>
    match v.th.pending.find? fun p => p.id == id with
    | none => v
    | some p => v.land { p with vals := some xs, mark }

/-- Bind the value of the pending result `id`, which lands later. -/
def State.bind (s : State) (core : Nat) (tid : W32) (id : Nat) (xs : List W32) : State :=
  s.onThread core tid fun v => v.onTh fun t =>
    { t with pending := t.pending.map fun p => if p.id = id then { p with vals := some xs } else p }

/-! ### The state's own step counters -/

/-- The words of a list of bytes, least significant first. -/
def wordsOf (n v : Nat) : List W32 := (List.range n).map fun i => BitVec.ofNat 32 (v >>> (32 * i))

end Sys2Proof.Machine
end

