-- ==== Sys2Proof/Machine/Integer.lean ====
section
/-! DEFINITION. Integer, bit, selection and immediate instructions (R78 to R92, op 0x00 to 0x0E). -/

namespace Sys2Proof.Machine
open Sys2Proof

/-! ### Shared shapes -/

abbrev Result := Host.Outcome State Fault Refusal

def opn32 (o : R3) : Opnds := { srcs := [.r o.a o.f, .r o.b o.g], dsts := [⟨o.d, 1⟩] }
def opn64 (o : R3) : Opnds := { srcs := [.p o.a o.f, .p o.b o.g], dsts := [⟨o.d, 2⟩] }
/-- 64-bit sources and one register written (R83). -/
def opnSet64 (o : R3) : Opnds := { srcs := [.p o.a o.f, .p o.b o.g], dsts := [⟨o.d, 1⟩] }
/-- d is read as a third source and then written. -/
def opnTern (o : R3) : Opnds := { srcs := [.r o.a o.f, .r o.b o.g, .r o.d false], dsts := [⟨o.d, 1⟩] }
def opnUn (o : R2) : Opnds := { srcs := [.r o.a o.f], dsts := [⟨o.d, 1⟩] }

/-- d <- f(a, b) on 32 bits. -/
def alu32 (o : R3) (f : W32 → W32 → W32) (s : State) : Result :=
  .next (s.lanes (opn32 o) noCheck fun v => (v.wr32 o.d (f (v.rd32 o.a) (v.rd32 o.b))).done 4#64)
/-- d <- f(a, b) on pairs. -/
def alu64 (o : R3) (f : W64 → W64 → W64) (s : State) : Result :=
  .next (s.lanes (opn64 o) noCheck fun v => (v.wr64 o.d (f (v.rd64 o.a) (v.rd64 o.b))).done 4#64)
/-- d <- 1 or 0 from a comparison of pairs. -/
def set64 (o : R3) (f : W64 → W64 → Bool) (s : State) : Result :=
  .next (s.lanes (opnSet64 o) noCheck fun v =>
    (v.wr32 o.d (if f (v.rd64 o.a) (v.rd64 o.b) then 1#32 else 0#32)).done 4#64)
/-- d <- f(a, b, old d). -/
def tern32 (o : R3) (f : W32 → W32 → W32 → W32) (s : State) : Result :=
  .next (s.lanes (opnTern o) noCheck fun v =>
    (v.wr32 o.d (f (v.rd32 o.a) (v.rd32 o.b) (v.rd32 o.d))).done 4#64)
/-- d <- f(a). -/
def un32 (o : R2) (f : W32 → W32) (s : State) : Result :=
  .next (s.lanes (opnUn o) noCheck fun v => (v.wr32 o.d (f (v.rd32 o.a))).done 4#64)
/-- d <- f(a, b), long-latency (R79). -/
def div32 (o : R3) (f : W32 → W32 → W32) (s : State) : Result :=
  .next (s.lanes (opn32 o) noCheck fun v =>
    (v.produce .quiet [v.th.ref o.d 0] (some [f (v.rd32 o.a) (v.rd32 o.b)]) 0).done 4#64)
/-- d <- f(a) with an immediate, one register. -/
def imm32 (f : Bool) (d a : Fld) (len : W64) (g : W32 → W32) (s : State) : Result :=
  .next (s.lanes { srcs := [.r a f], dsts := [⟨d, 1⟩] } noCheck fun v => (v.wr32 d (g (v.rd32 a))).done len)
/-- d <- f(a) with an immediate, pairs. -/
def imm64 (f : Bool) (d a : Fld) (len : W64) (g : W64 → W64) (s : State) : Result :=
  .next (s.lanes { srcs := [.p a f], dsts := [⟨d, 2⟩] } noCheck fun v => (v.wr64 d (g (v.rd64 a))).done len)

def boolWord (b : Bool) : W32 := if b then 1#32 else 0#32

/-! ### ALU and ALU64 (R80) -/

/-- The shift amount b[4:0]. -/
def amt5 (b : W32) : Nat := bitsOf b 4 0
/-- The shift amount b[5:0] of the low word. -/
def amt6 (b : W64) : Nat := bitsOf b 5 0

def execAdd (o : R3) (s : State) : Result := alu32 o (fun a b => a + b) s
def execSub (o : R3) (s : State) : Result := alu32 o (fun a b => a - b) s
def execAnd (o : R3) (s : State) : Result := alu32 o (fun a b => a &&& b) s
def execOr (o : R3) (s : State) : Result := alu32 o (fun a b => a ||| b) s
def execXor (o : R3) (s : State) : Result := alu32 o (fun a b => a ^^^ b) s
def execShl (o : R3) (s : State) : Result := alu32 o (fun a b => a <<< amt5 b) s
def execShr (o : R3) (s : State) : Result := alu32 o (fun a b => a >>> amt5 b) s
def execSra (o : R3) (s : State) : Result := alu32 o (fun a b => a.sshiftRight (amt5 b)) s
def execAdd64 (o : R3) (s : State) : Result := alu64 o (fun a b => a + b) s
def execSub64 (o : R3) (s : State) : Result := alu64 o (fun a b => a - b) s
def execAnd64 (o : R3) (s : State) : Result := alu64 o (fun a b => a &&& b) s
def execOr64 (o : R3) (s : State) : Result := alu64 o (fun a b => a ||| b) s
def execXor64 (o : R3) (s : State) : Result := alu64 o (fun a b => a ^^^ b) s
def execShl64 (o : R3) (s : State) : Result := alu64 o (fun a b => a <<< amt6 b) s
def execShr64 (o : R3) (s : State) : Result := alu64 o (fun a b => a >>> amt6 b) s
def execSra64 (o : R3) (s : State) : Result := alu64 o (fun a b => a.sshiftRight (amt6 b)) s

/-! ### MULDIV (R81, R82) -/

/-- Bits [63:32] of a product of integers. -/
def highProduct (p : Int) : W32 := BitVec.ofInt 32 (p / 2 ^ 32)
/-- The quotient of DIV, truncated toward zero, with the cases of R82. -/
def divS (a b : W32) : W32 := if b = 0#32 then BitVec.allOnes 32 else BitVec.ofInt 32 (a.toInt.tdiv b.toInt)
def divU (a b : W32) : W32 := if b = 0#32 then BitVec.allOnes 32 else BitVec.ofNat 32 (a.toNat / b.toNat)
def remS (a b : W32) : W32 := if b = 0#32 then a else BitVec.ofInt 32 (a.toInt.tmod b.toInt)
def remU (a b : W32) : W32 := if b = 0#32 then a else BitVec.ofNat 32 (a.toNat % b.toNat)

def execMul (o : R3) (s : State) : Result := alu32 o (fun a b => a * b) s
def execMulh (o : R3) (s : State) : Result := alu32 o (fun a b => highProduct (a.toInt * b.toInt)) s
def execMulhu (o : R3) (s : State) : Result := alu32 o (fun a b => highProduct ((a.toNat * b.toNat : Nat) : Int)) s
def execMul64 (o : R3) (s : State) : Result := alu64 o (fun a b => a * b) s
def execDiv (o : R3) (s : State) : Result := div32 o divS s
def execDivu (o : R3) (s : State) : Result := div32 o divU s
def execRem (o : R3) (s : State) : Result := div32 o remS s
def execRemu (o : R3) (s : State) : Result := div32 o remU s

/-! ### CMP and CMP64 (R83) -/

def execSeq (o : R3) (s : State) : Result := alu32 o (fun a b => boolWord (a == b)) s
def execSne (o : R3) (s : State) : Result := alu32 o (fun a b => boolWord (a != b)) s
def execSlt (o : R3) (s : State) : Result := alu32 o (fun a b => boolWord (a.slt b)) s
def execSltu (o : R3) (s : State) : Result := alu32 o (fun a b => boolWord (a.ult b)) s
def execSle (o : R3) (s : State) : Result := alu32 o (fun a b => boolWord (a.sle b)) s
def execSleu (o : R3) (s : State) : Result := alu32 o (fun a b => boolWord (a.ule b)) s
def execMin (o : R3) (s : State) : Result := alu32 o (fun a b => if b.slt a then b else a) s
def execMax (o : R3) (s : State) : Result := alu32 o (fun a b => if a.slt b then b else a) s
def execSeq64 (o : R3) (s : State) : Result := set64 o (fun a b => a == b) s
def execSne64 (o : R3) (s : State) : Result := set64 o (fun a b => a != b) s
def execSlt64 (o : R3) (s : State) : Result := set64 o (fun a b => a.slt b) s
def execSltu64 (o : R3) (s : State) : Result := set64 o (fun a b => a.ult b) s
def execSle64 (o : R3) (s : State) : Result := set64 o (fun a b => a.sle b) s
def execSleu64 (o : R3) (s : State) : Result := set64 o (fun a b => a.ule b) s
def execMin64 (o : R3) (s : State) : Result := alu64 o (fun a b => if b.slt a then b else a) s
def execMax64 (o : R3) (s : State) : Result := alu64 o (fun a b => if a.slt b then b else a) s

/-! ### BITS (R84 to R86) -/

/-- The number of 1 bits. -/
def popCount (a : W32) : Nat := ((List.range 32).filter a.getLsbD).length
/-- The number of leading 0 bits; 32 for 0. -/
def leadZeros (a : W32) : Nat := if a = 0#32 then 32 else 31 - a.toNat.log2
/-- The number of trailing 0 bits; 32 for 0. -/
def trailZeros (a : W32) : Nat := ((List.range 32).find? a.getLsbD).getD 32

/-- L of R85: the field's length, clipped at bit 31. -/
def fieldLen (b : W32) : Nat := min (bitsOf b 13 8) (32 - bitsOf b 4 0)
def fieldMask (b : W32) : W32 := BitVec.ofNat 32 (2 ^ fieldLen b - 1)
def bfx (a b : W32) : W32 :=
  let l := fieldLen b
  let v := (a >>> bitsOf b 4 0) &&& fieldMask b
  if b.getLsbD 16 && decide (0 < l) && v.getLsbD (l - 1) then v ||| ~~~fieldMask b else v
def bfi (a b d : W32) : W32 :=
  (d &&& ~~~(fieldMask b <<< bitsOf b 4 0)) ||| ((a &&& fieldMask b) <<< bitsOf b 4 0)

/-- Byte j of PRMT's result (R86). -/
def prmtByte (a b d : W32) (j : Nat) : Byte :=
  let sel := b.extractLsb' (8 * j) 8
  let src : Byte := (d ++ a).extractLsb' (8 * bitsOf sel 2 0) 8
  let x : Byte := match bitsOf sel 4 3 with
    | 0 => src | 1 => src.reverse | 2 => 0x00#8 | _ => 0xFF#8
  if sel.getLsbD 5 then ~~~x else x
def prmt (a b d : W32) : W32 := prmtByte a b d 3 ++ prmtByte a b d 2 ++ prmtByte a b d 1 ++ prmtByte a b d 0

def execPopc (o : R2) (s : State) : Result := un32 o (fun a => BitVec.ofNat 32 (popCount a)) s
def execClz (o : R2) (s : State) : Result := un32 o (fun a => BitVec.ofNat 32 (leadZeros a)) s
def execCtz (o : R2) (s : State) : Result := un32 o (fun a => BitVec.ofNat 32 (trailZeros a)) s
def execBrev (o : R2) (s : State) : Result := un32 o (fun a => a.reverse) s
def execBfx (o : R3) (s : State) : Result := alu32 o bfx s
def execBfi (o : R3) (s : State) : Result := tern32 o bfi s
def execPrmt (o : R3) (s : State) : Result := tern32 o prmt s
def execAndn (o : R3) (s : State) : Result := alu32 o (fun a b => a &&& ~~~b) s

/-! ### MISC (R87, R88) -/

/-- Element j of a ternary byte (R59, R88), as a byte. -/
def trit (t j : Nat) : Byte := if t ≤ 242 then BitVec.ofInt 8 ((t / 3 ^ j % 3 : Nat) - 1) else 0#8
def unpackTrits (a : W32) : W64 :=
  let t := bitsOf a 7 0
  0#24 ++ trit t 4 ++ trit t 3 ++ trit t 2 ++ trit t 1 ++ trit t 0

def execSel (o : R3) (s : State) : Result := tern32 o (fun a b d => if d ≠ 0#32 then a else b) s
def execAbs (o : R2) (s : State) : Result := un32 o (fun a => if a.getLsbD 31 then -a else a) s
def execNeg (o : R2) (s : State) : Result := un32 o (fun a => -a) s
def execSext8 (o : R2) (s : State) : Result := un32 o (fun a => (a.setWidth 8).signExtend 32) s
def execSext16 (o : R2) (s : State) : Result := un32 o (fun a => (a.setWidth 16).signExtend 32) s
def execZext8 (o : R2) (s : State) : Result := un32 o (fun a => (a.setWidth 8).setWidth 32) s
def execZext16 (o : R2) (s : State) : Result := un32 o (fun a => (a.setWidth 16).setWidth 32) s
/-- UNPT sets TRIT for a byte from 243 to 255 (R59, R88). -/
def execUnpt (o : R2) (s : State) : Result :=
  .next (s.lanes { srcs := [.r o.a o.f], dsts := [⟨o.d, 2⟩] } noCheck fun v =>
    let a := v.rd32 o.a
    let v := v.wr64 o.d (unpackTrits a)
    (if bitsOf a 7 0 > 242 then v.onTh (·.flag FFlags.trit) else v).done 4#64)

/-! ### Immediate forms (R89 to R92) -/

/-- imm() of an 11-bit field, sign-extended. -/
def sext11 (i : BitVec 11) : W64 := i.signExtend 64
/-- imm() of an 11-bit field behind an X word: 37 bits, sign-extended (R35). -/
def imm37 (x : BitVec 26) (i : BitVec 11) : W64 := (x ++ i).signExtend 64

def execAddi (o : I2) (s : State) : Result := imm32 o.f o.d o.a 4#64 (fun a => a + lo32 (sext11 o.i)) s
def execAddi64 (o : I2) (s : State) : Result := imm64 o.f o.d o.a 4#64 (fun a => a + sext11 o.i) s
def execAndi (o : I2) (s : State) : Result := imm32 o.f o.d o.a 4#64 (fun a => a &&& o.i.setWidth 32) s
def execOri (o : I2) (s : State) : Result := imm32 o.f o.d o.a 4#64 (fun a => a ||| o.i.setWidth 32) s
def execXori (o : I2) (s : State) : Result := imm32 o.f o.d o.a 4#64 (fun a => a ^^^ o.i.setWidth 32) s
def execAddiX (x : BitVec 26) (o : I2) (s : State) : Result :=
  imm32 o.f o.d o.a 8#64 (fun a => a + lo32 (imm37 x o.i)) s
def execAddi64X (x : BitVec 26) (o : I2) (s : State) : Result := imm64 o.f o.d o.a 8#64 (fun a => a + imm37 x o.i) s
def execAndiX (x : BitVec 26) (o : I2) (s : State) : Result :=
  imm32 o.f o.d o.a 8#64 (fun a => a &&& lo32 (imm37 x o.i)) s
def execOriX (x : BitVec 26) (o : I2) (s : State) : Result :=
  imm32 o.f o.d o.a 8#64 (fun a => a ||| lo32 (imm37 x o.i)) s
def execXoriX (x : BitVec 26) (o : I2) (s : State) : Result :=
  imm32 o.f o.d o.a 8#64 (fun a => a ^^^ lo32 (imm37 x o.i)) s

def execShli (o : Sh5) (s : State) : Result := imm32 o.f o.d o.a 4#64 (fun a => a <<< o.n.toNat) s
def execShri (o : Sh5) (s : State) : Result := imm32 o.f o.d o.a 4#64 (fun a => a >>> o.n.toNat) s
def execSrai (o : Sh5) (s : State) : Result := imm32 o.f o.d o.a 4#64 (fun a => a.sshiftRight o.n.toNat) s
def execRori (o : Sh5) (s : State) : Result := imm32 o.f o.d o.a 4#64 (fun a => a.rotateRight o.n.toNat) s
def execShli64 (o : Sh6) (s : State) : Result := imm64 o.f o.d o.a 4#64 (fun a => a <<< o.n.toNat) s
def execShri64 (o : Sh6) (s : State) : Result := imm64 o.f o.d o.a 4#64 (fun a => a >>> o.n.toNat) s
def execSrai64 (o : Sh6) (s : State) : Result := imm64 o.f o.d o.a 4#64 (fun a => a.sshiftRight o.n.toNat) s
def execRori64 (o : Sh6) (s : State) : Result := imm64 o.f o.d o.a 4#64 (fun a => a.rotateRight o.n.toNat) s

/-- LI writes an immediate to one register. -/
def loadImm32 (d : Fld) (x : W64) (len : W64) (s : State) : Result :=
  .next (s.lanes { dsts := [⟨d, 1⟩] } noCheck fun v => (v.wr32 d (lo32 x)).done len)
/-- LI.64 writes an immediate to a pair. -/
def loadImm64 (d : Fld) (x : W64) (len : W64) (s : State) : Result :=
  .next (s.lanes { dsts := [⟨d, 2⟩] } noCheck fun v => (v.wr64 d x).done len)

def execLi (o : LiOp) (s : State) : Result := loadImm32 o.d (sext11 o.i) 4#64 s
def execLi64 (o : LiOp) (s : State) : Result := loadImm64 o.d (sext11 o.i) 4#64 s
def execLiX (x : BitVec 26) (o : LiOp) (s : State) : Result := loadImm32 o.d (imm37 x o.i) 8#64 s
def execLi64X (x : BitVec 26) (o : LiOp) (s : State) : Result := loadImm64 o.d (imm37 x o.i) 8#64 s

/-- LEA: a + (b << m), m from 0 to 7 (R92). -/
def execLea (o : RR3) (s : State) : Result :=
  .next (s.lanes { srcs := [.r o.a o.f, .r o.b o.g], dsts := [⟨o.d, 1⟩] } noCheck fun v =>
    (v.wr32 o.d (v.rd32 o.a + (v.rd32 o.b <<< o.r.toNat))).done 4#64)

end Sys2Proof.Machine
end

