-- ==== Sys2Proof/Machine/Sfu.lean ====
section
/-! DEFINITION. The special functions of R117 and R118, correctly rounded. Each value is formed with 640 bits after the
point, far more than the distance of any result from a rounding boundary, and a last bit stands for what lies below. -/

namespace Sys2Proof.Machine
open Sys2Proof

/-- pi and ln 2 with 1,024 bits after the point, truncated. -/
def piFix : Nat := 0x3243F6A8885A308D313198A2E03707344A4093822299F31D0082EFA98EC4E6C89452821E638D01377BE5466CF34E90C6CC0AC29B7C97C50DD3F84D5B5B54709179216D5D98979FB1BD1310BA698DFB5AC2FFD72DBD01ADFB7B8E1AFED6A267E96BA7C9045F12C7F9924A19947B3916CF70801F2E2858EFC16636920D871574E69
def ln2Fix : Nat := 0xB17217F7D1CF79ABC9E3B39803F2F6AF40F343267298B62D8A0D175B8BAAFA2BE7B876206DEBAC98559552FB4AFA1B10ED2EAE35C138214427573B291169B8253E96CA16224AE8C51ACBDA11317C387EB9EA9BC3B136603B256FA0EC7657F74B72CE87B19D6548CAF5DFA6BD38303248655FA1872F20E3A2DA2D97C50F3FD5C6

/-- The bits after the point that the series carry. -/
def fixBits : Nat := 640

/-- The integer square root, one bit at a time from bit n - 1 down. -/
def isqrtFrom (x : Nat) : Nat → Nat → Nat
  | 0, r => r
  | n + 1, r => let c := r + 2 ^ n; isqrtFrom x n (if c * c ≤ x then c else r)
def isqrt (x : Nat) : Nat := isqrtFrom x (x.log2 / 2 + 1) 0

/-- m * 2^e with a sticky bit below it. -/
def sticky (s : Bool) (m : Nat) (e : Int) (more : Bool) : FVal :=
  if m = 0 ∧ !more then .zero s else .fin s (2 * m + (if more then 1 else 0)) (e - 1)

/-- exp(z) for a fixed-point z: 1 + z/1 (1 + z/2 (1 + z/3 ...)). -/
def expFrom (z : Nat) : Nat → Nat → Nat
  | 0, acc => acc
  | k + 1, acc => expFrom z k (2 ^ fixBits + z * acc / 2 ^ fixBits / (k + 1))
def expFix (z : Nat) : Nat := expFrom z 140 (2 ^ fixBits)

/-- sin(x) / x and cos(x) from y = x * x in fixed point. -/
def sinFrom (y : Nat) : Nat → Nat → Nat
  | 0, acc => acc
  | k + 1, acc => sinFrom y k (2 ^ fixBits - y * acc / 2 ^ fixBits / ((2 * k + 2) * (2 * k + 3)))
def cosFrom (y : Nat) : Nat → Nat → Nat
  | 0, acc => acc
  | k + 1, acc => cosFrom y k (2 ^ fixBits - y * acc / 2 ^ fixBits / ((2 * k + 1) * (2 * k + 2)))
def sinFix (x : Nat) : Nat := x * sinFrom (x * x / 2 ^ fixBits) 70 (2 ^ fixBits) / 2 ^ fixBits
def cosFix (x : Nat) : Nat := cosFrom (x * x / 2 ^ fixBits) 70 (2 ^ fixBits)

/-- atanh(z) / z from y = z * z in fixed point: 1/1 + y (1/3 + y (1/5 + ...)). -/
def atanhFrom (y : Nat) : Nat → Nat → Nat
  | 0, acc => acc
  | k + 1, acc => atanhFrom y k (2 ^ fixBits / (2 * k + 1) + y * acc / 2 ^ fixBits)
/-- log2 of f with 1 ≤ f < 2, both in fixed point. -/
def log2Fix (f : Nat) : Nat :=
  let one := 2 ^ fixBits
  let z := (f - one) * one / (f + one)
  let ln := 2 * (z * atanhFrom (z * z / one) 220 0 / one)
  ln * one / (ln2Fix / 2 ^ (1024 - fixBits))

/-- 1 / x. -/
def rcpVal : FVal → FVal × FFlags
  | .nan b => (.nan b, nvIf b)
  | .zero s => (.inf s, FFlags.dz)
  | .inf s => (.zero s, 0)
  | .fin s m e =>
    let k := m.log2 + 64
    (sticky s (2 ^ k / m) (-(k : Int) - e) (2 ^ k % m != 0), 0)

/-- m * 2^e with an even exponent. -/
def evenExp (m : Nat) (e : Int) : Nat × Int := if e % 2 = 0 then (m, e) else (2 * m, e - 1)

/-- The square root. -/
def sqrtVal : FVal → FVal × FFlags
  | .nan b => (.nan b, nvIf b)
  | .zero s => (.zero s, 0)
  | .inf s => if s then (.nan false, FFlags.nv) else (.inf false, 0)
  | .fin s m e =>
    if s then (.nan false, FFlags.nv)
    else
      let (m, e) := evenExp m e
      let x := m * 2 ^ 128
      let r := isqrt x
      (sticky false r (e / 2 - 64) (r * r != x), 0)

/-- 1 / the square root. -/
def rsqVal : FVal → FVal × FFlags
  | .nan b => (.nan b, nvIf b)
  | .zero s => (.inf s, FFlags.dz)
  | .inf s => if s then (.nan false, FFlags.nv) else (.zero false, 0)
  | .fin s m e =>
    if s then (.nan false, FFlags.nv)
    else
      let (m, e) := evenExp m e
      let k := m.log2 + 64
      let r := isqrt (2 ^ (2 * k) / m)
      (sticky false r (-(k : Int) - e / 2) (r * r * m != 2 ^ (2 * k)), 0)

/-- (-1)^s * m * 2^e as a fixed-point magnitude, truncated. (DEDUCED, log entry 60.) -/
def toFix (m : Nat) (e : Int) : Nat :=
  let k := e + fixBits
  if 0 ≤ k then m * 2 ^ k.toNat else m / 2 ^ (-k).toNat

/-- 2^x. Beyond 2^9 the result overflows or vanishes whatever the fraction. -/
def ex2Val : FVal → FVal × FFlags
  | .nan b => (.nan b, nvIf b)
  | .zero _ => (.fin false 1 0, 0)
  | .inf s => (if s then .zero false else .inf false, 0)
  | .fin s m e =>
    if e + m.log2 ≥ 9 then (.fin false 3 (if s then -2000 else 2000), 0)
    else
      let x := toFix m e
      let n : Int := (x / 2 ^ fixBits : Nat)
      let f := x % 2 ^ fixBits
      if f = 0 then (.fin false 1 (if s then -n else n), 0)
      else
        let (n, f) := if s then (-n - 1, 2 ^ fixBits - f) else (n, f)
        (sticky false (expFix (f * (ln2Fix / 2 ^ (1024 - fixBits)) / 2 ^ fixBits)) (n - fixBits) true, 0)

/-- log2 x. -/
def lg2Val : FVal → FVal × FFlags
  | .nan b => (.nan b, nvIf b)
  | .zero _ => (.inf true, FFlags.dz)
  | .inf s => if s then (.nan false, FFlags.nv) else (.inf false, 0)
  | .fin s m e =>
    if s then (.nan false, FFlags.nv)
    else
      let n : Int := e + m.log2
      if m = 2 ^ m.log2 then (FVal.ofInt n, 0)
      else
        let l := log2Fix (m * 2 ^ (fixBits - m.log2))
        let v : Int := n * 2 ^ fixBits + l
        (sticky (v < 0) (if v < 0 then v.natAbs - 1 else v.natAbs) (-fixBits) true, 0)

/-- cos of q quarter turns and an angle r in [0, pi/2], as sign and magnitude in fixed point. -/
def cosQuarter (q r : Nat) : Bool × Nat :=
  match q % 4 with
  | 0 => (false, cosFix r)
  | 1 => (true, sinFix r)
  | 2 => (true, cosFix r)
  | _ => (false, sinFix r)

/-- The quarter turns and the remaining angle of |x| = m * 2^e (with 1,024-bit pi). -/
def quarterTurns (m : Nat) (e : Int) : Nat × Nat :=
  let x := if 0 ≤ e + 1024 then m * 2 ^ (e + 1024).toNat else m / 2 ^ (-(e + 1024)).toNat
  let half := piFix / 2
  (x / half, x % half / 2 ^ (1024 - fixBits))

/-- sin x. The spec gives no sign to sin of a zero: it is that of the zero. (DESIGN CHOICE, log entry 91.) -/
def sinVal : FVal → FVal × FFlags
  | .nan b => (.nan b, nvIf b)
  | .zero s => (.zero s, 0)
  | .inf _ => (.nan false, FFlags.nv)
  | .fin s m e =>
    let (q, r) := quarterTurns m e
    let (g, v) := cosQuarter (q + 3) r
    (sticky (s != g) v (-fixBits) true, 0)

/-- cos x. -/
def cosVal : FVal → FVal × FFlags
  | .nan b => (.nan b, nvIf b)
  | .zero _ => (.fin false 1 0, 0)
  | .inf _ => (.nan false, FFlags.nv)
  | .fin _ m e =>
    let (q, r) := quarterTurns m e
    let (g, v) := cosQuarter q r
    -- 1 is approached from below
    (sticky g (if v = 2 ^ fixBits then v - 1 else v) (-fixBits) true, 0)

/-- tanh x = (E - 1) / (E + 1) with E = exp(2x). Beyond 2^8 it lies within 2^-600 of 1. The spec
gives no sign to tanh of a zero: it is that of the zero. (DESIGN CHOICE, log entry 91.) -/
def tanhVal : FVal → FVal × FFlags
  | .nan b => (.nan b, nvIf b)
  | .zero s => (.zero s, 0)
  | .inf s => (.fin s 1 0, 0)
  | .fin s m e =>
    if e + m.log2 ≥ 8 then (sticky s (2 ^ fixBits - 1) (-fixBits) true, 0)
    else
      let one := 2 ^ fixBits
      let x := 2 * toFix m e
      let ln2 := ln2Fix / 2 ^ (1024 - fixBits)
      let n := x / ln2
      let ex := expFix (x % ln2) * 2 ^ n
      (sticky s ((ex - one) * one / (ex + one)) (-fixBits) true, 0)

/-- A special function on FP32 encodings: the correctly rounded result and its flags (R117). (DEDUCED, log entry 60.) -/
def sfu32 (f : FVal → FVal × FFlags) (x : W32) : W32 × FFlags :=
  let (v, fl) := f (Fmt.f32.decode x.toNat)
  let (b, fr) := roundTo .f32 .rn 0 v
  (enc32 b, fl ||| fr)

/-- cos(2 pi k / 2^24), rounded to FP32 (R127). The spec gives no sign to a cosine that is exactly 0: it is +0. (DESIGN CHOICE, log entry
95.) -/
def cosTurn (k : Nat) : FVal :=
  let q := k / 2 ^ 22
  let r := k % 2 ^ 22
  if r = 0 then
    match q % 4 with
    | 0 => .fin false 1 0 | 2 => .fin true 1 0 | _ => .zero false
  else
    let (g, v) := cosQuarter q (r * (piFix / 2) / 2 ^ 22 / 2 ^ (1024 - fixBits))
    sticky g v (-fixBits) true

end Sys2Proof.Machine
end

