-- ==== Sys2Proof/Machine/Random.lean ====
section
/-! DEFINITION. The random streams and the RNG instructions (R122 to R128). -/

namespace Sys2Proof.Machine
open Sys2Proof

/-- The four counter words of Philox. -/
structure Philox where
  c0 : W32
  c1 : W32
  c2 : W32
  c3 : W32
  deriving DecidableEq, Repr

/-- The 64-bit product of two words. -/
def mulWide (a b : W32) : W64 := a.setWidth 64 * b.setWidth 64

/-- One round (R122). -/
def Philox.round (p : Philox) (k0 k1 : W32) : Philox :=
  let p0 := mulWide 0xD2511F53#32 p.c0
  let p1 := mulWide 0xCD9E8D57#32 p.c2
  { c0 := hi32 p1 ^^^ p.c1 ^^^ k0, c1 := lo32 p1, c2 := hi32 p0 ^^^ p.c3 ^^^ k1, c3 := lo32 p0 }

/-- n rounds; the key steps between two rounds. -/
def Philox.rounds (k0 k1 : W32) : Nat → Philox → Philox
  | 0, p => p
  | n + 1, p => Philox.rounds (k0 + 0x9E3779B9#32) (k1 + 0xBB67AE85#32) n (p.round k0 k1)

/-- The word that stream `s` (0 data, 1 rounding) of a thread returns at draw `n` (R123). -/
def Thread.drawAt (t : Thread) (s : Nat) (n : W32) : W32 :=
  let p := Philox.rounds t.str.seedLo t.str.seedHi 10
    { c0 := BitVec.ofNat 32 (2 * (n.toNat / 4) + s), c1 := t.str.step, c2 := t.str.episode, c3 := t.ident.envid }
  match n.toNat % 4 with
  | 0 => p.c0 | 1 => p.c1 | 2 => p.c2 | _ => p.c3

/-- draw_data(). -/
def Thread.drawData (t : Thread) : W32 × Thread :=
  (t.drawAt 0 t.str.rngd, { t with str := { t.str with rngd := t.str.rngd + 1#32 } })
/-- draw_round(). -/
def Thread.drawRound (t : Thread) : W32 × Thread :=
  (t.drawAt 1 t.str.rngr, { t with str := { t.str with rngr := t.str.rngr + 1#32 } })
/-- The low 24 bits of the draw that an element rounded under .sr consumes (R66, R67); no draw under another mode. -/
def Thread.roundDraw (t : Thread) (mode : Rnd) : Nat × Thread :=
  if mode = .sr then
    let (w, t) := t.drawRound
    (bitsOf w 23 0, t)
  else (0, t)

/-! ### RNG (R125 to R127) -/

/-- (w[31:8] + 1) * 2^-24 (R126). -/
def unitOpen (w : W32) : FVal := .fin false (bitsOf w 31 8 + 1) (-24)

/-- RANDN's value from its two draws (R127), each step rounded to FP32. -/
def normalFrom (w1 w2 : W32) : W32 :=
  let r32 (v : FVal) : FVal := Fmt.f32.decode (roundTo .f32 .rn 0 v).1
  let l := r32 (lg2Val (unitOpen w1)).1
  let q := r32 (l.mul (Fmt.f32.decode 0xBFB17218)).1
  let r := r32 (sqrtVal q).1
  let c := r32 (cosTurn (bitsOf w2 31 8))
  enc32 (roundTo .f32 .rn 0 (r.mul c).1).1

/-- A 32-bit result that lands later (R13) and sets no flag (R125). -/
def View.later32 (v : View) (d : Fld) (x : W32) : View := v.produce .quiet [v.th.ref d 0] (some [x]) 0

/-- Run `f` on the thread of a view, and keep what it returns. -/
def View.through {α : Type} (v : View) (f : Thread → α × Thread) : α × View :=
  let (x, t) := f v.th
  (x, { v with th := t })

def execRand (o : RD) (s : State) : Result :=
  .next (s.lanes { dsts := [⟨o.d, 1⟩] } noCheck fun v =>
    let (w, v) := v.through Thread.drawData
    (v.later32 o.d w).done 4#64)

def execRandu (o : RD) (s : State) : Result :=
  .next (s.lanes { dsts := [⟨o.d, 1⟩] } noCheck fun v =>
    let (w, v) := v.through Thread.drawData
    (v.later32 o.d (enc32 (roundTo .f32 .rn 0 (unitOpen w)).1)).done 4#64)

def execRandn (o : RD) (s : State) : Result :=
  .next (s.lanes { dsts := [⟨o.d, 1⟩] } noCheck fun v =>
    let (w1, v) := v.through Thread.drawData
    let (w2, v) := v.through Thread.drawData
    (v.later32 o.d (normalFrom w1 w2)).done 4#64)

def execRskip (o : RAB) (s : State) : Result :=
  .next (s.lanes { srcs := [.r o.a o.f, .r o.b o.g] } noCheck fun v =>
    (v.onTh fun t => { t with str := { t.str with rngd := t.str.rngd + v.rd32 o.a, rngr := t.str.rngr + v.rd32 o.b } }).done 4#64)

def execRsel (o : R2) (s : State) : Result :=
  .next (s.lanes (opnUn o) noCheck fun v =>
    let (w, v) := v.through Thread.drawData
    (v.later32 o.d (hi32 (mulWide w (v.rd32 o.a)))).done 4#64)

def execEpreset (s : State) : Result :=
  .next (s.lanes {} noCheck fun v => (v.onTh fun t =>
    { t with str := { t.str with episode := t.str.episode + 1#32, step := 0#32, rngd := 0#32, rngr := 0#32 } }).done 4#64)

def execEpstep (s : State) : Result :=
  .next (s.lanes {} noCheck fun v =>
    (v.onTh fun t => { t with str := { t.str with step := t.str.step + 1#32 } }).done 4#64)

/-- RPEEK: the word that stream b[0] would return at draw (counter + a); no counter changes. -/
def execRpeek (o : R3) (s : State) : Result :=
  .next (s.lanes (opn32 o) noCheck fun v =>
    let x := v.rd32 o.a
    let w := if (v.rd32 o.b).getLsbD 0 then v.th.drawAt 1 (v.th.str.rngr + x) else v.th.drawAt 0 (v.th.str.rngd + x)
    (v.later32 o.d w).done 4#64)

end Sys2Proof.Machine
end

