-- ==== Sys2Proof/Machine/Float.lean ====
section
/-! DEFINITION. Floating-point arithmetic, comparison and special functions (R107 to R111, R117, R118, op 0x0F to 0x1F and
0x21). -/

namespace Sys2Proof.Machine
open Sys2Proof

/-- An operation on decoded elements that rounds once. -/
abbrev FOp := Fmt → Rnd → Nat → FVal → FVal → FVal → Nat × FFlags

def opFadd : FOp := fun fm m r x y _ => fAdd fm m r x y
def opFsub : FOp := fun fm m r x y _ => fAdd fm m r x y.neg
def opFmul : FOp := fun fm m r x y _ => fMul fm m r x y
def opFfma : FOp := fun fm m r x y z => fFma fm m r x y z

/-- The elements of a packed operation, element 0 first, each with its own draw under .sr (R67, R108): the encodings joined,
the OR of the flags, and the thread after its draws. -/
def roundElems (fm : Fmt) (mode : Rnd) (f : FOp) (x y z : Nat) : Nat → Thread → Nat × FFlags × Thread
  | 0, t => (0, 0, t)
  | n + 1, t =>
    let k := 2 ^ fm.width
    let (r, t) := t.roundDraw mode
    let (b, fl) := f fm mode r (fm.decode (x % k)) (fm.decode (y % k)) (fm.decode (z % k))
    let (hi, fl', t) := roundElems fm mode f (x / k) (y / k) (z / k) n t
    (b + k * hi, fl ||| fl', t)

/-- One or two elements in 32-bit operands; `acc` reads d as a third source (R105, R107, R108). -/
def fp32 (o : RR3) (fm : Fmt) (n : Nat) (acc : Bool) (f : FOp) (s : State) : Result :=
  .next (s.lanes { srcs := [.r o.a o.f, .r o.b o.g] ++ (if acc then [.r o.d false] else []), dsts := [⟨o.d, 1⟩] } noCheck
    fun v =>
      let z := if acc then (v.rd32 o.d).toNat else 0
      let ((b, fl), v) := v.through fun t =>
        let (b, fl, t) := roundElems fm (t.rnd o.r) f (v.rd32 o.a).toNat (v.rd32 o.b).toNat z n t
        ((b, fl), t)
      ((v.wr32 o.d (enc32 b)).onTh (·.flag fl)).done 4#64)

/-- One FP64 element in pairs. -/
def fp64 (o : RR3) (acc : Bool) (f : FOp) (s : State) : Result :=
  .next (s.lanes { srcs := [.p o.a o.f, .p o.b o.g] ++ (if acc then [.p o.d false] else []), dsts := [⟨o.d, 2⟩] } noCheck
    fun v =>
      let z := if acc then (v.rd64 o.d).toNat else 0
      let ((b, fl), v) := v.through fun t =>
        let (b, fl, t) := roundElems .f64 (t.rnd o.r) f (v.rd64 o.a).toNat (v.rd64 o.b).toNat z 1 t
        ((b, fl), t)
      ((v.wr64 o.d (BitVec.ofNat 64 b)).onTh (·.flag fl)).done 4#64)

def execFadd32 (o : RR3) (s : State) : Result := fp32 o .f32 1 false opFadd s
def execFsub32 (o : RR3) (s : State) : Result := fp32 o .f32 1 false opFsub s
def execFmul32 (o : RR3) (s : State) : Result := fp32 o .f32 1 false opFmul s
def execFfma32 (o : RR3) (s : State) : Result := fp32 o .f32 1 true opFfma s
def execFadd64 (o : RR3) (s : State) : Result := fp64 o false opFadd s
def execFsub64 (o : RR3) (s : State) : Result := fp64 o false opFsub s
def execFmul64 (o : RR3) (s : State) : Result := fp64 o false opFmul s
def execFfma64 (o : RR3) (s : State) : Result := fp64 o true opFfma s
def execHadd2 (o : RR3) (s : State) : Result := fp32 o .f16 2 false opFadd s
def execHmul2 (o : RR3) (s : State) : Result := fp32 o .f16 2 false opFmul s
def execHfma2 (o : RR3) (s : State) : Result := fp32 o .f16 2 true opFfma s
def execBadd2 (o : RR3) (s : State) : Result := fp32 o .bf16 2 false opFadd s
def execBmul2 (o : RR3) (s : State) : Result := fp32 o .bf16 2 false opFmul s
def execBfma2 (o : RR3) (s : State) : Result := fp32 o .bf16 2 true opFfma s

/-! ### FCMP and HCMP2 (R109 to R111) -/

/-- NV for a signalling operand, and for any NaN. -/
def nvSig (x y : FVal) : FFlags := nvIf (x.isSig || y.isSig)
def nvNan (x y : FVal) : FFlags := nvIf (x.isNan || y.isNan)

/-- A comparison of two encodings: whether it holds, and its flags. -/
abbrev FRel := FVal → FVal → Bool × FFlags
def relFeq : FRel := fun x y => (x.eqv y, nvSig x y)
def relFlt : FRel := fun x y => (x.lt y, nvNan x y)
def relFle : FRel := fun x y => (x.le y, nvNan x y)
def relFunord : FRel := fun x y => (x.isNan || y.isNan, nvSig x y)

/-- The class mask of an encoding (R110). -/
def fclass (fm : Fmt) (x : Nat) : W32 :=
  let sub := x / 2 ^ fm.f % 2 ^ fm.e = 0
  let i := match fm.decode x with
    | .nan sig => if sig then 8 else 9
    | .inf s => if s then 0 else 7
    | .zero s => if s then 3 else 4
    | .fin s _ _ => if s then (if sub then 2 else 1) else (if sub then 5 else 6)
  BitVec.ofNat 32 (2 ^ i)

def fcmp32 (o : R3) (f : FRel) (s : State) : Result :=
  .next (s.lanes (opn32 o) noCheck fun v =>
    let (b, fl) := f (Fmt.f32.decode (v.rd32 o.a).toNat) (Fmt.f32.decode (v.rd32 o.b).toNat)
    ((v.wr32 o.d (boolWord b)).onTh (·.flag fl)).done 4#64)
def fcmp64 (o : R3) (f : FRel) (s : State) : Result :=
  .next (s.lanes (opnSet64 o) noCheck fun v =>
    let (b, fl) := f (Fmt.f64.decode (v.rd64 o.a).toNat) (Fmt.f64.decode (v.rd64 o.b).toNat)
    ((v.wr32 o.d (boolWord b)).onTh (·.flag fl)).done 4#64)
def fsel32 (o : R3) (big : Bool) (s : State) : Result :=
  .next (s.lanes (opn32 o) noCheck fun v =>
    let x := (v.rd32 o.a).toNat
    let y := (v.rd32 o.b).toNat
    ((v.wr32 o.d (enc32 (fminmax .f32 big x y))).onTh (·.flag (nvSig (Fmt.f32.decode x) (Fmt.f32.decode y)))).done 4#64)
def fsel64 (o : R3) (big : Bool) (s : State) : Result :=
  .next (s.lanes (opn64 o) noCheck fun v =>
    let x := (v.rd64 o.a).toNat
    let y := (v.rd64 o.b).toNat
    ((v.wr64 o.d (BitVec.ofNat 64 (fminmax .f64 big x y))).onTh
      (·.flag (nvSig (Fmt.f64.decode x) (Fmt.f64.decode y)))).done 4#64)

def execFeq (o : R3) (s : State) : Result := fcmp32 o relFeq s
def execFlt (o : R3) (s : State) : Result := fcmp32 o relFlt s
def execFle (o : R3) (s : State) : Result := fcmp32 o relFle s
def execFunord (o : R3) (s : State) : Result := fcmp32 o relFunord s
def execFmin (o : R3) (s : State) : Result := fsel32 o false s
def execFmax (o : R3) (s : State) : Result := fsel32 o true s
def execFclass (o : R2) (s : State) : Result := un32 o (fun a => fclass .f32 a.toNat) s
def execFsgnj (o : R3) (s : State) : Result :=
  alu32 o (fun a b => (a &&& 0x7FFFFFFF#32) ||| (b &&& 0x80000000#32)) s
def execFeq64 (o : R3) (s : State) : Result := fcmp64 o relFeq s
def execFlt64 (o : R3) (s : State) : Result := fcmp64 o relFlt s
def execFle64 (o : R3) (s : State) : Result := fcmp64 o relFle s
def execFunord64 (o : R3) (s : State) : Result := fcmp64 o relFunord s
def execFmin64 (o : R3) (s : State) : Result := fsel64 o false s
def execFmax64 (o : R3) (s : State) : Result := fsel64 o true s
def execFclass64 (o : R2) (s : State) : Result :=
  .next (s.lanes { srcs := [.p o.a o.f], dsts := [⟨o.d, 1⟩] } noCheck fun v =>
    (v.wr32 o.d (fclass .f64 (v.rd64 o.a).toNat)).done 4#64)
def execFsgnj64 (o : R3) (s : State) : Result :=
  alu64 o (fun a b => (a &&& 0x7FFFFFFFFFFFFFFF#64) ||| (b &&& 0x8000000000000000#64)) s

/-- Both elements of a packed comparison (R111). -/
def packed2 (o : R3) (fm : Fmt) (f : Nat → Nat → Nat × FFlags) (s : State) : Result :=
  .next (s.lanes (opn32 o) noCheck fun v =>
    let x := (v.rd32 o.a).toNat
    let y := (v.rd32 o.b).toNat
    let k := 2 ^ fm.width
    let (b0, f0) := f (x % k) (y % k)
    let (b1, f1) := f (x / k) (y / k)
    ((v.wr32 o.d (enc32 (b1 * k + b0))).onTh (·.flag (f0 ||| f1))).done 4#64)
def elemSel (fm : Fmt) (big : Bool) (x y : Nat) : Nat × FFlags :=
  (fminmax fm big x y, nvSig (fm.decode x) (fm.decode y))
def elemRel (fm : Fmt) (f : FRel) (x y : Nat) : Nat × FFlags :=
  let (b, fl) := f (fm.decode x) (fm.decode y)
  (if b then 0xFFFF else 0, fl)

def execHmin2 (o : R3) (s : State) : Result := packed2 o .f16 (elemSel .f16 false) s
def execHmax2 (o : R3) (s : State) : Result := packed2 o .f16 (elemSel .f16 true) s
def execHeq2 (o : R3) (s : State) : Result := packed2 o .f16 (elemRel .f16 relFeq) s
def execHlt2 (o : R3) (s : State) : Result := packed2 o .f16 (elemRel .f16 relFlt) s
def execBmin2 (o : R3) (s : State) : Result := packed2 o .bf16 (elemSel .bf16 false) s
def execBmax2 (o : R3) (s : State) : Result := packed2 o .bf16 (elemSel .bf16 true) s
def execBeq2 (o : R3) (s : State) : Result := packed2 o .bf16 (elemRel .bf16 relFeq) s
def execBlt2 (o : R3) (s : State) : Result := packed2 o .bf16 (elemRel .bf16 relFlt) s

/-! ### SFU (R117, R118) -/

/-- d <- f(a), correctly rounded, long-latency. -/
def sfuOp (o : R2) (f : FVal → FVal × FFlags) (s : State) : Result :=
  .next (s.lanes (opnUn o) noCheck fun v =>
    let (x, fl) := sfu32 f (v.rd32 o.a)
    (v.produce .arith [v.th.ref o.d 0] (some [x]) fl).done 4#64)

def execRcp (o : R2) (s : State) : Result := sfuOp o rcpVal s
def execRsq (o : R2) (s : State) : Result := sfuOp o rsqVal s
def execSqrt (o : R2) (s : State) : Result := sfuOp o sqrtVal s
def execEx2 (o : R2) (s : State) : Result := sfuOp o ex2Val s
def execLg2 (o : R2) (s : State) : Result := sfuOp o lg2Val s
def execSin (o : R2) (s : State) : Result := sfuOp o sinVal s
def execCos (o : R2) (s : State) : Result := sfuOp o cosVal s
def execTanh (o : R2) (s : State) : Result := sfuOp o tanhVal s

end Sys2Proof.Machine
end

