-- ==== Sys2Proof/Machine/Convert.lean ====
section
/-! DEFINITION. CVT (R112 to R116, op 0x20) and the histogram unit that it feeds (R76, R77). -/

namespace Sys2Proof.Machine
open Sys2Proof

/-! ### The histogram unit -/

/-- Whether a binding is in force (R272). (DEDUCED, log entry 45.) -/
def Hist.bound (h : Hist) : Bool := bitsOf h.tag 23 0 != 0
/-- BASE of the binding, signed (R75). -/
def Hist.base (h : Hist) : Int := (h.tag.extractLsb' 24 8).toInt
/-- Add 1 to counter `i`, which stops at its maximum (R77). -/
def Hist.count1 (h : Hist) (i : Nat) : Hist :=
  let x := h.count.getD i 0#32
  { h with count := h.count.set i (if x = BitVec.allOnes 32 then x else x + 1#32) }
/-- File elements, each given by its counter for a base, while a binding is in force. (DEDUCED, log entry 45.) -/
def Hist.file (h : Hist) (l : List (Int → Nat)) : Hist :=
  if h.bound then l.foldl (fun h f => h.count1 (f h.base)) h else h

/-- The counter of an exact integer value (R116). -/
def histInt (v : Int) (base : Int) : Nat :=
  if v = 0 then 64 else (max 0 (min 63 ((v.natAbs.log2 : Int) - base))).toNat

/-! ### Conversion -/

/-- The format an element is read in. -/
inductive CvtFrom where
  | flt (fm : Fmt) | int (signed : Bool) (w : Nat)
  deriving DecidableEq, Repr

/-- The format an element is written in; a floating-point encoding stands `sh` bits up. -/
inductive CvtTo where
  | flt (fm : Fmt) (sh : Nat) | int (lo hi : Int)
  deriving DecidableEq, Repr

def CvtFrom.value (k : CvtFrom) (x : Nat) : FVal :=
  match k with
  | .flt fm => fm.decode (x % 2 ^ fm.width)
  | .int sg w =>
    let n := x % 2 ^ w
    FVal.ofInt (if sg && n.testBit (w - 1) then (n : Int) - 2 ^ w else n)

/-- One converted element: its bits, its flags and how the histogram unit files it. -/
structure CvtElem where
  bits : Nat
  fl   : FFlags
  file : Int → Nat

/-- value(x) rounded to the target (R61 to R66, R65). Integer bits are those of 64-bit two's complement. -/
def CvtTo.conv (k : CvtTo) (mode : Rnd) (r : Nat) (x : FVal) : CvtElem :=
  match k with
  | .flt fm sh =>
    let (b, fl) := roundTo fm mode r x
    { bits := b * 2 ^ sh, fl := fl ||| nvIf x.isSig, file := fun base => histBin fm base b }
  | .int lo hi =>
    let (v, fl) := toIntFmt lo hi mode r x
    { bits := (v % 2 ^ 64).toNat, fl, file := histInt v }

/-- How a conversion code lays its operands out (R113): pairs, the number of elements, and the distance in bits between
elements of the source and of the result. -/
structure CvtCode where
  src : CvtFrom
  dst : CvtTo
  srcPair : Bool := false
  dstPair : Bool := false
  n : Nat := 1
  ss : Nat := 0
  ds : Nat := 0
  deriving DecidableEq, Repr

/-- The elements of a conversion, element 0 first, each with its own draw under .sr (R67). -/
def CvtCode.elems (c : CvtCode) (mode : Rnd) (x : Nat) : Nat → Thread → List CvtElem × Thread
  | 0, t => ([], t)
  | n + 1, t =>
    let (r, t) := t.roundDraw mode
    let e := c.dst.conv mode r (c.src.value x)
    let (es, t) := c.elems mode (x / 2 ^ c.ss) n t
    (e :: es, t)

/-- What a conversion computes in one lane. -/
def CvtCode.run (c : CvtCode) (o : RR2) (v : View) : List CvtElem × View :=
  v.through fun t => c.elems (t.rnd o.r) (if c.srcPair then (v.rd64 o.a).toNat else (v.rd32 o.a).toNat) c.n t

/-- The bits of the elements joined. -/
def joinElems (ds : Nat) : List CvtElem → Nat
  | [] => 0
  | e :: r => e.bits + 2 ^ ds * joinElems ds r

def CvtCode.opnds (c : CvtCode) (o : RR2) : Opnds :=
  { srcs := [if c.srcPair then .p o.a o.f else .r o.a o.f], dsts := [⟨o.d, if c.dstPair then 2 else 1⟩] }

/-- A conversion by one lane: every bit of d that R113 does not name is 0 (R114). -/
def CvtCode.lane (c : CvtCode) (o : RR2) (v : View) : View :=
  let (es, v) := c.run o v
  let x := joinElems c.ds es
  let v := if c.dstPair then v.wr64 o.d (BitVec.ofNat 64 x) else v.wr32 o.d (BitVec.ofNat 32 x)
  (v.onTh (·.flag (es.foldl (fun f e => f ||| e.fl) 0))).done 4#64

/-- CVT: every element written feeds the core's histogram unit (R77). -/
def cvtForm (c : CvtCode) (o : RR2) : LaneForm :=
  .of (c.opnds o) noCheck fun tids s =>
    let fed := (s.run.filter fun v => tids.contains v.th.ident.tid).flatMap fun v => ((c.run o v).1).map (·.file)
    let s := s.onTids s.issue.core tids fun v => c.lane o ((c.opnds o).noteUnseen v)
    s.onCore s.issue.core fun k => { k with hist := k.hist.file fed }
def cvt (c : CvtCode) (o : RR2) (s : State) : Result := .next (s.eachLane (cvtForm c o))

def i32Lo : Int := -(2 ^ 31)
def i32Hi : Int := 2 ^ 31 - 1
def i64Lo : Int := -(2 ^ 63)
def i64Hi : Int := 2 ^ 63 - 1
def u32Hi : Int := 2 ^ 32 - 1
def u64Hi : Int := 2 ^ 64 - 1

/-- A conversion between floating-point formats of one register each. -/
def cvtFF (a d : Fmt) : CvtCode := { src := .flt a, dst := .flt d 0 }

def execCvtF32F64 (o : RR2) (s : State) : Result := cvt { cvtFF .f64 .f32 with srcPair := true } o s
def execCvtF64F32 (o : RR2) (s : State) : Result := cvt { cvtFF .f32 .f64 with dstPair := true } o s
def execCvtF16F32 (o : RR2) (s : State) : Result := cvt (cvtFF .f32 .f16) o s
def execCvtF32F16 (o : RR2) (s : State) : Result := cvt (cvtFF .f16 .f32) o s
def execCvtBf16F32 (o : RR2) (s : State) : Result := cvt (cvtFF .f32 .bf16) o s
def execCvtF32Bf16 (o : RR2) (s : State) : Result := cvt (cvtFF .bf16 .f32) o s
def execCvtE4m3F32 (o : RR2) (s : State) : Result := cvt (cvtFF .f32 .e4m3) o s
def execCvtF32E4m3 (o : RR2) (s : State) : Result := cvt (cvtFF .e4m3 .f32) o s
def execCvtE5m2F32 (o : RR2) (s : State) : Result := cvt (cvtFF .f32 .e5m2) o s
def execCvtF32E5m2 (o : RR2) (s : State) : Result := cvt (cvtFF .e5m2 .f32) o s
def execCvtF6aF32 (o : RR2) (s : State) : Result := cvt (cvtFF .f32 .f6a) o s
def execCvtF32F6a (o : RR2) (s : State) : Result := cvt (cvtFF .f6a .f32) o s
def execCvtF6bF32 (o : RR2) (s : State) : Result := cvt (cvtFF .f32 .f6b) o s
def execCvtF32F6b (o : RR2) (s : State) : Result := cvt (cvtFF .f6b .f32) o s
/-- E8M10: 8 exponent and 10 fraction bits at the FP32 positions (R54, R115). -/
def execCvtE8m10F32 (o : RR2) (s : State) : Result := cvt { src := .flt .f32, dst := .flt ⟨8, 10, .ieee⟩ 13 } o s
def execCvtF16x2F32 (o : RR2) (s : State) : Result :=
  cvt { cvtFF .f32 .f16 with srcPair := true, n := 2, ss := 32, ds := 16 } o s
def execCvtF32F16x2 (o : RR2) (s : State) : Result :=
  cvt { cvtFF .f16 .f32 with dstPair := true, n := 2, ss := 16, ds := 32 } o s
def execCvtBf16x2F32 (o : RR2) (s : State) : Result :=
  cvt { cvtFF .f32 .bf16 with srcPair := true, n := 2, ss := 32, ds := 16 } o s
def execCvtF32Bf16x2 (o : RR2) (s : State) : Result :=
  cvt { cvtFF .bf16 .f32 with dstPair := true, n := 2, ss := 16, ds := 32 } o s
def execCvtE4m3x2F32 (o : RR2) (s : State) : Result :=
  cvt { cvtFF .f32 .e4m3 with srcPair := true, n := 2, ss := 32, ds := 8 } o s
def execCvtE5m2x2F32 (o : RR2) (s : State) : Result :=
  cvt { cvtFF .f32 .e5m2 with srcPair := true, n := 2, ss := 32, ds := 8 } o s
def execCvtI32F32 (o : RR2) (s : State) : Result := cvt { src := .flt .f32, dst := .int i32Lo i32Hi } o s
def execCvtUi32F32 (o : RR2) (s : State) : Result := cvt { src := .flt .f32, dst := .int 0 u32Hi } o s
def execCvtI64F32 (o : RR2) (s : State) : Result := cvt { src := .flt .f32, dst := .int i64Lo i64Hi, dstPair := true } o s
def execCvtUi64F32 (o : RR2) (s : State) : Result := cvt { src := .flt .f32, dst := .int 0 u64Hi, dstPair := true } o s
def execCvtI32F64 (o : RR2) (s : State) : Result := cvt { src := .flt .f64, dst := .int i32Lo i32Hi, srcPair := true } o s
def execCvtUi32F64 (o : RR2) (s : State) : Result := cvt { src := .flt .f64, dst := .int 0 u32Hi, srcPair := true } o s
def execCvtI64F64 (o : RR2) (s : State) : Result :=
  cvt { src := .flt .f64, dst := .int i64Lo i64Hi, srcPair := true, dstPair := true } o s
def execCvtUi64F64 (o : RR2) (s : State) : Result :=
  cvt { src := .flt .f64, dst := .int 0 u64Hi, srcPair := true, dstPair := true } o s
def execCvtF32I32 (o : RR2) (s : State) : Result := cvt { src := .int true 32, dst := .flt .f32 0 } o s
def execCvtF32Ui32 (o : RR2) (s : State) : Result := cvt { src := .int false 32, dst := .flt .f32 0 } o s
def execCvtF32I64 (o : RR2) (s : State) : Result := cvt { src := .int true 64, dst := .flt .f32 0, srcPair := true } o s
def execCvtF32Ui64 (o : RR2) (s : State) : Result := cvt { src := .int false 64, dst := .flt .f32 0, srcPair := true } o s
def execCvtF64I32 (o : RR2) (s : State) : Result := cvt { src := .int true 32, dst := .flt .f64 0, dstPair := true } o s
def execCvtF64Ui32 (o : RR2) (s : State) : Result := cvt { src := .int false 32, dst := .flt .f64 0, dstPair := true } o s
def execCvtF64I64 (o : RR2) (s : State) : Result :=
  cvt { src := .int true 64, dst := .flt .f64 0, srcPair := true, dstPair := true } o s
def execCvtF64Ui64 (o : RR2) (s : State) : Result :=
  cvt { src := .int false 64, dst := .flt .f64 0, srcPair := true, dstPair := true } o s
def execCvtI8F32 (o : RR2) (s : State) : Result := cvt { src := .flt .f32, dst := .int (-128) 127 } o s
def execCvtF32I8 (o : RR2) (s : State) : Result := cvt { src := .int true 8, dst := .flt .f32 0 } o s

/-! ### ACT (R119 to R121, op 0x22) -/

/-- The words of the active bank. -/
def ActTable.bank (t : ActTable) : List W32 := if t.active then t.b1 else t.b0

/-- floor of a value from 0 to 256, and what remains. -/
def splitUnit (u : FVal) : Nat × FVal :=
  match u with
  | .fin false m e =>
    if 0 ≤ e then (m * 2 ^ e.toNat, .zero false)
    else
      let k := 2 ^ (-e).toNat
      (m / k, if m % k = 0 then .zero false else .fin false (m % k) e)
  | _ => (0, .zero false)

/-- min(max(u, 0), 256). -/
def clampUnit (u : FVal) : FVal :=
  if u.lt (.zero false) then .zero false else if (FVal.fin false 256 0).lt u then .fin false 256 0 else u

/-- An entry delivered bit for bit, a NaN as the canonical NaN (R120). -/
def actEntry (y : W32) : W32 := if (Fmt.f32.decode y.toNat).isNan then 0x7FC00000#32 else y

/-- ACT's value and flags from the bank's words. The last entry is delivered by ACT.LIN as by ACT.NEAR, a NaN as the canonical NaN, where
the spec names ACT.NEAR alone. (DESIGN CHOICE, log entry 101.) -/
def actValue (lin : Bool) (bank : List W32) (x : W32) : W32 × FFlags :=
  let w (i : Nat) : W32 := bank.getD i 0#32
  let y (i : Nat) : W32 := w (4 + i)
  let dec (b : W32) : FVal := Fmt.f32.decode b.toNat
  let xv := dec x
  if xv.isNan then (0x7FC00000#32, nvIf xv.isSig)
  else
    let (d, f1) := fAdd .f32 .rn 0 xv (dec (w 0)).neg
    let (u, f2) := fMul .f32 .rn 0 (Fmt.f32.decode d) (dec (w 1))
    let uv := Fmt.f32.decode u
    let fl := f1 ||| f2
    if uv.isNan then (0x7FC00000#32, fl ||| FFlags.nv)
    else
      let c := clampUnit uv
      if !lin then (actEntry (y (c.toInt .rn 0).1.toNat), fl)
      else
        let (i, f) := splitUnit c
        if i ≥ 256 then (actEntry (y 256), fl)
        else
          let (g, f3) := fAdd .f32 .rn 0 (dec (y (i + 1))) (dec (y i)).neg
          let (v, f4) := fFma .f32 .rn 0 f (Fmt.f32.decode g) (dec (y i))
          (enc32 v, fl ||| f3 ||| f4)

/-- ACT waits while its table's banks are being exchanged (R270), and reads the bank that is active at its issue. (DEDUCED, log entry 47.) -/
def actOp (lin : Bool) (o : RT) (s : State) : Result :=
  let core := s.coreAt s.issue.core
  let t := core.tableAt o.t.toNat
  .next (s.lanes { srcs := [.r o.a o.f], dsts := [⟨o.d, 1⟩] }
    (fun _ => if t.held then .wait (.swap o.t.toNat) else .ok)
    fun v =>
      let (x, fl) := actValue lin t.bank (v.rd32 o.a)
      (v.produce .arith [v.th.ref o.d 0] (some [x]) fl [o.t.toNat]).done 4#64)

def execActNear (o : RT) (s : State) : Result := actOp false o s
def execActLin (o : RT) (s : State) : Result := actOp true o s

end Sys2Proof.Machine
end

