-- ==== Sys2Proof/Machine/Fetch.lean ====
section
/-! DEFINITION. Fetching instruction words (R9, R26, R36, R101, R196, R384). -/

namespace Sys2Proof.Machine
open Sys2Proof

def stageFetchWord : Nat := 1
def stageFetchFault : Nat := 2
def stageFetchWatch : Nat := 3

/-- One fetched word for a thread, or what becomes of the thread: the address must be canonical and outside the
windows (R23, R196), a multiple of 4 (R9), and translated with the X right (R363), for which the thread may have to wait (R364); a
STATE page holds no instructions (R372), a word of a row under repair is waited for (R390), and one with an uncorrectable error is MCHECK
(R350). (DEDUCED, log entry 49.) -/
def State.fetchWord (s : State) (core : Nat) (t : Thread) (va : W64) : Except Verdict W32 :=
  let trap (cause sub : Nat) : Except Verdict W32 :=
    .error (.trap (trapAt (if cause = Cause.pagefault then stageFetchFault else stageFetchWord) cause sub va))
  if !canonical va || (windowOf va).isSome then trap Cause.prot 0
  else if va.toNat % 4 ≠ 0 then trap Cause.misalign 0
  else
    let ten := (s.coreAt core).ten
    match s.found core ten t va with
    | none => .error (.wait (.walk t.ptbase (va.toNat / 65536)))
    | some f =>
      match s.judge ten t.modeS { x := true } va f with
      | .error e => if e.1 = Cause.mcheck then trap e.1 3 else trap e.1 e.2
      | .ok h => if h.state then trap Cause.prot 4 else if s.underRepair h.loc then .error (.wait (.row h.loc)) else if s.spoiled h.loc 4 then trap Cause.mcheck 3 else .ok (BitVec.ofNat 32 (s.rd h.loc 4))

/-- The words that the loop buffer holds for an address, in every active body that it lies in (R101). (DEDUCED, log entry 68.) -/
def Thread.bufferWords (t : Thread) (va : W64) : List W32 :=
  (List.range t.loopDepth).filterMap fun n =>
    let l := t.level n
    if l.start.toNat ≤ va.toNat ∧ va.toNat ≤ l.stop.toNat then l.copy[(va.toNat - l.start.toNat) / 4]?.join else none

/-- A fetched word, or an old value of it from the loop buffer, when a word of an active body was stored to: which one is
undefined (R101). (DEDUCED, log entry 68.) -/
def State.loopWord (s : State) (t : Thread) (va : W64) (w : W32) : W32 :=
  match (t.bufferWords va).filter (· != w) with
  | [] => w
  | old => ((w :: old)[(Config.freeWord [5, s.free, va.toNat]).toNat % (old.length + 1)]?).getD w

/-- The instruction at a thread's PC: its word and the x field before it, or what becomes of the thread at the word that
failed, with the x field that had been fetched (R26, R36, R44). -/
def State.fetch (s : State) (core : Nat) (t : Thread) : Except (Verdict × Option (BitVec 26)) RawInstr :=
  match s.fetchWord core t t.pc with
  | .error e => .error (e, none)
  | .ok w0 =>
    let w := s.loopWord t t.pc w0
    if bitsOf w 31 26 = 0x3F then
      let x := w.extractLsb' 0 26
      match s.fetchWord core t (t.pc + 4#64) with
      | .error e => .error (e, some x)
      | .ok w1 => .ok ⟨s.loopWord t (t.pc + 4#64) w1, some x⟩
    else .ok ⟨w, none⟩

/-- The WATCH sub-cause of a fetch (R384): the first word lies in a range with X = 1. -/
def Thread.watchFetch (t : Thread) : Nat :=
  if !t.wpen || t.wskip then 0
  else (if t.watchHits 0 8 t.pc 4 then 1 else 0) + (if t.watchHits 1 8 t.pc 4 then 2 else 0)

/-- The fetch checks of one lane. -/
def State.fetchVerdict (s : State) (core : Nat) (t : Thread) : Verdict :=
  match s.fetch core t with
  | .error (e, _) => e
  | .ok _ => if t.watchFetch ≠ 0 then .trap (trapAt stageFetchWatch Cause.watch t.watchFetch t.pc) else .ok

/-- The trap registers of a fetch trap: no decoded word (R44). A WATCH on a fetch is no fetch trap, and has one. A misaligned PC and an
instruction word that an error took are such traps too. (DESIGN CHOICE, log entry 114.) -/
def State.fetchRegs (s : State) (core : Nat) (t : Thread) (x : Trap) (mask : W32) : TrapRegs :=
  match s.fetch core t with
  | .ok r => trapRegs x.cause x.sub t.pc mask (s.taddr t x) r
  | .error (_, p) =>
    { cause := BitVec.ofNat 32 (x.sub * 256 + x.cause), pc := t.pc, mask, field := 0#64, addr := s.taddr t x, inst := 0#32,
      pre := xReg ⟨0#32, p⟩ }

/-- FETCH_TRAP: the lanes of the issuing run that fail the fetch take its trap. After a PAGEFAULT the others go on as a run
of their own; after any other failure they are held (R351, R419). Lanes that wait for a walk of the page park. (DEDUCED, log entry 49.) -/
def execFetchTrap (s : State) : Host.Outcome State Fault Refusal :=
  let core := s.issue.core
  let l := s.verdicts fun v => s.fetchVerdict core v.th
  let tr := trapsOf l
  let taken := takeTrap tr
  let s' := (waitsOf l).foldl (fun s x => s.setStatus core x.1 (.parked x.2)) s
  if taken.isEmpty then .next s'
  else
    let hold := if tr.all fun x => x.2.stage == stageFetchFault then []
      else (othersThan l taken).filter fun x => !((waitsOf l).map (·.1)).contains x
    let depths : List (W32 × Nat) := taken.filterMap fun x => (s.view? core x.1).map fun v => (x.1, v.th.depth + 1)
    let mk := s.fetchRegs core
    let s' := hold.foldl (fun s x => s.setStatus core x (.held depths)) s'
    .next (s'.takeTrap core taken mk)

/-- WORD_NOT_INSTRUCTION: every lane of the run takes ILLEGAL with the sub-cause of R43. -/
def execWordNotInstruction (sub : Nat) (raw : RawInstr) (s : State) : Host.Outcome State Fault Refusal :=
  let core := s.issue.core
  let group := s.run.map fun v => (v.th.ident.tid, trapOpen 4 Cause.illegal sub)
  if group.isEmpty then .next s
  else .next (s.takeTrap core group fun t x mask => trapRegs x.cause x.sub t.pc mask (s.taddr t x) raw)

end Sys2Proof.Machine
end

