-- ==== Sys2Proof/Machine/Control.lean ====
section
/-! DEFINITION. Branches, jumps, calls, returns and hardware loops (R34, R93 to R102). -/

namespace Sys2Proof.Machine
open Sys2Proof

/-- The checks of a transfer's target, in the order of R9: canonical, then a multiple of 4. -/
def targetVerdict (target : W64) : Verdict :=
  if !canonical target then .trap (trapAt stageCanon Cause.prot 0 target)
  else if target.toNat % 4 ≠ 0 then .trap (trapAt stageAlign Cause.misalign 0 target)
  else .ok

/-- start + 4 * offset (R34). -/
def relTarget (start : W64) (off : W64) : W64 := start + (off <<< 2)
/-- The offset of a B word: 15 bits, or 41 behind an X word (R35). -/
def offB (o : BitVec 15) : W64 := o.signExtend 64
def offBX (x : BitVec 26) (o : BitVec 15) : W64 := (x ++ o).signExtend 64
/-- The offset of a J word: 26 bits, or 52 behind an X word (R35). -/
def offJ (o : BitVec 26) : W64 := o.signExtend 64
def offJX (x o : BitVec 26) : W64 := (x ++ o).signExtend 64

/-- A conditional branch (R93): only a taken branch checks its target. `lane7` says that a lane thread may not name this
register (R94). -/
def branch (f : Bool) (a : Fld) (lane7 : Bool) (off len : W64) (taken : W32 → Bool) (s : State) : Result :=
  .next (s.lanes { srcs := [.r a f], sfeOnly := lane7 }
    (fun v => if taken (v.rd32 a) then targetVerdict (relTarget v.th.pc off) else .ok)
    fun v => if taken (v.rd32 a) then v.onTh fun t => t.jumpTo (relTarget t.pc off) else v.done len)

/-- A jump to a relative target. -/
def jump (off : W64) (link : Option W64) (s : State) : Result :=
  .next (s.lanes {} (fun v => targetVerdict (relTarget v.th.pc off)) fun v => v.onTh fun t =>
    let t' := t.jumpTo (relTarget t.pc off)
    match link with
    | none => t'
    | some len => { t' with ra := t.pc + len })

def condEqz (x : W32) : Bool := x == 0#32
def condNez (x : W32) : Bool := x != 0#32
def condLtz (x : W32) : Bool := x.slt 0#32
def condGez (x : W32) : Bool := !x.slt 0#32
def condLez (x : W32) : Bool := x.sle 0#32
def condGtz (x : W32) : Bool := !x.sle 0#32
/-- BRU in a lane thread names k0 to k14 or z (R94). -/
def bruLane7 (a : Fld) : Bool := a.toNat < 112

def execBeqz (o : B1) (s : State) : Result := branch o.f o.a false (offB o.o) 4#64 condEqz s
def execBnez (o : B1) (s : State) : Result := branch o.f o.a false (offB o.o) 4#64 condNez s
def execBltz (o : B1) (s : State) : Result := branch o.f o.a false (offB o.o) 4#64 condLtz s
def execBgez (o : B1) (s : State) : Result := branch o.f o.a false (offB o.o) 4#64 condGez s
def execBlez (o : B1) (s : State) : Result := branch o.f o.a false (offB o.o) 4#64 condLez s
def execBgtz (o : B1) (s : State) : Result := branch o.f o.a false (offB o.o) 4#64 condGtz s
def execBra (o : O15) (s : State) : Result := jump (offB o) none s
def execBru (o : B1) (s : State) : Result := branch o.f o.a (bruLane7 o.a) (offB o.o) 4#64 condNez s
def execBeqzX (x : BitVec 26) (o : B1) (s : State) : Result := branch o.f o.a false (offBX x o.o) 8#64 condEqz s
def execBnezX (x : BitVec 26) (o : B1) (s : State) : Result := branch o.f o.a false (offBX x o.o) 8#64 condNez s
def execBltzX (x : BitVec 26) (o : B1) (s : State) : Result := branch o.f o.a false (offBX x o.o) 8#64 condLtz s
def execBgezX (x : BitVec 26) (o : B1) (s : State) : Result := branch o.f o.a false (offBX x o.o) 8#64 condGez s
def execBlezX (x : BitVec 26) (o : B1) (s : State) : Result := branch o.f o.a false (offBX x o.o) 8#64 condLez s
def execBgtzX (x : BitVec 26) (o : B1) (s : State) : Result := branch o.f o.a false (offBX x o.o) 8#64 condGtz s
def execBraX (x : BitVec 26) (o : O15) (s : State) : Result := jump (offBX x o) none s
def execBruX (x : BitVec 26) (o : B1) (s : State) : Result :=
  branch o.f o.a (bruLane7 o.a) (offBX x o.o) 8#64 condNez s

def execJmp (o : O26) (s : State) : Result := jump (offJ o) none s
/-- CALL sets %ra to the address behind it (R95). -/
def execCall (o : O26) (s : State) : Result := jump (offJ o) (some 4#64) s
def execJmpX (x : BitVec 26) (o : O26) (s : State) : Result := jump (offJX x o) none s
def execCallX (x : BitVec 26) (o : O26) (s : State) : Result := jump (offJX x o) (some 8#64) s

/-- JR: PC <- a (R96). -/
def execJr (o : RA) (s : State) : Result :=
  .next (s.lanes { srcs := [.p o.a o.f] } (fun v => targetVerdict (v.rd64 o.a)) fun v =>
    let target := v.rd64 o.a
    v.onTh fun t => t.jumpTo target)

/-- JALR reads a before it writes d (R96). -/
def execJalr (o : R2) (s : State) : Result :=
  .next (s.lanes { srcs := [.p o.a o.f], dsts := [⟨o.d, 2⟩] } (fun v => targetVerdict (v.rd64 o.a)) fun v =>
    let target := v.rd64 o.a
    (v.wr64 o.d (v.th.pc + 4#64)).onTh fun t => t.jumpTo target)

/-- RET: PC <- %ra (R96). -/
def execRet (s : State) : Result :=
  .next (s.lanes {} (fun v => targetVerdict v.th.ra) fun v => v.onTh fun t => t.jumpTo t.ra)

/-! ### LOOP and BRK (R37, R98, R100) -/

/-- The checks of LOOP with a count that is not 0. -/
def State.loopVerdict (s : State) (core : Nat) (t : Thread) (n : BitVec 8) : Verdict :=
  let bs := t.pc + 4#64
  let be := t.pc + BitVec.ofNat 64 (4 * (n.toNat + 1))
  let d := t.loopDepth
  let nested : Bool := match d with
    | 0 => true
    | k + 1 => decide ((t.level k).start.toNat ≤ bs.toNat) && decide (be.toNat ≤ (t.level k).stop.toNat)
  if d = 3 || !nested then .trap (trapAt 21 Cause.illegal 8 t.pc)
  else match s.fetchWord core t be with
    | .ok w => if bitsOf w 31 26 = 0x3F then .trap (trapAt 22 Cause.illegal 4 t.pc) else .ok
    | .error (.wait w) => .wait w
    | .error _ => .ok

/-- The word of a body that the loop buffer takes (R101), by the page tables as they stand. -/
def State.bodyWord (s : State) (core : Nat) (t : Thread) (va : W64) : Option W32 :=
  if !canonical va || (windowOf va).isSome then none
  else match s.walk (s.coreAt core).ten t.ptbase va with
    | .entry e lvl =>
      let l := placeOf s.dev e lvl va
      if s.spoiled l 4 then none else some (BitVec.ofNat 32 (s.rd l 4))
    | _ => none
/-- The words of a body that the loop buffer takes when the level is entered (R101). (DEDUCED, log entry 68.) -/
def State.bodyWords (s : State) (core : Nat) (t : Thread) (start : W64) (n : Nat) : List (Option W32) :=
  (List.range n).map fun i => s.bodyWord core t (start + BitVec.ofNat 64 (4 * i))

/-- Enter a body, or skip it when the count is 0 (R98). -/
def Thread.enterLoop (t : Thread) (cnt : W32) (n : BitVec 8) (copy : List (Option W32)) : Thread :=
  if cnt = 0#32 then t.jumpTo (t.pc + BitVec.ofNat 64 (4 * (n.toNat + 1)) + 4#64)
  else (t.setLevel t.loopDepth { lc := cnt, lb := LoopLevel.body (t.pc + 4#64) n, copy }).jumpTo (t.pc + 4#64)

/-- The checks of LOOP: of the transfer's target (R9), and of the level that it enters. -/
def State.loopCheck (s : State) (core : Nat) (o : LoopOp) (v : View) : Verdict :=
  if v.rd32 o.a = 0#32 then targetVerdict (v.th.pc + BitVec.ofNat 64 (4 * (o.n.toNat + 1)) + 4#64)
  else (targetVerdict (v.th.pc + 4#64)).andThen (s.loopVerdict core v.th o.n)

def execLoop (o : LoopOp) (s : State) : Result :=
  let core := s.issue.core
  .next (s.lanes { srcs := [.r o.a o.f] } (s.loopCheck core o)
    fun v => v.onTh fun t => t.enterLoop (v.rd32 o.a) o.n (s.bodyWords core t (t.pc + 4#64) (o.n.toNat + 1)))

/-- The checks of BRK: a level to leave, and the target behind its body (R9). -/
def brkVerdict (t : Thread) : Verdict :=
  if t.loopDepth = 0 then .trap (trapAt 21 Cause.illegal 8 t.pc) else targetVerdict ((t.level (t.loopDepth - 1)).stop + 4#64)

/-- BRK leaves the innermost level without an end event (R100). -/
def execBrk (s : State) : Result :=
  .next (s.lanes {} (fun v => brkVerdict v.th) fun v =>
    v.onTh fun t =>
      let n := t.loopDepth - 1
      let l := t.level n
      (t.setLevel n { lc := 0#32, lb := setBit l.lb 0 false, copy := [] }).jumpTo (l.stop + 4#64))

end Sys2Proof.Machine
end

