-- ==== Sys2Proof/Machine/Links.lean ====
section
/-! DEFINITION. The fabric's links (R397 to R399), and what the accesses of other devices do to DOMAIN pages of this one
(R396, R402). -/

namespace Sys2Proof.Machine
open Sys2Proof

/-! ### Ports -/

def State.portAt (s : State) (i : Nat) : Port := (s.ports.find? fun p => p.id == i).getD (Port.fresh i)
def State.onPort (s : State) (i : Nat) (f : Port → Port) : State :=
  { s with ports := putBy Port.id { f (s.portAt i) with id := i } s.ports }

/-- The port of a device for a peer (R397): one of the die, if it has a usable one, else any. -/
def State.portTo (s : State) (die rank : Nat) : Option Port :=
  let l := s.ports.filter fun p => p.usable && p.peer == some rank
  (l.find? fun p => p.id / 8 == die).orElse fun _ => l.head?

/-- The virtual channel of a kind of flit: the spec assigns none. (DESIGN CHOICE, log entry 78.) -/
def vcOf (kind : Nat) : Nat := match kind with | 1 => 0 | 4 => 1 | 5 => 2 | _ => 3

/-- A flit to the peer of a port. What stands behind the bytes given in its 232 bytes of payload is free. It takes its SEQ when it is sent. (DESIGN CHOICE, log entry 78.) -/
def State.flitTo (s : State) (port rank kind : Nat) (res : W64) (bytes : List Byte) : Flit :=
  { seq := 0#24, vc := vcOf kind, dst := rank, src := s.dev, kind, res, crcOk := true,
    payload := bytes.take 232 ++ (List.range (232 - bytes.length)).map fun i => Config.freeByte [29, s.free, port, i] }

/-- Flits of one kind to a device, one for each payload: they wait at a port for their slots. Without a usable path they are lost. -/
def State.transmit (s : State) (die rank kind : Nat) (res : W64) (l : List (List Byte)) : State :=
  match s.portTo die rank with
  | none => s
  | some p => s.onPort p.id fun q => { q with out := q.out ++ l.map (s.flitTo p.id rank kind res) }

/-- Whether a flit carries something for the other device, and not for its port alone. -/
def Flit.carries (x : Flit) : Bool := x.kind != 2 && x.kind != 3

/-- The flits that a port without a path has still to bring over leave by another port of its peer, if there is one, and else wait for the
link to come up again. (DEDUCED, log entry 110.) -/
def State.reroute (s : State) (port : Nat) : State :=
  let p := s.portAt port
  if p.usable then s
  else match p.peer.bind (s.portTo (port / 8)) with
    | none => s
    | some q => (s.onPort port fun x => { x with out := [], replay := [], resend := [] }).onPort q.id fun x =>
        { x with out := x.out ++ p.pending.filter Flit.carries }

/-! ### Sending (R397 to R399) -/

/-- The active wavelengths that a port sends on. -/
def Port.waves (p : Port) : Nat := ((p.fibres.take 8).map (·.active)).sum
/-- The time that a flit of 256 bytes takes: 64 Gb/s for each wavelength. -/
def Port.slotUnits (p : Port) : Nat := 288 * unitsPerControl / (5 * p.waves)

/-- What a port may send in the slot that begins: the flits named by negative acknowledgements, then those that wait. While the claim stands
a data flit leaves the slot behind it to others. -/
def Port.nextFlit (p : Port) (claim : Bool) : Option (Flit × Bool) :=
  let ready : List (Flit × Bool) := (p.resend.filterMap fun q => p.replay.find? fun x => x.seq == q).map (·, true) ++
    (if p.replay.length < 4096 then p.out.map (·, false) else [])
  ready.find? fun x => !(claim && x.1.kind == 1 && decide (p.slotAt < p.dataAt))

/-- A port sends a flit in the slot that begins: a new one takes the next SEQ, and the replay buffer of 4,096 keeps it. -/
def Port.emit (p : Port) (x : Flit × Bool) : Port :=
  let q : Port := { p with slotAt := p.slotAt + p.slotUnits, dataAt := if x.1.kind = 1 then p.slotAt + 2 * p.slotUnits else p.dataAt }
  if x.2 then { q with wire := p.wire ++ [x.1], resend := p.resend.filter (· != x.1.seq), again := p.again + 1 }
  else
    let fl : Flit := { x.1 with seq := p.tx }
    { q with wire := p.wire ++ [fl], tx := p.tx + 1#24, replay := p.replay ++ [fl], out := p.out.erase x.1 }

/-- The slots of a port up to a time, n of them at most. -/
def Port.pump (claim : Bool) (now : Nat) : Nat → Port → Port
  | 0, p => p
  | n + 1, p =>
    if !p.usable || decide (now < p.slotAt) then p
    else match p.nextFlit claim with
      | some x => Port.pump claim now n (p.emit x)
      | none => if (p.out.isEmpty && p.resend.isEmpty) || !claim || decide (p.dataAt ≤ p.slotAt) then p
        else Port.pump claim now n { p with slotAt := p.dataAt }

/-- The slots of a port that have begun; those before the current control cycle passed unused. -/
def Port.pumped (p : Port) (claim : Bool) (now : Nat) : Port :=
  if p.out.isEmpty && p.resend.isEmpty then p
  else Port.pump claim now (2 * (p.out.length + p.resend.length)) { p with slotAt := max p.slotAt (now - unitsPerControl) }

/-- Whether the matrix engines of a die hold a claim above the threshold of firmware (R218), which is free: their commands in flight
are counted. (DESIGN CHOICE, log entry 19.) -/
def State.overClaim (s : State) (die : Nat) : Bool :=
  let n := ((s.cores.filter fun c => dieOfCore c.id == die).map fun c => (c.sects.map fun x => x.mq.length).sum).sum
  decide (n > (Config.freeWord [26, die]).toNat)

/-- Every port sends what its slots allow. -/
def State.pump (s : State) : State := { s with ports := s.ports.map fun p => p.pumped (s.overClaim (p.id / 8)) s.now }
/-- Whether a port can send. -/
def State.pumpDue (s : State) : Bool := s.ports.any fun p => (p.pumped (s.overClaim (p.id / 8)) s.now).wire.length != p.wire.length

/-! ### Receiving (R398) -/

/-- What a receiver finds of a flit: it is good and in sequence, a duplicate, or fails. -/
inductive FlitFinding where
  | good | duplicate | bad
  deriving DecidableEq, Repr

/-- SEQ is compared modulo 2^24. -/
def Port.finding (p : Port) (fl : Flit) : FlitFinding :=
  if !fl.crcOk then .bad
  else if fl.seq = p.rx then .good
  else if (fl.seq - p.rx).getLsbD 23 then .duplicate
  else .bad

/-- The SEQ that an acknowledgement or a negative one names: the spec gives it no place, and it stands in the first bytes of the payload. (DESIGN CHOICE, log entry 78.) -/
def flitNames (fl : Flit) : BitVec 24 := BitVec.ofNat 24 (leNat (fl.payload.take 3))

/-- The last 8 of a list of counts. -/
def lastEight (l : List Nat) : List Nat := l.drop (l.length - 8)

/-- A flit is delivered: an acknowledgement takes every flit up to the SEQ it names from the replay buffer, a negative one has the flit that it
names sent again, and a reservation reserves the slots of its reduction. -/
def Port.deliver (p : Port) (fl : Flit) : Port :=
  let p := { p with rx := p.rx + 1#24, got := p.got + 1, nak := none, held := p.held.filter fun x => x.seq != fl.seq }
  match fl.kind with
  | 2 => { p with replay := p.replay.filter fun x => x.seq != (flitNames fl) && !(x.seq - (flitNames fl)).getLsbD 23 }
  | 3 => { p with naks := lastEight (p.naks ++ [p.wire.length]),
                  resend := if p.resend.contains (flitNames fl) then p.resend else p.resend ++ [(flitNames fl)] }
  | 4 => if p.resv.contains fl.res then p else { p with resv := p.resv ++ [fl.res] }
  | _ => p

/-- The flits that came ahead of their turn follow in SEQ order. -/
def Port.deliverHeld : Nat → Port → Port
  | 0, p => p
  | n + 1, p => match p.held.find? fun x => x.seq == p.rx with
    | none => p
    | some fl => Port.deliverHeld n (p.deliver fl)

/-- Whether a delivered flit is acknowledged at once. Acknowledgements of both sorts are so only with another flit, or at every 1,024th that
a port receives: else they would answer each other for ever. (DESIGN CHOICE, log entry 78.) -/
def Port.answers (p q : Port) (fl : Flit) : Bool :=
  !(fl.kind == 2 || fl.kind == 3) || q.got != p.got + 1 || q.got / 1024 != p.got / 1024

/-- What a port does with a flit (R398): one that is good and in sequence is delivered and acknowledged; a duplicate is discarded; one whose
CRC fails, or that skips ahead, is answered with a negative acknowledgement that names the first missing SEQ. A
flit that skips ahead is kept for its turn, since the sender sends again only what is named. (DEDUCED, log entry 110.) -/
def State.flitIn (s : State) (port : Nat) (fl : Flit) : State :=
  let p := s.portAt port
  let tell (kind : Nat) (q : BitVec 24) (s : State) : State := match p.peer with
    | none => s
    | some d => s.onPort port fun x => { x with out := x.out ++ [s.flitTo port d kind 0#64 (bytesOf 3 q.toNat)] }
  if !p.up then s
  else match p.finding fl with
    | .duplicate => s
    | .bad =>
      let keep := fl.crcOk && !(p.held.any fun x => x.seq == fl.seq)
      let s := s.onPort port fun x =>
        { x with nak := some x.rx, bads := lastEight (x.bads ++ [x.got]), held := if keep then x.held ++ [fl] else x.held }
      tell 3 p.rx s
    | .good =>
      let q := Port.deliverHeld p.held.length (p.deliver fl)
      let s := s.onPort port fun _ => q
      if p.answers q fl then tell 2 (q.rx - 1#24) s else s

/-- FLIT_DATA. -/
def execFlitData (port : Nat) (fl : Flit) (s : State) : Result := .next (if fl.kind = 1 then s.flitIn port fl else s)
/-- FLIT_CONTROL. -/
def execFlitControl (port : Nat) (fl : Flit) (s : State) : Result := .next (if fl.kind = 5 then s.flitIn port fl else s)
/-- FLIT_RESERVATION. -/
def execFlitReservation (port : Nat) (fl : Flit) (s : State) : Result := .next (if fl.kind = 4 then s.flitIn port fl else s)
/-- FLIT_ACKNOWLEDGEMENT. -/
def execFlitAcknowledgement (port : Nat) (fl : Flit) (s : State) : Result := .next (if fl.kind = 2 then s.flitIn port fl else s)
/-- FLIT_NEGATIVE_ACKNOWLEDGEMENT. -/
def execFlitNegativeAcknowledgement (port : Nat) (fl : Flit) (s : State) : Result := .next (if fl.kind = 3 then s.flitIn port fl else s)

/-! ### Failing parts and peers (R398, R399) -/

def Port.onFibre (p : Port) (i : Nat) (f : Fibre → Fibre) : Port :=
  { p with fibres := p.fibres.zipIdx.map fun (x, j) => if j = i then f x else x }

/-- The Sump record of a switch: the port and the part. -/
def State.sumpSwitch (s : State) (port part : Nat) : State :=
  s.sump 7 (port / 8) 0xFF 0xFFFF port (BitVec.ofNat 64 part) 0#64

/-- The flits in flight on a part that fails are sent again: which of the unacknowledged ones those are is free. -/
def State.resendSome (s : State) (port fibre : Nat) : State :=
  if fibre ≥ 8 then s
  else s.onPort port fun p =>
    let l := (p.replay.map (·.seq)).filter fun q => Config.freeBool [39, s.free, port, q.toNat] && !p.resend.contains q
    { p with resend := p.resend ++ l }

/-- Whether 8 negative acknowledgements came within 2^20 flits. -/
def oftenNaked (l : List Nat) (count : Nat) : Bool := decide (l.length ≥ 8) && decide (count - l.headD 0 ≤ 2 ^ 20)

/-- Whether a wavelength is to be retired: it has caused 8 negative acknowledgements within 2^20 flits, or it has lost its signal, which is
free. Which wavelength caused them the flits do not say: those of the port count. (DESIGN CHOICE, log entry 78.) -/
def State.waveFails (s : State) (port fibre wave : Nat) : Bool :=
  let p := s.portAt port
  (if fibre < 8 then oftenNaked p.naks p.wire.length else oftenNaked p.bads p.got) || Config.freeBool [40, s.free, port, fibre, wave]

/-- WAVELENGTH_RETIRE: a spare of the fibre takes the place of a wavelength; without a spare the fibre has one less. -/
def execWavelengthRetire (port : Nat) (fibre : Nat) (wave : Nat) (s : State) : Result :=
  match ((s.portAt port).fibres)[fibre]? with
  | none => .next s
  | some x =>
    if wave ≥ 34 ∨ x.active = 0 ∨ x.retired.contains wave = true ∨ s.waveFails port fibre wave = false then .next s
    else
      let s := (s.resendSome port fibre).onPort port fun p =>
        { p.onFibre fibre fun y => if y.spares > 0 then { y with spares := y.spares - 1, retired := y.retired ++ [wave] }
            else { y with active := y.active - 1, retired := y.retired ++ [wave] } with
          naks := if fibre < 8 then [] else p.naks, bads := if fibre < 8 then p.bads else [] }
      let s := s.reroute port
      .next (if x.spares > 0 then s.sumpSwitch port (256 * fibre + wave) else s)

/-- Whether the spare fibre of a fibre's direction is free: fibres 0 to 7 send, 8 to 15 receive. -/
def Port.spareFor (p : Port) (fibre : Nat) : Bool := if fibre < 8 then p.spareTx else p.spareRx
def Port.takeSpare (p : Port) (fibre : Nat) : Port := if fibre < 8 then { p with spareTx := false } else { p with spareRx := false }

/-- FIBRE_FAILOVER: the port's spare fibre of a direction takes over the traffic of a fibre that has lost more than its spares
replace. -/
def execFibreFailover (port : Nat) (fibre : Nat) (s : State) : Result :=
  let p := s.portAt port
  match p.fibres[fibre]? with
  | none => .next s
  | some x =>
    if p.spareFor fibre && decide (x.active < 32) then
      .next (((s.resendSome port fibre).onPort port fun p =>
        (p.onFibre fibre fun _ => { active := 32, spares := 2, onSpare := true }).takeSpare fibre).sumpSwitch port (256 * fibre + 255))
    else .next s

/-- PEER_UNREACHABLE: a port has no usable path to its peer. The device is unreachable when no other port reaches it. -/
def execPeerUnreachable (port : Nat) (rank : Nat) (s : State) : Result :=
  let s := (s.onPort port fun p => if p.peer = some rank then { p with up := false } else p).reroute port
  .next (if (s.ports.any fun p => p.usable && p.peer == some rank) || s.unreach.contains rank then s
    else { s with unreach := s.unreach ++ [rank] })

/-- LINKS_COME_UP: a link to a peer comes up, with both sequences at their start. What the port still had for that peer follows. (DEDUCED,
log entry 110.) -/
def execLinksComeUp (port : Nat) (rank : Nat) (s : State) : Result :=
  let s := s.onPort port fun p =>
    { p with peer := some rank, up := true, tx := 0#24, rx := 0#24, replay := [], nak := none, resv := [], resend := [],
             out := if p.peer = some rank then p.pending.filter Flit.carries else [], held := [],
             slotAt := s.now, dataAt := s.now, naks := [], bads := [] }
  .next { s with unreach := s.unreach.filter (· != rank) }

/-! ### Accesses of other devices (R396, R402) -/

/-- The bytes of a remote access. -/
def remoteSize : RemoteOp → Nat
  | .load n => n
  | .store n _ => n
  | .add _ => 8

/-- Where the access of another device to a DOMAIN page homed here lies: none where it is refused. The rights of the entry apply,
its U bit does not. -/
def State.remotePlace (s : State) (acc : RemoteAccess) : Option Loc :=
  let rd := match acc.op with | .load _ | .add _ => true | .store _ _ => false
  let wr := match acc.op with | .load _ => false | .add _ | .store _ _ => true
  let n := remoteSize acc.op
  if !canonical acc.addr || (windowOf acc.addr).isSome || n == 0 || acc.addr.toNat % n != 0 then none
  else
    match s.walk acc.ten (s.tenAt acc.ten).root acc.addr with
    | .entry e _ =>
      if !(Pte.of e).domain || (Pte.of e).dev != s.dev then none
      else match s.translate acc.ten (s.tenAt acc.ten).root true { r := rd, w := wr } acc.addr with
        | .ok h => if h.state || h.remote then none else some h.loc
        | .error _ => none
    | _ => none

/-- The die at which a place is homed. -/
def Loc.die (l : Loc) : Nat := ((l.slice).map (· / 80)).getD 0

/-- An input that reaches a row under repair comes again in the next control cycle: accesses to the row park (R390). -/
def State.later (s : State) (i : Instr) : State := { s with sched := s.sched ++ [(s.control + 1, i)] }

/-- REMOTE_DOMAIN_ACCESS: the access is performed in this device's memory order, and its answer leaves as a flit; a refused
access has no effect here. -/
def execRemoteDomainAccess (acc : RemoteAccess) (s : State) : Result :=
  let addr := bytesOf 8 acc.addr.toNat
  match s.remotePlace acc with
  | none => .next (s.transmit 0 acc.rank 5 0#64 [addr])
  | some l =>
    let n := remoteSize acc.op
    if s.underRepair l then .next (s.later (.remoteDomainAccess acc))
    else
      let s := s.settle l n
      match acc.op with
      | .load _ => .next ((s.stampFar acc.rank l false).transmit l.die acc.rank 1 0#64 [addr ++ bytesOf n (s.rd l n)])
      | .store n v => .next ((((s.clearFutures l n).wrTables l n v.toNat).stampFar acc.rank l true).transmit l.die acc.rank 5 0#64 [addr])
      | .add v =>
        .next ((((s.clearFutures l 8).wrTables l 8 ((s.rd l 8 + v.toNat) % 2 ^ 64)).stampFar acc.rank l true).transmit l.die acc.rank 5 0#64
          [addr])

/-- STORE_REFUSAL_REPORT: of the DOMAIN stores that a thread has sent and not yet fenced, it keeps the address of the first refused
(R396). -/
def execStoreRefusalReport (who : ThreadRef) (addr : W64) (s : State) : Result :=
  .next (s.onThread who.core who.tid fun v => v.onTh fun t =>
    { t with refused := match t.refused with | none => if t.far.contains addr then some addr else none | some a => some a })

end Sys2Proof.Machine
end

