-- ==== Sys2Proof/Machine/Memory.lean ====
section
/-! DEFINITION. Loads, stores, atomics, future words, affine accesses, address conversion and fences (R232 to R244, op 0x24
to 0x2C). An access to the own scratchpad is performed when it issues, unless a lower lane's is still to be performed. An access to a future
word, or to another core's scratchpad, travels alone to its home. Any other enters the request collector and is performed when its line
group reaches its home (R211). -/

namespace Sys2Proof.Machine
open Sys2Proof

/-! ### Sizes and words (R33) -/

/-- The bytes of a size code. -/
def szBytes (sz : Nat) : Nat := match sz with | 0 | 1 => 1 | 2 | 3 => 2 | 4 => 4 | 5 => 8 | _ => 16
/-- The registers of a size code. -/
def szRegs (sz : Nat) : Nat := match sz with | 5 => 2 | 6 => 4 | _ => 1

/-- The register words of a loaded value: sign-extended for the codes 1 and 3. -/
def loadWords (sz v : Nat) : List W32 :=
  match sz with
  | 1 => [(BitVec.ofNat 8 v).signExtend 32]
  | 3 => [(BitVec.ofNat 16 v).signExtend 32]
  | _ => wordsOf (szRegs sz) v

/-- The words that a request's answer fills. -/
def ReqOp.words (op : ReqOp) (v : Nat) : List W32 :=
  match op with
  | .load sz => loadWords sz v
  | .rmw op _ _ => wordsOf (op.size / 4) v
  | .future => wordsOf 2 v
  | .store _ | .stf _ | .term .. => []

/-! ### Performing an access at its home (R203, R209, R219 to R224, R240) -/

/-- A copy of the line of a place as its home holds it, with the words that an uncorrectable error has taken (R369). -/
def State.lineAt (s : State) (l : Loc) : Line :=
  { s.stamps l with
    data := (List.range 128).map fun i => s.rdByte (l.base.plus i),
    bad := (List.range 32).filter fun i => s.spoiled (l.base.plus (4 * i)) 4 }

/-- The L1 copy of a line after a store by its core: the new bytes, with (wts, wts) (R203). -/
def State.touchL1 (s : State) (core : Nat) (l : Loc) : State :=
  if (s.coreAt core).l1.any fun x => x.line == l.line then
    let x := s.lineAt l
    s.onCore core fun c => { c with l1 := putBy (·.line) x c.l1 }
  else s

/-- A load of a leased line at its home (R203): the version there, with a lease that ends at max(pts, wts) + L. -/
def State.leaseLine (s : State) (core : Nat) (l : Loc) : State × Line :=
  let x := s.stamps l
  let c := s.coreAt core
  let t := max c.pts x.wts
  let g := t + bitsOf c.lease 3 0
  ((s.putStamps { x with rts := max x.rts g }).raisePts core t, { s.lineAt l with rts := g })

/-- The bytes of a store: held terms settle first, future words that are covered become empty. -/
def State.putBytes (s : State) (l : Loc) (n v : Nat) : State := ((s.settle l n).clearFutures l n).wrTables l n v
/-- Write at the home. -/
def State.storeAt (s : State) (core : Nat) (l : Loc) (n v : Nat) : State := (s.putBytes l n v).stampStore core l

/-- A store of a core that is written and answered at once: its L1 copy follows. -/
def State.storeNow (s : State) (core : Nat) (l : Loc) (n v : Nat) : State := (s.storeAt core l n v).touchL1 core l

/-- The lines of places that a core writes together take the timestamp of one store each, so that the home raises none by more than L + 1
(R204), and the core's L1 copies follow. -/
def State.stampLines (s : State) (core : Nat) (ls : List Loc) : State :=
  (ls.map Loc.base).eraseDups.foldl (fun s l => (s.stampStore core l).touchL1 core l) s

/-- Write values together, each at its place and of its bytes: (place, bytes, value). -/
def State.storeEach (s : State) (core : Nat) (xs : List (Loc × Nat × Nat)) : State :=
  (xs.foldl (fun s x => s.putBytes x.1 x.2.1 x.2.2) s).stampLines core (xs.map (·.1))
/-- Values of n bytes each from a place on. -/
def valuesAt (l : Loc) (n : Nat) (vs : List Nat) : List (Loc × Nat × Nat) := vs.zipIdx.map fun x => (l.plus (n * x.2), n, x.1)

/-- The lines that n bytes at a place lie in. -/
def Loc.lines (l : Loc) (n : Nat) : List Loc :=
  (List.range ((((l.base.diff l).getD 0).toNat + n + 127) / 128)).map fun i => l.base.plus (128 * i)

/-- A load of bytes in several lines as one access (R220). -/
def State.loadWide (s : State) (core : Nat) (l : Loc) (n : Nat) : State × Nat :=
  let s := s.settle l n
  (s.stampAll core (l.lines n) [], s.rd l n)

/-- Bind the value of an LDF to its result, and send the answer back (R214), over the bridge when the thread is on the other die (R391): it
lands as a reply. -/
def State.answerLdf (s : State) (v : Nat) (d : Deferred) : State :=
  let s := s.bind d.core d.tid d.pend (wordsOf 2 v)
  let r : Req := { tid := d.tid, pend := some d.pend, op := .future, n := 8, loc := d.word, va := 0#64, lane := 0, len := d.len }
  let s := { s.onCore d.core fun c => { c with coll := c.coll ++ [{ id := s.serial, line := d.word.line, leased := false, opened := c.cycle, reqs := [r], phase := .replied none true true, tries := 0, solo := true, done := 1, nth := s.serial }] } with
    serial := s.serial + 1 }
  if d.word.homeDie (dieOfCore d.core) = dieOfCore d.core then s else s.cross (.packet d.core (s.serial - 1)) (dieOfCore d.core)

/-- The deferred LDFs of a word are answered in arrival order. Each answer is a load directly behind the store (R220, R221). -/
def State.answerAll (s : State) (l : Loc) (v : Nat) : State :=
  let mine := s.deferred.filter fun d => d.word == l.word8
  let s := { s with deferred := s.deferred.filter fun d => d.word != l.word8 }
  mine.foldl (fun s d => (s.stampLoad d.core l).answerLdf v d) s

/-- STF at its home: the word is written and full, and every deferred LDF of it is answered. -/
def State.stfAt (s : State) (core : Nat) (l : Loc) (v : Nat) : State :=
  ((((s.settle l 8).wrTables l 8 v).setFuture l true).stampStore core l).answerAll l v

/-- Perform one request at its home on a line that is not leased: the state and the value returned. A compare that fails is a load (R224) and
leaves the full bit of a future word. (DESIGN CHOICE, log entry 118.) -/
def State.perform (s : State) (core : Nat) (l : Loc) (n : Nat) (op : ReqOp) : State × Nat :=
  match op with
  | .load _ | .future =>
    let s := s.settle l n
    (s.stampLoad core l, s.rd l n)
  | .store v => (s.storeAt core l n v.toNat, 0)
  | .stf v => (s.stfAt core l v.toNat, 0)
  | .term op y ten task crew tid => (s.holdTerm { loc := l, op, ten, task, crew, tid, core, val := y, seen := [core] }, 0)
  | .rmw op y e =>
    let s := s.settle l n
    let x := s.rd l n
    match op.apply x y.toNat e.toNat with
    | none => (s.stampLoad core l, x)
    | some new => (s.storeAt core l n new, x)

/-! ### Issue -/

def Req.isLoad (r : Req) : Bool := match r.op with | .load _ => true | _ => false

/-- Whether a place is reached at the issuing core: its scratchpad and the images of its engines. -/
def Hit.near (h : Hit) (core : Nat) : Bool :=
  match h.loc with
  | .pad c _ | .state c _ _ => c == core
  | _ => false
/-- Whether an access does not enter the collector: it is to a scratchpad, an image or a future word (R211). -/
def Hit.alone (h : Hit) : Bool :=
  h.future || (match h.loc with | .pad _ _ | .state .. => true | _ => false)

/-- The requests and line groups that count against the collector's capacity (R211). -/
def Core.collected (c : Core) : List Group := c.coll.filter fun g => g.phase == .gathering && !g.solo
def Core.collReqs (c : Core) : Nat := ((c.collected).map fun g => g.reqs.length).sum

/-- The L1 copy that a leased load hits (R203). A held term that the core is ordered behind sends the load to the home (R180, R240). The
spec gives no order in which the L1 replaces its lines: whether a copy still stands is free (DESIGN CHOICE, log entry 14). -/
def State.l1Hit (s : State) (core : Nat) (l : Loc) (n : Nat) : Option Line :=
  if s.terms.any fun t => t.covers l n && t.seen.contains core then none
  else (s.coreAt core).l1.find? fun x => x.line == l.line && decide ((s.coreAt core).pts ≤ x.rts) &&
    !Config.freeBool [32, s.free, core, l.line]

/-- The value of n bytes in an L1 copy. -/
def lineValue (x : Line) (off n : Nat) : Nat := leNat ((x.data.drop off).take n)
/-- Whether n bytes of an L1 copy came with an uncorrectable error. -/
def lineBad (x : Line) (off n : Nat) : Bool := x.bad.any fun i => decide (4 * i < off + n ∧ off < 4 * i + 4)

/-- The offset of a place in its line. -/
def Loc.inLine (l : Loc) : Nat := ((l.base.diff l).getD 0).toNat

/-- Whether a request may join a group: the group is still open and has room, and a load does not join loads that a write of the
group stands behind, so that the requests are performed in order and all the loads of a group read one version.
(DEDUCED, log entry 12.) -/
def Group.takes (g : Group) (leased : Bool) (r : Req) : Bool :=
  g.leased == leased && decide (g.reqs.length < 32) &&
    !(r.isLoad && ((g.reqs.dropWhile fun x => !x.isLoad).any fun x => !x.isLoad))

/-- The open group of a line, with its place: only the latest is open. -/
def Core.openGroup (c : Core) (line : Nat) : Option (Group × Nat) :=
  (c.coll.zipIdx.filter fun g => g.1.phase == .gathering && !g.1.solo && g.1.line == line).getLast?

/-- A group of one request. -/
def Core.newGroup (c : Core) (serial : Nat) (h : Hit) (r : Req) : Group :=
  { id := serial, line := r.loc.line, leased := h.leased, opened := c.cycle, reqs := [r],
    phase := if h.near c.id then .sent serial else .gathering, tries := 0, solo := h.alone, cached := h.cached }

/-- Put a request into the collector: into the open group of its line, or a new one; none when the collector is full. A request that does
not enter the collector stands alone. -/
def Core.collect (c : Core) (serial : Nat) (h : Hit) (r : Req) : Option Core :=
  let new : Core := { c with coll := c.coll ++ [c.newGroup serial h r] }
  let room : Bool := decide ((c.collected).length < 64)
  if h.alone then some new
  else if c.collReqs ≥ 512 then none
  else match c.openGroup r.loc.line with
    | some (g, i) =>
      if g.takes h.leased r then some { c with coll := c.coll.set i { g with reqs := g.reqs ++ [r] } }
      else if room then some new else none
    | none => if room then some new else none

/-- Finish the lane's instruction: the result of its walk and the crossing of its access are used up, and the PC moves on. -/
def View.commit (v : View) (len : W64) : View := v.onTh fun t => { t with walked := [], crossed := none }.complete len

/-- Whether lower lanes of the instruction being executed have requests that are still to be performed (R220). -/
def State.lowerLeft (s : State) (core : Nat) : Bool := (s.coreAt core).coll.any fun g => g.left.any fun r => r.inst == s.free

/-- Issue one lane's request. `dst` is none for a request that returns nothing. The lane completes, or parks: while the collector is full, at
an LDF, and at a load from another device until it is answered (R396). -/
def State.issueReq (s : State) (core : Nat) (tid : W32) (h : Hit) (n : Nat) (op : ReqOp) (dst : Option (List Dst))
    (len : W64) : State :=
  match s.view? core tid with
  | none => s
  | some v =>
    let id := v.th.serial
    let load : Bool := match op with | .load _ => true | _ => false
    let mark (v : View) : View := match dst with
      | none => v
      | some ds => v.produce (if op = .future then .future else .load) ds none 0
    let bound (s : State) (x : Nat) : State :=
      (s.onThread core tid fun v => (mark v).commit len).bind core tid id (op.words x)
    let hit := if load && h.leased && !s.lowerLeft core then s.l1Hit core h.loc n else none
    if h.near core && !s.lowerLeft core then
      let (s, x) := s.perform core h.loc n op
      bound s x
    else if h.remote && load && v.th.answer == some h.va then
      (bound s (s.rd h.loc n)).onThread core tid fun v => v.onTh fun t => { t with answer := none }
    else match hit with
      | some x => bound s (lineValue x h.loc.inLine n)
      | none =>
        let r : Req := { tid, pend := if h.remote then none else dst.map fun _ => id, op, n, loc := h.loc, va := h.va,
                         lane := v.th.place.lane, len, inst := s.free, seq := s.serial }
        match (s.coreAt core).collect s.serial h r with
        | none => s.setStatus core tid (.parked (.collector h.loc.line))
        | some c =>
          let s := { s.putCore c with serial := s.serial + 1 }
          s.onThread core tid fun v =>
            if op = .future then (mark v).onTh fun t => { t with status := .parked .future }
            else if h.remote && load then v.onTh fun t => { t with status := .parked (.reply h.va) }
            else ((mark v).onTh fun t => if h.remote then { t with far := t.far ++ [h.va] } else t).commit len

/-- The verdict of an access to a page of another device: the home may refuse a load when it answers, or be unreachable (R396, R399).
(DESIGN CHOICE, log entry 37.) -/
def State.remoteVerdict (s : State) (core : Nat) (t : Thread) (a : Access) : Verdict :=
  match s.check core t a with
  | .error v => v
  | .ok h =>
    match h.loc with
    | .remote d _ =>
      if a.rd then
        if s.cutOff d then .trap (trapAt 28 Cause.mcheck 1 a.va)
        else if t.answer == some a.va && Config.remoteRefuses [d, a.va.toNat, s.free] then .trap (trapAt 28 Cause.prot 5 a.va)
        else .ok
      else .ok
    | _ => .ok

/-- MCHECK at a load whose data is lost to an uncorrectable error (R350, R369), at its home or in the L1 copy that it hits: its
destination is not written. -/
def State.errVerdict (s : State) (core : Nat) (t : Thread) (a : Access) : Verdict :=
  match s.check core t a with
  | .error v => v
  | .ok h =>
    let lost : Bool := match (if a.wr || !h.leased then none else s.l1Hit core h.loc a.n) with
      | some x => lineBad x h.loc.inLine a.n
      | none => s.spoiled h.loc a.n
    if a.rd && lost then .trap (trapAt 28 Cause.mcheck 1 a.va) else .ok

/-- What reading an unwritten word does to a thread whose instruction has acted (R16): UNSEEN is set, at once or when an instruction at which
it has parked completes. An instruction that it will execute again has no effect yet (R27). -/
def Thread.noteSeen (t : Thread) : Thread :=
  match t.status with
  | .parked w => if w.again then t else { t with owed := true }
  | _ => t.setUnseen
def State.noteSeen (s : State) (core : Nat) (tid : W32) (unseen : Bool) : State :=
  if unseen then s.onThread core tid fun v => v.onTh Thread.noteSeen else s

/-- A per-lane memory instruction: the access of each lane, its checks and waits, and what a committing lane does. -/
def memForm (o : Opnds) (acc : View → Access) (pre : View → Verdict)
    (body : State → Nat → View → Hit → State) (s : State) : LaneForm :=
  let core := s.issue.core
  .of o
    (fun v => (((pre v).andThen (s.accessVerdict core v.th (acc v))).andThen (s.remoteVerdict core v.th (acc v))).andThen
      (s.errVerdict core v.th (acc v)))
    fun tids s => tids.foldl (fun s tid =>
      match s.view? core tid with
      | none => s
      | some v =>
        match s.check core v.th (acc v) with
        | .error _ => s
        | .ok h =>
          let a := acc v
          (body s core v h).noteSeen core tid ((o.srcs.any v.unwritten) || (a.rd && s.padUnwritten h.loc a.n))) s

/-! ### LD and ST (R235) -/

/-- The effective address (R233). -/
def effAddr (v : View) (a : Fld) (off : W64) (n : Nat) : W64 := v.baseVal a + off * BitVec.ofNat 64 n
def off8 (i : BitVec 8) : W64 := i.signExtend 64
/-- The offset behind an X word: 34 bits (R35). -/
def off34 (x : BitVec 26) (i : BitVec 8) : W64 := (x ++ i).signExtend 64

def loadForm (f : Bool) (sz : BitVec 3) (d a : Fld) (off len : W64) (s : State) : LaneForm :=
  let n := szBytes sz.toNat
  let w := szRegs sz.toNat
  memForm { srcs := [.base a f], dsts := [⟨d, w⟩] } (fun v => { va := effAddr v a off n, n, rd := true, wr := false })
    (fun _ => .ok)
    (fun s core v h => s.issueReq core v.th.ident.tid h n (.load sz.toNat) (some (v.th.refs d w)) len) s
def loadOp (f : Bool) (sz : BitVec 3) (d a : Fld) (off len : W64) (s : State) : Result := .next (s.eachLane (loadForm f sz d a off len s))

/-- The data that a store of n bytes takes from d. -/
def storeData (v : View) (d : Fld) (sz : Nat) : BitVec 128 :=
  match sz with
  | 5 => (v.rd64 d).setWidth 128
  | 6 => v.rd128 d
  | _ => (v.rd32 d).setWidth 128

def storeForm (f : Bool) (sz : BitVec 3) (d a : Fld) (off len : W64) (s : State) : LaneForm :=
  let n := szBytes sz.toNat
  let w := szRegs sz.toNat
  memForm { srcs := [.base a f, ⟨d, w, w, false⟩] } (fun v => { va := effAddr v a off n, n, rd := false, wr := true })
    (fun _ => .ok)
    (fun s core v h => s.issueReq core v.th.ident.tid h n (.store (storeData v d sz.toNat)) none len) s
def storeOp (f : Bool) (sz : BitVec 3) (d a : Fld) (off len : W64) (s : State) : Result := .next (s.eachLane (storeForm f sz d a off len s))

def execLd (o : M2) (s : State) : Result := loadOp o.f o.s o.d o.a (off8 o.i) 4#64 s
def execLdX (x : BitVec 26) (o : M2) (s : State) : Result := loadOp o.f o.s o.d o.a (off34 x o.i) 8#64 s
def execSt (o : M2) (s : State) : Result := storeOp o.f o.s o.d o.a (off8 o.i) 4#64 s
def execStX (x : BitVec 26) (o : M2) (s : State) : Result := storeOp o.f o.s o.d o.a (off34 x o.i) 8#64 s

/-! ### LDF and STF (R209, R210, R237) -/

/-- LDF at its home (R209, R210): the value, or none while the word is empty. -/
def State.ldfAt (s : State) (core : Nat) (l : Loc) : State × Option Nat :=
  let s := s.settle l 8
  if s.futureFull l then
    let (s, x) := s.perform core l 8 .future
    (s, some x)
  else (s, none)

/-- Whether a slice has a slot for one more deferred LDF (R210). -/
def State.hasSlot (s : State) (l : Loc) : Bool := decide ((s.deferred.filter fun d => d.word.slice == l.slice).length < 128)

def ldfForm (f : Bool) (d a : Fld) (off len : W64) (s : State) : LaneForm :=
  memForm { srcs := [.base a f], dsts := [⟨d, 2⟩] }
    (fun v => { va := effAddr v a off 8, n := 8, rd := true, wr := false, fut := true }) (fun _ => .ok)
    (fun s core v h => s.issueReq core v.th.ident.tid h 8 .future (some (v.th.refs d 2)) len) s
def ldfOp (f : Bool) (d a : Fld) (off len : W64) (s : State) : Result := .next (s.eachLane (ldfForm f d a off len s))

def stfForm (f : Bool) (d a : Fld) (off len : W64) (s : State) : LaneForm :=
  memForm { srcs := [.base a f, ⟨d, 2, 2, false⟩] }
    (fun v => { va := effAddr v a off 8, n := 8, rd := false, wr := true, fut := true }) (fun _ => .ok)
    (fun s core v h => s.issueReq core v.th.ident.tid h 8 (.stf (v.rd64 d)) none len) s
def stfOp (f : Bool) (d a : Fld) (off len : W64) (s : State) : Result := .next (s.eachLane (stfForm f d a off len s))

def execLdf (o : L2) (s : State) : Result := ldfOp o.f o.d o.a (off8 o.i) 4#64 s
def execLdfX (x : BitVec 26) (o : L2) (s : State) : Result := ldfOp o.f o.d o.a (off34 x o.i) 8#64 s
def execStf (o : L2) (s : State) : Result := stfOp o.f o.d o.a (off8 o.i) 4#64 s
def execStfX (x : BitVec 26) (o : L2) (s : State) : Result := stfOp o.f o.d o.a (off34 x o.i) 8#64 s

/-! ### Atomics (R238 to R240) -/

/-- The forms that a replay task combines in order (R240). -/
def AtomOp.ordered : AtomOp → Bool
  | .fadd32 | .fadd64 | .bfadd2 => true
  | _ => false

/-- The compare forms read d as a source. -/
def AtomOp.compares : AtomOp → Bool
  | .cas | .cas64 => true
  | _ => false

def atomOpnds (op : AtomOp) (o : R3) : Opnds :=
  let w := op.size / 4
  { srcs := [.base o.a o.f, ⟨o.b, w, w, o.g⟩] ++ (if op.compares then [⟨o.d, w, w, false⟩] else []), dsts := [⟨o.d, w⟩] }

/-- The low or whole value of an operand. -/
def operandOf (v : View) (f : Fld) (n : Nat) : W64 := if n = 8 then v.rd64 f else (v.rd32 f).setWidth 64

def atomForm (op : AtomOp) (o : R3) (s : State) : LaneForm :=
  let n := op.size
  let core := s.issue.core
  let replay := (s.crew?.map (·.replay)).getD false && op.ordered
  memForm (atomOpnds op o) (fun v => { va := v.baseVal o.a, n, rd := true, wr := true })
    (fun v => if replay && (v.th.sfe || o.d != Fld.z) then .trap (trapOpen stageCard Cause.illegal 11) else .ok)
    (fun s core' v h =>
      let tid := v.th.ident.tid
      let y := operandOf v o.b n
      if replay then
        let k := (s.coreAt core).crew
        s.issueReq core' tid h n (.term op y (s.coreAt core).ten ((k.map (·.task)).getD 0) ((k.map (·.no)).getD 0) tid) none 4#64
      else s.issueReq core' tid h n (.rmw op y (operandOf v o.d n)) (some (v.th.refs o.d (n / 4))) 4#64) s
def atom (op : AtomOp) (o : R3) (s : State) : Result := .next (s.eachLane (atomForm op o s))

def execAtomAdd (o : R3) (s : State) : Result := atom .add o s
def execAtomMin (o : R3) (s : State) : Result := atom .min o s
def execAtomMax (o : R3) (s : State) : Result := atom .max o s
def execAtomAnd (o : R3) (s : State) : Result := atom .and o s
def execAtomOr (o : R3) (s : State) : Result := atom .or o s
def execAtomXor (o : R3) (s : State) : Result := atom .xor o s
def execAtomXchg (o : R3) (s : State) : Result := atom .xchg o s
def execAtomCas (o : R3) (s : State) : Result := atom .cas o s
def execAtomAdd64 (o : R3) (s : State) : Result := atom .add64 o s
def execAtomCas64 (o : R3) (s : State) : Result := atom .cas64 o s
def execAtomXchg64 (o : R3) (s : State) : Result := atom .xchg64 o s
def execAtomFadd32 (o : R3) (s : State) : Result := atom .fadd32 o s
def execAtomFadd64 (o : R3) (s : State) : Result := atom .fadd64 o s
def execAtomBfadd2 (o : R3) (s : State) : Result := atom .bfadd2 o s
def execAtomFmin32 (o : R3) (s : State) : Result := atom .fmin32 o s
def execAtomFmax32 (o : R3) (s : State) : Result := atom .fmax32 o s

/-! ### Affine access (R212, R213, R242) -/

def AffRec.base (r : AffRec) : Int := bitsOf r.bits 19 0
def AffRec.stride (r : AffRec) (q : Nat) : Int := (r.bits.extractLsb' (32 + 16 * q) 16).toInt
def AffRec.extent (r : AffRec) (q : Nat) : Nat :=
  let e := bitsOf r.bits (103 + 8 * q) (96 + 8 * q)
  if e = 0 then 256 else e
/-- Index q of an index word. -/
def affIndex (x : W32) (q : Nat) : Nat := bitsOf x (8 * q + 7) (8 * q)
/-- The pad-aperture address of an offset (R196). -/
def padAddr (o : Int) : W64 := 0xFFFFFFFE00000000#64 + BitVec.ofInt 64 o
/-- The offset of an access (R213). -/
def AffRec.offset (r : AffRec) (x : W32) : Int :=
  r.base + r.stride 0 * affIndex x 0 + r.stride 1 * affIndex x 1 + r.stride 2 * affIndex x 2 + r.stride 3 * affIndex x 3

def stageAffIndex : Nat := 21
def stageAffRange : Nat := 22
def stageAffAlign : Nat := 23

/-- The checks of R213. -/
def affCheck (r : AffRec) (pad : Nat) (x : W32) (n : Nat) : Verdict :=
  let off := r.offset x
  if (List.range 4).any fun q => decide (affIndex x q ≥ r.extent q) then .trap (trapAt stageAffIndex Cause.prot 1 (padAddr r.base))
  else if off < 0 ∨ off + n > pad * 128 then .trap (trapAt stageAffRange Cause.prot 1 (padAddr off))
  else if off % n ≠ 0 then .trap (trapAt stageAffAlign Cause.misalign 0 (padAddr off))
  else .ok

/-- The greatest number of distinct words of one bank among word addresses. -/
def bankDegree (l : List Nat) : Nat :=
  let d := l.eraseDups
  (List.range 32).foldl (fun m b => max m ((d.filter fun w => w % 32 == b).length)) 0

/-- The conflicts of an access of n bytes by lanes at offsets (R201). -/
def conflicts (n : Nat) (l : List (Nat × Nat)) : Nat :=
  let width := if n ≤ 4 then 32 else if n = 8 then 16 else 8
  ((List.range (32 / width)).map fun q =>
    let here := l.filter fun x => x.1 / width == q
    bankDegree (here.flatMap fun x => (List.range ((n + 3) / 4)).map fun i => x.2 / 4 + i) - 1).sum

/-- Record j of the issuing crew. -/
def State.affRec (s : State) (j : Nat) : AffRec := ((s.crew?.bind fun c => c.aff[j]?).getD { bits := 0#128, cnt := 0#32 })

/-- Add to a record's counter, which saturates. -/
def AffRec.add (r : AffRec) (n : Nat) : AffRec := { r with cnt := BitVec.ofNat 32 (min (2 ^ 32 - 1) (r.cnt.toNat + n)) }
def State.onAff (s : State) (j : Nat) (f : AffRec → AffRec) : State :=
  s.onCore s.issue.core fun c => c.onCrew fun k => { k with aff := k.aff.zipIdx.map fun (r, i) => if i = j then f r else r }

/-- An affine access of n bytes: its conflicts are counted when it issues, and it is performed at once. -/
def affForm (o : RJ) (n : Nat) (store : Bool) (s : State) : LaneForm :=
  let core := s.issue.core
  let j := o.j.toNat
  let r := s.affRec j
  let pad := (s.crew?.map (·.pad)).getD 0
  let w := n / 4
  let opn : Opnds := if store then { srcs := [.r o.a o.f, ⟨o.d, w, w, false⟩] } else { srcs := [.r o.a o.f], dsts := [⟨o.d, w⟩] }
  let va (v : View) : W64 := padAddr (r.offset (v.rd32 o.a))
  let acc (v : View) : Access := { va := va v, n, rd := !store, wr := store }
  .of opn
    (fun v => (affCheck r pad (v.rd32 o.a) n).andThen (s.accessVerdict core v.th (acc v)))
    fun tids s =>
      let who := s.run.filter fun v => tids.contains v.th.ident.tid
      let lanes := who.map fun v => (v.th.place.lane, (r.offset (v.rd32 o.a)).toNat)
      let s := s.onAff j fun x => x.add (conflicts n lanes)
      tids.foldl (fun s tid =>
        match s.view? core tid with
        | none => s
        | some v =>
          let off := (r.offset (v.rd32 o.a)).toNat
          let l : Loc := .pad core off
          (s.issueReq core tid { loc := l } n (if store then .store (storeData v o.d (if n = 8 then 5 else 4)) else .load (if n = 8 then 5 else 4))
            (if store then none else some (v.th.refs o.d w)) 4#64).noteSeen core tid
              ((opn.srcs.any v.unwritten) || (!store && s.padUnwritten l n))) s
def affOp (o : RJ) (n : Nat) (store : Bool) (s : State) : Result := .next (s.eachLane (affForm o n store s))

def execLda32 (o : RJ) (s : State) : Result := affOp o 4 false s
def execLda64 (o : RJ) (s : State) : Result := affOp o 8 false s
def execSta32 (o : RJ) (s : State) : Result := affOp o 4 true s
def execSta64 (o : RJ) (s : State) : Result := affOp o 8 true s

/-- AFFSET: once for the run, with the leader's group (R242). -/
def affsetForm (o : RAJ) : LaneForm :=
  .of { srcs := [.q o.a o.f] } noCheck fun tids s =>
    let opn : Opnds := { srcs := [.q o.a o.f] }
    let s := match s.run with
      | [] => s
      | v :: _ => s.onAff o.j.toNat fun _ => { bits := v.rd128 o.a &&& affMask, cnt := 0#32 }
    s.onTids s.issue.core tids fun v => (opn.noteUnseen v).done 4#64
def execAffset (o : RAJ) (s : State) : Result := .next (s.allLanes (affsetForm o))

/-- AFFCNT: the counter as it stands, to every lane. -/
def execAffcnt (o : RDJ) (s : State) : Result :=
  let c := (s.affRec o.j.toNat).cnt
  .next (s.lanes { dsts := [⟨o.d, 1⟩] } noCheck fun v => (v.wr32 o.d c).done 4#64)

/-! ### Address conversion (R243) -/

/-- The limits of the windows, for one thread. -/
structure Limits where
  pad : Nat
  cel : Nat
  deriving DecidableEq, Repr

def State.limits (s : State) (core : Nat) : Limits :=
  { pad := (((s.coreAt core).crew.map (·.pad)).getD 0) * 128, cel := s.celsz (cellOf core) }

/-- The space code of an address. -/
def spaceOf (l : Limits) (a : W64) : Nat :=
  if !canonical a then 5
  else match windowOf a with
    | none => 0
    | some 1 => if windowOff a < 65536 then 1 else 4
    | some 2 => if windowOff a < l.pad then 2 else 4
    | some 3 => if windowOff a < l.cel then 3 else 4
    | some _ => 4

def a2g (base : W64) (o : R2) (s : State) : Result :=
  .next (s.lanes { srcs := [.r o.a o.f], dsts := [⟨o.d, 2⟩] } noCheck fun v =>
    (v.wr64 o.d (base + (v.rd32 o.a).setWidth 64)).done 4#64)

/-- A 32-bit result from a base address. -/
def addrOp (o : R2) (f : Limits → View → W64 → W32) (s : State) : Result :=
  let l := s.limits s.issue.core
  .next (s.lanes { srcs := [.base o.a o.f], dsts := [⟨o.d, 1⟩] } noCheck fun v =>
    (v.wr32 o.d (f l v (v.baseVal o.a))).done 4#64)

def noOffset : W32 := BitVec.allOnes 32
/-- G2A.LOC: an offset in the local window, or a distance from %locbase. -/
def locOffset (l : Limits) (locbase a : W64) : W32 :=
  if spaceOf l a = 1 then BitVec.ofNat 32 (windowOff a)
  else if locbase ≠ 0#64 ∧ locbase.toNat ≤ a.toNat ∧ a.toNat - locbase.toNat < 65536 then
    BitVec.ofNat 32 (a.toNat - locbase.toNat)
  else noOffset

def execA2gLoc (o : R2) (s : State) : Result := a2g 0xFFFFFFFD00000000#64 o s
def execA2gPad (o : R2) (s : State) : Result := a2g 0xFFFFFFFE00000000#64 o s
def execA2gCel (o : R2) (s : State) : Result := a2g 0xFFFFFFFF00000000#64 o s
def execG2aLoc (o : R2) (s : State) : Result := addrOp o (fun l v a => locOffset l v.th.locbase a) s
def execG2aPad (o : R2) (s : State) : Result :=
  addrOp o (fun l _ a => if spaceOf l a = 2 then BitVec.ofNat 32 (windowOff a) else noOffset) s
def execG2aCel (o : R2) (s : State) : Result :=
  addrOp o (fun l _ a => if spaceOf l a = 3 then BitVec.ofNat 32 (windowOff a) else noOffset) s
def execSpaceof (o : R2) (s : State) : Result := addrOp o (fun l _ a => BitVec.ofNat 32 (spaceOf l a)) s
def execInspace (o : R3) (s : State) : Result :=
  let l := s.limits s.issue.core
  .next (s.lanes { srcs := [.base o.a o.f, .r o.b o.g], dsts := [⟨o.d, 1⟩] } noCheck fun v =>
    (v.wr32 o.d (boolWord (BitVec.ofNat 32 (spaceOf l (v.baseVal o.a)) == v.rd32 o.b))).done 4#64)

/-! ### Fences (R229, R230, R244) -/

/-- What OPRDY waits for: every result but those of engine commands. -/
def Thread.oprdyDone (t : Thread) : Bool :=
  t.pending.all fun p => match p.kind with | .cmd | .carafe => true | .arith | .quiet | .load | .future | .task | .stq => false
/-- What DRAIN waits for: the completion registers of engine commands. -/
def Thread.drained (t : Thread) : Bool := t.pending.all fun p => p.kind != .cmd

/-- The report of a refused remote store (R396). -/
def Thread.refusal (t : Thread) : Verdict :=
  match t.refused with
  | none => .ok
  | some a => .trap { trapAt stageCard Cause.prot 5 a with report := true }

def execOprdy (s : State) : Result :=
  .next (s.lanes {} (fun v => if v.th.oprdyDone then .ok else .wait .oprdy) fun v => v.done 4#64)
def execDrain (s : State) : Result :=
  .next (s.lanes {} (fun v => if v.th.drained then .ok else .wait .drain) fun v => (v.onTh fun t => { t with qm := [] }).done 4#64)
/-- Whether a thread's stores are written: its requests are performed at their homes, and its stores to pages of other devices are
placed there. When the other devices place them, once the flits have arrived, is free. (DESIGN CHOICE, log entry 37.) -/
def State.placed (s : State) (core : Nat) (t : Thread) : Bool :=
  !(s.coreAt core).outstanding t.ident.tid &&
    (t.far.isEmpty || (t.far.all (fun a => !s.unsent a 1) && Config.freeBool [35, s.free, t.ident.tid.toNat]))

/-- The wait for the stores of a thread (R226, R227). -/
def State.fenceVerdict (s : State) (core : Nat) (t : Thread) : Verdict := if s.placed core t then .ok else .wait .fence

/-- FENCE.DOM: every earlier store of the thread is placed, and a refusal is reported. -/
def execFenceDom (s : State) : Result :=
  let core := s.issue.core
  .next (s.lanes {} (fun v => (s.fenceVerdict core v.th).andThen v.th.refusal) fun v =>
    (v.onTh fun t => { t with far := [] }).done 4#64)
/-- FENCE.SYS: every earlier store and atomic of the thread is written at its home. -/
def execFenceSys (s : State) : Result :=
  let core := s.issue.core
  .next (s.lanes {} (fun v => s.fenceVerdict core v.th) fun v => (v.onTh fun t => { t with far := [] }).done 4#64)

end Sys2Proof.Machine
end

