-- ==== Sys2Proof/Machine/Trace.lean ====
section
/-! DEFINITION. Writes of the command processor to a tenancy's memory, and the sample and trace ring (R380, R412). -/

namespace Sys2Proof.Machine
open Sys2Proof

/-- Write the low n bytes of `v` at a generic address of a tenancy, through its root, as the command processor does; false
when the address does not translate. -/
def State.cpWrite (s : State) (ten : Nat) (va : W64) (n v : Nat) : State × Bool :=
  match s.translate ten (s.tenAt ten).root true { w := true } va with
  | .error _ => (s, false)
  | .ok h => ((((s.settle h.loc n).clearFutures h.loc n).wrTables h.loc n v).stampDev h.loc, true)

/-- Read n bytes at a generic address of a tenancy as the command processor does: none when the address does not translate, or an
uncorrectable error has taken the data (R369). -/
def State.cpRead (s : State) (ten : Nat) (va : W64) (n : Nat) : Option (State × Nat) :=
  match s.translate ten (s.tenAt ten).root true { r := true } va with
  | .error _ => none
  | .ok h => if s.spoiled h.loc n || s.underRepair h.loc then none else some (s.settle h.loc n, (s.settle h.loc n).rd h.loc n)

/-- One record of R380. (DEDUCED, log entry 44.) -/
structure TraceRec where
  ttid   : W64 := 0#64
  pc     : W64
  clk    : W64
  kind   : Nat
  status : Nat := 0
  tid    : W32
  info   : W32 := 0#32
  deriving DecidableEq, Repr

/-- The 32 bytes of a record as a number. -/
def TraceRec.bits (r : TraceRec) : Nat :=
  r.ttid.toNat + r.pc.toNat * 2 ^ 64 + r.clk.toNat * 2 ^ 128 + (r.kind % 256) * 2 ^ 192 + (r.status % 256) * 2 ^ 200 +
    (r.tid.toNat % 65536) * 2 ^ 208 + r.info.toNat * 2 ^ 224

/-- Write a record to the ring of a tenancy that has it on; a full ring, or one that does not translate, drops it and
counts the drop. -/
def State.trace (s : State) (ten : Nat) (r : TraceRec) : State :=
  let t := (s.tenAt ten).trace
  if !t.on then s
  else
    let drop (s : State) : State := s.onTen ten fun x => { x with trace := { x.trace with dropped := x.trace.dropped + 1 } }
    if t.count ≥ t.cap then drop s
    else
      match s.cpWrite ten (t.addr + BitVec.ofNat 64 (32 * t.count)) 32 r.bits with
      | (_, false) => drop s
      | (s', true) => s'.onTen ten fun x => { x with trace := { x.trace with count := x.trace.count + 1 } }

end Sys2Proof.Machine
end

