-- ==== Sys2Proof/Machine/Tasks.lean ====
section
/-! DEFINITION. Tasks: the task control block and its checks, acceptance, dealing, the start and the end of a crew, and
Barista (R131 to R133, R181 to R188, R192 to R194, R394). -/

namespace Sys2Proof.Machine
open Sys2Proof

/-! ### Synchronisation and logical time (R180, R227) -/

/-- The greatest timestamp of any core. -/
def State.maxPts (s : State) : Nat := s.cores.foldl (fun m c => max m c.pts) 0
/-- A core is ordered behind the held terms (R180, R240): none of its reads may miss one. -/
def State.seeTerms (s : State) (core : Nat) : State :=
  { s with terms := s.terms.map fun t => if t.seen.contains core then t else { t with seen := t.seen ++ [core] } }
/-- A core puts an entry into a stage queue: a term that it is ordered behind comes before what any taker of the entry does next (R180,
R219). -/
def State.notePut (s : State) (core : Nat) : State :=
  { s with terms := s.terms.map fun t => if t.seen.contains core then { t with put := true } else t }

/-- What follows the second side of a synchronisation comes after every access made so far: the core's timestamp rises to
the greatest of any core. -/
def State.meet (s : State) (core : Nat) : State := (s.seeTerms core).raisePts core s.maxPts
/-- The same for what a command of the host launches or wakes: it comes after the host's writes too (R227). -/
def State.meetHost (s : State) (core : Nat) : State := (s.seeTerms core).raisePts core (max s.maxPts s.hostTs)

/-! ### The task control block (R181, R182, R394) -/

/-- n bytes at an offset of a block given as a number. -/
def fieldAt (b off n : Nat) : Nat := b / 2 ^ (8 * off) % 2 ^ (8 * n)

/-- The fields of a block of 256 bytes. -/
def Tcb.of (b : Nat) : Tcb :=
  let q (o : Nat) : W64 := BitVec.ofNat 64 (fieldAt b o 8)
  let w (o : Nat) : W32 := BitVec.ofNat 32 (fieldAt b o 4)
  { scalar := q 0, lane := q 8, seed := q 16, itern := q 24, reshint := q 32, crews := w 40, nthr := w 44,
    allot := BitVec.ofNat 16 (fieldAt b 48 2), pad128 := BitVec.ofNat 16 (fieldAt b 50 2), itert := w 52, ctl := w 56,
    envbase := w 60, stageq := q 64, dgrp := w 72, prod := (List.range 8).map fun j => w (80 + 4 * j),
    param := (List.range 15).map fun j => w (112 + 4 * j) }

def Tcb.pri (t : Tcb) : Nat := bitsOf t.ctl 2 0
def Tcb.queue (t : Tcb) : Nat := bitsOf t.ctl 9 4
def Tcb.replay (t : Tcb) : Bool := t.ctl.getLsbD 10
def Tcb.res (t : Tcb) : Nat := bitsOf t.ctl 13 11
/-- G of R394, and the group's first rank. -/
def Tcb.group (t : Tcb) : Nat := bitsOf t.dgrp 31 16
def Tcb.first (t : Tcb) : Nat := bitsOf t.dgrp 15 0

def ceilDiv (a b : Nat) : Nat := (a + b - 1) / b

/-- Reason 2 of R182 and R394, but for the descriptor of a stage task. -/
def Tcb.invalid (t : Tcb) (b cores dev : Nat) : Bool :=
  fieldAt b 76 4 != 0 || fieldAt b 172 84 != 0 || bitsOf t.ctl 31 14 != 0 || t.ctl.getLsbD 3 ||
  (t.scalar != 0#64 && (t.scalar.toNat % 4 != 0 || !canonical t.scalar)) ||
  t.lane.toNat % 4 != 0 || !canonical t.lane || t.stageq.toNat % 128 != 0 || !canonical t.stageq ||
  t.crews.toNat = 0 || decide (t.crews.toNat > 2 ^ 24) || t.nthr.toNat = 0 || decide (t.nthr.toNat > 2048) ||
  decide (t.allot.toNat < 64) || decide (t.allot.toNat > 512) || t.allot.toNat % 32 != 0 || decide (t.pad128.toNat > 8192) ||
  t.res == 1 || decide (t.res > 4) || decide (t.crews.toNat * t.nthr.toNat > 2 ^ 31) ||
  decide (t.itern.toNat ≥ 2 ^ 32) || decide (ceilDiv t.itern.toNat t.crews.toNat ≥ 2 ^ 30) || t.itert == 0#32 ||
  (t.res == 4 && decide (t.crews.toNat > cores)) || (t.stageq != 0#64 && t.res != 0) ||
  decide (t.first + t.group > 128) || (decide (t.group ≥ 2) && (decide (dev < t.first) || decide (dev ≥ t.first + t.group)))

/-- The register words that a section needs for the dealing of R132 (R133). -/
def Tcb.sectionWords (t : Tcb) : Nat := ceilDiv (ceilDiv t.nthr.toNat 32) 4 * 32 * t.allot.toNat

/-- The cores of a tenancy. -/
def Tenancy.cores (t : Tenancy) : Nat := 40 * t.doms.length

/-- Whether a task identifier names a live task of a tenancy (R183). -/
def State.live (s : State) (ten : Nat) (id : W32) : Bool := (s.task? ten id.toNat).isSome

/-- The addresses of a thread: the root of its page tables, and the base of its local window. -/
structure Space where
  root : W64
  loc  : W64
  deriving DecidableEq, Repr

def Thread.space (t : Thread) : Space := ⟨t.ptbase, t.locbase⟩
def CmdCtx.space (x : CmdCtx) : Space := ⟨x.ptbase, x.locbase⟩

/-- Where a translated address of queue storage lies: a PIN-SLICE page. -/
def State.queuePage (s : State) (ten : Nat) (root va : W64) : Except (Nat × Nat) Loc :=
  match s.walk ten root va with
  | .outside => .error (Cause.prot, 5)
  | .lost => .error (Cause.mcheck, 1)
  | .entry e lvl =>
    let p := Pte.of e
    if !p.inTenancy (s.tenAt ten).doms s.dev then .error (Cause.prot, 5)
    else if p.home != 2 || (p.domain && p.dev != s.dev) then .error (Cause.prot, 0)
    else .ok (placeOf s.dev e lvl va)
  | _ => .error (Cause.prot, 0)

/-- Where n bytes from an address of queue storage lie (R178): in the cell memory of a cell, or in a PIN-SLICE page, which a local address
may reach too (R196). An error is the cause and sub-cause of a refusal: outside the tenancy comes first. R179 leaves open what a page that is
not mapped, or whose entry is malformed, gives, and whether the rights of the page are checked: it is no queue storage, and they are not.
(DESIGN CHOICE, log entry 87.) -/
def State.queuePlace (s : State) (ten : Nat) (sp : Space) (cell : Nat) (va : W64) (n : Nat) : Except (Nat × Nat) Loc :=
  let o := windowOff va
  if !canonical va then .error (Cause.prot, 0)
  else match windowOf va with
    | some 1 => if sp.loc = 0#64 ∨ o + n > 65536 then .error (Cause.prot, 0) else s.queuePage ten sp.root (sp.loc + BitVec.ofNat 64 o)
    | some 3 => if o + n ≤ s.celsz cell then .ok (.cel cell o) else .error (Cause.prot, 0)
    | some _ => .error (Cause.prot, 0)
    | none => s.queuePage ten sp.root va

/-- The reason for refusing a block, if any; reasons are taken in the order of R182. A descriptor that does not lie in queue storage
has no place to hold TASKID: reason 2. (DESIGN CHOICE, log entry 88.) -/
def State.tcbReason (s : State) (ten : Nat) (b : Nat) (stage : Option Loc) : Option Nat :=
  let t := Tcb.of b
  if (s.tasks.filter fun x => x.ten == ten && x.tcb.queue == t.queue).length ≥ 256 then some 1
  else if t.invalid b (s.tenAt ten).cores s.dev then some 2
  else if t.stageq != 0#64 && (match stage with
      | none => true
      | some l => s.live ten (BitVec.ofNat 32 (s.rd (l.plus 24) 4))) then some 2
  else if t.sectionWords > 65536 then some 3
  else none

/-! ### Acceptance and dealing (R183, R185 to R187, R192) -/

/-- Accept a block: a task that has not entered its queue. The identifier after 2^31 - 1 is 1, and one that a live task still has is not
passed over: the spec says neither. (DESIGN CHOICE, log entry 119.) -/
def State.acceptTask (s : State) (ten b : Nat) (stage : Option Loc) (zcp : Option (Nat × W32)) : State × Nat :=
  let id := (s.tenAt ten).nextTask
  let t : Task :=
    { id, ten, tcb := Tcb.of b, order := s.order, entered := false, stage, zcp, allots := [], homes := [], started := [], ended := [],
      trig := [], fix := [], probes := List.replicate 16 0#64, gens := [], bypass := [], announced := [], go := false }
  let s := { s with tasks := s.tasks ++ [t], order := s.order + 1 }
  let s := s.onTen ten fun x => { x with nextTask := if id = 2 ^ 31 - 1 then 1 else id + 1 }
  let s := match stage with
    | none => s
    | some l => (s.wr (l.plus 24) 4 id).stampDev l
  (s, id)

/-- The cell after the one that received the previous unit of a stack domain (R186). -/
def State.dealPos (s : State) (dom : Nat) : Nat := ((s.dealAt.find? fun p => p.1 == dom).map (·.2)).getD 0

/-- Deal the cell units j, j + 1, ... of one stack unit to the cells of a domain in turn. -/
def dealUnits (dom c : Nat) : Nat → Nat → Nat → List Allot × Nat
  | 0, _, pos => ([], pos)
  | n + 1, j, pos =>
    if 2 * j ≥ c then ([], pos)
    else
      let u : Allot := { lo := 2 * j, hi := min (2 * j + 2) c, stack := dom, cell := some (20 * dom + pos) }
      let (us, p) := dealUnits dom c n (j + 1) ((pos + 1) % 20)
      (u :: us, p)

/-- Deal one stack unit. A stage task's units stay with the dispatcher. -/
def State.dealStack (s : State) (doms : List Nat) (c : Nat) (stage : Bool) (i : Nat) : State × List Allot :=
  let dom := doms.getD (i % doms.length) 0
  if stage then (s, [{ lo := 40 * i, hi := min (40 * i + 40) c, stack := dom, cell := none }])
  else
    let (us, p) := dealUnits dom c 20 (20 * i) (s.dealPos dom)
    ({ s with dealAt := (dom, p) :: s.dealAt.filter fun x => x.1 != dom }, us)

/-- A task enters its queue, and its crews are dealt. -/
def State.enterTask (s : State) (ten id : Nat) : State :=
  match s.task? ten id with
  | none => s
  | some t =>
    let doms := (s.tenAt ten).doms
    let c := t.tcb.crews.toNat
    let (s, us) := (List.range (ceilDiv c 40)).foldl (fun (acc : State × List Allot) i =>
      let (s, us) := acc.1.dealStack doms c (t.tcb.stageq != 0#64) i
      (s, acc.2 ++ us)) (s, [])
    s.onTask ten id fun t => { t with entered := true, allots := us }

/-! ### The start of a crew (R132, R184) -/

def TrapRegs.zero : TrapRegs := { cause := 0#32, pc := 0#64, mask := 0#32, field := 0#64, addr := 0#64, inst := 0#32, pre := 0#32 }
def LoopLevel.zero : LoopLevel := { lc := 0#32, lb := 0#64, copy := [] }
/-- The state of a register at allocation (R13). -/
def Reg.fresh : Reg := { val := 0#32, full := true, valid := false }

/-- The launch state of a thread of a task (R13, R17, R184). (DESIGN CHOICE, log entry 6.) -/
def Tcb.thread (t : Tcb) (ten : Tenancy) (task crew : Nat) (sfe : Bool) (place : Place) (tid : W32) (pc : W64) : Thread :=
  { sfe, place, regs := List.replicate (if sfe then 112 else t.allot.toNat) Reg.fresh, pc, win := 0,
    allot := if sfe then 112 else t.allot.toNat,
    ident := { tid, crew := BitVec.ofNat 32 crew, task := BitVec.ofNat 32 task, nthr := t.nthr, envid := t.envbase + tid },
    str := { episode := 0#32, step := 0#32, seedLo := lo32 t.seed, seedHi := hi32 t.seed, rngd := 0#32, rngr := 0#32 },
    ctl := { mmask := BitVec.allOnes 32, rmode := 0#32, fpflags := 0#32, dbgctl := 0#32, htag := 0#32, nwin := 128#32,
             bintmo := 256#32, nack := 0#32 },
    l0 := LoopLevel.zero, l1 := LoopLevel.zero, l2 := LoopLevel.zero, ra := 0#64, ut := TrapRegs.zero, kt := TrapRegs.zero,
    uhandler := 0#64, khandler := ten.khandler, mode := 0#32, ptbase := ten.root, svcq := ten.svcq, dqpos := 0#32,
    bpend := 0#32, locbase := 0#64, watch := { wp0 := 0#64, wp1 := 0#64, wpctl := 0#32 }, clkShadow := none,
    status := .runnable, pending := [], triggered := false, depth := 0, serial := 0, qm := [], walked := [],
    refused := none, far := [] }

/-- The key and identifier of the scalar front end (R184). -/
def sfeTid : W32 := BitVec.allOnes 32

/-- The place of thread i of a crew at launch (R132). -/
def launchPlace (i : Nat) : Place := { sect := i / 32 % 4, slot := i / 128, lane := i % 32 }

/-- A crew at its start. -/
def Task.crewAt (t : Task) (ten : Tenancy) (no cycle : Nat) : Crew :=
  let n := t.tcb.nthr.toNat
  { task := t.id, no, ten := t.ten, allot := t.tcb.allot.toNat, pad := t.tcb.pad128.toNat, replay := t.tcb.replay,
    threads := (List.range n).map fun i =>
      t.tcb.thread ten t.id no false (launchPlace i) (BitVec.ofNat 32 (no * n + i)) t.tcb.lane,
    sfe :=
      let th := t.tcb.thread ten t.id no true { sect := 0, slot := 0, lane := 0 } sfeTid t.tcb.scalar
      { th with status := if t.tcb.scalar = 0#64 then .exited else .runnable },
    k := t.tcb.param.map Reg.of,
    gangs := (List.range (ceilDiv n 32)).map fun g => { sect := g % 4, slot := g / 4, age := cycle, defer := none },
    head := 0, dq := [], bins := List.replicate 8 none, binRaw := [], spawned := 0,
    aff := List.replicate 8 { bits := 0#128, cnt := 0#32 }, rspill := 0#32, preempt := none, owing := [], backs := [], backCnt := 0, backSeen := 0 }

/-- The issue state of a core at a crew's start and restart: its timers and rotation begin anew, and its issue clock runs from
now on. -/
def Core.startIssue (c : Core) (now : Nat) : Core :=
  { c with
    sfeTime := now,
    sects := (List.range 4).map fun i =>
      { c.sectAt i with cycle := c.cycle, time := now, timer := 0, anchor := none, last := none, busy := [], forced := none } }

/-- What crew start does to the core: the pad's words lose V and take undefined values, its lines are full, %lease and
%mgidle take their reset values, ON of %trial and the engine flags clear, and handles and path-trace slots are unbound
(R18, R184, R280, R296, R312). The mask that PV.MASK has bound to a section stays bound: the spec says neither. (DESIGN CHOICE, log entry 6;
DEDUCED, log entry 48; DESIGN CHOICE, log entry 124.) -/
def Core.startCrew (c : Core) (k : Crew) : Core :=
  let c := { c with
    crew := some k, epoch := c.epoch + 1,
    pad := c.pad.filter fun w => c.pinned.contains ((262143 - w.idx) / 16384),
    empty := c.empty.filter fun e => k.pad ≤ e.1,
    lease := 8#32, mgidle := 1024#32, trial := c.trial &&& 0x7FFFFFFF#32,
    handles := List.replicate 64 none, descs := [], debts := List.replicate 65 0 }
  { c with sects := (List.range 4).map fun i =>
      { c.sectAt i with eflags := 0#32, paths := List.replicate 8 none, praw := [] } }

/-- Put a crew on a core: what it does comes after what its task was submitted or launched behind (R180, R227), and a trial that ends
writes its record (R387). -/
def State.placeCrew (s : State) (core : Nat) (k : Crew) : State :=
  let on := (s.coreAt core).trial.getLsbD 31
  let s := (s.meetHost core).onCore core fun c => (c.startCrew k).startIssue s.now
  if on then s.trace k.ten { pc := 0#64, clk := (s.coreAt core).clock, kind := 6, tid := 0#32, info := Config.freeWord [7, s.free] } else s

/-- Start crew `no` of a task on a core. -/
def State.startCrew (s : State) (core ten id no : Nat) : State :=
  match s.task? ten id with
  | none => s
  | some t =>
    let s := s.placeCrew core (t.crewAt (s.tenAt ten) no (s.coreAt core).cycle)
    s.onTask ten id fun t => { t with started := t.started ++ [no], go := true }

/-! ### PREEMPT (R370) and the restart of a saved crew (R373) -/

/-- The trap registers of a PREEMPT at a boundary. No instruction is executed there: the instruction words that they report are
free, in the layouts of R44 and R45. (DESIGN CHOICE, log entry 23.) -/
def State.preemptRegs (s : State) (t : Thread) (x : Trap) (mask : W32) : TrapRegs :=
  let w (i : Nat) : W32 := Config.freeWord [28, s.free, t.ident.tid.toNat, i]
  let raw : RawInstr := ⟨w 0, if (w 1).getLsbD 31 then some ((w 1).setWidth 26) else none⟩
  trapRegs x.cause x.sub t.pc mask (s.taddr t x) raw

/-- Threads of a core take PREEMPT: those of one gang at one PC take it together. (DEDUCED, log entry 24.) -/
def State.preemptNow (s : State) (core sub : Nat) (addr : W64) (who : List Thread) : State :=
  let key (t : Thread) : Bool × Nat × Nat × W64 :=
    (t.sfe, if t.sfe then 0 else t.place.sect, if t.sfe then 0 else t.place.slot, t.pc)
  ((who.map key).eraseDups).foldl (fun s k =>
    s.takeTrap core ((who.filter fun t => key t == k).map fun t => (t.ident.tid, trapAt 0 Cause.preempt sub addr))
      s.preemptRegs) s

/-- A saved thread at its restart (R373): launch values (R184), but for what the command processor has kept. Its refused and unplaced DOMAIN
stores stay its own (R226, R396). -/
def SavedThread.restart (x : SavedThread) (t : Tcb) (ten : Tenancy) (k : SavedCrew) (sfe : Bool) : Thread :=
  let th := t.thread ten k.task k.no sfe x.place x.tid (if sfe then t.scalar else t.lane)
  { th with bpend := x.bpend, triggered := x.triggered, far := x.far, refused := x.refused, status := if x.live then .runnable else .exited }

/-- A saved crew at its restart on a core, where its entries of the backward store are settled from then on. Its gangs keep the issue cycles
at which they were formed. (DESIGN CHOICE, log entry 107.) -/
def SavedCrew.restart (k : SavedCrew) (t : Task) (ten : Tenancy) (core : Nat) : Crew :=
  let c := t.crewAt ten k.no 0
  { c with
    threads := k.threads.map fun x => x.restart t.tcb ten k false,
    sfe := k.sfe.restart t.tcb ten k true,
    gangs := k.gangs.map fun g => { g with defer := none },
    head := k.head, backs := k.backs.map fun e => { e with ctx := { e.ctx with core } }, backCnt := k.backCnt, backSeen := k.backSeen }

/-- A 32-bit or 16-bit field of a stage task's descriptor. -/
def State.stageField (s : State) (t : Task) (off n : Nat) : Nat :=
  match t.stage with
  | none => 0
  | some l => s.rd (l.plus off) n
def State.setStageField (s : State) (t : Task) (off n v : Nat) : State :=
  match t.stage with
  | none => s
  | some l => (s.wr (l.plus off) n (v % 2 ^ (8 * n))).stampDev l
/-- The field CORES of a stage counts the cores that now run its crews (R192): one more or one less than the word that stands there. What
CORES and RAISES hold when the task is accepted the spec does not say: the counts go on from it. (DESIGN CHOICE, log entry 105.) -/
def State.countCores (s : State) (ten id : Nat) (up : Bool) : State :=
  match s.task? ten id with
  | none => s
  | some t =>
    if t.stage.isSome then s.setStageField t 40 4 (if up then s.stageField t 40 4 + 1 else s.stageField t 40 4 - 1) else s

/-- A cell that has found work begins its next round of steal requests anew (R191). -/
def State.foundWork (s : State) (cell : Nat) : State :=
  s.onCell cell fun c => { c with asked := 0, found := c.asking.isSome || c.found }

/-- Restart a saved crew on a free core: the governor begins at 600 MHz (R155), and every thread enters its privileged handler with
PREEMPT, sub-cause 4. -/
def State.restoreCrew (s : State) (core : Nat) (k : SavedCrew) : State :=
  match s.task? k.ten k.task with
  | none => s
  | some t =>
    let s := { s with saved := s.saved.filter (· != k) }
    let s := (s.placeCrew core (k.restart t (s.tenAt k.ten) core)).onCore core fun c =>
      { c with gov := 0, govNext := none, govWin := 0, govGate := 0 }
    let s := (s.countCores k.ten k.task true).foundWork (cellOf core)
    match (s.coreAt core).crew with
    | none => s
    | some c => s.preemptNow core 4 k.save (c.all.filter Thread.live)

/-! ### Where a task's crews stand -/

def Task.startedAll (t : Task) : Bool := t.started.length ≥ t.tcb.crews.toNat
def Task.endedAll (t : Task) : Bool := t.ended.length ≥ t.tcb.crews.toNat

/-- A crew has triggered (R175), or ended. -/
def Task.crewTriggered (t : Task) (no : Nat) : Bool := t.trig.contains no || t.ended.contains no
/-- A task has triggered when every crew of it has triggered or ended (R175). -/
def Task.triggered (t : Task) : Bool := (List.range t.tcb.crews.toNat).all t.crewTriggered

/-- A producer is done for WAITDEP: it has triggered, has ended or never lived (R175, R183). -/
def State.producerDone (s : State) (ten : Nat) (p : W32) : Bool :=
  p == 0#32 || (match s.task? ten p.toNat with
    | none => true
    | some t => t.triggered)

/-- The crews of an allotment that have not started. -/
def Task.unstarted (t : Task) (a : Allot) : List Nat :=
  ((List.range (a.hi - a.lo)).map (a.lo + ·)).filter fun n => !t.started.contains n
/-- The unstarted crews of a task at a cell, in ascending order. -/
def Task.unstartedAt (t : Task) (cell : Nat) : List Nat :=
  sortBy (fun a b => decide (a ≤ b)) ((t.allots.filter fun a => a.cell == some cell).flatMap t.unstarted)

/-- The first byte of a core's scratchpad that a PIN-CORE page takes (R198). -/
def Core.padLimit (c : Core) : Nat := c.pinned.foldl (fun m j => min m (1048576 - 65536 * (j + 1))) 1048576
/-- Whether a free core can take a crew of a task (R188). A core under repair waits for its own crew (R390). -/
def State.fits (s : State) (core : Nat) (t : Task) : Bool :=
  let c := s.coreAt core
  c.crew.isNone && decide (t.tcb.pad128.toNat * 128 ≤ c.padLimit) && !(s.saved.any fun k => k.repair && k.core == core)

/-! ### Barista (R192, R193) -/

/-- TAIL - HEAD. -/
def State.occupancy (s : State) (t : Task) : Nat := (s.stageField t 20 4 + 2 ^ 32 - s.stageField t 16 4) % 2 ^ 32

/-- The unstarted crews that a stack dispatcher holds for a stage task. -/
def Task.heldBy (t : Task) (dom : Nat) : List Nat :=
  sortBy (fun a b => decide (a ≤ b)) ((t.allots.filter fun a => a.cell.isNone && a.stack == dom).flatMap t.unstarted)

/-- The same, of those that may run on a core: a cell instance of which a crew has started stays on its cell (R186). -/
def Task.heldAt (t : Task) (core : Nat) : List Nat :=
  (t.heldBy (stackOfCore core)).filter fun n => match t.homes.find? fun h => h.1 == n / 2 with
    | none => true
    | some h => h.2 == cellOf core

/-- The saved crews of a task at a cell (R189, R194). A crew that waits for its spare core is none of them: the spec does not say whether
it keeps the task's other crews waiting. (DESIGN CHOICE, log entry 108.) -/
def State.savedAt (s : State) (t : Task) (cell : Nat) : List SavedCrew :=
  s.saved.filter fun k => k.ten == t.ten && k.task == t.id && cellOf k.core == cell && !k.repair

/-- The saved crew of a task that restarts first at a cell (R189). -/
def State.firstSaved (s : State) (t : Task) (cell : Nat) : Option SavedCrew :=
  (sortBy (fun (a b : SavedCrew) => decide (a.no ≤ b.no)) (s.savedAt t cell)).head?

/-- The stage tasks that Barista may give a core of a domain. (DEDUCED, log entry 32.) -/
def State.stageTasks (s : State) (core : Nat) : List Task :=
  let dom := stackOfCore core
  s.tasks.filter fun t => t.entered && t.stage.isSome && (s.tenAt t.ten).reset.isNone && s.tenOfStack dom == some t.ten &&
    !(t.heldAt core).isEmpty &&
    decide (s.stageField t 40 4 < s.stageField t 38 2) && s.fits core t

/-- The least task identifier of a list. -/
def leastTask (l : List Task) : Option Task :=
  l.foldl (fun b t => match b with
    | none => some t
    | some x => if t.id < x.id then some t else some x) none

/-- Whether the ring of x is fuller than that of y, in parts of its capacity. (DEDUCED, log entry 28.) -/
def State.fuller (s : State) (x y : Task) : Bool :=
  let fx := s.occupancy x * 2 ^ (s.stageField y 8 4 % 32)
  let fy := s.occupancy y * 2 ^ (s.stageField x 8 4 % 32)
  decide (fx > fy) || (fx == fy && decide (x.id < y.id))

/-- The stage that Barista chooses for a free core, by the first rule of R193 that applies; `last` is the stage of the crew
that has just ended. (DEDUCED, log entry 28.) -/
def State.barista (s : State) (core : Nat) (last : Option (Nat × Nat)) : Option Task :=
  let c := s.stageTasks core
  match leastTask (c.filter fun t => decide (s.stageField t 40 4 < s.stageField t 36 2)) with
  | some t => some t
  | none =>
    match (c.filter fun t => decide (s.occupancy t ≥ s.stageField t 28 4)).foldl (fun b t => match b with
        | none => some t
        | some x => if s.fuller t x then some t else some x) none with
    | some t => some t
    | none => c.find? fun t => last == some (t.ten, t.id) && decide (s.occupancy t > s.stageField t 32 4)

/-- Give a free core to a stage (R193): a saved crew of its cell goes before those that have not started (R194). -/
def State.runStage (s : State) (core : Nat) (t : Task) (last : Option (Nat × Nat)) : State :=
  let raised (s : State) : State := if last = some (t.ten, t.id) then s else s.setStageField t 44 4 (s.stageField t 44 4 + 1)
  match s.firstSaved t (cellOf core), t.heldAt core with
  | some k, _ => raised (s.restoreCrew core k)
  | none, [] => s
  | none, no :: _ =>
    let s := (s.startCrew core t.ten t.id no).onTask t.ten t.id fun t =>
      { t with homes := (no / 2, cellOf core) :: t.homes.filter fun h => h.1 != no / 2 }
    raised (s.countCores t.ten t.id true)

/-! ### Eligibility and the choice of a task (R188 to R190) -/

/-- The cores that the crews of a cell instance take when they start together, each with its crew: both cores of the cell, or for a lone
last crew the lower one that can take it (R187, R189). None when they cannot start now. -/
def State.unitCores (s : State) (t : Task) (a : Allot) : Option (List (Nat × Nat)) :=
  match a.cell with
  | none => none
  | some c =>
    if a.hi - a.lo = 1 then ([2 * c, 2 * c + 1].find? fun k => s.fits k t).map fun k => [(k, a.lo)]
    else if (List.range (a.hi - a.lo)).all fun i => decide (i < 2) && s.fits (2 * c + i) t then
      some ((List.range (a.hi - a.lo)).map fun i => (2 * c + i, a.lo + i))
    else none

/-- The crews of some cell instances with their cores, when all can start now, each instance on a cell of its own. -/
def State.unitsCores (s : State) (t : Task) (l : List Allot) : Option (List (Nat × Nat)) :=
  let x := l.map (s.unitCores t)
  let cells := l.map (·.cell)
  if x.all (·.isSome) && cells.eraseDups.length == cells.length then some (x.flatMap fun y => y.getD []) else none

/-- The same for some cell instances of one task, unless a saved crew of the task comes first at one of their cells (R194). -/
def State.setCores (s : State) (t : Task) (l : List Allot) : Option (List (Nat × Nat)) :=
  if l.any fun a => match a.cell with | none => false | some c => !(s.savedAt t c).isEmpty then none else s.unitsCores t l

/-- The crews that start with the lowest-numbered unstarted crew of a task at a cell, each with its core (R187, R189); none when its
co-start rule cannot be met now. Of the other cells where they start it asks for free cores, and not for what their own queues and
candidates say. (DESIGN CHOICE, log entry 103.) A task of several devices starts by COSTART. -/
def State.startSet (s : State) (t : Task) (cell : Nat) : Option (List (Nat × Nat)) :=
  match t.unstartedAt cell with
  | [] => none
  | no :: _ =>
    match t.tcb.res with
    | 0 => ([2 * cell, 2 * cell + 1].find? fun k => s.fits k t).map fun k => [(k, no)]
    | 2 => s.unitsCores t (t.allots.filter fun a => decide (a.lo ≤ no ∧ no < a.hi))
    | 3 => s.setCores t (t.allots.filter fun a => a.lo / 40 == no / 40)
    | _ => if t.tcb.group ≤ 1 then s.setCores t t.allots else none

/-- Whether the co-start rule of a task can be met now at a cell (R187, R188). -/
def State.costartOk (s : State) (t : Task) (cell : Nat) : Bool := (s.startSet t cell).isSome

def State.eligible (s : State) (cell : Nat) (t : Task) : Bool :=
  t.entered && (s.tenAt t.ten).reset.isNone && (!(t.unstartedAt cell).isEmpty || !(s.savedAt t cell).isEmpty) &&
  !(s.tasks.any fun x => x.ten == t.ten && x.tcb.queue == t.tcb.queue && decide (x.order < t.order) && x.entered &&
    !(x.unstartedAt cell).isEmpty) &&
  (t.tcb.prod.all fun p => s.producerDone t.ten p || (match s.task? t.ten p.toNat with
    | none => true
    | some x => x.startedAll)) &&
  (if (s.savedAt t cell).isEmpty then s.costartOk t cell else s.fits (2 * cell) t || s.fits (2 * cell + 1) t)

def Task.bypassAt (t : Task) (cell : Nat) : Nat := ((t.bypass.find? fun p => p.1 == cell).map (·.2)).getD 0
def Task.setBypass (t : Task) (cell n : Nat) : Task := { t with bypass := (cell, n) :: t.bypass.filter fun p => p.1 != cell }

/-- The oldest task of a list (R185). -/
def oldest (l : List Task) : Option Task :=
  l.foldl (fun b t => match b with
    | none => some t
    | some x => if t.order < x.order then some t else some x) none

/-- The eligible candidates of the highest priority at a cell. -/
def State.topTasks (s : State) (cell : Nat) : List Task :=
  let c := s.tasks.filter fun t => s.tenOfStack (stackOfCell cell) == some t.ten && s.eligible cell t
  let p := c.foldl (fun m t => max m t.tcb.pri) 0
  c.filter fun t => t.tcb.pri == p

/-- Whether the line at a residency hint is in the cell's slice (R189, R205, R206): cell memory and a pinned page of this slice are,
a line homed elsewhere, never cached, or of a set that is fully pinned is not, and else the tags, which are not modelled, answer freely. (DESIGN CHOICE, log entry
67.) -/
def State.hintProbe (s : State) (cell : Nat) (t : Task) : Bool :=
  let a := t.tcb.reshint
  match windowOf a with
  | some 3 => decide (windowOff a < s.celsz cell)
  | some _ => false
  | none =>
    match s.walk t.ten (s.tenAt t.ten).root a with
    | .entry e lvl =>
      let l := placeOf s.dev e lvl a
      let p := Pte.of e
      canonical a && l.slice == some cell && (match p.home with
        | 0 => !s.fullyPinned l && Config.freeBool [10, cell, a.toNat / 128, s.free]
        | 2 => true
        | _ => false)
    | _ => false

/-- Whether a residency hint hits. Only the eight oldest candidates are probed (R189). -/
def State.hintHits (s : State) (cell : Nat) (top : List Task) (t : Task) : Bool :=
  t.tcb.reshint != 0#64 && decide ((top.filter fun x => decide (x.order < t.order)).length < 8) && s.hintProbe cell t

/-- The task that a cell scheduler chooses, and whether step 3 of R189 chose it. -/
def State.choose (s : State) (cell : Nat) : Option (Task × Bool) :=
  let top := s.topTasks cell
  match oldest (top.filter fun t => decide (t.bypassAt cell ≥ 8)) with
  | some t => some (t, false)
  | none =>
    match oldest (top.filter (s.hintHits cell top)) with
    | some t => some (t, true)
    | none => (oldest top).map fun t => (t, false)

/-- Account for a choice in the bypass counts of a cell (R190). A choice that starts several crews at once counts once.
(DESIGN CHOICE, log entry 120.) -/
def State.countBypass (s : State) (cell : Nat) (t : Task) (byHint : Bool) : State :=
  let older := (s.topTasks cell).filter fun x => byHint && decide (x.order < t.order)
  { s with tasks := s.tasks.map fun x =>
      if x.ten = t.ten ∧ x.id = t.id then x.setBypass cell 0
      else if older.any fun y => y.ten == x.ten && y.id == x.id then x.setBypass cell (x.bypassAt cell + 1) else x }

end Sys2Proof.Machine
end

