-- ==== Sys2Proof/Machine/Crews.lean ====
section
/-! DEFINITION. What the threads of a crew share above one run: barriers (R170 to R173, R354), the decision queue and its
retirement (R147), REGROUP gatherings (R152 to R154), triggers (R175), gang slots (R133, R134) and the end of a crew
(R164). -/

namespace Sys2Proof.Machine
open Sys2Proof

/-! ### The electrical mesh (R216, R217)

The mesh changes timing only. A message is the routers that it has still to enter. -/

/-- Whether a router has drawn its current token and returned it (R218). -/
def State.settled (s : State) (r : Nat) : Bool :=
  let d := s.dieAt (r / 80)
  !d.waiting.contains (r % 80) && !d.settling.contains (r % 80)

/-- A router as it stands; one that nothing has changed is awake once it has had its current token (R218). -/
def State.routerAt (s : State) (i : Nat) : Router :=
  (s.routers.find? fun r => r.id == i).getD { Router.fresh i with awake := s.settled i }
def State.putRouter (s : State) (r : Router) : State := { s with routers := putBy Router.id r s.routers }

/-- The routers that a message enters from router a to router b of a die: along the column first, then along the row. (PRESUMED, log entry 17.) -/
def meshPath (a b : Nat) : List Nat :=
  let base := a / 80 * 80
  let (ca, ra, cb, rb) := (a % 10, a % 80 / 10, b % 10, b % 80 / 10)
  let along (from' to' : Nat) : List Nat :=
    if from' ≤ to' then (List.range (to' - from')).map fun i => from' + 1 + i
    else (List.range (from' - to')).map fun i => from' - 1 - i
  (along ra rb).map (fun r => base + 10 * r + ca) ++ (along ca cb).map fun c => base + 10 * rb + c

/-- Wake a router by a signal that travels `hops` hops from now: 6 control cycles after it arrives the router is awake. -/
def State.wakeRouter (s : State) (r hops : Nat) : State :=
  let x := s.routerAt r
  let at' := s.control + hops + 6
  if x.awake || (x.wakeAt != 0 && decide (x.wakeAt ≤ at')) then s else s.putRouter { x with wakeAt := at' }


/-- Inject a message with what it carries: its router wakes the first two routers on its path. A message between dies crosses the
bridge (R391). (DESIGN CHOICE, log entry 18.) -/
def State.inject (s : State) (a b : Nat) (cargo : Option (Nat × Nat) := none) : State :=
  if a / 80 ≠ b / 80 then s.cross (.mesh a b cargo) (b / 80)
  else match meshPath a b with
    | [] => s
    | r :: l =>
      let s := s.wakeRouter r 1
      let s := match l with | [] => s | q :: _ => s.wakeRouter q 2
      { s with msgs := s.msgs ++ [{ src := a, path := r :: l, ready := s.control + 3, cargo }] }

/-! ### Barriers -/

/-- A synchronising set of a level (R171) among the crews of one task: the crews, and the section of a team. -/
structure Inst where
  lvl : Nat
  id  : Nat
  deriving DecidableEq, Repr

/-- The team, crew, cell group, stack group or domain group that a thread of crew `no` in section `sect` belongs to. -/
def instOf (lvl no sect : Nat) : Inst :=
  match lvl with
  | 0 => { lvl, id := no * 4 + sect }
  | 1 => { lvl, id := no }
  | 2 => { lvl, id := no / 2 }
  | 3 => { lvl, id := no / 40 }
  | _ => { lvl, id := 0 }

/-- The numbers of the crews that a set spans, of C. -/
def Inst.crews (i : Inst) (c : Nat) : List Nat :=
  let span (lo n : Nat) : List Nat := ((List.range n).map (lo + ·)).filter (· < c)
  match i.lvl with
  | 0 => span (i.id / 4) 1
  | 1 => span i.id 1
  | 2 => span (2 * i.id) 2
  | 3 => span (40 * i.id) 40
  | _ => List.range c

/-- Whether a thread is a member of a set that spans its crew: a halted thread stays one (R360, R373). -/
def Inst.member (i : Inst) (t : Thread) : Bool :=
  t.stays && (if i.lvl = 0 then !t.sfe && t.place.sect == i.id % 4 else true)

/-- The same for a saved thread. -/
def Inst.savedMember (i : Inst) (sfe : Bool) (t : SavedThread) : Bool :=
  t.live && (if i.lvl = 0 then !sfe && t.place.sect == i.id % 4 else true)

/-- The core on which a crew runs. -/
def State.coreOf (s : State) (ten task no : Nat) : Option Core :=
  s.cores.find? fun c => match c.crew with
    | none => false
    | some k => k.ten == ten && k.task == task && k.no == no

def State.savedOf (s : State) (ten task no : Nat) : Option SavedCrew :=
  s.saved.find? fun k => k.ten == ten && k.task == task && k.no == no

/-- Of one crew of a set: the members, and how many of them have a pending arrival; none when the crew has not
started. An ended crew has no member. -/
def State.instCount (s : State) (t : Task) (i : Inst) (no : Nat) : Option (Nat × Nat) :=
  if t.ended.contains no then some (0, 0)
  else match s.coreOf t.ten t.id no with
    | some c => c.crew.map fun k =>
        let m := k.all.filter i.member
        (m.length, (m.filter fun x => x.bpendAt i.lvl).length)
    | none => (s.savedOf t.ten t.id no).map fun k =>
        let m := (k.threads.filter (i.savedMember false)) ++ (if i.savedMember true k.sfe then [k.sfe] else [])
        (m.length, (m.filter fun x => x.bpend.getLsbD i.lvl).length)

/-- Whether the arrivals of a set complete a generation (R172). A domain set on several devices also needs the
other devices' arrivals, which are not the model's to know (R395). (DESIGN CHOICE, log entry 70.) -/
def State.instFull (s : State) (t : Task) (i : Inst) : Bool :=
  let l := (i.crews t.tcb.crews.toNat).map (s.instCount t i)
  l.all (·.isSome) && (l.all fun x => match x with | some (m, p) => m == p | none => false) &&
  (l.any fun x => match x with | some (m, _) => decide (0 < m) | none => false) &&
  (i.lvl != 4 || decide (t.tcb.group ≤ 1) || Config.freeBool [9, t.ten, t.id, s.free])

/-- The generation count of a set. -/
def Task.gen (t : Task) (i : Inst) : Nat := ((t.gens.find? fun g => g.1 == (i.lvl, i.id)).map (·.2)).getD 0
def Task.bumpGen (t : Task) (i : Inst) : Task :=
  { t with gens := ((i.lvl, i.id), (t.gen i + 1) % 2 ^ 29) :: t.gens.filter fun g => g.1 != (i.lvl, i.id) }

/-- The release of one member: its arrival is no longer pending, and a BAR that waits in it completes. -/
def Thread.releaseBar (t : Thread) (lvl : Nat) : Thread :=
  let t := t.setBpend lvl false
  if t.status = .parked (.barrier lvl) then { (t.clearRW.complete 4#64) with status := .runnable } else t

/-- The same for the members of a saved crew (R373). -/
def SavedCrew.releaseInst (k : SavedCrew) (i : Inst) : SavedCrew :=
  let clear (sfe : Bool) (x : SavedThread) : SavedThread :=
    if i.savedMember sfe x then { x with bpend := setBit x.bpend i.lvl false } else x
  { k with threads := k.threads.map (clear false), sfe := clear true k.sfe }

/-- The cell at which the arrivals of a set meet: that of the core which runs its first crew. (DESIGN CHOICE, log entry 18.) -/
def State.meetsAt (s : State) (t : Task) (i : Inst) : Nat :=
  (((i.crews t.tcb.crews.toNat).findSome? fun no => s.coreOf t.ten t.id no).map fun c => cellOf c.id).getD (cellOf s.issue.core)

/-- Complete a generation of a set: its members are released and its count rises. -/
def State.completeInst (s : State) (t : Task) (i : Inst) : State :=
  let nos := i.crews t.tcb.crews.toNat
  let cores := (s.cores.filter fun c => match c.crew with
    | none => false
    | some k => k.ten == t.ten && k.task == t.id && nos.contains k.no).map (·.id)
  let s := cores.foldl (fun s c => ((s.inject (s.meetsAt t i) (cellOf c)).meet c).onCore c fun x => x.onCrew fun k =>
    k.onThreads i.member fun v => v.onTh fun th => th.releaseBar i.lvl) s
  let s := { s with saved := s.saved.map fun (k : SavedCrew) =>
    if k.ten = t.ten ∧ k.task = t.id ∧ nos.contains k.no then k.releaseInst i else k }
  s.onTask t.ten t.id fun x => x.bumpGen i

/-- Complete a set when its last arrival has come. -/
def State.tryInst (s : State) (ten task : Nat) (i : Inst) : State :=
  match s.task? ten task with
  | none => s
  | some t => if s.instFull t i then s.completeInst t i else s

/-- The other member devices of a task's domain group (R394). -/
def State.members (s : State) (t : Task) : List Nat := ((List.range t.tcb.group).map (t.tcb.first + ·)).filter (· != s.dev)

/-- A control flit to every other member device of a task: it names the task, and what it tells. (DESIGN CHOICE, log entry 78.) -/
def State.tellMembers (s : State) (die : Nat) (t : Task) (n : Nat) : State :=
  (s.members t).foldl (fun s r => s.transmit die r 5 0#64 [bytesOf 4 t.id ++ bytesOf 4 n]) s

/-- An arrival goes to where its set meets, and may complete it. The arrivals of a domain set go to the other member devices too (R395). -/
def State.arriveInst (s : State) (ten task : Nat) (i : Inst) : State :=
  match s.task? ten task with
  | none => s
  | some t =>
    let s := if i.lvl = 4 then s.tellMembers (dieOfCore s.issue.core) t (t.gen i) else s
    (s.inject (cellOf s.issue.core) (s.meetsAt t i)).tryInst ten task i

/-- The sets of a crew at every level. -/
def crewInsts (no : Nat) : List Inst :=
  [instOf 0 no 0, instOf 0 no 1, instOf 0 no 2, instOf 0 no 3, instOf 1 no 0, instOf 2 no 0, instOf 3 no 0, instOf 4 no 0]

/-- Complete the sets of a crew that a departure leaves full (R164). (DEDUCED, log entry 36.) -/
def State.tryBarriers (s : State) (ten task no : Nat) : State :=
  (crewInsts no).foldl (fun s i => s.tryInst ten task i) s

/-! ### The decision queue (R147) -/

/-- How many entries from the oldest a reader at position `pos` has read. -/
def Crew.dqDist (c : Crew) (pos : W32) : Nat := (pos - BitVec.ofNat 32 c.head).toNat
/-- The number of the entry that is put next, modulo 2^32. -/
def Crew.dqTail (c : Crew) : W32 := BitVec.ofNat 32 (c.head + c.dq.length)

/-- The threads held in spawn bins. (DEDUCED, log entry 38.) -/
def Crew.binned (c : Crew) : List Spawned := c.bins.flatMap fun b => match b with | none => [] | some b => b.threads

/-- How many of the entries in the queue a reader at position `pos` holds no longer back. A position behind the oldest entry, which a
restored thread has until its %dqpos is written back (R184, R373), holds back every one. (DESIGN CHOICE, log entry
109.) -/
def Crew.dqRead (c : Crew) (pos : W32) : Nat := if c.dqDist pos < 2 ^ 31 then c.dqDist pos else 0
/-- Retire every entry that each lane thread that has not exited and each thread held in a bin has read. -/
def Crew.retire (c : Crew) : Crew :=
  let pos := ((c.threads.filter Thread.stays).map (·.dqpos)) ++ c.binned.map (·.dqpos)
  let n := pos.foldl (fun m p => min m (c.dqRead p)) c.dq.length
  { c with head := c.head + n, dq := c.dq.drop n }

/-! ### Gang slots (R133, R134) -/

/-- Free the gang slots in which no thread is live, with the threads that stood there. A halted thread's place is kept for
its restart (R373). -/
def Crew.freeSlots (c : Crew) : Crew :=
  let used (sect slot : Nat) : Bool := c.threads.any fun t =>
    t.stays && t.place.sect == sect && t.place.slot == slot
  { c with gangs := c.gangs.filter fun g => used g.sect g.slot,
           threads := c.threads.filter fun t => used t.place.sect t.place.slot }

/-- The register words of a section that gangs take. -/
def Crew.wordsUsed (c : Crew) (sect : Nat) : Nat := (c.gangs.filter fun g => g.sect == sect).length * (32 * c.allot)
/-- The lowest free slot of a section, if its register words suffice. The spec names the section alone. (DESIGN CHOICE, log entry
86.) -/
def Crew.freeSlot (c : Crew) (sect : Nat) : Option Nat :=
  if c.wordsUsed sect + 32 * c.allot ≤ 65536 then
    (List.range 16).find? fun n => !(c.gangs.any fun g => g.sect == sect && g.slot == n)
  else none
/-- The slot that a bin's gang takes: in the section with the most free words, the lowest on a tie (R150). -/
def Crew.slotForBin (c : Crew) : Option (Nat × Nat) :=
  let pick : Option (Nat × Nat) := (List.range 4).foldl (fun b sect =>
    match c.freeSlot sect with
    | none => b
    | some n => match b with
      | none => some (sect, n)
      | some (x, m) => if c.wordsUsed sect < c.wordsUsed x then some (sect, n) else some (x, m)) none
  pick

/-! ### Spawn bins (R149, R150) -/

/-- Whether a bin can take a thread of an entry. -/
def Crew.binFor (c : Crew) (entry : W64) : Option Nat :=
  match c.bins.findIdx? fun b => match b with | some b => b.entry == entry && decide (b.threads.length < 32) | none => false with
  | some i => some i
  | none => if c.bins.any fun b => match b with | some b => b.entry == entry | none => false then none
            else c.bins.findIdx? fun b => b.isNone

/-- A bin with one more thread; a free bin takes the entry, and its timer from the spawning thread. -/
def Bin.join (b : Option Bin) (entry : W64) (tmo : W32) (x : Spawned) : Bin :=
  match b with
  | none => { entry, threads := [x], timer := tmo.toNat }
  | some b => { b with threads := b.threads ++ [x] }

/-- Take a thread into bin `i`. -/
def Crew.offer (c : Crew) (i : Nat) (entry : W64) (tmo : W32) (x : Spawned) : Crew :=
  let bins := c.bins.zipIdx.map fun (b, j) => if j = i then some (Bin.join b entry tmo x) else b
  { c with bins, spawned := c.spawned + 1 }

/-- %tid of the n-th thread spawned (R151). -/
def spawnTid (n : Nat) : W32 := BitVec.ofNat 32 (0x80000000 + n % (2 ^ 31 - 1))

/-- Whether a REGROUP gathering is going on (R152). -/
def Thread.regroupKey (t : Thread) : Option (BitVec 8) := match t.status with | .parked (.regroup k) => some k | _ => none
def Crew.gathering (c : Crew) : Bool := c.threads.any fun t => t.regroupKey.isSome

/-- Whether every register that a thread has marked empty has been filled: none is empty, whether a result is on its way to it or not. -/
def Thread.filled (t : Thread) : Bool := t.regs.all (·.full) && t.pending.all fun p => p.dst.all (· == .drop)

/-- A pending register of a thread, to wait for. -/
def Thread.emptyOf (t : Thread) : Option Dst :=
  (t.pending.flatMap (·.dst)).find? (· != .drop)

/-- Whether the gathering is complete: every lane thread that has not exited has arrived. -/
def Crew.gathered (c : Crew) : Bool :=
  c.gathering && (c.threads.filter Thread.stays).all fun t => t.regroupKey.isSome && t.filled

/-- The order of R153: by key, then by %tid. -/
def regroupBefore (a b : Thread) : Bool :=
  let ka := (a.regroupKey.getD 0#8).toNat
  let kb := (b.regroupKey.getD 0#8).toNat
  ka < kb || (ka == kb && a.ident.tid.toNat ≤ b.ident.tid.toNat)

/-- The redistribution of R153 and R154. -/
def Crew.redistribute (c : Crew) : Crew :=
  let ts := sortBy regroupBefore (c.threads.filter Thread.live)
  let slots := sortBy (fun (a b : Gang) => 4 * a.slot + a.sect ≤ 4 * b.slot + b.sect) c.gangs
  let need := ceilDiv ts.length 32
  { c with
    threads := ts.zipIdx.map fun (t, j) =>
      let g := (slots[j / 32]?).getD { sect := 0, slot := 0, age := 0, defer := none }
      let t := { (t.setBpend 0 false).payOwed.complete 4#64 with
        place := { sect := g.sect, slot := g.slot, lane := j % 32 }, status := .runnable }
      { t with ctl := { t.ctl with mmask := BitVec.allOnes 32 } },
    gangs := (slots.take need).map fun g => { g with defer := none } }

/-- Redistribute the crew of a core when its gathering is complete: the team generations of the crew complete with it (R165). -/
def State.tryRegroup (s : State) (core : Nat) : State :=
  match (s.coreAt core).crew with
  | none => s
  | some c =>
    if c.gathered then
      let s := s.onTask c.ten c.task fun t => (List.range 4).foldl (fun t k => t.bumpGen (instOf 0 c.no k)) t
      s.onCore core fun x => x.onCrew Crew.redistribute
    else s

/-! ### Triggers (R175) -/

/-- Whether every lane thread of a crew is triggered or has exited. (DEDUCED, log entry 38.) -/
def Crew.allTriggered (c : Crew) : Bool :=
  c.binned.isEmpty && (c.threads.filter Thread.stays).all (·.triggered)

/-- Record that a crew has triggered. -/
def State.markTriggered (s : State) (c : Crew) : State :=
  s.onTask c.ten c.task fun t => if t.trig.contains c.no then t else { t with trig := t.trig ++ [c.no] }

def State.tryTrigger (s : State) (core : Nat) : State :=
  match (s.coreAt core).crew with
  | none => s
  | some c => if c.allTriggered then s.markTriggered c else s

/-! ### The end of a crew (R164, R185, R193) -/

/-- Whether a command in a queue was issued by the crew of a core: an engine outside the core serves others too. (DEDUCED, log entry 39.) -/
def Core.idle (c : Core) : Bool :=
  c.copyq.isEmpty && c.tblq.isEmpty && c.netq.isEmpty && c.caverq.isEmpty && c.pressq.isEmpty && c.coll.isEmpty &&
  (c.sects.all fun x => x.mq.isEmpty && x.sq.isEmpty) && c.tiles.all fun t => t.rows.isEmpty

/-- Whether the queues that several cores share hold no command of a core. (DEDUCED, log entry 39.) -/
def State.sharedIdle (s : State) (core : Nat) : Bool :=
  ((s.cellAt (cellOf core)).grindq.all fun q => q.ctx.core != core) &&
  ((s.dieAt (dieOfCore core)).fabq.all fun q => q.ctx.core != core)

/-- Whether a crew has ended: every thread and the front end have exited and every bin is empty; and nothing that it issued
still runs on its core. -/
def State.crewOver (s : State) (core : Nat) : Bool :=
  match (s.coreAt core).crew with
  | none => false
  | some c => (c.all.all fun t => t.status == .exited) && c.binned.isEmpty && c.backs.isEmpty && (s.coreAt core).idle &&
      s.sharedIdle core

/-- What the end of a crew frees: weight handles and the histogram unit are unbound (R272, R296). -/
def Core.endCrew (c : Core) : Core :=
  { c with crew := none, handles := List.replicate 64 none, descs := [], hist := { c.hist with tag := 0#32 }, tiles := [] }

/-- The end of a task whose last crew has ended: it leaves its queue. -/
def State.endTask (s : State) (ten task : Nat) : State :=
  match s.task? ten task with
  | none => s
  | some t =>
    if t.endedAll then
      let s := { s with tasks := s.tasks.filter fun x => !(x.ten == ten && x.id == task) }
      match t.zcp with
      | none => s
      | some (q, seq) => s.onTen ten fun x => { x with zqs := x.zqs.zipIdx.map fun (z, i) =>
          if i = q then { z with live := z.live.map fun c => if c.seq = seq then { c with code := some 0#32 } else c } else z }
    else s

/-- End the crew of a core if it is over: its barriers lose it, its stage gives up the core, and Barista may give the core
to a stage at once. -/
def State.tryEndCrew (s : State) (core : Nat) : State :=
  if !s.crewOver core then s
  else match (s.coreAt core).crew with
    | none => s
    | some c =>
      let s := s.onCore core Core.endCrew
      let s := s.onTask c.ten c.task fun t => { t with ended := t.ended ++ [c.no] }
      let stage : Bool := match s.task? c.ten c.task with | none => false | some t => t.stage.isSome
      let s := s.countCores c.ten c.task false
      let s := s.tryBarriers c.ten c.task c.no
      let last := if stage then some (c.ten, c.task) else none
      let next := s.barista core last
      let best := (s.tasks.filter fun t => s.tenOfStack (stackOfCore core) == some t.ten && s.eligible (cellOf core) t).foldl
        (fun m t => max m t.tcb.pri) 0
      let s := match next with
        | some t => if best ≤ (s.stageTasks core).foldl (fun (m : Nat) (t : Task) => max m t.tcb.pri) 0 then s.runStage core t last else s
        | none => s
      s.endTask c.ten c.task

/-- What is kept of a thread of a crew that is saved. -/
def Thread.kept (t : Thread) : SavedThread :=
  { tid := t.ident.tid, place := t.place, bpend := t.bpend, triggered := t.triggered, live := t.status == .halted, far := t.far, refused := t.refused }

/-- Save a crew under pre-emption whose every thread that has not exited has halted and whose commands have run to
completion (R370), and free its core (R360, R373). -/
def State.trySave (s : State) (core : Nat) : State :=
  match (s.coreAt core).crew with
  | none => s
  | some c =>
    match c.preempt with
    | none => s
    | some (sub, save) =>
      if (c.all.all fun t => !t.live) && (c.all.any fun t => t.status == .halted) && (s.coreAt core).idle && s.sharedIdle core then
        let k : SavedCrew :=
          { task := c.task, no := c.no, ten := c.ten, core, save, gangs := c.gangs,
            threads := (c.threads.filter fun t => t.status == .halted).map Thread.kept, sfe := c.sfe.kept, repair := sub == 2,
            head := c.head, backs := c.backs, backCnt := c.backCnt, backSeen := c.backSeen }
        ({ s with saved := s.saved ++ [k] }.countCores c.ten c.task false).onCore core Core.endCrew
      else s

/-- What the completion of a unit's last piece of work for a core allows. -/
def State.settleEnd (s : State) (core : Nat) : State := (s.trySave core).tryEndCrew core

/-- What an exit or the end of a bin can complete (R164): barriers, a gathering, retirements, a trigger and the crew. -/
def State.settleCrew (s : State) (core : Nat) : State :=
  match (s.coreAt core).crew with
  | none => s
  | some c =>
    let s := s.onCore core fun x => x.onCrew fun k => k.retire.freeSlots
    let s := s.tryBarriers c.ten c.task c.no
    ((s.tryRegroup core).tryTrigger core).settleEnd core

end Sys2Proof.Machine
end

