-- ==== Sys2Proof/Machine/Threads.lean ====
section
/-! DEFINITION. The instructions of threads, barriers and tasks (R156 to R180, op 0x2D, 0x35 and 0x36). -/

namespace Sys2Proof.Machine
open Sys2Proof

/-- The front end's words stand in the same file as its registers: how a value check of these cards fails (R156). -/
def rangeTrap : Verdict := .trap (trapOpen stageCard Cause.illegal 10)

/-- The wait of an instruction that synchronises for the thread's own requests: what precedes it in program order has been
performed at its home (R180, R219). (DEDUCED, log entry 11.) -/
def State.orderVerdict (s : State) (core : Nat) (t : Thread) : Verdict :=
  if (s.coreAt core).outstanding t.ident.tid then .wait .order else .ok

/-! ### THR (R163 to R169) -/

/-- Offer the thread of one lane; a lane that finds no bin parks. -/
def State.spawnLane (s : State) (o : RAB) (core : Nat) (tid : W32) : State :=
  match s.view? core tid with
  | none => s
  | some v =>
    match s.crew? with
    | none => s
    | some c =>
      let entry := v.rd64 o.a
      match c.binFor entry with
      | none => s.setStatus core tid (.parked (.bin entry))
      | some i =>
        let x : Spawned :=
          { arg := v.rd32 o.b, tid := spawnTid c.spawned, envid := v.th.ident.envid, episode := v.th.str.episode,
            step := v.th.str.step, dqpos := c.dqTail }
        let s := s.onCore core fun k => k.onCrew fun c => c.offer i entry v.th.ctl.bintmo x
        s.onThread core tid fun v => v.done 4#64

def spawnForm (o : RAB) (s : State) : LaneForm :=
  let core := s.issue.core
  let opn : Opnds := { srcs := [.p o.a o.f, .r o.b o.g] }
  .of opn (fun v => (targetVerdict (v.rd64 o.a)).andThen (s.orderVerdict core v.th)) fun tids s =>
    tids.foldl (fun s tid =>
      let unseen := match s.view? core tid with | none => false | some v => opn.srcs.any v.unwritten
      (s.spawnLane o core tid).noteSeen core tid unseen) s
def execSpawn (o : RAB) (s : State) : Result := .next (s.eachLane (spawnForm o s))

/-- The wait of EXIT: every register that the thread has marked empty is filled (R164), and then it waits as FENCE.DOM does for its
stores, and reports a refused one (R396). (DEDUCED, log entry 41.) -/
def State.exitVerdict (s : State) (core : Nat) (t : Thread) : Verdict :=
  match t.emptyOf with
  | some d => .wait (.reg d)
  | none => (s.fenceVerdict core t).andThen t.refusal

def exitThreadForm (s : State) : LaneForm :=
  let core := s.issue.core
  .of {} (fun v => s.exitVerdict core v.th) fun tids s =>
    let s := s.onTids core tids fun v => v.onTh fun t => { t.clearWskip with status := .exited, pending := [], depth := 0, far := [] }
    let s := tids.foldl (fun s tid => s.onCore core fun x => x.onCrew fun c => c.release tid 0) s
    s.settleCrew core
def execExitThread (s : State) : Result := .next (s.eachLane (exitThreadForm s))

/-- REGROUP: the run arrives with its keys, and the crew is redistributed when the last of its threads has arrived. -/
def regroupForm (o : RA) (s : State) : LaneForm :=
  let core := s.issue.core
  let opn : Opnds := { srcs := [.r o.a o.f], laneOnly := true }
  .of opn noCheck fun tids s =>
    (s.onTids core tids fun v => v.onTh fun t =>
      { t with status := .parked (.regroup ((v.rd32 o.a).setWidth 8)), owed := opn.srcs.any v.unwritten }).tryRegroup core
def execRegroup (o : RA) (s : State) : Result := .next (s.allLanes (regroupForm o s))

/-- YIELD: the run's lanes leave the head-run computation until their gang has issued another run or 64 issue cycles have
passed. -/
def yieldForm (s : State) : LaneForm :=
  let core := s.issue.core
  .thenDo {} noCheck (fun v => v.done 4#64) fun tids s =>
    if s.issue.sfe then s
    else s.onCore core fun x => x.onCrew fun c => { c with gangs := c.gangs.map fun g =>
      if g.sect = s.issue.sect ∧ g.slot = s.issue.slot then
        { g with defer := some (maskOf (c.threads.filter fun t => tids.contains t.ident.tid), x.cycle + 64) }
      else g }
def execYield (s : State) : Result := .next (s.eachLane (yieldForm s))

/-- ELECT: 1 in the leader of the run, 0 in every other lane of it. -/
def electForm (o : RD) : LaneForm :=
  let opn : Opnds := { dsts := [⟨o.d, 1⟩] }
  .of opn noCheck fun tids s =>
    let leader := tids.headD 0#32
    s.onTids s.issue.core tids fun v => (v.wr32 o.d (boolWord (v.th.ident.tid == leader))).done 4#64
def execElect (o : RD) (s : State) : Result := .next (s.allLanes (electForm o))

/-- WIN (R168). -/
def execWin (o : RA) (s : State) : Result :=
  .next (s.lanes { srcs := [.r o.a o.f], laneOnly := true }
    (fun v => if (v.rd32 o.a).toNat % 16 ≠ 0 ∨ (v.rd32 o.a).toNat + 16 > v.th.allot then rangeTrap else .ok)
    fun v => v.onTh fun t => { t with win := (v.rd32 o.a).toNat }.complete 4#64)

/-- DQPUT: the front end appends an entry, or parks while 64 are not retired (R147). -/
def dqputForm (o : RA) (s : State) : LaneForm :=
  let core := s.issue.core
  let opn : Opnds := { srcs := [.p o.a o.f], sfeOnly := true }
  let unread : Nat := (s.crew?.map fun c => c.dq.length).getD 0
  .of opn (fun v => (s.orderVerdict core v.th).andThen (if unread ≥ 64 then .wait .dqPut else .ok)) fun tids s =>
    let xs := (s.run.filter fun v => tids.contains v.th.ident.tid).map fun v => v.rd64 o.a
    let s := s.onCore core fun x => x.onCrew fun c => ({ c with dq := c.dq ++ xs }).retire
    s.onTids core tids fun v => (opn.noteUnseen v).done 4#64
def execDqput (o : RA) (s : State) : Result := .next (s.eachLane (dqputForm o s))

/-- The entry that a thread reads next, when it has been put. -/
def Crew.dqNext (c : Crew) (t : Thread) : Option W64 := c.dq[c.dqDist t.dqpos]?

/-- DQGET: the entry at %dqpos, at once, or when it is put. A thread that parks has marked d empty (R353). -/
def dqgetForm (o : RD) (s : State) : LaneForm :=
  let core := s.issue.core
  let opn : Opnds := { dsts := [⟨o.d, 2⟩], laneOnly := true }
  .of opn noCheck fun tids s =>
    match s.crew? with
    | none => s
    | some c =>
      let s := s.onTids core tids fun v =>
        match c.dqNext v.th with
        | some x => (v.wr64 o.d x).onTh fun t => { t with dqpos := t.dqpos + 1#32 }.complete 4#64
        | none => (v.markEmpty (v.th.refs o.d 2)).onTh fun t => { t with status := .parked .dqGet }
      s.onCore core fun x => x.onCrew Crew.retire
def execDqget (o : RD) (s : State) : Result := .next (s.eachLane (dqgetForm o s))

/-! ### BAR (R170 to R173, R354) -/

/-- An arrival of the given lanes at a level: their bits are set, and the generations of their sets that are now full
complete. -/
def State.arrive (s : State) (lvl : Nat) (tids : List W32) : State :=
  match s.crew? with
  | none => s
  | some c =>
    let insts := ((c.all.filter fun t => tids.contains t.ident.tid).map fun t => instOf lvl c.no t.place.sect).eraseDups
    insts.foldl (fun s i => s.arriveInst c.ten c.task i) s

/-- The wait of BAR.level. With RW set for the level only the waiting half is left. -/
def barVerdict (lvl : Nat) (t : Thread) : Verdict :=
  if t.bRW && t.bRWLvl == lvl then .ok else if t.bpendAt lvl then .wait (.bpend lvl) else .ok

/-- BAR: the lane arrives and waits for the completion of the generation, and RW clears. One that resumes has arrived before (R354). -/
def barForm (lvl : Nat) (s : State) : LaneForm :=
  let core := s.issue.core
  .of { laneOnly := lvl == 0 } (fun v => (s.orderVerdict core v.th).andThen (barVerdict lvl v.th)) fun tids s =>
    let new := tids.filter fun tid => !((s.view? core tid).map fun v => v.th.bRW && v.th.bRWLvl == lvl).getD false
    (s.onTids core tids fun v => v.onTh fun t =>
      if t.bRW && t.bRWLvl == lvl then
        if t.bpendAt lvl then { t.clearRW with status := .parked (.barrier lvl) } else t.clearRW.complete 4#64
      else { (t.clearRW.setBpend lvl true) with status := .parked (.barrier lvl) }).arrive lvl new
def bar (lvl : Nat) (s : State) : Result := .next (s.eachLane (barForm lvl s))

def execBarTeam (s : State) : Result := bar 0 s
def execBarCrew (s : State) : Result := bar 1 s
def execBarCell (s : State) : Result := bar 2 s
def execBarStack (s : State) : Result := bar 3 s
def execBarDom (s : State) : Result := bar 4 s

/-- ARRIVE: a pending arrival and its token; it parks only for an arrival of its own that is still pending. -/
def arriveForm (o : RDL) (s : State) : LaneForm :=
  let core := s.issue.core
  let lvl := o.l.toNat
  let opn : Opnds := { dsts := [⟨o.d, 1⟩], laneOnly := lvl == 0 }
  .of opn (fun v => (s.orderVerdict core v.th).andThen (if v.th.bpendAt lvl then .wait (.bpend lvl) else .ok))
    fun tids s =>
      let gen (t : Thread) : Nat := match s.crew? with
        | none => 0
        | some c => ((s.task? c.ten c.task).map fun k => k.gen (instOf lvl c.no t.place.sect)).getD 0
      (s.onTids core tids fun v =>
        let x := BitVec.ofNat 32 (lvl * 2 ^ 29 + gen v.th)
        ((v.wr32 o.d x).onTh fun t => t.setBpend lvl true).done 4#64).arrive lvl tids
def execArrive (o : RDL) (s : State) : Result := .next (s.stillLanes (arriveForm o s))

/-- WAITB: the level of the token. -/
def waitbForm (o : RA) (s : State) : LaneForm :=
  let core := s.issue.core
  .of { srcs := [.r o.a o.f] }
    (fun v =>
      let l := bitsOf (v.rd32 o.a) 31 29
      if l > 4 then rangeTrap else if v.th.bpendAt l then .wait (.bpend l) else .ok)
    fun tids s => (s.onTids core tids fun v => ({ srcs := [.r o.a o.f] : Opnds }.noteUnseen v).done 4#64).meet core
def execWaitb (o : RA) (s : State) : Result := .next (s.eachLane (waitbForm o s))

/-! ### TASK: TASKNEW, TRIGGER, WAITDEP, ITER, FIXUP (R174 to R177) -/

/-- A thread whose watchpoints are off: TASKNEW and engine traffic are never checked (R384). -/
def Thread.unwatched (t : Thread) : Thread := { t with ctl := { t.ctl with dbgctl := setBit t.ctl.dbgctl 2 false } }

/-- The waits of an access that does not enter the collector, at the places that it reaches, as `va` names it: for the repair of a row
(R390), and for its crossing to the other die (R391), where it may be lost (R393). (DEDUCED, log entry 127.) -/
def State.siteVerdict (s : State) (core : Nat) (t : Thread) (va : W64) (ls : List Loc) : Verdict :=
  match ls.find? s.underRepair with
  | some l => .wait (.row l)
  | none =>
    if ls.all fun l => l.homeDie (dieOfCore core) == dieOfCore core then .ok
    else match t.crossed with
      | none => .wait (.bridge va)
      | some (a, lost) => if a != va then .wait (.bridge va) else if lost then .trap (trapAt 28 Cause.mcheck 1 va) else .ok

/-- The checks of a read of n bytes that an instruction makes at its issue, as those of a load but for the watchpoints. -/
def State.readVerdict (s : State) (core : Nat) (v : View) (va : W64) (n : Nat) : Verdict :=
  let t := v.th.unwatched
  let a : Access := { va, n, rd := true, wr := false }
  ((s.accessVerdict core t a).andThen (s.remoteVerdict core t a)).andThen (s.errVerdict core t a)
def State.recordLoc (s : State) (core : Nat) (v : View) (va : W64) (n : Nat) : Option Loc :=
  match s.check core v.th.unwatched { va, n, rd := true, wr := false } with
  | .ok h => some h.loc
  | .error _ => none

/-- The lines of such a read. -/
def State.recordLines (s : State) (core : Nat) (v : View) (va : W64) (n : Nat) : List Loc :=
  match s.recordLoc core v va n with
  | some l => l.lines n
  | none => []
/-- The checks and the waits of such a read. -/
def State.recordVerdict (s : State) (core : Nat) (v : View) (va : W64) (n : Nat) : Verdict :=
  (s.readVerdict core v va n).andThen (s.siteVerdict core v.th va (s.recordLines core v va n))

/-- A thread that reads n bytes of its scratchpad at a place, of which some were never written, sets UNSEEN (R16). -/
def State.padSeen (s : State) (core : Nat) (tid : W32) (l : Loc) (n : Nat) : State :=
  if s.padUnwritten l n then s.onThread core tid fun v => v.onTh Thread.setUnseen else s

/-- The checks of a task control block's address: aligned to 256, and its two lines readable as by a load. -/
def State.blockVerdict (s : State) (core : Nat) (v : View) (va : W64) : Verdict :=
  if !canonical va then .trap (trapAt stageCanon Cause.prot 0 va)
  else if va.toNat % 256 ≠ 0 then .trap (trapAt stageAlign Cause.misalign 0 va)
  else ((s.readVerdict core v va 128).andThen (s.readVerdict core v (va + 128#64) 128)).andThen
    (s.siteVerdict core v.th va (s.recordLines core v va 128 ++ s.recordLines core v (va + 128#64) 128))

/-- Read a block at issue, as one access to its two lines (R220). -/
def State.readBlock (s : State) (core : Nat) (v : View) (va : W64) : State × Nat :=
  match s.recordLoc core v va 128, s.recordLoc core v (va + 128#64) 128 with
  | some l, some m =>
    let s := (((s.padSeen core v.th.ident.tid l 128).padSeen core v.th.ident.tid m 128).settle l 128).settle m 128
    (s.stampAll core [l, m] [], s.rd l 128 + 2 ^ 1024 * s.rd m 128)
  | _, _ => (s, 0)

/-- Submit one lane's block. The answer lands later. -/
def State.submit (s : State) (o : R2) (core : Nat) (tid : W32) : State :=
  match s.view? core tid with
  | none => s
  | some v =>
    let va := v.rd64 o.a
    let ten := (s.coreAt core).ten
    let (s, b) := s.readBlock core v va
    let stage : Option Loc :=
      if (Tcb.of b).stageq = 0#64 then none
      else match s.queuePlace ten v.th.space (cellOf core) (Tcb.of b).stageq 128 with
        | .ok l => some l
        | .error _ => none
    let (s, x) : State × W32 := match s.tcbReason ten b stage with
      | some r => (s, 0x80000000#32 + BitVec.ofNat 32 r)
      | none =>
        let (s, id) := s.acceptTask ten b stage none
        (s.enterTask ten id, BitVec.ofNat 32 id)
    s.onThread core tid fun v => (v.produce .task (v.th.refs o.d 1) (some [x]) 0).commit 4#64

def tasknewForm (o : R2) (s : State) : LaneForm :=
  let core := s.issue.core
  let opn : Opnds := { srcs := [.p o.a o.f], dsts := [⟨o.d, 1⟩] }
  .of opn (fun v => s.blockVerdict core v (v.rd64 o.a)) fun tids s =>
    tids.foldl (fun s tid => (s.onThread core tid opn.noteUnseen).submit o core tid) s
def execTasknew (o : R2) (s : State) : Result := .next (s.eachLane (tasknewForm o s))

/-- TRIGGER: the thread is triggered; the front end triggers its crew at once. It never parks. -/
def triggerForm (s : State) : LaneForm :=
  let core := s.issue.core
  .of {} (fun v => s.orderVerdict core v.th) fun tids s =>
    let s := s.onTids core tids fun v => v.onTh fun t => { t with triggered := true }.complete 4#64
    match s.crew? with
    | none => s
    | some c => if s.issue.sfe then s.markTriggered c else s.tryTrigger core
def execTrigger (s : State) : Result := .next (s.stillLanes (triggerForm s))

/-- WAITDEP: until each producer of the task has triggered or ended. -/
def waitdepForm (s : State) : LaneForm :=
  let core := s.issue.core
  .of {} (fun _ => match s.crew? with
      | none => .ok
      | some c =>
        match s.task? c.ten c.task with
        | none => .ok
        | some t => if t.tcb.prod.all (s.producerDone c.ten) then .ok else .wait .dep)
    fun tids s => (s.onTids core tids fun v => v.done 4#64).meet core
def execWaitdep (s : State) : Result := .next (s.eachLane (waitdepForm s))

/-- The bounds of crew c's share of the iteration space (R176). -/
def Tcb.bound (t : Tcb) (c : Nat) : Nat := c * t.itern.toNat / t.crews.toNat
/-- The pair that ITER writes. -/
def Tcb.share (t : Tcb) (c : Nat) : W64 :=
  let lo := t.bound c
  let hi := t.bound (c + 1)
  let tl := t.itert.toNat
  BitVec.ofNat 64 (lo + 2 ^ 32 * ((if lo % tl ≠ 0 then 2 ^ 31 else 0) + (if hi % tl ≠ 0 ∧ hi < t.itern.toNat then 2 ^ 30 else 0) +
    (hi - lo)))

/-- The task of the issuing crew. -/
def State.crewTask (s : State) : Option Task := s.crew?.bind fun c => s.task? c.ten c.task

def execIter (o : RD) (s : State) : Result :=
  let opn : Opnds := { dsts := [⟨o.d, 2⟩] }
  let x := (s.crewTask.map fun t => t.tcb.share ((s.crew?.map (·.no)).getD 0)).getD 0#64
  .next (s.lanes opn noCheck fun v => (v.wr64 o.d x).done 4#64)

/-- The crews that share tile `k` (R177). -/
def Tcb.sharers (t : Tcb) (k : Nat) : List Nat :=
  let lo := k * t.itert.toNat
  let hi := min ((k + 1) * t.itert.toNat) t.itern.toNat
  (List.range t.crews.toNat).filter fun c => decide (max lo (t.bound c) < min hi (t.bound (c + 1)))

/-- The crews that have reported at a tile, in their order of arrival. -/
def Task.fixed (t : Task) (k : Nat) : List Nat := ((t.fix.find? fun x => x.1 == k).map (·.2)).getD []

/-- The pair that FIXUP returns for a crew that has arrived. -/
def Task.fixWord (t : Task) (k no : Nat) : W64 :=
  let arr := t.fixed k
  let n := (t.tcb.sharers k).length
  let ord := (arr.findIdx? (· == no)).getD 0
  BitVec.ofNat 64 (ord + 2 ^ 32 * ((if ord + 1 = n then 2 ^ 31 else 0) + n))

/-- The arrival of a crew at a tile; a second one changes nothing. -/
def Task.fixup (t : Task) (k no : Nat) : Task :=
  if (t.fixed k).contains no then t
  else { t with fix := (k, t.fixed k ++ [no]) :: t.fix.filter fun x => x.1 != k }

def fixupForm (o : R2) (s : State) : LaneForm :=
  let core := s.issue.core
  let opn : Opnds := { srcs := [.r o.a o.f], dsts := [⟨o.d, 2⟩] }
  let no := (s.crew?.map (·.no)).getD 0
  .of opn (fun v =>
      (s.orderVerdict core v.th).andThen (match s.crewTask with
        | none => .ok
        | some t => if (t.tcb.sharers (v.rd32 o.a).toNat).contains no then .ok else rangeTrap))
    fun tids s =>
      let s := tids.foldl (fun s tid =>
        match s.view? core tid, s.crew? with
        | some v, some c =>
          let k := (v.rd32 o.a).toNat
          let s := s.onTask c.ten c.task fun t => t.fixup k no
          let x := ((s.task? c.ten c.task).map fun t => t.fixWord k no).getD 0#64
          s.onThread core tid fun v => ((opn.noteUnseen v).wr64 o.d x).done 4#64
        | _, _ => s) s
      -- the partials of every arrival before it are read after LAST = 1 (R180)
      s.meet core
def execFixup (o : R2) (s : State) : Result := .next (s.eachLane (fixupForm o s))

/-! ### Stage queues (R178, R179) -/

/-- A stage queue as an instruction finds it: its descriptor and ring, and their places. -/
structure Stq where
  desc : Loc
  base : W64
  cap  : Nat
  head : Nat
  tail : Nat
  deriving DecidableEq, Repr

def Stq.count (q : Stq) : Nat := (q.tail + 2 ^ 32 - q.head) % 2 ^ 32

def stageStqAlign : Nat := 21
def stageStqPlace : Nat := 22
def stageStqCap : Nat := 23

/-- The checks of R179 and the queue that they find, in the order of its table (R419). A misaligned BASE reports its own value, the
other failures the address that fails. (DEDUCED, log entry 42.) A LOG2CAP word whose bits [31:5] are not 0 is outside 1 to 16, and
the ring of a queue whose LOG2CAP is outside is taken to be its first entry: the spec says neither. (DESIGN CHOICE, log entry 89.) A
descriptor that an uncorrectable error took is MCHECK (R369). -/
def State.stqOpen (s : State) (core : Nat) (sp : Space) (va : W64) : Except Verdict Stq :=
  let ten := (s.coreAt core).ten
  let place (a : W64) (n : Nat) : Except Verdict Loc :=
    match s.queuePlace ten sp (cellOf core) a n with
    | .ok l => .ok l
    | .error (cause, sub) => .error (.trap (trapAt stageStqPlace cause sub a))
  if va.toNat % 128 ≠ 0 then .error (.trap (trapAt stageStqAlign Cause.misalign 0 va))
  else match place va 128 with
    | .error e => .error e
    | .ok l =>
      let base := BitVec.ofNat 64 (s.rd l 8)
      let cap := s.rd (l.plus 8) 4
      if s.spoiled l 24 then .error (.trap (trapAt stageStqPlace Cause.mcheck 1 va))
      else if base.toNat % 64 ≠ 0 then .error (.trap (trapAt stageStqAlign Cause.misalign 0 base))
      else
        let bad := cap = 0 ∨ cap > 16
        -- one check for every 64 KiB of the ring and its last entry
        let offs := if bad then [0] else (List.range (ceilDiv (64 * 2 ^ cap) 65536)).map (65536 * ·) ++ [64 * 2 ^ cap - 64]
        match offs.findSome? fun k => match place (base + BitVec.ofNat 64 k) 64 with | .error e => some e | .ok _ => none with
        | some e => .error e
        | none => if bad then .error (.trap (trapAt stageStqCap Cause.illegal 10 va)) else .ok { desc := l, base, cap, head := s.rd (l.plus 16) 4, tail := s.rd (l.plus 20) 4 }

/-- The address and the place of entry n. -/
def Stq.entryAddr (q : Stq) (n : Nat) : W64 := q.base + BitVec.ofNat 64 (64 * (n % 2 ^ q.cap))
def State.stqEntry (s : State) (core : Nat) (sp : Space) (q : Stq) (n : Nat) : Loc :=
  match s.queuePlace (s.coreAt core).ten sp (cellOf core) (q.entryAddr n) 64 with
  | .ok l => l
  | .error _ => q.desc

/-- Whether the entry that a get would take is one that an uncorrectable error took (R369). -/
def State.stqLost (s : State) (core : Nat) (sp : Space) (q : Stq) : Bool :=
  decide (0 < q.count) && s.spoiled (s.stqEntry core sp q q.head) 64

/-- The words of n bytes at a place. -/
def State.rdWords (s : State) (l : Loc) (n : Nat) : List W32 := wordsOf n (s.rd l (4 * n))
/-- A list of words as a number, the first least significant. -/
def natOf : List W32 → Nat
  | [] => 0
  | x :: r => x.toNat + 2 ^ 32 * natOf r

/-- What the queue held after its last operation; software's stores to HEAD, TAIL or a live entry show as a difference, and
leave the later entries undefined until the queue is empty again (R178). (DESIGN CHOICE, log entry 72.) -/
def State.stqSeen (s : State) (core : Nat) (sp : Space) (q : Stq) : StageQ :=
  let held (bad : Bool) : StageQ := { desc := q.desc, head := q.head, tail := q.tail, ents := [], bad }
  match s.queues.find? fun x => x.desc == q.desc with
  | none => held (q.head != q.tail)
  | some x =>
    if q.head = q.tail then held false
    else if x.head = q.head ∧ x.tail = q.tail ∧
        (x.ents.zipIdx.all fun (e, i) => s.rdWords (s.stqEntry core sp q (q.head + i)) 16 == e) then x
    else held true

def State.stqKeep (s : State) (x : StageQ) : State :=
  { s with queues := x :: s.queues.filter fun y => y.desc != x.desc }

/-- Put the words of a group at the tail: one access that covers the entry and the descriptor (R179, R220). -/
def State.stqPush (s : State) (core : Nat) (sp : Space) (q : Stq) (ws : List W32) : State :=
  let x := s.stqSeen core sp q
  let l := s.stqEntry core sp q q.tail
  let s := (s.putBytes l 64 (natOf ws)).putBytes (q.desc.plus 20) 4 ((q.tail + 1) % 2 ^ 32)
  let s := (((s.stampAll core [q.desc] [l, q.desc]).touchL1 core l).touchL1 core q.desc).notePut core
  s.stqKeep { x with tail := (q.tail + 1) % 2 ^ 32, ents := x.ents ++ [ws] }

/-- Take the entry at the head, by one such access. What the thread does next is ordered behind the put of the entry (R180). -/
def State.stqPop (s : State) (core : Nat) (sp : Space) (q : Stq) : State × List W32 :=
  let x := s.stqSeen core sp q
  let l := s.stqEntry core sp q q.head
  let s := s.settle l 64
  let ws := if x.bad then (List.range 16).map fun j => Config.freeWord [11, s.free, q.head, j] else wordsOf 16 (s.rd l 64)
  let s := s.putBytes (q.desc.plus 16) 4 ((q.head + 1) % 2 ^ 32)
  let s := ((s.stampAll core [l, q.desc] [q.desc]).touchL1 core q.desc).seeTerms core
  (s.stqKeep { x with head := (q.head + 1) % 2 ^ 32, ents := x.ents.drop 1 }, ws)

/-- A thread completes its STQPUT. -/
def State.putLane (s : State) (core : Nat) (v : View) (q : Stq) (g : Fld) : State :=
  (s.stqPush core v.th.space q (v.words g 16)).onThread core v.th.ident.tid fun v =>
    v.onTh fun t => { t.payOwed.complete 4#64 with status := .runnable }

/-- A thread completes its STQGET, or its STQTRY that takes an entry: the group lands later. -/
def State.getLane (s : State) (core : Nat) (v : View) (q : Stq) (g : Fld) : State :=
  let (s, ws) := s.stqPop core v.th.space q
  s.onThread core v.th.ident.tid fun v => (v.produce .stq (v.th.refs g 16) (some ws) 0).onTh fun t =>
    { t.payOwed.complete 4#64 with status := .runnable }

/-- Who waits in a queue: a thread with its group, or a GR.SAP whose put finds the queue full (R329). -/
inductive StqWho where
  | lane (v : View) (g : Fld) | grinder (c : Cmd)
  deriving DecidableEq, Repr

/-- A wait in a queue: the core and its address space, the descriptor's address, and since when. -/
structure StqWaiter where
  core  : Nat
  space : Space
  va    : W64
  since : Nat
  put   : Bool
  who   : StqWho
  deriving DecidableEq, Repr

/-- The place among waits of one moment: by %tid, the Grinder last. -/
def StqWaiter.tie (w : StqWaiter) : Nat := match w.who with | .lane v _ => v.th.ident.tid.toNat | .grinder c => 2 ^ 32 + c.id

/-- The moment since which a GR.SAP waits for its queue. -/
def Cmd.sapSince (c : Cmd) : Option Nat := match c.op with | .sap => c.done.head? | _ => none
/-- The descriptor address in its bundle. -/
def Cmd.sapDesc (c : Cmd) : W64 := pair64 (c.words.getD 0 0#32) (c.words.getD 1 0#32)
/-- The next entry of R329: the captured list holds four words before the pairs. -/
def Cmd.sapEntry (c : Cmd) : List W32 :=
  let ps := (c.cap.drop (4 + 2 * c.count)).take 14
  ps ++ List.replicate (14 - ps.length) (BitVec.allOnes 32) ++ [BitVec.ofNat 32 (ps.length / 2), c.words.getD 5 0#32]

/-- A GR.SAP puts its next entry: the command counts its pairs and waits no longer. -/
def State.sapPut (s : State) (c : Cmd) (q : Stq) : State :=
  let s := s.stqPush c.ctx.core c.ctx.space q c.sapEntry
  let n := ((c.cap.drop (4 + 2 * c.count)).take 14).length / 2
  s.onCell (cellOf c.ctx.core) fun k => { k with grindq := k.grindq.map fun x =>
    if x.id = c.id then { x with count := x.count + n, done := [] } else x }

/-- The waits in a queue, in the order in which they began, ties by %tid. -/
def State.stqWaiters (s : State) (desc : Loc) : List StqWaiter :=
  let lanes := s.cores.flatMap fun c => match c.crew with
    | none => []
    | some k => k.all.filterMap fun t => match t.status with
      | .parked (.stqFull d va n g) =>
        if d = desc then some { core := c.id, space := t.space, va, since := n, put := true, who := .lane ⟨t, k.k⟩ g : StqWaiter } else none
      | .parked (.stqEmpty d va n g) =>
        if d = desc then some { core := c.id, space := t.space, va, since := n, put := false, who := .lane ⟨t, k.k⟩ g : StqWaiter } else none
      | _ => none
  let grinders := s.cells.flatMap fun k => k.grindq.filterMap fun c =>
    match c.sapSince, s.queuePlace c.ctx.ten c.ctx.space k.id c.sapDesc 128 with
    | some n, .ok d =>
      if d = desc then some { core := c.ctx.core, space := c.ctx.space, va := c.sapDesc, since := n, put := true, who := .grinder c : StqWaiter }
      else none
    | _, _ => none
  sortBy (fun (a b : StqWaiter) => a.since < b.since || (a.since == b.since && decide (a.tie ≤ b.tie))) (lanes ++ grinders)

/-- Whether a wait can end: its put finds room, its get finds an entry, or an uncorrectable error took the descriptor, at which a thread
executes its instruction again. -/
def State.stqReady (s : State) (w : StqWaiter) : Bool :=
  match s.stqOpen w.core w.space w.va, w.who with
  | .ok q, _ => if w.put then decide (q.count < 2 ^ q.cap) else decide (0 < q.count)
  | .error (.trap t), .lane _ _ => t.cause == Cause.mcheck
  | .error _, _ => false

/-- Serve the waits in a queue as far as it goes: the longest first. A get of an entry that an uncorrectable error took is executed again,
and traps (R369). -/
def State.serve (s : State) (desc : Loc) : Nat → State
  | 0 => s
  | n + 1 =>
    match (s.stqWaiters desc).find? s.stqReady with
    | none => s
    | some w =>
      (match w.who, s.stqOpen w.core w.space w.va with
        | .lane v g, .ok q =>
          if w.put then s.putLane w.core v q g
          else if s.stqLost w.core w.space q then s.setStatus w.core v.th.ident.tid .runnable
          else s.getLane w.core v q g
        | .lane v _, .error _ => s.setStatus w.core v.th.ident.tid .runnable
        | .grinder c, .ok q => s.sapPut c q
        | .grinder _, .error _ => s).serve desc n

/-- How many wait in a queue bounds what one operation can serve. (DEDUCED, log entry 36.) -/
def State.serveAll (s : State) (desc : Loc) : State := s.serve desc (s.stqWaiters desc).length

/-- The queues at which threads of a core wait are looked at again: a store of software may have made room or an entry (R179). -/
def State.serveParked (s : State) (core : Nat) : State :=
  match (s.coreAt core).crew with
  | none => s
  | some c =>
    let descs := (c.all.filterMap fun t => match t.status with
      | .parked (.stqFull d ..) | .parked (.stqEmpty d ..) => some d
      | _ => none).eraseDups
    descs.foldl State.serveAll s

/-- Whether a group field names a group (R157): registers only, no uniform register and not z. -/
def groupVerdict (g : Fld) : Verdict :=
  if g.toNat ≥ 112 then .trap (trapOpen stageField Cause.illegal 5) else .ok

/-- What becomes of a lane whose queue passed its checks: it waits for its earlier accesses, for a row under repair, and for its access to
cross the bridge; a get traps at an entry that an uncorrectable error took. -/
def State.stqVerdict (s : State) (core : Nat) (t : Thread) (va : W64) (get : Bool) (q : Stq) : Verdict :=
  ((s.orderVerdict core t).andThen
    (s.siteVerdict core t va [q.desc, s.stqEntry core t.space q (if get then q.head else q.tail)])).andThen
  (if get && s.stqLost core t.space q then .trap (trapAt 28 Cause.mcheck 1 (q.entryAddr q.head)) else .ok)

/-- A stage-queue instruction: the checks of each lane, then the lanes in ascending order. `act` acts for one lane on the
queue it finds, at the moment `since` of parking. -/
def stqForm (get : Bool) (g a : Fld) (o : Opnds) (act : State → Nat → View → Stq → Nat → State) (s : State) : LaneForm :=
  let core := s.issue.core
  { opn := o,
    verdict := fun v => ((groupVerdict g).andThen (o.verdict v)).andThen (match s.stqOpen core v.th.space (v.rd64 a) with
        | .error e => e
        | .ok q => s.stqVerdict core v.th (v.rd64 a) get q),
    act := fun tids s =>
      let since := s.now
      tids.foldl (fun s tid =>
        match s.view? core tid with
        | none => s
        | some v =>
          match s.stqOpen core v.th.space (v.rd64 a) with
          | .error _ => s
          | .ok q =>
            -- held terms of the descriptor settle before it is read (R240)
            let s := s.settle q.desc 24
            match s.stqOpen core v.th.space (v.rd64 a) with
            | .error _ => s
            | .ok q =>
              -- an earlier lane's get has left an entry that an error took: this lane executes its own again
              if get && s.stqLost core v.th.space q then s else
              let s := ((act s core v q since).noteSeen core tid (o.srcs.any v.unwritten)).onThread core tid fun v =>
                v.onTh fun t => { t with crossed := none }
              s.serveAll q.desc) s }

/-- A lane takes an entry, or parks with its group marked empty (R353). -/
def State.getOrPark (s : State) (core : Nat) (v : View) (q : Stq) (va : W64) (g : Fld) (since : Nat) : State :=
  if q.count = 0 then
    s.onThread core v.th.ident.tid fun v => (v.markEmpty (v.th.refs g 16)).onTh fun t =>
      { t with status := .parked (.stqEmpty q.desc va since g) }
  else s.getLane core v q g

def stqputForm (o : RAB) (s : State) : LaneForm :=
  stqForm false o.b o.a { srcs := [.p o.a o.f, ⟨o.b, 16, 16, o.g⟩] } (fun s core v q since =>
    if q.count ≥ 2 ^ q.cap then s.setStatus core v.th.ident.tid (.parked (.stqFull q.desc (v.rd64 o.a) since o.b))
    else s.putLane core v q o.b) s
def execStqput (o : RAB) (s : State) : Result := .next (s.eachLane (stqputForm o s))

def stqgetForm (o : R2) (s : State) : LaneForm :=
  stqForm true o.d o.a { srcs := [.p o.a o.f], dsts := [⟨o.d, 16⟩] }
    (fun s core v q since => s.getOrPark core v q (v.rd64 o.a) o.d since) s
def execStqget (o : R2) (s : State) : Result := .next (s.eachLane (stqgetForm o s))

/-- STQTRY writes b at once: 1 with an entry, 0 without, when its one access is the load of the descriptor (R220). It never parks. -/
def stqtryForm (o : R3b) (s : State) : LaneForm :=
  stqForm true o.d o.a { srcs := [.p o.a o.f], dsts := [⟨o.d, 16⟩, ⟨o.b, 1⟩] } (fun s core v q _ =>
    if q.count = 0 then (s.stampLoad core q.desc).onThread core v.th.ident.tid fun v => (v.wr32 o.b 0#32).done 4#64
    else (s.getLane core v q o.d).onThread core v.th.ident.tid fun v => v.wr32 o.b 1#32) s
def execStqtry (o : R3b) (s : State) : Result := .next (s.stillLanes (stqtryForm o s))

end Sys2Proof.Machine
end

