-- ==== Sys2Proof/Machine/Engine.lean ====
section
/-! DEFINITION. Engine commands: their queues, their issue (R250 to R252, R273 to R275), the places that their addresses
reach (R368), the moves of bytes that they make (R228), and their completion. -/

namespace Sys2Proof.Machine
open Sys2Proof

/-! ### Queues (R250, R286, R288, R303, R321, R400) -/

def State.queueOf (s : State) (r : EngRef) : List Cmd :=
  let c := s.coreAt r.core
  match r.eng with
  | .copy => c.copyq
  | .matrix k => (c.sectAt k).mq
  | .stack k => (c.sectAt k).sq
  | .table => c.tblq
  | .fabric => (s.dieAt (dieOfCore r.core)).fabq
  | .carafe => c.netq
  | .grinder => (s.cellAt (cellOf r.core)).grindq
  | .caver => c.caverq
  | .press => c.pressq

def State.onQueue (s : State) (r : EngRef) (f : List Cmd → List Cmd) : State :=
  match r.eng with
  | .copy => s.onCore r.core fun c => { c with copyq := f c.copyq }
  | .matrix k => s.onCore r.core fun c => c.onSect k fun x => { x with mq := f x.mq }
  | .stack k => s.onCore r.core fun c => c.onSect k fun x => { x with sq := f x.sq }
  | .table => s.onCore r.core fun c => { c with tblq := f c.tblq }
  | .fabric => s.onDie (dieOfCore r.core) fun d => { d with fabq := f d.fabq }
  | .carafe => s.onCore r.core fun c => { c with netq := f c.netq }
  | .grinder => s.onCell (cellOf r.core) fun c => { c with grindq := f c.grindq }
  | .caver => s.onCore r.core fun c => { c with caverq := f c.caverq }
  | .press => s.onCore r.core fun c => { c with pressq := f c.pressq }

/-- How many commands a queue holds. -/
def engCap : Eng → Nat
  | .copy => 16
  | .matrix _ | .table | .carafe => 8
  | .stack _ | .grinder | .caver | .press => 4
  | .fabric => 32

/-- The core at which an engine is named when several reach it: a cell's Grinder, a die's fabric unit. -/
def engHome (r : EngRef) : EngRef :=
  match r.eng with
  | .grinder => { r with core := r.core / 2 * 2 }
  | .fabric => { r with core := r.core / 160 * 160 }
  | _ => r

/-- The fields of a QM bundle (R281). -/
structure QmShape where
  b    : Nat
  acc  : Bool
  span : Nat
  k    : Nat
  sGrp : Nat
  cGrp : Nat
  aGrp : Nat
  scale : Nat
  deriving DecidableEq, Repr

/-- The 64-bit value of words i and i + 1. -/
def pairAt (w : List W32) (i : Nat) : W64 := pair64 (w.getD i 0#32) (w.getD (i + 1) 0#32)
def wordAt (w : List W32) (i : Nat) : W32 := w.getD i 0#32
/-- Bits [hi:lo] of word i. -/
def fieldIn (w : List W32) (i hi lo : Nat) : Nat := bitsOf (wordAt w i) hi lo

def QmShape.of (w : List W32) : QmShape :=
  { b := (wordAt w 0).toNat, acc := (wordAt w 1).getLsbD 6, span := fieldIn w 1 5 3, k := 16 * (fieldIn w 1 2 0 + 1),
    sGrp := fieldIn w 2 20 14, cGrp := fieldIn w 2 13 7, aGrp := fieldIn w 2 6 0, scale := 16 * fieldIn w 3 15 0 }

/-- The parameters that fused operations share (R266): format, B, K and span, and the scale table. -/
def Cmd.fusionKey (c : Cmd) : Option (MFmt × Nat × Nat × Nat × Nat) :=
  match c.op with
  | .qm f _ => let x := QmShape.of c.words; some (f, x.b, x.k, x.span, x.scale)
  | _ => none

/-- Whether the operations of a pass may be fused: same parameters, issued within 8 arithmetic clocks of the first. A QM captures the
clock of its issue. -/
def fusable (l : List Cmd) : Bool :=
  match l with
  | [] => false
  | c :: r => c.fusionKey.isSome && decide (l.length ≤ 16) &&
      r.all fun x => x.fusionKey == c.fusionKey && decide ((wordAt x.cap 0 - wordAt c.cap 0).toNat ≤ 8)

/-- The operations at the head of a matrix queue that the engine has drawn into one pass (R266): they hold no entry of the queue any
more, so that the pass can come to 16. (DEDUCED, log entry 90.) -/
def drawnPass (q : List Cmd) : Nat :=
  ((List.range 17).filter fun n => fusable (q.take n) && decide (n ≤ q.length)).foldl max 0

/-- Every queue that a core's commands enter. -/
def coreQueues (core : Nat) : List EngRef :=
  ([.copy, .table, .carafe, .caver, .press, .matrix 0, .matrix 1, .matrix 2, .matrix 3, .stack 0, .stack 1, .stack 2, .stack 3,
    .grinder, .fabric] : List Eng).map fun e => { core, eng := e }

/-- Every command of a core in flight. -/
def State.coreCmds (s : State) (core : Nat) : List Cmd :=
  ((coreQueues core).flatMap fun r => s.queueOf r).filter fun c => c.ctx.core == core

/-- Change one command of a queue. -/
def State.onCmd (s : State) (r : EngRef) (id : Nat) (f : Cmd → Cmd) : State :=
  s.onQueue r fun q => q.map fun c => if c.id = id then f c else c

/-! ### Tile-task identifiers and trace records (R379, R380) -/

/-- ENG of R379. -/
def CmdOp.engNo : CmdOp → Nat
  | .tld | .tst | .gth | .sct | .lin | .fill | .mcst => 0
  | .mm _ | .mms _ | .qm _ _ | .drn _ | .mzero | .mstat => 1
  | .pv _ | .pvPred | .pvMask => 2
  | .tbLoad | .tbSwap | .hgBind | .hgRead | .hgClr => 3
  | .fxPut | .fxGet | .fxAred _ | .fxBcast | .fxSig => 4
  | .neBind | .neFlush | .neUnbind | .tile .. => 8
  | .tdBind | .tdDesc | .tdBwd | .tdPath => 9
  | .sort _ | .morton | .sap => 10
  | .qbox | .qray => 11
  | .lu _ | .chol _ | .solve | .psBwd | .pgs => 12

/-- The identifier of a command of engine number `eng`. -/
def State.ttid (s : State) (x : CmdCtx) (eng : Nat) (seq : W32) : W64 :=
  let q := ((s.task? x.ten x.task).map fun t => t.tcb.queue).getD 0
  BitVec.ofNat 64 (x.ten * 2 ^ 61 + q * 2 ^ 55 + x.core * 2 ^ 46 + x.sect * 2 ^ 44 + eng * 2 ^ 40 + seq.toNat)

/-- A record of a command: accepted (3), completed (4) or stopped (5). -/
def State.traceCmd (s : State) (kind : Nat) (x : CmdCtx) (eng : Nat) (seq : W32) (status : Nat) : State :=
  s.trace x.ten { ttid := s.ttid x eng seq, pc := x.pc, clk := (s.coreAt x.core).clock, kind, status, tid := x.tid }

/-- The commands that an engine has accepted. -/
def State.seqOf (s : State) (r : EngRef) : W32 :=
  (((s.coreAt (engHome r).core).seqs.find? fun p => p.1 == r.eng).map (·.2)).getD 0#32
def State.bumpSeq (s : State) (r : EngRef) : State :=
  let n := s.seqOf r
  s.onCore (engHome r).core fun c => { c with seqs := (r.eng, n + 1#32) :: c.seqs.filter fun p => p.1 != r.eng }

/-! ### Issue -/

/-- What an issuer binds to its command (R274). -/
def State.ctxOf (s : State) (core : Nat) (t : Thread) : CmdCtx :=
  let crew := (s.coreAt core).crew
  { core, sect := if t.sfe then 0 else t.place.sect, tid := t.ident.tid, task := (crew.map (·.task)).getD 0,
    crew := (crew.map (·.no)).getD 0, ten := (s.coreAt core).ten, ptbase := t.ptbase, locbase := t.locbase, sys := t.modeS,
    pad := (crew.map (·.pad)).getD 0, replay := (crew.map (·.replay)).getD false, pc := t.pc }

/-- Whether the bundle of n words from field a passes R273. -/
def Thread.bundleOk (t : Thread) (a : Fld) (n : Nat) (pair : Bool) : Bool :=
  n == 0 || (decide (a.toNat + n ≤ 112) && decide (t.win + a.toNat + n ≤ t.allot) && (!pair || a.toNat % 2 == 0))

/-- The register operands of a command with n bundle words: each is a source of its own. -/
def engOpnds (o : R2) (n : Nat) : Opnds :=
  { srcs := (List.range n).map fun i => ⟨o.a + BitVec.ofNat 7 i, 1, 1, i == 0 && o.f⟩, dsts := [⟨o.d, 1⟩] }

/-- What a card says of a command's issue: its bundle words, whether they hold an address pair, whether only lane threads issue it,
and whether it fills d in every lane of the run (QM, R282). -/
structure EngCard where
  n        : Nat
  pair     : Bool := false
  laneOnly : Bool := false
  every    : Bool := false
  deriving DecidableEq, Repr

/-- What an issuer's command enters its queue with. `load` is the record that is read at issue, `score` are the ranges of
R260, and `fills` the threads whose completion registers it fills. `backs` counts the entries of the backward store that it takes
(R306). `now` is a command that completes at its issue (a length or count of
0: R277, R323, R400), and `reach` are further ranges of memory that it reads or writes, each an address and its bytes, which may lie on the
other die (R391). -/
structure Draft where
  ref   : EngRef
  op    : CmdOp
  cap   : List W32 := []
  lines : List Nat := []
  score : List (List ScorePart) := []
  load  : Option (Loc × Nat) := none
  fills : List W32
  now   : Bool := false
  reach : List (W64 × Nat) := []
  backs : Nat := 0
  deriving DecidableEq, Repr

/-- The checks of a card's ENGINE trap: each with its sub-cause, whether it fails, and the field that it names. -/
abbrev EngChecks := List (Nat × Bool × Fld)

/-- The failure that is reported: the lowest sub-cause (R251), of several with it the first of the card's list. Which operand's field a
record's failure names when it comes from an extent or a coordinate is open too: the cards name field a for sub-cause 1. (DESIGN CHOICE,
log entry 122.) -/
def engFail (l : EngChecks) : Option (Nat × Fld) :=
  l.foldl (fun b x => if !x.2.1 then b else match b with
    | none => some (x.1, x.2.2)
    | some y => if x.1 < y.1 then some (x.1, x.2.2) else b) none

/-- A draft that passes its checks. -/
def checked (l : EngChecks) (d : Draft) : Except (Nat × Fld) Draft :=
  match engFail l with
  | some e => .error e
  | none => .ok d

/-- Field a + i of a bundle. -/
def bundleFld (o : R2) (i : Nat) : Fld := o.a + BitVec.ofNat 7 i

/-- The words of a record that is read at issue (R249, R295): terms that are held for them settle first (R240). -/
def State.recordWords (s : State) (core : Nat) (v : View) (va : W64) (n : Nat) : List W32 :=
  match s.recordLoc core v va n with
  | some l => (s.settle l n).rdWords l (n / 4)
  | none => []

/-- The verdict of one lane at a command, which is collective (R137): the register checks and the reads of the bundle are those of
every lane of the run, and each lane's earlier accesses come before the command (R228); only an issuer, or with QM every lane, writes
d, and only an issuer meets the further checks. (DEDUCED, log entry 59.) -/
def State.engVerdict (s : State) (core : Nat) (o : R2) (k : EngCard) (who : List W32) (chk : View → Verdict) (v : View) :
    Verdict :=
  let opn := engOpnds o k.n
  let mine := who.contains v.th.ident.tid
  if !v.th.bundleOk o.a k.n k.pair then .trap (trapOpen Machine.stageField Cause.illegal 5)
  else match ({ opn with laneOnly := k.laneOnly } : Opnds).decodeTrap v.th with
    | some t => .trap t
    | none =>
      ((if mine || k.every then opn else { opn with dsts := [] }).readVerdict v).andThen
        ((s.orderVerdict core v.th).andThen (if mine then chk v else .ok))

/-! ### Completion (R275) -/

/-- A launched tile of the Carafe is no command of the matrix engine. -/
def CmdOp.isTile : CmdOp → Bool
  | .tile .. => true
  | _ => false

/-- The completion word. -/
def statusWord (count status : Nat) : W32 := BitVec.ofNat 32 (min count 0xFFFFFF * 256 + status)

/-- A command delivers a pad line (R199): the line is full when every command that marked it has delivered it. A line that
LOADFE left empty is full after any delivery. -/
def State.deliverLine (s : State) (id g : Nat) : State :=
  s.onCore (g / 8192) fun c => { c with empty := c.empty.filter fun e => !(e.1 == g % 8192 && (e.2 == id || e.2 == 0)) }

/-- A command completes: it leaves its queue, its lines are full, its ranges are free and its completion registers fill. -/
def State.finishCmd (s : State) (r : EngRef) (c : Cmd) (count status : Nat) : State :=
  let core := c.ctx.core
  let s := s.onQueue r fun q => q.filter fun x => x.id != c.id
  let s := (c.lines.filter fun g => !c.done.contains g).foldl (fun s g => s.deliverLine c.id g) s
  let s := s.onCore core fun k => { k with score := k.score.filter fun e => e.cmd != c.id }
  let s := match r.eng with
    | .matrix j => s.onCore r.core fun k => k.onSect j fun x => { x with retired := x.retired + (if c.op.isTile then 0#32 else 1#32) }
    | _ => s
  let s := c.owners.foldl (fun s o => s.fill core o.1 o.2 [statusWord count status] (if status = 2 then .status2 c.id else .clean)) s
  let s := s.onTids core (c.owners.map (·.1)) fun v => v.onTh fun t =>
    { t with qm := t.qm.map fun h => if h.cmd = c.id then { h with fin := true } else h }
  (s.traceCmd 4 c.ctx c.op.engNo c.seq status).settleEnd core

/-- Whether an open tile launches: it is full, it was told to, or its window has passed (R299). -/
def Tile.due (t : Tile) (cycle : Nat) : Bool := t.full || decide (t.rows.length ≥ 128) || decide (cycle - t.opened ≥ t.nwin)

/-- The entries of a queue that are taken or promised: a tile that waits for an entry comes before every command (R299). -/
def State.queueUse (s : State) (r : EngRef) : Nat :=
  let k := s.coreAt r.core
  (s.queueOf r).length + (match r.eng with
    | .matrix j => (k.tiles.filter fun t => t.sect == j && t.due k.cycle).length
    | _ => 0) - (match r.eng with
    | .matrix _ => drawnPass (s.queueOf r)
    | _ => 0)

/-- Whether the store has no room for `n` more entries. -/
def Crew.backsFull (c : Crew) (n : Nat) : Bool := decide (c.backs.length + n > 256)

/-- The wait of a run whose commands find no room: in their queue, in the range scoreboard, or in the backward store (R250, R260, R306). -/
def State.engRoom (s : State) (core : Nat) (l' : List Draft) : Option Wait :=
  let l := l'.filter fun d => !d.now
  match l.find? fun d => s.queueUse d.ref + (l.filter fun x => x.ref == d.ref).length > engCap d.ref.eng with
  | some d => some (.queue d.ref.eng)
  | none =>
    let n := (l.map (·.backs)).sum
    if (s.coreAt core).score.length + (l.flatMap (·.score)).length > 32 then some (.score none)
    else if n ≠ 0 ∧ ((s.coreAt core).crew.map fun c => c.backsFull n).getD false then some (.backward n)
    else none

/-! ### Places (R368) -/

/-- Why a command cannot reach a byte: the status that ends it, or 0 where it waits for a page and 1 where it waits for the repair of a row
(R390), and the address. -/
structure Miss where
  code : Nat
  va   : W64
  deriving DecidableEq, Repr

/-- A byte that a command reaches, or why it cannot. -/
abbrev Site := Except Miss Loc

/-- Where an address of a command lies: an error is the status that ends the command, 2 where an uncorrectable error has taken an entry of
the page tables (R369), or 0 where it waits for a page, which the host may have refused, or 1 where it waits for a repair.
(DEDUCED, log entry 21.) -/
def State.engSite (s : State) (x : CmdCtx) (refused rd wr : Bool) (va : W64) : Site :=
  let o := windowOff va
  let no (code : Nat) : Site := .error { code, va }
  let mapped (a : W64) : Site :=
    match s.translate x.ten x.ptbase x.sys { r := rd, w := wr } a with
    | .error (cause, _) => no (if cause = Cause.pagefault then (if refused then 3 else 0) else if cause = Cause.mcheck then 2 else 4)
    | .ok h => if h.state then no 4 else if s.underRepair h.loc then no 1 else .ok h.loc
  if !canonical va then no 4
  else match windowOf va with
    | none => mapped va
    | some 1 => if x.locbase = 0#64 ∨ o ≥ 65536 then no 4 else mapped (x.locbase + BitVec.ofNat 64 o)
    | some 2 => if o < x.pad * 128 then .ok (.pad x.core o) else no 4
    | some 3 => if o < s.celsz (cellOf x.core) then .ok (.cel (cellOf x.core) o) else no 4
    | some _ => no 4

/-! ### Entering a queue -/

/-- A tile launches into the matrix queue of its section when that has room. A sample of it names its first evaluation (R380). -/
def State.launchTile (s : State) (core i : Nat) : State :=
  let k := s.coreAt core
  match k.tiles[i]? with
  | none => s
  | some t =>
    let q := (k.sectAt t.sect).mq
    if t.due k.cycle && decide (q.length - drawnPass q < 8) then
      let c : Cmd :=
        { id := s.serial + 1, op := .tile t.net t.handle t.bind t.bwd t.rows, ctx := t.ctx, words := [], cap := [], owners := [],
          seq := (t.rows.head?.map (·.seq)).getD 0#32, lines := [], done := [], count := 0, held := false, refused := false, stop := false,
          past := false }
      { s.onCore core fun k => { (k.onSect t.sect fun y => { y with mq := y.mq ++ [c] }) with tiles := k.tiles.eraseIdx i } with serial := s.serial + 1 }
    else s

/-- Due tiles of a section launch, the oldest first, up to n of them. -/
def State.launchDue (s : State) (core sect : Nat) : Nat → State
  | 0 => s
  | n + 1 =>
    let k := s.coreAt core
    match k.tiles.findIdx? fun t => t.sect == sect && t.due k.cycle with
    | none => s
    | some i => (s.launchTile core i).launchDue core sect n

/-- Every due tile of a core launches for which its matrix queue has room (R299). -/
def State.launchAll (s : State) (core : Nat) : State :=
  (List.range 4).foldl (fun s j => s.launchDue core j (s.coreAt core).tiles.length) s

/-- Whether an address of a command is homed on the other die, so that its transfers cross the bridge (R391). -/
def State.isFar (s : State) (x : CmdCtx) (va : W64) : Bool :=
  match s.engSite x true false false va with
  | .ok l => l.homeDie (dieOfCore x.core) != dieOfCore x.core
  | .error _ => false

/-- The pages of a range of n bytes from an address: where each part of it begins and ends. -/
def pageParts (lo n : Nat) : List (Nat × Nat) :=
  (List.range ((lo + n + 65535) / 65536 - lo / 65536)).map fun i =>
    (max lo (65536 * (lo / 65536 + i)), min (lo + n) (65536 * (lo / 65536 + i + 1)))

/-- The addresses of a command that tell where its transfers go: one in each page that it reaches. -/
def Draft.places (d : Draft) : List W64 :=
  (d.score.flatMap fun r => (r.filter fun e => !e.pad).map fun e => BitVec.ofNat 64 e.lo) ++
  d.reach.flatMap fun r => (pageParts r.1.toNat r.2).map fun p => BitVec.ofNat 64 p.1

/-- The address of a command's transfers that cross the bridge, if some do: to a page homed on the other die, or to lines of scratchpads
there, which have no address of their own. One transfer stands for all of a command's. (DEDUCED, log entry 127.) -/
def State.farPlace (s : State) (x : CmdCtx) (d : Draft) : Option W64 :=
  match d.places.find? (s.isFar x) with
  | some va => some va
  | none => if d.lines.any fun g => dieOfCore (g / 8192) != dieOfCore x.core then some 0#64 else none

/-- A command enters its queue (its issue event): the completion registers and the pad lines are marked empty. A tile whose launch is due
comes before it in a matrix queue (R299). (DEDUCED, log entry 52.) -/
def State.accept (s : State) (core : Nat) (o : R2) (x : CmdCtx) (words : List W32) (d : Draft) : State :=
  let s := match d.ref.eng with
    | .matrix j => s.launchDue core j (s.coreAt core).tiles.length
    | _ => s
  let id := s.serial + 1
  let seq := s.seqOf d.ref
  let owners := d.fills.filterMap fun tid => (s.view? core tid).map fun v => (tid, v.th.serial)
  let cmd : Cmd :=
    { id, op := d.op, ctx := x, words, cap := d.cap, owners, seq, lines := d.lines, done := [], count := 0, held := false,
      refused := false, stop := false, past := false }
  let s := match d.load with
    | none => s
    | some (l, n) => ((s.padSeen core x.tid l n).loadWide core l n).1
  let s := s.onTids core d.fills fun v => v.produce .cmd (v.th.refs o.d 1) none 0
  let s := ({ s with serial := id }.onQueue d.ref fun q => q ++ [cmd]).bumpSeq d.ref
  let s := s.onCore core fun c => { c with score := c.score ++ d.score.map fun parts => { cmd := id, parts } }
  let s := match s.farPlace x d with
    | some va => if d.now then s else s.cross (.cmd d.ref id va) (1 - dieOfCore core)
    | none => s
  let s := d.lines.foldl (fun s g => s.onCore (g / 8192) fun c => { c with empty := c.empty ++ [(g % 8192, id)] }) s
  s.traceCmd 3 x d.op.engNo seq 0

/-- What a card says of a command's issue: its bundle, the threads that issue it, the load of a record, the checks that give
its draft, and what it does at its issue. -/
structure EngForm where
  card   : EngCard
  who    : List W32
  load   : View → Verdict := fun _ => .ok
  draft  : View → List W32 → Except (Nat × Fld) Draft
  effect : View → List W32 → State → State := fun _ _ s => s

/-- An issuer whose command passes its checks, with its bundle and its draft. -/
abbrev Issuer := View × List W32 × Draft

/-- The threads of the run that issue a command, each with its bundle and what the card's checks say. A register that a QM
command in flight accumulates in reads as a free value (R229). -/
def State.issuers (s : State) (o : R2) (k : EngForm) : List (View × List W32 × Except (Nat × Fld) Draft) :=
  (s.run.filter fun v => k.who.contains v.th.ident.tid).map fun v =>
    let seen := v.onTh fun t => t.scramble [s.free, t.ident.tid.toNat] ((engOpnds o k.card.n).hidden t)
    let w := seen.words o.a k.card.n
    (v, w, k.draft seen w)

/-- The command of an issuer enters its queue, or, with a length or count of 0, completes at once. -/
def State.enter (s : State) (o : R2) (k : EngForm) (x : Issuer) : State :=
  let d := x.2.2
  let s := s.accept s.issue.core o (s.ctxOf s.issue.core x.1.th) x.2.1 d
  if d.now then
    match (s.queueOf d.ref).getLast? with
    | none => s
    | some c => s.finishCmd d.ref c 0 0
  else k.effect x.1 x.2.1 s

/-- The issue event (R274): the commands of `good` enter their queues, and the lanes `tids` complete. -/
def State.issueAll (s : State) (o : R2) (k : EngForm) (good : List Issuer) (tids : List W32) : State :=
  let core := s.issue.core
  let opn := engOpnds o k.card.n
  let ids := good.map fun x => x.1.th.ident.tid
  let rest := (good.flatMap fun x => x.2.2.fills).filter fun t => !ids.contains t
  let run (_ : List W32) (s : State) : State :=
    let s := s.onTids core ids opn.noteUnseen
    let s := good.foldl (fun s x => s.enter o k x) s
    s.onTids core tids fun v => v.commit 4#64
  s.actQm { dsts := [⟨o.d, 1⟩] } (fun _ s => s.actQm opn run ids) rest

/-- A command at the run that issues it: the register checks and reads of its lanes, then the card's checks, whose failures
trap, then room in the queue and the scoreboard, for which the whole run waits. -/
def State.engIssue (s : State) (o : R2) (k : EngForm) : State :=
  let core := s.issue.core
  let sp := splitAll (s.verdicts (s.engVerdict core o k.card k.who k.load))
  if sp.go.isEmpty then s.applySplit {} sp fun _ s => s
  else
    let issuers := s.issuers o k
    let good := issuers.filterMap fun (v, w, d) => match d with | .ok d => some (v, w, d) | .error _ => none
    let bad := issuers.filterMap fun (v, _, d) => match d with
      | .ok _ => none
      | .error (sub, f) => some (v.th.ident.tid, trapAt 40 Cause.engine sub (f.setWidth 64))
    match s.engRoom core (good.map fun x => x.2.2) with
    | some w => s.applySplit {} { park := sp.go.map fun t => (t, w) } fun _ s => s
    | none =>
      let go := sp.go.filter fun t => !(bad.map (·.1)).contains t
      s.applySplit {} { go, traps := if bad.isEmpty then [] else [bad] } fun tids s => s.issueAll o k good tids

/-- The issuer of every command but QM and the lane-issued ones: the leader. -/
def State.leader (s : State) : List W32 := (s.run.take 1).map fun v => v.th.ident.tid

/-! ### Ranges of a bundle -/

/-- Whether a pad range of n bytes reaches past the crew's pad. -/
def CmdCtx.past (x : CmdCtx) (off n : Nat) : Bool := decide (off + n > x.pad * 128)

/-- The pad lines of a core that n bytes from an offset touch, numbered over all cores. -/
def padLines (core off n : Nat) : List Nat :=
  if n = 0 then [] else (List.range ((off + n - 1) / 128 + 1 - off / 128)).map fun i => core * 8192 + (off / 128 + i)

/-- The global number of the pad line of a place. -/
def Loc.padLine : Loc → Option Nat
  | .pad c o => some (c * 8192 + o / 128)
  | _ => none

/-! ### Reads and writes of places -/

/-- A byte that is read: one with an uncorrectable error ends the command with STATUS 2 (R275, R369). -/
def State.sound (s : State) (va : W64) (x : Site) : Site :=
  match x with
  | .ok l => if s.spoiled l 1 then .error { code := 2, va } else .ok l
  | e => e

/-- Where a byte lies that a command reads or writes. -/
def State.engPlace (s : State) (x : CmdCtx) (refused rd wr : Bool) (va : W64) : Site :=
  if rd then s.sound va (s.engSite x refused rd wr va) else s.engSite x refused rd wr va

/-- The places of n bytes from an address. -/
def State.ctxBytes (s : State) (x : CmdCtx) (refused rd wr : Bool) (va : W64) (n : Nat) : List Site :=
  (List.range n).map fun i => s.engPlace x refused rd wr (va + BitVec.ofNat 64 i)
def State.engBytes (s : State) (c : Cmd) (rd wr : Bool) (va : W64) (n : Nat) : List Site :=
  s.ctxBytes c.ctx c.refused rd wr va n
/-- The places of n bytes of the pad of the command's core. -/
def Cmd.padBytes (c : Cmd) (off n : Nat) : List Site := (List.range n).map fun i => .ok (.pad c.ctx.core (off + i))

/-- The status of several failures (R252): 2, then 3, then 4, else 0, something to wait for. -/
def worstOf (l : List Miss) : Nat :=
  if l.any (·.code == 2) then 2 else if l.any (·.code == 3) then 3 else if l.any (·.code == 4) then 4 else 0

/-- Whether n bytes at a place that a command reads hold an uncorrectable error, as a list of failures. -/
def State.flaws (s : State) (l : Loc) (n : Nat) : List Miss :=
  if n ≠ 0 ∧ s.spoiled l n then [{ code := 2, va := 0#64 }] else []

/-- A command waits for the first page that it lacks. It is held while the page that it was held for is still the one. -/
def State.awaitPage (s : State) (r : EngRef) (c : Cmd) (l : List Miss) : State :=
  let va := (l.find? fun m => m.code == 0).map (·.va)
  s.onCmd r c.id fun x => { x with wants := va, held := x.held && x.wants == va }

/-- The state in which every held term has settled: what an engine reads, whichever bytes it comes to (R240). -/
def State.settledView (s : State) : State := s.terms.foldl (fun s t => s.settle t.loc t.op.size) s

/-- The walks of a command read entries of its page tables: terms that are held for such entries settle first (R240, R364). -/
def State.settleTables (s : State) (root : W64) : State :=
  (s.terms.filter fun t => match t.loc with
    | .mem a => (s.entryBelow (a / 8 * 8) root.toNat 4).isSome
    | _ => false).foldl (fun s t => s.settle t.loc t.op.size) s

/-- Whether a transfer of a command is on the die bridge (R391). -/
def State.crossing (s : State) (c : Cmd) : Bool :=
  s.bridge.any fun b => match b.load with
    | .cmd _ id _ => id == c.id
    | _ => false

/-! ### Moves (R228) -/

/-- One move of a command: `bits` bits read from the bytes `src` behind a shift, or the constant `val` when there is no
source, into all of the bytes `dst`, or with `dsh` into the bits behind that shift. `unit` numbers the line or row that the
command's COUNT counts. -/
structure Mv where
  unit : Nat
  src  : List Site := []
  sh   : Nat := 0
  val  : Nat := 0
  bits : Nat
  dst  : List Site
  dsh  : Option Nat := none

def placesOf (l : List Site) : List Loc := l.filterMap fun x => match x with | .ok p => some p | .error _ => none
def errsOf (l : List Site) : List Miss := l.filterMap fun x => match x with | .ok _ => none | .error e => some e

def Mv.errs (m : Mv) : List Miss := errsOf m.src ++ errsOf m.dst

/-- The value of a move. -/
def State.mvValue (s : State) (m : Mv) : Nat :=
  if m.src.isEmpty then m.val % 2 ^ m.bits
  else leNat ((placesOf m.src).map s.rdByte) / 2 ^ m.sh % 2 ^ m.bits

/-- Read a byte on behalf of an engine: held terms settle first, and the line's timestamps move. -/
def State.engTouch (s : State) (core : Nat) (l : Loc) : State := (s.settle l 1).stampLoad core l

/-- Write the bytes of a move that `keep` lets through, and no more than the bytes. -/
def State.mvWrite (s : State) (m : Mv) (v : Nat) (keep : Loc → Bool) : State :=
  let dst := placesOf m.dst
  let old := leNat (dst.map s.rdByte)
  let new := match m.dsh with
    | none => v
    | some k => old - (old / 2 ^ k % 2 ^ m.bits) * 2 ^ k + v * 2 ^ k
  (dst.zip (bytesOf dst.length new)).foldl (fun s x => if keep x.1 then (s.clearFutures x.1 1).wr x.1 1 x.2.toNat else s) s

/-- What bytes that were written do to page tables: each entry among them that changed from what it was in `was` (R365). -/
def State.entriesStored (was s : State) (written : List Loc) : State :=
  ((written.filterMap fun l => match l with
    | .mem a => some (a / 8 * 8)
    | _ => none).eraseDups).foldl (fun s a => s.entryStored a (was.phys64 a)) s

/-- A word that is written whole has no error any more (R369). -/
def State.mend (s : State) (written : List Loc) : State :=
  { s with errs := s.errs.filter fun e => !((List.range 4).all fun i => written.contains (e.plus i)) }

/-- Perform moves: every read comes before every write (R258), held terms settle before both, and each line that is written takes the
timestamp of one store (R204). -/
def State.mvAll (s : State) (core : Nat) (ms : List Mv) (keep : Mv → Loc → Bool) : State :=
  let written := ms.flatMap fun m => (placesOf m.dst).filter (keep m)
  let s := ms.foldl (fun s m => (placesOf m.src).foldl (fun s l => s.engTouch core l) s) s
  let s := (ms.flatMap fun m => placesOf m.dst).foldl (fun s l => s.settle l 1) s
  let t := (ms.zip (ms.map s.mvValue)).foldl (fun t x => t.mvWrite x.1 x.2 (keep x.1)) s
  ((s.entriesStored t written).stampLines core written).mend written

/-- What ends a list of moves: nothing, or a status (0: the command waits for a page) and the first unit that meets a failure. (DEDUCED, log entry 51.) -/
def mvStop (ms : List Mv) : Option (Nat × Nat) :=
  let bad := ms.filter fun m => !m.errs.isEmpty
  match bad with
  | [] => none
  | m :: _ => some (worstOf (bad.flatMap Mv.errs), bad.foldl (fun u x => min u x.unit) m.unit)

/-- A number for the aligned 4-byte word of a place. -/
def Loc.wordNo (l : Loc) : Nat := l.line * 32 + l.inLine / 4

/-- Whether a move writes only lines that were delivered already. -/
def Cmd.delivered (c : Cmd) (m : Mv) : Bool :=
  !(placesOf m.dst).isEmpty && (placesOf m.dst).all fun l => match l.padLine with
    | none => false
    | some g => c.done.contains g

/-- The units of moves that a command has delivered before its end. -/
def Cmd.unitsDone (c : Cmd) (ms : List Mv) : List Nat := ((ms.filter c.delivered).map (·.unit)).eraseDups

/-- Moves of a command that a fault ends (R228): it ends at a free unit up to the first that meets the fault, and COUNT is the
units written before it, with those delivered earlier (R252); of every later unit each word holds its old value or the command's.
(DEDUCED, log entry 51.) -/
def State.mvPart (s : State) (c : Cmd) (ms : List Mv) (first : Nat) : State × Nat :=
  let k := (Config.freeWord [14, s.free, c.id]).toNat % (first + 1)
  let good := ms.filter fun m => !c.delivered m && m.errs.isEmpty
  (s.mvAll c.ctx.core good fun m l => decide (m.unit < k) || Config.freeBool [13, s.free, l.wordNo],
    (((good.map (·.unit)).filter fun u => decide (u < k)) ++ c.unitsDone ms).eraseDups.length)

/-! ### Completion of moves (R275) -/

/-- Complete a command that is nothing but moves, of which some are delivered already: `count` and `status` hold when no fault ends it. A
command that waits for a page or a repair does not complete. Its reads and its writes, which R228 lets fall anywhere between its issue and
the wait for it, word by word, fall in one step: the reads first, then the writes. (DESIGN CHOICE, log entry 123.) -/
def State.finishMoves (s : State) (r : EngRef) (c : Cmd) (ms : List Mv) (count status : Nat) : State :=
  let todo := ms.filter fun m => !c.delivered m
  match mvStop todo with
  | none => (s.mvAll c.ctx.core todo fun _ _ => true).finishCmd r c count status
  | some (0, _) => s.awaitPage r c (todo.flatMap Mv.errs)
  | some (e, first) =>
    let (s, k) := s.mvPart c ms first
    s.finishCmd r c k e

/-! ### Order among the commands of a core (R199, R250) -/

/-- Whether pad line `g` is still to be delivered by a command issued before number `id`; with `fe`, also whether LOADFE left it empty,
which holds back a matrix operand fetch until a copy delivers the line (R199). -/
def State.marked (s : State) (id g : Nat) (fe : Bool) : Bool :=
  (s.coreAt (g / 8192)).empty.any fun e => e.1 == g % 8192 && decide (e.2 < id) && (fe || e.2 != 0)
/-- Whether pad lines may be read by a matrix operand fetch issued as number `id`. -/
def State.linesFree (s : State) (id : Nat) (lines : List Nat) : Bool := lines.all fun g => !s.marked id g true
/-- Whether a command is one whose reads are a matrix operand fetch. -/
def CmdOp.fetches : CmdOp → Bool
  | .mm _ | .mms _ | .qm _ _ => true
  | _ => false
/-- Whether a command's reads of pad lines may be made. -/
def State.readsFree (s : State) (c : Cmd) (lines : List Nat) : Bool := lines.all fun g => !s.marked c.id g c.op.fetches

/-- Whether a command's writes of pad lines may be made: no earlier command of the core has still to read or to deliver
one of them. `reads` gives the lines that a command reads. -/
def State.writesFree (s : State) (c : Cmd) (lines : List Nat) (reads : Cmd → List Nat) : Bool :=
  lines.all (fun g => !s.marked c.id g false) &&
  ((s.coreCmds c.ctx.core).filter fun e => decide (e.id < c.id)).all fun e => !((reads e).any lines.contains)

/-- A stop of the host holds an engine (R381): the oldest of its commands is the one named, so that none may start. (DEDUCED, log entry
79.) -/
def State.stopped (s : State) (r : EngRef) : Bool := s.stops.any fun x => x.1 == engHome r

/-- The request that goes to the host for a page that an engine needs (R368). -/
def State.askPage (s : State) (ten : Nat) (addr : W64) : State :=
  let slot := bytesOf 8 1 ++ bytesOf 8 addr.toNat ++ List.replicate 48 0#8
  { s with out := s.out ++ [{ op := 0x8B, ten, kind := 4, qid := 0, seq := 0#32, code := 0#32, payload := slot }] }

end Sys2Proof.Machine
end

