-- ==== Sys2Proof/Machine/Copy.lean ====
section
/-! DEFINITION. The copy engine (R248 to R260, R276 to R278). -/

namespace Sys2Proof.Machine
open Sys2Proof

/-! ### The tensor layout record (R248, R249) -/

/-- The fields of a record. -/
structure Tlr where
  base   : W64
  elem   : Nat
  span   : Nat
  sel    : Nat
  sparse : Bool
  fill   : W32
  dims   : List Nat
  strides : List Nat
  pitch  : Nat
  metahi : W32
  resv   : Bool
  deriving DecidableEq, Repr

/-- The record in 32 words. -/
def Tlr.of (w : List W32) : Tlr :=
  { base := pairAt w 0, elem := fieldIn w 2 3 0, span := fieldIn w 2 10 8, sel := fieldIn w 2 13 11,
    sparse := (wordAt w 2).getLsbD 16, fill := wordAt w 3, dims := (List.range 4).map fun q => (wordAt w (4 + q)).toNat,
    strides := (List.range 3).map fun q => (pairAt w (8 + 2 * q)).toNat, pitch := (wordAt w 14).toNat, metahi := wordAt w 15,
    resv := fieldIn w 2 7 4 != 0 || fieldIn w 2 15 14 != 0 || fieldIn w 2 31 17 != 0 ||
      (List.range 16).any fun i => wordAt w (16 + i) != 0#32 }

/-- The bytes of an element in memory (a six-bit element has none of its own) and in scratchpad. -/
def Tlr.esize (t : Tlr) : Nat := match t.elem with | 0 => 1 | 1 => 2 | 2 => 4 | 3 => 8 | _ => 1
def Tlr.sixBit (t : Tlr) : Bool := t.elem == 4
def Tlr.dim (t : Tlr) (q : Nat) : Nat := t.dims.getD q 0

/-- Whether the record fails R249 for a box that starts at c0 and is b0 wide. -/
def Tlr.bad (t : Tlr) (c0 b0 : Nat) : Bool :=
  t.resv || decide (t.elem > 4) || t.dims.any (· == 0) ||
  (!t.sixBit && (t.base.toNat % t.esize != 0 || t.strides.any fun x => x % t.esize != 0)) ||
  t.pitch % 16 != 0 || t.pitch % (16 * 2 ^ t.span) != 0 || decide (t.pitch < b0 * t.esize) ||
  (t.sixBit && (c0 % 4 != 0 || b0 % 4 != 0))

/-- The address of element (x0, x1, x2, x3), or of its group of bytes, without the reduction modulo 2^64 (R253). -/
def Tlr.addrNat (t : Tlr) (x0 x1 x2 x3 : Nat) : Nat :=
  t.base.toNat + (if t.sixBit then 3 * (x0 / 4) else x0 * t.esize) + x1 * t.strides.getD 0 0 + x2 * t.strides.getD 1 0 +
    x3 * t.strides.getD 2 0

/-- Where byte x of box row r stands behind the box's offset (R254). -/
def swizzle (span sel pitch r x : Nat) : Nat :=
  r * pitch + ((x / 16) ^^^ (r / 2 ^ sel % 2 ^ span)) * 16 + x % 16

/-- FILL as an element. -/
def Tlr.fillVal (t : Tlr) : Nat :=
  match t.elem with
  | 3 => t.fill.toNat * (2 ^ 32 + 1)
  | 4 => t.fill.toNat % 64
  | _ => t.fill.toNat % 2 ^ (8 * t.esize)

/-- The bytes and the shift within them of six-bit element j of a group: bits [6j+5:6j] of 24. -/
def sixBytes (j : Nat) : List Nat × Nat :=
  match j with | 0 => ([0], 0) | 1 => ([0, 1], 6) | 2 => ([1, 2], 4) | _ => ([2], 2)

/-! ### The boxes of the tile commands -/

/-- A box command's bundle: coordinates, pad offset and extents. -/
structure Box where
  c0 : Nat
  c1 : Nat
  c2 : Nat
  c3 : Nat
  p  : Nat
  b0 : Nat
  b1 : Nat
  x  : Nat
  deriving DecidableEq, Repr

def Box.of (w : List W32) : Box :=
  { c0 := fieldIn w 2 15 0, c1 := fieldIn w 2 31 16, c2 := fieldIn w 3 15 0, c3 := fieldIn w 3 31 16, p := (wordAt w 4).toNat,
    b0 := fieldIn w 5 15 0, b1 := fieldIn w 5 31 16, x := (wordAt w 6).toNat }

/-- The scratchpad places of element i of box row r. -/
def boxPlace (core : Nat) (t : Tlr) (b : Box) (r i : Nat) : List Site :=
  let o := b.p + swizzle t.span t.sel t.pitch r (i * t.esize)
  (List.range t.esize).map fun k => .ok (.pad core (o + k))

/-- The unit of a line of the box. -/
def boxUnit (t : Tlr) (b : Box) (r i : Nat) : Nat := (b.p + swizzle t.span t.sel t.pitch r (i * t.esize)) / 128 - b.p / 128

/-- The move of one element from memory to scratchpad, or of its fill. -/
def State.loadElem (s : State) (c : Cmd) (t : Tlr) (b : Box) (row : Option Nat) (r i : Nat) : Mv :=
  let unit := boxUnit t b r i
  let dst := boxPlace c.ctx.core t b r i
  let x0 := b.c0 + i
  match row with
  | some x1 =>
    if x0 < t.dim 0 ∧ x1 < t.dim 1 ∧ b.c2 < t.dim 2 ∧ b.c3 < t.dim 3 then
      let a := BitVec.ofNat 64 (t.addrNat x0 x1 b.c2 b.c3)
      if t.sixBit then
        let (bs, sh) := sixBytes (x0 % 4)
        { unit, src := bs.map fun k => s.engPlace c.ctx c.refused true false (a + BitVec.ofNat 64 k), sh, bits := 6, dst }
      else { unit, src := s.engBytes c true false a t.esize, bits := 8 * t.esize, dst }
    else { unit, val := t.fillVal, bits := 8 * t.esize, dst }
  | none => { unit, val := t.fillVal, bits := 8 * t.esize, dst }

/-- The move of one element from scratchpad to memory; none when it is out of bounds. A six-bit group that lies wholly in bounds is
written without being read (R256). -/
def State.storeElem (s : State) (c : Cmd) (t : Tlr) (b : Box) (x1 r i : Nat) : Option Mv :=
  let x0 := b.c0 + i
  if x0 < t.dim 0 ∧ x1 < t.dim 1 ∧ b.c2 < t.dim 2 ∧ b.c3 < t.dim 3 then
    let a := BitVec.ofNat 64 (t.addrNat x0 x1 b.c2 b.c3)
    let src := (boxPlace c.ctx.core t b r i).map (s.sound 0#64)
    if t.sixBit then
      let (bs, sh) := sixBytes (x0 % 4)
      let part := decide (x0 / 4 * 4 + 3 ≥ t.dim 0)
      some { unit := r, src, bits := 6, dst := bs.map fun k => s.engPlace c.ctx c.refused part true (a + BitVec.ofNat 64 k),
             dsh := some sh }
    else some { unit := r, src, bits := 8 * t.esize, dst := s.engBytes c false true a t.esize }
  else none

/-- Every element (r, i) of a box. -/
def Box.elems (b : Box) : List (Nat × Nat) := (List.range b.b1).flatMap fun r => (List.range b.b0).map fun i => (r, i)

/-- Index word r of a gather or scatter. -/
def State.indexAt (s : State) (c : Cmd) (b : Box) (r : Nat) : Nat := s.rd (.pad c.ctx.core (b.x + 4 * r)) 4

/-- The chunks of 16 bytes of a range. -/
def chunks (len : Nat) : List Nat := (List.range (len / 16)).map (16 * ·)

/-- The moves of a copy command. -/
def State.copyMoves (s : State) (c : Cmd) : List Mv :=
  let t := Tlr.of c.cap
  let b := Box.of c.words
  let w := c.words
  match c.op with
  | .tld => b.elems.map fun e => s.loadElem c t b (some (b.c1 + e.1)) e.1 e.2
  | .gth => b.elems.map fun e =>
      let x := s.indexAt c b e.1
      s.loadElem c t b (if x < t.dim 1 then some x else none) e.1 e.2
  | .tst => b.elems.filterMap fun e => s.storeElem c t b (b.c1 + e.1) e.1 e.2
  | .sct => b.elems.filterMap fun e => s.storeElem c t b (s.indexAt c b e.1) e.1 e.2
  | .lin =>
    let d := pairAt w 0
    (chunks (wordAt w 4).toNat).map fun k =>
      { unit := (d.toNat + k) / 128 - d.toNat / 128, src := s.engBytes c true false (pairAt w 2 + BitVec.ofNat 64 k) 16,
        bits := 128, dst := s.engBytes c false true (d + BitVec.ofNat 64 k) 16 }
  | .fill =>
    let d := pairAt w 0
    (chunks (wordAt w 2).toNat).map fun k =>
      { unit := (d.toNat + k) / 128 - d.toNat / 128, val := (wordAt w 3).toNat * (1 + 2 ^ 32 + 2 ^ 64 + 2 ^ 96), bits := 128,
        dst := s.engBytes c false true (d + BitVec.ofNat 64 k) 16 }
  | .mcst =>
    -- the cores that receive the data were chosen at issue
    let q := (wordAt w 2).toNat
    let len := (wordAt w 3).toNat
    (c.cap.drop 1).zipIdx.flatMap fun (k, i) => (chunks len).map fun o =>
      { unit := i * ceilDiv len 128 + o / 128, src := s.engBytes c true false (pairAt w 0 + BitVec.ofNat 64 o) 16, bits := 128,
        dst := (List.range 16).map fun j => .ok (.pad k.toNat (q + o + j)) }
  | _ => []

/-- The index list of a command. -/
def Cmd.indexList (c : Cmd) : Option (Nat × Nat) :=
  let b := Box.of c.words
  match c.op with
  | .gth | .sct => some (b.x, 4 * b.b1)
  | _ => none

/-- The pad lines that a copy reads. -/
def State.copyReads (s : State) (c : Cmd) : List Nat :=
  let idx := match c.indexList with
    | none => []
    | some (x, n) => padLines c.ctx.core x n
  (idx ++ (s.copyMoves c).flatMap fun m => (placesOf m.src).filterMap Loc.padLine).eraseDups

/-- The lines that a copy writes, in any storage. -/
def State.copyWrites (s : State) (c : Cmd) : List Nat :=
  ((s.copyMoves c).flatMap fun m => (placesOf m.dst).map Loc.line).eraseDups

/-- COUNT and STATUS of a copy that no fault ends (R278). -/
def State.copyStatus (s : State) (c : Cmd) (ms : List Mv) : Nat × Nat :=
  let t := Tlr.of c.cap
  let b := Box.of c.words
  let units := ((ms.map (·.unit)).eraseDups).length
  let inside (x1 i : Nat) : Bool := decide (b.c0 + i < t.dim 0 ∧ x1 < t.dim 1 ∧ b.c2 < t.dim 2 ∧ b.c3 < t.dim 3)
  let clipped (row : Nat → Nat) : Nat := if b.elems.all fun e => inside (row e.1) e.2 then 0 else 1
  let box := (b.p + b.b1 * t.pitch - 1) / 128 + 1 - b.p / 128
  match c.op with
  | .tld => (box, clipped (b.c1 + ·))
  | .gth => (box, clipped (s.indexAt c b))
  | .tst => (units, clipped (b.c1 + ·))
  | .sct => (units, clipped (s.indexAt c b))
  | .mcst => (units, (wordAt c.cap 0).toNat)
  | _ => (units, 0)

/-- The index list is read first. -/
def State.readIndex (s : State) (c : Cmd) : State :=
  match c.indexList with
  | none => s
  | some (x, n) => (List.range n).foldl (fun s i => s.engTouch c.ctx.core (.pad c.ctx.core (x + i))) s

/-- A copy completes. An uncorrectable error in its index list ends it before it writes anything. -/
def State.completeCopy (s : State) (r : EngRef) (c : Cmd) : State :=
  let s1 := s.readIndex c
  let flaws := match c.indexList with
    | none => []
    | some (x, n) => s1.flaws (.pad c.ctx.core x) n
  let ms := s1.copyMoves c
  let (count, status) := s1.copyStatus c ms
  if !flaws.isEmpty then s1.finishCmd r c 0 2
  else match mvStop (ms.filter fun m => !c.delivered m) with
  | some (0, _) => s.awaitPage r c ((ms.filter fun m => !c.delivered m).flatMap Mv.errs)
  | _ => s1.finishMoves r c ms count status

/-- Whether a copy may deliver some of its lines before others: CP.GTH and CP.SCT read every source byte first (R258), and CP.MCST
reads its source once (R278). -/
def CmdOp.byLine : CmdOp → Bool
  | .tld | .lin | .fill => true
  | _ => false

/-- A copy delivers one pad line before it completes, when it writes no line that it reads (R258). -/
def State.deliverCopy (s : State) (r : EngRef) (c : Cmd) (g : Nat) : State :=
  let s1 := (s.settleTables c.ctx.ptbase).readIndex c
  let ms := s1.copyMoves c
  let here := ms.filter fun m => (placesOf m.dst).any fun l => l.padLine == some g
  let apart := !((s1.copyReads c).any c.lines.contains)
  if !c.op.byLine || !c.lines.contains g || c.done.contains g || !apart || (mvStop here).isSome then s
  else
    let s := s1.mvAll c.ctx.core here fun _ l => l.padLine == some g
    (s.deliverLine c.id g).onCmd r c.id fun x => { x with done := x.done ++ [g] }

/-! ### Issue (R260, R276, R277) -/

/-- A range of generic addresses as the scoreboard holds it: the pad aperture and the core's own PIN-CORE pages as
scratchpad offsets, each page under what it is. One in the local window stands as it is named, wherever it leads. -/
def State.scoreRange (s : State) (x : CmdCtx) (lo n : Nat) : List ScorePart :=
  (pageParts lo n).map fun p =>
    match s.engSite x true false false (BitVec.ofNat 64 p.1) with
    | .ok (.pad c o) => if c = x.core ∧ windowOf (BitVec.ofNat 64 p.1) ≠ some 1 then ⟨true, o, o + (p.2 - p.1)⟩ else ⟨false, p.1, p.2⟩
    | _ => ⟨false, p.1, p.2⟩
/-- A range of pad offsets. -/
def padRange (lo n : Nat) : List ScorePart := [⟨true, lo, lo + n⟩]

/-- The bytes of tensor row x1 that a box command reaches: their address and their number (R253, R256). -/
def Tlr.rowSpan (t : Tlr) (b : Box) (x1 : Nat) : Option (W64 × Nat) :=
  let m := min (b.c0 + b.b0) (t.dim 0) - b.c0
  if m ≠ 0 ∧ x1 < t.dim 1 ∧ b.c2 < t.dim 2 ∧ b.c3 < t.dim 3 then
    some (BitVec.ofNat 64 (t.addrNat b.c0 x1 b.c2 b.c3), if t.sixBit then 3 * (m / 4) + m % 4 else m * t.esize)
  else none

/-- The generic interval from the lowest to the highest byte that a box command can reach, in the rows lo to hi - 1 of the
tensor; none when it reaches none. Where the sums pass 2^64 each row is looked at by itself (R253). -/
def Tlr.interval (t : Tlr) (b : Box) (lo hi : Nat) : Option (Nat × Nat) :=
  let rows := min hi (t.dim 1) - lo
  match t.rowSpan b lo with
  | none => none
  | some (a, k) =>
    let top := t.addrNat b.c0 (lo + rows - 1) b.c2 b.c3 + k
    if top ≤ 2 ^ 64 then some (a.toNat, top - a.toNat)
    else
      let spans := (List.range rows).filterMap fun i => t.rowSpan b (lo + i)
      if spans.any fun x => decide (x.1.toNat + x.2 > 2 ^ 64) then some (0, 2 ^ 64)
      else
        let first := spans.foldl (fun m x => min m x.1.toNat) a.toNat
        some (first, spans.foldl (fun m x => max m (x.1.toNat + x.2)) (a.toNat + k) - first)

/-- The pad lines that a range of generic addresses names. -/
def State.linesIn (s : State) (x : CmdCtx) (rd wr : Bool) (va : W64) (n : Nat) : List Nat :=
  (pageParts va.toNat n).flatMap fun p =>
    match s.engSite x true rd wr (BitVec.ofNat 64 p.1) with
    | .ok (.pad c o) => padLines c o (p.2 - p.1)
    | _ => []
/-- Those of a range that a command writes. -/
def State.rangeLines (s : State) (x : CmdCtx) (va : W64) (n : Nat) : List Nat := s.linesIn x false true va n

/-- The checks of a generic range (R277). A thread whose %locbase is 0 has no local window (R196): a local range then passes
its limit. (DEDUCED, log entry 21.) -/
def State.rangeChecks (s : State) (x : CmdCtx) (va : W64) (n : Nat) (f : Fld) : EngChecks :=
  let o := windowOff va
  [(3, va.toNat % 16 != 0, f), (3, !canonical va || windowOf va == some 0, f),
   (3, n != 0 && windowOf va == some 1 && (x.locbase == 0#64 || decide (o + n > 65536)), f),
   (3, n != 0 && windowOf va == some 3 && decide (o + n > s.celsz (cellOf x.core)), f),
   (2, n != 0 && windowOf va == some 2 && x.past o n, f)]

/-- An entry for a range, unless it lies in scratchpad when it is a destination. -/
def State.scoreFor (s : State) (x : CmdCtx) (va : W64) (n : Nat) (dst : Bool) : List (List ScorePart) :=
  if n = 0 then []
  else
    let r := s.scoreRange x va.toNat n
    if dst && r.all (·.pad) then [] else [r]

/-- The issue of a box command. A CP.SCT marks every pad line that its rows can reach: which of them it writes its index list says
only when it runs. (DEDUCED, log entry 59.) -/
def boxForm (op : CmdOp) (idx load : Bool) (o : R2) (s : State) : EngForm :=
  let core := s.issue.core
  let n := if idx then 7 else 6
  { card := { n, pair := true }, who := s.leader, load := fun v => s.recordVerdict core v (v.rd64 o.a) 128,
    draft := fun v w =>
      let x := s.ctxOf core v.th
      let rec' := s.recordWords core v (pairAt w 0) 128
      let t := Tlr.of rec'
      let b := Box.of w
      let bytes := b.b1 * t.pitch
      let (lo, hi) := if idx then (0, t.dim 1) else (b.c1, b.c1 + b.b1)
      let global := match t.interval b lo hi with
        | none => []
        | some (a, k) => s.scoreFor x (BitVec.ofNat 64 a) k (!load)
      let index := if idx then [padRange b.x (4 * b.b1)] else []
      let lines := if load then padLines core b.p bytes else
        ((List.range (hi - lo)).flatMap fun i => match t.rowSpan b (lo + i) with
          | some (a, k) => s.rangeLines x a k
          | none => []).eraseDups
      checked
        [(1, t.bad b.c0 b.b0, o.a), (2, b.p % 128 != 0, bundleFld o 4), (2, idx && b.x % 4 != 0, bundleFld o 6),
         (2, x.past b.p bytes, bundleFld o 4), (2, idx && x.past b.x (4 * b.b1), bundleFld o 6),
         (3, b.b0 == 0 || b.b1 == 0, bundleFld o 5), (3, idx && b.c1 != 0, bundleFld o 2)]
        { ref := { core, eng := .copy }, op, cap := rec', lines,
          score := global ++ index ++ (if load && !idx then [] else [padRange b.p bytes]),
          load := (s.recordLoc core v (pairAt w 0) 128).map fun l => (l, 128), fills := [v.th.ident.tid] },
    effect := fun v w s =>
      -- a SPARSE record sets the metadata high word of its issuer (R264)
      let t := Tlr.of (s.recordWords core v (pairAt w 0) 128)
      if op = .tld ∧ t.sparse then
        s.onCore core fun c => if v.th.sfe then { c with sfeMeta := t.metahi }
          else c.onSect v.th.place.sect fun k => { k with metaHi := t.metahi }
      else s }
def boxCmd (op : CmdOp) (idx load : Bool) (o : R2) (s : State) : Result := .next (s.engIssue o (boxForm op idx load o s))

/-- The issue of a command over ranges. (DEDUCED, log entry 52.) -/
def rangeForm (op : CmdOp) (n : Nat) (draft : View → CmdCtx → List W32 → EngChecks × Draft) (s : State) : EngForm :=
  let core := s.issue.core
  { card := { n, pair := true }, who := s.leader,
    draft := fun v w => let (l, d) := draft v (s.ctxOf core v.th) w; checked l { d with op } }

def execCpTld (o : R2) (s : State) : Result := boxCmd .tld false true o s
def execCpTst (o : R2) (s : State) : Result := boxCmd .tst false false o s
def execCpGth (o : R2) (s : State) : Result := boxCmd .gth true true o s
def execCpSct (o : R2) (s : State) : Result := boxCmd .sct true false o s

def cpLinForm (o : R2) (s : State) : EngForm :=
  rangeForm .lin 5 (fun v x w =>
    let d := pairAt w 0
    let a := pairAt w 2
    let n := (wordAt w 4).toNat
    (s.rangeChecks x d n o.a ++ s.rangeChecks x a n (bundleFld o 2) ++ [(3, n % 16 != 0, bundleFld o 4)],
     { ref := { core := x.core, eng := .copy }, op := .lin, lines := s.rangeLines x d n,
       score := s.scoreFor x a n false ++ s.scoreFor x d n true, fills := [v.th.ident.tid], now := n == 0 })) s
def execCpLin (o : R2) (s : State) : Result := .next (s.engIssue o (cpLinForm o s))

def cpFillForm (o : R2) (s : State) : EngForm :=
  rangeForm .fill 4 (fun v x w =>
    let d := pairAt w 0
    let n := (wordAt w 2).toNat
    (s.rangeChecks x d n o.a ++ [(3, n % 16 != 0, bundleFld o 2)],
     { ref := { core := x.core, eng := .copy }, op := .fill, lines := s.rangeLines x d n, score := s.scoreFor x d n true,
       fills := [v.th.ident.tid], now := n == 0 })) s
def execCpFill (o : R2) (s : State) : Result := .next (s.engIssue o (cpFillForm o s))

/-- The cores that a mask selects in a stack domain (R259). -/
def mcstCores (dom mask : Nat) : List Nat := ((List.range 40).filter fun j => mask.testBit j).map fun j => 40 * dom + j

def cpMcstForm (o : R2) (s : State) : EngForm :=
  rangeForm .mcst 7 (fun v x w =>
    let a := pairAt w 0
    let q := (wordAt w 2).toNat
    let n := (wordAt w 3).toNat
    let dom := fieldIn w 4 2 0
    let mask := (wordAt w 5).toNat + 2 ^ 32 * fieldIn w 6 7 0
    let owned := (s.tenAt x.ten).doms.contains dom
    let chosen := if n = 0 then [] else mcstCores dom mask
    let fits := chosen.filter fun k => decide (q + n ≤ min 1048576 (s.coreAt k).padLimit)
    let reach := if owned then fits else []
    -- word 0 of what is captured is the status, the others are the cores that receive the data
    let status := if mask = 0 ∨ n = 0 then 0 else if owned ∧ fits = chosen then 0 else 4
    (s.rangeChecks x a n o.a ++ [(2, q % 128 != 0, bundleFld o 2), (3, n % 16 != 0, bundleFld o 3),
      (3, fieldIn w 4 31 3 != 0, bundleFld o 4), (3, fieldIn w 6 31 8 != 0, bundleFld o 6)],
     { ref := { core := x.core, eng := .copy }, op := .mcst,
       cap := BitVec.ofNat 32 status :: reach.map (BitVec.ofNat 32 ·),
       lines := reach.flatMap fun k => padLines k q n, score := if mask = 0 then [] else s.scoreFor x a n false,
       fills := [v.th.ident.tid], now := mask == 0 || n == 0 })) s
def execCpMcst (o : R2) (s : State) : Result := .next (s.engIssue o (cpMcstForm o s))

end Sys2Proof.Machine
end

