-- ==== Sys2Proof/Machine/Matrix.lean ====
section
/-! DEFINITION. The matrix engine (R70 to R74, R261 to R268, R279 to R284). -/

namespace Sys2Proof.Machine
open Sys2Proof

/-! ### Operands (R56, R57, R70) -/

/-- The bytes of an element in scratchpad or in a register group. -/
def mfSize : MFmt → Nat
  | .bf16 | .fp16 => 2
  | .e8m10 => 4
  | _ => 1
/-- Whether a format takes scales (R72). -/
def mfScaled : MFmt → Bool
  | .e4m3 | .e5m2 | .f6a | .f6b => true
  | _ => false
/-- f of R268. -/
def mfClocks : MFmt → Nat
  | .bf16 | .fp16 => 2
  | .e8m10 => 8
  | _ => 1

/-- The value of an operand. E8M10 ignores bits [12:0] of a word that is no NaN. -/
def mfDecode (f : MFmt) (x : Nat) : FVal :=
  match f with
  | .e4m3 => Fmt.e4m3.decode x
  | .e5m2 => Fmt.e5m2.decode x
  | .f6a => Fmt.f6a.decode (x % 64)
  | .f6b => Fmt.f6b.decode (x % 64)
  | .bf16 => Fmt.bf16.decode x
  | .fp16 => Fmt.f16.decode x
  | .i8 => .zero false
  | .e8m10 => match Fmt.f32.decode x with
    | .nan b => .nan b
    | _ => Fmt.f32.decode (x / 2 ^ 13 * 2 ^ 13)

/-- The exact product of R70; a zero product is +0. -/
def mfProduct (a b : FVal) : FVal :=
  match (a.mul b).1 with
  | .zero _ => .zero false
  | v => v

/-! ### The sum tree (R71) -/

/-- rz34: truncation to 34 significant bits; an exact zero is +0. -/
def rz34 : FVal → FVal
  | .fin s m e => if m.log2 < 34 then .fin s m e else .fin s (m / 2 ^ (m.log2 - 33)) (e + (m.log2 - 33 : Nat))
  | .zero _ => .zero false
  | v => v

/-- The exact sum of finite values. -/
def sumExact (l : List FVal) : FVal := l.foldl (fun a b => (a.add .rn b).1) (.zero false)

/-- The sums of groups of `n`, each truncated once. -/
def groupSums (n : Nat) (l : List FVal) : List FVal :=
  (List.range (ceilDiv l.length n)).map fun i => rz34 (sumExact ((l.drop (n * i)).take n))

/-- The partial of the 128 products of a chunk: its FP32 encoding and the flags of its one rounding. -/
def partialSum (p : List FVal) : Nat × FFlags :=
  let inf (s : Bool) : Bool := p.any (· == .inf s)
  if p.any FVal.isNan || (inf false && inf true) then (Fmt.f32.nan, 0)
  else if inf false then (Fmt.f32.infinity, 0)
  else if inf true then (Fmt.f32.signed true Fmt.f32.infinity, 0)
  else
    let l := p ++ List.replicate (128 - p.length) (.zero false)
    roundTo .f32 .rn 0 (sumExact (groupSums 2 (groupSums 2 (groupSums 2 (groupSums 8 l)))))

/-- The promotion of a partial (R72): acc + partial × sa × sb, rounded once. -/
def promote (acc part sa sb : Nat) : Nat × FFlags :=
  let v := Fmt.f32.decode
  let (x, bad1) := (v part).mul (v sa)
  let (y, bad2) := x.mul (v sb)
  let (z, bad3) := y.add .rn (v acc)
  let (b, fl) := roundTo .f32 .rn 0 z
  (b, fl ||| nvIf (bad1 || bad2 || bad3 || (v part).isSig || (v sa).isSig || (v sb).isSig || (v acc).isSig))

/-- 1.0 in FP32, the scale of the formats that take none. -/
def oneF32 : Nat := 0x3F800000

/-- The signed value of a byte. -/
def byteInt (x : Nat) : Int := (BitVec.ofNat 8 x).toInt

/-- One chunk of one element: the new accumulator word and its flags (R71 to R73). -/
def chunkStep (f : MFmt) (acc : Nat) (a b : List Nat) (sa sb : Nat) : Nat × FFlags :=
  match f with
  | .i8 => ((BitVec.ofInt 32 ((acc : Int) + ((a.zip b).map fun p => byteInt p.1 * byteInt p.2).sum)).toNat, 0)
  | _ =>
    let (part, fl) := partialSum ((a.zip b).map fun p => mfProduct (mfDecode f p.1) (mfDecode f p.2))
    let (r, fl') := promote acc part sa sb
    (r, fl ||| fl')

/-! ### Full tiles (R261 to R264, R279) -/

/-- The fields of an MM or MMS bundle. -/
structure MmShape where
  a    : Nat
  b    : Nat
  pat  : Nat
  acc  : Bool
  span : Nat
  k    : Nat
  n    : Nat
  m    : Nat
  scale : Nat
  sect : Nat
  o    : Nat
  deriving DecidableEq, Repr

def MmShape.of (w : List W32) : MmShape :=
  { a := (wordAt w 0).toNat, b := (wordAt w 1).toNat, pat := fieldIn w 2 31 30, acc := (wordAt w 2).getLsbD 29,
    span := fieldIn w 2 28 26, k := 16 * (fieldIn w 2 25 14 + 1), n := fieldIn w 2 13 7 + 1, m := fieldIn w 2 6 0 + 1,
    scale := 16 * fieldIn w 3 31 16, sect := fieldIn w 3 15 14, o := fieldIn w 3 13 0 }

/-- G and the field width of a sparsity pattern, and the stored elements of a group (R264). -/
def sparsity (pat : Nat) : Nat × Nat × Nat :=
  match pat with | 0 => (4, 4, 2) | 1 => (4, 2, 1) | _ => (8, 16, 4)

/-- The stored elements of a row of B. -/
def MmShape.stored (x : MmShape) (sparse : Bool) : Nat :=
  let (g, _, e) := sparsity x.pat
  if sparse then x.k * e / g else x.k
/-- The chunks of K. -/
def MmShape.nc (x : MmShape) : Nat := ceilDiv x.k 128
/-- The bytes of A, of B and of the scale table. -/
def MmShape.aBytes (x : MmShape) (f : MFmt) : Nat := x.m * (x.k * mfSize f)
def MmShape.bBytes (x : MmShape) (f : MFmt) (sparse : Bool) : Nat := x.n * (x.stored sparse * mfSize f)
def MmShape.sBytes (x : MmShape) (f : MFmt) : Nat := if mfScaled f then 4 * (x.nc + x.m * x.nc) else 0

/-- Element (row, k) of an operand at a pad offset (R262). -/
def State.operandAt (s : State) (core base pitch span size row k : Nat) : Nat :=
  s.rd (.pad core (base + swizzle span 0 pitch row (k * size))) size

/-- The bytes of metadata of one row (MR), and those of one chunk of it. -/
def metaRow (k pat : Nat) : Nat := let (g, w, _) := sparsity pat; ceilDiv (k / g * w) 128 * 16
def metaChunk (pat : Nat) : Nat := let (g, w, _) := sparsity pat; 128 / g * w / 8

/-- The address of the metadata of row n for chunk c, and its bytes. -/
def metaSpan (c : Cmd) (x : MmShape) (n ch : Nat) : W64 × Nat :=
  let base := pair64 (wordAt c.words 4) (wordAt c.cap 0)
  let (g, w, _) := sparsity x.pat
  (base + BitVec.ofNat 64 (n * metaRow x.k x.pat + ch * metaChunk x.pat),
    min (metaChunk x.pat) (ceilDiv ((x.k - 128 * ch) / g * w) 8))
/-- The places of that metadata. -/
def State.metaPlaces (s : State) (c : Cmd) (x : MmShape) (n ch : Nat) : List Site :=
  s.engBytes c true false (metaSpan c x n ch).1 (metaSpan c x n ch).2

/-- Whether the line of an address is leased for a command (R205). -/
def State.leasedFor (s : State) (x : CmdCtx) (va : W64) : Bool :=
  let mapped (a : W64) : Bool := match s.translate x.ten x.ptbase x.sys {} a with | .ok h => h.leased | .error _ => false
  match windowOf va with
  | none => mapped va
  | some 1 => mapped (x.locbase + BitVec.ofNat 64 (windowOff va))
  | some 3 => true
  | some _ => false

/-- A read of a line of metadata through the cache of the matrix engine of a section (R264): a leased copy serves it while its lease
holds, and a miss takes a lease at the home. The cache holds 128 lines; the spec does not say which it replaces: the one it has held
longest. (DESIGN CHOICE, log entry 14.) -/
def State.metaLine (s : State) (core sect : Nat) (leased : Bool) (l : Loc) : State × List Byte :=
  let k := s.coreAt core
  match (if leased && !(s.terms.any fun t => t.covers l.base 128) then
      (k.sectAt sect).mcache.find? fun y => y.line == l.line && decide (k.pts ≤ y.rts) else none) with
  | some y => (s, y.data)
  | none =>
    let s := s.settle l.base 128
    if leased then
      let (s, y) := s.leaseLine core l
      (s.onCore core fun k => k.onSect sect fun z =>
        { z with mcache := ((z.mcache.filter fun w => w.line != y.line) ++ [y]).drop ((z.mcache.filter fun w => w.line != y.line).length - 127) },
        y.data)
    else (s.stampLoad core l, (List.range 128).map fun i => s.rdByte (l.base.plus i))

/-- The lines of metadata of the first `cnt` chunks, as they are read one after another: each with its data. -/
def State.metaLines (s : State) (c : Cmd) (sect : Nat) (x : MmShape) (cnt : Nat) : State × List (Nat × List Byte) :=
  let spans := (List.range cnt).flatMap fun ch => (List.range x.n).map fun n => metaSpan c x n ch
  let bytes := spans.flatMap fun p => (List.range p.2).map fun i => p.1 + BitVec.ofNat 64 i
  bytes.foldl (fun r va =>
    match s.engPlace c.ctx c.refused true false va with
    | .error _ => r
    | .ok l =>
      if r.2.any fun y => y.1 == l.line then r
      else
        let (s, d) := r.1.metaLine c.ctx.core sect (s.leasedFor c.ctx va) l
        (s, (l.line, d) :: r.2)) (s, [])

/-- A byte of metadata among the lines that were read. -/
def metaByte (l : List (Nat × List Byte)) (p : Loc) : Byte :=
  ((l.find? fun y => y.1 == p.line).map fun y => y.2.getD p.inLine 0#8).getD 0#8

/-- The positions of a group's stored elements, or none when they do not ascend. -/
def groupPos (pat field : Nat) : Option (List Nat) :=
  let (_, _, e) := sparsity pat
  let w := if pat = 2 then 3 else 2
  let p := (List.range e).map fun i => field / 2 ^ (w * i) % 2 ^ w
  if (p.zip (p.drop 1)).all fun q => decide (q.1 < q.2) then some p else none

/-- The pairs of operand elements of (m, n) in a chunk, position by position; a position that holds no stored element is a
zero pair. `ml` are the lines of metadata. -/
def State.mmPairs (s : State) (c : Cmd) (x : MmShape) (f : MFmt) (sparse : Bool) (ml : List (Nat × List Byte)) (m n ch : Nat) :
    List (Nat × Nat) :=
  let core := c.ctx.core
  let size := mfSize f
  let len := min 128 (x.k - 128 * ch)
  let a (k : Nat) : Nat := s.operandAt core x.a (x.k * size) x.span size m k
  if sparse then
    let (g, w, e) := sparsity x.pat
    let md := leNat ((placesOf (s.metaPlaces c x n ch)).map (metaByte ml))
    (List.range len).map fun j =>
      match groupPos x.pat (md / 2 ^ (j / g * w) % 2 ^ w) with
      | none => (0, 0)
      | some p => match p.findIdx? (· == j % g) with
        | none => (0, 0)
        | some i => (a (128 * ch + j), s.operandAt core x.b (x.stored true * size) x.span size n ((128 * ch + j) / g * e + i))
  else (List.range len).map fun j =>
    (a (128 * ch + j), s.operandAt core x.b (x.k * size) x.span size n (128 * ch + j))

/-- An element after the first `cnt` chunks: its word and the flags raised. -/
def State.mmElem (s : State) (c : Cmd) (x : MmShape) (f : MFmt) (sparse : Bool) (ml : List (Nat × List Byte)) (old m n cnt : Nat) :
    Nat × FFlags :=
  let core := c.ctx.core
  let sc (i : Nat) : Nat := if mfScaled f then s.rd (.pad core (x.scale + 4 * i)) 4 else oneF32
  (List.range cnt).foldl (fun (r : Nat × FFlags) ch =>
    let p := s.mmPairs c x f sparse ml m n ch
    let (y, fl) := chunkStep f r.1 (p.map (·.1)) (p.map (·.2)) (sc (x.nc + m * x.nc + ch)) (sc ch)
    (y, r.2 ||| fl)) (if x.acc then old else 0, 0)

/-- Set words of a section's accumulator memory. -/
def Section.setAcc (k : Section) (l : List (Nat × Nat)) : Section :=
  { k with acc := l.foldl (fun a p => putBy (·.1) (p.1, BitVec.ofNat 32 p.2) a) k.acc }
/-- The flags of an engine: NX, UF, OF and NV (R280). -/
def Section.addFlags (k : Section) (fl : FFlags) : Section := { k with eflags := k.eflags ||| (fl.setWidth 32 &&& 0x17#32) }

/-- The current arithmetic clock: a control clock has three times its rate. -/
def State.arith (s : State) : Nat := s.control / 3

/-- The sub-arrays of a tile, as bits 2 × qm + qn (R268). -/
def subArrays (m n : Nat) : List Nat := [0] ++ (if n > 64 then [1] else []) ++ (if m > 64 then [2] else []) ++ (if m > 64 ∧ n > 64 then [3] else [])
/-- Sub-arrays that work are awake. -/
def Section.useSub (k : Section) (now : Nat) (l : List Nat) : Section :=
  { k with awake := l.foldl (fun a i => setBit a i true) k.awake,
           lastUse := k.lastUse.zipIdx.map fun (t, i) => if l.contains i then now else t }

/-- Reads of pad bytes by an engine: held terms settle, and the lines' timestamps move. -/
def State.touchPad (s : State) (core off n : Nat) : State :=
  let s := s.settle (.pad core off) n
  (padLines core off n).foldl (fun s g => s.stampLoad core (.pad core (g % 8192 * 128))) s

/-- The uncorrectable errors among what a chunk reads in scratchpad: its part of A, of B and of the scale table. -/
def State.mmFlaws (s : State) (core : Nat) (x : MmShape) (f : MFmt) (sparse : Bool) (ch : Nat) : List Miss :=
  if s.errs.isEmpty then []
  else
    let size := mfSize f
    let (g, _, e) := sparsity x.pat
    let lo := 128 * ch
    let hi := min (lo + 128) x.k
    let elems (base pitch rows lo hi : Nat) : List Miss := (List.range rows).flatMap fun row => (List.range (hi - lo)).flatMap fun k =>
      s.flaws (.pad core (base + swizzle x.span 0 pitch row ((lo + k) * size))) size
    elems x.a (x.k * size) x.m lo hi ++
      (if sparse then elems x.b (x.stored true * size) x.n (lo / g * e) (hi / g * e) else elems x.b (x.k * size) x.n lo hi) ++
      (if mfScaled f then s.flaws (.pad core (x.scale + 4 * ch)) 4 ++
        (List.range x.m).flatMap fun m => s.flaws (.pad core (x.scale + 4 * (x.nc + m * x.nc + ch))) 4 else [])

/-- MM and MMS: every chunk in turn; a source byte with an uncorrectable error, or a metadata read that fails, ends the command before
its chunk (R279). -/
def State.completeMm (s : State) (r : EngRef) (c : Cmd) (sect : Nat) (f : MFmt) (sparse : Bool) : State :=
  let x := MmShape.of c.words
  let core := c.ctx.core
  let errs (ch : Nat) : List Miss := s.mmFlaws core x f sparse ch ++
    (if sparse then (List.range x.n).flatMap fun n => errsOf (s.metaPlaces c x n ch) else [])
  let cnt := ((List.range x.nc).find? fun ch => !(errs ch).isEmpty).getD x.nc
  let e := if cnt < x.nc then errs cnt else []
  let status := worstOf e
  if cnt < x.nc ∧ status = 0 then s.awaitPage r c e
  else
    let s := ((s.touchPad core x.a (x.aBytes f)).touchPad core x.b (x.bBytes f sparse)).touchPad core x.scale (x.sBytes f)
    let (s, ml) := if sparse then s.metaLines c sect x cnt else (s, [])
    let old := (s.coreAt core).sectAt sect
    let es := if cnt = 0 then [] else (List.range x.m).flatMap fun m => (List.range x.n).map fun n =>
      let i := x.o + 128 * m + n
      (i, s.mmElem c x f sparse ml (lookWord old.acc i).toNat m n cnt)
    let s := s.onCore core fun k => k.onSect sect fun y =>
      ((y.setAcc (es.map fun e => (e.1, e.2.1))).addFlags (es.foldl (fun fl e => fl ||| e.2.2) 0)).useSub s.arith (subArrays x.m x.n)
    s.finishCmd r c cnt status

/-- The pad lines that MM and MMS read, metadata that lies in scratchpad among them. -/
def State.mmReads (s : State) (c : Cmd) (f : MFmt) (sparse : Bool) : List Nat :=
  let x := MmShape.of c.words
  let p := padLines c.ctx.core
  p x.a (x.aBytes f) ++ p x.b (x.bBytes f sparse) ++ p x.scale (x.sBytes f) ++
    (if sparse then ((List.range x.nc).flatMap fun ch => (List.range x.n).flatMap fun n =>
      (placesOf (s.metaPlaces c x n ch)).filterMap Loc.padLine).eraseDups else [])

/-- The section whose matrix queue a command enters: the leader's, or the one that the front end names. -/
def sectOf (v : View) (named : Nat) : Nat := if v.th.sfe then named else v.th.place.sect

/-- The issue of MM or MMS. -/
def mmForm (f : MFmt) (sparse : Bool) (o : R2) (s : State) : EngForm :=
  let core := s.issue.core
  { card := { n := if sparse then 5 else 4 }, who := s.leader,
    draft := fun v w =>
      let c := s.ctxOf core v.th
      let x := MmShape.of w
      let size := mfSize f
      let (g, _, _) := sparsity x.pat
      let badPitch (p : Nat) : Bool := p % 16 != 0 || p % (16 * 2 ^ x.span) != 0
      let k := s.coreAt core
      checked
        [(2, x.a % 128 != 0 || c.past x.a (x.aBytes f), o.a), (2, x.b % 128 != 0 || c.past x.b (x.bBytes f sparse), bundleFld o 1),
         (2, mfScaled f && c.past x.scale (x.sBytes f), bundleFld o 3),
         (3, if sparse then x.pat == 3 else x.pat != 0, bundleFld o 2),
         (3, badPitch (x.k * size) || badPitch (x.stored sparse * size), bundleFld o 2),
         (3, sparse && x.k % (4 * g) != 0, bundleFld o 2),
         (4, decide (x.o + 128 * (x.m - 1) + x.n - 1 > 16383), bundleFld o 3)]
        { ref := { core, eng := .matrix (sectOf v x.sect) }, op := if sparse then .mms f else .mm f,
          cap := [if v.th.sfe then k.sfeMeta else (k.sectAt v.th.place.sect).metaHi], fills := [v.th.ident.tid],
          reach := if sparse then [(pair64 (wordAt w 4) (if v.th.sfe then k.sfeMeta else (k.sectAt v.th.place.sect).metaHi), x.n * metaRow x.k x.pat)]
            else [] } }
def mmCmd (f : MFmt) (sparse : Bool) (o : R2) (s : State) : Result := .next (s.engIssue o (mmForm f sparse o s))

def execMmE4m3 (o : R2) (s : State) : Result := mmCmd .e4m3 false o s
def execMmE5m2 (o : R2) (s : State) : Result := mmCmd .e5m2 false o s
def execMmF6a (o : R2) (s : State) : Result := mmCmd .f6a false o s
def execMmF6b (o : R2) (s : State) : Result := mmCmd .f6b false o s
def execMmBf16 (o : R2) (s : State) : Result := mmCmd .bf16 false o s
def execMmFp16 (o : R2) (s : State) : Result := mmCmd .fp16 false o s
def execMmI8 (o : R2) (s : State) : Result := mmCmd .i8 false o s
def execMmE8m10 (o : R2) (s : State) : Result := mmCmd .e8m10 false o s
def execMmsE4m3 (o : R2) (s : State) : Result := mmCmd .e4m3 true o s
def execMmsE5m2 (o : R2) (s : State) : Result := mmCmd .e5m2 true o s
def execMmsF6a (o : R2) (s : State) : Result := mmCmd .f6a true o s
def execMmsF6b (o : R2) (s : State) : Result := mmCmd .f6b true o s
def execMmsBf16 (o : R2) (s : State) : Result := mmCmd .bf16 true o s
def execMmsFp16 (o : R2) (s : State) : Result := mmCmd .fp16 true o s
def execMmsI8 (o : R2) (s : State) : Result := mmCmd .i8 true o s
def execMmsE8m10 (o : R2) (s : State) : Result := mmCmd .e8m10 true o s

/-! ### Quarter operations (R265, R266, R281, R282) -/

/-- The registers of a lane's A group. -/
def QmShape.aRegs (x : QmShape) (f : MFmt) : Nat := ceilDiv (x.k * mfSize f) 4

/-- Whether two groups of fields overlap. -/
def groupsMeet (a n b k : Nat) : Bool := decide (a < b + k ∧ b < a + n)

/-- Whether a group stands in v registers of a thread. (DEDUCED, log entry 53.) -/
def Thread.groupOk (t : Thread) (f n : Nat) : Bool := decide (f + n ≤ 112) && decide (t.win + f + n ≤ t.allot)

/-- The lanes of the run in quarter q. -/
def State.quarter (s : State) (q : Nat) : List View := s.run.filter fun v => v.th.place.lane / 8 == q
/-- The leaders of the run's quarters, in ascending order. -/
def State.quarterLeaders (s : State) : List W32 :=
  (List.range 4).filterMap fun q => ((s.quarter q).head?).map fun v => v.th.ident.tid

/-- The registers that a QM names in one lane. -/
def QmShape.hold (x : QmShape) (f : MFmt) (t : Thread) (d : Fld) (cmd : Nat) (empty : Bool) : QmHold :=
  let grp (g n : Nat) : List Nat := (List.range n).map fun i => t.win + g + i
  { cmd, d := t.ref d 0, srcs := grp x.aGrp (x.aRegs f) ++ (if mfScaled f then grp x.sGrp 4 else []), accs := grp x.cGrp 16,
    taint := empty, fin := false }

/-- The issue of a QM by each quarter of the run. (DEDUCED, log entry 53.) -/
def qmForm (f : MFmt) (sel : Nat) (o : R2) (s : State) : EngForm :=
  let core := s.issue.core
  { card := { n := 4, laneOnly := true, every := true }, who := s.quarterLeaders,
    draft := fun v w =>
      let c := s.ctxOf core v.th
      let x := QmShape.of w
      let lanes := s.quarter (v.th.place.lane / 8)
      let pitch := x.k * mfSize f
      let na := x.aRegs f
      let d := o.d.toNat
      let has (g n : Nat) : Bool := decide (g ≤ d ∧ d < g + n)
      let out (g n : Nat) : Bool := lanes.any fun l => !l.th.groupOk g n
      checked
        [(2, x.b % 128 != 0 || c.past x.b (16 * pitch), o.a), (2, mfScaled f && c.past x.scale 4, bundleFld o 3),
         (3, fieldIn w 1 31 7 != 0, bundleFld o 1), (3, pitch % (16 * 2 ^ x.span) != 0, bundleFld o 1),
         (3, fieldIn w 2 31 21 != 0, bundleFld o 2), (3, fieldIn w 3 31 16 != 0, bundleFld o 3),
         (3, x.aGrp % 4 != 0 || x.cGrp % 16 != 0 || (mfScaled f && x.sGrp % 4 != 0), bundleFld o 2),
         (3, out x.aGrp na || out x.cGrp 16 || (mfScaled f && out x.sGrp 4), bundleFld o 2),
         (3, groupsMeet x.aGrp na x.cGrp 16 || (mfScaled f && (groupsMeet x.aGrp na x.sGrp 4 || groupsMeet x.cGrp 16 x.sGrp 4)),
           bundleFld o 2),
         (3, has x.aGrp na || has x.cGrp 16 || (mfScaled f && has x.sGrp 4), bundleFld o 2)]
        { ref := { core, eng := .matrix v.th.place.sect }, op := .qm f sel,
          cap := [BitVec.ofNat 32 s.arith], fills := lanes.map fun l => l.th.ident.tid },
    effect := fun v w s =>
      let x := QmShape.of w
      let lanes := s.quarter (v.th.place.lane / 8)
      -- an operand that is empty at issue leaves every accumulator element of the quarter operation undefined (R229)
      let empty := lanes.any fun l =>
        let h := x.hold f l.th o.d s.serial false
        (h.srcs ++ (if x.acc then h.accs else [])).any fun n => !(l.th.regs.getD n Reg.z).full
      s.onTids core (lanes.map fun l => l.th.ident.tid) fun l => l.onTh fun t =>
        { t with qm := t.qm ++ [{ x.hold f t o.d s.serial false with taint := empty }] } }
def qmCmd (f : MFmt) (sel : Nat) (o : R2) (s : State) : Result := .next (s.engIssue o (qmForm f sel o s))

def execQmE4m3B0 (o : R2) (s : State) : Result := qmCmd .e4m3 0 o s
def execQmE4m3B1 (o : R2) (s : State) : Result := qmCmd .e4m3 1 o s
def execQmE4m3B2 (o : R2) (s : State) : Result := qmCmd .e4m3 2 o s
def execQmE4m3B3 (o : R2) (s : State) : Result := qmCmd .e4m3 3 o s
def execQmE5m2B0 (o : R2) (s : State) : Result := qmCmd .e5m2 0 o s
def execQmE5m2B1 (o : R2) (s : State) : Result := qmCmd .e5m2 1 o s
def execQmE5m2B2 (o : R2) (s : State) : Result := qmCmd .e5m2 2 o s
def execQmE5m2B3 (o : R2) (s : State) : Result := qmCmd .e5m2 3 o s
def execQmF6aB0 (o : R2) (s : State) : Result := qmCmd .f6a 0 o s
def execQmF6aB1 (o : R2) (s : State) : Result := qmCmd .f6a 1 o s
def execQmF6aB2 (o : R2) (s : State) : Result := qmCmd .f6a 2 o s
def execQmF6aB3 (o : R2) (s : State) : Result := qmCmd .f6a 3 o s
def execQmF6bB0 (o : R2) (s : State) : Result := qmCmd .f6b 0 o s
def execQmF6bB1 (o : R2) (s : State) : Result := qmCmd .f6b 1 o s
def execQmF6bB2 (o : R2) (s : State) : Result := qmCmd .f6b 2 o s
def execQmF6bB3 (o : R2) (s : State) : Result := qmCmd .f6b 3 o s
def execQmBf16 (o : R2) (s : State) : Result := qmCmd .bf16 0 o s
def execQmFp16 (o : R2) (s : State) : Result := qmCmd .fp16 0 o s
def execQmI8 (o : R2) (s : State) : Result := qmCmd .i8 0 o s
def execQmE8m10 (o : R2) (s : State) : Result := qmCmd .e8m10 0 o s

/-- The pad lines that a QM reads. -/
def qmReads (c : Cmd) (f : MFmt) : List Nat :=
  let x := QmShape.of c.words
  padLines c.ctx.core x.b (16 * (x.k * mfSize f)) ++ (if mfScaled f then padLines c.ctx.core x.scale 4 else [])

/-- The 16 results of one lane, from its registers. -/
def State.qmLane (s : State) (c : Cmd) (f : MFmt) (sel : Nat) (t : Thread) (h : QmHold) : List Nat :=
  let x := QmShape.of c.words
  let core := c.ctx.core
  let size := mfSize f
  let reg (n : Nat) : Nat := (t.regs.getD n Reg.z).val.toNat
  let row := natOf (((h.srcs.take (x.aRegs f))).map fun n => (t.regs.getD n Reg.z).val)
  let a := (List.range x.k).map fun k => row / 2 ^ (8 * size * k) % 2 ^ (8 * size)
  let sa := if mfScaled f then reg (h.srcs.getD (x.aRegs f + sel) 0) else oneF32
  let sb := if mfScaled f then s.rd (.pad core x.scale) 4 else oneF32
  (List.range 16).map fun n =>
    let b := (List.range x.k).map fun k => s.operandAt core x.b (x.k * size) x.span size n k
    (chunkStep f (if x.acc then reg (h.accs.getD n 0) else 0) a b sa sb).1

/-- The flags of one lane's results. -/
def State.qmFlags (s : State) (c : Cmd) (f : MFmt) (sel : Nat) (t : Thread) (h : QmHold) : FFlags :=
  let x := QmShape.of c.words
  let core := c.ctx.core
  let size := mfSize f
  let reg (n : Nat) : Nat := (t.regs.getD n Reg.z).val.toNat
  let row := natOf (((h.srcs.take (x.aRegs f))).map fun n => (t.regs.getD n Reg.z).val)
  let a := (List.range x.k).map fun k => row / 2 ^ (8 * size * k) % 2 ^ (8 * size)
  let sa := if mfScaled f then reg (h.srcs.getD (x.aRegs f + sel) 0) else oneF32
  let sb := if mfScaled f then s.rd (.pad core x.scale) 4 else oneF32
  (List.range 16).foldl (fun fl n =>
    let b := (List.range x.k).map fun k => s.operandAt core x.b (x.k * size) x.span size n k
    fl ||| (chunkStep f (if x.acc then reg (h.accs.getD n 0) else 0) a b sa sb).2) 0

/-- One lane takes its results; undefined operands leave undefined accumulators (R229). Of a command that ends with STATUS 2 each
accumulator holds its old value or the command's (R228). -/
def State.qmDeliver (s : State) (c : Cmd) (f : MFmt) (sel : Nat) (whole : Bool) (tid : W32) : State :=
  let core := c.ctx.core
  match s.view? core tid with
  | none => s
  | some v =>
    match v.th.qm.find? fun h => h.cmd == c.id with
    | none => s
    | some h =>
      let stands (p : Nat × Nat) : Bool := whole || Config.freeBool [36, s.free, c.id, tid.toNat, p.1]
      let put (l : List Nat) (t : Thread) : Thread :=
        { t with regs := ((h.accs.zip l).filter stands).foldl (fun r p => r.set p.1 (Reg.of (BitVec.ofNat 32 p.2))) t.regs }
      if h.taint then s.onThread core tid fun v => v.onTh fun t => (put (List.replicate 16 0) t).scramble [s.free, tid.toNat] h.accs
      else
        let fl := s.qmFlags c f sel v.th h
        let s := s.onThread core tid fun v => v.onTh (put (s.qmLane c f sel v.th h))
        s.onCore core fun k => k.onSect c.ctx.sect fun y => y.addFlags fl

/-- Whether a register holds no data for an engine: a storage error, or what a lost load left (R369). -/
def Reg.flawed (r : Reg) : Bool :=
  match r.mark with
  | .storage | .load _ => true
  | _ => false

/-- The uncorrectable errors among what a QM reads: B, its scale, and the registers of its lanes. -/
def State.qmFlaws (s : State) (c : Cmd) (f : MFmt) : Bool :=
  let x := QmShape.of c.words
  let core := c.ctx.core
  let lane (tid : W32) : Bool := match s.view? core tid with
    | none => false
    | some v => (v.th.qm.filter fun h => h.cmd == c.id && !h.taint).any fun h =>
        (h.srcs ++ (if x.acc then h.accs else [])).any fun n => (v.th.regs.getD n Reg.z).flawed
  !(s.flaws (.pad core x.b) (16 * (x.k * mfSize f))).isEmpty || (mfScaled f && !(s.flaws (.pad core x.scale) 4).isEmpty) ||
    c.owners.any fun o => lane o.1

/-- A QM completes; `row` counts the operations before it in its pass (R266). -/
def State.completeQm (s : State) (r : EngRef) (c : Cmd) (f : MFmt) (sel row : Nat) : State :=
  let x := QmShape.of c.words
  let core := c.ctx.core
  let bad := s.qmFlaws c f
  let s := s.touchPad core x.b (16 * (x.k * mfSize f))
  let s := if mfScaled f then s.touchPad core x.scale 4 else s
  let s := (c.owners.map (·.1)).foldl (fun s tid => s.qmDeliver c f sel (!bad) tid) s
  let s := s.onCore core fun k => k.onSect c.ctx.sect fun y => y.useSub s.arith (if row ≥ 8 then [0, 2] else [0])
  if bad then s.finishCmd r c 0 2 else s.finishCmd r c 1 0

/-! ### DRN, MZERO and MSTAT (R267, R283, R284) -/

/-- The region of a drain: M, N, the accumulator offset and the pad offset. -/
structure Region where
  m : Nat
  n : Nat
  o : Nat
  sect : Nat
  p : Nat
  deriving DecidableEq, Repr

def Region.of (w : List W32) : Region :=
  { m := fieldIn w 0 6 0 + 1, n := fieldIn w 0 13 7 + 1, o := fieldIn w 1 13 0, sect := fieldIn w 1 15 14, p := (wordAt w 2).toNat }

def drnFmt : DrnFmt → Fmt
  | .f32 => .f32 | .bf16 => .bf16 | .fp16 => .f16 | .e4m3 => .e4m3
def drnSize (f : DrnFmt) : Nat := (drnFmt f).width / 8
/-- The row pitch of a drain. -/
def Region.pitch (x : Region) (f : DrnFmt) : Nat := ceilDiv (x.n * drnSize f) 16 * 16
/-- The bytes from the first to the last that a drain writes. -/
def Region.bytes (x : Region) (f : DrnFmt) : Nat := (x.m - 1) * x.pitch f + x.n * drnSize f

/-- A drained word (R74). -/
def drnWord (f : DrnFmt) (w : Nat) : Nat × FFlags :=
  match f with
  | .f32 => (w, 0)
  | _ =>
    let x := Fmt.f32.decode w
    let (b, fl) := roundTo (drnFmt f) .rz 0 x
    (b, fl ||| nvIf x.isSig)

def Region.past (x : Region) : Bool := decide (x.o + 128 * (x.m - 1) + x.n - 1 > 16383)

def drnForm (f : DrnFmt) (o : R2) (s : State) : EngForm :=
  let core := s.issue.core
  { card := { n := 3 }, who := s.leader,
    draft := fun v w =>
      let x := Region.of w
      checked
        [(2, x.p % 128 != 0 || (s.ctxOf core v.th).past x.p (x.bytes f), bundleFld o 2), (3, fieldIn w 0 31 14 != 0, o.a),
         (3, fieldIn w 1 31 16 != 0, bundleFld o 1), (4, x.past, bundleFld o 1)]
        { ref := { core, eng := .matrix (sectOf v x.sect) }, op := .drn f, lines := padLines core x.p (x.bytes f),
          fills := [v.th.ident.tid] } }
def drnCmd (f : DrnFmt) (o : R2) (s : State) : Result := .next (s.engIssue o (drnForm f o s))

def execDrnF32 (o : R2) (s : State) : Result := drnCmd .f32 o s
def execDrnBf16 (o : R2) (s : State) : Result := drnCmd .bf16 o s
def execDrnFp16 (o : R2) (s : State) : Result := drnCmd .fp16 o s
def execDrnE4m3 (o : R2) (s : State) : Result := drnCmd .e4m3 o s

/-- A drain completes: its region is written, and every element feeds the histogram unit (R77). -/
def State.completeDrn (s : State) (r : EngRef) (c : Cmd) (sect : Nat) (f : DrnFmt) : State :=
  let x := Region.of c.words
  let core := c.ctx.core
  let acc := ((s.coreAt core).sectAt sect).acc
  let es := (List.range x.m).flatMap fun m => (List.range x.n).map fun n =>
    (x.p + m * x.pitch f + n * drnSize f, drnWord f (lookWord acc (x.o + 128 * m + n)).toNat)
  let ms : List Mv := es.map fun e =>
    { unit := e.1 / 128 - x.p / 128, val := e.2.1, bits := 8 * drnSize f, dst := c.padBytes e.1 (drnSize f) }
  let s := s.onCore core fun k => { (k.onSect sect fun y => y.addFlags (es.foldl (fun fl e => fl ||| e.2.2) 0)) with
    hist := k.hist.file (es.map fun e => fun base => histBin (drnFmt f) base e.2.1) }
  s.finishMoves r c ms ((ms.map (·.unit)).eraseDups.length) 0

def mzeroForm (o : R2) (s : State) : EngForm :=
  let core := s.issue.core
  { card := { n := 2 }, who := s.leader,
    draft := fun v w =>
      let x := Region.of w
      checked [(3, fieldIn w 0 31 14 != 0, o.a), (3, fieldIn w 1 31 16 != 0, bundleFld o 1), (4, x.past, bundleFld o 1)]
        { ref := { core, eng := .matrix (sectOf v x.sect) }, op := .mzero, fills := [v.th.ident.tid] } }
def execMzero (o : R2) (s : State) : Result := .next (s.engIssue o (mzeroForm o s))

def State.completeMzero (s : State) (r : EngRef) (c : Cmd) (sect : Nat) : State :=
  let x := Region.of c.words
  let l := (List.range x.m).flatMap fun m => (List.range x.n).map fun n => (x.o + 128 * m + n, 0)
  (s.onCore c.ctx.core fun k => k.onSect sect fun y => y.setAcc l).finishCmd r c 0 0

def mstatForm (o : R2) (s : State) : EngForm :=
  let core := s.issue.core
  { card := { n := 2 }, who := s.leader,
    draft := fun v w =>
      let p := (wordAt w 0).toNat
      checked
        [(2, p % 16 != 0 || (s.ctxOf core v.th).past p 16, o.a),
         (3, fieldIn w 1 31 16 != 0 || fieldIn w 1 13 1 != 0, bundleFld o 1)]
        { ref := { core, eng := .matrix (sectOf v (fieldIn w 1 15 14)) }, op := .mstat, lines := padLines core p 16,
          fills := [v.th.ident.tid] } }
def execMstat (o : R2) (s : State) : Result := .next (s.engIssue o (mstatForm o s))

/-- MSTAT: the four words of R284. The commands still queued are those behind it. -/
def State.completeMstat (s : State) (r : EngRef) (c : Cmd) (sect : Nat) : State :=
  let k := (s.coreAt c.ctx.core).sectAt sect
  let words := [k.eflags, BitVec.ofNat 32 (k.awake.toNat + 256 * (k.mq.length - 1)), 96#32, k.retired]
  let ms : List Mv := [{ unit := 0, val := natOf words, bits := 128, dst := c.padBytes (wordAt c.words 0).toNat 16 }]
  let s := if (wordAt c.words 1).getLsbD 0 then s.onCore c.ctx.core fun x => x.onSect sect fun y => { y with eflags := 0#32 } else s
  s.finishMoves r c ms 1 0

end Sys2Proof.Machine
end

