-- ==== Sys2Proof/Machine/Tables.lean ====
section
/-! DEFINITION. The in-stack multipliers (R270, R271, R285, R286), the activation tables and the histogram unit's commands
(R119, R272, R287 to R289). -/

namespace Sys2Proof.Machine
open Sys2Proof

/-! ### PV (R270, R271, R285) -/

/-- What a PV command works on: formats, sizes and pad offsets. The record and the mask binding are captured at issue:
32 words of record, the bitmap's offset and its row count, 0 for no mask. -/
structure PvShape where
  t     : Tlr
  f     : MFmt
  k     : Nat
  rows  : Nat
  x     : Nat
  y     : Nat
  scale : Nat
  bits  : Nat
  mask  : Nat
  maskR : Nat
  deriving DecidableEq, Repr

def PvShape.of (f : MFmt) (w cap : List W32) : PvShape :=
  let t := Tlr.of (cap.take 32)
  { t, f, k := t.dim 0, rows := t.dim 1, x := (wordAt w 2).toNat, y := (wordAt w 3).toNat, scale := 16 * fieldIn w 4 15 0,
    bits := (wordAt w 5).toNat, mask := (wordAt cap 32).toNat, maskR := (wordAt cap 33).toNat }

def PvShape.nc (p : PvShape) : Nat := ceilDiv p.k 128
def PvShape.nr (p : PvShape) : Nat := ceilDiv p.rows 128
def PvShape.sBytes (p : PvShape) : Nat := if p.f = .e4m3 then 4 * (p.nr * p.nc + p.nc) else 0
def PvShape.maskBytes (p : PvShape) : Nat := ceilDiv p.maskR 8

/-- The format of a PV command. -/
def CmdOp.pvFmt : CmdOp → MFmt
  | .pv f => f
  | _ => .e4m3

/-- The pad lines that a PV command reads. -/
def pvReads (c : Cmd) : List Nat :=
  let p := PvShape.of c.op.pvFmt c.words c.cap
  let l := padLines c.ctx.core
  l p.x (p.k * mfSize p.f) ++ l p.scale p.sBytes ++ l p.mask p.maskBytes

/-- The issue of PV.E4M3, PV.BF16, PV.I8 or PV.PRED. A front end's commands use section 0. -/
def pvForm (f : MFmt) (pred : Bool) (o : R2) (s : State) : EngForm :=
  let core := s.issue.core
  { card := { n := if pred then 6 else 5, pair := true }, who := s.leader, load := fun v => s.recordVerdict core v (v.rd64 o.a) 128,
    draft := fun v w =>
      let c := s.ctxOf core v.th
      let mask := ((s.coreAt core).sectAt c.sect).mask
      let cap := s.recordWords core v (pairAt w 0) 128 ++
        [BitVec.ofNat 32 ((mask.map (·.1)).getD 0), BitVec.ofNat 32 ((mask.map (·.2)).getD 0)]
      let p := PvShape.of f w cap
      let t := p.t
      checked
        [(1, t.bad 0 0, o.a), (2, p.x % 16 != 0 || c.past p.x (p.k * mfSize f), bundleFld o 2),
         (2, p.y % 128 != 0 || c.past p.y (4 * p.rows), bundleFld o 3), (2, f == .e4m3 && c.past p.scale p.sBytes, bundleFld o 4),
         (2, pred && (p.bits % 16 != 0 || c.past p.bits (ceilDiv p.rows 8)), bundleFld o 5),
         (3, t.elem != (if f = .bf16 then 1 else 0) || t.span != 0 || t.sel != 0 || t.dim 2 != 1 || t.dim 3 != 1, o.a),
         (3, f == .e4m3 && fieldIn w 4 31 16 != 0, bundleFld o 4)]
        { ref := { core, eng := .stack c.sect }, op := if pred then .pvPred else .pv f, cap, lines := padLines core p.y (4 * p.rows),
          load := (s.recordLoc core v (pairAt w 0) 128).map fun l => (l, 128), fills := [v.th.ident.tid],
          reach := ((t.interval { c0 := 0, c1 := 0, c2 := 0, c3 := 0, p := 0, b0 := p.k, b1 := p.rows, x := 0 } 0 p.rows).map fun r =>
            (BitVec.ofNat 64 r.1, r.2)).toList } }
def pvCmd (f : MFmt) (pred : Bool) (o : R2) (s : State) : Result := .next (s.engIssue o (pvForm f pred o s))

def execPvE4m3 (o : R2) (s : State) : Result := pvCmd .e4m3 false o s
def execPvBf16 (o : R2) (s : State) : Result := pvCmd .bf16 false o s
def execPvI8 (o : R2) (s : State) : Result := pvCmd .i8 false o s
def execPvPred (o : R2) (s : State) : Result := pvCmd .e4m3 true o s

/-- Whether a row is skipped: its bit of the bound bitmap is 0. Rows past the bitmap count as 1. -/
def State.pvSkips (s : State) (c : Cmd) (p : PvShape) (row : Nat) : Bool :=
  decide (row < p.maskR) && !((s.rdByte (.pad c.ctx.core (p.mask + row / 8))).getLsbD (row % 8))

/-- The places of row `row` of W. -/
def State.pvRow (s : State) (c : Cmd) (p : PvShape) (row : Nat) : List Site :=
  s.engBytes c true false (BitVec.ofNat 64 (p.t.base.toNat + row * p.t.strides.getD 0 0)) (p.k * mfSize p.f)

/-- Whether a place lies in the HBM4E stack of a stack domain. -/
def Loc.inStack (l : Loc) (d : Nat) : Bool :=
  match l with
  | .mem a => decide (a < 2 ^ 39) && a / 2 ^ 36 == d
  | _ => false

/-- y of one row: the product of R71 to R73 with M = 1. -/
def State.pvElem (s : State) (c : Cmd) (p : PvShape) (row : Nat) (w : List Loc) : Nat :=
  let core := c.ctx.core
  let size := mfSize p.f
  let sc (i : Nat) : Nat := if p.f = .e4m3 then s.rd (.pad core (p.scale + 4 * i)) 4 else oneF32
  (List.range p.nc).foldl (fun acc ch =>
    let ks := (List.range (min 128 (p.k - 128 * ch))).map (128 * ch + ·)
    let a := ks.map fun k => s.rd (.pad core (p.x + k * size)) size
    let b := ks.map fun k => leNat (((w.drop (k * size)).take size).map s.rdByte)
    (chunkStep p.f acc a b (sc (p.nr * p.nc + ch)) (sc (row / 128 * p.nc + ch))).1) 0

/-- The uncorrectable errors among what a row reads in scratchpad: x, its scales and its mask bit (R275). -/
def State.pvFlaws (s : State) (c : Cmd) (p : PvShape) (row : Nat) : List Miss :=
  let pad (o n : Nat) : List Miss := s.flaws (.pad c.ctx.core o) n
  let mask := if row < p.maskR then pad (p.mask + row / 8) 1 else []
  if s.pvSkips c p row then mask
  else mask ++ pad p.x (p.k * mfSize p.f) ++
    (if p.f = .e4m3 then (List.range p.nc).flatMap fun ch => pad (p.scale + 4 * (row / 128 * p.nc + ch)) 4 ++ pad (p.scale + 4 * (p.nr * p.nc + ch)) 4
     else [])

/-- Whether an FP32 encoding is above 0. -/
def positive32 (x : Nat) : Bool := (FVal.zero false).lt (Fmt.f32.decode x)

/-- A PV command completes. It takes the bitmap's bytes first, for which held terms settle (R240, R286). -/
def State.completePv (s' : State) (r : EngRef) (c : Cmd) : State :=
  let p := PvShape.of c.op.pvFmt c.words c.cap
  let core := c.ctx.core
  let s := s'.touchPad core p.mask p.maskBytes
  let rows := (List.range p.rows).map fun i => (i, s.pvSkips c p i, s.pvRow c p i)
  if rows.any fun x => (placesOf x.2.2).any fun l => !l.inStack (stackOfCore core) then s.finishCmd r c 0 4
  else
    let read := (rows.filter fun x => !x.2.1).flatMap fun x => placesOf x.2.2
    let touch (s : State) : State :=
      let s := (s.touchPad core p.x (p.k * mfSize p.f)).touchPad core p.scale p.sBytes
      read.foldl (fun s l => s.engTouch core l) s
    let s1 := touch s
    let ys : List (Nat × Nat × List Miss) := rows.map fun x =>
      let bad := s.pvFlaws c p x.1
      if x.2.1 then (x.1, 0, bad) else (x.1, s1.pvElem c p x.1 (placesOf x.2.2), errsOf x.2.2 ++ bad)
    let ms : List Mv := ys.map fun y =>
      { unit := y.1 / 32, src := y.2.2.map .error, val := y.2.1, bits := 32, dst := c.padBytes (p.y + 4 * y.1) 4 }
    let pb : List Mv := match c.op with
      | .pvPred => (List.range (ceilDiv p.rows 8)).map fun i =>
          { unit := ceilDiv p.rows 32, bits := 8, dst := c.padBytes (p.bits + i) 1,
            val := (((ys.drop (8 * i)).take 8).zipIdx.map fun (y, j) => if positive32 y.2.1 then 2 ^ j else 0).sum }
      | _ => []
    match mvStop (ms ++ pb) with
    | some (0, _) => s.awaitPage r c (ms.flatMap Mv.errs)
    | _ => s1.finishMoves r c (ms ++ pb) (ceilDiv p.rows 32) 0

/-- PV.MASK: the binding takes effect at issue (R286). -/
def pvMaskForm (o : R2) (s : State) : EngForm :=
  let core := s.issue.core
  { card := { n := 2 }, who := s.leader,
    draft := fun v w =>
      let c := s.ctxOf core v.th
      let p := (wordAt w 0).toNat
      let n := (wordAt w 1).toNat
      checked [(2, p % 16 != 0 || (n != 0 && c.past p (ceilDiv n 8)), o.a), (3, decide (n > 2 ^ 20), bundleFld o 1)]
        { ref := { core, eng := .stack c.sect }, op := .pvMask, fills := [v.th.ident.tid] },
    effect := fun v w s =>
      let sect := (s.ctxOf core v.th).sect
      let n := (wordAt w 1).toNat
      s.onCore core fun k => k.onSect sect fun y => { y with mask := if n = 0 then none else some ((wordAt w 0).toNat, n) } }
def execPvMask (o : R2) (s : State) : Result := .next (s.engIssue o (pvMaskForm o s))

/-! ### Activation tables (R119, R287, R288) -/

/-- The bytes of a table's image. -/
def tableBytes : Nat := 1152

def tbLoadForm (o : R2) (s : State) : EngForm :=
  let core := s.issue.core
  { card := { n := 3, pair := true }, who := s.leader,
    draft := fun v w =>
      checked (s.rangeChecks (s.ctxOf core v.th) (pairAt w 0) tableBytes o.a ++ [(3, fieldIn w 2 31 4 != 0, bundleFld o 2)])
        { ref := { core, eng := .table }, op := .tbLoad, fills := [v.th.ident.tid], reach := [(pairAt w 0, tableBytes)] } }
def execTbLoad (o : R2) (s : State) : Result := .next (s.engIssue o (tbLoadForm o s))

/-- A load fills the inactive bank. -/
def ActTable.load (t : ActTable) (l : List W32) : ActTable := if t.active then { t with b0 := l } else { t with b1 := l }
def ActTable.idle (t : ActTable) : List W32 := if t.active then t.b0 else t.b1

/-- The pad lines that a TB.LOAD reads. -/
def State.tbReads (s : State) (c : Cmd) : List Nat :=
  (placesOf (s.engBytes c true false (pairAt c.words 0) tableBytes)).filterMap Loc.padLine

/-- TB.LOAD: a fault ends it at a free unit of 128 bytes up to the first that meets it, and leaves each later word of the bank with its
old or its new value (R228, R252). -/
def State.completeTbLoad (s : State) (r : EngRef) (c : Cmd) : State :=
  let l := s.engBytes c true false (pairAt c.words 0) tableBytes
  let t := fieldIn c.words 2 3 0
  let e := errsOf l
  let s1 := (placesOf l).foldl (fun s x => s.engTouch c.ctx.core x) s
  let first := (l.findIdx? fun x => match x with | .ok _ => false | .error _ => true).getD tableBytes / 128
  let k := if e.isEmpty then 9 else (Config.freeWord [14, s.free, c.id]).toNat % (first + 1)
  let word (i : Nat) : Option W32 :=
    let b := (l.drop (4 * i)).take 4
    if (errsOf b).isEmpty then some (BitVec.ofNat 32 (leNat ((placesOf b).map s1.rdByte))) else none
  let old := ((s.coreAt c.ctx.core).tableAt t).idle
  let new := (List.range 288).map fun i =>
    match word i with
    | none => old.getD i 0#32
    | some x => if i / 32 < k || Config.freeBool [15, s.free, t, i] then x else old.getD i 0#32
  if !e.isEmpty && worstOf e == 0 then s.awaitPage r c e
  else (s1.onCore c.ctx.core fun k => k.onTable t fun y => y.load new).finishCmd r c k (worstOf e)

/-- TB.SWAP holds every later ACT of its table from its issue. -/
def tbSwapForm (o : R2) (s : State) : EngForm :=
  let core := s.issue.core
  { card := { n := 1 }, who := s.leader,
    draft := fun v w =>
      checked [(3, fieldIn w 0 31 4 != 0, o.a)] { ref := { core, eng := .table }, op := .tbSwap, fills := [v.th.ident.tid] },
    effect := fun _ w s => s.onCore core fun k => k.onTable (fieldIn w 0 3 0) fun y => { y with held := true } }
def execTbSwap (o : R2) (s : State) : Result := .next (s.engIssue o (tbSwapForm o s))

/-- Whether a result that reads a table has still to land: an ACT's, or an evaluation's of the Carafe (R302). (DEDUCED, log entry 47.) -/
def Core.tableBusy (k : Core) (t : Nat) : Bool :=
  match k.crew with
  | none => false
  | some c => c.all.any fun x => x.pending.any fun p => p.tables.contains t

/-- The exchange of the banks; the hold is lifted unless another swap of the table waits. -/
def State.completeTbSwap (s : State) (r : EngRef) (c : Cmd) : State :=
  let t := fieldIn c.words 0 3 0
  if (s.coreAt c.ctx.core).tableBusy t then s
  else
    let more := (s.coreAt c.ctx.core).tblq.any fun x => x.id != c.id && x.op == .tbSwap && fieldIn x.words 0 3 0 == t
    (s.onCore c.ctx.core fun k => k.onTable t fun y => { y with active := !y.active, held := more }).finishCmd r c 0 0

/-! ### The histogram unit (R272, R289) -/

/-- The registers of a command without a bundle. -/
def bare (o : RD) : R2 := { f := false, d := o.d, a := Fld.z }

def histForm (op : CmdOp) (act : View → Hist → Hist) (s : State) : EngForm :=
  let core := s.issue.core
  { card := { n := 0 }, who := s.leader,
    draft := fun v _ => .ok { ref := { core, eng := .table }, op, fills := [v.th.ident.tid] },
    effect := fun v _ s => s.onCore core fun k => { k with hist := act v k.hist } }

def hgBindForm (s : State) : EngForm :=
  histForm .hgBind (fun v _ => { tag := v.th.ctl.htag, count := List.replicate 67 0#32 }) s
def execHgBind (o : RD) (s : State) : Result := .next (s.engIssue (bare o) (hgBindForm s))
def hgClrForm (s : State) : EngForm :=
  histForm .hgClr (fun _ h => { h with count := List.replicate 67 0#32 }) s
def execHgClr (o : RD) (s : State) : Result := .next (s.engIssue (bare o) (hgClrForm s))

/-- HG.READ takes its 68 words at issue. -/
def hgReadForm (o : R2) (s : State) : EngForm :=
  let core := s.issue.core
  { card := { n := 1 }, who := s.leader,
    draft := fun v w =>
      let p := (wordAt w 0).toNat
      let h := (s.coreAt core).hist
      checked [(2, p % 16 != 0 || (s.ctxOf core v.th).past p 272, o.a)]
        { ref := { core, eng := .table }, op := .hgRead, cap := h.tag :: h.count, lines := padLines core p 272,
          fills := [v.th.ident.tid] } }
def execHgRead (o : R2) (s : State) : Result := .next (s.engIssue o (hgReadForm o s))

def State.completeHgRead (s : State) (r : EngRef) (c : Cmd) : State :=
  let p := (wordAt c.words 0).toNat
  let ms : List Mv := c.cap.zipIdx.map fun (x, i) =>
    { unit := (p + 4 * i) / 128 - p / 128, val := x.toNat, bits := 32, dst := c.padBytes (p + 4 * i) 4 }
  s.finishMoves r c ms 3 0

end Sys2Proof.Machine
end

