-- ==== Sys2Proof/Machine/Carafe.lean ====
section
/-! DEFINITION. The Carafe: network descriptors, handles, tiles, evaluations, gradients and the backward store (R291 to
R307). -/

namespace Sys2Proof.Machine
open Sys2Proof

/-! ### FP32 steps, each rounded once to nearest -/

def f32 (x : Nat) : FVal := Fmt.f32.decode x
def add32 (a b : Nat) : Nat := (fAdd .f32 .rn 0 (f32 a) (f32 b)).1
def mul32 (a b : Nat) : Nat := (fMul .f32 .rn 0 (f32 a) (f32 b)).1
def fma32 (a b c : Nat) : Nat := (fFma .f32 .rn 0 (f32 a) (f32 b) (f32 c)).1

/-! ### Network descriptors (R293, R294) -/

structure NetLayer where
  w    : W64
  bias : W64
  n    : Nat
  kind : Nat
  t    : Nat
  rp   : Nat
  qs   : Nat
  sa   : Nat
  sb   : Nat
  resv : Bool
  deriving DecidableEq, Repr

def NetLayer.of (w : List W32) (l : Nat) : NetLayer :=
  let b := 16 + 12 * l
  { w := pairAt w b, bias := pairAt w (b + 2), n := fieldIn w (b + 4) 15 0, kind := fieldIn w (b + 4) 18 16,
    t := fieldIn w (b + 4) 23 20, rp := (wordAt w (b + 5)).toNat, qs := (wordAt w (b + 6)).toNat, sa := (wordAt w (b + 7)).toNat,
    sb := (wordAt w (b + 8)).toNat,
    resv := (wordAt w (b + 4)).getLsbD 19 || fieldIn w (b + 4) 31 24 != 0 || (List.range 3).any fun i => wordAt w (b + 9 + i) != 0#32 }

structure Net where
  bf     : Bool
  nin    : Nat
  grad   : W64
  layers : List NetLayer
  resv   : Bool
  deriving DecidableEq, Repr

def Net.of (w : List W32) : Net :=
  { bf := (wordAt w 0).getLsbD 8, nin := fieldIn w 0 31 16, grad := pairAt w 2,
    layers := (List.range (fieldIn w 0 2 0)).map (NetLayer.of w),
    resv := fieldIn w 0 7 3 != 0 || fieldIn w 0 15 9 != 0 || wordAt w 1 != 0#32 ||
      (List.range 12).any fun i => wordAt w (4 + i) != 0#32 }

/-- The bytes of a weight. -/
def Net.e (n : Net) : Nat := if n.bf then 2 else 1
def Net.fmt (n : Net) : MFmt := if n.bf then .bf16 else .e4m3
/-- The input widths K_l, and the output width of the whole. -/
def Net.widths (n : Net) : List Nat := n.nin :: n.layers.map (·.n)
def Net.kOf (n : Net) (l : Nat) : Nat := n.widths.getD l 0
def Net.nout (n : Net) : Nat := (n.layers.getLast?.map (·.n)).getD 0
/-- The tables that its layers name (R302). -/
def Net.tables (n : Net) : List Nat := (n.layers.filter fun l => decide (l.kind ≥ 3)).map (·.t)

/-- Whether the descriptor fails R295. -/
def Net.bad (n : Net) : Bool :=
  n.resv || n.layers.isEmpty || decide (n.layers.length > 4) || n.nin == 0 || decide (n.nin > 128) ||
  (n.layers.zipIdx.any fun (l, i) => l.resv || l.n == 0 || decide (l.n > 128) || decide (l.kind > 4) ||
    l.rp % 16 != 0 || decide (l.rp < n.kOf i * n.e) || l.w.toNat % n.e != 0 || l.bias.toNat % 4 != 0) ||
  n.grad.toNat % 4 != 0

/-! ### Arithmetic (R297, R298, R305) -/

/-- q of R297: an input quantised. -/
def quant (bf : Bool) (qs h : Nat) : Nat :=
  if bf then (roundTo .bf16 .rn 0 (f32 h)).1 else (roundTo .e4m3 .rn 0 (f32 (mul32 h qs))).1

/-- acc of R297 for one output: weights w, bias b, quantised inputs q. -/
def netDot (f : MFmt) (sa sb b : Nat) (w q : List Nat) : Nat :=
  (List.range (ceilDiv q.length 128)).foldl (fun acc c =>
    (chunkStep f acc ((q.drop (128 * c)).take 128) ((w.drop (128 * c)).take 128) sa sb).1) b

/-- act of R298. `bank` gives the words of a table's active bank. -/
def actFwd (bank : Nat → List W32) (l : NetLayer) (z : Nat) : Nat :=
  match l.kind with
  | 0 => z
  | 1 => if (f32 z).isNan then Fmt.f32.nan else if positive32 z then z else 0
  | 2 => ((sfu32 tanhVal (enc32 z)).1).toNat
  | 3 => ((actValue false (bank l.t) (enc32 z)).1).toNat
  | _ => ((actValue true (bank l.t) (enc32 z)).1).toNat

/-- act' of a table's segments. -/
def tableSlope (bank : List W32) (z : Nat) : Nat :=
  let y (i : Nat) : Nat := (bank.getD (4 + i) 0#32).toNat
  let u := mul32 (add32 z ((roundTo .f32 .rn 0 (f32 (bank.getD 0 0#32).toNat).neg).1)) (bank.getD 1 0#32).toNat
  let uv := f32 u
  if (f32 z).isNan || uv.isNan then Fmt.f32.nan
  else if uv.lt (.zero false) || !uv.lt (.fin false 256 0) then 0
  else
    let i := (splitUnit uv).1
    mul32 ((fAdd .f32 .rn 0 (f32 (y (i + 1))) (f32 (y i)).neg).1) (bank.getD 1 0#32).toNat

/-- g' of R305; the identity passes g on. -/
def actBack (bank : Nat → List W32) (l : NetLayer) (z g : Nat) : Nat :=
  match l.kind with
  | 0 => g
  | 1 => mul32 g (if positive32 z then oneF32 else 0)
  | 2 => let y := actFwd bank l z; mul32 g ((fAdd .f32 .rn 0 (f32 oneF32) (f32 (mul32 y y)).neg).1)
  | 3 => mul32 g 0
  | _ => mul32 g (tableSlope (bank l.t) z)

/-- Weights and biases as they are read: layer, row and element. -/
structure NetMem where
  w : Nat → Nat → Nat → Nat
  b : Nat → Nat → Nat

/-- The layers of a forward run: each with its inputs and its z. -/
def Net.runFrom (n : Net) (m : NetMem) (bank : Nat → List W32) : List (NetLayer × Nat) → List Nat → List (List Nat × List Nat)
  | [], _ => []
  | (l, i) :: r, h =>
    let q := h.map (quant n.bf l.qs)
    let (sa, sb) := if n.bf then (oneF32, oneF32) else (l.sa, l.sb)
    let z := (List.range l.n).map fun j => netDot n.fmt sa sb (m.b i j) ((List.range h.length).map (m.w i j)) q
    (h, z) :: n.runFrom m bank r (z.map (actFwd bank l))

def Net.run (n : Net) (m : NetMem) (bank : Nat → List W32) (x : List Nat) : List (List Nat × List Nat) :=
  n.runFrom m bank n.layers.zipIdx x

/-- The output of a run. -/
def Net.output (n : Net) (m : NetMem) (bank : Nat → List W32) (x : List Nat) : List Nat :=
  match (n.run m bank x).getLast?, n.layers.getLast? with
  | some (_, z), some l => z.map (actFwd bank l)
  | _, _ => []

/-- GS of R305 and R314. -/
def gradScale (bf : Bool) (sa sb qs : Nat) : Nat := if bf then oneF32 else mul32 (mul32 sa sb) qs

/-- The backward pass from layer i - 1 down, with the gradient of its outputs: the input gradient and, for each layer, g'
and its inputs. -/
def Net.backFrom (n : Net) (m : NetMem) (bank : Nat → List W32) (fw : List (List Nat × List Nat)) :
    Nat → List Nat → List Nat × List (Nat × List Nat × List Nat)
  | 0, g => (g, [])
  | i + 1, g =>
    let l := n.layers.getD i (NetLayer.of [] 0)
    let (hin, z) := fw.getD i ([], [])
    let g' := (g.zip z).map fun p => actBack bank l p.2 p.1
    let gs := gradScale n.bf l.sa l.sb l.qs
    let dec (x : Nat) : Nat := (roundTo .f32 .rn 0 (mfDecode n.fmt x)).1
    let prev := (List.range hin.length).map fun k =>
      g'.zipIdx.foldl (fun t (x : Nat × Nat) => fma32 (mul32 (dec (m.w i x.2 k)) gs) x.1 t) 0
    let (dx, rest) := n.backFrom m bank fw i prev
    (dx, (i, g', hin) :: rest)

/-- The first word of layer l in the gradient buffer (R294). -/
def Net.gradBase (n : Net) (l : Nat) : Nat := ((List.range l).map fun j => n.kOf (j + 1) * (n.kOf j + 1)).sum

/-- The contributions of a row: for each word of the buffer, g' and the factor that it takes. -/
def Net.contribs (n : Net) (ls : List (Nat × List Nat × List Nat)) : List (W64 × Nat × Nat) :=
  if n.grad = 0#64 then []
  else ls.flatMap fun (i, g', hin) =>
    let base := n.gradBase i
    let addr (w : Nat) : W64 := n.grad + BitVec.ofNat 64 (4 * (base + w))
    (g'.zipIdx.flatMap fun (g, r) => hin.zipIdx.map fun (h, k) => (addr (r * hin.length + k), g, h)) ++
    g'.zipIdx.map fun (g, r) => (addr (g'.length * hin.length + r), g, oneF32)

/-! ### Reading a network (R300, R301) -/

/-- The places of weight row `j` of layer `l`, and of its bias. -/
def State.weightPlaces (s : State) (x : CmdCtx) (ref : Bool) (n : Net) (l j : Nat) : List Site :=
  let y := n.layers.getD l (NetLayer.of [] 0)
  s.ctxBytes x ref true false (y.w + BitVec.ofNat 64 (j * y.rp)) (n.kOf l * n.e)
def State.biasPlaces (s : State) (x : CmdCtx) (ref : Bool) (n : Net) (l j : Nat) : List Site :=
  let y := n.layers.getD l (NetLayer.of [] 0)
  if y.bias = 0#64 then [] else s.ctxBytes x ref true false (y.bias + BitVec.ofNat 64 (4 * j)) 4

/-- Every place of a network. -/
def State.netPlaces (s : State) (x : CmdCtx) (ref : Bool) (n : Net) : List Site :=
  n.layers.zipIdx.flatMap fun (l, i) => (List.range l.n).flatMap fun j => s.weightPlaces x ref n i j ++ s.biasPlaces x ref n i j

/-- The network as memory holds it. -/
def State.netMem (s : State) (x : CmdCtx) (n : Net) : NetMem :=
  { w := fun l j k =>
      let p := placesOf (s.weightPlaces x true n l j)
      leNat (((p.drop (k * n.e)).take n.e).map s.rdByte),
    b := fun l j => leNat ((placesOf (s.biasPlaces x true n l j)).map s.rdByte) }

/-- The active bank of each table of a core. -/
def Core.banks (k : Core) (t : Nat) : List W32 := (k.tableAt t).bank

/-! ### Gradient updates (R306) -/

def GradTerm.addr : GradTerm → W64
  | .fma a _ _ => a
  | .add a _ => a
/-- The new value of a gradient word. -/
def GradTerm.on (t : GradTerm) (old : Nat) : Nat :=
  match t with
  | .fma _ g x => fma32 g.toNat x.toNat old
  | .add _ v => add32 old v.toNat

/-- Where a gradient word lies. -/
def State.gradPlace (s : State) (x : CmdCtx) (ref : Bool) (a : W64) : Site := s.engPlace x ref true true a

/-- One update of a word at its home. -/
def State.gradAt (s : State) (l : Loc) (t : GradTerm) : State := s.putBytes l 4 (t.on ((s.settle l 4).rd l 4))
/-- Updates one after another, as atomics of one core (R224): each line takes one timestamp (R204). -/
def State.gradEach (s : State) (core : Nat) (l : List (Loc × GradTerm)) : State :=
  (l.foldl (fun s x => s.gradAt x.1 x.2) s).stampLines core (l.map (·.1))
/-- The words that updates reach; one that cannot be reached takes nothing. -/
def State.gradSites (s : State) (x : CmdCtx) (l : List GradTerm) : List (Loc × GradTerm) :=
  l.filterMap fun t => match s.gradPlace x true t.addr with
    | .error _ => none
    | .ok p => some (p, t)

/-- The misses among some places that a page or a repair would mend. -/
def pageMisses (l : List Site) : List Miss := (errsOf l).filter fun m => decide (m.code ≤ 1)

/-- The sums of a tile's contributions: each word's in ascending row order. -/
def sumTerms (l : List (W64 × Nat × Nat)) : List GradTerm :=
  (l.map (·.1)).eraseDups.map fun a =>
    .add a (enc32 ((l.filter fun c => c.1 == a).foldl (fun t c => fma32 c.2.1 c.2.2 t) 0))

/-! ### The backward store (R306) -/

/-- Whether every entry of a core's backward store is filled. -/
def Crew.backsFilled (c : Crew) : Bool := c.backs.all fun e => e.terms.isSome

/-- The key order of R306. -/
def backBefore (a b : BackEntry) : Bool := a.tid.toNat < b.tid.toNat || (a.tid == b.tid && decide (a.order ≤ b.order))

/-- The pages that the settle of one entry waits for; `ref` says that the host has refused them. -/
def State.entryMisses (s : State) (ref : Bool) (e : BackEntry) : List Miss :=
  pageMisses ((e.terms.getD []).map fun t => s.gradPlace e.ctx (ref || e.refused) t.addr)

/-- The pages that a settle waits for. -/
def State.settleMisses (s : State) (ref : Bool) (c : Crew) : List Miss := c.backs.flatMap (s.entryMisses ref)

/-- Whether a settle waits for a page. -/
def State.settleHeld (s : State) (c : Crew) : Bool := !(s.settleMisses false c).isEmpty

/-- Apply every entry in key order, and empty the store. -/
def State.settleBacks (s : State) (core : Nat) : State :=
  match (s.coreAt core).crew with
  | none => s
  | some c =>
    let l := (sortBy backBefore c.backs).flatMap fun e => s.gradSites e.ctx (e.terms.getD [])
    (s.gradEach core l).onCore core fun k => k.onCrew fun c => { c with backs := [] }

/-- Fill the entry of an issuer's command. -/
def State.fillBack (s : State) (core : Nat) (tid : W32) (ord : Nat) (ts : List GradTerm) : State :=
  s.onCore core fun k => k.onCrew fun c => { c with backs := c.backs.map fun e =>
    if e.tid = tid ∧ e.order = ord then { e with terms := some ts } else e }

/-! ### NE.BIND, NE.UNBIND and NE.FLUSH (R295, R296, R303, R307) -/

def neBindForm (o : R2) (s : State) : EngForm :=
  let core := s.issue.core
  { card := { n := 3, pair := true }, who := s.leader, load := fun v => s.recordVerdict core v (v.rd64 o.a) 256,
    draft := fun v w =>
      let d := s.recordWords core v (pairAt w 0) 256
      checked [(3, (Net.of d).bad, o.a), (3, fieldIn w 2 31 6 != 0, bundleFld o 2)]
        { ref := { core, eng := .carafe }, op := .neBind, cap := [BitVec.ofNat 32 (Net.of d).layers.length],
          load := (s.recordLoc core v (pairAt w 0) 256).map fun l => (l, 256), fills := [v.th.ident.tid] },
    effect := fun v w s =>
      let d := s.recordWords core v (pairAt w 0) 256
      s.onCore core fun k => { k with handles := modifyAt none (fun _ => some { net := d, bind := s.serial }) (fieldIn w 2 5 0) k.handles } }
def execNeBind (o : R2) (s : State) : Result := .next (s.engIssue o (neBindForm o s))

/-- NE.UNBIND waits for every evaluation issued before it that named its handle, under whichever binding; of an unbound handle it
completes at once. -/
def neUnbindForm (o : R2) (s : State) : EngForm :=
  let core := s.issue.core
  { card := { n := 1 }, who := s.leader,
    draft := fun v w =>
      let h := (s.coreAt core).handleAt (fieldIn w 0 5 0)
      checked [(3, fieldIn w 0 31 6 != 0, o.a)]
        { ref := { core, eng := .carafe }, op := .neUnbind, now := h.isNone, fills := [v.th.ident.tid] },
    effect := fun _ w s => s.onCore core fun k => { k with handles := modifyAt none (fun _ => none) (fieldIn w 0 5 0) k.handles } }
def execNeUnbind (o : R2) (s : State) : Result := .next (s.engIssue o (neUnbindForm o s))

/-- NE.FLUSH launches every open tile, and covers the backward entries since the flush before it. -/
def neFlushForm (s : State) : EngForm :=
  let core := s.issue.core
  { card := { n := 0 }, who := s.leader,
    draft := fun v _ =>
      let n := ((s.coreAt core).crew.map fun c => c.backCnt - c.backSeen).getD 0
      .ok { ref := { core, eng := .carafe }, op := .neFlush, cap := [BitVec.ofNat 32 n], fills := [v.th.ident.tid] },
    effect := fun _ _ s => s.onCore core fun k =>
      { (k.onCrew fun c => { c with backSeen := c.backCnt }) with tiles := k.tiles.map fun t => { t with full := true } } }
def execNeFlush (o : RD) (s : State) : Result := .next (s.engIssue (bare o) (neFlushForm s))

/-- The rows of a core that have not been delivered, with their handles. -/
def Core.rowsLeft (k : Core) : List (Nat × Row) :=
  (k.tiles.flatMap fun t => t.rows.map fun r => (t.handle, r)) ++
  k.sects.flatMap fun x => x.mq.flatMap fun c => match c.op with
    | .tile _ h _ _ rows => rows.map fun r => (h, r)
    | _ => []

/-- Whether an evaluation issued before number `id`, of a handle that `p` selects, is still to be delivered: a result that stands bound
waits for those of earlier evaluations of its lane (R300). -/
def Core.evalsLeft (k : Core) (id : Nat) (p : Nat → Bool) : Bool :=
  (k.rowsLeft.any fun x => decide (x.2.ord < id) && p x.1) ||
  ((k.crew.map fun c => c.all.any fun t => t.pending.any fun y => match y.eval with
    | some (o, h) => decide (o < id) && p h
    | none => false).getD false)

/-- The TD.BWD commands of a core in flight. -/
def Core.tdBwds (k : Core) : List Cmd := k.sects.flatMap fun x => x.mq.filter fun c => c.op == .tdBwd

/-- A command of the Carafe's queue completes when what it waits for has been delivered, and for NE.FLUSH settled. -/
def State.completeNet (s : State) (r : EngRef) (c : Cmd) : State :=
  let k := s.coreAt c.ctx.core
  match c.op with
  | .neBind => s.finishCmd r c (wordAt c.cap 0).toNat 0
  | .neUnbind =>
    if k.evalsLeft c.id (· == fieldIn c.words 0 5 0) then s else s.finishCmd r c 0 0
  | .neFlush =>
    if k.evalsLeft c.id (fun _ => true) || (k.tdBwds.any fun x => decide (x.id < c.id)) ||
        (k.netq.any fun x => decide (x.id < c.id)) then s
    else match k.crew with
      | none => s.finishCmd r c (wordAt c.cap 0).toNat 0
      | some w =>
        if !w.backsFilled then s
        else match s.settleMisses c.refused w with
          | [] => (s.settleBacks c.ctx.core).finishCmd r c (wordAt c.cap 0).toNat 0
          | l => s.awaitPage r c l
  | _ => s

/-- A settle that no command makes waits for a page: service is asked for, once for each page, or the host refuses it, which is free.
(DEDUCED, log entry 80.) -/
def State.settleService (s : State) (core : Nat) (c : Crew) : State :=
  match c.backs.find? fun e => (s.entryMisses false e).any fun m => m.code == 0 with
  | none => s
  | some e =>
    let va := ((s.entryMisses false e).find? fun m => m.code == 0).map (·.va)
    let on (f : BackEntry → BackEntry) (s : State) : State := s.onCore core fun k => k.onCrew fun c =>
      { c with backs := c.backs.map fun x => if x.tid = e.tid ∧ x.order = e.order then f x else x }
    if e.wants == va then
      if Config.freeBool [37, s.free, e.order] then on (fun x => { x with refused := true }) s else s
    else on (fun x => { x with wants := va }) (s.askPage e.ctx.ten (va.getD 0#64))

/-- BACKWARD_SETTLE: a full store, or the end of a crew (R306). -/
def State.backwardSettle (s : State) (core : Nat) : State :=
  match (s.coreAt core).crew with
  | none => s
  | some c =>
    let waiting := c.all.any fun t => match t.status with | .parked (.backward _) => true | _ => false
    let ended := c.all.all fun t => t.status == .exited
    if c.backs.isEmpty || !c.backsFilled || !(waiting || ended) then s
    else if s.settleHeld c then s.settleService core c
    else if waiting then
      (s.settleBacks core).onCore core fun k => k.onCrew fun c =>
        { c with rspill := if c.rspill = BitVec.allOnes 32 then c.rspill else c.rspill + 1#32 }
    else (s.settleBacks core).settleEnd core

def execBackwardSettle (core : Nat) (s : State) : Result := .next (s.backwardSettle core)

/-! ### Lane evaluations (R304, R305) -/

/-- The three lane-issued commands. -/
inductive NetOp where
  | eval | evalg | bwd
  deriving DecidableEq, Repr

/-- The handle word's place in the bundle, the bundle's words and the result group's, for a bound network. (DEDUCED, log entry 54.) -/
def NetOp.slot : NetOp → Nat | .evalg => 2 | _ => 0
def NetOp.words (k : NetOp) (n : Net) : Nat := match k with | .eval => 1 + n.nin | .evalg => 3 | .bwd => 1 + n.nin + n.nout
def NetOp.outs (k : NetOp) (n : Net) : Nat := match k with | .bwd => n.nin | _ => n.nout

/-- The network that a lane's handle word names. -/
def State.laneNet (s : State) (core : Nat) (k : NetOp) (o : R2) (v : View) : Option (Handle × Net) :=
  ((s.coreAt core).handleAt (bitsOf (v.word o.a k.slot) 5 0)).map fun h => (h, Net.of h.net)

/-- The failure of R304 of one lane. -/
def netFail (k : NetOp) (o : R2) (v : View) (h : Option (Handle × Net)) : Option Nat :=
  match h with
  | none => some 5
  | some (_, n) =>
    let wide : Bool := match k with
      | .eval => decide (n.nin > 32) || decide (n.nout > 16)
      | .evalg => decide (n.nout > 16)
      | .bwd => decide (n.nin + n.nout > 48) || decide (n.nout > 16)
    if !v.th.groupOk o.d.toNat (k.outs n) || !v.th.groupOk o.a.toNat (k.words n) || wide ||
        bitsOf (v.word o.a k.slot) 31 6 ≠ 0 then some 3 else none

/-- The operands that are checked before the network is known, and those that a bound network adds. -/
def netFirst (k : NetOp) (o : R2) : Opnds :=
  { srcs := Src.r o.a o.f :: (match k with | .evalg => [Src.r (bundleFld o 1) false, Src.r (bundleFld o 2) false] | _ => []), dsts := [⟨o.d, 1⟩], laneOnly := true }
def netRest (k : NetOp) (o : R2) (n : Net) : Opnds :=
  { srcs := (List.range (k.words n - 1)).map fun i => Src.r (bundleFld o (i + 1)) false, dsts := [⟨o.d, k.outs n⟩] }

/-- The trap of the earliest check among several verdicts. -/
def firstTrap (l : List Verdict) : Option Trap :=
  l.foldl (fun b v => match v, b with
    | .trap t, none => some t
    | .trap t, some u => if t.stage < u.stage then some t else b
    | _, _ => b) none

/-- The verdicts of the parts of one access together: each check of R234 is made of every part before the next, and a page walk comes
before the checks of rights. -/
def gather (l : List Verdict) : Verdict :=
  let wait := l.find? fun v => match v with | .wait _ => true | _ => false
  match firstTrap l with
  | some t => if t.stage < stageRights then .trap t else wait.getD (.trap t)
  | none => wait.getD .ok

/-- The checks of R234 of one input word. A STATE page takes LD and ST alone (R372). -/
def State.inputWord (s : State) (core : Nat) (v : View) (va : W64) : Verdict :=
  match s.check core v.th.unwatched { va, n := 4, rd := true, wr := false } with
  | .error e => e
  | .ok h => if h.state then .trap (trapAt stageRights Cause.prot 4 va) else .ok

/-- The places of NE.EVALG's inputs. -/
def State.inputPlaces (s : State) (core : Nat) (v : View) (va : W64) (n : Nat) : List Loc :=
  (List.range n).filterMap fun i => s.recordLoc core v (va + BitVec.ofNat 64 (4 * i)) 4

/-- The check of NE.EVALG's inputs: aligned to 16, and every word readable (R234). They are one load (R220), and cross the bridge as one. -/
def State.inputVerdict (s : State) (core : Nat) (v : View) (va : W64) (n : Nat) : Verdict :=
  let at' (i : Nat) : W64 := va + BitVec.ofNat 64 (4 * i)
  if !canonical va then .trap (trapAt stageCanon Cause.prot 0 va)
  else if va.toNat % 16 ≠ 0 then .trap (trapAt stageAlign Cause.misalign 0 va)
  else ((gather ((List.range n).map fun i => s.inputWord core v (at' i))).andThen
    (gather ((List.range n).map fun i => s.readVerdict core v (at' i) 4))).andThen
      (s.siteVerdict core v.th va ((s.inputPlaces core v va n).map Loc.base).eraseDups)

/-- The verdict of one lane. (DEDUCED, log entry 54.) -/
def State.netVerdict (s : State) (core : Nat) (k : NetOp) (o : R2) (lanes : Nat) (v : View) : Verdict :=
  let n0 := match k with | .evalg => 3 | _ => 1
  let opn := netFirst k o
  if !v.th.bundleOk o.a n0 (k == .evalg) then .trap (trapOpen Machine.stageField Cause.illegal 5)
  else match opn.decodeTrap v.th with
    | some t => .trap t
    | none =>
      let replay := ((s.coreAt core).crew.map (·.replay)).getD false
      ((({ opn with dsts := [] } : Opnds).readVerdict v).andThen (match s.laneNet core k o v with
        | none => (.ok : Verdict)
        | some (h, n) =>
          if (netFail k o v (some (h, n))).isSome then .ok
          else
            ((((netRest k o n).readVerdict v).andThen (s.orderVerdict core v.th)).andThen
              (match n.tables.find? fun t => ((s.coreAt core).tableAt t).held with
                | some t => .wait (.swap t)
                | none => .ok)).andThen
              (if k = .bwd ∧ replay ∧ ((s.coreAt core).crew.map fun c => c.backsFull lanes).getD false then .wait (.backward lanes)
               else .ok))).andThen
        (match k, s.laneNet core k o v with
          | .evalg, some (_, n) => s.inputVerdict core v (v.rd64 o.a) n.nin
          | _, _ => (.ok : Verdict))

/-- The lanes of the run at such a command: as at any collective one, but that PAGEFAULTs stop only their own lanes. -/
def splitNet (l : List (Thread × Verdict)) : Split :=
  let tr := trapsOf l
  if tr.isEmpty || !(waitsOf l).isEmpty || (tr.any fun x => x.2.stage != stageFault) then splitAll l
  else { go := oksOf l, traps := [takeTrap tr] }

/-- The words of NE.EVALG's inputs, read as one load in M at the issue. -/
def State.readInputs (s : State) (core : Nat) (l : List Loc) : State × List W32 :=
  let s := l.foldl (fun s x => s.settle x 4) s
  (s.stampAll core (l.map Loc.base).eraseDups [], l.map fun x => BitVec.ofNat 32 (s.rd x 4))

/-- The open tile that a row of a binding joins (R299). A tile whose launch is due takes no more rows, and is open no longer while it waits
for an entry of its queue. -/
def Core.joins (k : Core) (h : Handle) (bwd : Bool) : Option Nat := k.tiles.findIdx? fun t => t.bind == h.bind && t.bwd == bwd && !t.due k.cycle
/-- Whether a row finds a place: 8 tiles may be open. -/
def Core.rowRoom (k : Core) (h : Handle) (bwd : Bool) : Bool :=
  (k.joins h bwd).isSome || decide ((k.tiles.filter fun t => !t.due k.cycle).length < 8)
/-- Place a row in the open tile of its binding, or in a new one (R299). -/
def Core.placeRow (k : Core) (h : Handle) (handle : Nat) (bwd : Bool) (sect nwin : Nat) (r : Row) : Core :=
  match k.joins h bwd with
  | some i => { k with tiles := k.tiles.zipIdx.map fun (t, j) => if j = i then { t with rows := t.rows ++ [r] } else t }
  | none =>
    let t : Tile :=
      { net := h.net, handle, bind := h.bind, bwd, rows := [r], opened := k.cycle, nwin, sect, full := nwin == 0, ctx := r.ctx }
    { k with tiles := k.tiles ++ [t] }

/-- The result group of an evaluation: empty until its tile delivers. -/
def View.produceEval (v : View) (ds : List Dst) (tables : List Nat) (ord handle : Nat) : View :=
  let id := v.th.serial
  (v.produce .carafe ds none 0 tables).onTh fun t =>
    { t with pending := t.pending.map fun p => if p.id = id then { p with eval := some (ord, handle) } else p }

/-- One lane hands its row to the Carafe: its result group is empty until the tile delivers. A lane that finds no tile parks before it reads
anything. -/
def State.evalLane (s : State) (core : Nat) (k : NetOp) (o : R2) (opn : Opnds) (tid : W32) : State :=
  match s.view? core tid with
  | none => s
  | some v =>
    match s.laneNet core k o v with
    | none => s
    | some (h, n) =>
      if !(s.coreAt core).rowRoom h (k == .bwd) then s.setStatus core tid (.parked .tile)
      else
        let x := s.ctxOf core v.th
        let l := if k = .evalg then s.inputPlaces core v (v.rd64 o.a) n.nin else []
        let unseen := (opn.srcs.any v.unwritten) || l.any fun p => s.padUnwritten p 4
        let (s, ins) := match k with
          | .evalg => s.readInputs core l
          | _ => (s, (List.range n.nin).map fun i => v.word o.a (1 + i))
        let gamma := match k with
          | .bwd => (List.range n.nout).map fun i => v.word o.a (1 + n.nin + i)
          | _ => []
        let ord := s.serial + 1
        let seq := s.seqOf { core, eng := .carafe }
        let handle := bitsOf (v.word o.a k.slot) 5 0
        let row : Row := { ctx := x, pend := v.th.serial, ord, x := ins, gamma, seq }
        let c := (s.coreAt core).placeRow h handle (k == .bwd) v.th.place.sect v.th.ctl.nwin.toNat row
        let s := ({ s.putCore c with serial := ord }).bumpSeq { core, eng := .carafe }
        let s := s.onThread core tid fun v => (v.produceEval (v.th.refs o.d (k.outs n)) n.tables ord handle).commit 4#64
        let s := if k = .bwd then s.onCore core fun c => c.onCrew fun w =>
            { w with backCnt := w.backCnt + 1,
                     backs := if x.replay then w.backs ++ [{ tid, order := ord, ctx := x, terms := none, wants := none, refused := false }] else w.backs }
          else s
        ((s.traceCmd 3 x 8 seq 0).noteSeen core tid unseen).launchAll core

/-- The operands of a lane's evaluation, once its descriptor is known. -/
def State.netOpnds (s : State) (core : Nat) (k : NetOp) (o : R2) (v : View) : Opnds :=
  match s.laneNet core k o v with
  | none => netFirst k o
  | some (_, n) => { netRest k o n with srcs := (netFirst k o).srcs ++ (netRest k o n).srcs }

/-- The given lanes hand their rows over, in ascending order. -/
def State.evalLanes (s : State) (core : Nat) (k : NetOp) (o : R2) (opn : View → Opnds) (tids : List W32) : State :=
  tids.foldl (fun s tid =>
    match s.view? core tid with
    | none => s
    | some v => s.actQm (opn v) (fun _ s => s.evalLane core k o (opn v) tid) [tid]) s

/-- The issue of NE.EVAL, NE.EVALG or NE.BWD: failing lanes take one trap together, the others hand their rows over. -/
def netCmd (k : NetOp) (o : R2) (s : State) : Result :=
  let core := s.issue.core
  let passing := s.run.filter fun v => (netFail k o v (s.laneNet core k o v)).isNone
  let sp := splitNet (s.verdicts (s.netVerdict core k o passing.length))
  let bad := (s.run.filter fun v => sp.go.contains v.th.ident.tid).filterMap fun v =>
    (netFail k o v (s.laneNet core k o v)).map fun sub => (v.th.ident.tid, trapAt 40 Cause.engine sub (o.a.setWidth 64))
  let go := sp.go.filter fun t => !(bad.map (·.1)).contains t
  .next (s.applySplit {} { sp with go, traps := sp.traps ++ (if bad.isEmpty then [] else [bad]) } fun tids s' =>
    s'.evalLanes core k o (s.netOpnds core k o) tids)

def execNeEval (o : R2) (s : State) : Result := netCmd .eval o s
def execNeEvalg (o : R2) (s : State) : Result := netCmd .evalg o s
def execNeBwd (o : R2) (s : State) : Result := netCmd .bwd o s

/-! ### Tiles (R299 to R302) -/

def execTileLaunch (core tile : Nat) (s : State) : Result := .next (s.launchTile core tile)

/-- The places of the gradient words that a row outside replay mode adds to. -/
def State.gradPlaces (s : State) (n : Net) (bwd : Bool) (r : Row) : List Site :=
  if bwd && !r.ctx.replay && n.grad != 0#64 && decide (n.grad.toNat + 4 * n.gradBase n.layers.length ≤ 2 ^ 64) then
    (List.range (n.gradBase n.layers.length)).map fun i => s.gradPlace r.ctx false (n.grad + BitVec.ofNat 64 (4 * i))
  else []

/-- Whether the host has refused a row a page (R301). -/
def Row.lacks (r : Row) (m : Miss) : Bool := r.denied.contains (m.va.toNat / 65536)

/-- What a row waits for: pages of its weights, unless one of them is refused to it, and of its gradient words. -/
def State.rowMisses (s : State) (n : Net) (bwd : Bool) (r : Row) : List Miss :=
  let net := pageMisses (s.netPlaces r.ctx false n)
  (if net.any r.lacks then [] else net) ++ (pageMisses (s.gradPlaces n bwd r)).filter fun m => !r.lacks m

/-- The first miss of a row that a page would mend, with the row. -/
def State.rowWants (s : State) (n : Net) (bwd : Bool) (rows : List Row) : Option (Row × W64) :=
  rows.findSome? fun r => ((s.rowMisses n bwd r).find? fun m => m.code == 0).map fun m => (r, m.va)

/-- The host refuses a page: every row that reaches it by that address has it refused. -/
def Row.deny (x : CmdCtx) (va : W64) (r : Row) : Row :=
  if r.ctx.ptbase = x.ptbase ∧ r.ctx.sys = x.sys ∧ (windowOf va ≠ some 1 ∨ r.ctx.locbase = x.locbase) then
    { r with denied := va.toNat / 65536 :: r.denied }
  else r

/-- The pad lines that a row reads. -/
def State.rowReads (s : State) (n : Net) (bwd : Bool) (r : Row) : List Nat :=
  ((placesOf (s.netPlaces r.ctx false n ++ s.gradPlaces n bwd r)).filterMap Loc.padLine).eraseDups

/-- Land a thread's Carafe results that are bound, in their issue order, up to the first that is not (R300). -/
def View.landCarafe (v : View) : Nat → View
  | 0 => v
  | k + 1 => match v.th.pending.find? fun p => p.kind == .carafe with
    | none => v
    | some p => if p.vals.isSome then (v.land p).landCarafe k else v

/-- Bind a row's results, or zeros with a failure mark (R301): an error is whether the row met an uncorrectable one. -/
def State.bindRow (s : State) (core handle : Nat) (r : Row) (out : Except Bool (List Nat)) : State :=
  s.onThread core r.ctx.tid fun v =>
    let v := v.onTh fun t => { t with pending := t.pending.map fun p =>
      if p.id = r.pend ∧ p.kind = .carafe then
        match out with
        | .ok l => { p with vals := some (l.map enc32) }
        | .error flawed => { p with vals := some (p.dst.map fun _ => 0#32), mark := .carafe r.ord handle flawed }
      else p }
    v.landCarafe v.th.pending.length

/-- The result of one row: its outputs and its contributions; where its weights could not be read, whether an uncorrectable error was
the reason. -/
def State.rowOut (s : State) (core : Nat) (n : Net) (bwd : Bool) (r : Row) : Except Bool (List Nat × List (W64 × Nat × Nat)) :=
  let errs := errsOf (s.netPlaces r.ctx true n)
  if !errs.isEmpty then .error (errs.any fun m => m.code == 2)
  else
    let m := s.netMem r.ctx n
    let bank := (s.coreAt core).banks
    let x := r.x.map (·.toNat)
    if bwd then
      let fw := n.run m bank x
      let (dx, ls) := n.backFrom m bank fw n.layers.length (r.gamma.map (·.toNat))
      .ok (dx, n.contribs ls)
    else .ok (n.output m bank x, [])

/-- The contributions of a row that delivered. -/
def rowTerms (x : Row × Except Bool (List Nat × List (W64 × Nat × Nat))) : List (W64 × Nat × Nat) :=
  match x.2 with
  | .ok y => y.2
  | .error _ => []

/-- The sums of a tile's contributions, each with its word: what each row adds lies where its own lane's context puts it (R274), and each
word's sum is in ascending row order (R306). -/
def State.rowSums (s : State) (l : List (CmdCtx × List (W64 × Nat × Nat))) : List (Loc × Nat) :=
  let all := l.flatMap fun (x, ts) => ts.filterMap fun t => match s.gradPlace x true t.1 with
    | .ok p => some (p, t.2.1, t.2.2)
    | .error _ => none
  (all.map (·.1)).eraseDups.map fun p => (p, (all.filter fun c => c.1 == p).foldl (fun t c => fma32 c.2.1 c.2.2 t) 0)
def State.applySums (s : State) (core : Nat) (l : List (Loc × Nat)) : State :=
  s.gradEach core (l.map fun x => (x.1, .add 0#64 (enc32 x.2)))

/-- A place of a tile's network that is homed on the other die, which its reads cross the bridge for (R391). (DEDUCED, log entry
127.) -/
def State.farRow (s : State) (core : Nat) (n : Net) (rows : List Row) : Option W64 :=
  if (rows.flatMap fun r => placesOf (s.netPlaces r.ctx true n)).any fun l => l.homeDie (dieOfCore core) != dieOfCore core then
    some ((n.layers.head?.map (·.w)).getD 0#64)
  else none

/-- A tile delivers: each row to its lane, and the gradients to their buffer or to the backward store. Where a transfer of it was lost on
the bridge no row has a result (R301, R393). -/
def State.tileOut (s : State) (r : EngRef) (c : Cmd) (n : Net) (handle : Nat) (bwd : Bool) (rows : List Row) : State :=
  let core := r.core
  let s := rows.foldl (fun s r => s.settleTables r.ctx.ptbase) s
  let s := rows.foldl (fun s r => (placesOf (s.netPlaces r.ctx true n)).foldl (fun s l => s.engTouch core l) s) s
  let outs := rows.map fun r => (r, if c.lost then .error true else s.rowOut core n bwd r)
  let s := outs.foldl (fun s x => s.bindRow core handle x.1 (x.2.map (·.1))) s
  let s := if bwd then
      let s := ((outs.filter fun x => x.1.ctx.replay)).foldl (fun s x => s.fillBack core x.1.ctx.tid x.1.ord
        ((rowTerms x).map fun t => .fma t.1 (enc32 t.2.1) (enc32 t.2.2))) s
      s.applySums core (s.rowSums ((outs.filter fun x => !x.1.ctx.replay).map fun x => (x.1.ctx, rowTerms x)))
    else s
  let s := s.onCore core fun k => k.onSect (match r.eng with | .matrix j => j | _ => 0) fun y =>
    y.useSub s.arith (subArrays rows.length (n.widths.foldl max 0))
  let s := rows.foldl (fun s r => s.traceCmd 4 r.ctx 8 r.seq 0) s
  (s.onQueue r fun q => q.filter fun x => x.id != c.id).settleEnd core

/-- A tile at the head of its matrix queue goes on. It waits for the pages of its networks, for the pad lines that earlier commands have
still to deliver (R199), for the bridge where its network is homed on the other die, and while the host's stop holds the Carafe (R381). -/
def State.deliverTile (s : State) (core sect : Nat) : State :=
  let r : EngRef := { core, eng := .matrix sect }
  match ((s.coreAt core).sectAt sect).mq with
  | [] => s
  | c :: _ =>
    match c.op with
    | .tile net handle _ bwd rows =>
      let n := Net.of net
      match rows.flatMap (s.rowMisses n bwd) with
      | m :: l => s.awaitPage r c (m :: l)
      | [] =>
        if s.stopped { core, eng := .carafe } || !(rows.all fun x => s.linesFree x.ord (s.rowReads n bwd x)) || s.crossing c then s
        else match (if c.stage = 0 then s.farRow core n rows else none) with
          | some va => (s.cross (.cmd r c.id va) (1 - dieOfCore core)).onCmd r c.id fun x => { x with stage := 1 }
          | none => s.tileOut r c n handle bwd rows
    | _ => s

def execTileDelivery (core sect : Nat) (s : State) : Result := .next (s.deliverTile core sect)

end Sys2Proof.Machine
end

