-- ==== Sys2Proof/Machine/Descent.lean ====
section
/-! DEFINITION. Tree descent (R308 to R314). -/

namespace Sys2Proof.Machine
open Sys2Proof

/-- A tree descriptor (R308). -/
structure Tree where
  base   : W64
  stride : Nat
  depth  : Nat
  bf     : Bool
  k      : Nat
  qs     : Nat
  sa     : Nat
  sb     : Nat
  resv   : Bool
  deriving DecidableEq, Repr

def Tree.of (w : List W32) : Tree :=
  { base := pairAt w 0, stride := (wordAt w 2).toNat, depth := fieldIn w 3 4 0, bf := (wordAt w 3).getLsbD 8,
    k := fieldIn w 3 31 16, qs := (wordAt w 4).toNat, sa := (wordAt w 5).toNat, sb := (wordAt w 6).toNat,
    resv := fieldIn w 3 7 5 != 0 || fieldIn w 3 15 9 != 0 || (List.range 9).any fun i => wordAt w (7 + i) != 0#32 }

def Tree.e (t : Tree) : Nat := if t.bf then 2 else 1
def Tree.fmt (t : Tree) : MFmt := if t.bf then .bf16 else .e4m3
def Tree.bad (t : Tree) : Bool :=
  t.resv || t.base.toNat % 16 != 0 || t.stride % 16 != 0 || decide (t.stride < 16 + t.k * t.e) || t.depth == 0 ||
  decide (t.depth > 16) || decide (t.k < 16) || decide (t.k > 1024) || t.k % 16 != 0

/-- The bytes of the nodes of a tree. -/
def Tree.bytes (t : Tree) : Nat := (2 ^ t.depth - 1) * t.stride

/-- Bytes from `off` of a node. -/
def State.nodeBytes (s : State) (c : Cmd) (t : Tree) (i off n : Nat) : List Site :=
  s.engBytes c true false (t.base + BitVec.ofNat 64 (i * t.stride + off)) n
/-- What a node reads: its bias and its weights. -/
def State.nodePlaces (s : State) (c : Cmd) (t : Tree) (i : Nat) : List Site :=
  s.nodeBytes c t i 0 4 ++ s.nodeBytes c t i 16 (t.k * t.e)
def State.nodeBias (s : State) (c : Cmd) (t : Tree) (i : Nat) : Nat := leNat ((placesOf (s.nodeBytes c t i 0 4)).map s.rdByte)
def State.nodeWeights (s : State) (c : Cmd) (t : Tree) (i : Nat) : List Nat :=
  let b := (placesOf (s.nodeBytes c t i 16 (t.k * t.e))).map s.rdByte
  (List.range t.k).map fun k => leNat ((b.drop (k * t.e)).take t.e)

/-- The descent of a row (R309): the node reached after each level, and the dot values. A node that cannot be read ends it. -/
def State.descend (s : State) (c : Cmd) (t : Tree) (q : List Nat) : Nat → Nat → List Miss × List (Nat × Nat)
  | 0, _ => ([], [])
  | n + 1, i =>
    let e := errsOf (s.nodePlaces c t i)
    if !e.isEmpty then (e, [])
    else
      let (sa, sb) := if t.bf then (oneF32, oneF32) else (t.sa, t.sb)
      let dot := netDot t.fmt sa sb (s.nodeBias c t i) (s.nodeWeights c t i) q
      let (errs, r) := s.descend c t q n (if positive32 dot then 2 * i + 2 else 2 * i + 1)
      (errs, (i, dot) :: r)

/-- The node at level j of the path to a leaf. -/
def pathNode (d leaf j : Nat) : Nat := 2 ^ j - 1 + leaf / 2 ^ (d - j)

/-! ### Slots (R311, R312) -/

/-- The section and the slot that a slot word names. -/
def slotOf (v : View) (w : W32) : Nat × Nat := (if v.th.sfe then bitsOf w 5 4 else v.th.place.sect, bitsOf w 2 0)
def State.slotAt (s : State) (core : Nat) (p : Nat × Nat) : Option PathSlot :=
  ((s.coreAt core).sectAt p.1).paths.getD p.2 none
/-- Bits of a slot word that must be 0. -/
def slotBad (w : W32) : Bool := bitsOf w 31 6 != 0

/-- The bytes of a trace of R rows. -/
def traceBytes (r : Nat) : Nat := 16 + 80 * r
/-- Word i of the trace at T. -/
def State.traceWord (s : State) (core t i : Nat) : Nat := s.rd (.pad core (t + 4 * i)) 4

/-- The row count that the trace at T has when a command issues: of the last TD.DESC in the section's queue that writes it,
or as it stands. (DEDUCED, log entry 55.) -/
def State.rowsAt (s : State) (core : Nat) (p : Nat × Nat) (t : Nat) : Nat :=
  match ((((s.coreAt core).sectAt p.1).mq.filter fun c => c.op == .tdDesc && (wordAt c.cap 16).toNat == t).getLast?) with
  | some c => (wordAt c.words 2).toNat
  | none => s.traceWord core t 0

/-- What a TD command captures: its slot's descriptor, T and generation. -/
def slotCap (p : PathSlot) (gen : W32) : List W32 := p.desc ++ [BitVec.ofNat 32 p.t, gen]

/-! ### Issue (R313) -/

/-- TD.BIND binds at issue. -/
def tdBindForm (o : R2) (s : State) : EngForm :=
  let core := s.issue.core
  { card := { n := 4, pair := true }, who := s.leader, load := fun v => s.recordVerdict core v (v.rd64 o.a) 64,
    draft := fun v w =>
      let t := (wordAt w 3).toNat
      checked
        [(2, t % 128 != 0 || (s.ctxOf core v.th).past t (traceBytes 128), bundleFld o 3),
         (3, (Tree.of (s.recordWords core v (pairAt w 0) 64)).bad, o.a), (3, slotBad (wordAt w 2), bundleFld o 2)]
        { ref := { core, eng := .matrix (slotOf v (wordAt w 2)).1 }, op := .tdBind,
          load := (s.recordLoc core v (pairAt w 0) 64).map fun l => (l, 64), fills := [v.th.ident.tid] },
    effect := fun v w s =>
      let p := slotOf v (wordAt w 2)
      let d := s.recordWords core v (pairAt w 0) 64
      s.onCore core fun k => k.onSect p.1 fun y =>
        { y with paths := modifyAt none (fun _ => some { desc := d, t := (wordAt w 3).toNat, gen := 0#32 }) p.2 y.paths } }
def execTdBind (o : R2) (s : State) : Result := .next (s.engIssue o (tdBindForm o s))

/-- Count a TD.DESC of a slot. -/
def State.bumpGen (s : State) (core : Nat) (p : Nat × Nat) : State :=
  s.onCore core fun k => k.onSect p.1 fun y =>
    { y with paths := modifyAt none (fun q => q.map fun x => { x with gen := x.gen + 1#32 }) p.2 y.paths }

def tdDescForm (o : R2) (s : State) : EngForm :=
  let core := s.issue.core
  { card := { n := 3 }, who := s.leader,
    draft := fun v w =>
      let p := slotOf v (wordAt w 0)
      let sl := s.slotAt core p
      let t := Tree.of ((sl.map (·.desc)).getD [])
      let x := (wordAt w 1).toNat
      let r := (wordAt w 2).toNat
      checked
        [(2, x % 16 != 0 || (sl.isSome && (s.ctxOf core v.th).past x (r * 4 * t.k)), bundleFld o 1),
         (3, slotBad (wordAt w 0), o.a), (3, r == 0 || decide (r > 128), bundleFld o 2), (5, sl.isNone, o.a)]
        { ref := { core, eng := .matrix p.1 }, op := .tdDesc, cap := (sl.map fun q => slotCap q (q.gen + 1#32)).getD [], reach := [(t.base, t.bytes)],
          lines := padLines core ((sl.map (·.t)).getD 0) (traceBytes r), fills := [v.th.ident.tid] },
    effect := fun v w s => s.bumpGen core (slotOf v (wordAt w 0)) }
def execTdDesc (o : R2) (s : State) : Result := .next (s.engIssue o (tdDescForm o s))

/-- A backward command takes its entry of the backward store at issue (R306). -/
def State.takeBack (s : State) (core : Nat) (t : Thread) : State :=
  let x := s.ctxOf core t
  s.onCore core fun k => k.onCrew fun c =>
    { c with backCnt := c.backCnt + 1,
             backs := if x.replay then c.backs ++ [{ tid := x.tid, order := s.serial, ctx := x, terms := none, wants := none, refused := false }] else c.backs }

def tdBwdForm (o : R2) (s : State) : EngForm :=
  let core := s.issue.core
  { card := { n := 5, pair := true }, who := s.leader,
    draft := fun v w =>
      let p := slotOf v (wordAt w 2)
      let sl := s.slotAt core p
      let t := Tree.of ((sl.map (·.desc)).getD [])
      let r := s.rowsAt core p ((sl.map (·.t)).getD 0)
      let g := (wordAt w 3).toNat
      let dx := (wordAt w 4).toNat
      let c := s.ctxOf core v.th
      checked
        [(2, g % 16 != 0 || (sl.isSome && c.past g (64 * r)), bundleFld o 3),
         (2, dx % 16 != 0 || (sl.isSome && c.past dx (4 * t.k * r)), bundleFld o 4),
         (3, (pairAt w 0).toNat % 4 != 0, o.a), (3, slotBad (wordAt w 2), bundleFld o 2), (5, sl.isNone, bundleFld o 2)]
        { ref := { core, eng := .matrix p.1 }, op := .tdBwd, cap := (sl.map fun q => slotCap q q.gen).getD [], reach := [(t.base, t.bytes), (pairAt w 0, t.bytes)],
          backs := if c.replay then 1 else 0, lines := padLines core dx (4 * t.k * r), fills := [v.th.ident.tid] },
    effect := fun v _ s => s.takeBack core v.th }
def execTdBwd (o : R2) (s : State) : Result := .next (s.engIssue o (tdBwdForm o s))

def tdPathForm (o : R2) (s : State) : EngForm :=
  let core := s.issue.core
  { card := { n := 2 }, who := s.leader,
    draft := fun v w =>
      let p := slotOf v (wordAt w 0)
      let sl := s.slotAt core p
      let r := s.rowsAt core p ((sl.map (·.t)).getD 0)
      let dst := (wordAt w 1).toNat
      checked
        [(2, dst % 16 != 0 || (sl.isSome && (s.ctxOf core v.th).past dst (32 * r)), bundleFld o 1),
         (3, slotBad (wordAt w 0), o.a), (5, sl.isNone, o.a)]
        { ref := { core, eng := .matrix p.1 }, op := .tdPath, cap := (sl.map fun q => slotCap q q.gen).getD [],
          lines := padLines core dst (32 * r), fills := [v.th.ident.tid] } }
def execTdPath (o : R2) (s : State) : Result := .next (s.engIssue o (tdPathForm o s))

/-! ### Completion -/

/-- The FP32 inputs of row r at X. -/
def State.rowInputs (s : State) (core x k r : Nat) : List Nat := (List.range k).map fun i => s.rd (.pad core (x + 4 * (r * k + i))) 4

/-- The nodes of a tree. -/
def Tree.nodes (t : Tree) : List Nat := List.range (2 ^ min t.depth 16 - 1)

/-- The pad lines that the nodes of a tree lie in: which of them a command reads it finds out as it goes. -/
def State.treeLines (s : State) (c : Cmd) (t : Tree) : List Nat :=
  (t.nodes.flatMap fun i => s.linesIn c.ctx true false (t.base + BitVec.ofNat 64 (i * t.stride)) (16 + t.k * t.e)).eraseDups

/-- The pad lines that the gradient words of a TD.BWD lie in: it reads them as it adds. -/
def State.treeGrads (s : State) (c : Cmd) (t : Tree) : List Nat :=
  let n := 4 + 4 * t.k
  if c.ctx.replay || pairAt c.words 0 == 0#64 then []
  else (t.nodes.flatMap fun i => s.linesIn c.ctx true true (pairAt c.words 0 + BitVec.ofNat 64 (i * n)) n).eraseDups

/-- The pad lines that a TD command reads. -/
def State.tdReads (s : State) (c : Cmd) : List Nat :=
  let core := c.ctx.core
  let t := Tree.of c.cap
  let tr := (wordAt c.cap 16).toNat
  let r := s.traceWord core tr 0
  match c.op with
  | .tdDesc => padLines core (wordAt c.words 1).toNat (4 * t.k * (wordAt c.words 2).toNat) ++ s.treeLines c t
  | .tdPath => padLines core tr (traceBytes (min r 128))
  | .tdBwd => padLines core tr (traceBytes (min r 128)) ++ padLines core (wordAt c.words 3).toNat (64 * min r 128) ++
      padLines core (s.traceWord core tr 2) (4 * t.k * min r 128) ++ s.treeLines c t ++ s.treeGrads c t
  | _ => []

/-- TD.DESC: every row descends, and the trace of R311 is written. -/
def State.completeTdDesc (s : State) (r : EngRef) (c : Cmd) : State :=
  let core := c.ctx.core
  let t := Tree.of c.cap
  let x := (wordAt c.words 1).toNat
  let n := (wordAt c.words 2).toNat
  let tr := (wordAt c.cap 16).toNat
  let s1 := s.touchPad core x (4 * t.k * n)
  let seen := s1.settledView
  let rows := (List.range n).map fun i =>
    let (errs, path) := seen.descend c t ((s1.rowInputs core x t.k i).map (quant t.bf t.qs)) t.depth 0
    (i, s1.flaws (.pad core (x + 4 * t.k * i)) (4 * t.k) ++ errs, path)
  let word (i v : Nat) (src : List Miss) : Mv :=
    { unit := (tr + 4 * i) / 128 - tr / 128, src := src.map .error, val := v, bits := 32, dst := c.padBytes (tr + 4 * i) 4 }
  let head := [word 0 n [], word 1 (t.depth + 65536 * t.k) [], word 2 x [], word 3 (wordAt c.cap 17).toNat []]
  let body := rows.flatMap fun (i, errs, path) =>
    let b := 4 + 20 * i
    let leaf := match path.getLast? with
      | some (node, dot) => (if positive32 dot then 2 * node + 2 else 2 * node + 1) - (2 ^ t.depth - 1)
      | none => 0
    word b leaf errs :: ((List.range 16).map fun j => word (b + 1 + j) ((path[j]?.map (·.2)).getD 0) errs) ++
      (List.range 3).map fun j => word (b + 17 + j) 0 []
  let ms := head ++ body
  match mvStop ms with
  | some (0, _) => s.awaitPage r c (ms.flatMap Mv.errs)
  | _ =>
    let s1 := (rows.flatMap fun z => z.2.2.flatMap fun p => placesOf (s1.nodePlaces c t p.1)).foldl (fun s l => s.engTouch core l) s1
    let s1 := s1.onCore core fun k => match r.eng with
      | .matrix j => k.onSect j fun y => y.useSub s.arith (subArrays n 1)
      | _ => k
    s1.finishMoves r c ms n 0

/-- Whether the D and K of a trace header are those of the slot's descriptor, and its R rows fit the crew's pad. (DEDUCED, log entry 55.) -/
def State.headerOk (s : State) (c : Cmd) (t : Tree) (n : Nat) (ranges : List (Nat × Nat)) : Bool :=
  let w := s.traceWord c.ctx.core (wordAt c.cap 16).toNat 1
  w % 32 == t.depth && w / 65536 == t.k && (ranges.all fun p => !c.ctx.past p.1 (p.2 * n))

/-- The uncorrectable errors that a command meets in a trace's header, which end it before it writes, and in row i. -/
def State.headFlaws (s : State) (c : Cmd) : List Miss := s.flaws (.pad c.ctx.core (wordAt c.cap 16).toNat) 16
def State.rowFlaws (s : State) (c : Cmd) (i : Nat) : List Miss := s.flaws (.pad c.ctx.core ((wordAt c.cap 16).toNat + 16 + 80 * i)) 80

/-- TD.PATH: the nodes of each row's path. -/
def State.completeTdPath (s : State) (r : EngRef) (c : Cmd) : State :=
  let core := c.ctx.core
  let t := Tree.of c.cap
  let tr := (wordAt c.cap 16).toNat
  let dst := (wordAt c.words 1).toNat
  let n := s.traceWord core tr 0
  if !(s.headFlaws c).isEmpty then s.finishCmd r c 0 2
  else if !s.headerOk c t n [(tr + 16, 80), (dst, 32)] then s.finishCmd r c 0 4
  else
    let s1 := s.touchPad core tr (traceBytes n)
    let ms : List Mv := (List.range n).flatMap fun i =>
      let leaf := s1.traceWord core tr (4 + 20 * i) % 65536
      (List.range 16).map fun j =>
        let o := dst + 32 * i + 2 * j
        { unit := o / 128 - dst / 128, src := (s1.rowFlaws c i).map .error, val := if j < t.depth then pathNode t.depth leaf j else 0xFFFF,
          bits := 16, dst := c.padBytes o 2 }
    s1.finishMoves r c ms ((ms.map (·.unit)).eraseDups.length) 0

/-- The contributions of a TD.BWD (R314): for each word of a node's record, γ and the term, in ascending row order. -/
def State.treeContribs (s : State) (c : Cmd) (t : Tree) (n : Nat) : List (W64 × Nat × Nat) :=
  let core := c.ctx.core
  let gw := pairAt c.words 0
  let tr := (wordAt c.cap 16).toNat
  let x := s.traceWord core tr 2
  if gw = 0#64 then []
  else (List.range n).flatMap fun i =>
    let leaf := s.traceWord core tr (4 + 20 * i) % 65536
    let ins := s.rowInputs core x t.k i
    (List.range t.depth).flatMap fun j =>
      let g := s.rd (.pad core ((wordAt c.words 3).toNat + 64 * i + 4 * j)) 4
      (oneF32 :: ins).zipIdx.map fun (f, v) =>
        (gw + BitVec.ofNat 64 (pathNode t.depth leaf j * (4 + 4 * t.k) + 4 * v), g, f)

/-- TD.BWD: the gradients of the inputs, and those of the weights at once or through the backward store. -/
def State.completeTdBwd (s : State) (r : EngRef) (c : Cmd) : State :=
  let core := c.ctx.core
  let t := Tree.of c.cap
  let tr := (wordAt c.cap 16).toNat
  let n := s.traceWord core tr 0
  let x := s.traceWord core tr 2
  let g := (wordAt c.words 3).toNat
  let dx := (wordAt c.words 4).toNat
  let fillEmpty (s : State) (l : List GradTerm) : State := if c.ctx.replay then s.fillBack core c.ctx.tid c.id l else s
  if !(s.headFlaws c).isEmpty then (fillEmpty s []).finishCmd r c 0 2
  else if !s.headerOk c t n [(tr + 16, 80), (g, 64), (x, 4 * t.k), (dx, 4 * t.k)] then (fillEmpty s []).finishCmd r c 0 4
  else
    let s1 := ((s.touchPad core tr (traceBytes n)).touchPad core g (64 * n)).touchPad core x (4 * t.k * n)
    let seen := s1.settledView
    let gs := gradScale t.bf t.sa t.sb t.qs
    let dec (w : Nat) : Nat := (roundTo .f32 .rn 0 (mfDecode t.fmt w)).1
    let nodes (i : Nat) : List Nat := (List.range t.depth).map (pathNode t.depth (s1.traceWord core tr (4 + 20 * i) % 65536))
    let places := ((List.range n).flatMap nodes).eraseDups.flatMap fun i => s1.nodeBytes c t i 16 (t.k * t.e)
    let ms : List Mv := (List.range n).flatMap fun i =>
      let ws := (nodes i).map fun nd => (errsOf (s1.nodeBytes c t nd 16 (t.k * t.e)), seen.nodeWeights c t nd)
      let errs := s1.rowFlaws c i ++ s1.flaws (.pad core (g + 64 * i)) (4 * t.depth) ++ s1.flaws (.pad core (x + 4 * t.k * i)) (4 * t.k) ++
        ws.flatMap (·.1)
      (List.range t.k).map fun k =>
        let o := dx + 4 * (i * t.k + k)
        { unit := o / 128 - dx / 128, src := errs.map .error, bits := 32, dst := c.padBytes o 4,
          val := ws.zipIdx.foldl (fun acc p =>
            fma32 (mul32 (dec (p.1.2.getD k 0)) gs) (s1.rd (.pad core (g + 64 * i + 4 * p.2)) 4) acc) 0 }
    let terms := sumTerms (s1.treeContribs c t n)
    -- a gradient word that cannot be written ends the command as its own unit, after the input gradients
    let grads : List Mv := if c.ctx.replay then [] else terms.map fun y =>
      { unit := ceilDiv (dx % 128 + 4 * t.k * n) 128, src := (errsOf [s1.gradPlace c.ctx c.refused y.addr]).map .error, bits := 0, dst := [] }
    match mvStop (ms ++ grads) with
    | some (0, _) => s.awaitPage r c ((ms ++ grads).flatMap Mv.errs)
    | stop =>
      let s1 := (placesOf places).foldl (fun s l => s.engTouch core l) s1
      let live := terms.filter fun y => stop.isNone || Config.freeBool [16, s.free, y.addr.toNat]
      let s1 := if c.ctx.replay then fillEmpty s1 terms else s1.gradEach core (s1.gradSites c.ctx live)
      s1.finishMoves r c (ms ++ grads) n 0

end Sys2Proof.Machine
end

