-- ==== Sys2Proof/Machine/Physics.lean ====
section
/-! DEFINITION. The engines of environments: the Grinder, the Caver and the Press (R320 to R342). -/

namespace Sys2Proof.Machine
open Sys2Proof

/-! ### Ranges (R323) -/

/-- A range of an engine's bundle: its first byte, its length, the alignment of its offset and the word that names it. -/
structure Span where
  off  : Nat
  len  : Nat
  al   : Nat
  word : Nat
  deriving DecidableEq, Repr

def Span.meets (a b : Span) : Bool := decide (a.off < b.off + b.len ∧ b.off < a.off + a.len ∧ 0 < a.len ∧ 0 < b.len)

/-- Alignment and the end of ranges, against a limit. -/
def spanChecks (o : R2) (limit : Nat) (l : List Span) : EngChecks :=
  l.map fun x => (2, x.off % x.al != 0 || (x.len != 0 && decide (x.off + x.len > limit)), bundleFld o x.word)

/-- Every pair of a list, earlier first. -/
def pairsOf {α : Type} : List α → List (α × α)
  | [] => []
  | x :: r => r.map (fun y => (x, y)) ++ pairsOf r

/-- Ranges that must be apart; the later word of an overlapping pair is reported. -/
def apartChecks (o : R2) (l : List Span) : EngChecks :=
  (pairsOf l).map fun p => (3, p.1.meets p.2, bundleFld o (max p.1.word p.2.word))

/-! ### Reading and writing for an engine -/

/-- Reads of n bytes from a place: held terms settle, and the lines' timestamps move. -/
def State.touchRange (s : State) (core : Nat) (l : Loc) (n : Nat) : State :=
  if n = 0 then s
  else (List.range (ceilDiv (l.inLine + n) 128)).foldl (fun s i => s.stampLoad core (l.base.plus (128 * i))) (s.settle l n)

/-- A place in the cell memory of a command. -/
def Cmd.cel (c : Cmd) (off : Nat) : Loc := .cel (cellOf c.ctx.core) off
/-- Whether some of n bytes that an engine reads hold an uncorrectable error (R324). -/
def State.flawed (s : State) (l : Loc) (n : Nat) : Bool := !(s.flaws l n).isEmpty
/-- Whether some word of a box's record that an engine reads is: bytes 12 and 28 are ignored (R325). -/
def State.boxFlawed (s : State) (l : Loc) : Bool := s.flawed l 12 || s.flawed (l.plus 16) 12
/-- A place in the pad of a command. -/
def Cmd.padAt (c : Cmd) (off : Nat) : Loc := .pad c.ctx.core off

/-! ### Boxes (R325) -/

/-- FLE of R109. -/
def le32 (a b : Nat) : Bool := (f32 a).le (f32 b)
def lt32 (a b : Nat) : Bool := (f32 a).lt (f32 b)
def sub32 (a b : Nat) : Nat := (fAdd .f32 .rn 0 (f32 a) (f32 b).neg).1
def min32 (a b : Nat) : Nat := fminmax .f32 false a b
def max32 (a b : Nat) : Nat := fminmax .f32 true a b

/-- A box: its lower and its upper corner. -/
structure Aabb where
  lo : List Nat
  hi : List Nat
  deriving DecidableEq, Repr

def Aabb.overlaps (a b : Aabb) : Bool :=
  (List.range 3).all fun x => le32 (a.lo.getD x 0) (b.hi.getD x 0) && le32 (b.lo.getD x 0) (a.hi.getD x 0)

/-- The record at a place. -/
def State.boxAt (s : State) (l : Loc) : Aabb :=
  { lo := (List.range 3).map fun x => s.rd (l.plus (4 * x)) 4, hi := (List.range 3).map fun x => s.rd (l.plus (16 + 4 * x)) 4 }

/-! ### GR.SORT (R326) -/

/-- The fields of a sort's bundle; `w` is the key's size. -/
structure SortShape where
  w    : Nat
  key  : Nat
  val  : Option Nat
  n    : Nat
  scr  : Nat
  nb   : Nat
  lo   : Nat
  deriving DecidableEq, Repr

def SortShape.of (w64 : Bool) (w : List W32) : SortShape :=
  { w := if w64 then 8 else 4, key := (wordAt w 0).toNat,
    val := if wordAt w 1 = BitVec.allOnes 32 then none else some (wordAt w 1).toNat, n := (wordAt w 2).toNat,
    scr := (wordAt w 3).toNat, nb := fieldIn w 4 13 8, lo := fieldIn w 4 5 0 }

def SortShape.scratch (x : SortShape) : Nat := ceilDiv (x.w * x.n + (if x.val.isSome then 4 * x.n else 0)) 16 * 16
def SortShape.spans (x : SortShape) : List Span :=
  [⟨x.key, x.w * x.n, 16, 0⟩] ++ (match x.val with | none => [] | some v => [⟨v, 4 * x.n, 16, 1⟩]) ++ [⟨x.scr, x.scratch, 16, 3⟩]

def sortForm (w64 : Bool) (o : R2) (s : State) : EngForm :=
  let core := s.issue.core
  { card := { n := 5 }, who := s.leader,
    draft := fun v w =>
      let x := SortShape.of w64 w
      checked
        (spanChecks o (s.celsz (cellOf core)) x.spans ++ [(3, decide (x.n > 2 ^ 20), bundleFld o 2),
          (3, fieldIn w 4 31 14 != 0 || fieldIn w 4 7 6 != 0 || x.nb == 0 || decide (x.nb > 8 * x.w) || decide (x.lo + x.nb > 8 * x.w),
            bundleFld o 4)] ++ apartChecks o x.spans)
        { ref := { core, eng := .grinder }, op := .sort w64, now := x.n == 0, fills := [v.th.ident.tid] } }
def sortCmd (w64 : Bool) (o : R2) (s : State) : Result := .next (s.engIssue o (sortForm w64 o s))

def execGrSort32 (o : R2) (s : State) : Result := sortCmd false o s
def execGrSort64 (o : R2) (s : State) : Result := sortCmd true o s

/-- The field of a key that is sorted on. -/
def SortShape.fieldOf (x : SortShape) (k : Nat) : Nat := k / 2 ^ x.lo % 2 ^ x.nb

/-- A sort completes: a stable order by the field, and a scratch area of undefined values. Every key and value is read before one is
written, so that an uncorrectable one ends it with COUNT 0. -/
def State.completeSort (s : State) (r : EngRef) (c : Cmd) (w64 : Bool) : State :=
  let x := SortShape.of w64 c.words
  let core := c.ctx.core
  let s := s.touchRange core (c.cel x.key) (x.w * x.n)
  let s := match x.val with | none => s | some v => s.touchRange core (c.cel v) (4 * x.n)
  if s.flawed (c.cel x.key) (x.w * x.n) || (match x.val with | none => false | some v => s.flawed (c.cel v) (4 * x.n)) then
    s.finishCmd r c 0 2
  else
    let items := (List.range x.n).map fun i =>
      (s.rd (c.cel (x.key + x.w * i)) x.w, (x.val.map fun v => s.rd (c.cel (v + 4 * i)) 4).getD 0)
    let order := sortBy (fun (a b : Nat × Nat) => decide (x.fieldOf a.1 ≤ x.fieldOf b.1)) items
    let vals := match x.val with | none => [] | some v => valuesAt (c.cel v) 4 (order.map fun (x : Nat × Nat) => x.2)
    let scratch := (List.range (x.scratch / 4)).map fun i => (Config.freeWord [17, s.free, c.id, i]).toNat
    (s.storeEach core (valuesAt (c.cel x.key) x.w (order.map (·.1)) ++ vals ++ valuesAt (c.cel x.scr) 4 scratch)).finishCmd r c x.n 0

/-! ### GR.MORTON (R327) -/

/-- The ranges of a bundle: boxes, keys, indices, parameters. -/
def mortonSpans (w : List W32) : List Span :=
  let n := (wordAt w 3).toNat
  [⟨(wordAt w 0).toNat, 32 * n, 16, 0⟩, ⟨(wordAt w 1).toNat, 8 * n, 16, 1⟩, ⟨(wordAt w 2).toNat, 4 * n, 16, 2⟩,
   ⟨(wordAt w 4).toNat, 24, 16, 4⟩]

def grMortonForm (o : R2) (s : State) : EngForm :=
  let core := s.issue.core
  { card := { n := 5 }, who := s.leader,
    draft := fun v w =>
      checked
        (spanChecks o (s.celsz (cellOf core)) (mortonSpans w) ++ [(3, decide ((wordAt w 3).toNat > 2 ^ 20), bundleFld o 3)] ++
          apartChecks o ((mortonSpans w).take 3))
        { ref := { core, eng := .grinder }, op := .morton, now := wordAt w 3 == 0#32, fills := [v.th.ident.tid] } }
def execGrMorton (o : R2) (s : State) : Result := .next (s.engIssue o (grMortonForm o s))

/-- One coordinate of a key. -/
def mortonAxis (lo hi base scale : Nat) : Nat :=
  let c := mul32 (add32 lo hi) 0x3F000000
  let t := f32 (mul32 (sub32 c base) scale)
  if t.isNan || t.lt (.zero false) then 0
  else if !t.lt (.fin false 1 21) then 2 ^ 21 - 1
  else (t.toInt .rz 0).1.toNat

/-- The bits of a coordinate, three places apart. -/
def spread3 (q : Nat) : Nat := ((List.range 21).map fun b => if q.testBit b then 2 ^ (3 * b) else 0).sum

/-- A GR.MORTON completes. An uncorrectable byte ends it at a free box up to the first that it concerns. (DEDUCED, log entry 51.) -/
def State.completeMorton (s : State) (r : EngRef) (c : Cmd) : State :=
  let core := c.ctx.core
  let w := c.words
  let n := (wordAt w 3).toNat
  let box := (wordAt w 0).toNat
  let par := (wordAt w 4).toNat
  let s := (s.touchRange core (c.cel box) (32 * n)).touchRange core (c.cel par) 24
  let p (i : Nat) : Nat := s.rd (c.cel (par + 4 * i)) 4
  let bad := if s.flawed (c.cel par) 24 then some 0 else (List.range n).find? fun i => s.boxFlawed (c.cel (box + 32 * i))
  let m := match bad with | none => n | some i => (Config.freeWord [14, s.free, c.id]).toNat % (i + 1)
  let keys := (List.range m).map fun i =>
    let b := s.boxAt (c.cel (box + 32 * i))
    ((List.range 3).map fun x =>
      2 ^ x * spread3 (mortonAxis (b.lo.getD x 0) (b.hi.getD x 0) (p x) (p (3 + x)))).sum
  (s.storeEach core (valuesAt (c.cel (wordAt w 1).toNat) 8 keys ++ valuesAt (c.cel (wordAt w 2).toNat) 4 (List.range m))).finishCmd r c m
    (if bad.isSome then 2 else 0)

/-! ### GR.SAP (R328 to R330) -/

def sapSpans (w : List W32) : List Span :=
  let n := (wordAt w 4).toNat
  [⟨(wordAt w 2).toNat, 32 * n, 16, 2⟩, ⟨(wordAt w 3).toNat, 4 * n, 16, 3⟩]

/-- The descriptor is read as one load at issue; every fault of its own is sub-cause 3. -/
def grSapForm (o : R2) (s : State) : EngForm :=
  let core := s.issue.core
  { card := { n := 7, pair := true }, who := s.leader,
    draft := fun v w =>
      let d := s.stqOpen core v.th.space (pairAt w 0)
      checked
        (spanChecks o (s.celsz (cellOf core)) (sapSpans w) ++
          [(3, match d with | .ok _ => false | .error _ => true, o.a), (3, decide ((wordAt w 4).toNat > 2 ^ 20), bundleFld o 4)])
        { ref := { core, eng := .grinder }, op := .sap, now := wordAt w 4 == 0#32, fills := [v.th.ident.tid],
          load := match d with | .ok q => some (q.desc, 128) | .error _ => none } }
def execGrSap (o : R2) (s : State) : Result := .next (s.engIssue o (grSapForm o s))

/-- The words and boxes that a sweep reads: an order word, none where it is uncorrectable, and a box likewise. -/
structure SweepIn where
  order : List (Option Nat)
  box   : Nat → Option Aabb

/-- The sweep from box a through the order words behind it: the pairs emitted, and the status that ends the command, 0 for none. -/
def SweepIn.inner (y : SweepIn) (n a : Nat) (ba : Aabb) : List (Option Nat) → List (Nat × Nat) × Nat
  | [] => ([], 0)
  | none :: _ => ([], 2)
  | some b :: r =>
    if b ≥ n then ([], 4)
    else match y.box b with
      | none => ([], 2)
      | some bb =>
        if !le32 (bb.lo.getD 0 0) (ba.hi.getD 0 0) then ([], 0)
        else
          let (l, st) := y.inner n a ba r
          (if ba.overlaps bb then (a, b) :: l else l, st)

/-- The whole sweep over some order words. -/
def SweepIn.sweep (y : SweepIn) (n : Nat) : List (Option Nat) → List (Nat × Nat) × Nat
  | [] => ([], 0)
  | none :: _ => ([], 2)
  | some a :: r =>
    if a ≥ n then ([], 4)
    else match y.box a with
      | none => ([], 2)
      | some ba =>
        let (l, st) := y.inner n a ba r
        if st ≠ 0 then (l, st)
        else
          let (m, st) := y.sweep n r
          (l ++ m, st)

/-- What the sweep of a GR.SAP reads. -/
def State.sweepIn (s : State) (c : Cmd) : SweepIn :=
  let at32 (off : Nat) : Option Nat := if s.flawed (c.cel off) 4 then none else some (s.rd (c.cel off) 4)
  { order := (List.range (wordAt c.words 4).toNat).map fun i => at32 ((wordAt c.words 3).toNat + 4 * i),
    box := fun i =>
      let l := c.cel ((wordAt c.words 2).toNat + 32 * i)
      if s.boxFlawed l then none else some (s.boxAt l) }

/-- The start of a GR.SAP: the sweep is made. Behind four words (the first is the status to end with) the captured list
holds the pairs to put, whole entries only when a word that it read ended the sweep. (DEDUCED, log entry 56.) -/
def State.sapStart (s : State) (r : EngRef) (c : Cmd) : State :=
  let w := c.words
  let core := c.ctx.core
  let n := (wordAt w 4).toNat
  let s := (s.touchRange core (c.cel (wordAt w 2).toNat) (32 * n)).touchRange core (c.cel (wordAt w 3).toNat) (4 * n)
  let y := s.sweepIn c
  let (ps, st) := y.sweep n y.order
  let ps := ps.drop (wordAt w 6).toNat
  let ps := if st = 0 then ps else ps.take (ps.length / 7 * 7)
  let cap := [enc32 st, 0#32, 0#32, 0#32] ++ ps.flatMap fun p => [enc32 p.1, enc32 p.2]
  s.onCmd r c.id fun x => { x with cap }

/-- Why a GR.SAP cannot put its next entry: it reads and writes its descriptor and writes the entry, under its issuer's rights (R368).
Where the queue is not open every page of its ring counts. -/
def State.sapMisses (s : State) (c : Cmd) (ref : Bool) (entry : Option W64) : List Miss :=
  match s.engSite c.ctx ref true true c.sapDesc with
  | .error e => [e]
  | .ok l =>
    if s.flawed l 24 then s.flaws l 24
    else
    let base := BitVec.ofNat 64 (s.rd l 8)
    let pages := (List.range (ceilDiv (64 * 2 ^ min (s.rd (l.plus 8) 4) 16) 65536)).map fun i => base + BitVec.ofNat 64 (65536 * i)
    errsOf ((match entry with | some a => [a] | none => pages).map fun a => s.engSite c.ctx ref false true a)

/-- The end of a GR.SAP that cannot put: it waits for a page or a repair, or completes with the status of what it met. -/
def State.sapFault (s : State) (r : EngRef) (c : Cmd) (l : List Miss) : State :=
  if l.any fun m => decide (m.code ≤ 1) then s.awaitPage r c l
  else s.finishCmd r c c.count (if l.isEmpty then 4 else worstOf l)

/-- A step of a GR.SAP at the head of its Grinder: it starts, puts one entry or waits for room, or completes after its last
put. (DEDUCED, log entry 56.) -/
def State.completeSap (s : State) (r : EngRef) (c0 : Cmd) : State :=
  let s := if c0.cap.isEmpty then s.sapStart r c0 else s
  let c := ((s.queueOf r).find? fun x => x.id == c0.id).getD c0
  if 4 + 2 * c.count ≥ c.cap.length then s.finishCmd r c c.count (wordAt c.cap 0).toNat
  else match s.stqOpen c.ctx.core c.ctx.space c.sapDesc with
    | .error _ => s.sapFault r c (s.sapMisses c c0.refused none)
    | .ok q =>
      let miss := s.sapMisses c c0.refused (some (q.entryAddr q.tail))
      if s.flawed q.desc 32 then s.finishCmd r c c.count 2
      else if !miss.isEmpty then s.sapFault r c miss
      else if q.count < 2 ^ q.cap then (s.sapPut c q).serveAll q.desc
      else if c.done.isEmpty then s.onCmd r c.id fun x => { x with done := [s.now] }
      else s

/-- A PREEMPT of the issuing crew ends its GR.SAPs early (R330). -/
def State.stopSaps (s : State) (core : Nat) : State :=
  let r : EngRef := { core, eng := .grinder }
  ((s.queueOf r).filter fun c => c.ctx.core == core && c.op == .sap).foldl (fun s c => s.finishCmd r c c.count 5) s

/-! ### The Caver (R331 to R334) -/

/-- A node: the boxes of its children, their indices, and LEAFPAIR. -/
structure BvhNode where
  boxes : List Aabb
  child : List Nat
  leaf  : Bool
  deriving DecidableEq, Repr

/-- The node in the words that the Caver reads: all but PARENT. -/
def BvhNode.of (w : List W32) : BvhNode :=
  let box (j : Nat) : Aabb :=
    { lo := (List.range 3).map fun x => (wordAt w (6 * j + x)).toNat, hi := (List.range 3).map fun x => (wordAt w (6 * j + 3 + x)).toNat }
  { boxes := [box 0, box 1], child := [(wordAt w 12).toNat, (wordAt w 13).toNat], leaf := (wordAt w 14).getLsbD 31 }

def noChild : Nat := 2 ^ 32 - 1

/-- The places of node i that the Caver reads: PARENT is none of them. -/
def State.bvhPlaces (s : State) (c : Cmd) (i : Nat) : List Site :=
  let a := pairAt c.words 0 + BitVec.ofNat 64 (64 * i)
  s.engBytes c true false a 56 ++ s.engBytes c true false (a + 60#64) 4

/-- What n bytes of memory, scratchpad or cell memory from an address hold, as a query keeps them (R332). -/
def State.seenAt (s : State) (x : CmdCtx) (va : W64) (n : Nat) : List Seen :=
  (pageParts va.toNat n).filterMap fun p =>
    let len := p.2 - p.1
    match s.engSite x true true false (BitVec.ofNat 64 p.1) with
    | .ok (.mem a) => some { lo := .mem a, n := len, cells := (s.mem.filter fun c => decide (a ≤ c.1 ∧ c.1 < a + len)).map fun c => (c.1 - a, c.2) }
    | .ok (.pad k o) =>
      let words := (s.coreAt k).pad.filter fun w => decide (o ≤ 4 * w.idx ∧ 4 * w.idx < o + len)
      some { lo := .pad k o, n := len,
             cells := words.flatMap fun w => (List.range 4).map fun j => (4 * w.idx + j - o, w.val.extractLsb' (8 * j) 8) }
    | .ok (.cel k o) => some { lo := .cel k o, n := len, cells := (List.range len).map fun i => (i, s.rdByte (.cel k (o + i))) }
    | _ => none

/-- A byte as it was at a command's issue. -/
def State.oldByte (s : State) (c : Cmd) (l : Loc) : Byte :=
  match c.was.find? fun x => x.lo.meets x.n l 1 with
  | none => s.rdByte l
  | some x =>
    match x.cells.find? fun y => y.1 == ((x.lo.diff l).getD 0).toNat with
    | some y => y.2
    | none => match l with
      | .mem _ => 0#8
      | _ => s.rdByte l

/-- Node i as query q sees it: each word as it was at the issue of the command or as it stands, which of the two being free (R228, R332).
What stood there in between is none of them. (DESIGN CHOICE, log entry 94.) -/
def State.bvhNode (s : State) (c : Cmd) (q i : Nat) : BvhNode :=
  let p := placesOf (s.bvhPlaces c i)
  BvhNode.of ((List.range 15).map fun j =>
    let b := (p.drop (4 * j)).take 4
    BitVec.ofNat 32 (leNat (b.map fun l => if Config.freeBool [38, s.free, c.id, q, i, j] then s.oldByte c l else s.rdByte l)))

/-- How a query's walk ends. -/
inductive QueryEnd where
  | done | malformed | fault (e : List Miss)
  deriving DecidableEq, Repr

/-- Two parts of a walk, one after the other. -/
def thenVisit (a : List Nat × QueryEnd × List Nat) (b : List Nat × QueryEnd × List Nat) : List Nat × QueryEnd × List Nat :=
  match a.2.1 with
  | .done => (a.1 ++ b.1, b.2.1, a.2.2 ++ b.2.2)
  | _ => a

/-- The walk of CV.QBOX for query qn from node i, depth first, on a path that may hold k more nodes: the identifiers found, how it ended,
and the nodes read. -/
def State.boxVisit (s : State) (c : Cmd) (nc qn : Nat) (q : Aabb) : Nat → Nat → List Nat × QueryEnd × List Nat
  | 0, _ => ([], .malformed, [])
  | k + 1, i =>
    if i ≥ nc then ([], .malformed, [])
    else
      let e := errsOf (s.bvhPlaces c i)
      if !e.isEmpty then ([], .fault e, [])
      else
        let n := s.bvhNode c qn i
        let part (j : Nat) : List Nat × QueryEnd × List Nat :=
          let x := n.child.getD j noChild
          if x = noChild || !(q.overlaps (n.boxes.getD j { lo := [], hi := [] })) then ([], .done, [])
          else if n.leaf then ([x], .done, []) else s.boxVisit c nc qn q k x
        let (l, e, r) := thenVisit (part 0) (part 1)
        (l, e, i :: r)

/-- The most nodes on a path. -/
def bvhDepth : Nat := 64

/-- The issue of a query command: `unit` gives the bytes of an output record, `nc` the word of the node count. -/
def caverForm (op : CmdOp) (n nc : Nat) (unit : List W32 → Nat) (more : R2 → List W32 → EngChecks) (o : R2) (s : State) : EngForm :=
  let core := s.issue.core
  { card := { n, pair := true }, who := s.leader,
    draft := fun v w =>
      let q := (wordAt w 3).toNat
      let pad := (s.ctxOf core v.th).pad * 128
      checked
        (spanChecks o pad [⟨(wordAt w 2).toNat, 32 * q, 16, 2⟩, ⟨(wordAt w 4).toNat, unit w * q, 16, 4⟩] ++
          [(3, (pairAt w 0).toNat % 64 != 0, o.a), (3, q == 0 || decide (q > 128), bundleFld o 3)] ++ more o w ++
          [(3, wordAt w nc == 0#32 || decide ((wordAt w nc).toNat > 2 ^ 24), bundleFld o nc)])
        { ref := { core, eng := .caver }, op, fills := [v.th.ident.tid], reach := [(pairAt w 0, 64 * (wordAt w nc).toNat)] },
    effect := fun v w s => s.onCmd { core, eng := .caver } s.serial fun c =>
      { c with was := s.seenAt (s.ctxOf core v.th) (pairAt w 0) (64 * (wordAt w nc).toNat) } }

/-- H of CV.QBOX. -/
def hitsKept (w : List W32) : Nat := fieldIn w 5 15 0

def cvQboxForm (o : R2) (s : State) : EngForm :=
  caverForm .qbox 7 6 (fun w => 16 + 4 * hitsKept w) (fun o w =>
    [(3, fieldIn w 5 31 16 != 0 || decide (hitsKept w < 4) || decide (hitsKept w > 1024) || hitsKept w % 4 != 0, bundleFld o 5)]) o s
def execCvQbox (o : R2) (s : State) : Result := .next (s.engIssue o (cvQboxForm o s))
def cvQrayForm (o : R2) (s : State) : EngForm :=
  caverForm .qray 6 5 (fun _ => 16) (fun _ _ => []) o s
def execCvQray (o : R2) (s : State) : Result := .next (s.engIssue o (cvQrayForm o s))

/-- The records from number k on, with undefined values. -/
def State.blurRecords (s : State) (c : Cmd) (size k n : Nat) : List (Loc × Nat × Nat) :=
  (List.range (n - k)).flatMap fun i =>
    valuesAt (c.padAt ((wordAt c.words 4).toNat + size * (k + i))) 4
      ((List.range (size / 4)).map fun j => (Config.freeWord [19, s.free, c.id, k + i, j]).toNat)

/-- A query's outcome: the words of its record, the failures that end the command, and the nodes that it read. -/
abbrev QueryRes := List (Nat × Nat) × List Miss × List Nat

/-- An uncorrectable record of query q ends its command (R324). -/
def State.queryFlaws (s : State) (c : Cmd) (q : Nat) : List Miss :=
  let l := c.padAt ((wordAt c.words 2).toNat + 32 * q)
  s.flaws l (if c.op = .qray then 16 else 12) ++ s.flaws (l.plus 16) 12

/-- The end of a query command: the records of the queries before the first fault are written. After STATUS 3 or 4 the others hold
undefined values (R333); after STATUS 2 nothing further is written (R324). -/
def State.finishQueries (s : State) (r : EngRef) (c : Cmd) (size : Nat) (res : List QueryRes) : State :=
  let out := (wordAt c.words 4).toNat
  let n := res.length
  let k := (res.findIdx? fun x => !x.2.1.isEmpty).getD n
  let errs := (res[k]?.map fun x => x.2.1).getD []
  if !errs.isEmpty && worstOf errs == 0 then s.awaitPage r c errs
  else
    let core := c.ctx.core
    let s := s.touchRange core (c.padAt (wordAt c.words 2).toNat) (32 * n)
    let s := (res.flatMap (·.2.2)).eraseDups.foldl (fun s i => (placesOf (s.bvhPlaces c i)).foldl (fun s l => s.engTouch core l) s) s
    let whole := (res.take k).zipIdx.flatMap fun x => x.1.1.map fun p => (c.padAt (out + size * x.2 + 4 * p.1), 4, p.2)
    let rest := if errs.isEmpty || worstOf errs == 2 then [] else s.blurRecords c size k n
    (s.storeEach core (whole ++ rest)).finishCmd r c k (worstOf errs)

/-- CV.QBOX completes. A query writes the words of its record that the card names. -/
def State.completeQbox (s : State) (r : EngRef) (c : Cmd) : State :=
  let w := c.words
  let h := hitsKept w
  let seen := s.settledView
  let res := (List.range (wordAt w 3).toNat).map fun q =>
    let (l, e, nodes) := seen.boxVisit c (wordAt w 6).toNat q (seen.boxAt (c.padAt ((wordAt w 2).toNat + 32 * q))) bvhDepth 0
    let total := match e with | .malformed => 2 ^ 32 - 1 | _ => l.length
    (([total, min l.length h, 0, 0] ++ l.take h).zipIdx.map fun (x : Nat × Nat) => (x.2, x.1),
      s.queryFlaws c q ++ (match e with | .fault x => x | _ => []), nodes)
  s.finishQueries r c (16 + 4 * h) res

/-- A ray (R334). -/
structure Ray where
  org  : List Nat
  tmax : Nat
  dir  : List Nat
  deriving DecidableEq, Repr

def State.rayAt (s : State) (l : Loc) : Ray :=
  { org := (List.range 3).map fun x => s.rd (l.plus (4 * x)) 4, tmax := s.rd (l.plus 12) 4,
    dir := (List.range 3).map fun x => s.rd (l.plus (16 + 4 * x)) 4 }

/-- The test of a box: Tn when it passes. -/
def Ray.test (y : Ray) (b : Aabb) : Option Nat :=
  let axis (x : Nat) : Nat × Nat :=
    let inv := ((sfu32 rcpVal (enc32 (y.dir.getD x 0))).1).toNat
    let t1 := mul32 (sub32 (b.lo.getD x 0) (y.org.getD x 0)) inv
    let t2 := mul32 (sub32 (b.hi.getD x 0) (y.org.getD x 0)) inv
    (min32 t1 t2, max32 t1 t2)
  let tn := max32 0 (max32 (axis 0).1 (max32 (axis 1).1 (axis 2).1))
  let tf := min32 y.tmax (min32 (axis 0).2 (min32 (axis 1).2 (axis 2).2))
  if le32 tn tf then some tn else none

/-- The walk of CV.QRAY for ray qn from node i, entered at Tn: the candidates (Tn, identifier, node), and the visits that are malformed
or cannot be read, each with the greatest Tn of its path, and the nodes read. -/
def State.rayVisit (s : State) (c : Cmd) (nc qn : Nat) (y : Ray) :
    Nat → Nat → Nat → List (Nat × Nat × Nat) × List (Nat × List Miss) × List Nat
  | 0, _, t => ([], [(t, [])], [])
  | k + 1, i, t =>
    if i ≥ nc then ([], [(t, [])], [])
    else
      let e := errsOf (s.bvhPlaces c i)
      if !e.isEmpty then ([], [(t, e)], [])
      else
        let n := s.bvhNode c qn i
        let part (j : Nat) : List (Nat × Nat × Nat) × List (Nat × List Miss) × List Nat :=
          let x := n.child.getD j noChild
          if x = noChild then ([], [], [])
          else match y.test (n.boxes.getD j { lo := [], hi := [] }) with
            | none => ([], [], [])
            | some tn => if n.leaf then ([(tn, x, i)], [], []) else s.rayVisit c nc qn y k x (max t tn)
        ((part 0).1 ++ (part 1).1, (part 0).2.1 ++ (part 1).2.1, i :: ((part 0).2.2 ++ (part 1).2.2))

/-- The nearest candidate; ties go to the lower identifier, then to the lower node. Tn is never negative, so that encodings
compare as values do. -/
def nearest (l : List (Nat × Nat × Nat)) : Option (Nat × Nat × Nat) :=
  l.foldl (fun b x => match b with
    | none => some x
    | some y => if x.1 < y.1 || (x.1 == y.1 && (x.2.1 < y.2.1 || (x.2.1 == y.2.1 && decide (x.2.2 < y.2.2)))) then some x else some y) none

/-- The visits that a ray meets: one in a subtree that may hold a nearer hit for certain, any other as it may be. (DEDUCED, log entry 57.) -/
def metVisits (key : List Nat) (best : Option (Nat × Nat × Nat)) (l : List (Nat × List Miss)) : List (List Miss) :=
  (l.zipIdx.filter fun (x : (Nat × List Miss) × Nat) =>
    (match best with | none => true | some b => decide (x.1.1 ≤ b.1)) || Config.freeBool (18 :: x.2 :: key)).map (·.1.2)

/-- CV.QRAY completes. (DEDUCED, log entry 57.) -/
def State.completeQray (s : State) (r : EngRef) (c : Cmd) : State :=
  let w := c.words
  let seen := s.settledView
  let res := (List.range (wordAt w 3).toNat).map fun q =>
    let (cs, bad, nodes) := seen.rayVisit c (wordAt w 5).toNat q (seen.rayAt (c.padAt ((wordAt w 2).toNat + 32 * q))) bvhDepth 0 0
    let met := metVisits [s.free, c.id, q] (nearest cs) bad
    let fw (i : Nat) : Nat := (Config.freeWord [20, s.free, c.id, q, i]).toNat
    let words : List Nat :=
      if !met.isEmpty then [2 ^ 32 - 2, fw 1, fw 2, 0]
      else match nearest cs with
        | none => [2 ^ 32 - 1, Fmt.f32.infinity, 2 ^ 32 - 1, 0]
        | some (t, x, i) => [x, t, i, 0]
    (words.zipIdx.map fun (x : Nat × Nat) => (x.2, x.1), s.queryFlaws c q ++ met.flatten, nodes)
  s.finishQueries r c 16 res

/-- The pad lines that a query command reads: its records, and the nodes that lie in the pad window (R322). -/
def State.caverReads (s : State) (c : Cmd) : List Nat :=
  let w := c.words
  let item (q : Nat) : Loc := c.padAt ((wordAt w 2).toNat + 32 * q)
  let nodes (q : Nat) : List Nat := match c.op with
    | .qbox => (s.boxVisit c (wordAt w 6).toNat q (s.boxAt (item q)) bvhDepth 0).2.2
    | _ => (s.rayVisit c (wordAt w 5).toNat q (s.rayAt (item q)) bvhDepth 0 0).2.2
  padLines c.ctx.core (wordAt w 2).toNat (32 * (wordAt w 3).toNat) ++
    (((List.range (wordAt w 3).toNat).flatMap nodes).eraseDups.flatMap fun i => (placesOf (s.bvhPlaces c i)).filterMap Loc.padLine).eraseDups

/-! ### The Press (R335 to R342) -/

/-- A block descriptor. -/
structure Block where
  n    : Nat
  f64  : Bool
  kind : Nat
  a    : Nat
  f    : Nat
  log  : Nat
  thr  : Nat
  resv : Bool
  deriving DecidableEq, Repr

def Block.of (w : List W32) : Block :=
  { n := fieldIn w 0 4 0, f64 := (wordAt w 0).getLsbD 8, kind := fieldIn w 0 23 16, a := (wordAt w 1).toNat, f := (wordAt w 2).toNat,
    log := (wordAt w 3).toNat, thr := (pairAt w 4).toNat,
    resv := fieldIn w 0 7 5 != 0 || fieldIn w 0 15 9 != 0 || fieldIn w 0 31 24 != 0 || wordAt w 6 != 0#32 || wordAt w 7 != 0#32 }

def Block.e (b : Block) : Nat := if b.f64 then 8 else 4
def Block.fmt (b : Block) : Fmt := if b.f64 then .f64 else .f32
/-- The bytes of a vector, of a matrix and of a group of m vectors. -/
def Block.vec (b : Block) : Nat := b.e * b.n
def Block.group (b : Block) (m : Nat) : Nat := 16 * b.e * (m - 1) + b.vec
def Block.mat (b : Block) : Nat := b.group b.n

/-! Arithmetic in the block's format, each result rounded once to nearest. -/

/-- The exact quotient, with a sticky bit below 128 bits of it. -/
def FVal.div : FVal → FVal → FVal
  | .nan b, _ => .nan b
  | _, .nan b => .nan b
  | .inf _, .inf _ => .nan false
  | .zero _, .zero _ => .nan false
  | .inf s, y => .inf (s != y.sign)
  | .zero s, y => .zero (s != y.sign)
  | x, .inf t => .zero (x.sign != t)
  | x, .zero t => .inf (x.sign != t)
  | .fin s m e, .fin t n g =>
    let k := n.log2 + 128
    sticky (s != t) (m * 2 ^ k / n) (e - g - k) (m * 2 ^ k % n != 0)

def Fmt.divE (fm : Fmt) (a b : Nat) : Nat := (roundTo fm .rn 0 ((fm.decode a).div (fm.decode b))).1
/-- a - b × c with one rounding. -/
def Fmt.fnms (fm : Fmt) (a b c : Nat) : Nat := (fFma fm .rn 0 (fm.decode b).neg (fm.decode c) (fm.decode a)).1
/-- a × b + c with one rounding. -/
def Fmt.fmaE (fm : Fmt) (a b c : Nat) : Nat := (fFma fm .rn 0 (fm.decode a) (fm.decode b) (fm.decode c)).1
def Fmt.mulE (fm : Fmt) (a b : Nat) : Nat := (fMul fm .rn 0 (fm.decode a) (fm.decode b)).1
def Fmt.subE (fm : Fmt) (a b : Nat) : Nat := (fAdd fm .rn 0 (fm.decode a) (fm.decode b).neg).1
def Fmt.sqrtE (fm : Fmt) (a : Nat) : Nat := (roundTo fm .rn 0 (sqrtVal (fm.decode a)).1).1
/-- FLT. -/
def Fmt.ltE (fm : Fmt) (a b : Nat) : Bool := (fm.decode a).lt (fm.decode b)
/-- |a| > |b|, NaN ranking below every number. -/
def Fmt.bigger (fm : Fmt) (a b : Nat) : Bool :=
  let x := (fm.decode a).abs
  let y := (fm.decode b).abs
  !x.isNan && (y.isNan || y.lt x)

/-- A matrix as rows, and a vector, of encodings. -/
abbrev Vec := List Nat
abbrev Mat := List Vec
def Mat.at (m : Mat) (i k : Nat) : Nat := (m.getD i []).getD k 0
def Mat.put (m : Mat) (i k x : Nat) : Mat := m.set i ((m.getD i []).set k x)
def Mat.swap (m : Mat) (i k : Nat) : Mat := (m.set i (m.getD k [])).set k (m.getD i [])
def Vec.swap (v : Vec) (i k : Nat) : Vec := (v.set i (v.getD k 0)).set k (v.getD i 0)

/-- Fold over 0, ..., n - 1. -/
def upTo {α : Type} (n : Nat) (x : α) (f : α → Nat → α) : α := (List.range n).foldl f x
/-- Fold over lo, ..., n - 1. -/
def between {α : Type} (lo n : Nat) (x : α) (f : α → Nat → α) : α := ((List.range (n - lo)).map (lo + ·)).foldl f x
/-- Fold over n - 1, ..., 0. -/
def downFrom {α : Type} (n : Nat) (x : α) (f : α → Nat → α) : α := (List.range n).reverse.foldl f x

/-- LU with partial pivoting (R338): the factor and the rows exchanged. -/
def luFactor (fm : Fmt) (n : Nat) (a : Mat) : Mat × List Nat :=
  upTo n (a, []) fun (r : Mat × List Nat) j =>
    let p := between (j + 1) n j fun p i => if fm.bigger (r.1.at i j) (r.1.at p j) then i else p
    let f := r.1.swap j p
    let f := between (j + 1) n f fun f i =>
      let f := f.put i j (fm.divE (f.at i j) (f.at j j))
      between (j + 1) n f fun f k => f.put i k (fm.fnms (f.at i k) (f.at i j) (f.at j k))
    (f, r.2 ++ [p])

/-- Cholesky (R339). -/
def cholFactor (fm : Fmt) (n : Nat) (a : Mat) : Mat :=
  upTo n (List.replicate n (List.replicate n 0)) fun (l : Mat) j =>
    let l := l.put j j (fm.sqrtE (upTo j (a.at j j) fun t k => fm.fnms t (l.at j k) (l.at j k)))
    between (j + 1) n l fun l i =>
      l.put i j (fm.divE (upTo j (a.at i j) fun t k => fm.fnms t (l.at i k) (l.at j k)) (l.at j j))

/-- The smallest pivot magnitude as FP64, a NaN counting as smallest (R337). -/
def leastPivot (fm : Fmt) (l : List Nat) : Nat :=
  let vs := l.map fun x => (fm.decode x).abs
  if vs.any FVal.isNan then Fmt.f64.nan
  else match vs with
    | [] => 0
    | v :: r => (roundTo .f64 .rn 0 (r.foldl (fun b x => if x.lt b then x else b) v)).1

/-- STATUS 6 or 0 from the smallest pivot and THRESH. -/
def pivotStatus (least thr : Nat) : Nat :=
  if (Fmt.f64.decode least).isNan || (Fmt.f64.decode least).lt (Fmt.f64.decode thr) then 6 else 0

/-- One solve (R340). -/
def solveOne (fm : Fmt) (n kind : Nat) (f : Mat) (p : List Nat) (b : Vec) : Vec :=
  let y := if kind = 1 then upTo n b fun (y : Vec) j => Vec.swap y j (p.getD j 0) else b
  let y := upTo n y fun (y : Vec) i =>
    let t := upTo i (y.getD i 0) fun t k => fm.fnms t (f.at i k) (y.getD k 0)
    y.set i (if kind = 2 then fm.divE t (f.at i i) else t)
  downFrom n y fun (x : Vec) i =>
    let u (k : Nat) : Nat := if kind = 1 then f.at i k else f.at k i
    x.set i (fm.divE (between (i + 1) n (x.getD i 0) fun t k => fm.fnms t (u k) (x.getD k 0)) (f.at i i))

/-- One upstream gradient carried back (R341). -/
def backOne (fm : Fmt) (n kind : Nat) (f : Mat) (p : List Nat) (g : Vec) : Vec :=
  let w := upTo n g fun (w : Vec) i =>
    let u (k : Nat) : Nat := if kind = 1 then f.at k i else f.at i k
    w.set i (fm.divE (upTo i (w.getD i 0) fun t k => fm.fnms t (u k) (w.getD k 0)) (f.at i i))
  let w := downFrom n w fun (w : Vec) i =>
    let t := between (i + 1) n (w.getD i 0) fun t k => fm.fnms t (f.at k i) (w.getD k 0)
    w.set i (if kind = 2 then fm.divE t (f.at i i) else t)
  if kind = 1 then downFrom n w fun (w : Vec) j => Vec.swap w j (p.getD j 0) else w

/-- The gradient of the matrix (R341). -/
def gradMat (fm : Fmt) (n : Nat) (gb x : List Vec) : Mat :=
  (List.range n).map fun i => (List.range n).map fun k =>
    (gb.zip x).foldl (fun t p => fm.fnms t (p.1.getD i 0) (p.2.getD k 0)) 0

/-- What a sweep needs (R342). -/
structure Sweep where
  a    : Mat
  b    : Vec
  lo   : Vec
  hi   : Vec
  link : List Nat
  deriving DecidableEq, Repr

/-- One row of a sweep: λ, and whether the row was left unchanged. -/
def Sweep.row (y : Sweep) (fm : Fmt) (n i : Nat) (l : Vec) : Vec × Bool :=
  let r := upTo n (y.b.getD i 0) fun r k => fm.fmaE (y.a.at i k) (l.getD k 0) r
  if !fm.ltE 0 (y.a.at i i) then (l, true)
  else
    let t := fm.subE (l.getD i 0) (fm.divE r (y.a.at i i))
    let k := y.link.getD i 0
    let (lo, hi) := if k = 255 then (y.lo.getD i 0, y.hi.getD i 0)
      else (fm.mulE (y.lo.getD i 0) (l.getD k 0), fm.mulE (y.hi.getD i 0) (l.getD k 0))
    (l.set i (fminmax fm false (fminmax fm true t lo) hi), false)

/-- The sweeps: λ, and whether any row was left unchanged. -/
def Sweep.run (y : Sweep) (fm : Fmt) (n iter : Nat) (l : Vec) : Vec × Bool :=
  upTo iter (l, false) fun (r : Vec × Bool) _ => upTo n r fun (r : Vec × Bool) i =>
    let (l, bad) := y.row fm n i r.1
    (l, r.2 || bad)

/-! #### Commands of the Press -/

/-- The pad offsets of a bundle, its count's word and the count's bound. -/
structure PressCard where
  n     : Nat
  offs  : Nat
  count : Option (Nat × Nat)
  deriving DecidableEq, Repr

def pressCard : CmdOp → PressCard
  | .solve => ⟨4, 2, some (3, 16)⟩
  | .psBwd => ⟨6, 4, some (5, 16)⟩
  | .pgs => ⟨5, 3, some (4, 256)⟩
  | _ => ⟨1, 0, none⟩

/-- Whether the ranges GB and GA of a PS.BWD overlap for a block of n rows with elements of e bytes. -/
def bwdOverlap (w : List W32) (e n : Nat) : Bool :=
  let b (m : Nat) : Nat := 16 * e * (m - 1) + e * n
  Span.meets ⟨(wordAt w 3).toNat, b (wordAt w 5).toNat, 16, 3⟩ ⟨(wordAt w 4).toNat, b n, 16, 4⟩

/-- GB and GA of a PS.BWD must not overlap (R341). The bundle alone determines that only for the least block, of one row in FP32, which
is checked at issue (R336); the overlap of the block's own ranges fails the start. (DEDUCED, log entry 93.) -/
def pressForm (op : CmdOp) (o : R2) (s : State) : EngForm :=
  let core := s.issue.core
  let k := pressCard op
  { card := { n := k.n }, who := s.leader,
    draft := fun v w =>
      let pad := (s.ctxOf core v.th).pad * 128
      checked
        (spanChecks o pad [⟨(wordAt w 0).toNat, 32, 32, 0⟩] ++
          ((List.range k.offs).map fun i => (2, (wordAt w (i + 1)).toNat % 16 != 0, bundleFld o (i + 1))) ++
          (match k.count with
            | none => []
            | some (i, m) => [(3, wordAt w i == 0#32 || decide ((wordAt w i).toNat > m), bundleFld o i)]) ++
          [(3, op == .psBwd && bwdOverlap w 4 1, bundleFld o 4)])
        { ref := { core, eng := .press }, op, fills := [v.th.ident.tid] } }
def pressCmd (op : CmdOp) (o : R2) (s : State) : Result := .next (s.engIssue o (pressForm op o s))

def execPsLu32 (o : R2) (s : State) : Result := pressCmd (.lu false) o s
def execPsLu64 (o : R2) (s : State) : Result := pressCmd (.lu true) o s
def execPsChol32 (o : R2) (s : State) : Result := pressCmd (.chol false) o s
def execPsChol64 (o : R2) (s : State) : Result := pressCmd (.chol true) o s
def execPsSolve (o : R2) (s : State) : Result := pressCmd .solve o s
def execPsBwd (o : R2) (s : State) : Result := pressCmd .psBwd o s
def execPsPgs (o : R2) (s : State) : Result := pressCmd .pgs o s

/-- The descriptor that a command finds. -/
def State.block (s : State) (c : Cmd) : Block := Block.of (s.rdWords (c.padAt (wordAt c.words 0).toNat) 8)

/-- The ranges that a command uses, those that it reads first, then those that it only writes. -/
def pressSpans (c : Cmd) (b : Block) : List Span × List Span :=
  let w (i : Nat) : Nat := (wordAt c.words i).toNat
  let sp (off len : Nat) : Span := ⟨off, len, 16, 0⟩
  match c.op with
  | .solve => ([sp b.f b.mat, sp b.log 16, sp (w 1) (b.group (w 3))], [sp (w 2) (b.group (w 3))])
  | .psBwd => ([sp b.f b.mat, sp b.log 16, sp (w 1) (b.group (w 5)), sp (w 2) (b.group (w 5))],
      [sp (w 3) (b.group (w 5)), sp (w 4) b.mat])
  | .pgs => ([sp b.a b.mat, sp (w 1) b.vec, sp (w 2) b.vec, sp (w 3) (32 * b.e + 16)], [])
  | _ => ([sp b.a b.mat], [sp b.f b.mat, sp b.log 16])

/-- The rows of a matrix, each to its `len i` bytes. -/
def Block.rowSpans (b : Block) (off m : Nat) (len : Nat → Nat) : List Span := (List.range m).map fun i => ⟨off + 16 * b.e * i, len i, 16, 0⟩

/-- The bytes that a command reads: of a matrix its rows to column N, and of a symmetric matrix or its factor the lower triangle (R338,
R339). -/
def pressInputs (c : Cmd) (b : Block) : List Span :=
  let w (i : Nat) : Nat := (wordAt c.words i).toNat
  let vecs (off m : Nat) : List Span := b.rowSpans off m fun _ => b.vec
  let lower (off : Nat) : List Span := b.rowSpans off b.n fun i => b.e * (i + 1)
  let factor : List Span := (if b.kind = 2 then lower b.f else vecs b.f b.n)
  match c.op with
  | .solve => factor ++ vecs (w 1) (w 3)
  | .psBwd => factor ++ vecs (w 1) (w 5) ++ vecs (w 2) (w 5)
  | .pgs => vecs b.a b.n ++ vecs (w 1) 1 ++ vecs (w 2) 1 ++ vecs (w 3) 2
  | .chol _ => lower b.a
  | _ => vecs b.a b.n

/-- The bytes of the log and of the link bytes, which a command reads to see whether its start fails. -/
def pressChecks (c : Cmd) (b : Block) : List Span :=
  match c.op with
  | .solve | .psBwd => [⟨b.log + 8, 8, 8, 0⟩] ++ (if b.kind = 1 then [⟨b.log, 8, 8, 0⟩] else [])
  | .pgs => [⟨(wordAt c.words 3).toNat + 32 * b.e, b.n, 16, 0⟩]
  | _ => []

/-- The pad lines that a Press command reads, with the descriptor as it stands. -/
def State.pressReads (s : State) (c : Cmd) : List Nat :=
  let b := s.block c
  let ok := b.n ≥ 1 ∧ b.n ≤ 16
  padLines c.ctx.core (wordAt c.words 0).toNat 32 ++
    (if ok then ((pressSpans c b).1.filter fun x => decide (x.off + x.len ≤ c.ctx.pad * 128)).flatMap fun x => padLines c.ctx.core x.off x.len
     else [])

/-- Pivot row j of the log. -/
def State.pivots (s : State) (c : Cmd) (b : Block) : List Nat :=
  (List.range b.n).map fun j => s.rd (c.padAt b.log) 8 / 16 ^ j % 16
/-- The link bytes of a sweep. -/
def State.links (s : State) (c : Cmd) (b : Block) : List Nat :=
  (List.range b.n).map fun i => s.rd (c.padAt ((wordAt c.words 3).toNat + 32 * b.e + i)) 1

/-- Whether the start fails by what the descriptor says (R336). -/
def pressFails (c : Cmd) (b : Block) : Bool :=
  let sp := pressSpans c b
  b.resv || b.n == 0 || decide (b.n > 16) || decide (b.kind > 2) ||
  (match c.op with
    | .lu w64 | .chol w64 => b.f64 != w64
    | .solve | .psBwd => b.kind == 0
    | _ => false) ||
  ((sp.1 ++ sp.2).any fun x => x.off % 16 != 0 || decide (x.off + x.len > c.ctx.pad * 128)) ||
  (c.op == .psBwd && bwdOverlap c.words b.e b.n)

/-- Whether it fails by what the log or the link bytes say. -/
def State.pressStray (s : State) (c : Cmd) (b : Block) : Bool :=
  match c.op with
  | .solve | .psBwd => b.kind == 1 && (s.pivots c b).any fun p => decide (p ≥ b.n)
  | .pgs => (s.links c b).any fun k => k != 255 && decide (k ≥ b.n)
  | _ => false

/-- Whether some of the ranges that a command reads hold an uncorrectable error (R324). -/
def State.anyFlawed (s : State) (c : Cmd) (l : List Span) : Bool := l.any fun x => s.flawed (c.padAt x.off) x.len

/-- Vectors and rows as they stand, and as they are written. -/
def State.vecAt (s : State) (c : Cmd) (b : Block) (off : Nat) : Vec := (List.range b.n).map fun i => s.rd (c.padAt (off + b.e * i)) b.e
def State.rowsOf (s : State) (c : Cmd) (b : Block) (off m : Nat) : List Vec := (List.range m).map fun i => s.vecAt c b (off + 16 * b.e * i)
def Cmd.vecTo (c : Cmd) (b : Block) (off : Nat) (v : Vec) : List (Loc × Nat × Nat) := valuesAt (c.padAt off) b.e v
def Cmd.rowsTo (c : Cmd) (b : Block) (off : Nat) (l : List Vec) : List (Loc × Nat × Nat) :=
  l.zipIdx.flatMap fun x => c.vecTo b (off + 16 * b.e * x.2) x.1

/-- The end of a factorisation: the factor, KIND and the log. -/
def State.putFactor (s : State) (r : EngRef) (c : Cmd) (b : Block) (kind : Nat) (f : Mat) (p : List Nat) : State :=
  let least := leastPivot b.fmt ((List.range b.n).map fun j => f.at j j)
  let log := (p.zipIdx.map fun x => x.1 * 16 ^ x.2).sum
  (s.storeEach c.ctx.core (c.rowsTo b b.f f ++ [(c.padAt b.log, 8, log), (c.padAt (b.log + 8), 8, least),
    (c.padAt ((wordAt c.words 0).toNat + 2), 1, kind)])).finishCmd r c b.n (pivotStatus least b.thr)

/-- A Press command completes: every input is read before any output is written. -/
def State.completePress (s : State) (r : EngRef) (c : Cmd) : State :=
  let core := c.ctx.core
  let w (i : Nat) : Nat := (wordAt c.words i).toNat
  let s := s.touchRange core (c.padAt (w 0)) 32
  let b := s.block c
  if s.flawed (c.padAt (w 0)) 32 then s.finishCmd r c 0 2
  else if pressFails c b then s.finishCmd r c 0 4
  else if s.anyFlawed c (pressChecks c b) then s.finishCmd r c 0 2
  else
    let s := (pressChecks c b ++ pressInputs c b).foldl (fun s x => s.touchRange core (c.padAt x.off) x.len) s
    if s.pressStray c b then s.finishCmd r c 0 4
    else if s.anyFlawed c (pressInputs c b) then s.finishCmd r c 0 2
    else
      let fm := b.fmt
      let f := s.rowsOf c b b.f b.n
      let p := s.pivots c b
      let st := pivotStatus (s.rd (c.padAt (b.log + 8)) 8) b.thr
      match c.op with
      | .lu _ =>
        let (f, p) := luFactor fm b.n (s.rowsOf c b b.a b.n)
        s.putFactor r c b 1 f p
      | .chol _ => s.putFactor r c b 2 (cholFactor fm b.n (s.rowsOf c b b.a b.n)) (List.range b.n)
      | .solve => (s.storeEach core (c.rowsTo b (w 2) ((s.rowsOf c b (w 1) (w 3)).map (solveOne fm b.n b.kind f p)))).finishCmd r c (w 3) st
      | .psBwd =>
        let x := s.rowsOf c b (w 1) (w 5)
        let gb := (s.rowsOf c b (w 2) (w 5)).map (backOne fm b.n b.kind f p)
        (s.storeEach core (c.rowsTo b (w 3) gb ++ c.rowsTo b (w 4) (gradMat fm b.n gb x))).finishCmd r c (w 5) st
      | _ =>
        let y : Sweep :=
          { a := s.rowsOf c b b.a b.n, b := s.vecAt c b (w 1), lo := s.vecAt c b (w 3), hi := s.vecAt c b (w 3 + 16 * b.e), link := s.links c b }
        let (l, bad) := y.run fm b.n (w 4) (s.vecAt c b (w 2))
        (s.storeEach core (c.vecTo b (w 2) l)).finishCmd r c (w 4) (if bad then 6 else 0)

end Sys2Proof.Machine
end

