-- ==== Sys2Proof/Machine/Fabric.lean ====
section
/-! DEFINITION. The commands of the fabric engine (R400 to R403). -/

namespace Sys2Proof.Machine
open Sys2Proof

/-! ### Places on other devices (R396, R399) -/

/-- A place that a fabric command reaches: a device without a path ends it with STATUS 4, and, once its requests have been sent, one that
finds no matching DOMAIN entry. (DEDUCED, log entry 58.) -/
def State.fxPlace (s : State) (c : Cmd) (rd wr : Bool) (va : W64) : Site :=
  match s.engPlace c.ctx c.refused rd wr va with
  | .ok (.remote d a) =>
    if s.cutOff d || (decide (1 ≤ c.stage) && Config.remoteRefuses [d, a.toNat / 65536, s.free]) then .error { code := 4, va }
    else .ok (.remote d a)
  | x => x
def State.fxBytes (s : State) (c : Cmd) (rd wr : Bool) (va : W64) (n : Nat) : List Site :=
  (List.range n).map fun i => s.fxPlace c rd wr (va + BitVec.ofNat 64 i)

/-- The home device of a DOMAIN address. -/
def State.fxHome (s : State) (x : CmdCtx) (va : W64) : Option Nat :=
  match s.walk x.ten x.ptbase va with
  | .entry e _ => if (Pte.of e).domain then some (Pte.of e).dev else none
  | _ => none

/-- The home devices of the pages of a range. -/
def State.fxHomes (s : State) (x : CmdCtx) (va : W64) (n : Nat) : List Nat :=
  let lo := va.toNat / 65536
  ((List.range ((va.toNat + n - 1) / 65536 + 1 - lo)).filterMap fun i => s.fxHome x (BitVec.ofNat 64 (65536 * (lo + i)))).eraseDups

/-- The device of a place on another one. -/
def Loc.away : Loc → Option Nat
  | .remote d _ => some d
  | _ => none

/-! ### Issue (R400) -/

/-- The checks of a local range; that of the pad holds for its address too, whatever the length. -/
def CmdCtx.fxLocal (x : CmdCtx) (va : W64) (n : Nat) (f : Fld) : EngChecks :=
  [(3, va.toNat % 16 != 0 || !canonical va, f), (2, windowOf va == some 2 && (x.past (windowOff va) n || x.past (windowOff va) 1), f)]
/-- The checks of a remote address. -/
def State.fxRemote (s : State) (x : CmdCtx) (va : W64) (al : Nat) (f : Fld) : EngChecks :=
  [(3, va.toNat % al != 0 || !canonical va || (windowOf va).isSome || (s.fxHome x va).isNone, f)]

/-- The group of a command's task: COUNT, taken as 1 when it is 0, and FIRST (R394). -/
def State.fxGroup (s : State) (x : CmdCtx) : Nat × Nat :=
  match s.task? x.ten x.task with
  | none => (1, 0)
  | some t => (max 1 t.tcb.group, t.tcb.first)

/-- Whether a command is a reduction or a broadcast. -/
def CmdOp.collective : CmdOp → Bool
  | .fxAred _ | .fxBcast => true
  | _ => false

/-- The reductions of the device in flight. A captured first word of 0 marks those that are no duplicates; the second and
third hold the group. (DEDUCED, log entry 58.) -/
def State.reductions (s : State) : List Cmd :=
  ((s.dieAt 0).fabq ++ (s.dieAt 1).fabq).filter fun c => c.op.collective && wordAt c.cap 0 == 0#32 && decide ((wordAt c.cap 1).toNat ≥ 2)

/-- The bytes that a command moves; one of 0 bytes completes at its issue. -/
def fxBytesOf (op : CmdOp) (w : List W32) : Nat :=
  match op with
  | .fxPut | .fxGet => (wordAt w 4).toNat
  | .fxBcast => (wordAt w 2).toNat
  | _ => 1

/-- The bytes of an element. -/
def aredSize (bf : Bool) : Nat := if bf then 2 else 4

/-- The ranges of memory that a command names, each an address and its bytes. -/
def fxRanges (op : CmdOp) (w : List W32) : List (W64 × Nat) :=
  match op with
  | .fxPut | .fxGet => [(pairAt w 0, fxBytesOf op w), (pairAt w 2, fxBytesOf op w)]
  | .fxAred bf => [(pairAt w 0, (wordAt w 2).toNat * aredSize bf)]
  | .fxBcast => [(pairAt w 0, fxBytesOf op w)]
  | _ => [(pairAt w 0, 8)]

def fxForm (op : CmdOp) (n : Nat) (chk : State → CmdCtx → List W32 → EngChecks) (s : State) : EngForm :=
  let core := s.issue.core
  { card := { n, pair := true }, who := s.leader,
    draft := fun v w =>
      let x := s.ctxOf core v.th
      let (g, first) := s.fxGroup x
      let tag := wordAt w 3
      let dup := s.reductions.any fun c => wordAt c.words 3 == tag && wordAt c.cap 1 == enc32 g && wordAt c.cap 2 == enc32 first
      checked (chk s x w)
        { ref := { core, eng := .fabric }, op, fills := [v.th.ident.tid], now := fxBytesOf op w == 0,
          cap := if op.collective then [boolWord dup, enc32 g, enc32 first] else [], reach := fxRanges op w } }

/-- A length of a transfer. -/
def fxLength (w : List W32) (i limit : Nat) (f : Fld) : EngChecks :=
  [(3, (wordAt w i).toNat % 16 != 0 || decide ((wordAt w i).toNat > limit), f)]

def fxPutForm (o : R2) (s : State) : EngForm :=
  fxForm .fxPut 5 (fun s x w => x.fxLocal (pairAt w 0) (wordAt w 4).toNat o.a ++ s.fxRemote x (pairAt w 2) 16 (bundleFld o 2) ++
    fxLength w 4 (2 ^ 28) (bundleFld o 4)) s
def execFxPut (o : R2) (s : State) : Result := .next (s.engIssue o (fxPutForm o s))
def fxGetForm (o : R2) (s : State) : EngForm :=
  fxForm .fxGet 5 (fun s x w => x.fxLocal (pairAt w 0) (wordAt w 4).toNat o.a ++ s.fxRemote x (pairAt w 2) 16 (bundleFld o 2) ++
    fxLength w 4 (2 ^ 28) (bundleFld o 4)) s
def execFxGet (o : R2) (s : State) : Result := .next (s.engIssue o (fxGetForm o s))

def aredForm (bf : Bool) (o : R2) (s : State) : EngForm :=
  fxForm (.fxAred bf) 4 (fun _ x w =>
    let e := (wordAt w 2).toNat
    x.fxLocal (pairAt w 0) (e * aredSize bf) o.a ++
      [(3, e % (16 / aredSize bf) != 0 || e == 0 || decide (e > 2 ^ 24), bundleFld o 2)]) s
def aredCmd (bf : Bool) (o : R2) (s : State) : Result := .next (s.engIssue o (aredForm bf o s))

def execFxAredF32 (o : R2) (s : State) : Result := aredCmd false o s
def execFxAredBf16 (o : R2) (s : State) : Result := aredCmd true o s

def fxBcastForm (o : R2) (s : State) : EngForm :=
  fxForm .fxBcast 5 (fun s x w => x.fxLocal (pairAt w 0) (wordAt w 2).toNat o.a ++ fxLength w 2 (2 ^ 32) (bundleFld o 2) ++
    [(3, decide ((wordAt w 4).toNat ≥ (s.fxGroup x).1), bundleFld o 4)]) s
def execFxBcast (o : R2) (s : State) : Result := .next (s.engIssue o (fxBcastForm o s))

def fxSigForm (o : R2) (s : State) : EngForm :=
  fxForm .fxSig 4 (fun s x w => s.fxRemote x (pairAt w 0) 8 o.a) s
def execFxSig (o : R2) (s : State) : Result := .next (s.engIssue o (fxSigForm o s))

/-! ### The steps of a command (R401 to R403)

A command of the fabric engine is sent first, `Cmd.stage` 0, and completes when its writes are placed. -/

/-- A command goes on to its next stage. -/
def State.fxNext (s : State) (r : EngRef) (c : Cmd) : State := s.onCmd r c.id fun x => { x with stage := c.stage + 1 }

/-- The RES of a reduction's flits: its TAG below its DGRP. (DESIGN CHOICE, log entry 78.) -/
def Cmd.resv (c : Cmd) : W64 := pair64 (wordAt c.words 3) (wordAt c.cap 1 <<< 16 ||| wordAt c.cap 2)

/-- Whether flits of a command have still to reach their peers. -/
def State.fxOwed (s : State) (c : Cmd) : Bool :=
  match c.op with
  | .fxPut | .fxGet => s.unsent (pairAt c.words 2) (wordAt c.words 4).toNat
  | .fxSig => s.unsent (pairAt c.words 0) 8
  | _ => s.unsentFor c.resv

/-- Whether what a command waits for from other devices has come: at any later step, once every flit of it has reached its peer. (DESIGN
CHOICE, log entry 37.) -/
def State.fxArrived (s : State) (c : Cmd) : Bool := !s.fxOwed c && Config.freeBool [41, s.free, c.id, c.stage]

/-- Whether a home of the remote range of a transfer has no path any more, so that nothing of it comes from there (R399). -/
def State.fxGone (s : State) (c : Cmd) : Bool :=
  (s.fxHomes c.ctx (pairAt c.words 2) (wordAt c.words 4).toNat).any fun d => d != s.dev && s.cutOff d

/-- The payloads of the flits that carry items, in order: as many as fit 232 bytes. (DESIGN CHOICE, log entry 78.) -/
def packed (size : Nat) (items : List (List Byte)) : List (List Byte) :=
  let k := 232 / size
  (List.range (ceilDiv items.length k)).map fun i => ((items.drop (k * i)).take k).flatten

/-- Data flits to a device, each item with its address. -/
def State.fxSend (s : State) (c : Cmd) (d : Nat) (size : Nat) (items : List (W64 × Nat)) : State :=
  s.transmit (dieOfCore c.ctx.core) d 1 (if c.op.collective then c.resv else 0#64) (packed (8 + size) (items.map fun x => bytesOf 8 x.1.toNat ++ bytesOf size x.2))

/-- FX.PUT and FX.GET: the moves in units of 16 bytes. -/
def State.fxMoves (s : State) (c : Cmd) : List Mv :=
  let near := pairAt c.words 0
  let far := pairAt c.words 2
  let (src, dst) := if c.op = .fxPut then (near, far) else (far, near)
  (chunks (wordAt c.words 4).toNat).map fun k =>
    { unit := k / 16, bits := 128, src := s.fxBytes c true false (src + BitVec.ofNat 64 k) 16,
      dst := s.fxBytes c false true (dst + BitVec.ofNat 64 k) 16 }

/-- The places of moves on other devices, with the values that go there. -/
def awayOf (l : List (Mv × Nat)) (site : Mv → List Site) : List (Nat × W64 × Nat) :=
  l.filterMap fun x => match placesOf (site x.1) with
    | .remote d a :: _ => some (d, a, x.2)
    | _ => none

/-- The flits of a transfer: to each device its items. -/
def State.fxSendAll (s : State) (c : Cmd) (size : Nat) (l : List (Nat × W64 × Nat)) : State :=
  ((l.map (·.1)).eraseDups).foldl (fun s d => s.fxSend c d size ((l.filter (·.1 == d)).map (·.2))) s

/-- FX.GET: the requests are sent, and the values that come back are written. -/
def State.completeGet (s : State) (r : EngRef) (c : Cmd) : State :=
  let ms := s.fxMoves c
  let away := awayOf (ms.map (·, 0)) Mv.src
  match mvStop ms with
  | some (0, _) => s.awaitPage r c (ms.flatMap Mv.errs)
  | _ =>
    if away.isEmpty then s.finishMoves r c ms ms.length 0
    else if c.stage = 0 then (s.fxSendAll c 0 away).fxNext r c
    else if s.fxArrived c || s.fxGone c then s.finishMoves r c ms ms.length 0
    else s

/-- FX.PUT: it reads its local range, for which held terms settle (R240); units for this device are written and those of others sent; what
ended it and how many units it came to are kept until these are placed. A home that refuses a page, or has no path, ends it there. -/
def State.completePut (s : State) (r : EngRef) (c : Cmd) : State :=
  if c.stage = 0 then
    let ms := s.fxMoves c
    let s1 := ms.foldl (fun s m => (placesOf m.src).foldl (fun s l => s.engTouch c.ctx.core l) s) s
    let part : Option (State × Nat × Nat) := match mvStop ms with
      | none => some (s1.mvAll c.ctx.core ms fun _ _ => true, ms.length, 0)
      | some (0, _) => none
      | some (e, first) => let (t, k) := s1.mvPart c ms first; some (t, k, e)
    match part with
    | none => s.awaitPage r c (ms.flatMap Mv.errs)
    | some (t, k, e) =>
      let away := awayOf ((ms.filter fun m => decide (m.unit < k)).map fun m => (m, s1.mvValue m)) Mv.dst
      if away.isEmpty then t.finishCmd r c k e
      else ((t.fxSendAll c 16 away).onCmd r c.id fun x => { x with cap := [enc32 k, enc32 e] }).fxNext r c
  else if s.fxArrived c || s.fxGone c then
    let k := (wordAt c.cap 0).toNat
    let e := (wordAt c.cap 1).toNat
    let bad := (List.range k).find? fun i => match s.fxPlace c false true (pairAt c.words 2 + BitVec.ofNat 64 (16 * i)) with
      | .error m => m.code == 4
      | .ok _ => false
    match bad with
    | none => s.finishCmd r c k e
    | some i => s.finishCmd r c ((Config.freeWord [14, s.free, c.id]).toNat % (i + 1)) (if e = 0 then 4 else e)
  else s

/-- The fixed tree of R403 over a list whose length is 2^k. -/
def aredTree (fm : Fmt) : Nat → List Nat → Nat × FFlags
  | 0, l => (l.headD 0, 0)
  | k + 1, l =>
    let (x, f) := aredTree fm k (l.take (2 ^ k))
    let (y, g) := aredTree fm k (l.drop (2 ^ k))
    let (z, h) := fAdd fm .rn 0 (fm.decode x) (fm.decode y)
    (z, f ||| g ||| h)

/-- The least k with 2^k at least g. -/
def log2Up (g : Nat) : Nat := if g ≤ 1 then 0 else (g - 1).log2 + 1

/-- Element j of a reduction: the own buffer's value at the own rank, the others' free, and -0 past the group. -/
def aredElem (fm : Fmt) (key : List Nat) (g own j x : Nat) : Nat × FFlags :=
  let k := log2Up g
  aredTree fm k ((List.range (2 ^ k)).map fun i =>
    if i = own then x
    else if i < g then (Config.remoteElement (i :: j :: key)).toNat % 2 ^ fm.width
    else fm.signed true 0)

/-- The members of a command's group but this device. -/
def State.fxMembers (s : State) (c : Cmd) : List Nat :=
  ((List.range (wordAt c.cap 1).toNat).map ((wordAt c.cap 2).toNat + ·)).filter (· != s.dev)

/-- Whether the members of a reduction disagree in what they ask. -/
def State.reductionFails (s : State) (c : Cmd) : Bool := Config.freeBool [22, s.free, c.id]

/-- A command of a group: the lone device keeps its buffer; a duplicate, a member out of reach and a disagreement end with STATUS 4. With fewer than
16 earlier ones in flight, it first reserves link slots of every member; when every member has issued, it reads: `moves` gives what it reads
and writes, `data` what it sends of that and `sent` what it keeps; when the data of the others has come, `go` completes it. -/
def State.completeGroup (s : State) (r : EngRef) (c : Cmd) (count : Nat) (moves : List Mv) (data : State → List (W64 × Nat))
    (sent : State → List W32) (go : State → State) : State :=
  if wordAt c.cap 0 ≠ 0#32 then s.finishCmd r c 0 4
  else if (wordAt c.cap 1).toNat ≤ 1 then s.finishCmd r c count 0
  else if (s.reductions.filter fun x => decide (x.id < c.id)).length ≥ 16 then s
  else if (s.fxMembers c).any s.cutOff then s.finishCmd r c 0 4
  else match c.stage with
    | 0 => ((s.fxMembers c).foldl (fun s d => s.transmit (dieOfCore c.ctx.core) d 4 c.resv [[]]) s).fxNext r c
    | 1 =>
      if !s.fxArrived c then s
      else if s.reductionFails c then s.finishCmd r c 0 4
      else
        let t := moves.foldl (fun s m => (placesOf m.src).foldl (fun s l => s.engTouch c.ctx.core l) s) s
        match mvStop moves with
        | some (0, _) => s.awaitPage r c (moves.flatMap Mv.errs)
        | some _ => go t
        | none => (((s.fxMembers c).foldl (fun x d => x.fxSend c d 16 (data t)) t).onCmd r c.id fun x =>
            { x with cap := c.cap ++ sent t }).fxNext r c
    | _ => if s.fxArrived c then go s else s

/-- A reduction: every element of the buffer is replaced. Its own elements are those that it has sent. -/
def State.completeAred (s : State) (r : EngRef) (c : Cmd) (bf : Bool) : State :=
  let e := (wordAt c.words 2).toNat
  let size := aredSize bf
  let place (s : State) (j : Nat) : List Site := s.engBytes c true true (pairAt c.words 0 + BitVec.ofNat 64 (size * j)) size
  let own (s : State) (j : Nat) : Nat := leNat ((placesOf (place s j)).map s.rdByte)
  let data (s : State) : List (W64 × Nat) := (List.range (e * size / 16)).map fun i =>
    (BitVec.ofNat 64 i, leNat ((List.range (16 / size)).flatMap fun j => bytesOf size (own s (16 / size * i + j))))
  s.completeGroup r c e ((List.range e).map fun j => { unit := j, bits := 8 * size, src := place s j, dst := place s j }) data
      (fun s => (List.range e).map fun j => enc32 (own s j)) fun s =>
    let fm := if bf then Fmt.bf16 else Fmt.f32
    let first := (wordAt c.cap 2).toNat
    let res := (List.range e).map fun j =>
      aredElem fm [s.free, c.id, (wordAt c.words 3).toNat] (wordAt c.cap 1).toNat (s.dev - first) j
        ((c.cap[3 + j]?.map (·.toNat)).getD (own s j))
    let ms : List Mv := res.zipIdx.map fun x => { unit := x.2, val := x.1.1, bits := 8 * size, dst := place s x.2 }
    match mvStop ms with
    | some (0, _) => s.awaitPage r c (ms.flatMap Mv.errs)
    | _ =>
      (s.onCore c.ctx.core fun k => k.onSect c.ctx.sect fun y => y.addFlags (res.foldl (fun fl x => fl ||| x.2) 0)).finishMoves r c ms e 0

/-- A broadcast: the root reads its buffer, every other member writes it. -/
def State.completeBcast (s : State) (r : EngRef) (c : Cmd) : State :=
  let n := (wordAt c.words 2).toNat
  let root := (wordAt c.words 4).toNat
  let mine := decide (root = s.dev - (wordAt c.cap 2).toNat)
  let moves (s : State) : List Mv := (chunks n).map fun k =>
    let va := pairAt c.words 0 + BitVec.ofNat 64 k
    if mine then { unit := k / 16, bits := 128, src := s.engBytes c true false va 16, dst := [] }
    else
      { unit := k / 16, bits := 128, dst := s.engBytes c false true va 16,
        val := natOf ((List.range 4).map fun i => Config.remoteElement [root, k / 4 + i, s.free, c.id, (wordAt c.words 3).toNat]) }
  let data (s : State) : List (W64 × Nat) := if mine then (moves s).map fun m => (BitVec.ofNat 64 m.unit, s.mvValue m) else []
  s.completeGroup r c (n / 16) (moves s) data (fun _ => []) fun s => s.finishMoves r c (moves s) (n / 16) 0

/-- FX.SIG: a 64-bit add at the home; one without a path ends it with STATUS 4. -/
def State.completeSig (s : State) (r : EngRef) (c : Cmd) : State :=
  let va := pairAt c.words 0
  let l := s.fxBytes c true true va 8
  let e := errsOf l
  if e.isEmpty then
    match placesOf l with
    | .remote d a :: _ =>
      if c.stage = 0 then (s.fxSend c d 8 [(a, (pairAt c.words 2).toNat)]).fxNext r c
      else if s.fxArrived c then s.finishCmd r c 1 0
      else s
    | p :: _ => ((s.perform c.ctx.core p 8 (.rmw .add64 (pairAt c.words 2) 0#64)).1).finishCmd r c 1 0
    | [] => s
  else if worstOf e = 0 then s.awaitPage r c e else s.finishCmd r c 0 (worstOf e)

/-- Whether no earlier FX.PUT or FX.SIG of the core to one of the homes of this one stands before it (R402). -/
def State.fxOrdered (s : State) (r : EngRef) (c : Cmd) : Bool :=
  let homes (x : Cmd) : List Nat := match x.op with
    | .fxPut => s.fxHomes x.ctx (pairAt x.words 2) (wordAt x.words 4).toNat
    | .fxSig => s.fxHomes x.ctx (pairAt x.words 0) 8
    | _ => []
  let mine := homes c
  (s.queueOf r).all fun x => !(decide (x.id < c.id) && x.ctx.core == c.ctx.core && (homes x).any mine.contains)

/-- A command of the fabric engine goes on. -/
def State.completeFx (s : State) (r : EngRef) (c : Cmd) : State :=
  match c.op with
  | .fxPut => s.completePut r c
  | .fxGet => s.completeGet r c
  | .fxAred bf => s.completeAred r c bf
  | .fxBcast => s.completeBcast r c
  | .fxSig => s.completeSig r c
  | _ => s

/-- The pad lines that a fabric command reads. -/
def State.fxReads (s : State) (c : Cmd) : List Nat :=
  let lines (n : Nat) : List Nat := (placesOf (s.engBytes c true false (pairAt c.words 0) n)).filterMap Loc.padLine
  match c.op with
  | .fxPut => lines (wordAt c.words 4).toNat
  | .fxAred bf => lines ((wordAt c.words 2).toNat * aredSize bf)
  | .fxBcast => lines (wordAt c.words 2).toNat
  | _ => []

end Sys2Proof.Machine
end

