-- ==== Sys2Proof/Machine/Complete.lean ====
section
/-! DEFINITION. When a command of an engine may start, its completion, its deliveries, its faults, and the stops of the host
(R199, R250, R266, R268, R275, R288, R368, R381). -/

namespace Sys2Proof.Machine
open Sys2Proof

/-! ### What a command reads, and when it may start -/

/-- The pad lines that a command reads. -/
def State.engReads (s : State) (c : Cmd) : List Nat :=
  match c.op with
  | .tld | .tst | .gth | .sct | .lin | .fill | .mcst => s.copyReads c
  | .mm f => s.mmReads c f false
  | .mms f => s.mmReads c f true
  | .qm f _ => qmReads c f
  | .pv _ | .pvPred => pvReads c
  | .tbLoad => s.tbReads c
  | .fxPut | .fxGet | .fxAred _ | .fxBcast | .fxSig => s.fxReads c
  | .tdBind | .tdDesc | .tdBwd | .tdPath => s.tdReads c
  | .qbox | .qray => s.caverReads c
  | .lu _ | .chol _ | .solve | .psBwd | .pgs => s.pressReads c
  | .drn _ | .mzero | .mstat | .pvMask | .tbSwap | .hgBind | .hgRead | .hgClr | .neBind | .neFlush | .neUnbind | .sort _ | .morton
  | .sap | .tile .. => []

/-- Whether an engine takes its commands one after another (R250, R286, R288, R321). -/
def inOrder : Eng → Bool
  | .copy | .carafe | .fabric => false
  | _ => true

/-- Two copies of one core that write the same line keep their order (R250). Where a CP.SCT writes depends on index words that may
still be on their way, so that later copies wait behind it. -/
def State.copyOrdered (s : State) (r : EngRef) (c : Cmd) : Bool :=
  let mine := s.copyWrites c
  ((s.queueOf r).filter fun x => decide (x.id < c.id)).all fun x => x.op != .sct && !((s.copyWrites x).any mine.contains)

/-- The evaluations that a command of a matrix queue holds (R299). -/
def CmdOp.rows : CmdOp → List Row
  | .tile _ _ _ _ rows => rows
  | _ => []

/-- The evaluations of a core in open and launched tiles, each with its network and whether it is a backward one. -/
def Core.tileRows (k : Core) : List (Net × Bool × Row) :=
  (k.tiles.flatMap fun t => t.rows.map fun r => (Net.of t.net, t.bwd, r)) ++
  k.sects.flatMap fun x => x.mq.flatMap fun c => match c.op with
    | .tile net _ _ bwd rows => rows.map fun r => (Net.of net, bwd, r)
    | _ => []

/-- Whether no evaluation issued before a command has still to read one of its pad lines (R250, R300). -/
def State.rowsFree (s : State) (c : Cmd) : Bool :=
  (s.coreAt c.ctx.core).tileRows.all fun x => decide (c.id ≤ x.2.2.ord) || !((s.rowReads x.1 x.2.1 x.2.2).any c.lines.contains)

/-- Whether command `idx` of a queue may go on now. -/
def State.mayRun (s : State) (r : EngRef) (idx : Nat) (c : Cmd) : Bool :=
  (!inOrder r.eng || idx == 0) && !c.op.isTile && !s.stopped r &&
  !s.crossing c && s.readsFree c (s.engReads c) &&
  (match r.eng with
    | .copy => s.writesFree c c.lines s.engReads && s.rowsFree c && s.copyOrdered r c
    | .matrix _ => c.lines.isEmpty || s.writesFree c c.lines s.engReads
    | .fabric => s.fxOrdered r c
    | _ => true)

/-- The section of a matrix or in-stack queue. -/
def engSect : Eng → Nat
  | .matrix k | .stack k => k
  | _ => 0

/-- A command one of whose transfers was lost on the bridge ends with STATUS 2 (R393). COUNT is what it has delivered. A backward entry that
it had to fill stays without terms. (DEDUCED, log entry 16.) -/
def State.finishLost (s : State) (r : EngRef) (c : Cmd) : State :=
  let done := if r.eng = .copy then (c.unitsDone (s.copyMoves c)).length else c.count
  let s := if c.op = .tdBwd ∧ c.ctx.replay then s.fillBack c.ctx.core c.ctx.tid c.id [] else s
  s.finishCmd r c done 2

/-- The effect and the completion of a command. Its page walks settle the terms held for its tables first (R240). -/
def State.complete (s0 : State) (r : EngRef) (c : Cmd) : State :=
  let k := engSect r.eng
  let s := s0.settleTables c.ctx.ptbase
  if c.lost then s.finishLost r c
  else match c.op with
  | .tld | .tst | .gth | .sct | .lin | .fill | .mcst => s.completeCopy r c
  | .mm f => s.completeMm r c k f false
  | .mms f => s.completeMm r c k f true
  | .qm f sel => s.completeQm r c f sel 0
  | .drn f => s.completeDrn r c k f
  | .mzero => s.completeMzero r c k
  | .mstat => s.completeMstat r c k
  | .pv _ | .pvPred => s.completePv r c
  | .tbLoad => s.completeTbLoad r c
  | .tbSwap => s.completeTbSwap r c
  | .hgRead => s.completeHgRead r c
  | .pvMask | .hgBind | .hgClr | .tdBind => s.finishCmd r c 0 0
  | .fxPut | .fxGet | .fxAred _ | .fxBcast | .fxSig => s.completeFx r c
  | .neBind | .neFlush | .neUnbind => s.completeNet r c
  | .tdDesc => s.completeTdDesc r c
  | .tdBwd => s.completeTdBwd r c
  | .tdPath => s.completeTdPath r c
  | .sort w64 => s.completeSort r c w64
  | .morton => s.completeMorton r c
  | .sap => s.completeSap r c
  | .qbox => s.completeQbox r c
  | .qray => s.completeQray r c
  | .lu _ | .chol _ | .solve | .psBwd | .pgs => s.completePress r c
  | .tile .. => s

/-- COMMAND_COMPLETION: a command that may run has its effect and completes, unless it waits for a page, for other units or
for room in a queue. -/
def execCommandCompletion (eng : EngRef) (idx : Nat) (s : State) : Result :=
  match (s.queueOf eng)[idx]? with
  | none => .next s
  | some c => .next (if s.mayRun eng idx c then s.complete eng c else s)

/-- LINE_DELIVERY: a copy delivers one line of its destination before it completes. (DEDUCED, log entry 59.) -/
def execLineDelivery (eng : EngRef) (idx : Nat) (line : Nat) (s : State) : Result :=
  match (s.queueOf eng)[idx]? with
  | none => .next s
  | some c => .next (if eng.eng == .copy && s.mayRun eng idx c then s.deliverCopy eng c line else s)

/-! ### Translation faults (R368) -/

/-- The page that a command waits for, if it does: what its next step would find missing. -/
def State.awaitsPage (s : State) (r : EngRef) (idx : Nat) (c : Cmd) : Option W64 :=
  match c.op with
  | .tile net _ _ bwd rows => if idx = 0 then (s.rowWants (Net.of net) bwd rows).map (·.2) else none
  | _ =>
    let s0 := s.onCmd r c.id fun x => { x with wants := none }
    let s1 := if s.mayRun r idx c then s0.complete r { c with wants := none } else s0
    ((s1.queueOf r).find? fun x => x.id == c.id).bind (·.wants)

/-- The host refuses a page that a command waits for: to a tile's evaluations that reach it, or to the command, after which every page that
it lacks ends it (R301, R368). (DEDUCED, log entry 80.) -/
def State.denyPage (s : State) (r : EngRef) (c : Cmd) (va : W64) : State :=
  s.onCmd r c.id fun x => match x.op with
    | .tile net h b bwd rows => match s.rowWants (Net.of net) bwd rows with
      | some (w, _) => { x with op := .tile net h b bwd (rows.map (Row.deny w.ctx va)), held := false }
      | none => x
    | _ => { x with refused := true }

/-- Whether service has been asked for a page of a command. -/
def Cmd.asked (c : Cmd) (va : W64) : Bool := c.held && c.wants == some va

/-- ENGINE_TRANSLATION_FAULT: the command is held and service is asked for at the faulting address, once for each page; or the host
refuses the page. -/
def execEngineTranslationFault (eng : EngRef) (idx : Nat) (refused : Bool) (s : State) : Result :=
  match (s.queueOf eng)[idx]? with
  | none => .next s
  | some c =>
    match s.awaitsPage eng idx c with
    | none => .next s
    | some va =>
      if refused then .next (if c.asked va then s.denyPage eng c va else s)
      else if c.asked va then .next s
      else .next ((s.onCmd eng c.id fun x => { x with held := true, wants := some va }).askPage c.ctx.ten va)

/-! ### Stops (R381) -/

/-- Whether a command has begun: lines are delivered, entries are put, flits are sent or a sweep is made. -/
def Cmd.begun (c : Cmd) : Bool := !c.done.isEmpty || decide (0 < c.count) || decide (0 < c.stage) || (c.op == .sap && !c.cap.isEmpty)

/-- The SEQs of the commands of an engine that it has accepted and not completed. The Carafe's are those of its queue, its tiles and
the tiles that have launched. -/
def State.openSeqs (s : State) (r : EngRef) : List W32 :=
  ((s.queueOf r).filter fun c => !c.op.isTile).map (·.seq) ++ match r.eng with
    | .carafe => (s.coreAt r.core).rowsLeft.map fun x => x.2.seq
    | _ => []

/-- Whether SEQ `q` names the oldest command of an engine that is not complete, no later one having completed: every SEQ from it to
the last that the engine gave out is open. SEQ counts modulo 2^32. -/
def State.isHead (s : State) (r : EngRef) (q : W32) : Bool :=
  (s.openSeqs r).contains q && (s.seqOf r - q).toNat == (s.openSeqs r).length &&
  (s.openSeqs r).all fun x => decide ((x - q).toNat < (s.seqOf r - q).toNat)

/-- An engine is held at the command with SEQ `q`, and a record names it. -/
def State.holdAt (s : State) (r : EngRef) (q : W32) (x : CmdCtx) (eng : Nat) : State :=
  ({ s with stops := (engHome r, q) :: s.stops }).traceCmd 5 x eng q 0

/-- The oldest evaluation of a core's Carafe whose tile is at the head of its matrix queue. -/
def State.headRow (s : State) (r : EngRef) : Option Row :=
  ((s.coreAt r.core).sects.flatMap fun y => (y.mq.take 1).flatMap fun c => c.op.rows).find? fun x => s.isHead r x.seq

/-- STOP_HOLD: a stop of the host names the command that has reached the head of its queue, which nothing later has overtaken. No
datagram sets a stop, so the step stands for its naming too. (DEDUCED, log entry 79.) -/
def execStopHold (eng : EngRef) (s : State) : Result :=
  let head := (s.queueOf eng).head?
  if s.stopped eng then .next s
  else match head.filter (fun c => !c.op.isTile && s.isHead eng c.seq), if eng.eng = .carafe then s.headRow eng else none with
    | some c, _ =>
      if c.past || (s.queueOf eng).any (fun x => x.begun || s.crossing x) then .next s
      else .next ((s.onCmd eng c.id fun x => { x with stop := true }).holdAt eng c.seq c.ctx c.op.engNo)
    | none, some x => .next (s.holdAt eng x.seq x.ctx 8)
    | none, none => .next s

/-- The stops of an engine are lifted: held commands start. -/
def State.releaseStop (s : State) (r : EngRef) : State :=
  { (s.onQueue r fun q => q.map fun c => if c.stop then { c with stop := false, past := true } else c) with
    stops := s.stops.filter fun x => x.1 != engHome r }

def execStopRelease (eng : EngRef) (s : State) : Result := .next (s.releaseStop eng)

/-- Whether the command that holds an engine is one of a core's crew. -/
def State.holdsOwn (s : State) (core : Nat) (r : EngRef) : Bool :=
  ((s.queueOf r).any fun c => c.stop && c.ctx.core == core) ||
  (r.eng == .carafe && (s.coreAt core).rowsLeft.any fun x => s.stops.contains (engHome r, x.2.seq))

/-- A PREEMPT of a crew releases the stops that hold its commands. -/
def State.releaseHeld (s : State) (core : Nat) : State :=
  (coreQueues core).foldl (fun s r => if s.holdsOwn core r then s.releaseStop r else s) s

/-! ### The matrix engine's own steps (R266, R268) and the table exchange (R288) -/

/-- QM_FUSED_PASS: the operations complete in issue order. -/
def execQmFusedPass (core : Nat) (sect : Nat) (count : Nat) (s : State) : Result :=
  let r : EngRef := { core, eng := .matrix sect }
  let l := (s.queueOf r).take count
  if fusable l && !s.stopped r && (l.all fun c => s.readsFree c (s.engReads c)) then
    .next (l.zipIdx.foldl (fun s x => match x.1.op with
      | .qm f sel => s.completeQm r x.1 f sel x.2
      | _ => s) s)
  else .next s

/-- SUBARRAY_GATE: a sub-array idle for the count of %mgidle is gated; 0 never gates. -/
def execSubarrayGate (core : Nat) (sect : Nat) (sub : Nat) (s : State) : Result :=
  let k := s.coreAt core
  let idle := bitsOf k.mgidle 15 0
  if idle ≠ 0 ∧ s.arith - ((k.sectAt sect).lastUse.getD sub 0) ≥ idle then
    .next (s.onCore core fun k => k.onSect sect fun y => { y with awake := setBit y.awake sub false })
  else .next s

/-- TABLE_EXCHANGE: the TB.SWAP at the head of the table queue exchanges its banks once every result that reads the old one
has landed. -/
def execTableExchange (core : Nat) (s : State) : Result :=
  let r : EngRef := { core, eng := .table }
  match s.queueOf r with
  | [] => .next s
  | c :: _ => .next (if c.op == .tbSwap && s.mayRun r 0 c then s.completeTbSwap r c else s)

end Sys2Proof.Machine
end

