-- ==== Sys2Proof/Machine/Cross.lean ====
section
/-! DEFINITION. Cross-lane operations: shuffles, votes, reductions and scans (R159 to R162, op 0x2E and 0x2F). -/

namespace Sys2Proof.Machine
open Sys2Proof

/-- What a contributor brings to a gang-wide operation. -/
structure Contrib where
  lane : Nat
  tid  : W32
  a    : W32
  b    : W32
  deriving DecidableEq, Repr

/-! ### Members (R159) -/

/-- The live lanes of the issuing gang. -/
def State.gangLive (s : State) : List Thread :=
  match s.crew? with
  | none => []
  | some c => c.threads.filter fun t => t.inGang s.issue.sfe s.issue.sect s.issue.slot && t.live

/-- The member check of a run: one mask in every lane, every lane a member, and every live member in the run. -/
def State.memberVerdict (s : State) : Verdict :=
  match s.run with
  | [] => .ok
  | v :: r =>
    let m := v.th.ctl.mmask
    if (r.any fun u => u.th.ctl.mmask != m) || ((v :: r).any fun u => !m.getLsbD u.th.place.lane) then
      .trap (trapOpen stageCard Cause.illegal 9)
    else if s.gangLive.any fun t => m.getLsbD t.place.lane && !s.issue.has t then .wait .members
    else .ok

/-- A gang-wide operation: every source is read before any d is written (R160). -/
def gangForm (o : Opnds) (d a : Fld) (b : Option Fld) (f : List Contrib → Contrib → W32 × FFlags) (s : State) : LaneForm :=
  .of { o with laneOnly := true } (fun _ => s.memberVerdict) fun tids s =>
    let read (v : View) : Contrib :=
      { lane := v.th.place.lane, tid := v.th.ident.tid, a := v.rd32 a, b := (b.map v.rd32).getD 0#32 }
    let cs := (s.run.filter fun v => tids.contains v.th.ident.tid).map read
    s.onTids s.issue.core tids fun v =>
      let (x, fl) := f cs (read v)
      (((o.noteUnseen v).wr32 d x).onTh (·.flag fl)).done 4#64
def gangOp (o : Opnds) (d a : Fld) (b : Option Fld) (f : List Contrib → Contrib → W32 × FFlags) (s : State) : Result := .next (s.allLanes (gangForm o d a b f s))

/-- With a and b. -/
def gang3 (o : R3) (f : List Contrib → Contrib → W32) (s : State) : Result :=
  gangOp { srcs := [.r o.a o.f, .r o.b o.g], dsts := [⟨o.d, 1⟩] } o.d o.a (some o.b) (fun cs c => (f cs c, 0)) s
/-- With a alone. -/
def gang2 (o : R2) (f : List Contrib → Contrib → W32 × FFlags) (s : State) : Result :=
  gangOp { srcs := [.r o.a o.f], dsts := [⟨o.d, 1⟩] } o.d o.a none f s

/-! ### XLANE (R160) -/

/-- The value of source lane `i`, or the lane's own when that lane is no contributor. -/
def shuffle (cs : List Contrib) (c : Contrib) (i : Int) : W32 :=
  match cs.find? fun x => (x.lane : Int) == i with
  | some x => x.a
  | none => c.a

/-- A word with the bits of the contributors that `p` selects. -/
def laneWord (cs : List Contrib) (p : Contrib → Bool) : W32 :=
  (cs.filter p).foldl (fun m x => m ||| BitVec.ofNat 32 (2 ^ x.lane)) 0#32

def execShfl (o : R3) (s : State) : Result := gang3 o (fun cs c => shuffle cs c (bitsOf c.b 4 0)) s
def execShflup (o : R3) (s : State) : Result := gang3 o (fun cs c => shuffle cs c (c.lane + c.b.toNat : Nat)) s
def execShfldn (o : R3) (s : State) : Result := gang3 o (fun cs c => shuffle cs c ((c.lane : Int) - c.b.toNat)) s
def execShflx (o : R3) (s : State) : Result := gang3 o (fun cs c => shuffle cs c (c.lane ^^^ bitsOf c.b 4 0 : Nat)) s
def execAnyLane (o : R2) (s : State) : Result := gang2 o (fun cs _ => (boolWord (cs.any fun x => x.a != 0#32), 0)) s
def execAllLanes (o : R2) (s : State) : Result := gang2 o (fun cs _ => (boolWord (cs.all fun x => x.a != 0#32), 0)) s
def execBallot (o : R2) (s : State) : Result := gang2 o (fun cs _ => (laneWord cs fun x => x.a != 0#32, 0)) s
def execMatchLanes (o : R2) (s : State) : Result := gang2 o (fun cs c => (laneWord cs fun x => x.a == c.a, 0)) s

/-! ### SCAN (R161, R162) -/

/-- The sum of the contributors that `p` selects, modulo 2^32. -/
def sumOf (cs : List Contrib) (p : Contrib → Bool) : W32 := (cs.filter p).foldl (fun m x => m + x.a) 0#32

/-- h(l): the highest head among the contributors at or below a lane; the lowest contributor is a head. -/
def headOf (cs : List Contrib) (l : Nat) : Nat :=
  let least := cs.foldl (fun m x => min m x.lane) 32
  cs.foldl (fun m x => if x.lane ≤ l ∧ x.b ≠ 0#32 then max m x.lane else m) least

/-- Rounded sums of neighbouring terms (R162). -/
def pairSums : List Nat → List Nat × FFlags
  | x :: y :: r =>
    let (v, f) := fAdd .f32 .rn 0 (Fmt.f32.decode x) (Fmt.f32.decode y)
    let (vs, g) := pairSums r
    (v :: vs, f ||| g)
  | l => (l, 0)
def pairTree : Nat → List Nat → List Nat × FFlags
  | 0, l => (l, 0)
  | n + 1, l =>
    let (l1, f) := pairSums l
    let (l2, g) := pairTree n l1
    (l2, f ||| g)
/-- REDFADD: the contributors by %tid ascending, filled up with -0, through the tree of 31 additions. -/
def redfadd (cs : List Contrib) : W32 × FFlags :=
  let terms := (sortBy (fun x y : Contrib => x.tid.toNat ≤ y.tid.toNat) cs).map fun x => x.a.toNat
  let (l, f) := pairTree 5 (terms ++ List.replicate (32 - terms.length) 0x80000000)
  (enc32 (l.headD 0), f)

def execRedadd (o : R2) (s : State) : Result := gang2 o (fun cs _ => (sumOf cs fun _ => true, 0)) s
def execRedmin (o : R2) (s : State) : Result :=
  gang2 o (fun cs _ => (cs.foldl (fun m x => if x.a.slt m then x.a else m) 0x7FFFFFFF#32, 0)) s
def execRedmax (o : R2) (s : State) : Result :=
  gang2 o (fun cs _ => (cs.foldl (fun m x => if m.slt x.a then x.a else m) 0x80000000#32, 0)) s
def execRedfadd (o : R2) (s : State) : Result := gang2 o (fun cs _ => redfadd cs) s
def execScani (o : R2) (s : State) : Result := gang2 o (fun cs c => (sumOf cs fun x => decide (x.lane ≤ c.lane), 0)) s
def execScane (o : R2) (s : State) : Result := gang2 o (fun cs c => (sumOf cs fun x => decide (x.lane < c.lane), 0)) s
def execSegi (o : R3) (s : State) : Result :=
  gang3 o (fun cs c => sumOf cs fun x => decide (headOf cs c.lane ≤ x.lane ∧ x.lane ≤ c.lane)) s
def execSege (o : R3) (s : State) : Result :=
  gang3 o (fun cs c => sumOf cs fun x => decide (headOf cs c.lane ≤ x.lane ∧ x.lane < c.lane)) s

end Sys2Proof.Machine
end

