-- ==== Sys2Proof/Machine/Sys.lean ====
section
/-! DEFINITION. The SYS instructions but for BRK (R30, R356 to R360, op 0x39). -/

namespace Sys2Proof.Machine
open Sys2Proof

/-- TRAP and BKPT: every lane of the run takes the trap. -/
def softTrap (cause sub : Nat) (s : State) : Result :=
  .next (s.lanes {} (fun _ => .trap (trapOpen stageCard cause sub)) fun v => v)

def execTrap (n : N7) (s : State) : Result := softTrap Cause.trapi n.toNat s
def execBkpt (s : State) : Result := softTrap Cause.bkpt 0 s

/-- The checks of ERET: a handler is running (R30), and the address returned to passes R9. -/
def eretVerdict (t : Thread) : Verdict :=
  if !t.modeS && !t.modeUH then .trap (trapOpen stageCard Cause.illegal 12)
  else targetVerdict (if t.modeS then t.kt.pc else t.ut.pc)

/-- ERET: the mode and the PC return, and the lanes that were held for the trap go on (R351); lanes that return to a collective
instruction wait for the others that trapped there (R137). -/
def eretForm (s : State) : LaneForm :=
  let core := s.issue.core
  .thenDo {} (fun v => eretVerdict v.th) (fun v => v.onTh Thread.eret) fun tids s =>
    (tids.foldl (fun s tid => match s.view? core tid with
      | none => s
      | some v => s.onCore core fun x => x.onCrew fun c => c.release tid v.th.depth) s).onTids core tids fun v => v.onTh Thread.regather
def execEret (s : State) : Result := .next (s.eachLane (eretForm s))

/-! ### SAVEFE and LOADFE (R358) -/

/-- What a selector names. -/
inductive FeSel where
  | group (g : Nat) | line (q : Nat)
  deriving DecidableEq, Repr

def feSel (x : W32) (t : Thread) : Option FeSel :=
  if x.getLsbD 31 then (if bitsOf x 30 13 = 0 then some (.line (bitsOf x 12 0)) else none)
  else if bitsOf x 30 4 ≠ 0 then none
  else
    let g := bitsOf x 3 0
    if t.sfe then (if g ≤ 3 then some (.group g) else none)
    else if 32 * g < t.allot then some (.group g) else none

/-- Register `j` of group `g`: a physical register of a lane thread, a register field of the front end. -/
def feDst (t : Thread) (g j : Nat) : Dst :=
  let n := 32 * g + j
  if !t.sfe then .phys n else if n < 112 then .phys n else if n < 127 then .uni (n - 112) else .drop

/-- 64 bits: F in the low word, V in the high word. -/
def feWord (l : List (Bool × Bool)) : W64 :=
  pair64 (BitVec.ofNat 32 ((l.zipIdx.map fun (x, j) => if x.1 then 2 ^ j else 0).sum))
    (BitVec.ofNat 32 ((l.zipIdx.map fun (x, j) => if x.2 then 2 ^ j else 0).sum))

/-- The full bit of a scratchpad line (R199). -/
def Core.lineFull (c : Core) (q : Nat) : Bool := !(c.empty.any fun e => e.1 == q)

/-- The bits of a group or line. -/
def feRead (c : Core) (v : View) (sel : FeSel) : W64 :=
  match sel with
  | .group g => feWord ((List.range 32).map fun j => let r := v.get (feDst v.th g j); (r.full, r.valid))
  | .line q =>
    pair64 (if c.lineFull q then 1#32 else 0#32)
      (BitVec.ofNat 32 (((List.range 32).map fun j => if (c.padWord (32 * q + j)).valid then 2 ^ j else 0).sum))

/-- Write the bits of a register group; values stay. -/
def View.feWrite (v : View) (g : Nat) (x : W64) : View :=
  (List.range 32).foldl (fun v j =>
    let d := feDst v.th g j
    v.put d { v.get d with full := x.getLsbD j, valid := x.getLsbD (32 + j) }) v

/-- Write the bits of a scratchpad line; values stay. A line that is made empty keeps the marks of copies in flight (R199). -/
def Core.feLine (c : Core) (q : Nat) (x : W64) : Core :=
  let mine := c.empty.filter fun (e : Nat × Nat) => e.1 == q && e.2 != 0
  let c := { c with empty := (c.empty.filter fun (e : Nat × Nat) => e.1 != q) ++
    (if x.getLsbD 0 then [] else if mine.isEmpty then [(q, 0)] else mine) }
  { c with pad := (List.range 32).foldl (fun p j =>
      putBy (·.idx) { c.padWord (32 * q + j) with valid := x.getLsbD (32 + j) } p) c.pad }

def feVerdict (a : Fld) (v : View) : Verdict :=
  match feSel (v.rd32 a) v.th with
  | none => .trap (trapOpen stageCard Cause.illegal 10)
  | some _ => .ok

def execSavefe (o : R2) (s : State) : Result :=
  let c := s.coreAt s.issue.core
  .next (s.lanes { srcs := [.r o.a o.f], dsts := [⟨o.d, 2⟩], priv := true } (feVerdict o.a) fun v =>
    match feSel (v.rd32 o.a) v.th with
    | none => v
    | some sel => (v.wr64 o.d (feRead c v sel)).done 4#64)

def loadfeForm (o : RAB) (s : State) : LaneForm :=
  let core := s.issue.core
  let opn : Opnds := { srcs := [.r o.a o.f, .p o.b o.g], priv := true }
  .of opn (feVerdict o.a) fun tids s =>
    let lines := (s.run.filter fun v => tids.contains v.th.ident.tid).filterMap fun v =>
      match feSel (v.rd32 o.a) v.th with
      | some (.line q) => some (q, v.rd64 o.b)
      | _ => none
    let s := s.onTids core tids fun v =>
      let v := opn.noteUnseen v
      let x := v.rd64 o.b
      (match feSel (v.rd32 o.a) v.th with
        | some (.group g) => v.feWrite g x
        | _ => v).done 4#64
    s.onCore core fun c => lines.foldl (fun c x => c.feLine x.1 x.2) c
def execLoadfe (o : RAB) (s : State) : Result := .next (s.eachLane (loadfeForm o s))

/-! ### PROBE and HALT (R359, R360) -/

/-- Add to a progress counter, which saturates. -/
def addProbe (n k : Nat) (l : List W64) : List W64 :=
  l.zipIdx.map fun (x, i) => if i = n then BitVec.ofNat 64 (min (2 ^ 64 - 1) (x.toNat + k)) else x

def probeForm (n : N4) : LaneForm :=
  .thenDo {} noCheck (fun v => v.done 4#64) fun tids s =>
    match s.crew? with
    | none => s
    | some c => s.onTask c.ten c.task fun t => { t with probes := addProbe n.toNat tids.length t.probes }
def execProbe (n : N4) (s : State) : Result := .next (s.eachLane (probeForm n))

def haltForm (s : State) : LaneForm :=
  let core := s.issue.core
  let under := (s.crew?.map fun c => c.preempt.isSome).getD false
  .thenDo { priv := true } (fun _ => if under then .ok else .trap (trapOpen stageCard Cause.illegal 12))
    (fun v => v.onTh fun t => { t with status := .halted }) fun tids s =>
      let s := tids.foldl (fun s tid => s.onCore core fun x => x.onCrew fun c => c.release tid 0) s
      s.settleEnd core
def execHalt (s : State) : Result := .next (s.eachLane (haltForm s))

end Sys2Proof.Machine
end

