-- ==== Sys2Proof/Machine/Issue.lean ====
section
/-! DEFINITION. Waking parked threads (R136), the issue slots (R135, R139 to R145, R166, R195, R386), results that land (R13),
the governor (R144) and the gangs that spawn bins form (R150, R151). -/

namespace Sys2Proof.Machine
open Sys2Proof

/-! ### Waking (R136) -/

/-- Whether the device at which a thread's address is homed cannot be reached (R399). -/
def State.peerLost (s : State) (ten : Nat) (t : Thread) (va : W64) : Bool :=
  match s.walk ten t.ptbase va with
  | .entry e _ => s.cutOff (Pte.of e).dev
  | _ => true

/-- Whether what a thread of a core waits for has occurred. The waits that another unit's action ends by itself are not
asked for here. When another device answers a load that has reached it is free. (DESIGN CHOICE, log entry 37.) -/
def State.waitOver (s : State) (core : Nat) (c : Crew) (t : Thread) (w : Wait) : Bool :=
  let k := s.coreAt core
  let full (u : Thread) (d : Dst) : Bool := ((View.mk u c.k).get d).full
  match w with
  | .reg d => full t d
  | .run l => l.all fun x => match c.byTid x.1 with
      | none => true
      | some u => !u.live || full u x.2
  | .runOrder l => l.all fun x => !k.outstanding x
  | .entry => c.gangSettled t
  | .line j l => (s.coreAt j).lineFull l
  | .bpend l => !t.bpendAt l
  | .dep => match s.task? c.ten c.task with
      | none => true
      | some x => x.tcb.prod.all (s.producerDone c.ten)
  | .dqPut => decide (c.dq.length < 64)
  | .dqGet => (c.dqNext t).isSome
  | .bin e => (c.binFor e).isSome
  | .walk root page => (k.tlbFind root (BitVec.ofNat 64 (page * 65536))).isSome
  | .order => !k.outstanding t.ident.tid
  | .fence => s.placed core t
  | .collector l => decide (k.collReqs < 512) && (decide ((k.collected).length < 64) || (k.openGroup l).isSome)
  | .queue e => decide (s.queueUse { core, eng := e } < engCap e)
  | .score (some (va, n, l)) => !k.scored core va n l
  | .score none => decide (k.score.length < 32)
  | .drain => t.drained
  | .oprdy => t.oprdyDone
  | .members => (c.threads.filter fun u => u.inGang false t.place.sect t.place.slot && u.live &&
      t.ctl.mmask.getLsbD u.place.lane).all fun u => u.pc == t.pc && (u.runnable || u.status == .parked .members)
  | .swap n => !(k.tableAt n).held
  | .results => t.pending.all fun p => p.kind != .arith
  | .tile => decide ((k.tiles.filter fun t => !t.due k.cycle).length < 8)
  | .backward n => !c.backsFull n
  | .reply va => !k.outstanding t.ident.tid &&
      (s.peerLost k.ten t va || (!s.unsent va 1 && Config.freeBool [36, s.free, t.ident.tid.toNat]))
  | .row l => !s.underRepair l
  | .bridge va => t.crossed.map (·.1) == some va
  | .future | .barrier _ | .regroup _ | .stqFull .. | .stqEmpty .. => false

/-- A thread whose wait is over is runnable at the same PC. The results that its trap entry waited for have landed, so its QM
commands are over; the stores that its fence waited for have been placed, and the load that it waited at has been answered. -/
def Thread.wake (t : Thread) : Thread :=
  { t with status := .runnable, qm := if t.status = .parked .entry then [] else t.qm, far := if t.status = .parked .fence then [] else t.far,
           answer := match t.status with | .parked (.reply va) => some va | _ => t.answer }

/-- Whether a thread waits, and its wait is over; the wait for members is asked for after the others. (DEDUCED, log entry 75.) -/
def State.wakes (s : State) (core : Nat) (c : Crew) (members : Bool) (t : Thread) : Bool :=
  match t.status with
  | .parked w => (w == .members) == members && s.waitOver core c t w
  | _ => false

/-! ### PREEMPT (R370) -/

/-- The threads that owe a PREEMPT take it at a boundary where they may: in user mode, or in system mode with PE = 1. (DEDUCED, log entry 24.) -/
def State.takePreempts (s : State) (core : Nat) : State :=
  match (s.coreAt core).crew with
  | none => s
  | some c =>
    match c.preempt with
    | none => s
    | some (sub, save) =>
      let who := c.all.filter fun t => t.live && c.owing.contains t.ident.tid && (!t.modeS || t.modePE)
      let s := s.onCore core fun k => k.onCrew fun c =>
        { c with owing := c.owing.filter fun x => !(who.map (·.ident.tid)).contains x }
      s.preemptNow core sub save who

/-! ### Units and occupancy (R79, R106, R139, R158) -/

/-- The units that can execute a major opcode; what does not decode goes to the control unit, which takes its trap. -/
def unitsFor (op : Nat) : List ExUnit :=
  if op ≤ 0x20 ∨ op = 0x2B then [.va, .vb]
  else if op ≤ 0x23 then [.sfu]
  else if op ≤ 0x2A then [.mem]
  else if op = 0x2E ∨ op = 0x2F then [.cross]
  else if op = 0x3A ∨ op = 0x3B then [.engine]
  else [.control]

/-- The conversion codes with a pair operand (R112). -/
def cvtPair (b : Nat) : Bool :=
  b ≤ 0x01 || (decide (0x10 ≤ b) && decide (b ≤ 0x15)) || (decide (0x22 ≤ b) && decide (b ≤ 0x27)) ||
  (decide (0x2A ≤ b) && decide (b ≤ 0x2F))

/-- The clocks for which one gang instruction occupies its unit. (DESIGN CHOICE, log entry 8.) -/
def unitClocks (w : W32) : Nat :=
  let op := bitsOf w 31 26
  let m := bitsOf w 23 21
  if op = 0x01 ∨ op = 0x04 ∨ op = 0x08 ∨ (0x13 ≤ op ∧ op ≤ 0x16) ∨ op = 0x1E then 2
  else if op = 0x02 then (if m = 3 then 4 else if m ≥ 4 then 16 else 1)
  else if op = 0x0C then (if w.getLsbD 8 then 2 else 1)
  else if op = 0x0D then (if w.getLsbD 25 then 2 else 1)
  else if op = 0x20 then (if cvtPair (bitsOf w 6 0) then 2 else 1)
  else if op = 0x21 ∨ op = 0x22 then 2
  else if op = 0x23 then (if m = 2 then 4 else if m = 3 ∨ m = 5 ∨ m = 6 then 1 else 2)
  else if op = 0x2F then (if m = 3 then 2 else 1)
  else 1

/-! ### Runs (R135, R141) -/

/-- A run that could issue: its gang slot, PC, lanes, word, units and occupancy. -/
structure Run where
  slot  : Nat
  pc    : W64
  mask  : W32
  raw   : RawInstr
  units : List ExUnit
  occ   : Nat
  deriving DecidableEq, Repr

/-- The run of some lanes of a gang at one PC, with the word that the lowest lane fetches. -/
def State.runOf (s : State) (core slot : Nat) (l : List Thread) : Option Run :=
  match l with
  | [] => none
  | t :: _ => some (match s.fetch core t with
      | .ok raw => { slot, pc := t.pc, mask := maskOf l, raw, units := unitsFor (bitsOf raw.word 31 26), occ := unitClocks raw.word }
      | .error _ => { slot, pc := t.pc, mask := maskOf l, raw := ⟨0#32, none⟩, units := [.control], occ := 1 })

/-- The runnable lanes of a gang. -/
def Crew.runnables (c : Crew) (sect slot : Nat) : List Thread :=
  c.threads.filter fun t => t.inGang false sect slot && t.runnable

/-- The lanes that a YIELD defers at a cycle (R166): none when its time is over, or when no other lane of the gang is
runnable. -/
def Gang.deferred (g : Gang) (cycle : Nat) (l : List Thread) : W32 :=
  match g.defer with
  | none => 0#32
  | some (m, until') => if cycle < until' && (l.any fun t => !m.getLsbD t.place.lane) then m else 0#32

/-- The deferrals of a core that are over: 64 issue cycles have passed, or the gang has no other runnable run. -/
def Core.endDeferrals (k : Core) : Core :=
  k.onCrew fun c =>
    let ended (g : Gang) : Bool := g.deferred (k.sectAt g.sect).cycle (c.runnables g.sect g.slot) == 0#32
    { c with gangs := c.gangs.map fun g => if ended g then { g with defer := none } else g }

/-- The lanes of a gang's head run (R135). -/
def Crew.headLanes (c : Crew) (g : Gang) (cycle : Nat) : List Thread :=
  let l := c.runnables g.sect g.slot
  let m := g.deferred cycle l
  let l := l.filter fun t => !m.getLsbD t.place.lane
  match l with
  | [] => []
  | t :: r =>
    let pc := r.foldl (fun (p : W64) (u : Thread) => if u.pc.toNat < p.toNat then u.pc else p) t.pc
    l.filter fun u => u.pc == pc

/-- The anchor of a section (R141): its runnable lane thread with the least %tid. -/
def Crew.anchor (c : Crew) (sect : Nat) : Option Thread :=
  (c.threads.filter fun t => t.place.sect == sect && t.runnable).foldl (fun b t => match b with
    | none => some t
    | some x => if t.ident.tid.toNat < x.ident.tid.toNat then some t else some x) none

/-- The lanes of a forced run: the runnable lanes of the anchor's gang at the anchor's PC. -/
def Crew.forcedLanes (c : Crew) (t : Thread) : List Thread :=
  (c.runnables t.place.sect t.place.slot).filter fun u => u.pc == t.pc

/-! ### Delay trials (R385, R386) -/

def Core.trialOn (c : Core) : Bool := c.trial.getLsbD 31
def Core.trialDelay (c : Core) : Nat := bitsOf c.trial 15 0
def Core.inTrial (c : Core) (pc : W64) : Bool := decide (c.trlo.toNat ≤ pc.toNat ∧ pc.toNat < c.trhi.toNat)
/-- Whether a run pays debt in place of issuing. -/
def Core.pays (c : Core) (debt : Nat) (pc : W64) : Bool := c.trialOn && debt != 0 && !c.inTrial pc
/-- A debt after `n` issues in the range by others, and a payment. (DEDUCED, log entry 76.) -/
def Core.newDebt (c : Core) (debt n : Nat) (paid : Bool) : Nat :=
  if !c.trialOn then 0 else min (2 ^ 20) (debt - (if paid then 1 else 0) + n * c.trialDelay)

/-! ### The two slots of a section (R140, R195) -/

/-- The gangs of a section in age order, rotated to begin after slot `last`. When that slot holds no gang any more they begin at the
oldest, and a new gang in it takes its place. (DESIGN CHOICE, log entry 106.) -/
def Crew.rotation (c : Crew) (sect : Nat) (last : Option Nat) : List Gang :=
  let l := sortBy (fun (a b : Gang) => a.age < b.age || (a.age == b.age && decide (a.slot ≤ b.slot)))
    (c.gangs.filter fun g => g.sect == sect)
  match last with
  | none => l
  | some n => match l.findIdx? fun g => g.slot == n with
    | none => l
    | some i => l.drop (i + 1) ++ l.take (i + 1)

/-- The first of a run's units that is free. -/
def Run.unit (r : Run) (free : ExUnit → Bool) : Option ExUnit := r.units.find? free

/-- The first gang of a list whose run can issue to a free unit, with that unit and the gangs after it. -/
def pickRun (free : ExUnit → Bool) : List Run → Option (Run × ExUnit × List Run)
  | [] => none
  | r :: l => match r.unit free with
    | some u => some (r, u, l)
    | none => pickRun free l

/-- The runs that a section issues in a cycle, with their units, from the head runs `l` in the order of the rotation. `forced` takes the
first slot as soon as a unit of its own is free, and the second goes to the gangs `behind` it; until then it keeps the others from
those units. (DEDUCED, log entry 9.) -/
def pickSlots (free : ExUnit → Bool) (forced : Option Run) (l behind : List Run) : List (Run × ExUnit) :=
  let two (free : ExUnit → Bool) : List (Run × ExUnit) :=
    match pickRun free l with
    | none => []
    | some (r, u, l') => match pickRun (fun x => free x && x != u) l' with
      | none => [(r, u)]
      | some (r', u', _) => [(r, u), (r', u')]
  match forced with
  | none => two free
  | some f => match f.unit free with
    | some u => match pickRun (fun x => free x && x != u) behind with
      | none => [(f, u)]
      | some (r', u', _) => [(f, u), (r', u')]
    | none => two fun x => free x && !f.units.contains x

/-- The lanes of a mask. -/
def laneCount (m : W32) : Nat := ((List.range 32).filter m.getLsbD).length

/-- The crew after a cycle of a section: the deferrals of the gangs that issued end. -/
def Crew.gangsAfter (c : Crew) (sect : Nat) (runs : List Run) : Crew :=
  { c with gangs := c.gangs.map fun g =>
      if g.sect = sect ∧ runs.any (fun r => r.slot == g.slot) then { g with defer := none } else g }

/-- The debt of a gang slot (section × 16 + slot), or of the front end (64). -/
def Core.debt (k : Core) (i : Nat) : Nat := k.debts.getD i 0

/-- The debts after some issues in a cycle: `owners` are the slots of the runs that issued in the range, and `paid` those that paid. -/
def Core.debtsAfter (k : Core) (owners paid : List Nat) : Core :=
  { k with debts := (List.range 65).map fun i => k.newDebt (k.debt i) ((owners.filter (· != i)).length) (paid.contains i) }

/-- A new issue cycle of a core: the timers of its bins count while they hold threads and no gathering stops them (R150,
R152). -/
def Core.tick (k : Core) (cycle : Nat) : Core :=
  if cycle ≤ k.cycle then k
  else
    { k with cycle, crew := k.crew.map fun c =>
        if c.gathering then c
        else { c with bins := c.bins.map fun b => b.map fun (b : Bin) => { b with timer := b.timer - 1 } } }

/-- One issue cycle of a section of a core with a crew. -/
def State.issueSection (s : State) (core sect : Nat) (c : Crew) : State :=
  let k := s.coreAt core
  let x := k.sectAt sect
  let anchor := c.anchor sect
  let same := x.anchor == anchor.map (·.ident.tid)
  let timer := if same then x.timer else 0
  -- the timer counts the cycles before this one: in the 1,024th the run is forced
  let due := decide (timer ≥ 1023) || (x.forced.isSome && x.forced == anchor.map (·.ident.tid))
  let wanted : Option Run := match anchor with
    | none => none
    | some t => if due then s.runOf core t.place.slot (c.forcedLanes t) else none
  let turn := c.rotation sect x.last
  let headOf (g : Gang) : Option Run := s.runOf core g.slot (c.headLanes g x.cycle)
  let heads := turn.filterMap headOf
  let free (u : ExUnit) : Bool := !(x.busy.any fun b => b.1 == u && decide (x.cycle < b.2))
  let can (f : Run) : Bool := (f.unit free).isSome
  -- the next run of a gang is the forced run, where it has one that could issue now, else its head run
  let nexts := turn.filterMap fun g => match wanted with
    | some f => if f.slot = g.slot ∧ can f then some f else headOf g
    | none => headOf g
  let paid := (nexts.filter fun r => k.pays (k.debt (16 * sect + r.slot)) r.pc).map (·.slot)
  let forced := wanted.filter fun f => !(can f && paid.contains f.slot)
  let behind := match forced with
    | none => []
    | some f => ((turn.dropWhile fun g => g.slot != f.slot).drop 1).filterMap headOf
  let ready (l : List Run) : List Run := l.filter fun r => !paid.contains r.slot
  let sel := pickSlots free forced (ready heads) (ready behind)
  let runs := sel.map (·.1)
  let ran : Bool := match anchor with
    | none => false
    | some t => runs.any fun r => r.slot == t.place.slot && r.mask.getLsbD t.place.lane
  let paying : Bool := match anchor with
    | none => false
    | some t => paid.contains t.place.slot
  let len := issueUnits k.gov
  let time := x.time + len
  let x' := { x with
    cycle := x.cycle + 1, time,
    timer := if ran || anchor.isNone then 0 else if paying then timer else timer + 1,
    anchor := anchor.map (·.ident.tid),
    last := match runs with | [] => x.last | r :: _ => some r.slot,
    busy := (x.busy.filter fun b => decide (x.cycle < b.2)) ++ sel.map fun r => (r.2, x.cycle + r.1.occ),
    forced := if ran || !same then none else x.forced }
  let now := max s.now time
  let inside := (runs.filter fun r => k.inTrial r.pc).map fun r => 16 * sect + r.slot
  let s := s.onCore core fun k =>
    let k := ((k.onSect sect fun _ => x').tick (x.cycle + 1)).debtsAfter inside (paid.map (16 * sect + ·))
    { k with clk := max k.clk time, govWin := k.govWin + 1,
             govGate := k.govGate + (64 - (runs.map fun r => laneCount r.mask).sum),
             crew := k.crew.map fun c => c.gangsAfter sect runs }
  { s with now, slots := s.slots ++ runs.map fun r => { core, sfe := false, sect, slot := r.slot, mask := r.mask, raw := r.raw } }

/-- One issue cycle of the front end (R145). -/
def State.issueFront (s : State) (core : Nat) (c : Crew) : State :=
  let k := s.coreAt core
  let t := c.sfe
  let time := k.sfeTime + issueUnits k.gov
  let pays := t.runnable && k.pays (k.debt 64) t.pc
  let goes := t.runnable && !pays
  let s := s.onCore core fun k =>
    { k.debtsAfter (if goes && k.inTrial t.pc then [64] else []) (if pays then [64] else []) with sfeTime := time, clk := max k.clk time }
  let raw : RawInstr := match s.fetch core t with
    | .ok r => r
    | .error _ => ⟨0#32, none⟩
  { s with now := max s.now time,
           slots := s.slots ++ (if goes then [{ core, sfe := true, sect := 0, slot := 0, mask := 0#32, raw }] else []) }

/-! ### The governor (R144, R413) -/

/-- The section cycles of a window of 4,096 issue cycles, and the lane positions in it. -/
def govWindow : Nat := 4 * 4096
def govLanes : Nat := 256 * 4096

/-- The step that the governor takes at the end of a window, and from the core's next issue cycle on. The tokens of the module are free; a core that firmware holds stays at
600 MHz. (DESIGN CHOICE, log entry 66.) -/
def Core.governor (k : Core) (hold grant withdraw : Bool) : Core :=
  let g :=
    if hold then 0
    else if decide (k.govGate * 4 < govLanes) || withdraw then k.gov - 1
    else if decide (k.govGate * 2 ≥ govLanes) && decide (k.gov < 4) && grant then k.gov + 1
    else k.gov
  { k with govNext := some g, govWin := 0, govGate := 0 }

/-- GOVHOLD of the tenancy that owns a core's stack domain (R413). -/
def State.govHeld (s : State) (core : Nat) : Bool :=
  match s.tenOfStack (stackOfCore core) with
  | none => false
  | some t => (s.tenAt t).govhold

/-- GOVERNOR_WINDOW: at the end of a window. (DESIGN CHOICE, log entry 66.) -/
def execGovernorWindow (core : Nat) (s : State) : Result :=
  .next (if (s.coreAt core).govWin ≥ govWindow then
      s.onCore core fun k => k.governor (s.govHeld core) (Config.freeBool [24, core, s.free]) (Config.freeBool [25, core, s.free])
    else s)

/-- The governor before the first section of an issue cycle: a window that is over ends, the step decided since the last cycle is taken by all
the sections and the front end together, and a core that firmware holds issues in 3 control cycles (R144). -/
def State.governed (s : State) (core : Nat) : State :=
  let s := match execGovernorWindow core s with | .next t => t | _ => s
  let held := s.govHeld core
  s.onCore core fun k => { k with gov := if held then 0 else k.govNext.getD k.gov, govNext := none }

/-! ### Spawned gangs (R150, R151) -/

/-- A spawned thread in its place. Values that R151 does not name are those of a launched thread of the crew. -/
def Spawned.thread (x : Spawned) (t : Tcb) (ten : Tenancy) (c : Crew) (place : Place) (entry : W64) : Thread :=
  let th := t.thread ten c.task c.no false place x.tid entry
  { th with
    regs := th.regs.set 0 (Reg.of x.arg),
    ident := { th.ident with envid := x.envid },
    str := { th.str with episode := x.episode, step := x.step },
    dqpos := x.dqpos }

/-- Form a gang from a bin that is full or whose timer is 0. -/
def Crew.formGang (c : Crew) (t : Tcb) (ten : Tenancy) (i cycle : Nat) : Crew :=
  match (c.bins.getD i none), c.slotForBin with
  | some b, some (sect, slot) =>
    if !c.gathering && c.preempt.isNone && (b.threads.length ≥ 32 || b.timer = 0) && !b.threads.isEmpty then
      let new := b.threads.zipIdx.map fun (x, j) => x.thread t ten c { sect, slot, lane := j } b.entry
      { c with threads := c.threads ++ new, bins := c.bins.set i none,
               gangs := c.gangs ++ [{ sect, slot, age := cycle, defer := none }] }
    else c
  | _, _ => c

/-- GANG_FORMATION: a spawn bin forms a gang. The bins of a crew under pre-emption are saved as they stand (R372). -/
def execGangFormation (core : Nat) (bin : Nat) (s : State) : Result :=
  match (s.coreAt core).crew with
  | none => .next s
  | some c =>
    match s.task? c.ten c.task with
    | none => .next s
    | some t => .next (s.onCore core fun k => k.onCrew fun c => c.formGang t.tcb (s.tenAt c.ten) bin k.cycle)

/-- Every bin of a core that is ready forms its gang at once; where the slots do not suffice, the bin of the lowest number comes first.
(DESIGN CHOICE, log entry 102.) -/
def State.formGangs (s : State) (core : Nat) : State :=
  (List.range 8).foldl (fun s b => match execGangFormation core b s with | .next t => t | _ => s) s

/-! ### What an issue cycle begins with -/

/-- The arrivals of other devices may have completed a domain barrier of the core's task (R172, R395). -/
def State.domBarrier (s : State) (core : Nat) : State :=
  match (s.coreAt core).crew with
  | none => s
  | some c => match s.task? c.ten c.task with
    | none => s
    | some t => if t.tcb.group ≤ 1 then s else s.tryInst c.ten c.task (instOf 4 c.no 0)

/-- The accesses of a core's threads that have still to cross to the other die go to the bridge, each once (R391). -/
def State.crossAccesses (s : State) (core : Nat) : State :=
  match (s.coreAt core).crew with
  | none => s
  | some c =>
    let vas := (c.all.filterMap fun t => match t.status with
      | .parked (.bridge va) => if t.crossed.map (·.1) == some va then none else some va
      | _ => none).eraseDups
    (vas.filter fun va => !s.bridge.any fun b => b.load == .access core va).foldl (fun s va => s.cross (.access core va) (1 - dieOfCore core)) s

/-- Deferrals that are over end, threads that owe a PREEMPT take it, every thread of a core whose wait is over wakes, a gathering that is
complete ends, and bins that are ready form gangs. (DEDUCED, log entry 75.) -/
def State.rouse (s : State) (core : Nat) : State :=
  let pass (members : Bool) (s : State) : State :=
    s.onCore core fun k => k.onCrew fun c => c.onThreads (s.wakes core c members) fun v => v.onTh Thread.wake
  let s := (((s.onCore core Core.endDeferrals).domBarrier core).serveParked core).crossAccesses core
  ((pass true (pass false (s.takePreempts core))).tryRegroup core).formGangs core

/-- SECTION_ISSUE: one issue cycle of section 0 to 3 of a core, or of its front end for section 4: threads whose wait is over
wake, and up to two runs take the issue slots. -/
def execSectionIssue (core : Nat) (sect : Nat) (s : State) : Result :=
  let s := (if sect = 0 then s.governed core else s).rouse core
  match (s.coreAt core).crew with
  | none => .next s
  | some c => .next (if sect < 4 then s.issueSection core sect c else if sect = 4 then s.issueFront core c else s)

/-- FORCED_RUN: when the starvation timer has reached 1,024, the anchor's run is forced in the next cycle that its unit
allows. -/
def execForcedRun (core : Nat) (sect : Nat) (s : State) : Result :=
  .next (s.onCore core fun k => if sect < 4 ∧ (k.sectAt sect).timer ≥ 1023 then
    k.onSect sect fun x => { x with forced := x.anchor } else k)

/-- YIELD_DEFERRAL_END: after 64 issue cycles the deferred lanes rejoin. -/
def execYieldDeferralEnd (core : Nat) (sect : Nat) (slot : Nat) (s : State) : Result :=
  .next (s.onCore core fun k => k.onCrew fun c => { c with gangs := c.gangs.map fun g =>
    match g.defer with
    | none => g
    | some (_, until') => if g.sect = sect ∧ g.slot = slot ∧ until' ≤ (k.sectAt sect).cycle then { g with defer := none } else g })

/-! ### Results land (R13, R69) -/

/-- Whether a pending result may land by itself: its value is known, and it is not an engine's. -/
def Pending.ready (p : Pending) : Bool :=
  p.vals.isSome && (match p.kind with | .arith | .quiet | .load | .future | .task | .stq => true | .cmd | .carafe => false)

/-- Whether a pending result waits for the reply of a line group, which fills all of the group's destinations at once (R211). -/
def Core.awaitsReply (c : Core) (tid : W32) (id : Nat) : Bool := c.coll.any fun g => g.reqs.any fun r => r.tid == tid && r.pend == some id

/-- RESULT_LANDS: pending result `idx` of a thread. (DESIGN CHOICE, log entry 8.) -/
def execResultLands (who : ThreadRef) (idx : Nat) (s : State) : Result :=
  match s.view? who.core who.tid with
  | none => .next s
  | some v =>
    match v.th.pending[idx]? with
    | none => .next s
    | some p => .next (if p.ready && !(s.coreAt who.core).awaitsReply who.tid p.id then s.onThread who.core who.tid fun v => v.land p else s)

end Sys2Proof.Machine
end

