-- ==== Sys2Proof/Machine/Lines.lean ====
section
/-! DEFINITION. Line groups on their way to their homes and back (R203 to R211), program timestamps (R204), the crossbar's
lanterns (R214), the electrical mesh (R216, R217), current tokens (R218), page walks (R364) and the die bridge (R391 to
R393). -/

namespace Sys2Proof.Machine
open Sys2Proof

/-! ### The electrical mesh (R216, R217) -/

/-- A router that is awake, or whose wake is over. One that waits for its current token has no power (R218). -/
def State.routerOpen (s : State) (r : Nat) : Bool :=
  let x := s.routerAt r
  s.settled r && (x.awake || (x.wakeAt != 0 && decide (x.wakeAt ≤ s.control)))

/-- Whether an earlier message between the same two routers would be overtaken. -/
def State.overtakes (s : State) (msg : Nat) (m : MeshMsg) : Bool :=
  (s.msgs.take msg).any fun x => x.src == m.src && x.path.getLast? == m.path.getLast? && decide (m.path.length ≤ x.path.length)

/-- MESH_HOP: a message enters the next router of its path, which wakes the router two hops further on. A router that has powered down
since it was passed over by the wake signals is woken by the message that reaches it. (DESIGN CHOICE, log entry 18.) -/
def execMeshHop (msg : Nat) (s : State) : Result :=
  match s.msgs[msg]? with
  | none => .next s
  | some m =>
    match m.path with
    | [] => .next { s with msgs := s.msgs.eraseIdx msg }
    | r :: l =>
      if m.ready ≤ s.control ∧ s.routerOpen r ∧ !s.overtakes msg m then
        let s := s.putRouter { id := r, awake := true, wakeAt := 0, last := s.control }
        let s := match l[1]? with | none => s | some q => s.wakeRouter q 2
        .next (if l.isEmpty then { s with msgs := s.msgs.eraseIdx msg }
          else { s with msgs := s.msgs.set msg { m with path := l, ready := s.control + 3 } })
      else .next (if m.ready ≤ s.control ∧ (s.routerAt r).wakeAt = 0 then s.wakeRouter r 0 else s)

/-- ROUTER_POWER_DOWN: a router that has carried no message for 512 control cycles. -/
def execRouterPowerDown (router : Nat) (s : State) : Result :=
  let x := s.routerAt router
  .next (if x.awake && decide (x.last + 512 ≤ s.control) then s.putRouter { x with awake := false, wakeAt := 0 } else s)

/-- ROUTER_WAKE: a router finishes its wake. -/
def execRouterWake (router : Nat) (s : State) : Result :=
  let x := s.routerAt router
  .next (if !x.awake && s.routerOpen router then s.putRouter { x with awake := true, wakeAt := 0, last := s.control } else s)

/-! ### Current tokens and throttling (R218): timing only -/

/-- TOKEN_GRANT: a router (units 0 to 79 of a die) or a slice (80 to 159) that waits for a token draws one and powers up; once it is
settled it returns the token. -/
def execTokenGrant (die : Nat) (unit : Nat) (s : State) : Result :=
  let d := s.dieAt die
  if d.waiting.contains unit ∧ d.tokens ≠ 0 then
    .next (s.onDie die fun d =>
      { d with tokens := d.tokens - 1, waiting := d.waiting.filter (· != unit), settling := d.settling ++ [unit] })
  else if !d.waiting.contains unit ∧ d.settling.contains unit then
    let s := s.onDie die fun d => { d with tokens := d.tokens + 1, settling := d.settling.filter (· != unit) }
    .next (if unit < 80 then s.putRouter { id := 80 * die + unit, awake := true, wakeAt := 0, last := s.control } else s)
  else .next s

/-- Whether a slice has power: it has drawn its token and returned it. -/
def State.powered (s : State) (slice : Nat) : Bool :=
  let d := s.dieAt (slice / 80)
  let unit := 80 + slice % 80
  !d.waiting.contains unit && !d.settling.contains unit

/-- Whether the cells of a die inject at the limit: while the claim stands, and until the limit is lifted, 1,024 control cycles after at
the latest. -/
def State.throttled (s : State) (die : Nat) : Bool :=
  let d := s.dieAt die
  s.overClaim die || (d.throttle && decide (s.control < d.claimAt + 1024))

/-- THROTTLE_LIFT: the injection limit lifts after the claim has fallen. -/
def execThrottleLift (die : Nat) (s : State) : Result :=
  .next (if s.overClaim die then s else s.onDie die fun d => { d with throttle := false })

/-- Whether a cell may inject a packet into the crossbar now. -/
def State.mayInject (s : State) (cell : Nat) : Bool :=
  !s.throttled (cell / 80) || decide ((s.cellAt cell).sentAt + 4 ≤ s.control)

/-- A cell has injected a packet. -/
def State.injected (s : State) (cell : Nat) : State :=
  let s := s.onCell cell fun c => { c with sentAt := s.control }
  if s.overClaim (cell / 80) then s.onDie (cell / 80) fun d => { d with throttle := true, claimAt := s.control } else s

/-! ### Program timestamps (R204) -/

/-- PTS_ADVANCE: every program timestamp rises. -/
def execPtsAdvance (s : State) : Result :=
  .next { s with cores := s.cores.map fun c => { c with pts := c.pts + 1 }, ptsAt := s.control, ptsLow := s.ptsLow + 1 }

/-! ### Line groups (R211) -/

def Core.groupAt (c : Core) (i : Nat) : Option Group := c.coll[i]?
def State.setGroup (s : State) (core i : Nat) (g : Group) : State := s.onCore core fun c => { c with coll := c.coll.set i g }
def State.dropGroup (s : State) (core i : Nat) : State := s.onCore core fun c => { c with coll := c.coll.eraseIdx i }
/-- Change a group by its number, or remove it. -/
def State.onGroup (s : State) (core id : Nat) (f : Group → Group) : State :=
  s.onCore core fun c => { c with coll := c.coll.map fun g => if g.id = id then f g else g }
def State.endGroup (s : State) (core id : Nat) : State := s.onCore core fun c => { c with coll := c.coll.filter fun g => g.id != id }

/-- The home channel over which a place is reached (R205, R214): that of its slice, or of the cell of the core that has it. -/
def Loc.chan : Loc → Option Nat
  | .pad c _ | .state c _ _ => some (cellOf c)
  | l => l.slice

/-- The slice at which a group's line is homed, if any. -/
def Group.home (g : Group) : Option Nat := g.reqs.head?.bind fun r => r.loc.slice
def Group.chan (g : Group) : Option Nat := g.reqs.head?.bind fun r => r.loc.chan
/-- The die of a group's home. -/
def Group.homeDie (g : Group) (core : Nat) : Nat := ((g.chan).map (· / 80)).getD (dieOfCore core)
/-- Whether a group's place is at its own core, so that it sends no packet. -/
def Group.near (g : Group) (core : Nat) : Bool :=
  match g.reqs.head? with
  | none => false
  | some r => match r.loc with
    | .pad c _ | .state c _ _ => c == core
    | _ => false
/-- Whether a group's packet is on its way, or has come. -/
def Group.isSent (g : Group) : Bool := match g.phase with | .sent _ => true | _ => false

/-- Whether the collector is full, and a lane waits with a request for a new line. -/
def Core.pressed (c : Core) : Bool :=
  (decide (c.collReqs ≥ 512) || decide ((c.collected).length ≥ 64)) &&
  (match c.crew with
    | none => false
    | some k => k.all.any fun t => match t.status with
      | .parked (.collector l) => (c.openGroup l).isNone
      | _ => false)

/-- Whether a group may be sent: 16 issue cycles after its first request, with 32 requests, with the collector full and a new line
requested; or alone, at once. -/
def Core.sendable (c : Core) (g : Group) : Bool :=
  g.phase == .gathering &&
    (g.solo || decide (c.cycle ≥ g.opened + 16) || decide (g.reqs.length ≥ 32) || c.pressed)

/-- Whether a group stands behind an older one of its line that is still to be sent. -/
def Core.behindOwn (c : Core) (grp : Nat) (g : Group) : Bool := (c.coll.take grp).any fun x => x.line == g.line && x.phase == .gathering

/-- Whether a core has sent one of the groups that an instruction has requests in, and has still to send another. The two collectors of a
cell send such sets one after the other. (DEDUCED, log entry 13.) -/
def Core.midSend (c : Core) : Bool :=
  c.coll.any fun x => x.isSent && !x.near c.id && x.left.any fun a =>
    c.coll.any fun y => y.phase == .gathering && y.reqs.any fun b => b.inst == a.inst

/-- How a group leaves: as a renewal on the mesh, when its core holds a copy of the line that it loads (R203, R216); over the crossbar; over
the die bridge; or by the fabric to another device. -/
inductive Way where
  | mesh (home : Nat) | crossbar (chan : Nat) | bridge | fabric (rank : Nat)
  deriving DecidableEq, Repr

def State.way (s : State) (core : Nat) (g : Group) : Way :=
  match g.reqs.head?.bind (·.loc.away), g.chan with
  | some d, _ => .fabric d
  | none, none => .bridge
  | none, some k =>
    if g.leased && g.reqs.all Req.isLoad && (s.coreAt core).l1.any fun x => x.line == g.line then .mesh k
    else if k / 80 = dieOfCore core then .crossbar k else .bridge

/-- Whether a group is due: one that gathers may be sent, or the time of its retry has come (R208). -/
def State.due (s : State) (core grp : Nat) (g : Group) : Bool :=
  let c := s.coreAt core
  (match g.phase with
    | .gathering => c.sendable g && !c.behindOwn grp g
    | .waiting _ n => decide (n ≤ s.control)
    | _ => false) && !(s.coreAt (core / 2 * 2 + 1 - core % 2)).midSend

/-! ### Lanterns (R214) -/

/-- The lantern of a home channel. -/
def State.lanternAt (s : State) (chan : Nat) : Lantern :=
  (s.lantern.find? fun x => x.chan == chan).getD { chan, station := 0, used := 0, since := 0 }
def State.putLantern (s : State) (x : Lantern) : State := { s with lantern := putBy Lantern.chan x s.lantern }

/-- The home channel that a transfer enters behind the bridge: that of a line group's home, on its way there. -/
def State.crossChan (s : State) (b : Crossing) : Option Nat :=
  match b.load with
  | .packet core id => ((s.coreAt core).coll.find? fun g => g.id == id && g.isSent).bind (·.chan)
  | _ => none

/-- What a station has to send on a home channel now: the next packet that has crossed the bridge, or a cell's first line group. -/
def State.toSend (s : State) (chan station : Nat) : Option Instr :=
  if station = 80 then (s.bridge.findIdx? fun b => s.crossChan b == some chan).map .bridgeTransfer
  else
    let cell := chan / 80 * 80 + station
    if !s.mayInject cell then none
    else [2 * cell, 2 * cell + 1].findSome? fun core =>
      ((s.coreAt core).coll.zipIdx.find? fun (g, i) => s.due core i g && s.way core g == .crossbar chan).map fun (g, i) =>
        if g.phase == .gathering then .lineGroupSend core i else .nackRetry core i
def State.demands (s : State) (chan station : Nat) : Bool := (s.toSend chan station).isSome

/-- LANTERN_PASS: the lantern of a home channel passes to the next of the 81 stations: each pass takes a control cycle, and a holder with
a packet sends up to 2 before. A lantern that comes late has been passed on as each station allowed. (DESIGN CHOICE, log entry 18.) -/
def execLanternPass (chan : Nat) (s : State) : Result :=
  let x := s.lanternAt chan
  .next (if chan < Config.cells ∧ x.since < s.control ∧ (2 ≤ x.used ∨ !s.demands chan x.station) then
      s.putLantern { chan, station := (x.station + 1) % 81, used := 0, since := max (x.since + 1) (s.control - 162) }
    else s)

/-- Whether a station holds the lantern of a channel and may send on it. -/
def State.holds (s : State) (chan station : Nat) : Bool :=
  let x := s.lanternAt chan
  x.station == station && decide (x.used < 2)
/-- The holder has sent a packet. -/
def State.usedLantern (s : State) (chan : Nat) : State :=
  let x := s.lanternAt chan
  s.putLantern { x with used := x.used + 1, since := max x.since (s.control - 162) }

/-- What a lantern does that a station has waited for long enough: its holder sends, or it passes on. (DESIGN CHOICE, log entry 18.) -/
def State.lanternDue (s : State) : Option Instr :=
  (List.range Config.cells).findSome? fun k =>
    let x := s.lanternAt k
    if x.since + 3 ≤ s.control ∧ (List.range 81).any (s.demands k) then
      (if x.used < 2 then s.toSend k x.station else none).orElse fun _ => some (.lanternPass k)
    else none

/-! ### Sending (R208, R211, R214, R391) -/

/-- Whether a due group may leave now. -/
def State.clear (s : State) (core : Nat) (g : Group) : Bool :=
  let cell := cellOf core
  match s.way core g with
  | .mesh _ => true
  | .fabric d => !s.cutOff d || g.reqs.any Req.isLoad
  | .crossbar k => s.holds k (cell % 80) && s.mayInject cell
  | .bridge => s.mayInject cell && decide ((s.dieAt (dieOfCore core)).recvAt ≤ s.control)

/-- The bytes of a request to another device: its address, and what it writes. (DESIGN CHOICE, log entry 78.) -/
def Req.bytes (r : Req) : List Byte :=
  bytesOf 8 r.va.toNat ++ (match r.op with | .store v => bytesOf r.n v.toNat | _ => bytesOf 8 r.n)

/-- The loads of a group for a device that cannot be reached are given up; its stores stay until there is a path (R399). (DEDUCED, log entry
110.) -/
def State.dropLoads (s : State) (core grp : Nat) (g : Group) : State :=
  match g.reqs.filter fun r => !r.isLoad with
  | [] => s.dropGroup core grp
  | l => s.setGroup core grp { g with reqs := l }

/-- A group leaves. A packet for the other die takes the receive channel of its own die's bridge port for a control cycle (R391). The
requests to another device have left when their flits wait at its port (R396, R397). -/
def State.sendGroup (s : State) (core grp : Nat) (g : Group) (tries : Nat) : State :=
  let t := { s.setGroup core grp { g with phase := .sent s.serial, tries } with serial := s.serial + 1 }
  match s.way core g with
  | .mesh k => t.inject (cellOf core) k (some (core, g.id))
  | .crossbar k => (t.injected (cellOf core)).usedLantern k
  | .bridge => ((t.injected (cellOf core)).onDie (dieOfCore core) fun d => { d with recvAt := s.control + 1 }).cross (.packet core g.id) (g.homeDie core)
  | .fabric d => if s.cutOff d then s.dropLoads core grp g else (g.reqs.foldl (fun t r => t.transmit (dieOfCore core) d 1 0#64 [r.bytes]) t).dropGroup core grp

/-- LINE_GROUP_SEND: the group leaves for its home while its cell holds the lantern of the home channel, or for the die bridge when the
home is on the other die. (DEDUCED, log entry 13.) -/
def execLineGroupSend (core : Nat) (grp : Nat) (s : State) : Result :=
  match (s.coreAt core).groupAt grp with
  | none => .next s
  | some g => .next (if g.phase == .gathering && s.due core grp g && s.clear core g then s.sendGroup core grp g g.tries else s)

/-! ### At the home -/

/-- Whether what a group has sent, or its reply, is still on the mesh or the bridge. -/
def State.inFlight (s : State) (core : Nat) (g : Group) : Bool :=
  (s.msgs.any fun m => m.cargo == some (core, g.id)) ||
  s.bridge.any fun b => match b.load with
    | .packet c id => c == core && id == g.id
    | .mesh _ _ cargo => cargo == some (core, g.id)
    | _ => false

/-- The requests that a home performs together, from the next request of a group on: its loads read one version of the line (R211). -/
def Group.block (g : Group) : List Req :=
  match g.left with
  | [] => []
  | r :: l => if r.isLoad then (r :: l).takeWhile Req.isLoad else [r]

/-- Whether a sent group has reached its home, which has power and is free for it (R204, R218), no row or line that it needs is on its
way (R199, R390), and no group of its line that its cell sent before it is left (R205, R215). -/
def State.arrived (s : State) (core : Nat) (g : Group) : Bool :=
  g.isSent && !s.inFlight core g &&
  !(g.block.any fun r => s.underRepair r.loc || (s.emptyLine r.loc).isSome) &&
  !((s.coreAt (core / 2 * 2 + 1 - core % 2)).coll.any fun x => x.line == g.line && !x.left.isEmpty &&
    (match x.phase, g.phase with | .sent m, .sent n => decide (m < n) | _, _ => false)) &&
  (match g.home with
    | none => true
    | some k => s.powered k && decide ((s.sliceAt k).freeAt ≤ s.control))

/-- The bypass buffer of a slice takes or keeps an entry for a line that was served without allocating (R207). (DESIGN CHOICE, log entry 15.) -/
def State.bypassed (s : State) (l : Loc) : State :=
  match l.slice with
  | none => s
  | some k =>
    let x := s.stamps l
    s.onSlice k fun c => { c with bypass := (c.bypass.filter fun b => b.line != l.line) ++
      [{ line := l.line, rts := x.rts, freeAt := s.control + 64 }] }

/-- Whether a group's line is served by the bypass buffer. -/
def State.viaBypass (s : State) (g : Group) : Bool := g.cached && (g.reqs.head?.map fun r => s.fullyPinned r.loc).getD false

/-- Whether the 64 entries of every bypass buffer suffice for groups that are served together: for the lines that have an entry, and for
those that take one. (DESIGN CHOICE, log entry 15.) -/
def State.hasRoom (s : State) (l : List Group) : Bool :=
  let via := l.filter s.viaBypass
  via.all fun g => match g.home with
    | none => true
    | some k =>
      let b := ((s.sliceAt k).bypass).map (·.line)
      let new := (((via.filter fun x => x.home == some k).map (·.line)).filter fun x => !b.contains x).eraseDups
      new.isEmpty || decide (b.length + new.length ≤ 64)

/-- Whether the home has no room in its bypass buffer for a group that it has not begun. The entry of one that it has begun stays (R207). -/
def State.turnedAway (s : State) (g : Group) : Bool := decide (g.done = 0) && !s.hasRoom [g]

/-- Bind the values of a request's pending result. -/
def State.bindReq (s : State) (core : Nat) (r : Req) (v : Nat) : State :=
  match r.pend with
  | none => s
  | some id => s.bind core r.tid id (r.op.words v)

/-- A request whose data is lost: its destination keeps what it holds, and the instruction that consumes the data takes MCHECK (R369,
R393). -/
def State.markReq (s : State) (core : Nat) (r : Req) : State :=
  match r.pend with
  | none => s
  | some id => s.onThread core r.tid fun v => v.onTh fun t => { t with pending := t.pending.map fun p =>
      if p.id = id then { p with vals := some (p.dst.map fun d => (v.get d).val), mark := .load r.va } else p }

/-- A group is performed: its reply leaves with data on the receive channel, or without on the mesh (R203, R214, R216). `same` says that the
copy which its core holds is of the version loaded. A reply with data takes its place among those of its channel (R215). -/
def State.replyGroup (s : State) (core : Nat) (g : Group) (same : Bool) : State :=
  let near := g.near core
  let data := !near && (g.reqs.any fun r => r.pend.isSome) && !(same && g.reqs.all Req.isLoad)
  let s := s.onGroup core g.id fun _ => { g with phase := .replied g.copy (g.reqs.any Req.isLoad) data, nth := s.serial }
  let s := { s with serial := s.serial + 1 }
  if near then s
  else if !data then s.inject ((g.chan).getD 0) (cellOf core) (some (core, g.id))
  else if g.homeDie core ≠ dieOfCore core then s.cross (.packet core g.id) (dieOfCore core)
  else s

/-- The home has performed n more requests of a group, and replies when none is left. It performs one block in a control cycle, so that it
raises no timestamp by more than L + 1 in one (R204). -/
def State.stepGroup (s : State) (core : Nat) (g : Group) (n : Nat) (copy : Option Line) (same : Bool) : State :=
  let g := { g with done := g.done + n, copy }
  let s := match g.home with
    | none => s
    | some k => s.onSlice k fun y => { y with freeAt := max y.freeAt s.control + 1 }
  let s := match g.reqs with
    | r :: _ => if s.viaBypass g then s.bypassed r.loc else s
    | [] => s
  if g.left.isEmpty then s.replyGroup core g same else s.onGroup core g.id fun _ => g

/-- The loads of a group read one version of the line (R203, R211, R221): the reply carries it, and is a
renewal on the mesh when the core's copy is of that version. (DEDUCED, log entry 12.) -/
def State.groupLoads (s : State) (core : Nat) (g : Group) (r0 : Req) (rs : List Req) : State :=
  let s := rs.foldl (fun s r => s.settle r.loc r.n) s
  let same := (s.coreAt core).l1.any fun x => x.line == g.line && x.wts == (s.stamps r0.loc).wts
  let (s, copy) := if g.leased then let (s, x) := s.leaseLine core r0.loc; (s, some x) else (s.stampLoad core r0.loc, g.copy)
  let s := rs.foldl (fun s r => if s.spoiled r.loc r.n then s.markReq core r else s.bindReq core r (s.rd r.loc r.n)) s
  s.stepGroup core g rs.length copy (g.leased && same)

/-- An LDF at its home: answered, deferred, or refused for want of a slot (R209, R210). -/
def State.homeLdf (s : State) (core : Nat) (g : Group) (r : Req) : State :=
  match s.ldfAt core r.loc with
  | (s, some x) => (s.bindReq core r x).stepGroup core g 1 none false
  | (s, none) =>
    match r.pend with
    | none => s.endGroup core g.id
    | some id =>
      if s.hasSlot r.loc then
        { s.endGroup core g.id with deferred := s.deferred ++ [{ word := r.loc.word8, core, tid := r.tid, pend := id, len := r.len, born := s.serial }] }
      else (s.onGroup core g.id fun g => { g with phase := .refused (g.tries + 1) }).inject ((g.chan).getD 0) (cellOf core) (some (core, g.id))

/-- Any other request of a group at its home: a write's reply carries the line as it leaves it, with (wts, wts). One that reads bytes which
an uncorrectable error has taken has no effect. -/
def State.homeReq (s : State) (core : Nat) (g : Group) (r : Req) : State :=
  let reads : Bool := match r.op with | .rmw .. => true | _ => false
  if reads && s.spoiled r.loc r.n then (s.markReq core r).stepGroup core g 1 g.copy false
  else
    let (s, v) := s.perform core r.loc r.n r.op
    let wrote : Bool := match r.op with
      | .rmw op y e => (op.apply v y.toNat e.toNat).isSome
      | .term .. => false
      | _ => true
    (s.bindReq core r v).stepGroup core g 1 (if g.leased && wrote then some (s.lineAt r.loc) else g.copy) false

/-- The home performs the next requests of a group. -/
def State.atHome (s : State) (core : Nat) (g : Group) : State :=
  match g.block with
  | [] => s.endGroup core g.id
  | r :: l =>
    if r.isLoad then s.groupLoads core g r (r :: l)
    else if r.isLdf then (if s.spoiled r.loc 8 then (s.markReq core r).stepGroup core g 1 none false else s.homeLdf core g r)
    else s.homeReq core g r

/-- What must be performed no later than a request of a group: the earlier requests of its instruction (R220), and those of its line. -/
def Core.before (c : Core) (g : Group) (r : Req) : List (Group × Req) :=
  c.coll.flatMap fun x => if x.id = g.id then [] else
    (x.left.filter fun y => decide (y.seq < r.seq) && (y.inst == r.inst || y.loc.line == r.loc.line)).map fun y => (x, y)

/-- The groups of a core whose next requests are performed together with those of some: loads of one instruction in several lines, each of
which must come before another (R211, R220). None where something else must be performed first. (DEDUCED, log entry 13.) -/
def State.along (s : State) (core : Nat) (l : List Group) : Nat → Option (List Group)
  | 0 => none
  | n + 1 =>
    let need := (l.flatMap fun g => g.block.flatMap ((s.coreAt core).before g)).filter fun y =>
      !(l.any fun x => x.id == y.1.id && x.block.contains y.2)
    match need with
    | [] => some l
    | (x, y) :: _ =>
      if (l.all fun g => g.block.all Req.isLoad) && y.isLoad && x.block.contains y && s.arrived core x && s.hasRoom (l ++ [x]) then
        s.along core (l ++ [x]) n
      else none

/-- Groups whose loads are performed together take one time, which passes that of the latest version among their lines, so that the lanes of
an instruction stand in order in M (R220). -/
def State.oneTime (s : State) (core : Nat) (l : List Group) : State :=
  let rs := l.flatMap Group.block
  let s := rs.foldl (fun s r => s.settle r.loc r.n) s
  s.raisePts core (rs.foldl (fun m r => max m (s.stamps r.loc).wts) 0)

/-- Whether a packet that the group's cell sent to the same home channel before it could be performed now: packets of one station to one
channel are taken in the order in which they were sent (R215). -/
def State.passesEarlier (s : State) (core : Nat) (l : List Group) : Bool :=
  l.any fun g => [core / 2 * 2, core / 2 * 2 + 1].any fun k => (s.coreAt k).coll.any fun x =>
    !(k == core && l.any fun y => y.id == x.id) && x.chan == g.chan && !x.left.isEmpty && !x.near k &&
    (match x.phase, g.phase with | .sent m, .sent n => decide (m < n) | _, _ => false) &&
    s.arrived k x && (s.turnedAway x || (s.along k [x] 64).any fun y => y.length == 1)

/-- LINE_GROUP_AT_HOME: the home performs the next requests of a group, or refuses it. A retried LDF asks for its slot again (R210). (DEDUCED, log entry 13.) -/
def execLineGroupAtHome (core : Nat) (grp : Nat) (s : State) : Result :=
  match (s.coreAt core).groupAt grp with
  | none => .next s
  | some g =>
    if !s.arrived core g || (!g.near core && s.passesEarlier core [g]) then .next s
    else if s.turnedAway g then
      .next ((s.setGroup core grp { g with phase := .refused (g.tries + 1) }).inject ((g.chan).getD 0) (cellOf core) (some (core, g.id)))
    else match s.along core [g] 64 with
      | none => .next s
      | some [_] => .next (s.atHome core g)
      | some l => .next (if s.passesEarlier core l then s else l.foldl (fun s x => s.atHome core x) (s.oneTime core l))

/-- Install a line in the L1 of 2,048 lines, unless a newer version stands there. The line that gives up its place is free. (DESIGN
CHOICE, log entry 14.) -/
def Core.install (c : Core) (victim : Nat) (x : Line) : Core :=
  if c.l1.any fun y => y.line == x.line && decide (x.wts < y.wts) then c
  else if c.l1.length < 2048 || c.l1.any fun y => y.line == x.line then { c with l1 := putBy (·.line) x c.l1 }
  else { c with l1 := putBy (·.line) x (c.l1.eraseIdx (victim % c.l1.length)) }

/-- What a reply does to the L1: it installs the line that was loaded, and updates the copy of one that was written. -/
def Core.replied (c : Core) (victim : Nat) (load : Bool) (x : Line) : Core :=
  if load || c.l1.any fun y => y.line == x.line then c.install victim x else c

/-- An LDF that is answered moves its thread on (R209). -/
def Thread.ldfDone (t : Thread) (len : W64) : Thread :=
  if t.status = .parked .future then { (t.payOwed.complete len) with status := .runnable, walked := [] } else t

/-- The results of a group's requests land. -/
def State.landReqs (s : State) (core : Nat) (l : List Req) : State :=
  l.foldl (fun s r => match r.pend with
    | none => s
    | some id => s.onThread core r.tid fun v => match v.th.pending.find? fun p => p.id == id with
      | none => v
      | some p => if r.isLdf then (v.land p).onTh fun t => t.ldfDone r.len else v.land p) s

/-- The station that writes a group's reply to the receive channel of its cell: the home's slice, or the bridge port (R391). -/
def Group.station (g : Group) (core : Nat) : Option Nat := if g.homeDie core = dieOfCore core then g.chan else none

/-- Whether a reply can land: it has crossed, no earlier one of its station to its cell is left (R215), and the receive channel of the cell,
which takes a packet in each control cycle, is free. -/
def State.mayLand (s : State) (core : Nat) (g : Group) (data : Bool) : Bool :=
  !s.inFlight core g && (!data || (decide ((s.cellAt (cellOf core)).recvAt ≤ s.control) &&
    [core / 2 * 2, core / 2 * 2 + 1].all fun k => (s.coreAt k).coll.all fun x =>
      !(x.station k == g.station core && decide (x.nth < g.nth) &&
        (match x.phase with | .replied _ _ d => d | _ => false) && !s.inFlight k x)))

/-- LINE_GROUP_REPLY: the reply lands at the core. -/
def execLineGroupReply (core : Nat) (grp : Nat) (s : State) : Result :=
  match (s.coreAt core).groupAt grp with
  | none => .next s
  | some g =>
    match g.phase with
    | .replied copy load data =>
      if !s.mayLand core g data then .next s
      else
        let s := s.dropGroup core grp
        let s := if data then s.onCell (cellOf core) fun c => { c with recvAt := s.control + 1 } else s
        let s := match copy with
          | none => s
          | some x => s.onCore core fun c => c.replied (Config.freeWord [38, s.free]).toNat load x
        .next ((s.landReqs core g.reqs).settleEnd core)
    | _ => .next s

/-- The control cycles before the k-th retry (R208). -/
def retryDelay (k : Nat) : Nat := 16 * 2 ^ min (k - 1) 6

/-- A retry counts in %nack of its lane when it is sent, and saturates. -/
def Thread.countNack (t : Thread) : Thread :=
  { t with ctl := { t.ctl with nack := if t.ctl.nack = BitVec.allOnes 32 then t.ctl.nack else t.ctl.nack + 1#32 } }

/-- NEGATIVE_ACKNOWLEDGEMENT: it has come, and the core schedules a retry. -/
def execNegativeAcknowledgement (core : Nat) (grp : Nat) (s : State) : Result :=
  match (s.coreAt core).groupAt grp with
  | none => .next s
  | some g =>
    match g.phase with
    | .refused k =>
      .next (if s.inFlight core g then s else s.setGroup core grp { g with phase := .waiting k (s.control + retryDelay k) })
    | _ => .next s

/-- NACK_RETRY: the refused request is sent again, as any other. -/
def execNackRetry (core : Nat) (grp : Nat) (s : State) : Result :=
  match (s.coreAt core).groupAt grp with
  | none => .next s
  | some g =>
    match g.phase with
    | .waiting k _ =>
      if s.due core grp g && s.clear core g then
        .next (g.reqs.foldl (fun s r => s.onThread core r.tid fun v => v.onTh Thread.countNack) (s.sendGroup core grp g k))
      else .next s
    | _ => .next s

/-- Whether a home has begun a group of a line, and has still to reply. -/
def State.begun (s : State) (line : Nat) : Bool :=
  s.cores.any fun c => c.coll.any fun g => g.line == line && g.isSent && decide (g.done ≠ 0)

/-- BYPASS_ENTRY_FREE: an entry of a slice is freed, 64 control cycles after the last reply with its line. Its rts is kept as the slice's
memory timestamp, and its line is resident no longer. -/
def execBypassEntryFree (slice : Nat) (entry : Nat) (s : State) : Result :=
  match ((s.sliceAt slice).bypass)[entry]? with
  | none => .next s
  | some b =>
    if s.control < b.freeAt ∨ s.begun b.line = true then .next s
    else
      let rts := max b.rts (((s.home.find? fun x => x.line == b.line).map (·.rts)).getD 0)
      let s := s.onSlice slice fun c => { c with bypass := c.bypass.eraseIdx entry, memTs := max c.memTs rts }
      .next { s with home := s.home.filter fun x => x.line != b.line }

/-! ### Page walks (R364) -/

/-- The slice of a die whose shared TLB serves a page: the spec does not say which. (DESIGN CHOICE, log entry 92.) -/
def tlbSlice (die page : Nat) : Nat := 80 * die + page % 80

/-- The walks that threads wait for: the die, the root and the page, once for every page of a die. A thread's walk starts when
its earlier accesses are performed. -/
def State.walks (s : State) : List (Nat × W64 × Nat) :=
  (s.cores.flatMap fun c => match c.crew with
    | none => []
    | some k => k.all.filterMap fun t => match t.status with
      | .parked (.walk root page) => if c.outstanding t.ident.tid then none else some (dieOfCore c.id, root, page)
      | _ => none).eraseDups

/-- A thread takes the result of its walk, and tries its access again. It keeps the results of the walks of one
instruction until that instruction commits or traps. -/
def Thread.takeWalk (t : Thread) (root : W64) (page : Nat) (f : Found) : Thread :=
  if t.status = .parked (.walk root page) then { t with status := .runnable, walked := (page, f) :: t.walked } else t

/-- A TLB of n entries takes a translation. -/
def takeTlb (n : Nat) (l : List TlbEntry) (x : TlbEntry) : List TlbEntry :=
  x :: (l.filter fun e => !(e.root == x.root && e.page == x.page)).take (n - 1)

/-- A core's L1 TLB, of 512 entries, takes a translation that passed R363. -/
def Core.fillTlb (c : Core) (root : W64) (page : Nat) (f : Found) (doms : List Nat) (dev : Nat) : Core :=
  match f with
  | .entry pte lvl => if (Pte.of pte).inTenancy doms dev then { c with tlb := takeTlb 512 c.tlb { root, page, pte, lvl } } else c
  | _ => c

/-- What a walk for a page ends with: the translation that the shared TLB of 4,096 entries holds, or what the tables give, which that TLB
then takes. -/
def State.walkEnd (s : State) (die ten : Nat) (root : W64) (page : Nat) : State × Found :=
  let k := tlbSlice die page
  let va := BitVec.ofNat 64 (page * 65536)
  match (s.sliceAt k).tlb.find? fun e => e.root == root && e.page == page with
  | some e => (s, s.heldEntry ten va e)
  | none =>
    match s.walk ten root va with
    | .entry pte lvl =>
      if (Pte.of pte).inTenancy (s.tenAt ten).doms s.dev then
        (s.onSlice k fun x => { x with tlb := takeTlb 4096 x.tlb { root, page, pte, lvl } }, .entry pte lvl)
      else (s, .entry pte lvl)
    | f => (s, f)

/-- The physical addresses of the entries that a walk reads. -/
def State.walkReads (s : State) (va : W64) (table : Nat) : Nat → List Nat
  | 0 => []
  | lvl + 1 =>
    let a := table + 8 * levelIndex va (lvl + 1)
    let e := (s.settle (.mem a) 8).phys64 a
    a :: (if !e.getLsbD 0 || e.getLsbD 1 || tableMalformed e then [] else s.walkReads va (nextTable e) lvl)

/-- The entries that the walk of a page reads on a die: none when the die's shared TLB holds the translation. -/
def State.walkLoads (s : State) (die : Nat) (root : W64) (page : Nat) : List Nat :=
  if (s.sliceAt (tlbSlice die page)).tlb.any fun e => e.root == root && e.page == page then []
  else s.walkReads (BitVec.ofNat 64 (page * 65536)) root.toNat 4

/-- A walk ends for every thread of its die that joined it; the terms held for the entries that it reads are settled (R240). `lost` says that a load of it was lost on the bridge (R393). -/
def State.endWalk (s : State) (die : Nat) (root : W64) (page : Nat) (lost : Bool) : State :=
  let joins (c : Core) (t : Thread) : Bool := t.status == .parked (.walk root page) && !c.outstanding t.ident.tid
  let waits (c : Core) : Bool := match c.crew with
    | none => false
    | some k => k.all.any (joins c)
  let here (c : Core) : Bool := dieOfCore c.id == die && waits c
  let ten := ((s.cores.find? here).map (·.ten)).getD 0
  let s := (s.walkLoads die root page).foldl (fun s a => s.settle (.mem a) 8) s
  let (s, f) := if lost then (s, .lost) else s.walkEnd die ten root page
  let cores := s.cores.map fun c =>
    if here c then
      (c.fillTlb root page f (s.tenAt c.ten).doms s.dev).onCrew fun k =>
        k.onThreads (joins c) fun v => v.onTh fun t => t.takeWalk root page f
    else c
  { s with cores }

/-- WALK_COMPLETE: a walk ends for every thread of its die that joined it. A die has 32 walkers. A walk that reads an entry homed on the other
die ends when its loads have crossed the bridge (R391), and one that reads a row under repair when that is repaired (R390). (DEDUCED, log entry 10.) -/
def execWalkComplete (walk : Nat) (s : State) : Result :=
  match s.walks[walk]? with
  | none => .next s
  | some (die, root, page) =>
    let loads := s.walkLoads die root page
    if ((s.walks.take walk).filter fun w => w.1 == die).length ≥ 32 ∨ (loads.any fun a => s.underRepair (.mem a)) = true then .next s
    else if s.bridge.any fun b => b.load == .walk die root page then .next s
    else if loads.any fun a => sliceOfPhys a / 80 != die then .next (s.cross (.walk die root page) (1 - die))
    else .next (s.endWalk die root page false)

/-! ### The die bridge (R391 to R393) -/

/-- Whether an earlier transfer keeps one back: of a home channel, or between the same two routers, they cross in order. -/
def State.queuedBehind (s : State) (idx : Nat) (b : Crossing) : Bool :=
  (s.bridge.take idx).any fun x => match x.load, b.load with
    | .mesh a c _, .mesh a' c' _ => a == a' && c == c'
    | .packet .., .packet .. => x.die == b.die && s.crossChan x == s.crossChan b
    | _, _ => false

/-- The threads of a core that wait for an access at an address to cross. -/
def State.accessCrossed (s : State) (core : Nat) (va : W64) (lost : Bool) : State :=
  s.onCore core fun c => c.onCrew fun k => k.onThreads (fun t => t.status == .parked (.bridge va)) fun v =>
    v.onTh fun t => { t with crossed := some (va, lost) }

/-- BRIDGE_TRANSFER: a transfer crosses. The bridge port of the other die sends a packet on while it holds the lantern of its channel; a
reply has come by the port's own receive channel, and stands last among those that wait for its cell's; a page walk whose loads have crossed
ends; and a thread whose access has crossed goes on. -/
def execBridgeTransfer (idx : Nat) (s : State) : Result :=
  match s.bridge[idx]? with
  | none => .next s
  | some b =>
    let crossed : State := { s with bridge := s.bridge.eraseIdx idx }
    if s.queuedBehind idx b then .next s
    else match s.crossChan b, b.load with
      | some k, _ => .next (if s.holds k 80 then crossed.usedLantern k else s)
      | none, .packet core id =>
        .next (if (s.dieAt (1 - b.die)).recvAt ≤ s.control then
            { (crossed.onDie (1 - b.die) fun d => { d with recvAt := s.control + 1 }).onGroup core id fun g => { g with nth := s.serial } with
              serial := s.serial + 1 } else s)
      | none, .access core va => .next (crossed.accessCrossed core va false)
      | none, .walk die root page => .next (crossed.endWalk die root page false)
      | none, _ => .next crossed

/-- A group one of whose transfers is uncorrectable: its loads end with a mark on destinations that are not written, at which the
instruction that consumes the data takes MCHECK; whether a write whose request was lost was performed is free. (DEDUCED, log entry 16.) -/
def State.loseGroup (s : State) (core : Nat) (g : Group) : State :=
  let s := g.left.zipIdx.foldl (fun s (r, i) =>
    if !r.isLoad && !r.isLdf && Config.freeBool [27, s.free, g.id, i] then (s.perform core r.loc r.n r.op).1 else s) s
  (g.reqs.foldl (fun s r => s.markReq core r) s).landReqs core g.reqs

/-- The die of a tenancy's command processor (R185). -/
def Tenancy.die (t : Tenancy) : Nat := t.doms.headD 0 / 4

/-- What an uncorrectable transfer leaves: the record of kind 2, and MCHECK at the consumer of its data, or STATUS 2 (R393). -/
def State.loseLoad (s : State) (l : Load) : State :=
  let group (core id : Nat) : State :=
    match (s.coreAt core).coll.find? fun g => g.id == id with
    | none => s
    | some g =>
      let s := s.sump 2 (dieOfCore core) (s.coreAt core).ten core 1 (((g.reqs.head?).map (·.va)).getD 0#64) 1#64
      ((s.endGroup core g.id).loseGroup core g).settleEnd core
  match l with
  | .packet core id | .mesh _ _ (some (core, id)) => group core id
  | .mesh a _ none => s.sump 2 (a / 80) 0xFF a 0 0#64 1#64
  | .cmd r id va =>
    (s.sump 2 (dieOfCore r.core) (s.coreAt r.core).ten r.core 2 va 1#64).onCmd r id fun c => { c with lost := true }
  | .walk die root page =>
    (s.sump 2 die 0xFF 0xFFFF 0 (BitVec.ofNat 64 (page * 65536)) 1#64).endWalk die root page true
  | .access core va => (s.sump 2 (dieOfCore core) (s.coreAt core).ten core 1 va 1#64).accessCrossed core va true
  | .cp ten _ _ => s.sump 2 (s.tenAt ten).die ten 0xFFFF 0 0#64 1#64

/-- BRIDGE_CRC_FAIL: the transfer is sent again; after 16 attempts it is uncorrectable. (DEDUCED, log entry 16.) -/
def execBridgeCrcFail (idx : Nat) (s : State) : Result :=
  match s.bridge[idx]? with
  | none => .next s
  | some b =>
    .next (if b.attempts + 1 < 16 then { s with bridge := s.bridge.set idx { b with attempts := b.attempts + 1 } }
      else ({ s with bridge := s.bridge.eraseIdx idx }).loseLoad b.load)

end Sys2Proof.Machine
end

