-- ==== Sys2Proof/Machine/Preempt.lean ====
section
/-! DEFINITION. Pre-emption (R370), repair in service (R390), freeze (R389) and the
service ring (R367, R411). -/

namespace Sys2Proof.Machine
open Sys2Proof

/-! ### Pre-emption (R370) -/

/-- The bins of a crew form gangs at once, as far as slots are found; their threads take the PREEMPT too. -/
def Crew.binsForm (c : Crew) (t : Tcb) (ten : Tenancy) (cycle : Nat) : Crew :=
  (List.range 8).foldl (fun c i => match c.bins.getD i none with
    | none => c
    | some b => ({ c with bins := c.bins.set i (some { b with timer := 0 }) }).formGang t ten i cycle) c

/-- The command processor pre-empts the crew of a core: stops that hold its commands are released (R381), its GR.SAPs end
(R330), and every thread takes PREEMPT at its next boundary. The reset of a tenancy pre-empts a crew that is under another pre-emption too (R413). -/
def State.preemptCrew (s : State) (core sub : Nat) (save : W64) : State :=
  match (s.coreAt core).crew with
  | none => s
  | some c =>
    if (match c.preempt with | none => false | some (n, _) => sub != 3 || n == 3) then s
    else
      let s := (s.releaseHeld core).stopSaps core
      let ten := s.tenAt c.ten
      let s := s.onCore core fun k => k.onCrew fun c =>
        let c := match s.task? c.ten c.task with
          | none => c
          | some t => c.binsForm t.tcb ten k.cycle
        { c with preempt := some (sub, save), owing := (c.all.filter Thread.live).map (·.ident.tid) }
      s.takePreempts core

/-- Whether an address can be that of a save area: aligned to 64 KiB and canonical. -/
def saveAreaOk (save : W64) : Bool := save.toNat % 65536 == 0 && canonical save && (windowOf save).isNone

/-- PREEMPT: for scheduling (1), repair (2) or a tenancy reset (3). -/
def execPreempt (core : Nat) (sub : Nat) (save : W64) (s : State) : Result :=
  .next (if 1 ≤ sub ∧ sub ≤ 3 ∧ saveAreaOk save then s.preemptCrew core sub save else s)

/-! ### Repair in service (R390) -/

/-- The first spare of a die, numbered behind the logical units of the device. (DEDUCED, log entry 25.) -/
def firstSpare (l : List Nat) (base perDie die : Nat) : Option Nat :=
  l.find? fun x => decide (base + perDie * die ≤ x ∧ x < base + perDie * (die + 1))

/-- A spare takes the place of a core: its PIN-CORE pages and STATE images stand, its caches are empty. -/
def State.swapCore (s : State) (core spare : Nat) : State :=
  let old := (s.coreAt core).phys
  let s := s.onCore core fun c => { c with phys := spare, l1 := [], tlb := [] }
  let s := { s with aon := { s.aon with spareCores := s.aon.spareCores.filter (· != spare) } }
  s.sump 7 (dieOfCore core) 0xFF core 0 (BitVec.ofNat 64 old) 0#64

/-- SPARE_CORE_REPAIR: the core's crew is pre-empted for repair; once it is saved, or when there is none, the spare takes the
logical number and the crew restarts there, unless its tenancy is being reset (R413). (DEDUCED, log entry 25.) -/
def execSpareCoreRepair (core : Nat) (save : W64) (s : State) : Result :=
  match firstSpare s.aon.spareCores Config.cores 8 (dieOfCore core) with
  | none => .next s
  | some spare =>
    match (s.coreAt core).crew with
    | some _ => .next (if saveAreaOk save then s.preemptCrew core 2 save else s)
    | none =>
      let s := s.swapCore core spare
      .next (match s.saved.find? fun k => k.repair && k.core == core with
        | none => s
        | some k => if (s.tenAt k.ten).reset.isNone then s.restoreCrew core k else s)

/-- SPARE_SLICE_REPAIR: the slice's contents, leases and timestamps are carried to a spare behind the same number. -/
def execSpareSliceRepair (slice : Nat) (s : State) : Result :=
  match firstSpare s.aon.spareSlices Config.cells 2 (slice / 80) with
  | none => .next s
  | some spare =>
    let old := (s.sliceAt slice).phys
    let s := s.onSlice slice fun x => { x with phys := spare }
    let s := { s with aon := { s.aon with spareSlices := s.aon.spareSlices.filter (· != spare) } }
    .next (s.sump 7 (slice / 80) 0xFF slice 0 (BitVec.ofNat 64 old) 0#64)

/-- HBM_ROW_REPAIR: accesses to the row park until the repair has ended. -/
def execHbmRowRepair (row : Nat) (ended : Bool) (s : State) : Result :=
  if ended then
    .next (if s.rows.contains row then
        ({ s with rows := s.rows.filter (· != row) }).sump 7 (rowDie row) 0xFF 0xFFFF 0 (BitVec.ofNat 64 row) 0#64
      else s)
  else .next (if s.rows.contains row then s else { s with rows := s.rows ++ [row] })

/-! ### Freeze (R389) -/

/-- Every clock stops, a record is written and the links go down. -/
def State.freeze (s : State) : State :=
  let s := s.sump 8 0 0xFF 0xFFFF 0 0#64 0#64
  { s with aon := { s.aon with frozen := true }, ports := s.ports.map fun p => { p with up := false } }

/-- The bytes of the pinned pages of a slice, and the lines homed there with their timestamps. -/
def State.sliceBytes (s : State) (slice : Nat) : List Host.Cell :=
  s.mem.filter fun c => decide (pinSliceBase slice 0 ≤ c.1 ∧ c.1 < pinSliceBase (slice + 1) 0)
def State.sliceLines (s : State) (slice : Nat) : List Line :=
  s.home.filter fun x => (if x.line < 2 ^ 40 then Loc.mem (128 * x.line) else Loc.cel ((x.line - 2 ^ 40) / 16384) 0).slice == some slice &&
    decide (x.line < 2 ^ 42)

/-- What the always-on debug domain reads of a frozen device through its test ports: a core with its register files, scratchpad, caches, TLB,
queues and engine arrays, a slice with its bytes and lines, a cell, a die with its fabric ports, each named by its physical and its logical
unit, and the Sump (R388). The access port and the instrument networks hold nothing of their own. (DEDUCED, log entry 113.) -/
def State.readCore (s : State) (core : Nat) : Option (Nat × Nat × Core) :=
  if s.aon.frozen then some ((s.coreAt core).phys, core, s.coreAt core) else none
def State.readSlice (s : State) (slice : Nat) : Option (Nat × Nat × Slice × List Host.Cell × List Line) :=
  if s.aon.frozen then some ((s.sliceAt slice).phys, slice, s.sliceAt slice, s.sliceBytes slice, s.sliceLines slice) else none
def State.readCell (s : State) (cell : Nat) : Option (Nat × Nat × Cell) := if s.aon.frozen then some (cell, cell, s.cellAt cell) else none
def State.readDie (s : State) (die : Nat) : Option (Nat × Nat × Die × List Port) :=
  if s.aon.frozen then some (die, die, s.dieAt die, s.ports.filter fun p => p.id / 8 == die) else none
def State.readSump (s : State) : Option (List SumpRec) := if s.aon.frozen then some s.aon.sump else none

/-- FRZ_N: the freeze pin. -/
def execFrzN (s : State) : Result := .next s.freeze

/-! ### The service ring (R367, R411) -/

/-- The command processor reads the slot at the head of a tenancy's ring: its address and its bytes. (DEDUCED, log entry 22.) -/
def State.serviceSlot (s : State) (ten : Nat) : Option (State × W64 × Nat) :=
  let t := s.tenAt ten
  match s.cpRead ten t.svcq 8 with
  | none => none
  | some (s, h) =>
    let k := fieldAt h 4 1 % 16
    if k = 0 ∨ k > 12 then none
    else
      let va := t.svcq + BitVec.ofNat 64 (64 + 64 * (t.svcHead % 2 ^ k))
      (s.cpRead ten va 64).map fun x => (x.1, va, x.2)

/-- A service datagram (R411): OP 0x8B, KIND 4, the slot's 64 bytes. -/
def serviceDatagram (ten : Nat) (payload : List Byte) : Reply :=
  { op := 0x8B, ten, kind := 4, qid := 0, seq := 0#32, code := 0#32, payload }

/-- SERVICE_FORWARD: the slot whose KIND is set goes to the host, and its KIND becomes 0. KIND is the 32-bit word at byte 0.
(DEDUCED, log entry 22.) -/
def execServiceForward (ten : Nat) (s : State) : Result :=
  match s.serviceSlot ten with
  | none => .next s
  | some (s', va, b) =>
    if fieldAt b 0 4 = 0 then .next s
    else
      let payload := bytesOf 64 b
      let s := (s'.cpWrite ten va 4 0).1
      let s := s.onTen ten fun t => { t with
        svcHead := t.svcHead + 1,
        service := t.service ++ [{ reply := BitVec.ofNat 64 (fieldAt b 16 8), payload, sentAt := s.control }] }
      .next { s with out := s.out ++ [serviceDatagram ten payload] }

/-- The control cycles of 1 ms. -/
def msCycles : Nat := 1800000

/-- SERVICE_RESEND: an unanswered datagram is sent again every 1 ms. -/
def execServiceResend (ten : Nat) (idx : Nat) (s : State) : Result :=
  match ((s.tenAt ten).service)[idx]? with
  | none => .next s
  | some x =>
    if s.control < x.sentAt + msCycles then .next s
    else
      let s := s.onTen ten fun t => { t with service := t.service.set idx { x with sentAt := s.control } }
      .next { s with out := s.out ++ [serviceDatagram ten x.payload], aon := { s.aon with resends := s.aon.resends + 1 } }

end Sys2Proof.Machine
end

