-- ==== Sys2Proof/Machine/Deal.lean ====
section
/-! DEFINITION. The cell schedulers: dispatch and the restart of saved crews (R188 to R190, R193, R373), co-start (R187, R395) and work donation (R191). -/

namespace Sys2Proof.Machine
open Sys2Proof

/-! ### Dispatch -/

/-- Start some crews of a task on their cores. -/
def State.startCrews (s : State) (ten id : Nat) (l : List (Nat × Nat)) : State :=
  l.foldl (fun s x => (s.startCrew x.1 ten id x.2).foundWork (cellOf x.1)) s

/-- The core of a cell that takes a saved crew of a task: the lower one that can (R189). -/
def State.coreFor (s : State) (cell : Nat) (t : Task) : Nat := if s.fits (2 * cell) t then 2 * cell else 2 * cell + 1

/-- Start the crews that a choice of a cell scheduler starts: a saved crew first, else the lowest unstarted crew with those that
start with it. -/
def State.startChosen (s : State) (cell : Nat) (t : Task) (byHint : Bool) : State :=
  let s := s.countBypass cell t byHint
  match s.firstSaved t cell with
  | some k => s.restoreCrew (s.coreFor cell t) k
  | none => s.startCrews t.ten t.id ((s.startSet t cell).getD [])

/-- The greatest priority of a list of tasks. -/
def topPri (l : List Task) : Nat := l.foldl (fun m t => max m t.tcb.pri) 0

/-- What goes to a free core of a cell: a crew of a stage that Barista chooses for it (R193), or of the task that the cell scheduler
chooses, by its hint or not (R189). -/
inductive Pick where
  | stage (core : Nat) (t : Task)
  | own (t : Task) (byHint : Bool)
  deriving DecidableEq, Repr

/-- A free core of a cell goes to a stage, unless a candidate of higher priority is eligible, or to the task that the cell scheduler
chooses. -/
def State.pick (s : State) (cell : Nat) : Option Pick :=
  let own := (s.choose cell).map fun x => Pick.own x.1 x.2
  match ([2 * cell, 2 * cell + 1].filter fun c => (s.coreAt c).crew.isNone) with
  | [] => none
  | frees =>
    match frees.findSome? fun c => (s.barista c none).map fun t => (c, t) with
    | some (core, t) => if topPri (s.topTasks cell) ≤ topPri (s.stageTasks core) then some (.stage core t) else own
    | none => own

/-- Start what goes to a free core. -/
def State.startPick (s : State) (cell : Nat) (p : Pick) : State :=
  (match p with
    | .stage core t => s.runStage core t none
    | .own t byHint => s.startChosen cell t byHint).foundWork cell

/-- The saved crew that a pick restarts, and its core. -/
def State.pickSaved (s : State) (cell : Nat) (p : Pick) : Option (Nat × SavedCrew) :=
  match p with
  | .stage core t => (s.firstSaved t cell).map fun k => (core, k)
  | .own t _ => (s.firstSaved t cell).map fun k => (s.coreFor cell t, k)

/-- CREW_DISPATCH. -/
def execCrewDispatch (cell : Nat) (s : State) : Result :=
  .next (match s.pick cell with
    | none => s
    | some p => s.startPick cell p)

/-- CREW_RESTORE: a saved crew restarts on a core of its cell when its turn has come under R189 (R373). -/
def execCrewRestore (saved : Nat) (core : Nat) (s : State) : Result :=
  .next (match s.saved[saved]?, s.pick (cellOf core) with
    | some k, some p => if s.pickSaved (cellOf core) p = some (core, k) then s.startPick (cellOf core) p else s
    | _, _ => s)

/-! ### Work donation (R191) -/

/-- The victims of a thief in the order in which it tries them: the cells of its stack domain in ring order, then the tenancy's
other stack domains, each under the number 160 + domain. (DEDUCED, log entry 26.) -/
def State.victims (s : State) (thief : Nat) : List Nat :=
  let d := stackOfCell thief
  match s.tenOfStack d with
  | none => []
  | some t =>
    let doms := (s.tenAt t).doms
    ((List.range 19).map fun i => 20 * d + (thief % 20 + 1 + i) % 20) ++
      ((doms.filter fun x => decide (d < x)) ++ doms.filter fun x => decide (x < d)).map (Config.cells + ·)

/-- The cell units of a task at a cell of which no crew has started, in ascending order. -/
def Task.freeUnits (t : Task) (cell : Nat) : List Allot :=
  sortBy (fun (a b : Allot) => decide (a.lo ≤ b.lo))
    (t.allots.filter fun a => a.cell == some cell && (t.unstarted a).length == a.hi - a.lo)

/-- Contiguous ranges of units, in order. -/
def rangesOf : List Allot → List (List Allot)
  | [] => []
  | a :: l => match rangesOf l with
    | (b :: r) :: rest => if a.hi = b.lo then (a :: b :: r) :: rest else [a] :: (b :: r) :: rest
    | rest => [a] :: rest

/-- The largest range; the first of several. -/
def largest (l : List (List Allot)) : List Allot := l.foldl (fun b x => if x.length > b.length then x else b) []

/-- What a victim cell ships of a task: the upper half of its largest range, at least one unit. (DEDUCED, log entry 26.) -/
def Task.shipCell (t : Task) (cell : Nat) : List Allot :=
  if t.tcb.res ≥ 3 ∨ t.stage.isSome then []
  else
    let r := largest (rangesOf (t.freeUnits cell))
    r.drop (r.length - max 1 (r.length / 2))

/-- What a stack domain ships of a task: its highest stack unit that is there whole and of which no crew has started. -/
def Task.shipStack (t : Task) (dom : Nat) : List Allot :=
  if t.tcb.res = 4 ∨ t.stage.isSome then []
  else
    let whole (i : Nat) : List Allot := sortBy (fun (a b : Allot) => decide (a.lo ≤ b.lo)) (t.allots.filter fun a => a.lo / 40 == i)
    let size (i : Nat) : Nat := min (40 * i + 40) t.tcb.crews.toNat - 40 * i
    let units := (List.range (ceilDiv t.tcb.crews.toNat 40)).filter fun i =>
      ((whole i).map fun a => a.hi - a.lo).sum == size i && (whole i).all fun a => a.cell.isSome && a.stack == dom && (t.unstarted a).length == a.hi - a.lo
    match units.getLast? with
    | none => []
    | some i => whole i

def State.shipOf (s : State) (t : Task) (victim : Nat) : List Allot :=
  if !t.entered || s.tenOfStack (if victim < Config.cells then stackOfCell victim else victim - Config.cells) != some t.ten then []
  else if victim < Config.cells then t.shipCell victim else t.shipStack (victim - Config.cells)

/-- The task of which a victim ships, by the order of R189 among those with something to ship. A stack domain goes by the bypass counts and
the hints of its first cell. (DESIGN CHOICE, log entry 104.) -/
def State.shipTask (s : State) (victim : Nat) : Option Task :=
  let cell := if victim < Config.cells then victim else 20 * (victim - Config.cells)
  let l := s.tasks.filter fun t => !(s.shipOf t victim).isEmpty
  let top := l.filter fun t => t.tcb.pri == topPri l
  match oldest (top.filter fun t => decide (t.bypassAt cell ≥ 8)) with
  | some t => some t
  | none =>
    match oldest (top.filter (s.hintHits cell top)) with
    | some t => some t
    | none => oldest top

/-- Whether a cell scheduler sends steal requests: it has a free core, no eligible candidate and no request on its way. -/
def State.wantsWork (s : State) (thief : Nat) : Bool :=
  let c := s.cellAt thief
  ([2 * thief, 2 * thief + 1].any fun k => (s.coreAt k).crew.isNone) && (s.choose thief).isNone && c.asking.isNone &&
  c.roundAt == 0

/-- The cell at which a victim's scheduler or stack dispatcher is reached. -/
def victimCell (victim : Nat) : Nat := if victim < Config.cells then victim else 20 * (victim - Config.cells)

/-- STEAL_REQUEST: a victim ships work, or refuses. What is shipped is on its way until the thief has the answer. -/
def execStealRequest (thief : Nat) (victim : Nat) (s : State) : Result :=
  let c := s.cellAt thief
  if s.wantsWork thief && (s.victims thief)[c.asked]? == some victim then
    let s' := s.inject thief (victimCell victim)
    match s.shipTask victim with
    | none => .next (s'.onCell thief fun c => { c with asking := some victim, shipped := none, found := false })
    | some t =>
      let l := s.shipOf t victim
      let s' := s'.onTask t.ten t.id fun t => { t with allots := t.allots.filter fun a => !l.contains a }
      .next (s'.onCell thief fun c => { c with asking := some victim, shipped := some (t.id, l), found := false })
  else .next s

/-- Whether a cell has a free core and no eligible candidate. -/
def State.idleCell (s : State) (cell : Nat) : Bool :=
  ([2 * cell, 2 * cell + 1].any fun k => (s.coreAt k).crew.isNone) && (s.choose cell).isNone

/-- The shipped units arrive: cell units go to the thief's cell; a stack unit is dealt by the stack dispatcher of the thief's domain, so
that each of its cell instances has a cell of its own. -/
def State.takeUnits (s : State) (thief victim ten id : Nat) (l : List Allot) : State :=
  let dom := stackOfCell thief
  if victim < Config.cells then
    s.onTask ten id fun t => { t with allots := t.allots ++ l.map fun a => { a with stack := dom, cell := some thief } }
  else
    let lo := (l.head?.map (·.lo)).getD 0
    let hi := l.foldl (fun m a => max m a.hi) 0
    let (us, p) := dealUnits dom hi 20 (lo / 2) (s.dealPos dom)
    { s with dealAt := (dom, p) :: s.dealAt.filter fun x => x.1 != dom }.onTask ten id fun t => { t with allots := t.allots ++ us }

/-- STEAL_ANSWER: the thief takes the shipped work, or tries the next victim; a full round of refusals ends in a wait. A thief that has
found work meanwhile begins anew. (DEDUCED, log entry 27.) -/
def execStealAnswer (thief : Nat) (s : State) : Result :=
  let c := s.cellAt thief
  match c.asking with
  | none => .next s
  | some victim =>
    let s' := s.inject (victimCell victim) thief
    match c.shipped with
    | some (id, l) =>
      let s' := s'.takeUnits thief victim ((s.tenOfStack (stackOfCell thief)).getD 0) id l
      .next (s'.onCell thief fun c => { c with asking := none, asked := 0, shipped := none, found := false })
    | none =>
      let n := if s.idleCell thief && !c.found then c.asked + 1 else 0
      let wait := if n ≥ (s.victims thief).length then s.control + 1024 else 0
      .next (s'.onCell thief fun c => { c with asking := none, asked := n, roundAt := wait, found := false })

/-- STEAL_ROUND_WAIT: 1,024 control cycles after a round of refusals another may begin. (DEDUCED, log entry 27.) -/
def execStealRoundWait (cell : Nat) (s : State) : Result :=
  let c := s.cellAt cell
  .next (if c.roundAt ≠ 0 ∧ c.roundAt ≤ s.control then s.onCell cell fun c => { c with asked := 0, roundAt := 0 } else s)

/-! ### Domain co-start (R395) -/

/-- Whether every crew of a task can start now on the cores that its cells have. (DEDUCED, log entry 43.) -/
def State.canCostart (s : State) (t : Task) : Bool :=
  t.entered && t.tcb.res == 4 && decide (t.tcb.group ≥ 2) && t.started.isEmpty && !t.allots.isEmpty &&
  (s.unitsCores t t.allots).isSome &&
  (t.allots.all fun a => match a.cell with
    | none => false
    | some c => s.eligible c { t with tcb := { t.tcb with dgrp := t.tcb.dgrp &&& 0xFFFF#32 } })

/-- COSTART_ANNOUNCE: the command processor of a member announces that its crews can start together; this device's own
announcement leaves as control flits, when every member has a path. (DEDUCED, log entry 43.) -/
def execCostartAnnounce (ten : Nat) (task : Nat) (rank : Nat) (s : State) : Result :=
  match s.task? ten task with
  | none => .next s
  | some t =>
    let ranks := (List.range t.tcb.group).map (t.tcb.first + ·)
    if !ranks.contains rank || t.announced.contains rank || (rank == s.dev && !(s.canCostart t && !(s.members t).any s.cutOff)) then .next s
    else
      let s := s.onTask ten task fun t => { t with announced := t.announced ++ [rank] }
      .next (if rank = s.dev then s.tellMembers (s.tenAt ten).die t 0 else s)

/-- COSTART: when every member has announced, the task's crews start together. (DEDUCED, log entry 43.) -/
def execCostart (ten : Nat) (task : Nat) (s : State) : Result :=
  match s.task? ten task with
  | none => .next s
  | some t =>
    if s.canCostart t && (List.range t.tcb.group).all fun i => t.announced.contains (t.tcb.first + i) then
      .next (s.startCrews ten task ((s.unitsCores t t.allots).getD []))
    else .next s

end Sys2Proof.Machine
end

