-- ==== Sys2Proof/Machine/Host.lean ====
section
/-! DEFINITION. The Zelar command protocol: datagrams, the queues and the command journal, and what its commands do (R404 to
R407, R409 to R416). -/

namespace Sys2Proof.Machine
open Sys2Proof

/-! ### Datagrams and replies (R404, R405) -/

/-- The code of the management endpoint in TEN. (DESIGN CHOICE, log entry 29.) -/
def mgmtTen : Nat := 0xFF

/-- Reply KINDs. -/
def zAck : Nat := 1
def zNack : Nat := 2
def zDone : Nat := 3
def zData : Nat := 4

def State.send (s : State) (r : Reply) : State := { s with out := s.out ++ [r] }
/-- A reply to a datagram. (DESIGN CHOICE, log entry 31.) -/
def State.answer (s : State) (dg : Datagram) (kind : Nat) (seq code : W32) (payload : List Byte) : State :=
  s.send { op := dg.op.toNat % 128 + 128, ten := dg.ten.toNat, kind, qid := dg.qid.toNat, seq, code, payload }
def State.nack (s : State) (dg : Datagram) (reason : Nat) : State := s.answer dg zNack dg.seq (BitVec.ofNat 32 reason) []
def State.data (s : State) (dg : Datagram) (payload : List Byte) : State := s.answer dg zData dg.seq 0#32 payload

/-- n bytes of a payload from an offset. -/
def dgField (dg : Datagram) (off n : Nat) : Nat := leNat ((dg.payload.drop off).take n)

/-- What becomes of a datagram by its source and version: it is handled, refused with reason 5, or dropped. A source that no
tenancy accepts is counted. FREEZE is the management endpoint's; a RESET_TENANCY is the endpoint's or the tenancy's own. -/
inductive Intake where
  | handle | refuse | drop | dropCounted
  deriving DecidableEq, Repr

def dgIntake (dg : Datagram) (op : Nat) : Intake :=
  let known := dg.mgmt || dg.accepted
  if !known then .dropCounted
  else if dg.ver ≠ 1#8 then .drop
  else if op = 9 then (if dg.mgmt then .handle else .refuse)
  else if op = 8 then (if dg.mgmt || dg.own then .handle else .refuse)
  else if dg.own || (dg.mgmt && dg.ten.toNat == mgmtTen) then .handle
  else .dropCounted

/-- The datagram of a command: `body` handles one that is taken in, whose OP is `op`. A LEN that is not the length of the payload is a wrong
length; KIND and CODE are not looked at. (DESIGN CHOICE, log entry 111.) -/
def State.datagram (s : State) (dg : Datagram) (op : Nat) (body : State → State) : State :=
  if dg.op.toNat ≠ op then s
  else match dgIntake dg op with
    | .handle => if dg.len.toNat = dg.payload.length then body s else s.nack dg 2
    | .refuse => s.nack dg 5
    | .drop => s
    | .dropCounted => { s with aon := { s.aon with drops := s.aon.drops + 1 } }

/-! ### The journal (R409) -/

/-- The 16 header bytes of a command's datagram; the hash takes the first 12 and the payload. -/
def dgHeader (dg : Datagram) : List Byte :=
  [dg.ver, dg.op, dg.ten, dg.kind] ++ bytesOf 2 dg.qid.toNat ++ bytesOf 2 dg.len.toNat ++ bytesOf 4 dg.seq.toNat
def dgHash (dg : Datagram) : W64 := sha384Low (dgHeader dg ++ dg.payload)

/-- The 32 bytes of a journal entry. -/
def JEntry.bytes (e : JEntry) : List Byte :=
  bytesOf 4 e.seq.toNat ++ bytesOf 2 e.qid ++ bytesOf 2 e.op ++ bytesOf 8 e.hash.toNat ++ bytesOf 8 e.time ++
    bytesOf 1 e.state ++ [0#8, 0#8, 0#8] ++ bytesOf 4 e.result.toNat

/-- Whether an entry may be overwritten. -/
def JEntry.over' (e : JEntry) : Bool := e.state == 3 || e.state == 4

/-- Whether the journal is full: its oldest entry may not be overwritten. -/
def Tenancy.journalFull (t : Tenancy) : Bool :=
  decide (t.journal.length ≥ 65536) && (match t.journal with
    | [] => false
    | e :: _ => !e.over')

/-- Write an entry. -/
def Tenancy.log (t : Tenancy) (e : JEntry) : Tenancy :=
  let full := decide (t.journal.length ≥ 65536)
  { t with journal := (if full then t.journal.drop 1 else t.journal) ++ [e], jbase := if full then t.jbase + 1 else t.jbase,
           dirty := t.dirty ++ [t.jbase + t.journal.length] }

/-- Change the latest entry of a command: STATE rises only. -/
def Tenancy.mark (t : Tenancy) (qid : Nat) (seq : W32) (state : Nat) (result : Option W32) : Tenancy :=
  match (t.journal.zipIdx.reverse).find? fun x => x.1.qid == qid && x.1.seq == seq with
  | none => t
  | some (e, i) =>
    if state ≤ e.state ∨ e.over' then t
    else { t with journal := t.journal.set i { e with state, result := result.getD e.result },
                  dirty := t.dirty ++ [t.jbase + i] }

/-- JOURNAL_MIRROR_WRITE: one entry is copied to the mirror. (DESIGN CHOICE, log entry 33.) -/
def execJournalMirrorWrite (ten : Nat) (s : State) : Result :=
  let t := s.tenAt ten
  match t.dirty with
  | [] => .next s
  | n :: r =>
    let s := s.onTen ten fun t => { t with dirty := r }
    .next (match t.mirror, t.journal[n - t.jbase]? with
      | some base, some e =>
        if n < t.jbase then s
        else
          let l : Loc := .mem (base.toNat + 32 * (n % 65536))
          (s.wrTables l 32 (leNat e.bytes)).stampDev l
      | _, _ => s)

/-! ### Queues (R406) -/

def Tenancy.zq (t : Tenancy) (q : Nat) : ZQueue := t.zqs.getD q { next := 0#32, live := [] }
def Tenancy.onZq (t : Tenancy) (q : Nat) (f : ZQueue → ZQueue) : Tenancy :=
  { t with zqs := t.zqs.zipIdx.map fun (z, i) => if i = q then f z else z }

/-- A command is accepted: its entry is written, its record too, NEXT rises and the ACK is sent. -/
def State.accepted (s : State) (dg : Datagram) (result : W32) (task : Nat) : State :=
  let ten := dg.ten.toNat
  let q := dg.qid.toNat
  let e : JEntry := { seq := dg.seq, qid := q, op := dg.op.toNat, hash := dgHash dg, time := s.sumpTime, state := 1, result }
  let c : ZCmd := { seq := dg.seq, op := dg.op.toNat, payload := dg.payload, started := false, task, code := none }
  let s := s.onTen ten fun t => (t.log e).onZq q fun z => { next := dg.seq + 1#32, live := z.live ++ [c] }
  let s := s.sump 4 (s.tenAt ten).die ten 0xFFFF 0 (BitVec.ofNat 64 (ten * 2 ^ 61 + q * 2 ^ 55 + dg.seq.toNat)) e.hash
  s.answer dg zAck dg.seq result []

/-- A sequenced command of `len` payload bytes. `refuse` is the NACK code of a command that fails its own acceptance checks, and
`take` its acceptance: the new state, the ACK's result and the task of a LAUNCH. -/
def State.sequenced (s : State) (dg : Datagram) (len : Nat) (refuse : State → Option Nat) (take : State → State × W32 × Nat) :
    State :=
  let ten := dg.ten.toNat
  let q := dg.qid.toNat
  if dg.payload.length ≠ len ∨ q ≥ 16 ∨ ten ≥ 8 then s.nack dg 2
  else
    let t := s.tenAt ten
    let next := (t.zq q).next
    let ahead := dg.seq - next
    if ahead = 0#32 then
      if decide ((t.zq q).live.length ≥ 256) || t.journalFull then s.nack dg 1
      else match refuse s with
        | some r => s.nack dg r
        | none =>
          let (s, result, task) := take s
          s.accepted dg result task
    else if !ahead.getLsbD 31 then s.answer dg zNack next 3#32 []
    else match (t.journal.reverse).find? fun e => e.qid == q && e.seq == dg.seq with
      | none => s.answer dg zNack next 4#32 []
      | some e =>
        if e.hash ≠ dgHash dg then s.answer dg zNack next 4#32 []
        else
          let s := s.answer dg zAck dg.seq e.result []
          if e.state = 3 then s.answer dg zDone dg.seq 0#32 []
          else if e.state = 4 then s.answer dg zDone dg.seq e.result []
          else s

/-- No acceptance checks, and nothing but the acceptance. -/
def plainTake (s : State) : State × W32 × Nat := (s, 0#32, 0)

/-! ### LAUNCH (R182, R407) -/

/-- Where the descriptor of a stage task lies that the host launches: a cell-memory address is taken at the first cell of the
tenancy's lowest stack domain. (DEDUCED, log entry 32.) -/
def State.hostStage (s : State) (ten b : Nat) : Option Loc :=
  let t := s.tenAt ten
  if (Tcb.of b).stageq = 0#64 then none
  else match s.queuePlace ten ⟨t.root, 0#64⟩ (20 * t.doms.headD 0) (Tcb.of b).stageq 128 with
    | .ok l => some l
    | .error _ => none

def execLaunchCmd (dg : Datagram) (s : State) : Result :=
  let ten := dg.ten.toNat
  let b := leNat dg.payload
  .next (s.datagram dg 1 fun s => s.sequenced dg 256
    (fun s => (s.tcbReason ten b (s.hostStage ten b)).map (0x100 + ·))
    fun s =>
      let (s, id) := s.acceptTask ten b (s.hostStage ten b) (some (dg.qid.toNat, dg.seq))
      (s, BitVec.ofNat 32 id, id))

/-! ### The other sequenced commands: acceptance -/

/-- MAP and UNMAP name a level from 1 to 3 and a canonical address outside the windows. (DEDUCED, log entry 61.) -/
def mapBad (dg : Datagram) (lvlOff : Nat) : Bool :=
  let va := BitVec.ofNat 64 (dgField dg 0 8)
  let l := dgField dg lvlOff 1
  decide (l < 1 ∨ l > 3) || !canonical va || (windowOf va).isSome

def execMapCmd (dg : Datagram) (s : State) : Result :=
  .next (s.datagram dg 2 fun s => s.sequenced dg 17 (fun _ => if mapBad dg 16 then some 2 else none) plainTake)
def execUnmapCmd (dg : Datagram) (s : State) : Result :=
  .next (s.datagram dg 3 fun s => s.sequenced dg 9 (fun _ => if mapBad dg 8 then some 2 else none) plainTake)

/-- SIGNAL, WAIT and SERVICE_REPLY name an address that is a multiple of 8. -/
def wordCmd (dg : Datagram) (op : Nat) (take : State → State × W32 × Nat) (s : State) : State :=
  s.datagram dg op fun s => s.sequenced dg 16 (fun _ => if dgField dg 0 8 % 8 ≠ 0 then some 2 else none) take

def execSignalCmd (dg : Datagram) (s : State) : Result := .next (wordCmd dg 4 plainTake s)
def execWaitCmd (dg : Datagram) (s : State) : Result := .next (wordCmd dg 5 plainTake s)
/-- SERVICE_REPLY: with its acceptance the slots whose REPLY address it names are sent no more (R411). -/
def execServiceReply (dg : Datagram) (s : State) : Result :=
  .next (wordCmd dg 10 (fun s => plainTake (s.onTen dg.ten.toNat fun t =>
    { t with service := t.service.filter fun x => x.reply.toNat != dgField dg 0 8 })) s)

/-- The configuration word and the mirror address of a RESET_TENANCY (R413). -/
def State.resetBad (s : State) (dg : Datagram) : Bool :=
  let w := BitVec.ofNat 32 (dgField dg 0 4)
  let m := dgField dg 8 8
  bitsOf w 31 24 != 0 || bitsOf w 18 0 != 0 || decide (bitsOf w 23 20 > 8) || m % 2 ^ 21 != 0 ||
  !((s.tenAt dg.ten.toNat).doms.contains (m / 2 ^ 36))

def execResetTenancy (dg : Datagram) (s : State) : Result :=
  .next (s.datagram dg 8 fun s => s.sequenced dg 16 (fun s => if s.resetBad dg then some 2 else none) plainTake)

/-! ### MAP and UNMAP (R365, R405) -/

/-- The walk from a root to the table of a level, for a tenancy with stack domains `doms`: its address, or the CODE of a refusal. -/
def State.tableFrom (s : State) (doms : List Nat) (va : W64) (lvl table : Nat) : Nat → Except Nat Nat
  | 0 => .error 6
  | n + 1 =>
    if n + 1 = lvl then .ok table
    else
      let e := s.phys64 (table + 8 * levelIndex va (n + 1))
      if !e.getLsbD 0 || e.getLsbD 1 then .error (0x10 + (n + 1))
      else if tableMalformed e then .error 6
      else if !doms.contains (nextTable e / 2 ^ 36) then .error 5
      else s.tableFrom doms va lvl (nextTable e) n

/-- The entry of a MAP: malformed (6), outside the tenancy (5), or well-formed. -/
def State.entryCode (s : State) (ten lvl : Nat) (e : W64) : Option Nat :=
  if !e.getLsbD 0 then none
  else if e.getLsbD 1 then
    if leafMalformed e lvl then some 6
    else if !(Pte.of e).inTenancy (s.tenAt ten).doms s.dev then some 5
    else none
  else if lvl = 1 || tableMalformed e then some 6
  else if !(s.tenAt ten).doms.contains (nextTable e / 2 ^ 36) then some 5
  else none

/-- Remove every translation of the page of level `lvl` at an address. -/
def forgetIn (va : W64) (lvl : Nat) (l : List TlbEntry) : List TlbEntry :=
  let k := pageSize lvl
  let meets (page size : Nat) : Bool := let a := page * 65536; decide (a / size * size / k = va.toNat / k ∨ va.toNat / size = a / size)
  l.filter fun e => !meets e.page (pageSize e.lvl)
def Core.forget (c : Core) (va : W64) (lvl : Nat) : Core :=
  { (c.onCrew fun x => x.onThreads (fun t => !t.walked.isEmpty) fun v => v.onTh fun t => { t with walked := [] }) with
    tlb := forgetIn va lvl c.tlb }

/-- Whether two entries map one page, FUTURE or not in both: it stays mapped when one takes the place of the other. -/
def samePage (dev lvl : Nat) (a b : W64) : Bool :=
  a.getLsbD 0 && b.getLsbD 0 && a.getLsbD 1 && b.getLsbD 1 && (Pte.of a).future == (Pte.of b).future &&
    placeOf dev a lvl 0#64 == placeOf dev b lvl 0#64

/-- Write an entry of a table, and remove the old translation everywhere. A page that is mapped before and after keeps its bytes (R362). -/
def State.putEntry (s : State) (va : W64) (lvl at' : Nat) (e : W64) : State :=
  let s := s.settle (.mem at') 8
  let was := s
  let old := s.phys64 at'
  let same := samePage s.dev lvl old e
  let s := if same then s else was.mapPages s false false old lvl
  let s := (s.wr (.mem at') 8 e.toNat).stampDev (.mem at')
  let s := if same then s else was.mapPages s true false e lvl
  { s with stale := s.stale.filter fun x => x.1 != at', cores := s.cores.map fun c => c.forget va lvl, slices := s.slices.map fun x => { x with tlb := forgetIn va lvl x.tlb } }

/-- MAP: the CODE of its DONE. (DEDUCED, log entry 61.) -/
def State.runMap (s : State) (ten : Nat) (va e : W64) (lvl : Nat) : State × W32 :=
  match s.entryCode ten lvl e with
  | some c => (s, BitVec.ofNat 32 c)
  | none =>
    match s.tableFrom (s.tenAt ten).doms va lvl (s.tenAt ten).root.toNat 4 with
    | .error c => (s, BitVec.ofNat 32 c)
    | .ok table => (s.putEntry va lvl (table + 8 * levelIndex va lvl) e, 0#32)

/-- UNMAP: V = 0 is written and every TLB is cleared. -/
def State.runUnmap (s : State) (ten : Nat) (va : W64) (lvl : Nat) : State :=
  let s := match s.tableFrom (s.tenAt ten).doms va lvl (s.tenAt ten).root.toNat 4 with
    | .error _ => s
    | .ok table =>
      let at' := table + 8 * levelIndex va lvl
      s.putEntry va lvl at' (s.phys64 at' &&& ~~~1#64)
  { s with cores := s.cores.map fun c => { c with tlb := [] }, slices := s.slices.map fun x => { x with tlb := [] } }

/-! ### SIGNAL, WAIT and SERVICE_REPLY (R407) -/

/-- Where the address of such a command lies, or the CODE of its failure (R407). R369 delivers no data of a word, or of an entry of the page
tables, that an uncorrectable error has taken; that the command fails with CODE 2, as an engine's would with STATUS 2, the spec does not say.
(DESIGN CHOICE, log entry 126.) -/
def State.cpPlace (s : State) (ten : Nat) (va : W64) (rd wr fut home : Bool) : Except Nat Loc :=
  if !canonical va || (windowOf va).isSome then .error 4
  else match s.translate ten (s.tenAt ten).root true { r := rd, w := wr } va with
    | .error (cause, _) => .error (if cause = Cause.pagefault then 3 else if cause = Cause.mcheck then 2 else 4)
    | .ok h =>
      if h.state || (home && h.remote) || (fut && !h.future) then .error 4 else if rd && s.spoiled h.loc 8 then .error 2 else .ok h.loc

/-- A write of n bytes by the device at a home: held terms settle first, future words become empty. -/
def State.devStore (s : State) (l : Loc) (n v : Nat) : State := (s.putBytes l n v).stampDev l

/-- STF by the device: the word is full, and its deferred loads are answered (R209). -/
def State.devStf (s : State) (l : Loc) (v : Nat) : State :=
  let s := (((s.settle l 8).wrTables l 8 v).setFuture l true).stampDev l
  let mine := s.deferred.filter fun d => d.word == l.word8
  let s := { s with deferred := s.deferred.filter fun d => d.word != l.word8 }
  mine.foldl (fun s d => (s.stampLoad d.core l).answerLdf v d) s

def State.runSignal (s : State) (ten : Nat) (va v : W64) : State × W32 :=
  match s.cpPlace ten va true true false true with
  | .error c => (s, BitVec.ofNat 32 c)
  | .ok l =>
    let s := s.settle l 8
    (s.devStore l 8 ((s.rd l 8 + v.toNat) % 2 ^ 64), 0#32)

def State.runReply (s : State) (ten : Nat) (va v : W64) : State × W32 :=
  match s.cpPlace ten va false true true false with
  | .error c => (s, BitVec.ofNat 32 c)
  | .ok l => (s.devStf l v.toNat, 0#32)

/-- WAIT: whether it is done, and with which CODE. (DEDUCED, log entry 30.) -/
def State.waitCode (s : State) (ten : Nat) (va v : W64) : Option W32 :=
  match s.cpPlace ten va true false false false with
  | .error c => some (BitVec.ofNat 32 c)
  | .ok l => if v.toNat ≤ (s.settle l 8).rd l 8 then some 0#32 else none

/-! ### RESET_TENANCY (R413) -/

/-- The save area of a crew that a reset ends: where the command processor allots it is free. -/
def State.resetSave (s : State) (core : Nat) : W64 :=
  BitVec.ofNat 64 ((Config.freeWord [30, s.free, core]).toNat % 2 ^ 30 * 65536)

/-- Step 1: every crew of the tenancy takes PREEMPT, sub-cause 3. -/
def State.beginReset (s : State) (ten q : Nat) (seq : W32) : State :=
  let s := s.onTen ten fun t => { t with reset := some (q, seq) }
  let mine := (s.cores.filter fun c => match c.crew with | none => false | some k => k.ten == ten).map (·.id)
  mine.foldl (fun s c => s.preemptCrew c 3 (s.resetSave c)) s

/-- Whether no crew of the tenancy is left on a core. -/
def State.resetReady (s : State) (ten : Nat) : Bool :=
  s.cores.all fun c => match c.crew with | none => true | some k => k.ten != ten

/-- Steps 2 and 3. -/
def State.finishReset (s : State) (ten : Nat) (payload : List Byte) : State :=
  let w := BitVec.ofNat 32 (leNat (payload.take 4))
  let key := BitVec.ofNat 32 (leNat ((payload.drop 4).take 4))
  let mirror := BitVec.ofNat 64 (leNat ((payload.drop 8).take 8))
  let t := s.tenAt ten
  let me := t.reset
  let cells := (List.range Config.cells).filter fun c => t.doms.contains (stackOfCell c)
  let fails : W32 := BitVec.allOnes 32
  let s := { s with
    tasks := s.tasks.filter fun x => x.ten != ten,
    saved := s.saved.filter fun x => x.ten != ten,
    dealAt := s.dealAt.filter fun x => !t.doms.contains x.1 }
  let s := cells.foldl (fun s c => s.onCell c fun x =>
    { x with bytes := [], epoch := x.epoch + 1, asking := none, asked := 0, shipped := none, roundAt := 0 }) s
  s.onTen ten fun t =>
    let journal := t.journal.map fun e =>
      if me = some (e.qid, e.seq) ∨ e.over' then e else { e with state := 4, result := fails }
    let zqs := t.zqs.zipIdx.map fun (z, i) =>
      let live := z.live.map fun c =>
        if me = some (i, c.seq) then { c with code := some 0#32 } else { c with started := true, code := some fails }
      { z with live }
    { t with
      celk := bitsOf w 23 20, govhold := w.getLsbD 19, rdmaKey := key, conns := List.replicate 16 true, mirror := some mirror,
      reset := none, journal, dirty := (List.range journal.length).map (t.jbase + ·), zqs }

/-! ### Start and DONE (R405, R407) -/

/-- The first command of a queue that has not started, when every earlier one has started and no earlier WAIT holds it: one does until its
DONE, unless a reset of the tenancy has ended it (R413). -/
def ZQueue.startable (z : ZQueue) : Option ZCmd :=
  match z.live.find? fun c => !c.started with
  | none => none
  | some c =>
    if (z.live.takeWhile fun x => x.started).any fun x => x.op == 5 && x.code != some (BitVec.allOnes 32) then none else some c

def ZQueue.onCmd (z : ZQueue) (seq : W32) (f : ZCmd → ZCmd) : ZQueue :=
  { z with live := z.live.map fun c => if c.seq = seq then f c else c }

def ZCmd.field (c : ZCmd) (off n : Nat) : Nat := leNat ((c.payload.drop off).take n)
def ZCmd.pair (c : ZCmd) (off : Nat) : W64 := BitVec.ofNat 64 (c.field off 8)

/-- What a command does when it starts, and its CODE when that is known. -/
def State.runZ (s : State) (ten q : Nat) (c : ZCmd) : State × Option W32 :=
  let some' (x : State × W32) : State × Option W32 := (x.1, some x.2)
  match c.op with
  | 1 => (s.enterTask ten c.task, none)
  | 2 => some' (s.runMap ten (c.pair 0) (c.pair 8) (c.field 16 1))
  | 3 => (s.runUnmap ten (c.pair 0) (c.field 8 1), none)
  | 4 => some' (s.runSignal ten (c.pair 0) (c.pair 8))
  | 5 => match s.cpPlace ten (c.pair 0) true false false false with
    | .error e => (s, some (BitVec.ofNat 32 e))
    | .ok _ => (s, none)
  | 8 => (s.beginReset ten q c.seq, none)
  | _ => some' (s.runReply ten (c.pair 0) (c.pair 8))

/-- The place that a command of a word reaches. -/
def State.zPlace (s : State) (ten : Nat) (c : ZCmd) : Option Loc :=
  match s.cpPlace ten (c.pair 0) false false false false with
  | .ok l => some l
  | .error _ => none

/-- Whether a command waits before it starts: for the repair of a row that it reaches (R390), or for the end of an earlier reset of its
tenancy (R413). -/
def State.zParks (s : State) (ten : Nat) (c : ZCmd) : Bool :=
  match c.op with
  | 2 | 3 => (s.walkReads (c.pair 0) (s.tenAt ten).root.toNat 4).any fun a => s.underRepair (.mem a)
  | 4 | 5 | 10 => ((s.zPlace ten c).map s.underRepair).getD false
  | 8 => (s.tenAt ten).reset.isSome
  | _ => false

/-- Whether a command sends messages to the other die (R391): TLB removals, an access of a word, or its crews. -/
def State.zFar (s : State) (ten : Nat) (c : ZCmd) : Bool :=
  let die := (s.tenAt ten).die
  match c.op with
  | 2 | 3 => true
  | 4 | 5 | 10 => (((s.zPlace ten c).bind Loc.slice).map fun k => k / 80 != die).getD false
  | _ => (s.tenAt ten).doms.any fun x => x / 4 != die

/-- ZCP_COMMAND_START: the next command of a queue starts; one that fails at its start does not run. -/
def execZcpCommandStart (ten : Nat) (queue : Nat) (s : State) : Result :=
  match ((s.tenAt ten).zq queue).startable with
  | none => .next s
  | some c =>
    if s.zParks ten c then .next s
    else
      let far := s.zFar ten c
      let (s, code) := s.runZ ten queue c
      let fails : Bool := match code with | none => false | some x => x != 0#32
      let n := s.serial + 1
      let s := if far && !fails then s.cross (.cp ten queue c.seq) (1 - (s.tenAt ten).die) else s
      .next ({ s with serial := n }.onTen ten fun t =>
        let t := t.onZq queue fun z => z.onCmd c.seq fun x =>
          { x with started := true, code, task := if c.op = 3 then n else x.task }
        if fails then t else t.mark queue c.seq 2 none)

/-- Whether accesses that were translated before an UNMAP have not been performed: on their way to their homes, deferred or held. -/
def State.oldAccesses (s : State) (serial : Nat) : Bool :=
  (s.cores.any fun c => c.coll.any fun g => decide (g.id < serial) && !g.left.isEmpty) ||
  (s.deferred.any fun d => decide (d.born < serial)) || s.terms.any fun t => decide (t.born < serial)

/-- The CODE of a started command that is finished. (DEDUCED, log entry 30.) -/
def State.doneCode (s : State) (ten q : Nat) (c : ZCmd) : Option W32 :=
  if !c.started || s.bridge.any (fun b => b.load == .cp ten q c.seq) then none
  else match c.code with
    | some x => some x
    | none => match c.op with
      | 3 => if s.oldAccesses c.task then none else some 0#32
      | 5 => s.waitCode ten (c.pair 0) (c.pair 8)
      | 8 => if s.resetReady ten then some 0#32 else none
      | _ => none

/-- DONE: the first finished command of a queue leaves it, its entry is complete or failed, and the host is told. -/
def execDoneEvt (ten : Nat) (queue : Nat) (s : State) : Result :=
  match ((s.tenAt ten).zq queue).live.find? fun c => (s.doneCode ten queue c).isSome with
  | none => .next s
  | some c =>
    let code := (s.doneCode ten queue c).getD 0#32
    let s := if c.op = 8 ∧ c.code.isNone then s.finishReset ten c.payload else s
    let s := s.onTen ten fun t =>
      let t := t.onZq queue fun z => { z with live := z.live.filter fun x => x.seq != c.seq }
      if code = 0#32 then t.mark queue c.seq 3 none else t.mark queue c.seq 4 (some code)
    .next (s.send { op := c.op + 128, ten, kind := zDone, qid := queue, seq := c.seq, code, payload := [] })

/-! ### Unsequenced commands (R405, R410, R412, R414, R415) -/

/-- A QUERY with a selector and the bytes of its arguments. -/
def query (dg : Datagram) (sel args : Nat) (body : State → State) (s : State) : State :=
  s.datagram dg 6 fun s =>
    if dg.payload.length < 4 ∨ dg.payload.length > 68 then s.nack dg 2
    else if dgField dg 0 4 ≠ sel then (if dgField dg 0 4 > 4 ∧ sel = 0 then s.nack dg 2 else s)
    else if dg.payload.length < 4 + args then s.nack dg 2
    else body s

/-- QUERY 0. The order of its words is the model's. A selector that no rule names is refused here. (DESIGN CHOICE, log entry 62.) -/
def execQueryDevice (dg : Datagram) (s : State) : Result :=
  .next (query dg 0 0 (fun s => s.data dg
    ([320, s.dev, s.aon.version, s.aon.spareCores.length, s.aon.spareSlices.length, s.aon.drops, s.aon.resends].flatMap (bytesOf 4))) s)

/-- QUERY 1: the counters of a live task. (DESIGN CHOICE, log entry 62.) -/
def execQueryProbes (dg : Datagram) (s : State) : Result :=
  .next (query dg 1 4 (fun s => match s.task? dg.ten.toNat (dgField dg 4 4) with
    | none => s.nack dg 2
    | some t => s.data dg (t.probes.flatMap fun x => bytesOf 8 x.toNat)) s)

/-- The 32 bytes of a Sump record. -/
def SumpRec.bytes (r : SumpRec) : List Byte :=
  bytesOf 8 r.time ++ bytesOf 1 r.kind ++ bytesOf 1 r.die ++ bytesOf 1 r.ten ++ [0#8] ++ bytesOf 2 r.unit ++ bytesOf 2 r.sub ++
    bytesOf 8 r.a.toNat ++ bytesOf 8 r.b.toNat

/-- A record as a tenancy may see it: of another tenancy's only TEN. -/
def SumpRec.seenBy (r : SumpRec) (ten : Nat) : SumpRec :=
  if ten = mgmtTen ∨ r.ten = ten ∨ r.ten = 0xFF then r
  else { time := 0, kind := 0, die := 0, ten := r.ten, unit := 0, sub := 0, a := 0#64, b := 0#64 }

/-- QUERY 2: up to 32 records from an index, the oldest held having index 0. -/
def execQuerySump (dg : Datagram) (s : State) : Result :=
  .next (query dg 2 4 (fun s => s.data dg
    (((s.aon.sump.drop (dgField dg 4 4)).take 32).flatMap fun r => (r.seenBy dg.ten.toNat).bytes)) s)

/-- QUERY 3: arguments 1 to start or 0 to stop, the ring's address and its records; the answer counts records and drops. -/
def execQueryTrace (dg : Datagram) (s : State) : Result :=
  .next (query dg 3 4 (fun s =>
    let ten := dg.ten.toNat
    let old := (s.tenAt ten).trace
    let new : Trace :=
      if dgField dg 4 4 = 0 then { old with on := false }
      else { on := true, addr := BitVec.ofNat 64 (dgField dg 8 8), cap := dgField dg 16 4, count := 0, dropped := 0 }
    let s := s.onTen ten fun t => { t with trace := new }
    s.data dg (bytesOf 4 old.count ++ bytesOf 4 old.dropped)) s)

/-- QUERY 4: the index advances before the signature is released; at 2^40 nothing more is signed. -/
def execQueryAttest (dg : Datagram) (s : State) : Result :=
  .next (query dg 4 32 (fun s =>
    if s.aon.lms ≥ 2 ^ 40 then s.nack dg 6
    else
      let st := Config.deviceIdentity ++ Config.firmwareHash s.aon.image ++ (dg.payload.drop 4).take 32 ++ bytesOf 8 s.aon.lms
      let s := { s with aon := { s.aon with lms := s.aon.lms + 1 } }
      s.data dg (st ++ Config.attestSignature st)) s)

/-- The entries of a queue from sequence number `seq` on, in order, until one is missing. -/
def entriesFrom (l : List JEntry) (qid : Nat) (seq : W32) : Nat → List JEntry
  | 0 => []
  | n + 1 => match l.find? fun e => e.qid == qid && e.seq == seq with
    | none => []
    | some e => e :: entriesFrom l qid (seq + 1#32) n

/-- JOURNAL_READ: with 32 entries the payload would pass the 1,024 bytes of a datagram, so that at most 31 are sent. (DEDUCED, log entry 112.) -/
def execJournalRead (dg : Datagram) (s : State) : Result :=
  .next (s.datagram dg 7 fun s =>
    let q := dgField dg 0 4
    let n := dgField dg 8 4
    if dg.payload.length ≠ 12 ∨ q ≥ 16 ∨ n = 0 ∨ n > 32 then s.nack dg 2
    else
      let t := s.tenAt dg.ten.toNat
      s.data dg (bytesOf 4 (t.zq q).next.toNat ++
        (entriesFrom t.journal.reverse q (BitVec.ofNat 32 (dgField dg 4 4)) (min n 31)).flatMap JEntry.bytes))

/-- FREEZE: the reply is sent before the clocks stop. -/
def execFreezeCmd (dg : Datagram) (s : State) : Result :=
  .next (s.datagram dg 9 fun s => if dg.payload.isEmpty then (s.data dg []).freeze else s.nack dg 2)

/-- ZCP_OP_NOT_NAMED. -/
def execZcpOpNotNamed (dg : Datagram) (s : State) : Result :=
  let op := dg.op.toNat
  .next (if 1 ≤ op ∧ op ≤ 10 then s else s.datagram dg op fun s => s.nack dg 2)

end Sys2Proof.Machine
end

