-- ==== Sys2Proof/Machine/Rdma.lean ====
section
/-! DEFINITION. Bulk data (R227, R408), samples (R380), and resets, power and the physical part (R388, R415, R417, R418). -/

namespace Sys2Proof.Machine
open Sys2Proof

/-! ### RDMA (R408)

An answer stands among the device's messages under the OP 256, with KIND 1 for an acknowledgement, 2 for a remote access error,
3 for a remote invalid request and 4 for the data of a READ. -/

def State.rdmaAnswer (s : State) (ten conn kind : Nat) (payload : List Byte) : State :=
  s.send { op := 256, ten, kind, qid := conn, seq := 0#32, code := 0#32, payload }

def Tenancy.connUp (t : Tenancy) (conn : Nat) : Bool := t.conns.getD conn false

/-- Where the bytes of a request lie: none where one of them may not be reached. -/
def State.rdmaBytes (s : State) (rq : RdmaReq) (rd wr : Bool) (n : Nat) : Option (List Loc) :=
  let one (i : Nat) : Option Loc :=
    let va := rq.addr + BitVec.ofNat 64 i
    if !canonical va || (windowOf va).isSome then none
    else match s.translate rq.ten (s.tenAt rq.ten).root true { r := rd, w := wr } va with
      | .error _ => none
      | .ok h => if h.state || h.future || h.domain then none else some h.loc
  (List.range n).foldr (fun i l => match one i, l with
    | some p, some r => some (p :: r)
    | _, _ => none) (some [])

/-- The bytes that a WRITE stores, at their homes: each line takes one timestamp (R204). R227 lets its words be placed in any order: they are
placed in ascending order, in one step. (DESIGN CHOICE, log entry 125.) -/
def State.rdmaPut (s : State) (l : List (Loc × Byte)) : State :=
  ((l.map fun x => x.1.base).eraseDups).foldl State.stampDev
    (l.foldl (fun t x => ((t.settle x.1 1).clearFutures x.1 1).wr x.1 1 x.2.toNat) s)
/-- The same with what it does to page tables: they see a word that has changed once it is whole (R365). -/
def State.rdmaStore (s : State) (l : List (Loc × Byte)) : State :=
  s.entriesStored (s.rdmaPut l) (l.map (·.1))

/-- RDMA_READ. A request for a row under repair waits. (DESIGN CHOICE, log entry 63.) -/
def execRdmaRead (rq : RdmaReq) (s : State) : Result :=
  let t := s.tenAt rq.ten
  if !t.connUp rq.conn then .next s
  else if rq.key ≠ t.rdmaKey then .next (s.rdmaAnswer rq.ten rq.conn 2 [])
  else match s.rdmaBytes rq true false rq.len with
    | none => .next (s.rdmaAnswer rq.ten rq.conn 2 [])
    | some l =>
      if l.any s.underRepair then .next (s.later (.rdmaRead rq)) else
      let s := l.foldl (fun s p => s.settle p 1) s
      -- an uncorrectable error never delivers data (R369)
      if l.any fun p => s.spoiled p 1 then .next (s.rdmaAnswer rq.ten rq.conn 2 [])
      else .next (s.rdmaAnswer rq.ten rq.conn 4 (l.map s.rdByte))

/-- RDMA_WRITE: the words are placed before the WRITE is acknowledged. (DESIGN CHOICE, log entry 63.) -/
def execRdmaWrite (rq : RdmaReq) (s : State) : Result :=
  let t := s.tenAt rq.ten
  if !t.connUp rq.conn then .next s
  else if rq.key ≠ t.rdmaKey then .next (s.rdmaAnswer rq.ten rq.conn 2 [])
  else match s.rdmaBytes rq false true rq.data.length with
    | none => .next (s.rdmaAnswer rq.ten rq.conn 2 [])
    | some l =>
      if l.any s.underRepair then .next (s.later (.rdmaWrite rq))
      else .next (((s.rdmaStore (l.zip rq.data)).mend l).rdmaAnswer rq.ten rq.conn 1 [])

/-- RDMA_INVALID_REQUEST: the connection enters its error state. -/
def execRdmaInvalidRequest (ten : Nat) (conn : Nat) (s : State) : Result :=
  if !(s.tenAt ten).connUp conn then .next s
  else .next ((s.onTen ten fun t => { t with conns := t.conns.set conn false }).rdmaAnswer ten conn 3 [])

/-! ### Samples (R380) -/

/-- The lane state of R134: empty 0, runnable 1, parked 2, exited 3. -/
def Thread.laneState (t : Thread) : Nat :=
  match t.status with
  | .runnable => 1
  | .parked _ | .held _ => 2
  | .exited => 3
  | .halted => 0

/-- SAMPLING: a record of kind 1 for a thread, or of kind 2 for the command at the head of one of its core's engines. -/
def execSamplingEvt (who : ThreadRef) (eng : Option Eng) (s : State) : Result :=
  let k := s.coreAt who.core
  match eng with
  | none => match s.view? who.core who.tid with
    | none => .next s
    | some v => .next (s.trace k.ten { pc := v.th.pc, clk := k.clock, kind := 1, tid := who.tid, info := BitVec.ofNat 32 v.th.laneState })
  | some e => match s.queueOf { core := who.core, eng := e } with
    | [] => .next s
    | c :: _ => .next (s.traceCmd 2 c.ctx c.op.engNo c.seq 0)

/-! ### Resets (R417) -/

/-- The greatest timestamp that anything holds. -/
def State.maxStamp (s : State) : Nat :=
  let a := s.farTs.foldl (fun m x => max m x.2) (s.cores.foldl (fun m c => max m c.pts) (max s.ptsLow s.hostTs))
  let b := s.home.foldl (fun m x => max m (max x.wts x.rts)) a
  s.slices.foldl (fun m x => max m x.memTs) b

/-- The firmware that runs after a cold reset: the offered image when both signatures verify and its version is not below the
minimum, else the previous one (R415). -/
def AlwaysOn.boot (a : AlwaysOn) : AlwaysOn :=
  let n := a.resets
  let good := Config.ecdsaVerifies n && Config.lmsVerifies n && decide (a.minVer ≤ Config.firmwareVersion n)
  { a with version := if good then Config.firmwareVersion n else a.version, image := if good then n else a.image, resets := n + 1 }

/-- The always-on domain after a reset: its clock goes on, and the spares that stand for other units stay with them, as the self-test maps
them again (R417). (DEDUCED, log entry 35.) -/
def State.aonAfter (s : State) : AlwaysOn :=
  { s.aon with time := s.sumpTime, frozen := false, power := true, drops := 0, resends := 0 }

/-- A core and a slice as a reset leaves them, behind their logical numbers. -/
def Core.freshAs (c : Core) : Core := { Core.fresh c.id with phys := c.phys }
def Slice.freshAs (x : Slice) : Slice := { Slice.fresh x.id with phys := x.phys }

/-- COLD_RESET: everything restarts but the Sump and the monotonic store. (DEDUCED, log entry 35.) -/
def execColdReset (s : State) : Result :=
  let r : State := { State.reset with
    aon := s.aonAfter.boot, cores := s.cores.map Core.freshAs, slices := s.slices.map Slice.freshAs, sched := s.sched, upsets := s.upsets, free := s.free }
  .next (r.sump 3 0 0xFF 0xFFFF 0 0#64 0#64)

/-- What a tenancy keeps over a warm reset: its journal and NEXT. -/
def Tenancy.afterWarm (t : Tenancy) : Tenancy :=
  { Tenancy.fresh t.id with
    journal := t.journal, jbase := t.jbase, mirror := t.mirror, dirty := t.dirty, nextTask := t.nextTask,
    zqs := t.zqs.map fun z => { z with live := [] } }

/-- What a core keeps over a warm reset: the counts of its engines' commands, which run since cold reset (R379); its timestamp
restarts at `g`. -/
def Core.afterWarm (g : Nat) (c : Core) : Core := { c.freshAs with seqs := c.seqs, pts := g }

/-- WARM_RESET: journals, NEXT, the Sump and the monotonic store are kept, and no timestamp falls: every slice's is at the greatest, and
the lines that are homed in no slice and the other devices keep theirs. After a freeze HBM4E is kept
too; otherwise it holds what it holds after power on. (DEDUCED, log entry 35.) -/
def execWarmReset (s : State) : Result :=
  let g := s.maxStamp
  let r : State := { State.reset with
    aon := { s.aonAfter with resets := s.aon.resets }, sched := s.sched, upsets := s.upsets, free := s.free,
    ptsLow := g, hostTs := g, cores := s.cores.map (Core.afterWarm g),
    slices := (List.range Config.cells).map fun i => { (s.sliceAt i).freshAs with memTs := g },
    home := s.home.filter fun x => decide (2 ^ 42 ≤ x.line), farTs := s.farTs,
    mem := if s.aon.frozen then s.mem.filter fun (c : Host.Cell) => decide (c.1 < 2 ^ 39) else [],
    errs := if s.aon.frozen then s.errs.filter fun l => match l with
      | .mem a => decide (a < 2 ^ 39)
      | _ => false else [],
    tens := s.tens.map Tenancy.afterWarm }
  .next (r.sump 3 0 0xFF 0xFFFF 0 0#64 0#64)

/-! ### Power and the physical part (R388, R416, R418) -/

/-- ALWAYS_ON_POWER_LOSS: the Sump and the journals are lost; the monotonic store is not. -/
def execAlwaysOnPowerLoss (s : State) : Result :=
  .next { s with
    aon := { s.aon with sump := [], sumpSeq := 0, time := 0, frozen := false, power := false },
    tens := s.tens.map fun (t : Tenancy) => { t with journal := [], jbase := 0, dirty := [] } }

/-- LOSS_OF_POWER: the clocks stand; the always-on domain keeps what it holds. -/
def execLossOfPower (s : State) : Result := .next { s with aon := { s.aon with power := false, frozen := false } }

/-- THERMAL_EVENT: the governors of a die step down, each with its core's next issue cycle. (DEDUCED, log entry 77.) -/
def execThermalEvent (die : Nat) (s : State) : Result :=
  let s := { s with cores := s.cores.map fun (c : Core) => if dieOfCore c.id = die then { c with govNext := some ((c.govNext.getD c.gov) - 1) } else c }
  .next (s.sump 5 die 0xFF 0xFFFF 0 0#64 0#64)

/-- VOLTAGE_DROOP. -/
def execVoltageDroop (die : Nat) (s : State) : Result := .next (s.sump 6 die 0xFF 0xFFFF 0 0#64 0#64)

/-- LASER_MODULE_SWAP: the links keep moving traffic. (DEDUCED, log entry 77.) -/
def execLaserModuleSwap (module : Nat) (s : State) : Result := .next (s.sump 7 0 0xFF 0xFFFF 0 (BitVec.ofNat 64 module) 0#64)

end Sys2Proof.Machine
end

