-- ==== Sys2Proof/Machine/Special.lean ====
section
/-! DEFINITION. The special registers (R17 to R22, R45, R97, R148, R170, R197, R241, R269, R355, R367, R382 to R385) and
MFSR and MTSR (R103, R104, op 0x37 and 0x38). -/

namespace Sys2Proof.Machine
open Sys2Proof

/-- Who may write a special register: nobody, the save routine in system mode (R19), or any thread that reaches it. -/
inductive SrAccess where
  | ro | ctx | rw
  deriving DecidableEq, Repr

/-- Width (64 when true) and access of a register number; none for a number outside the table. -/
def srInfo (n : Nat) : Option (Bool × SrAccess) :=
  if n ≤ 0x00A then some (false, .ro)
  else if n ≤ 0x00D then some (false, .ctx)
  else if 0x010 ≤ n ∧ n ≤ 0x013 then some (false, .ctx)
  else match n with
    | 0x020 | 0x021 | 0x022 => some (false, .rw)
    | 0x023 | 0x024 => some (false, .ro)
    | 0x025 | 0x026 | 0x027 => some (false, .rw)
    | 0x028 => some (true, .rw)
    | 0x029 | 0x02A | 0x02B => some (false, .rw)
    | 0x02C | 0x02D | 0x02E => some (true, .ctx)
    | 0x02F | 0x030 => some (false, .ctx)
    | 0x031 => some (true, .rw)
    | 0x032 => some (false, .ro)
    | 0x033 => some (false, .ctx)
    | 0x034 | 0x035 => some (true, .rw)
    | 0x036 => some (false, .rw)
    | 0x040 | 0x042 => some (false, .ctx)
    | 0x041 => some (true, .rw)
    | 0x043 | 0x044 => some (true, .ctx)
    | 0x045 => some (false, .ctx)
    | 0x046 => some (true, .rw)
    | 0x047 => some (false, .ctx)
    | 0x050 | 0x051 => some (false, .ro)
    | 0x052 | 0x053 => some (false, .rw)
    | 0x400 => some (true, .rw)
    | 0x401 => some (false, .rw)
    | 0x402 => some (true, .rw)
    | 0x403 => some (false, .ro)
    | 0x404 | 0x405 | 0x406 => some (false, .rw)
    | 0x407 | 0x408 | 0x409 => some (true, .rw)
    | 0x410 | 0x412 => some (false, .ctx)
    | 0x411 => some (true, .rw)
    | 0x413 | 0x414 => some (true, .ctx)
    | 0x415 | 0x416 => some (false, .ctx)
    | _ => none

/-- Whether a number names a 64-bit register. -/
def srWide (n : Nat) : Bool := match srInfo n with | some (w, _) => w | none => false

/-- The checks of R19 that are made at decoding. A number of 0x400 or above that names no register meets two rows of R19 in user
mode, and the spec does not say which wins: ILLEGAL, sub-cause 6, does. (DESIGN CHOICE, log entry 85.) -/
def srTrap (n : Nat) (wr : Bool) (t : Thread) : Option Trap :=
  match srInfo n with
  | none => some (trapOpen stageMode Cause.illegal 6)
  | some (_, acc) =>
    if n ≥ 0x400 && !t.modeS then some (trapAt stageMode Cause.prot 3 (BitVec.ofNat 64 n))
    else if wr && (acc == .ro || (acc == .ctx && !t.modeS)) then some (trapOpen stageMode Cause.illegal 6)
    else none

/-- What the registers that no thread holds read as: the values of the core, the crew and the device. -/
structure SrEnv where
  core   : Nat
  clk    : W64
  celsz  : Nat
  dev    : Nat
  ten    : Nat
  rspill : W32
  lease  : W32
  mgidle : W32
  trial  : W32
  trlo   : W64
  trhi   : W64
  deriving DecidableEq, Repr

def State.srEnv (s : State) (core : Nat) : SrEnv :=
  let c := s.coreAt core
  { core, clk := c.clock, celsz := s.celsz (cellOf core), dev := s.dev, ten := c.ten,
    rspill := (c.crew.map (·.rspill)).getD 0#32, lease := c.lease, mgidle := c.mgidle, trial := c.trial, trlo := c.trlo,
    trhi := c.trhi }

/-- A number that the scalar front end reads as all ones (R31). -/
def Thread.placeWord (t : Thread) (n : Nat) : W32 := if t.sfe then BitVec.allOnes 32 else BitVec.ofNat 32 n

/-- The value of a special register, zero-extended. -/
def srRead (e : SrEnv) (t : Thread) (n : Nat) : W64 :=
  let w (x : W32) : W64 := x.setWidth 64
  let k (x : Nat) : W64 := BitVec.ofNat 64 x
  match n with
  | 0x000 => w t.ident.tid
  | 0x001 => w (t.placeWord t.place.lane)
  | 0x002 => w (t.placeWord t.place.slot)
  | 0x003 => w (t.placeWord t.place.sect)
  | 0x004 => k e.core
  | 0x005 => k (cellOf e.core)
  | 0x006 => k (stackOfCore e.core)
  | 0x007 => k e.dev
  | 0x008 => w t.ident.crew
  | 0x009 => w t.ident.task
  | 0x00A => w t.ident.nthr
  | 0x00B => w t.ident.envid
  | 0x00C => w t.str.episode
  | 0x00D => w t.str.step
  | 0x010 => w t.str.seedLo
  | 0x011 => w t.str.seedHi
  | 0x012 => w t.str.rngd
  | 0x013 => w t.str.rngr
  | 0x020 => w t.ctl.mmask
  | 0x021 => w t.ctl.rmode
  | 0x022 => w t.ctl.fpflags
  | 0x023 => if t.sfe then 0#64 else k t.win
  | 0x024 => if t.sfe then 112#64 else k t.allot
  | 0x025 => w t.l0.lc
  | 0x026 => w t.l1.lc
  | 0x027 => w t.l2.lc
  | 0x028 => t.ra
  | 0x029 => w t.ctl.htag
  | 0x02A => w t.ctl.nwin
  | 0x02B => w t.ctl.bintmo
  | 0x02C => t.l0.lb
  | 0x02D => t.l1.lb
  | 0x02E => t.l2.lb
  | 0x02F => if t.sfe then 0#64 else w t.dqpos
  | 0x030 => w t.bpend
  | 0x031 => t.locbase
  | 0x032 => k e.celsz
  | 0x033 => w e.rspill
  | 0x034 => t.watch.wp0
  | 0x035 => t.watch.wp1
  | 0x036 => w t.watch.wpctl
  | 0x040 => w t.ut.cause
  | 0x041 => t.ut.pc
  | 0x042 => w t.ut.mask
  | 0x043 => t.ut.field
  | 0x044 => t.ut.addr
  | 0x045 => w t.ut.inst
  | 0x046 => t.uhandler
  | 0x047 => w t.ut.pre
  | 0x050 => w (lo32 e.clk)
  | 0x051 => w (t.clkShadow.getD (hi32 e.clk))
  | 0x052 => w t.ctl.nack
  | 0x053 => w t.ctl.dbgctl
  | 0x400 => t.khandler
  | 0x401 => w t.mode
  | 0x402 => t.ptbase
  | 0x403 => k e.ten
  | 0x404 => w e.trial
  | 0x405 => w e.lease
  | 0x406 => w e.mgidle
  | 0x407 => t.svcq
  | 0x408 => e.trlo
  | 0x409 => e.trhi
  | 0x410 => w t.kt.cause
  | 0x411 => t.kt.pc
  | 0x412 => w t.kt.mask
  | 0x413 => t.kt.field
  | 0x414 => t.kt.addr
  | 0x415 => w t.kt.inst
  | 0x416 => w t.kt.pre
  | _ => 0#64

/-- The shadow of %clk (R20): a read of the low word latches the high word, a read of the high word takes it. -/
def srLatch (e : SrEnv) (n : Nat) (t : Thread) : Thread :=
  match n with
  | 0x050 => { t with clkShadow := some (hi32 e.clk) }
  | 0x051 => { t with clkShadow := none }
  | _ => t

/-- Whether MFSR and MTSR of a number wait for the thread's flag-setting results (R69, R104). -/
def srWaits (n : Nat) (t : Thread) : Bool := n == 0x022 && t.pending.any fun p => p.kind == .arith

/-- The checks of a written value (R19, R197, R382). -/
def srBad (n : Nat) (x : W64) : Bool :=
  match n with
  | 0x021 => decide (bitsOf x 2 0 > 4)
  | 0x031 => bitsOf x 15 0 != 0 || !canonical x || (windowOf x).isSome
  | 0x036 => decide (bitsOf x 5 0 > 48) || decide (bitsOf x 21 16 > 48)
  | _ => false

/-- Replace the bits of `mask`; the others have access RSV and keep their value 0. -/
def keep32 (mask : Nat) (x : W64) : W32 := lo32 x &&& BitVec.ofNat 32 mask

/-- UNSEEN is cleared by writing 1, and UNINIT, WPEN and WSKIP are written (R21, R383). -/
def dbgctlWrite (old : W32) (x : W64) : W32 :=
  (keep32 0xD x) ||| (old &&& 2#32 &&& ~~~lo32 x)

/-- A write to a thread-scope register. %tprefix and %ktprefix keep bits [30:26] as written, and %tcause and %ktcause bits [31:16]: a trap
entry writes 0 there, and whether the save routine can write anything else the spec does not say (R19, R28, R45, R103).
(DESIGN CHOICE, log entry 99.) -/
def srWriteThread (n : Nat) (x : W64) (t : Thread) : Thread :=
  let w := lo32 x
  match n with
  | 0x00B => { t with ident := { t.ident with envid := w } }
  | 0x00C => { t with str := { t.str with episode := w } }
  | 0x00D => { t with str := { t.str with step := w } }
  | 0x010 => { t with str := { t.str with seedLo := w } }
  | 0x011 => { t with str := { t.str with seedHi := w } }
  | 0x012 => { t with str := { t.str with rngd := w } }
  | 0x013 => { t with str := { t.str with rngr := w } }
  | 0x020 => { t with ctl := { t.ctl with mmask := w } }
  | 0x021 => { t with ctl := { t.ctl with rmode := keep32 7 x } }
  | 0x022 => { t with ctl := { t.ctl with fpflags := keep32 63 x } }
  | 0x025 => { t with l0 := { t.l0 with lc := w } }
  | 0x026 => { t with l1 := { t.l1 with lc := w } }
  | 0x027 => { t with l2 := { t.l2 with lc := w } }
  | 0x028 => { t with ra := x }
  | 0x029 => { t with ctl := { t.ctl with htag := w } }
  | 0x02A => { t with ctl := { t.ctl with nwin := w } }
  | 0x02B => { t with ctl := { t.ctl with bintmo := w } }
  | 0x02C => { t with l0 := { t.l0 with lb := x &&& 0xFF01FFFFFFFFFFFD#64, copy := [] } }
  | 0x02D => { t with l1 := { t.l1 with lb := x &&& 0xFF01FFFFFFFFFFFD#64, copy := [] } }
  | 0x02E => { t with l2 := { t.l2 with lb := x &&& 0xFF01FFFFFFFFFFFD#64, copy := [] } }
  | 0x02F => { t with dqpos := w }
  | 0x030 => { t with bpend := keep32 0x1FF x }
  | 0x031 => { t with locbase := x }
  | 0x034 => { t with watch := { t.watch with wp0 := x } }
  | 0x035 => { t with watch := { t.watch with wp1 := x } }
  | 0x036 => { t with watch := { t.watch with wpctl := keep32 0x01FF01FF x } }
  | 0x040 => { t with ut := { t.ut with cause := w } }
  | 0x041 => { t with ut := { t.ut with pc := x } }
  | 0x042 => { t with ut := { t.ut with mask := w } }
  | 0x043 => { t with ut := { t.ut with field := x &&& 0xFFFFFFFFE3FFFFFF#64 } }
  | 0x044 => { t with ut := { t.ut with addr := x } }
  | 0x045 => { t with ut := { t.ut with inst := w } }
  | 0x046 => { t with uhandler := x }
  | 0x047 => { t with ut := { t.ut with pre := w } }
  | 0x052 => { t with ctl := { t.ctl with nack := w } }
  | 0x053 => { t with ctl := { t.ctl with dbgctl := dbgctlWrite t.ctl.dbgctl x } }
  | 0x400 => { t with khandler := x }
  | 0x401 => { t with mode := keep32 15 x }
  | 0x402 => { t with ptbase := x }
  | 0x407 => { t with svcq := x }
  | 0x410 => { t with kt := { t.kt with cause := w } }
  | 0x411 => { t with kt := { t.kt with pc := x } }
  | 0x412 => { t with kt := { t.kt with mask := w } }
  | 0x413 => { t with kt := { t.kt with field := x &&& 0xFFFFFFFFE3FFFFFF#64 } }
  | 0x414 => { t with kt := { t.kt with addr := x } }
  | 0x415 => { t with kt := { t.kt with inst := w } }
  | 0x416 => { t with kt := { t.kt with pre := w } }
  | _ => t

/-- A write to a core-scope or crew-scope register (R18). LEASE 0 becomes 1 (R197). -/
def srWriteCore (n : Nat) (x : W64) (c : Core) : Core :=
  match n with
  | 0x033 => c.onCrew fun k => { k with rspill := lo32 x }
  | 0x404 => { c with trial := keep32 0x8000FFFF x }
  | 0x405 => { c with lease := if bitsOf x 3 0 = 0 then 1#32 else keep32 15 x }
  | 0x406 => { c with mgidle := keep32 0xFFFF x }
  | 0x408 => { c with trlo := x }
  | 0x409 => { c with trhi := x }
  | _ => c

/-- One lane's MTSR: %dbgctl is written after WSKIP has cleared, every other register before the PC moves on. -/
def srWriteLane (n : Nat) (x : W64) (t : Thread) : Thread :=
  if n = 0x053 then srWriteThread n x (t.complete 4#64) else (srWriteThread n x t).complete 4#64

/-- The verdict of MFSR and MTSR: the register fields, R19's checks at decoding, and only then the source reads. -/
def srVerdict (o : Opnds) (n : Nat) (wr : Bool) (v : View) : Verdict :=
  match o.decodeTrap v.th with
  | some t => .trap t
  | none =>
    match srTrap n wr v.th with
    | some t => .trap t
    | none => (o.readVerdict v).andThen (if srWaits n v.th then .wait .results else .ok)

def mfsrForm (o : MfsrOp) (s : State) : LaneForm :=
  let n := o.n.toNat
  let e := s.srEnv s.issue.core
  let opn : Opnds := { dsts := [⟨o.d, if srWide n then 2 else 1⟩] }
  { opn, verdict := srVerdict opn n false,
    act := fun tids s => s.onTids s.issue.core tids fun v =>
      let x := srRead e v.th n
      let v := v.onTh (srLatch e n)
      (if srWide n then v.wr64 o.d x else v.wr32 o.d (lo32 x)).done 4#64 }
def execMfsr (o : MfsrOp) (s : State) : Result := .next (s.eachLane (mfsrForm o s))

/-- The value that MTSR writes. -/
def mtsrValue (o : MtsrOp) (v : View) : W64 :=
  if srWide o.n.toNat then v.rd64 o.a else (v.rd32 o.a).setWidth 64

/-- The loop buffer takes the body of a level that MTSR enters (R101). (DEDUCED, log entry 68.) -/
def State.takeBody (s : State) (core n : Nat) (t : Thread) : Thread :=
  let fill (l : LoopLevel) : LoopLevel := { l with copy := if l.act then s.bodyWords core t l.start (l.len + 1) else [] }
  match n with
  | 0x02C => { t with l0 := fill t.l0 }
  | 0x02D => { t with l1 := fill t.l1 }
  | 0x02E => { t with l2 := fill t.l2 }
  | _ => t

/-- A write of a core-scope or crew-scope register by one lane. Each change of %trial writes a trace record (R387); what a trial is
numbered is open. -/
def State.writeCoreReg (s : State) (core n : Nat) (t : Thread) (x : W64) : State :=
  let old := (s.coreAt core).trial
  let s := s.onCore core (srWriteCore n x)
  if (s.coreAt core).trial = old then s
  else s.trace (s.coreAt core).ten
    { pc := t.pc, clk := (s.coreAt core).clock, kind := 6, tid := t.ident.tid, info := Config.freeWord [7, s.free] }

/-- MTSR. The one copy of a core or crew register takes the writes of a run's lanes in ascending lane order. (DESIGN CHOICE, log entry 100.)
An arrival that a write of %bpend sets may complete its generation (R170, R172), and a root that a write of %ptbase brings into use maps its
pages (R362). -/
def mtsrForm (o : MtsrOp) (s : State) : LaneForm :=
  let n := o.n.toNat
  let core := s.issue.core
  let opn : Opnds := { srcs := [if srWide n then .p o.a o.f else .r o.a o.f] }
  { opn,
    verdict := fun v => (srVerdict opn n true v).andThen
      (if srBad n (mtsrValue o v) then .trap (trapOpen stageCard Cause.illegal 6) else .ok),
    act := fun tids s =>
      let was := s
      let who := s.run.filter fun v => tids.contains v.th.ident.tid
      let s := who.foldl (fun s v => s.writeCoreReg core n v.th (mtsrValue o v)) s
      let s := s.onTids core tids fun v => (opn.noteUnseen v).onTh fun t => s.takeBody core n (srWriteLane n (mtsrValue o v) t)
      match n, s.crew? with
      | 0x030, some c => s.tryBarriers c.ten c.task c.no
      | 0x402, _ => ((who.map fun v => (mtsrValue o v).toNat).eraseDups.filter fun r => !was.roots.contains r).foldl State.mapRoot s
      | _, _ => s }
def execMtsr (o : MtsrOp) (s : State) : Result := .next (s.eachLane (mtsrForm o s))

end Sys2Proof.Machine
end

