-- ==== Sys2Proof/Machine/Dispatch.lean ====
section
/-! DEFINITION. The meaning of every instruction and step: one arm for each constructor of `Instr`. -/

namespace Sys2Proof.Machine
open Sys2Proof

def exec (i : Instr) (s : State) : Host.Outcome State Fault Refusal :=
  match i with
  | .qmFusedPass core sect count => Sys2Proof.Machine.execQmFusedPass core sect count s
  | .subarrayGate core sect sub => Sys2Proof.Machine.execSubarrayGate core sect sub s
  | .tableExchange core => Sys2Proof.Machine.execTableExchange core s
  | .tileLaunch core tile => Sys2Proof.Machine.execTileLaunch core tile s
  | .tileDelivery core sect => Sys2Proof.Machine.execTileDelivery core sect s
  | .backwardSettle core => Sys2Proof.Machine.execBackwardSettle core s
  | .commandCompletion eng idx => Sys2Proof.Machine.execCommandCompletion eng idx s
  | .lineDelivery eng idx line => Sys2Proof.Machine.execLineDelivery eng idx line s
  | .engineTranslationFault eng idx refused => Sys2Proof.Machine.execEngineTranslationFault eng idx refused s
  | .stopHold eng => Sys2Proof.Machine.execStopHold eng s
  | .stopRelease eng => Sys2Proof.Machine.execStopRelease eng s
  | .resultLands who idx => Sys2Proof.Machine.execResultLands who idx s
  | .sectionIssue core sect => Sys2Proof.Machine.execSectionIssue core sect s
  | .forcedRun core sect => Sys2Proof.Machine.execForcedRun core sect s
  | .yieldDeferralEnd core sect slot => Sys2Proof.Machine.execYieldDeferralEnd core sect slot s
  | .governorWindow core => Sys2Proof.Machine.execGovernorWindow core s
  | .gangFormation core bin => Sys2Proof.Machine.execGangFormation core bin s
  | .crewDispatch cell => Sys2Proof.Machine.execCrewDispatch cell s
  | .stealRequest thief victim => Sys2Proof.Machine.execStealRequest thief victim s
  | .stealAnswer thief => Sys2Proof.Machine.execStealAnswer thief s
  | .stealRoundWait cell => Sys2Proof.Machine.execStealRoundWait cell s
  | .costart ten task => Sys2Proof.Machine.execCostart ten task s
  | .costartAnnounce ten task rank => Sys2Proof.Machine.execCostartAnnounce ten task rank s
  | .lineGroupSend core grp => Sys2Proof.Machine.execLineGroupSend core grp s
  | .lineGroupAtHome core grp => Sys2Proof.Machine.execLineGroupAtHome core grp s
  | .lineGroupReply core grp => Sys2Proof.Machine.execLineGroupReply core grp s
  | .negativeAcknowledgement core grp => Sys2Proof.Machine.execNegativeAcknowledgement core grp s
  | .nackRetry core grp => Sys2Proof.Machine.execNackRetry core grp s
  | .bypassEntryFree slice entry => Sys2Proof.Machine.execBypassEntryFree slice entry s
  | .ptsAdvance => Sys2Proof.Machine.execPtsAdvance s
  | .lanternPass chan => Sys2Proof.Machine.execLanternPass chan s
  | .meshHop msg => Sys2Proof.Machine.execMeshHop msg s
  | .routerPowerDown router => Sys2Proof.Machine.execRouterPowerDown router s
  | .routerWake router => Sys2Proof.Machine.execRouterWake router s
  | .tokenGrant die unit => Sys2Proof.Machine.execTokenGrant die unit s
  | .throttleLift die => Sys2Proof.Machine.execThrottleLift die s
  | .walkComplete walk => Sys2Proof.Machine.execWalkComplete walk s
  | .serviceForward ten => Sys2Proof.Machine.execServiceForward ten s
  | .serviceResend ten idx => Sys2Proof.Machine.execServiceResend ten idx s
  | .preempt core sub save => Sys2Proof.Machine.execPreempt core sub save s
  | .crewRestore saved core => Sys2Proof.Machine.execCrewRestore saved core s
  | .spareCoreRepair core save => Sys2Proof.Machine.execSpareCoreRepair core save s
  | .spareSliceRepair slice => Sys2Proof.Machine.execSpareSliceRepair slice s
  | .hbmRowRepair row ended => Sys2Proof.Machine.execHbmRowRepair row ended s
  | .frzN => Sys2Proof.Machine.execFrzN s
  | .bridgeTransfer idx => Sys2Proof.Machine.execBridgeTransfer idx s
  | .bridgeCrcFail idx => Sys2Proof.Machine.execBridgeCrcFail idx s
  | .remoteDomainAccess acc => Sys2Proof.Machine.execRemoteDomainAccess acc s
  | .storeRefusalReport who addr => Sys2Proof.Machine.execStoreRefusalReport who addr s
  | .flitData port fl => Sys2Proof.Machine.execFlitData port fl s
  | .flitAcknowledgement port fl => Sys2Proof.Machine.execFlitAcknowledgement port fl s
  | .flitNegativeAcknowledgement port fl => Sys2Proof.Machine.execFlitNegativeAcknowledgement port fl s
  | .flitReservation port fl => Sys2Proof.Machine.execFlitReservation port fl s
  | .flitControl port fl => Sys2Proof.Machine.execFlitControl port fl s
  | .wavelengthRetire port fibre wave => Sys2Proof.Machine.execWavelengthRetire port fibre wave s
  | .fibreFailover port fibre => Sys2Proof.Machine.execFibreFailover port fibre s
  | .peerUnreachable port rank => Sys2Proof.Machine.execPeerUnreachable port rank s
  | .launchCmd dg => Sys2Proof.Machine.execLaunchCmd dg s
  | .mapCmd dg => Sys2Proof.Machine.execMapCmd dg s
  | .unmapCmd dg => Sys2Proof.Machine.execUnmapCmd dg s
  | .signalCmd dg => Sys2Proof.Machine.execSignalCmd dg s
  | .waitCmd dg => Sys2Proof.Machine.execWaitCmd dg s
  | .queryDevice dg => Sys2Proof.Machine.execQueryDevice dg s
  | .queryProbes dg => Sys2Proof.Machine.execQueryProbes dg s
  | .querySump dg => Sys2Proof.Machine.execQuerySump dg s
  | .queryTrace dg => Sys2Proof.Machine.execQueryTrace dg s
  | .queryAttest dg => Sys2Proof.Machine.execQueryAttest dg s
  | .journalRead dg => Sys2Proof.Machine.execJournalRead dg s
  | .resetTenancy dg => Sys2Proof.Machine.execResetTenancy dg s
  | .freezeCmd dg => Sys2Proof.Machine.execFreezeCmd dg s
  | .serviceReply dg => Sys2Proof.Machine.execServiceReply dg s
  | .zcpCommandStart ten queue => Sys2Proof.Machine.execZcpCommandStart ten queue s
  | .doneEvt ten queue => Sys2Proof.Machine.execDoneEvt ten queue s
  | .journalMirrorWrite ten => Sys2Proof.Machine.execJournalMirrorWrite ten s
  | .rdmaRead rq => Sys2Proof.Machine.execRdmaRead rq s
  | .rdmaWrite rq => Sys2Proof.Machine.execRdmaWrite rq s
  | .rdmaInvalidRequest ten conn => Sys2Proof.Machine.execRdmaInvalidRequest ten conn s
  | .coldReset => Sys2Proof.Machine.execColdReset s
  | .warmReset => Sys2Proof.Machine.execWarmReset s
  | .alwaysOnPowerLoss => Sys2Proof.Machine.execAlwaysOnPowerLoss s
  | .thermalEvent die => Sys2Proof.Machine.execThermalEvent die s
  | .laserModuleSwap module => Sys2Proof.Machine.execLaserModuleSwap module s
  | .wordNotInstruction sub raw => Sys2Proof.Machine.execWordNotInstruction sub raw s
  | .fetchTrap => Sys2Proof.Machine.execFetchTrap s
  | .zcpOpNotNamed dg => Sys2Proof.Machine.execZcpOpNotNamed dg s
  | .samplingEvt who eng => Sys2Proof.Machine.execSamplingEvt who eng s
  | .voltageDroop die => Sys2Proof.Machine.execVoltageDroop die s
  | .lossOfPower => Sys2Proof.Machine.execLossOfPower s
  | .linksComeUp port rank => Sys2Proof.Machine.execLinksComeUp port rank s
  | .add o => Sys2Proof.Machine.execAdd o s
  | .sub o => Sys2Proof.Machine.execSub o s
  | .and o => Sys2Proof.Machine.execAnd o s
  | .or o => Sys2Proof.Machine.execOr o s
  | .xor o => Sys2Proof.Machine.execXor o s
  | .shl o => Sys2Proof.Machine.execShl o s
  | .shr o => Sys2Proof.Machine.execShr o s
  | .sra o => Sys2Proof.Machine.execSra o s
  | .add64 o => Sys2Proof.Machine.execAdd64 o s
  | .sub64 o => Sys2Proof.Machine.execSub64 o s
  | .and64 o => Sys2Proof.Machine.execAnd64 o s
  | .or64 o => Sys2Proof.Machine.execOr64 o s
  | .xor64 o => Sys2Proof.Machine.execXor64 o s
  | .shl64 o => Sys2Proof.Machine.execShl64 o s
  | .shr64 o => Sys2Proof.Machine.execShr64 o s
  | .sra64 o => Sys2Proof.Machine.execSra64 o s
  | .mul o => Sys2Proof.Machine.execMul o s
  | .mulh o => Sys2Proof.Machine.execMulh o s
  | .mulhu o => Sys2Proof.Machine.execMulhu o s
  | .mul64 o => Sys2Proof.Machine.execMul64 o s
  | .div o => Sys2Proof.Machine.execDiv o s
  | .divu o => Sys2Proof.Machine.execDivu o s
  | .rem o => Sys2Proof.Machine.execRem o s
  | .remu o => Sys2Proof.Machine.execRemu o s
  | .seq o => Sys2Proof.Machine.execSeq o s
  | .sne o => Sys2Proof.Machine.execSne o s
  | .slt o => Sys2Proof.Machine.execSlt o s
  | .sltu o => Sys2Proof.Machine.execSltu o s
  | .sle o => Sys2Proof.Machine.execSle o s
  | .sleu o => Sys2Proof.Machine.execSleu o s
  | .min o => Sys2Proof.Machine.execMin o s
  | .max o => Sys2Proof.Machine.execMax o s
  | .seq64 o => Sys2Proof.Machine.execSeq64 o s
  | .sne64 o => Sys2Proof.Machine.execSne64 o s
  | .slt64 o => Sys2Proof.Machine.execSlt64 o s
  | .sltu64 o => Sys2Proof.Machine.execSltu64 o s
  | .sle64 o => Sys2Proof.Machine.execSle64 o s
  | .sleu64 o => Sys2Proof.Machine.execSleu64 o s
  | .min64 o => Sys2Proof.Machine.execMin64 o s
  | .max64 o => Sys2Proof.Machine.execMax64 o s
  | .popc o => Sys2Proof.Machine.execPopc o s
  | .clz o => Sys2Proof.Machine.execClz o s
  | .ctz o => Sys2Proof.Machine.execCtz o s
  | .brev o => Sys2Proof.Machine.execBrev o s
  | .bfx o => Sys2Proof.Machine.execBfx o s
  | .bfi o => Sys2Proof.Machine.execBfi o s
  | .prmt o => Sys2Proof.Machine.execPrmt o s
  | .andn o => Sys2Proof.Machine.execAndn o s
  | .sel o => Sys2Proof.Machine.execSel o s
  | .abs o => Sys2Proof.Machine.execAbs o s
  | .neg o => Sys2Proof.Machine.execNeg o s
  | .sext8 o => Sys2Proof.Machine.execSext8 o s
  | .sext16 o => Sys2Proof.Machine.execSext16 o s
  | .zext8 o => Sys2Proof.Machine.execZext8 o s
  | .zext16 o => Sys2Proof.Machine.execZext16 o s
  | .unpt o => Sys2Proof.Machine.execUnpt o s
  | .addi o => Sys2Proof.Machine.execAddi o s
  | .addi64 o => Sys2Proof.Machine.execAddi64 o s
  | .andi o => Sys2Proof.Machine.execAndi o s
  | .ori o => Sys2Proof.Machine.execOri o s
  | .xori o => Sys2Proof.Machine.execXori o s
  | .addiX x o => Sys2Proof.Machine.execAddiX x o s
  | .addi64X x o => Sys2Proof.Machine.execAddi64X x o s
  | .andiX x o => Sys2Proof.Machine.execAndiX x o s
  | .oriX x o => Sys2Proof.Machine.execOriX x o s
  | .xoriX x o => Sys2Proof.Machine.execXoriX x o s
  | .shli o => Sys2Proof.Machine.execShli o s
  | .shri o => Sys2Proof.Machine.execShri o s
  | .srai o => Sys2Proof.Machine.execSrai o s
  | .rori o => Sys2Proof.Machine.execRori o s
  | .shli64 o => Sys2Proof.Machine.execShli64 o s
  | .shri64 o => Sys2Proof.Machine.execShri64 o s
  | .srai64 o => Sys2Proof.Machine.execSrai64 o s
  | .rori64 o => Sys2Proof.Machine.execRori64 o s
  | .li o => Sys2Proof.Machine.execLi o s
  | .li64 o => Sys2Proof.Machine.execLi64 o s
  | .liX x o => Sys2Proof.Machine.execLiX x o s
  | .li64X x o => Sys2Proof.Machine.execLi64X x o s
  | .lea o => Sys2Proof.Machine.execLea o s
  | .fadd32 o => Sys2Proof.Machine.execFadd32 o s
  | .fsub32 o => Sys2Proof.Machine.execFsub32 o s
  | .fmul32 o => Sys2Proof.Machine.execFmul32 o s
  | .ffma32 o => Sys2Proof.Machine.execFfma32 o s
  | .fadd64 o => Sys2Proof.Machine.execFadd64 o s
  | .fsub64 o => Sys2Proof.Machine.execFsub64 o s
  | .fmul64 o => Sys2Proof.Machine.execFmul64 o s
  | .ffma64 o => Sys2Proof.Machine.execFfma64 o s
  | .hadd2 o => Sys2Proof.Machine.execHadd2 o s
  | .hmul2 o => Sys2Proof.Machine.execHmul2 o s
  | .hfma2 o => Sys2Proof.Machine.execHfma2 o s
  | .badd2 o => Sys2Proof.Machine.execBadd2 o s
  | .bmul2 o => Sys2Proof.Machine.execBmul2 o s
  | .bfma2 o => Sys2Proof.Machine.execBfma2 o s
  | .feq o => Sys2Proof.Machine.execFeq o s
  | .flt o => Sys2Proof.Machine.execFlt o s
  | .fle o => Sys2Proof.Machine.execFle o s
  | .funord o => Sys2Proof.Machine.execFunord o s
  | .fmin o => Sys2Proof.Machine.execFmin o s
  | .fmax o => Sys2Proof.Machine.execFmax o s
  | .fclass o => Sys2Proof.Machine.execFclass o s
  | .fsgnj o => Sys2Proof.Machine.execFsgnj o s
  | .feq64 o => Sys2Proof.Machine.execFeq64 o s
  | .flt64 o => Sys2Proof.Machine.execFlt64 o s
  | .fle64 o => Sys2Proof.Machine.execFle64 o s
  | .funord64 o => Sys2Proof.Machine.execFunord64 o s
  | .fmin64 o => Sys2Proof.Machine.execFmin64 o s
  | .fmax64 o => Sys2Proof.Machine.execFmax64 o s
  | .fclass64 o => Sys2Proof.Machine.execFclass64 o s
  | .fsgnj64 o => Sys2Proof.Machine.execFsgnj64 o s
  | .hmin2 o => Sys2Proof.Machine.execHmin2 o s
  | .hmax2 o => Sys2Proof.Machine.execHmax2 o s
  | .heq2 o => Sys2Proof.Machine.execHeq2 o s
  | .hlt2 o => Sys2Proof.Machine.execHlt2 o s
  | .bmin2 o => Sys2Proof.Machine.execBmin2 o s
  | .bmax2 o => Sys2Proof.Machine.execBmax2 o s
  | .beq2 o => Sys2Proof.Machine.execBeq2 o s
  | .blt2 o => Sys2Proof.Machine.execBlt2 o s
  | .cvtF32F64 o => Sys2Proof.Machine.execCvtF32F64 o s
  | .cvtF64F32 o => Sys2Proof.Machine.execCvtF64F32 o s
  | .cvtF16F32 o => Sys2Proof.Machine.execCvtF16F32 o s
  | .cvtF32F16 o => Sys2Proof.Machine.execCvtF32F16 o s
  | .cvtBf16F32 o => Sys2Proof.Machine.execCvtBf16F32 o s
  | .cvtF32Bf16 o => Sys2Proof.Machine.execCvtF32Bf16 o s
  | .cvtE4m3F32 o => Sys2Proof.Machine.execCvtE4m3F32 o s
  | .cvtF32E4m3 o => Sys2Proof.Machine.execCvtF32E4m3 o s
  | .cvtE5m2F32 o => Sys2Proof.Machine.execCvtE5m2F32 o s
  | .cvtF32E5m2 o => Sys2Proof.Machine.execCvtF32E5m2 o s
  | .cvtF6aF32 o => Sys2Proof.Machine.execCvtF6aF32 o s
  | .cvtF32F6a o => Sys2Proof.Machine.execCvtF32F6a o s
  | .cvtF6bF32 o => Sys2Proof.Machine.execCvtF6bF32 o s
  | .cvtF32F6b o => Sys2Proof.Machine.execCvtF32F6b o s
  | .cvtE8m10F32 o => Sys2Proof.Machine.execCvtE8m10F32 o s
  | .cvtF16x2F32 o => Sys2Proof.Machine.execCvtF16x2F32 o s
  | .cvtF32F16x2 o => Sys2Proof.Machine.execCvtF32F16x2 o s
  | .cvtBf16x2F32 o => Sys2Proof.Machine.execCvtBf16x2F32 o s
  | .cvtF32Bf16x2 o => Sys2Proof.Machine.execCvtF32Bf16x2 o s
  | .cvtE4m3x2F32 o => Sys2Proof.Machine.execCvtE4m3x2F32 o s
  | .cvtE5m2x2F32 o => Sys2Proof.Machine.execCvtE5m2x2F32 o s
  | .cvtI32F32 o => Sys2Proof.Machine.execCvtI32F32 o s
  | .cvtUi32F32 o => Sys2Proof.Machine.execCvtUi32F32 o s
  | .cvtI64F32 o => Sys2Proof.Machine.execCvtI64F32 o s
  | .cvtUi64F32 o => Sys2Proof.Machine.execCvtUi64F32 o s
  | .cvtI32F64 o => Sys2Proof.Machine.execCvtI32F64 o s
  | .cvtUi32F64 o => Sys2Proof.Machine.execCvtUi32F64 o s
  | .cvtI64F64 o => Sys2Proof.Machine.execCvtI64F64 o s
  | .cvtUi64F64 o => Sys2Proof.Machine.execCvtUi64F64 o s
  | .cvtF32I32 o => Sys2Proof.Machine.execCvtF32I32 o s
  | .cvtF32Ui32 o => Sys2Proof.Machine.execCvtF32Ui32 o s
  | .cvtF32I64 o => Sys2Proof.Machine.execCvtF32I64 o s
  | .cvtF32Ui64 o => Sys2Proof.Machine.execCvtF32Ui64 o s
  | .cvtF64I32 o => Sys2Proof.Machine.execCvtF64I32 o s
  | .cvtF64Ui32 o => Sys2Proof.Machine.execCvtF64Ui32 o s
  | .cvtF64I64 o => Sys2Proof.Machine.execCvtF64I64 o s
  | .cvtF64Ui64 o => Sys2Proof.Machine.execCvtF64Ui64 o s
  | .cvtI8F32 o => Sys2Proof.Machine.execCvtI8F32 o s
  | .cvtF32I8 o => Sys2Proof.Machine.execCvtF32I8 o s
  | .rcp o => Sys2Proof.Machine.execRcp o s
  | .rsq o => Sys2Proof.Machine.execRsq o s
  | .sqrt o => Sys2Proof.Machine.execSqrt o s
  | .ex2 o => Sys2Proof.Machine.execEx2 o s
  | .lg2 o => Sys2Proof.Machine.execLg2 o s
  | .sin o => Sys2Proof.Machine.execSin o s
  | .cos o => Sys2Proof.Machine.execCos o s
  | .tanh o => Sys2Proof.Machine.execTanh o s
  | .actNear o => Sys2Proof.Machine.execActNear o s
  | .actLin o => Sys2Proof.Machine.execActLin o s
  | .rand o => Sys2Proof.Machine.execRand o s
  | .randu o => Sys2Proof.Machine.execRandu o s
  | .randn o => Sys2Proof.Machine.execRandn o s
  | .rskip o => Sys2Proof.Machine.execRskip o s
  | .rsel o => Sys2Proof.Machine.execRsel o s
  | .epreset => Sys2Proof.Machine.execEpreset s
  | .epstep => Sys2Proof.Machine.execEpstep s
  | .rpeek o => Sys2Proof.Machine.execRpeek o s
  | .ld o => Sys2Proof.Machine.execLd o s
  | .st o => Sys2Proof.Machine.execSt o s
  | .ldX x o => Sys2Proof.Machine.execLdX x o s
  | .stX x o => Sys2Proof.Machine.execStX x o s
  | .ldf o => Sys2Proof.Machine.execLdf o s
  | .stf o => Sys2Proof.Machine.execStf o s
  | .ldfX x o => Sys2Proof.Machine.execLdfX x o s
  | .stfX x o => Sys2Proof.Machine.execStfX x o s
  | .atomAdd o => Sys2Proof.Machine.execAtomAdd o s
  | .atomMin o => Sys2Proof.Machine.execAtomMin o s
  | .atomMax o => Sys2Proof.Machine.execAtomMax o s
  | .atomAnd o => Sys2Proof.Machine.execAtomAnd o s
  | .atomOr o => Sys2Proof.Machine.execAtomOr o s
  | .atomXor o => Sys2Proof.Machine.execAtomXor o s
  | .atomXchg o => Sys2Proof.Machine.execAtomXchg o s
  | .atomCas o => Sys2Proof.Machine.execAtomCas o s
  | .atomAdd64 o => Sys2Proof.Machine.execAtomAdd64 o s
  | .atomCas64 o => Sys2Proof.Machine.execAtomCas64 o s
  | .atomXchg64 o => Sys2Proof.Machine.execAtomXchg64 o s
  | .atomFadd32 o => Sys2Proof.Machine.execAtomFadd32 o s
  | .atomFadd64 o => Sys2Proof.Machine.execAtomFadd64 o s
  | .atomBfadd2 o => Sys2Proof.Machine.execAtomBfadd2 o s
  | .atomFmin32 o => Sys2Proof.Machine.execAtomFmin32 o s
  | .atomFmax32 o => Sys2Proof.Machine.execAtomFmax32 o s
  | .lda32 o => Sys2Proof.Machine.execLda32 o s
  | .lda64 o => Sys2Proof.Machine.execLda64 o s
  | .sta32 o => Sys2Proof.Machine.execSta32 o s
  | .sta64 o => Sys2Proof.Machine.execSta64 o s
  | .affset o => Sys2Proof.Machine.execAffset o s
  | .affcnt o => Sys2Proof.Machine.execAffcnt o s
  | .a2gLoc o => Sys2Proof.Machine.execA2gLoc o s
  | .a2gPad o => Sys2Proof.Machine.execA2gPad o s
  | .a2gCel o => Sys2Proof.Machine.execA2gCel o s
  | .g2aLoc o => Sys2Proof.Machine.execG2aLoc o s
  | .g2aPad o => Sys2Proof.Machine.execG2aPad o s
  | .g2aCel o => Sys2Proof.Machine.execG2aCel o s
  | .inspace o => Sys2Proof.Machine.execInspace o s
  | .spaceof o => Sys2Proof.Machine.execSpaceof o s
  | .oprdy => Sys2Proof.Machine.execOprdy s
  | .drain => Sys2Proof.Machine.execDrain s
  | .fenceDom => Sys2Proof.Machine.execFenceDom s
  | .fenceSys => Sys2Proof.Machine.execFenceSys s
  | .barTeam => Sys2Proof.Machine.execBarTeam s
  | .barCrew => Sys2Proof.Machine.execBarCrew s
  | .barCell => Sys2Proof.Machine.execBarCell s
  | .barStack => Sys2Proof.Machine.execBarStack s
  | .barDom => Sys2Proof.Machine.execBarDom s
  | .arrive o => Sys2Proof.Machine.execArrive o s
  | .waitb o => Sys2Proof.Machine.execWaitb o s
  | .shfl o => Sys2Proof.Machine.execShfl o s
  | .shflup o => Sys2Proof.Machine.execShflup o s
  | .shfldn o => Sys2Proof.Machine.execShfldn o s
  | .shflx o => Sys2Proof.Machine.execShflx o s
  | .anyLane o => Sys2Proof.Machine.execAnyLane o s
  | .allLanes o => Sys2Proof.Machine.execAllLanes o s
  | .ballot o => Sys2Proof.Machine.execBallot o s
  | .matchLanes o => Sys2Proof.Machine.execMatchLanes o s
  | .redadd o => Sys2Proof.Machine.execRedadd o s
  | .redmin o => Sys2Proof.Machine.execRedmin o s
  | .redmax o => Sys2Proof.Machine.execRedmax o s
  | .redfadd o => Sys2Proof.Machine.execRedfadd o s
  | .scani o => Sys2Proof.Machine.execScani o s
  | .scane o => Sys2Proof.Machine.execScane o s
  | .segi o => Sys2Proof.Machine.execSegi o s
  | .sege o => Sys2Proof.Machine.execSege o s
  | .beqz o => Sys2Proof.Machine.execBeqz o s
  | .bnez o => Sys2Proof.Machine.execBnez o s
  | .bltz o => Sys2Proof.Machine.execBltz o s
  | .bgez o => Sys2Proof.Machine.execBgez o s
  | .blez o => Sys2Proof.Machine.execBlez o s
  | .bgtz o => Sys2Proof.Machine.execBgtz o s
  | .bra o => Sys2Proof.Machine.execBra o s
  | .bru o => Sys2Proof.Machine.execBru o s
  | .beqzX x o => Sys2Proof.Machine.execBeqzX x o s
  | .bnezX x o => Sys2Proof.Machine.execBnezX x o s
  | .bltzX x o => Sys2Proof.Machine.execBltzX x o s
  | .bgezX x o => Sys2Proof.Machine.execBgezX x o s
  | .blezX x o => Sys2Proof.Machine.execBlezX x o s
  | .bgtzX x o => Sys2Proof.Machine.execBgtzX x o s
  | .braX x o => Sys2Proof.Machine.execBraX x o s
  | .bruX x o => Sys2Proof.Machine.execBruX x o s
  | .jmp o => Sys2Proof.Machine.execJmp o s
  | .call o => Sys2Proof.Machine.execCall o s
  | .jmpX x o => Sys2Proof.Machine.execJmpX x o s
  | .callX x o => Sys2Proof.Machine.execCallX x o s
  | .jr o => Sys2Proof.Machine.execJr o s
  | .jalr o => Sys2Proof.Machine.execJalr o s
  | .ret => Sys2Proof.Machine.execRet s
  | .loop o => Sys2Proof.Machine.execLoop o s
  | .spawn o => Sys2Proof.Machine.execSpawn o s
  | .exitThread => Sys2Proof.Machine.execExitThread s
  | .regroup o => Sys2Proof.Machine.execRegroup o s
  | .yield => Sys2Proof.Machine.execYield s
  | .elect o => Sys2Proof.Machine.execElect o s
  | .win o => Sys2Proof.Machine.execWin o s
  | .dqput o => Sys2Proof.Machine.execDqput o s
  | .dqget o => Sys2Proof.Machine.execDqget o s
  | .tasknew o => Sys2Proof.Machine.execTasknew o s
  | .trigger => Sys2Proof.Machine.execTrigger s
  | .waitdep => Sys2Proof.Machine.execWaitdep s
  | .iter o => Sys2Proof.Machine.execIter o s
  | .fixup o => Sys2Proof.Machine.execFixup o s
  | .stqput o => Sys2Proof.Machine.execStqput o s
  | .stqget o => Sys2Proof.Machine.execStqget o s
  | .stqtry o => Sys2Proof.Machine.execStqtry o s
  | .mfsr o => Sys2Proof.Machine.execMfsr o s
  | .mtsr o => Sys2Proof.Machine.execMtsr o s
  | .trap o => Sys2Proof.Machine.execTrap o s
  | .eret => Sys2Proof.Machine.execEret s
  | .savefe o => Sys2Proof.Machine.execSavefe o s
  | .loadfe o => Sys2Proof.Machine.execLoadfe o s
  | .bkpt => Sys2Proof.Machine.execBkpt s
  | .brk => Sys2Proof.Machine.execBrk s
  | .probe o => Sys2Proof.Machine.execProbe o s
  | .halt => Sys2Proof.Machine.execHalt s
  | .cpTld o => Sys2Proof.Machine.execCpTld o s
  | .cpTst o => Sys2Proof.Machine.execCpTst o s
  | .cpGth o => Sys2Proof.Machine.execCpGth o s
  | .cpSct o => Sys2Proof.Machine.execCpSct o s
  | .cpLin o => Sys2Proof.Machine.execCpLin o s
  | .cpFill o => Sys2Proof.Machine.execCpFill o s
  | .cpMcst o => Sys2Proof.Machine.execCpMcst o s
  | .mmE4m3 o => Sys2Proof.Machine.execMmE4m3 o s
  | .mmE5m2 o => Sys2Proof.Machine.execMmE5m2 o s
  | .mmF6a o => Sys2Proof.Machine.execMmF6a o s
  | .mmF6b o => Sys2Proof.Machine.execMmF6b o s
  | .mmBf16 o => Sys2Proof.Machine.execMmBf16 o s
  | .mmFp16 o => Sys2Proof.Machine.execMmFp16 o s
  | .mmI8 o => Sys2Proof.Machine.execMmI8 o s
  | .mmE8m10 o => Sys2Proof.Machine.execMmE8m10 o s
  | .mmsE4m3 o => Sys2Proof.Machine.execMmsE4m3 o s
  | .mmsE5m2 o => Sys2Proof.Machine.execMmsE5m2 o s
  | .mmsF6a o => Sys2Proof.Machine.execMmsF6a o s
  | .mmsF6b o => Sys2Proof.Machine.execMmsF6b o s
  | .mmsBf16 o => Sys2Proof.Machine.execMmsBf16 o s
  | .mmsFp16 o => Sys2Proof.Machine.execMmsFp16 o s
  | .mmsI8 o => Sys2Proof.Machine.execMmsI8 o s
  | .mmsE8m10 o => Sys2Proof.Machine.execMmsE8m10 o s
  | .qmE4m3B0 o => Sys2Proof.Machine.execQmE4m3B0 o s
  | .qmE4m3B1 o => Sys2Proof.Machine.execQmE4m3B1 o s
  | .qmE4m3B2 o => Sys2Proof.Machine.execQmE4m3B2 o s
  | .qmE4m3B3 o => Sys2Proof.Machine.execQmE4m3B3 o s
  | .qmE5m2B0 o => Sys2Proof.Machine.execQmE5m2B0 o s
  | .qmE5m2B1 o => Sys2Proof.Machine.execQmE5m2B1 o s
  | .qmE5m2B2 o => Sys2Proof.Machine.execQmE5m2B2 o s
  | .qmE5m2B3 o => Sys2Proof.Machine.execQmE5m2B3 o s
  | .qmF6aB0 o => Sys2Proof.Machine.execQmF6aB0 o s
  | .qmF6aB1 o => Sys2Proof.Machine.execQmF6aB1 o s
  | .qmF6aB2 o => Sys2Proof.Machine.execQmF6aB2 o s
  | .qmF6aB3 o => Sys2Proof.Machine.execQmF6aB3 o s
  | .qmF6bB0 o => Sys2Proof.Machine.execQmF6bB0 o s
  | .qmF6bB1 o => Sys2Proof.Machine.execQmF6bB1 o s
  | .qmF6bB2 o => Sys2Proof.Machine.execQmF6bB2 o s
  | .qmF6bB3 o => Sys2Proof.Machine.execQmF6bB3 o s
  | .qmBf16 o => Sys2Proof.Machine.execQmBf16 o s
  | .qmFp16 o => Sys2Proof.Machine.execQmFp16 o s
  | .qmI8 o => Sys2Proof.Machine.execQmI8 o s
  | .qmE8m10 o => Sys2Proof.Machine.execQmE8m10 o s
  | .drnF32 o => Sys2Proof.Machine.execDrnF32 o s
  | .drnBf16 o => Sys2Proof.Machine.execDrnBf16 o s
  | .drnFp16 o => Sys2Proof.Machine.execDrnFp16 o s
  | .drnE4m3 o => Sys2Proof.Machine.execDrnE4m3 o s
  | .mzero o => Sys2Proof.Machine.execMzero o s
  | .mstat o => Sys2Proof.Machine.execMstat o s
  | .pvE4m3 o => Sys2Proof.Machine.execPvE4m3 o s
  | .pvBf16 o => Sys2Proof.Machine.execPvBf16 o s
  | .pvI8 o => Sys2Proof.Machine.execPvI8 o s
  | .pvMask o => Sys2Proof.Machine.execPvMask o s
  | .pvPred o => Sys2Proof.Machine.execPvPred o s
  | .tbLoad o => Sys2Proof.Machine.execTbLoad o s
  | .tbSwap o => Sys2Proof.Machine.execTbSwap o s
  | .hgBind o => Sys2Proof.Machine.execHgBind o s
  | .hgRead o => Sys2Proof.Machine.execHgRead o s
  | .hgClr o => Sys2Proof.Machine.execHgClr o s
  | .fxPut o => Sys2Proof.Machine.execFxPut o s
  | .fxGet o => Sys2Proof.Machine.execFxGet o s
  | .fxAredF32 o => Sys2Proof.Machine.execFxAredF32 o s
  | .fxAredBf16 o => Sys2Proof.Machine.execFxAredBf16 o s
  | .fxBcast o => Sys2Proof.Machine.execFxBcast o s
  | .fxSig o => Sys2Proof.Machine.execFxSig o s
  | .neBind o => Sys2Proof.Machine.execNeBind o s
  | .neEval o => Sys2Proof.Machine.execNeEval o s
  | .neEvalg o => Sys2Proof.Machine.execNeEvalg o s
  | .neBwd o => Sys2Proof.Machine.execNeBwd o s
  | .neFlush o => Sys2Proof.Machine.execNeFlush o s
  | .neUnbind o => Sys2Proof.Machine.execNeUnbind o s
  | .tdBind o => Sys2Proof.Machine.execTdBind o s
  | .tdDesc o => Sys2Proof.Machine.execTdDesc o s
  | .tdBwd o => Sys2Proof.Machine.execTdBwd o s
  | .tdPath o => Sys2Proof.Machine.execTdPath o s
  | .grSort32 o => Sys2Proof.Machine.execGrSort32 o s
  | .grSort64 o => Sys2Proof.Machine.execGrSort64 o s
  | .grMorton o => Sys2Proof.Machine.execGrMorton o s
  | .grSap o => Sys2Proof.Machine.execGrSap o s
  | .cvQbox o => Sys2Proof.Machine.execCvQbox o s
  | .cvQray o => Sys2Proof.Machine.execCvQray o s
  | .psLu32 o => Sys2Proof.Machine.execPsLu32 o s
  | .psLu64 o => Sys2Proof.Machine.execPsLu64 o s
  | .psChol32 o => Sys2Proof.Machine.execPsChol32 o s
  | .psChol64 o => Sys2Proof.Machine.execPsChol64 o s
  | .psSolve o => Sys2Proof.Machine.execPsSolve o s
  | .psBwd o => Sys2Proof.Machine.execPsBwd o s
  | .psPgs o => Sys2Proof.Machine.execPsPgs o s

end Sys2Proof.Machine
end

