-- ==== Sys2Proof/Machine/Cycle.lean ====
section
/-! DEFINITION. What the device does next: it executes a filled issue slot (R140, R195), takes an input, or lets one of its units
act. The spec gives no order to the actions of different units: which one acts is free. -/

namespace Sys2Proof.Machine
open Sys2Proof

/-! ### An issue slot -/

/-- The lanes of the run fetch, and execute the instruction that they read (R26, R43, R44). -/
noncomputable def State.runSlot (s : State) : Result :=
  let core := s.issue.core
  match s.run with
  | [] => .next s
  | v :: r =>
    if (v :: r).any fun x => s.fetchVerdict core x.th != .ok then exec .fetchTrap s
    else
      match s.fetch core v.th with
      | .error _ => exec .fetchTrap s
      | .ok raw =>
        let d := match raw.x with
          | none => decodeWord raw.word
          | some x => decodeX x raw.word
        match d with
        | .ok i => exec i { s with issue := { s.issue with raw } }
        | .error e => exec (.wordNotInstruction e.sub raw) s

/-! ### What the units could do

Each list holds the steps that a unit could take; a step that is not enabled changes nothing and is passed over. -/

/-- Steps of the threads of a core: results that land. -/
def Core.landings (c : Core) : List Instr :=
  match c.crew with
  | none => []
  | some k => k.all.flatMap fun t => (List.range t.pending.length).map (.resultLands ⟨c.id, t.ident.tid⟩)

/-- Steps of a core's collector and of the homes of its line groups. -/
def Core.groupSteps (c : Core) : List Instr :=
  (List.range c.coll.length).flatMap fun i =>
    [.lineGroupReply c.id i, .lineGroupAtHome c.id i, .negativeAcknowledgement c.id i, .nackRetry c.id i, .lineGroupSend c.id i]

/-- Steps of the engines of a core. -/
def State.engineSteps (s : State) (c : Core) : List Instr :=
  ((coreQueues c.id).flatMap fun r => (s.queueOf r).zipIdx.flatMap fun (x, i) =>
    [.commandCompletion r i, .engineTranslationFault r i false] ++ x.lines.map (.lineDelivery r i)) ++
  (List.range 4).flatMap (fun k => (.tileDelivery c.id k) ::
    ((List.range (c.sectAt k).mq.length).map fun n => .qmFusedPass c.id k (n + 1))) ++
  (List.range c.tiles.length).map (.tileLaunch c.id) ++ [.backwardSettle c.id, .tableExchange c.id]

/-- Steps of a core's sections: gangs that form, the starvation timer, deferrals, the governor and the gates. -/
def Core.sectionSteps (c : Core) : List Instr :=
  match c.crew with
  | none => []
  | some k => (List.range k.bins.length).map (.gangFormation c.id) ++ (List.range 4).map (.forcedRun c.id) ++
      k.gangs.map (fun (g : Gang) => .yieldDeferralEnd c.id g.sect g.slot) ++ [.governorWindow c.id]

/-- Steps of the power gates of a core (R268). -/
def Core.gateSteps (c : Core) : List Instr :=
  (List.range 4).flatMap fun k => (List.range 4).map (.subarrayGate c.id k)

/-- Steps of the command processor of a tenancy. -/
def Tenancy.steps (t : Tenancy) : List Instr :=
  (List.range t.zqs.length).flatMap (fun q => [.doneEvt t.id q, .zcpCommandStart t.id q]) ++
  [.serviceForward t.id, .journalMirrorWrite t.id] ++ (List.range t.service.length).map (.serviceResend t.id)

/-- Steps of the cell schedulers and of the co-start of tasks. -/
def State.taskSteps (s : State) : List Instr :=
  if s.tasks.isEmpty then []
  else s.tasks.flatMap (fun (t : Task) => [.costartAnnounce t.ten t.id s.dev, .costart t.ten t.id]) ++
    (List.range Config.cells).map .crewDispatch

/-- Steps of work donation. -/
def State.stealSteps (s : State) : List Instr :=
  (List.range Config.cells).flatMap fun i =>
    let c := s.cellAt i
    [.stealAnswer i, .stealRoundWait i] ++ (if s.tasks.isEmpty then [] else ((s.victims i)[c.asked]?.map (.stealRequest i)).toList)

/-- Steps of the power controller of a die (R218). -/
def State.powerSteps (s : State) (die : Nat) : List Instr :=
  let d := s.dieAt die
  .throttleLift die :: (d.waiting ++ d.settling).map (.tokenGrant die)

/-- Steps of the homes, the meshes, the lanterns, the bridge and the walkers. -/
def State.wireSteps (s : State) : List Instr :=
  (List.range s.walks.length).map .walkComplete ++ (List.range s.bridge.length).map .bridgeTransfer ++
  (List.range s.msgs.length).map .meshHop ++ s.routers.map (fun (r : Router) => .routerWake r.id) ++
  s.slices.flatMap (fun (x : Slice) => (List.range x.bypass.length).map (.bypassEntryFree x.id)) ++
  [0, 1].flatMap s.powerSteps ++ (List.range Config.cells).map .lanternPass

/-- The issue cycles to come, each with its time and its place among those of one time: sections 0 to 3 of a core with a crew, and 4 for
its front end. (DEDUCED, log entry 74.) -/
def State.issueTimes (s : State) : List (Nat × Nat × Instr) :=
  s.cores.flatMap fun (c : Core) =>
    if c.crew.isSome then
      c.sects.zipIdx.map (fun (x, k) => (x.time, 5 * c.id + k, Instr.sectionIssue c.id k)) ++
        [(c.sfeTime, 5 * c.id + 4, .sectionIssue c.id 4)]
    else []

/-- The issue cycle that comes first: the clocks of the cores run in step, and at one time the cores come in ascending order, the sections
of a core too, and its front end last (R18, R288, R321). (DEDUCED, log entry 74.) -/
def State.issueSteps (s : State) : List Instr :=
  match sortBy (fun (a b : Nat × Nat × Instr) => decide (a.1 < b.1 ∨ a.1 = b.1 ∧ a.2.1 ≤ b.2.1)) s.issueTimes with
  | [] => []
  | x :: _ => [x.2.2]

/-- Every step that a unit could take now. `none` is the passing of one control cycle while no core has a crew. (DESIGN CHOICE, log entry 7.) -/
def State.unitSteps (s : State) : List (Option Instr) :=
  let late : List Instr := s.stealSteps ++ s.cores.flatMap Core.gateSteps ++
    (List.range Config.cells).map .routerPowerDown ++ [.ptsAdvance]
  (s.cores.flatMap Core.landings ++ s.cores.flatMap Core.groupSteps ++ s.wireSteps ++ s.cores.flatMap s.engineSteps ++
    s.tens.flatMap Tenancy.steps ++ s.taskSteps ++ s.cores.flatMap Core.sectionSteps ++ s.issueSteps).map some ++ [none] ++ late.map some

/-- One control cycle passes. -/
def State.tickOne (s : State) : State := { s with now := s.now + unitsPerControl }

/-- A step of a unit. -/
def State.unitStep (s : State) (x : Option Instr) : Result :=
  match x with
  | some i => exec i s
  | none => .next (if s.issueTimes.isEmpty then s.tickOne else s)

/-- Whether a step changes the device. -/
def State.moves (s : State) (x : Option Instr) : Bool :=
  match s.unitStep x with
  | .next t => t != s
  | .fault _ => true
  | .refused _ => true

/-- Whether the program timestamps must rise now, so that no 64 control cycles pass without a rise (R204): the next issue cycle may
be 3 control cycles away. (DEDUCED, log entry 74.) -/
def State.ptsDue (s : State) : Bool := decide (s.ptsAt + 61 ≤ s.control)

/-- A tile of a core whose launch is due and for which its queue has room (R299). -/
def State.tileDue (s : State) : Option Instr :=
  s.cores.findSome? fun c => (c.tiles.findIdx? fun t =>
    t.due c.cycle && decide ((c.sectAt t.sect).mq.length - drawnPass (c.sectAt t.sect).mq < 8)).map (.tileLaunch c.id)

/-- A unit acts. What is due comes first: timestamps, the slots of the fabric's ports, lanterns and tiles. Which of the other enabled steps is taken is
free. (DESIGN CHOICE, log entry 7.) -/
def State.auto (s : State) : Result :=
  if s.ptsDue then exec .ptsAdvance s
  else if s.pumpDue then .next s.pump
  else match s.lanternDue.orElse fun _ => s.tileDue with
  | some i => exec i s
  | none =>
    let l := s.unitSteps
    let k := (Config.freeWord [31, s.free]).toNat % l.length
    match (l.drop k ++ l.take k).find? s.moves with
    | some x => s.unitStep x
    | none => .next s

/-! ### Inputs -/

/-- Whether a constructor is a step that an input names: no instruction word, and no outcome of a fetch. -/
noncomputable def isInput (i : Instr) : Bool :=
  match i with
  | .wordNotInstruction _ _ => false
  | .fetchTrap => false
  | i => (rawOf i).isNone

/-- What reaches a device whose clocks stand (R388, R389, R414, R416, R417): resets and the loss of power. (DEDUCED, log entry 64.) -/
def wakesStopped : Instr → Bool
  | .coldReset | .warmReset | .alwaysOnPowerLoss | .lossOfPower => true
  | _ => false

/-- Whether every clock of the dies stands. -/
def State.clocksStand (s : State) : Bool := s.aon.frozen || !s.aon.power

/-- A count of the always-on reference of a frozen device (R388). -/
def State.aonTick (s : State) : State :=
  if s.aon.power then { s with aon := { s.aon with time := s.aon.time + 1 } } else s

/-- A step of a device whose clocks stand: inputs but resets and power events are lost. A frozen device stays so, and its always-on reference
counts. (DEDUCED, log entry 64.) -/
def State.stoppedStep (s : State) : Result :=
  match s.sched with
  | [] => if s.aon.power then .next s.aonTick else .fault .clocksStopped
  | x :: r => if wakesStopped x.2 then exec x.2 { s.aonTick with sched := r } else .next { s.aonTick with sched := r }

/-! ### Storage errors (R369) -/

/-- The record of an error in a storage word (R388): UNIT is the core, the slice or the cell that holds it, and the address the physical one,
or the offset in that unit's storage. (DESIGN CHOICE, log entry 97.) -/
def State.sumpStorage (s : State) (l : Loc) (bad : Bool) : State :=
  let (die, ten, unit, a) : Nat × Nat × Nat × Nat := match l with
    | .mem a => (l.die, 0xFF, (l.slice).getD 0xFFFF, a)
    | .cel c o => (c / 80, 0xFF, c, o)
    | .pad c o | .state c _ o => (dieOfCore c, (s.coreAt c).ten, c, o)
    | .remote _ a => (0, 0xFF, 0xFFFF, a.toNat)
  s.sump 2 die ten unit 5 (BitVec.ofNat 64 a) (if bad then 1#64 else 0#64)

/-- An uncorrectable error arises in a word of storage, or in a register: which and when the spec leaves to the part, and the list
`upsets` says. Each leaves a record of kind 2, as one does that the part corrects. (DESIGN CHOICE, log entry 97.) -/
def State.upset (s : State) (u : Upset) : State :=
  match u with
  | .word l => { s with errs := s.errs ++ [l.base.plus (l.inLine / 4 * 4)] }.sumpStorage l true
  | .corrected l => s.sumpStorage l false
  | .reg core tid n =>
    (s.sump 2 (dieOfCore core) (s.coreAt core).ten core 5 (BitVec.ofNat 64 n) 1#64).onThread core tid fun v =>
      let d := feDst v.th (n / 32) (n % 32)
      v.put d { v.get d with mark := .storage }

/-- The errors whose time has come arise. -/
def State.upsetsDue (s : State) : State :=
  let l := s.upsets.filter fun x => decide (x.1 ≤ s.control)
  l.foldl (fun s x => s.upset x.2) { s with upsets := s.upsets.filter fun x => !decide (x.1 ≤ s.control) }

/-- One step: an issue slot, an input that has arrived, or an action of a unit. -/
noncomputable def State.cycle (s : State) : Result :=
  if s.clocksStand then s.stoppedStep
  else
    let s := { s with free := s.free + 1 }.upsetsDue
    match s.slots with
    | i :: r => State.runSlot { s with slots := r, issue := i }
    | [] =>
      match s.sched with
      | [] => s.auto
      | x :: r =>
        if x.1 ≤ s.control then (if isInput x.2 then exec x.2 { s with sched := r } else .next { s with sched := r })
        else s.auto

end Sys2Proof.Machine
end

