-- ==== Sys2Proof/Machine/Step.lean ====
section
/-! DEFINITION. One step of the machine, and the state in which a given instruction is the next that a step runs. -/

namespace Sys2Proof.Machine
open Sys2Proof

/-- One step. -/
noncomputable def step (s : State) : Host.Outcome State Fault Refusal := s.cycle

/-! ### A word placed for the next step

No instruction runs from reset until the host has launched a task (notes/assumptions/40.md). The state below stands for such a
launch: a crew of one lane thread on core 0 with its PC at virtual address 0, page tables that map the page at 0, its translation in
the core's L1 TLB, and an issue slot that holds the thread. -/

/-- Physical addresses of the four tables of a probe and of its page. (DESIGN CHOICE, log entry 40.) -/
def probeTable (lvl : Nat) : Nat := 4096 * (5 - lvl)
def probePage : Nat := 65536

/-- The task of a probe: one crew of one lane thread with 64 registers, whose lane entry is 0. -/
def probeTask : Task :=
  let tcb := { Tcb.of 0 with crews := 1#32, nthr := 1#32, allot := 64#16, pad128 := 8192#16 }
  { id := 1, ten := 0, tcb, order := 0, entered := true, stage := none, zcp := none, allots := [], homes := [], started := [0], ended := [],
    trig := [], fix := [], probes := List.replicate 16 0#64, gens := [], bypass := [], announced := [], go := true }

/-- The crew of a probe, with its tables. -/
def probeCrew (ten : Tenancy) (cycle : Nat) : Crew :=
  let c := probeTask.crewAt ten 0 cycle
  { c with threads := c.threads.map fun t => { t with ptbase := BitVec.ofNat 64 (probeTable 4) } }

/-- The bits of a table entry that names the next table, and of the leaf: valid, with rights R, W, X and U. -/
def probeNext (table : Nat) : Nat := table + 1
def probeLeaf : Nat := probePage + 0x3F

/-- `s` with the instruction whose bits are `w` where the next step fetches. (DESIGN CHOICE, log entry 40.) -/
def State.withFetchWord (s : State) (nbits w : Nat) : State :=
  let v := w % 2 ^ (if nbits ≤ 64 then nbits else 64)
  let s := { s with aon := { s.aon with frozen := false, power := true }, tasks := probeTask :: s.tasks.filter fun t => !(t.ten == 0 && t.id == 1) }
  let s := s.wr (.mem (probeTable 4)) 8 (probeNext (probeTable 3))
  let s := s.wr (.mem (probeTable 3)) 8 (probeNext (probeTable 2))
  let s := s.wr (.mem (probeTable 2)) 8 (probeNext (probeTable 1))
  let s := s.wr (.mem (probeTable 1)) 8 probeLeaf
  let s := s.wr (.mem probePage) 8 v
  let s := s.onCore 0 fun c =>
    let c := (c.startCrew (probeCrew (s.tenAt 0) c.cycle)).startIssue s.now
    { c with tlb := [{ root := BitVec.ofNat 64 (probeTable 4), page := 0, pte := BitVec.ofNat 64 probeLeaf, lvl := 1 }] }
  { s with slots := [{ core := 0, sfe := false, sect := 0, slot := 0, mask := 1#32, raw := ⟨0#32, none⟩ }] }

end Sys2Proof.Machine
end

