-- ==== Sys2Proof/Safety.lean ====
section
/-! DEFINITION. What counts as a safe run, and the terms in which statements speak of an instruction that the lanes of a run
execute. -/

namespace Sys2Proof

/-- A step that does not stop: it answers a next state. -/
def Goes (s : Machine.State) : Prop := ∃ t, Machine.step s = .next t

/-- The clocks of the device run: it is neither frozen nor without power (R389, R416). -/
def Clocked (s : Machine.State) : Prop := s.aon.frozen = false ∧ s.aon.power = true

namespace Machine

/-- The state in which a step of a device acts whose clocks run: what was free is new, and the storage errors whose time has come have
arisen (R369). -/
def State.turned (s : State) : State := { s with free := s.free + 1 }.upsetsDue

/-! ### The lanes of a run at an instruction -/

/-- The %tids of the run that issues, in ascending lane order. -/
def State.tids (s : State) : List W32 := s.run.map fun v => v.th.ident.tid

/-- There is a run, and no check or wait that `verdict` stands for holds one of its lanes. -/
def State.passes (s : State) (verdict : View → Verdict) : Prop := s.run ≠ [] ∧ ∀ v ∈ s.run, verdict v = .ok

/-- Every lane of the run may execute an instruction with operands `o` whose card's own checks are `chk`. -/
def State.ready (s : State) (o : Opnds) (chk : View → Verdict) : Prop := s.passes fun v => (o.verdict v).andThen (chk v)

/-- `act` is carried out for every lane of the run. Registers that a QM command in flight accumulates in, or reads, are treated
as R229 says. -/
def State.does (s : State) (o : Opnds) (act : List W32 → State → State) : State := s.actQm o act s.tids

/-- Every lane of the run has the effect `f`. A lane that reads a never-written word sets UNSEEN (R16). -/
def State.each (s : State) (o : Opnds) (f : View → View) : State :=
  s.does o fun tids s => s.onTids s.issue.core tids fun v => f (o.noteUnseen v)

/-- Every lane of the run passes an instruction's checks and waits. -/
def LaneForm.goes (k : LaneForm) (s : State) : Prop := s.passes k.verdict

/-- What the instruction does when every lane executes. -/
def LaneForm.result (k : LaneForm) (s : State) : State := s.does k.opn k.act

/-! ### Commands -/

/-- A command issues (R250, R251, R273, R274): every lane passes the checks of its registers and its waits, every issuer passes
the checks of the card, with bundles and drafts `good`, and the queue and the scoreboard have room. -/
def State.issues (s : State) (o : R2) (k : EngForm) (good : List Issuer) : Prop :=
  s.passes (s.engVerdict s.issue.core o k.card k.who k.load) ∧
  (s.issuers o k = good.map fun x => (x.1, x.2.1, .ok x.2.2)) ∧
  s.engRoom s.issue.core (good.map fun x => x.2.2) = none

/-- The state after a command has issued and every lane of the run has completed. -/
def State.issued (s : State) (o : R2) (k : EngForm) (good : List Issuer) : State :=
  s.does {} fun tids s => s.issueAll o k good tids

/-- No lane of the run has a QM command in flight whose registers R229 protects. -/
def State.quiet (s : State) : Prop := ∀ v ∈ s.run, v.th.qm = []


/-! ### What an instruction does to each lane that executes it, as the spec's tables give it -/

/-- A row of a table: an instruction, its operands, its effect on a lane that executes it, and the checks of its card. -/
structure LaneRow where
  instr : Instr
  opn   : Opnds
  eff   : View → View
  chk   : View → Verdict := noCheck

/-- Where every lane of the run may execute it, the instruction completes: every lane has the effect of the row. -/
def LaneRow.completes (r : LaneRow) (s : State) : Prop := s.ready r.opn r.chk → exec r.instr s = .next (s.each r.opn r.eff)

/-- 1 or 0. -/
def oneIf (p : Prop) [Decidable p] : W32 := if p then 1#32 else 0#32

/-- d <- f(a, b) on registers; on pairs; and from pairs to a register. -/
def row32 (o : R3) (i : R3 → Instr) (f : W32 → W32 → W32) : LaneRow :=
  ⟨i o, opn32 o, fun v => (v.wr32 o.d (f (v.rd32 o.a) (v.rd32 o.b))).done 4#64, noCheck⟩
def row64 (o : R3) (i : R3 → Instr) (f : W64 → W64 → W64) : LaneRow :=
  ⟨i o, opn64 o, fun v => (v.wr64 o.d (f (v.rd64 o.a) (v.rd64 o.b))).done 4#64, noCheck⟩
def row64to32 (o : R3) (i : R3 → Instr) (f : W64 → W64 → W32) : LaneRow :=
  ⟨i o, opnSet64 o, fun v => (v.wr32 o.d (f (v.rd64 o.a) (v.rd64 o.b))).done 4#64, noCheck⟩
/-- d <- f(a, b, old d). -/
def rowOld (o : R3) (i : R3 → Instr) (f : W32 → W32 → W32 → W32) : LaneRow :=
  ⟨i o, opnTern o, fun v => (v.wr32 o.d (f (v.rd32 o.a) (v.rd32 o.b) (v.rd32 o.d))).done 4#64, noCheck⟩
/-- d <- f(a). -/
def row1 (o : R2) (i : R2 → Instr) (f : W32 → W32) : LaneRow :=
  ⟨i o, opnUn o, fun v => (v.wr32 o.d (f (v.rd32 o.a))).done 4#64, noCheck⟩
/-- d <- f(a, b), a result that lands later (R13, R79). -/
def rowLater (o : R3) (i : R3 → Instr) (f : W32 → W32 → W32) : LaneRow :=
  ⟨i o, opn32 o, fun v => (v.produce .quiet [v.th.ref o.d 0] (some [f (v.rd32 o.a) (v.rd32 o.b)]) 0).done 4#64, noCheck⟩
/-- d <- f(a) with an immediate, on registers and on pairs. -/
def rowImm32 (i : Instr) (e : Bool) (d a : Fld) (len : W64) (f : W32 → W32) : LaneRow :=
  ⟨i, { srcs := [.r a e], dsts := [⟨d, 1⟩] }, fun v => (v.wr32 d (f (v.rd32 a))).done len, noCheck⟩
def rowImm64 (i : Instr) (e : Bool) (d a : Fld) (len : W64) (f : W64 → W64) : LaneRow :=
  ⟨i, { srcs := [.p a e], dsts := [⟨d, 2⟩] }, fun v => (v.wr64 d (f (v.rd64 a))).done len, noCheck⟩

/-- The table of R80. -/
def aluRows (o : R3) : List LaneRow := [
  row32 o .add fun a b => BitVec.ofNat 32 (a.toNat + b.toNat),
  row32 o .sub fun a b => BitVec.ofInt 32 ((a.toNat : Int) - b.toNat),
  row32 o .and fun a b => a &&& b,
  row32 o .or fun a b => a ||| b,
  row32 o .xor fun a b => a ^^^ b,
  row32 o .shl fun a b => BitVec.ofNat 32 (a.toNat * 2 ^ (b.toNat % 32)),
  row32 o .shr fun a b => BitVec.ofNat 32 (a.toNat / 2 ^ (b.toNat % 32)),
  row32 o .sra fun a b => BitVec.ofInt 32 (a.toInt / 2 ^ (b.toNat % 32)),
  row64 o .add64 fun a b => BitVec.ofNat 64 (a.toNat + b.toNat),
  row64 o .sub64 fun a b => BitVec.ofInt 64 ((a.toNat : Int) - b.toNat),
  row64 o .and64 fun a b => a &&& b,
  row64 o .or64 fun a b => a ||| b,
  row64 o .xor64 fun a b => a ^^^ b,
  row64 o .shl64 fun a b => BitVec.ofNat 64 (a.toNat * 2 ^ (b.toNat % 64)),
  row64 o .shr64 fun a b => BitVec.ofNat 64 (a.toNat / 2 ^ (b.toNat % 64)),
  row64 o .sra64 fun a b => BitVec.ofInt 64 (a.toInt / 2 ^ (b.toNat % 64))]

/-- The products of R81. -/
def mulRows (o : R3) : List LaneRow := [
  row32 o .mul fun a b => BitVec.ofNat 32 (a.toNat * b.toNat),
  row32 o .mulh fun a b => BitVec.ofInt 32 (a.toInt * b.toInt / 2 ^ 32),
  row32 o .mulhu fun a b => BitVec.ofNat 32 (a.toNat * b.toNat / 2 ^ 32),
  row64 o .mul64 fun a b => BitVec.ofNat 64 (a.toNat * b.toNat)]

/-- The quotients and remainders of R81, with the cases of R82. -/
def divRows (o : R3) : List LaneRow := [
  rowLater o .div fun x y => if y.toInt = 0 then 0xFFFFFFFF#32 else if x.toInt = -(2 ^ 31) ∧ y.toInt = -1 then 0x80000000#32
    else BitVec.ofInt 32 (x.toInt.tdiv y.toInt),
  rowLater o .divu fun x y => if y.toNat = 0 then 0xFFFFFFFF#32 else BitVec.ofNat 32 (x.toNat / y.toNat),
  rowLater o .rem fun x y => if y.toInt = 0 then x else if x.toInt = -(2 ^ 31) ∧ y.toInt = -1 then 0#32
    else BitVec.ofInt 32 (x.toInt - x.toInt.tdiv y.toInt * y.toInt),
  rowLater o .remu fun x y => if y.toNat = 0 then x else BitVec.ofNat 32 (x.toNat % y.toNat)]

/-- The table of R83. -/
def cmpRows (o : R3) : List LaneRow := [
  row32 o .seq fun a b => oneIf (a = b),
  row32 o .sne fun a b => oneIf (a ≠ b),
  row32 o .slt fun a b => oneIf (a.toInt < b.toInt),
  row32 o .sltu fun a b => oneIf (a.toNat < b.toNat),
  row32 o .sle fun a b => oneIf (a.toInt ≤ b.toInt),
  row32 o .sleu fun a b => oneIf (a.toNat ≤ b.toNat),
  row32 o .min fun a b => if a.toInt ≤ b.toInt then a else b,
  row32 o .max fun a b => if b.toInt ≤ a.toInt then a else b,
  row64to32 o .seq64 fun a b => oneIf (a = b),
  row64to32 o .sne64 fun a b => oneIf (a ≠ b),
  row64to32 o .slt64 fun a b => oneIf (a.toInt < b.toInt),
  row64to32 o .sltu64 fun a b => oneIf (a.toNat < b.toNat),
  row64to32 o .sle64 fun a b => oneIf (a.toInt ≤ b.toInt),
  row64to32 o .sleu64 fun a b => oneIf (a.toNat ≤ b.toNat),
  row64 o .min64 fun a b => if a.toInt ≤ b.toInt then a else b,
  row64 o .max64 fun a b => if b.toInt ≤ a.toInt then a else b]

/-- L of R85. -/
def fieldSpan (b : W32) : Nat := min (bitsOf b 13 8) (32 - bitsOf b 4 0)
/-- The field of BFX. -/
def bfxField (a b : W32) : Nat := a.toNat / 2 ^ bitsOf b 4 0 % 2 ^ fieldSpan b

/-- The byte of PRMT with selector byte `s` (R86): source bytes 0 to 3 are those of a, 4 to 7 those of the old d. -/
def selByte (a d : W32) (s : Nat) : Nat :=
  let src := (d.toNat * 2 ^ 32 + a.toNat) / 2 ^ (8 * (s % 8)) % 256
  let x := if s / 8 % 4 = 0 then src else if s / 8 % 4 = 1 then (BitVec.ofNat 8 src).reverse.toNat
    else if s / 8 % 4 = 2 then 0 else 255
  if s / 32 % 2 = 1 then 255 - x else x

/-- The table of R84, with R85 and R86. -/
def bitRows3 (o : R3) : List LaneRow := [
  row32 o .bfx fun a b =>
    if b.getLsbD 16 ∧ 0 < fieldSpan b ∧ 2 ^ (fieldSpan b - 1) ≤ bfxField a b then
      BitVec.ofInt 32 ((bfxField a b : Int) - 2 ^ fieldSpan b) else BitVec.ofNat 32 (bfxField a b),
  rowOld o .bfi fun a b d =>
    let m := BitVec.ofNat 32 ((2 ^ fieldSpan b - 1) * 2 ^ bitsOf b 4 0)
    (d &&& ~~~m) ||| (BitVec.ofNat 32 (a.toNat % 2 ^ fieldSpan b * 2 ^ bitsOf b 4 0)),
  rowOld o .prmt fun a b d => BitVec.ofNat 32 (selByte a d (bitsOf b 7 0) + 2 ^ 8 * selByte a d (bitsOf b 15 8) +
    2 ^ 16 * selByte a d (bitsOf b 23 16) + 2 ^ 24 * selByte a d (bitsOf b 31 24)),
  row32 o .andn fun a b => a &&& ~~~b]
def bitRows2 (o : R2) : List LaneRow := [
  row1 o .popc fun a => BitVec.ofNat 32 ((List.range 32).countP fun i => a.getLsbD i),
  row1 o .clz fun a => BitVec.ofNat 32 ((List.range 32).takeWhile fun i => !a.getLsbD (31 - i)).length,
  row1 o .ctz fun a => BitVec.ofNat 32 ((List.range 32).takeWhile fun i => !a.getLsbD i).length,
  row1 o .brev fun a => a.reverse]

/-- Element j of the ternary byte t, as an INT8 byte (R59, R88). -/
def tritByte (t j : Nat) : Nat := if t ≤ 242 then (if t / 3 ^ j % 3 = 0 then 0xFF else t / 3 ^ j % 3 - 1) else 0

/-- The table of R87. -/
def miscRows3 (o : R3) : List LaneRow := [rowOld o .sel fun a b d => if d ≠ 0#32 then a else b]
def miscRows2 (o : R2) : List LaneRow := [
  row1 o .abs fun a => BitVec.ofNat 32 a.toInt.natAbs,
  row1 o .neg fun a => BitVec.ofInt 32 (0 - a.toNat),
  row1 o .sext8 fun a => BitVec.ofInt 32 (if a.toNat % 256 < 128 then (a.toNat % 256 : Nat) else (a.toNat % 256 : Nat) - 256),
  row1 o .sext16 fun a => BitVec.ofInt 32 (if a.toNat % 65536 < 32768 then (a.toNat % 65536 : Nat) else (a.toNat % 65536 : Nat) - 65536),
  row1 o .zext8 fun a => BitVec.ofNat 32 (a.toNat % 256),
  row1 o .zext16 fun a => BitVec.ofNat 32 (a.toNat % 65536)]
/-- UNPT (R88). -/
def unptRow (o : R2) : LaneRow :=
  ⟨.unpt o, { srcs := [.r o.a o.f], dsts := [⟨o.d, 2⟩] }, fun v =>
    let t := (v.rd32 o.a).toNat % 256
    let w := v.wr64 o.d (BitVec.ofNat 64 (tritByte t 0 + 2 ^ 8 * tritByte t 1 + 2 ^ 16 * tritByte t 2 + 2 ^ 24 * tritByte t 3 +
      2 ^ 32 * tritByte t 4))
    (if 242 < t then w.onTh (·.flag 32) else w).done 4#64, noCheck⟩

/-- The immediates of R89, R35: 11 bits, or 37 behind an X word. -/
def immI (i : BitVec 11) : Int := i.toInt
def immX (x : BitVec 26) (i : BitVec 11) : Int := x.toInt * 2 ^ 11 + i.toNat

/-- The table of R89. -/
def immRows (o : I2) : List LaneRow := [
  rowImm32 (.addi o) o.f o.d o.a 4#64 fun a => BitVec.ofInt 32 (a.toNat + immI o.i),
  rowImm64 (.addi64 o) o.f o.d o.a 4#64 fun a => BitVec.ofInt 64 (a.toNat + immI o.i),
  rowImm32 (.andi o) o.f o.d o.a 4#64 fun a => a &&& BitVec.ofNat 32 o.i.toNat,
  rowImm32 (.ori o) o.f o.d o.a 4#64 fun a => a ||| BitVec.ofNat 32 o.i.toNat,
  rowImm32 (.xori o) o.f o.d o.a 4#64 fun a => a ^^^ BitVec.ofNat 32 o.i.toNat]
def immXRows (x : BitVec 26) (o : I2) : List LaneRow := [
  rowImm32 (.addiX x o) o.f o.d o.a 8#64 fun a => BitVec.ofInt 32 (a.toNat + immX x o.i),
  rowImm64 (.addi64X x o) o.f o.d o.a 8#64 fun a => BitVec.ofInt 64 (a.toNat + immX x o.i),
  rowImm32 (.andiX x o) o.f o.d o.a 8#64 fun a => a &&& BitVec.ofInt 32 (immX x o.i),
  rowImm32 (.oriX x o) o.f o.d o.a 8#64 fun a => a ||| BitVec.ofInt 32 (immX x o.i),
  rowImm32 (.xoriX x o) o.f o.d o.a 8#64 fun a => a ^^^ BitVec.ofInt 32 (immX x o.i)]

/-- The table of R90. -/
def shift32Rows (o : Sh5) : List LaneRow := [
  rowImm32 (.shli o) o.f o.d o.a 4#64 fun a => BitVec.ofNat 32 (a.toNat * 2 ^ o.n.toNat),
  rowImm32 (.shri o) o.f o.d o.a 4#64 fun a => BitVec.ofNat 32 (a.toNat / 2 ^ o.n.toNat),
  rowImm32 (.srai o) o.f o.d o.a 4#64 fun a => BitVec.ofInt 32 (a.toInt / 2 ^ o.n.toNat),
  rowImm32 (.rori o) o.f o.d o.a 4#64 fun a => BitVec.ofNat 32 (a.toNat / 2 ^ o.n.toNat + a.toNat * 2 ^ (32 - o.n.toNat))]
def shift64Rows (o : Sh6) : List LaneRow := [
  rowImm64 (.shli64 o) o.f o.d o.a 4#64 fun a => BitVec.ofNat 64 (a.toNat * 2 ^ o.n.toNat),
  rowImm64 (.shri64 o) o.f o.d o.a 4#64 fun a => BitVec.ofNat 64 (a.toNat / 2 ^ o.n.toNat),
  rowImm64 (.srai64 o) o.f o.d o.a 4#64 fun a => BitVec.ofInt 64 (a.toInt / 2 ^ o.n.toNat),
  rowImm64 (.rori64 o) o.f o.d o.a 4#64 fun a => BitVec.ofNat 64 (a.toNat / 2 ^ o.n.toNat + a.toNat * 2 ^ (64 - o.n.toNat))]

/-- LI and LI.64 (R91). -/
def liRows (o : LiOp) (x : BitVec 26) : List LaneRow := [
  ⟨.li o, { dsts := [⟨o.d, 1⟩] }, fun v => (v.wr32 o.d (BitVec.ofInt 32 (immI o.i))).done 4#64, noCheck⟩,
  ⟨.li64 o, { dsts := [⟨o.d, 2⟩] }, fun v => (v.wr64 o.d (BitVec.ofInt 64 (immI o.i))).done 4#64, noCheck⟩,
  ⟨.liX x o, { dsts := [⟨o.d, 1⟩] }, fun v => (v.wr32 o.d (BitVec.ofInt 32 (immX x o.i))).done 8#64, noCheck⟩,
  ⟨.li64X x o, { dsts := [⟨o.d, 2⟩] }, fun v => (v.wr64 o.d (BitVec.ofInt 64 (immX x o.i))).done 8#64, noCheck⟩]

/-- LEA (R92). -/
def leaRow (o : RR3) : LaneRow :=
  ⟨.lea o, { srcs := [.r o.a o.f, .r o.b o.g], dsts := [⟨o.d, 1⟩] }, fun v =>
    (v.wr32 o.d (BitVec.ofNat 32 ((v.rd32 o.a).toNat + (v.rd32 o.b).toNat * 2 ^ o.r.toNat))).done 4#64, noCheck⟩

/-! ### Transfers of control (R93 to R96) -/

/-- start + 4 × an offset. -/
def targetOf (start : W64) (off : Int) : W64 := start + BitVec.ofInt 64 (4 * off)
def immB (o : BitVec 15) : Int := o.toInt
def immBX (x : BitVec 26) (o : BitVec 15) : Int := x.toInt * 2 ^ 15 + o.toNat
def immJ (o : BitVec 26) : Int := o.toInt
def immJX (x o : BitVec 26) : Int := x.toInt * 2 ^ 26 + o.toNat

/-- A branch by `off` behind `len` bytes, taken when `c` holds of the signed value of a; `sfe` keeps it from lane threads. -/
def rowBranch (i : Instr) (o : B1) (sfe : Bool) (off : Int) (len : W64) (c : Int → Bool) : LaneRow :=
  ⟨i, { srcs := [.r o.a o.f], sfeOnly := sfe },
    fun v => if c (v.rd32 o.a).toInt then v.onTh fun t => t.jumpTo (targetOf t.pc off) else v.done len,
    fun v => if c (v.rd32 o.a).toInt then targetVerdict (targetOf v.th.pc off) else .ok⟩

/-- The table of R93, with R94: BRU in a lane thread names a uniform register or z. -/
noncomputable def branchRows (o : B1) : List LaneRow := [
  rowBranch (.beqz o) o false (immB o.o) 4#64 (· = 0),
  rowBranch (.bnez o) o false (immB o.o) 4#64 (· ≠ 0),
  rowBranch (.bltz o) o false (immB o.o) 4#64 (· < 0),
  rowBranch (.bgez o) o false (immB o.o) 4#64 (· ≥ 0),
  rowBranch (.blez o) o false (immB o.o) 4#64 (· ≤ 0),
  rowBranch (.bgtz o) o false (immB o.o) 4#64 (· > 0),
  rowBranch (.bru o) o (decide (o.a.toNat < 112)) (immB o.o) 4#64 (· ≠ 0)]
noncomputable def branchXRows (x : BitVec 26) (o : B1) : List LaneRow := [
  rowBranch (.beqzX x o) o false (immBX x o.o) 8#64 (· = 0),
  rowBranch (.bnezX x o) o false (immBX x o.o) 8#64 (· ≠ 0),
  rowBranch (.bltzX x o) o false (immBX x o.o) 8#64 (· < 0),
  rowBranch (.bgezX x o) o false (immBX x o.o) 8#64 (· ≥ 0),
  rowBranch (.blezX x o) o false (immBX x o.o) 8#64 (· ≤ 0),
  rowBranch (.bgtzX x o) o false (immBX x o.o) 8#64 (· > 0),
  rowBranch (.bruX x o) o (decide (o.a.toNat < 112)) (immBX x o.o) 8#64 (· ≠ 0)]

/-- A jump by `off`; CALL keeps the address `len` behind it in %ra. -/
def rowJump (i : Instr) (off : Int) (link : Option W64) : LaneRow :=
  ⟨i, {}, fun v => v.onTh fun t => { t.jumpTo (targetOf t.pc off) with ra := match link with
      | none => t.ra
      | some len => t.pc + len },
    fun v => targetVerdict (targetOf v.th.pc off)⟩
/-- BRA (R93), JMP and CALL (R95). -/
noncomputable def jumpRows (x : BitVec 26) (b : O15) (j : O26) : List LaneRow := [
  rowJump (.bra b) (immB b) none, rowJump (.braX x b) (immBX x b) none,
  rowJump (.jmp j) (immJ j) none, rowJump (.jmpX x j) (immJX x j) none,
  rowJump (.call j) (immJ j) (some 4#64), rowJump (.callX x j) (immJX x j) (some 8#64)]

/-- JR, JALR and RET (R96). -/
noncomputable def regJumpRows (a : RA) (o : R2) : List LaneRow := [
  ⟨.jr a, { srcs := [.p a.a a.f] }, fun v => v.onTh fun t => t.jumpTo (v.rd64 a.a), fun v => targetVerdict (v.rd64 a.a)⟩,
  ⟨.jalr o, { srcs := [.p o.a o.f], dsts := [⟨o.d, 2⟩] },
    fun v => (v.wr64 o.d (v.th.pc + 4#64)).onTh fun t => t.jumpTo (v.rd64 o.a), fun v => targetVerdict (v.rd64 o.a)⟩,
  ⟨.ret, {}, fun v => v.onTh fun t => t.jumpTo t.ra, fun v => targetVerdict v.th.ra⟩]

/-! ### Floating point (R107 to R111) -/

/-- Element k of elements of w bits. -/
def elemOf (w x k : Nat) : Nat := x / 2 ^ (w * k) % 2 ^ w
/-- The 24 bits that element k takes from the rounding stream under .sr (R66, R67). -/
def elemDraw (t : Thread) (m : Rnd) (k : Nat) : Nat :=
  if m = .sr then bitsOf (t.drawAt 1 (t.str.rngr + BitVec.ofNat 32 k)) 23 0 else 0
/-- The rounding stream after n draws under .sr. -/
def Thread.drawn (t : Thread) (m : Rnd) (n : Nat) : Thread :=
  if m = .sr then { t with str := { t.str with rngr := t.str.rngr + BitVec.ofNat 32 n } } else t

/-- The elements of R107 and R108, each rounded once: their bits joined, and the OR of their flags. -/
def elemResults (fm : Fmt) (n : Nat) (f : FOp) (m : Rnd) (t : Thread) (x y z : Nat) : Nat × FFlags :=
  let e (k : Nat) : Nat × FFlags := f fm m (elemDraw t m k) (fm.decode (elemOf fm.width x k)) (fm.decode (elemOf fm.width y k))
    (fm.decode (elemOf fm.width z k))
  (((List.range n).map fun k => (e k).1 * 2 ^ (fm.width * k)).sum, (List.range n).foldl (fun a k => a ||| (e k).2) 0)

def rowFp32 (o : RR3) (i : RR3 → Instr) (fm : Fmt) (n : Nat) (acc : Bool) (f : FOp) : LaneRow :=
  ⟨i o, { srcs := [.r o.a o.f, .r o.b o.g] ++ (if acc then [.r o.d false] else []), dsts := [⟨o.d, 1⟩] }, fun v =>
    let m := v.th.rnd o.r
    let r := elemResults fm n f m v.th (v.rd32 o.a).toNat (v.rd32 o.b).toNat (if acc then (v.rd32 o.d).toNat else 0)
    ((((v.onTh fun t => t.drawn m n).wr32 o.d (BitVec.ofNat 32 r.1))).onTh fun t => t.flag r.2).done 4#64, noCheck⟩
def rowFp64 (o : RR3) (i : RR3 → Instr) (acc : Bool) (f : FOp) : LaneRow :=
  ⟨i o, { srcs := [.p o.a o.f, .p o.b o.g] ++ (if acc then [.p o.d false] else []), dsts := [⟨o.d, 2⟩] }, fun v =>
    let m := v.th.rnd o.r
    let r := elemResults .f64 1 f m v.th (v.rd64 o.a).toNat (v.rd64 o.b).toNat (if acc then (v.rd64 o.d).toNat else 0)
    ((((v.onTh fun t => t.drawn m 1).wr64 o.d (BitVec.ofNat 64 r.1))).onTh fun t => t.flag r.2).done 4#64, noCheck⟩

/-- The tables of R107 and R108. -/
def floatRows (o : RR3) : List LaneRow :=
  let sum : FOp := fun fm m r x y _ => fAdd fm m r x y
  let diff : FOp := fun fm m r x y _ => fAdd fm m r x y.neg
  let prod : FOp := fun fm m r x y _ => fMul fm m r x y
  let fma : FOp := fun fm m r x y z => fFma fm m r x y z
  [rowFp32 o .fadd32 .f32 1 false sum, rowFp32 o .fsub32 .f32 1 false diff, rowFp32 o .fmul32 .f32 1 false prod,
   rowFp32 o .ffma32 .f32 1 true fma, rowFp64 o .fadd64 false sum, rowFp64 o .fsub64 false diff, rowFp64 o .fmul64 false prod,
   rowFp64 o .ffma64 true fma, rowFp32 o .hadd2 .f16 2 false sum, rowFp32 o .hmul2 .f16 2 false prod,
   rowFp32 o .hfma2 .f16 2 true fma, rowFp32 o .badd2 .bf16 2 false sum, rowFp32 o .bmul2 .bf16 2 false prod,
   rowFp32 o .bfma2 .bf16 2 true fma]

/-- NV of %fpflags when `c` (R68). -/
def nvBit (c : Bool) : FFlags := if c then 16#6 else 0#6
/-- Either operand is a signalling NaN; either is a NaN. -/
def anySig (x y : FVal) : Bool := x.isSig || y.isSig
def anyNan (x y : FVal) : Bool := x.isNan || y.isNan
/-- Whether x is the smaller, with -0 below +0. -/
def FVal.below (x y : FVal) : Bool := x.lt y || (x.eqv y && x.sign && !y.sign)
/-- FMIN and FMAX of two encodings (R109). -/
def lesser (fm : Fmt) (a b : Nat) : Nat :=
  let x := fm.decode a
  let y := fm.decode b
  if x.isNan && y.isNan then fm.nan else if x.isNan then b else if y.isNan then a else if FVal.below x y then a else b
def greater (fm : Fmt) (a b : Nat) : Nat :=
  let x := fm.decode a
  let y := fm.decode b
  if x.isNan && y.isNan then fm.nan else if x.isNan then b else if y.isNan then a else if FVal.below x y then b else a

/-- A comparison with its result and its NV. -/
def rowFcmp32 (o : R3) (i : R3 → Instr) (f nv : FVal → FVal → Bool) : LaneRow :=
  ⟨i o, opn32 o, fun v =>
    let x := Fmt.f32.decode (v.rd32 o.a).toNat
    let y := Fmt.f32.decode (v.rd32 o.b).toNat
    ((v.wr32 o.d (oneIf (f x y))).onTh fun t => t.flag (nvBit (nv x y))).done 4#64, noCheck⟩
def rowFcmp64 (o : R3) (i : R3 → Instr) (f nv : FVal → FVal → Bool) : LaneRow :=
  ⟨i o, opnSet64 o, fun v =>
    let x := Fmt.f64.decode (v.rd64 o.a).toNat
    let y := Fmt.f64.decode (v.rd64 o.b).toNat
    ((v.wr32 o.d (oneIf (f x y))).onTh fun t => t.flag (nvBit (nv x y))).done 4#64, noCheck⟩
/-- FMIN or FMAX, whose NV is that of a signalling operand. -/
def rowFsel32 (o : R3) (i : R3 → Instr) (f : Fmt → Nat → Nat → Nat) : LaneRow :=
  ⟨i o, opn32 o, fun v =>
    let x := (v.rd32 o.a).toNat
    let y := (v.rd32 o.b).toNat
    ((v.wr32 o.d (BitVec.ofNat 32 (f .f32 x y))).onTh fun t => t.flag (nvBit (anySig (Fmt.f32.decode x) (Fmt.f32.decode y)))).done 4#64,
    noCheck⟩
def rowFsel64 (o : R3) (i : R3 → Instr) (f : Fmt → Nat → Nat → Nat) : LaneRow :=
  ⟨i o, opn64 o, fun v =>
    let x := (v.rd64 o.a).toNat
    let y := (v.rd64 o.b).toNat
    ((v.wr64 o.d (BitVec.ofNat 64 (f .f64 x y))).onTh fun t => t.flag (nvBit (anySig (Fmt.f64.decode x) (Fmt.f64.decode y)))).done 4#64,
    noCheck⟩

/-- The bit of R110 that FCLASS sets. -/
def classBit (fm : Fmt) (x : Nat) : Nat :=
  let sub := decide (x / 2 ^ fm.f % 2 ^ fm.e = 0)
  match fm.decode x with
  | .inf true => 0
  | .fin true _ _ => if sub then 2 else 1
  | .zero true => 3
  | .zero false => 4
  | .fin false _ _ => if sub then 5 else 6
  | .inf false => 7
  | .nan true => 8
  | .nan false => 9

/-- The table of R109, with R110. -/
def fcmpRows (o : R3) (p : R2) : List LaneRow := [
  rowFcmp32 o .feq FVal.eqv anySig, rowFcmp32 o .flt FVal.lt anyNan,
  rowFcmp32 o .fle (fun x y => x.lt y || x.eqv y) anyNan, rowFcmp32 o .funord anyNan anySig,
  rowFsel32 o .fmin lesser, rowFsel32 o .fmax greater,
  row1 p .fclass fun a => BitVec.ofNat 32 (2 ^ classBit .f32 a.toNat),
  row32 o .fsgnj fun a b => BitVec.ofNat 32 (a.toNat % 2 ^ 31 + b.toNat / 2 ^ 31 * 2 ^ 31),
  rowFcmp64 o .feq64 FVal.eqv anySig, rowFcmp64 o .flt64 FVal.lt anyNan,
  rowFcmp64 o .fle64 (fun x y => x.lt y || x.eqv y) anyNan, rowFcmp64 o .funord64 anyNan anySig,
  rowFsel64 o .fmin64 lesser, rowFsel64 o .fmax64 greater,
  ⟨.fclass64 p, { srcs := [.p p.a p.f], dsts := [⟨p.d, 1⟩] },
    fun v => (v.wr32 p.d (BitVec.ofNat 32 (2 ^ classBit .f64 (v.rd64 p.a).toNat))).done 4#64, noCheck⟩,
  row64 o .fsgnj64 fun a b => BitVec.ofNat 64 (a.toNat % 2 ^ 63 + b.toNat / 2 ^ 63 * 2 ^ 63)]

/-- Both elements of a packed pair, each with its NV (R111). -/
def rowPacked (o : R3) (i : R3 → Instr) (fm : Fmt) (f : Nat → Nat → Nat) (nv : FVal → FVal → Bool) : LaneRow :=
  ⟨i o, opn32 o, fun v =>
    let e (k : Nat) : Nat × Nat := (elemOf 16 (v.rd32 o.a).toNat k, elemOf 16 (v.rd32 o.b).toNat k)
    let x := BitVec.ofNat 32 (f (e 1).1 (e 1).2 * 2 ^ 16 + f (e 0).1 (e 0).2)
    ((v.wr32 o.d x).onTh fun t => t.flag (nvBit (nv (fm.decode (e 0).1) (fm.decode (e 0).2)) |||
      nvBit (nv (fm.decode (e 1).1) (fm.decode (e 1).2)))).done 4#64, noCheck⟩
/-- 0xFFFF where a relation holds. -/
def onesIf (fm : Fmt) (f : FVal → FVal → Bool) (x y : Nat) : Nat := if f (fm.decode x) (fm.decode y) then 0xFFFF else 0

/-- The table of R111. -/
def packedRows (o : R3) : List LaneRow := [
  rowPacked o .hmin2 .f16 (lesser .f16) anySig, rowPacked o .hmax2 .f16 (greater .f16) anySig,
  rowPacked o .heq2 .f16 (onesIf .f16 FVal.eqv) anySig, rowPacked o .hlt2 .f16 (onesIf .f16 FVal.lt) anyNan,
  rowPacked o .bmin2 .bf16 (lesser .bf16) anySig, rowPacked o .bmax2 .bf16 (greater .bf16) anySig,
  rowPacked o .beq2 .bf16 (onesIf .bf16 FVal.eqv) anySig, rowPacked o .blt2 .bf16 (onesIf .bf16 FVal.lt) anyNan]

/-! ### Special functions, tables and random streams (R117 to R128) -/

/-- A result that lands later in one register, with its flags (R106, R69); and one of an instruction that sets no flag. -/
def View.lands (v : View) (d : Fld) (x : W32 × FFlags) : View := v.produce .arith [v.th.ref d 0] (some [x.1]) x.2
def View.landsQuiet (v : View) (d : Fld) (x : W32) : View := v.produce .quiet [v.th.ref d 0] (some [x]) 0

/-- The table of R117. -/
noncomputable def sfuRows (o : R2) : List LaneRow :=
  let row (i : R2 → Instr) (f : FVal → FVal × FFlags) : LaneRow := ⟨i o, opnUn o, fun v => (v.lands o.d (sfu32 f (v.rd32 o.a))).done 4#64, noCheck⟩
  [row .rcp rcpVal, row .rsq rsqVal, row .sqrt sqrtVal, row .ex2 ex2Val, row .lg2 lg2Val, row .sin sinVal, row .cos cosVal,
   row .tanh tanhVal]

/-- ACT on table t of a core whose banks are not being exchanged (R120, R121, R270): the entry comes from the bank that is
active at the issue. -/
noncomputable def actRows (o : RT) (s : State) : List LaneRow :=
  let t := (s.coreAt s.issue.core).tableAt o.t.toNat
  let row (i : RT → Instr) (lin : Bool) : LaneRow :=
    ⟨i o, { srcs := [.r o.a o.f], dsts := [⟨o.d, 1⟩] }, fun v =>
      let x := actValue lin (if t.active then t.b1 else t.b0) (v.rd32 o.a)
      (v.produce .arith [v.th.ref o.d 0] (some [x.1]) x.2 [o.t.toNat]).done 4#64,
      fun _ => if t.held then .wait (.swap o.t.toNat) else .ok⟩
  [row .actNear false, row .actLin true]

/-- The thread after n draws of the data stream. -/
def Thread.drew (t : Thread) (n : Nat) : Thread :=
  { t with str := { t.str with rngd := t.str.rngd + BitVec.ofNat 32 n } }
/-- The data draw k after the thread's counter (R123). -/
def dataDraw (t : Thread) (k : Nat) : W32 := t.drawAt 0 (t.str.rngd + BitVec.ofNat 32 k)

/-- The table of R125, with R126 and R127. -/
noncomputable def rngRows (d : RD) (ab : RAB) (o : R2) (p : R3) : List LaneRow := [
  ⟨.rand d, { dsts := [⟨d.d, 1⟩] }, fun v =>
    ((v.onTh fun t => t.drew 1).landsQuiet d.d (dataDraw v.th 0)).done 4#64, noCheck⟩,
  ⟨.randu d, { dsts := [⟨d.d, 1⟩] }, fun v =>
    ((v.onTh fun t => t.drew 1).landsQuiet d.d
      (BitVec.ofNat 32 (roundTo .f32 .rn 0 (.fin false (bitsOf (dataDraw v.th 0) 31 8 + 1) (-24))).1)).done 4#64, noCheck⟩,
  ⟨.randn d, { dsts := [⟨d.d, 1⟩] }, fun v =>
    ((v.onTh fun t => t.drew 2).landsQuiet d.d (normalFrom (dataDraw v.th 0) (dataDraw v.th 1))).done 4#64, noCheck⟩,
  ⟨.rskip ab, { srcs := [.r ab.a ab.f, .r ab.b ab.g] }, fun v =>
    (v.onTh fun t => { t with str := { t.str with rngd := t.str.rngd + v.rd32 ab.a, rngr := t.str.rngr + v.rd32 ab.b } }).done 4#64,
    noCheck⟩,
  ⟨.rsel o, opnUn o, fun v => ((v.onTh fun t => t.drew 1).landsQuiet o.d
    (BitVec.ofNat 32 ((dataDraw v.th 0).toNat * (v.rd32 o.a).toNat / 2 ^ 32))).done 4#64, noCheck⟩,
  ⟨.epreset, {}, fun v => (v.onTh fun t =>
    { t with str := { t.str with episode := t.str.episode + 1#32, step := 0#32, rngd := 0#32, rngr := 0#32 } }).done 4#64, noCheck⟩,
  ⟨.epstep, {}, fun v => (v.onTh fun t => { t with str := { t.str with step := t.str.step + 1#32 } }).done 4#64, noCheck⟩,
  ⟨.rpeek p, opn32 p, fun v =>
    let x := v.rd32 p.a
    (v.landsQuiet p.d (if (v.rd32 p.b).getLsbD 0 then v.th.drawAt 1 (v.th.str.rngr + x) else v.th.drawAt 0 (v.th.str.rngd + x))).done 4#64,
    noCheck⟩]

/-! ### Instructions that touch more than their lane -/

/-- Where the form's checks and waits let every lane of the run execute, the instruction completes with the form's effect. -/
def formsComplete (s : State) (l : List (Instr × LaneForm)) : Prop := ∀ r ∈ l, r.2.goes s → exec r.1 s = .next (r.2.result s)

/-- The table of R113, with R115: the formats, and where the elements stand in a and in d. -/
noncomputable def cvtRows : List ((RR2 → Instr) × CvtCode) :=
  let one (a d : Fmt) : CvtCode := { src := .flt a, dst := .flt d 0 }
  let two (a d : Fmt) (ss ds : Nat) : CvtCode := { src := .flt a, dst := .flt d 0, n := 2, ss, ds, srcPair := ss = 32, dstPair := ds = 32 }
  let toInt (a : Fmt) (lo hi : Int) : CvtCode := { src := .flt a, dst := .int lo hi, srcPair := a = .f64, dstPair := hi ≥ 2 ^ 32 }
  let ofInt (g : Bool) (w : Nat) (d : Fmt) : CvtCode := { src := .int g w, dst := .flt d 0, srcPair := w = 64, dstPair := d = .f64 }
  [(.cvtF32F64, { one .f64 .f32 with srcPair := true }), (.cvtF64F32, { one .f32 .f64 with dstPair := true }),
   (.cvtF16F32, one .f32 .f16), (.cvtF32F16, one .f16 .f32), (.cvtBf16F32, one .f32 .bf16), (.cvtF32Bf16, one .bf16 .f32),
   (.cvtE4m3F32, one .f32 .e4m3), (.cvtF32E4m3, one .e4m3 .f32), (.cvtE5m2F32, one .f32 .e5m2), (.cvtF32E5m2, one .e5m2 .f32),
   (.cvtF6aF32, one .f32 .f6a), (.cvtF32F6a, one .f6a .f32), (.cvtF6bF32, one .f32 .f6b), (.cvtF32F6b, one .f6b .f32),
   (.cvtE8m10F32, { src := .flt .f32, dst := .flt ⟨8, 10, .ieee⟩ 13 }),
   (.cvtF16x2F32, two .f32 .f16 32 16), (.cvtF32F16x2, two .f16 .f32 16 32), (.cvtBf16x2F32, two .f32 .bf16 32 16),
   (.cvtF32Bf16x2, two .bf16 .f32 16 32), (.cvtE4m3x2F32, two .f32 .e4m3 32 8), (.cvtE5m2x2F32, two .f32 .e5m2 32 8),
   (.cvtI32F32, toInt .f32 (-(2 ^ 31)) (2 ^ 31 - 1)), (.cvtUi32F32, toInt .f32 0 (2 ^ 32 - 1)),
   (.cvtI64F32, toInt .f32 (-(2 ^ 63)) (2 ^ 63 - 1)), (.cvtUi64F32, toInt .f32 0 (2 ^ 64 - 1)),
   (.cvtI32F64, toInt .f64 (-(2 ^ 31)) (2 ^ 31 - 1)), (.cvtUi32F64, toInt .f64 0 (2 ^ 32 - 1)),
   (.cvtI64F64, toInt .f64 (-(2 ^ 63)) (2 ^ 63 - 1)), (.cvtUi64F64, toInt .f64 0 (2 ^ 64 - 1)),
   (.cvtF32I32, ofInt true 32 .f32), (.cvtF32Ui32, ofInt false 32 .f32), (.cvtF32I64, ofInt true 64 .f32),
   (.cvtF32Ui64, ofInt false 64 .f32), (.cvtF64I32, ofInt true 32 .f64), (.cvtF64Ui32, ofInt false 32 .f64),
   (.cvtF64I64, ofInt true 64 .f64), (.cvtF64Ui64, ofInt false 64 .f64), (.cvtI8F32, toInt .f32 (-128) 127),
   (.cvtF32I8, ofInt true 8 .f32)]

/-- The sum of a over contributors, modulo 2^32. -/
def totalOf (cs : List Contrib) : W32 := BitVec.ofNat 32 (cs.map fun x => x.a.toNat).sum
/-- The contributors as a word with their lanes' bits. -/
def laneBits (cs : List Contrib) : W32 :=
  BitVec.ofNat 32 (((List.range 32).filter fun l => cs.any fun x => x.lane == l).foldl (fun n l => n + 2 ^ l) 0)

/-- A gang-wide operation with a and b, or with a alone. -/
def gangRow3 (o : R3) (s : State) (i : R3 → Instr) (f : List Contrib → Contrib → W32) : Instr × LaneForm :=
  (i o, gangForm { srcs := [.r o.a o.f, .r o.b o.g], dsts := [⟨o.d, 1⟩] } o.d o.a (some o.b) (fun cs c => (f cs c, 0)) s)
def gangRow2 (p : R2) (s : State) (i : R2 → Instr) (f : List Contrib → Contrib → W32 × FFlags) : Instr × LaneForm :=
  (i p, gangForm { srcs := [.r p.a p.f], dsts := [⟨p.d, 1⟩] } p.d p.a none f s)
/-- a of the contributor in lane l, or the lane's own. -/
def fromLane (cs : List Contrib) (c : Contrib) (l : Int) : W32 := ((cs.find? fun x => (x.lane : Int) == l).map (·.a)).getD c.a

/-- The tables of R160 and R161, with R162. -/
noncomputable def crossRows (o : R3) (p : R2) (s : State) : List (Instr × LaneForm) := [
  gangRow3 o s .shfl fun cs c => fromLane cs c (c.b.toNat % 32 : Nat),
  gangRow3 o s .shflup fun cs c => fromLane cs c (c.lane + c.b.toNat : Nat),
  gangRow3 o s .shfldn fun cs c => fromLane cs c ((c.lane : Int) - c.b.toNat),
  gangRow3 o s .shflx fun cs c => fromLane cs c (c.lane ^^^ c.b.toNat % 32 : Nat),
  gangRow2 p s .anyLane fun cs _ => (oneIf (∃ x ∈ cs, x.a ≠ 0#32), 0),
  gangRow2 p s .allLanes fun cs _ => (oneIf (∀ x ∈ cs, x.a ≠ 0#32), 0),
  gangRow2 p s .ballot fun cs _ => (laneBits (cs.filter fun x => x.a ≠ 0#32), 0),
  gangRow2 p s .matchLanes fun cs c => (laneBits (cs.filter fun x => x.a = c.a), 0),
  gangRow2 p s .redadd fun cs _ => (totalOf cs, 0),
  gangRow2 p s .redmin fun cs _ => (BitVec.ofInt 32 (cs.foldl (fun m x => min m x.a.toInt) (2 ^ 31 - 1)), 0),
  gangRow2 p s .redmax fun cs _ => (BitVec.ofInt 32 (cs.foldl (fun m x => max m x.a.toInt) (-(2 ^ 31))), 0),
  gangRow2 p s .redfadd fun cs _ => redfadd cs,
  gangRow2 p s .scani fun cs c => (totalOf (cs.filter fun x => x.lane ≤ c.lane), 0),
  gangRow2 p s .scane fun cs c => (totalOf (cs.filter fun x => x.lane < c.lane), 0),
  gangRow3 o s .segi fun cs c => totalOf (cs.filter fun x => headOf cs c.lane ≤ x.lane ∧ x.lane ≤ c.lane),
  gangRow3 o s .sege fun cs c => totalOf (cs.filter fun x => headOf cs c.lane ≤ x.lane ∧ x.lane < c.lane)]

/-! ### Memory (R233 to R242) -/

/-- The element offsets of format M: 8 bits, or 34 behind an X word (R35). -/
def offM (i : BitVec 8) : W64 := BitVec.ofInt 64 i.toInt
def offMX (x : BitVec 26) (i : BitVec 8) : W64 := BitVec.ofInt 64 (x.toInt * 2 ^ 8 + i.toNat)

/-- LD, ST, LDF and STF, each with and without an X word. -/
noncomputable def memRows (o : M2) (l : L2) (x : BitVec 26) (s : State) : List (Instr × LaneForm) := [
  (.ld o, loadForm o.f o.s o.d o.a (offM o.i) 4#64 s), (.ldX x o, loadForm o.f o.s o.d o.a (offMX x o.i) 8#64 s),
  (.st o, storeForm o.f o.s o.d o.a (offM o.i) 4#64 s), (.stX x o, storeForm o.f o.s o.d o.a (offMX x o.i) 8#64 s),
  (.ldf l, ldfForm l.f l.d l.a (offM l.i) 4#64 s), (.ldfX x l, ldfForm l.f l.d l.a (offMX x l.i) 8#64 s),
  (.stf l, stfForm l.f l.d l.a (offM l.i) 4#64 s), (.stfX x l, stfForm l.f l.d l.a (offMX x l.i) 8#64 s)]

/-- The atomics of R238 and R239, each with its operation. -/
noncomputable def atomRows : List ((R3 → Instr) × AtomOp) := [
  (.atomAdd, .add), (.atomMin, .min), (.atomMax, .max), (.atomAnd, .and), (.atomOr, .or), (.atomXor, .xor), (.atomXchg, .xchg),
  (.atomCas, .cas), (.atomAdd64, .add64), (.atomCas64, .cas64), (.atomXchg64, .xchg64), (.atomFadd32, .fadd32),
  (.atomFadd64, .fadd64), (.atomBfadd2, .bfadd2), (.atomFmin32, .fmin32), (.atomFmax32, .fmax32)]

/-- The affine accesses and AFFSET (R242). -/
noncomputable def affRows (o : RJ) (a : RAJ) (s : State) : List (Instr × LaneForm) := [
  (.lda32 o, affForm o 4 false s), (.lda64 o, affForm o 8 false s), (.sta32 o, affForm o 4 true s), (.sta64 o, affForm o 8 true s),
  (.affset a, affsetForm a)]

/-- AFFCNT and the conversions of addresses (R242, R243). -/
noncomputable def addrRows (j : RDJ) (o : R2) (p : R3) (s : State) : List LaneRow :=
  let l := s.limits s.issue.core
  let up (i : R2 → Instr) (base : Nat) : LaneRow := ⟨i o, { srcs := [.r o.a o.f], dsts := [⟨o.d, 2⟩] }, fun v =>
    (v.wr64 o.d (BitVec.ofNat 64 (base + (v.rd32 o.a).toNat))).done 4#64, noCheck⟩
  let down (i : R2 → Instr) (f : View → W64 → W32) : LaneRow := ⟨i o, { srcs := [.base o.a o.f], dsts := [⟨o.d, 1⟩] }, fun v =>
    (v.wr32 o.d (f v (v.baseVal o.a))).done 4#64, noCheck⟩
  let off (k : Nat) (a : W64) : W32 := if spaceOf l a = k then BitVec.ofNat 32 (a.toNat % 2 ^ 32) else 0xFFFFFFFF#32
  [⟨.affcnt j, { dsts := [⟨j.d, 1⟩] }, fun v => (v.wr32 j.d (s.affRec j.j.toNat).cnt).done 4#64, noCheck⟩,
   up .a2gLoc 0xFFFFFFFD00000000, up .a2gPad 0xFFFFFFFE00000000, up .a2gCel 0xFFFFFFFF00000000,
   down .g2aLoc fun v a => if spaceOf l a = 1 then off 1 a
     else if v.th.locbase ≠ 0#64 ∧ v.th.locbase.toNat ≤ a.toNat ∧ a.toNat < v.th.locbase.toNat + 65536 then
       BitVec.ofNat 32 (a.toNat - v.th.locbase.toNat) else 0xFFFFFFFF#32,
   down .g2aPad fun _ a => off 2 a, down .g2aCel fun _ a => off 3 a,
   down .spaceof fun _ a => BitVec.ofNat 32 (spaceOf l a),
   ⟨.inspace p, { srcs := [.base p.a p.f, .r p.b p.g], dsts := [⟨p.d, 1⟩] }, fun v =>
     (v.wr32 p.d (oneIf (spaceOf l (v.baseVal p.a) = (v.rd32 p.b).toNat))).done 4#64, noCheck⟩]

/-- The table of R239: the new value of an atomic from the memory value x, the operand y and the expected value e; none where it writes
nothing. -/
def atomicNew (op : AtomOp) (x y e : Nat) : Option Nat :=
  let sum (fm : Fmt) (a b : Nat) : Nat := (fAdd fm .rn 0 (fm.decode a) (fm.decode b)).1
  match op with
  | .add => some ((x + y) % 2 ^ 32)
  | .add64 => some ((x + y) % 2 ^ 64)
  | .min => some (if (BitVec.ofNat 32 x).toInt ≤ (BitVec.ofNat 32 y).toInt then x else y)
  | .max => some (if (BitVec.ofNat 32 y).toInt ≤ (BitVec.ofNat 32 x).toInt then x else y)
  | .and => some (x &&& y)
  | .or => some (x ||| y)
  | .xor => some (x ^^^ y)
  | .xchg | .xchg64 => some y
  | .cas | .cas64 => if x = e then some y else none
  | .fadd32 => some (sum .f32 x y)
  | .fadd64 => some (sum .f64 x y)
  | .bfadd2 => some (sum .bf16 (elemOf 16 x 0) (elemOf 16 y 0) + 2 ^ 16 * sum .bf16 (elemOf 16 x 1) (elemOf 16 y 1))
  | .fmin32 => some (lesser .f32 x y)
  | .fmax32 => some (greater .f32 x y)

/-- The fences (R229, R230, R244, R396). -/
noncomputable def fenceRows (s : State) : List LaneRow :=
  let stored (v : View) : Verdict := if s.placed s.issue.core v.th then .ok else .wait .fence
  let fence (i : Instr) (chk : View → Verdict) : LaneRow := ⟨i, {}, fun v => (v.onTh fun t => { t with far := [] }).done 4#64, chk⟩
  [⟨.oprdy, {}, fun v => v.done 4#64, fun v => if v.th.oprdyDone then .ok else .wait .oprdy⟩,
   ⟨.drain, {}, fun v => (v.onTh fun t => { t with qm := [] }).done 4#64, fun v => if v.th.drained then .ok else .wait .drain⟩,
   fence .fenceDom fun v => (stored v).andThen v.th.refusal,
   fence .fenceSys stored]

/-! ### Threads, barriers and tasks (R163 to R179) -/

noncomputable def threadRows (ab : RAB) (a : RA) (d : RD) (s : State) : List (Instr × LaneForm) := [
  (.spawn ab, spawnForm ab s), (.exitThread, exitThreadForm s), (.regroup a, regroupForm a s), (.yield, yieldForm s),
  (.elect d, electForm d), (.dqput a, dqputForm a s), (.dqget d, dqgetForm d s)]

noncomputable def barRows (l : RDL) (a : RA) (s : State) : List (Instr × LaneForm) := [
  (.barTeam, barForm 0 s), (.barCrew, barForm 1 s), (.barCell, barForm 2 s), (.barStack, barForm 3 s), (.barDom, barForm 4 s),
  (.arrive l, arriveForm l s), (.waitb a, waitbForm a s)]

noncomputable def taskRows (o : R2) (s : State) : List (Instr × LaneForm) := [
  (.tasknew o, tasknewForm o s), (.trigger, triggerForm s), (.waitdep, waitdepForm s), (.fixup o, fixupForm o s)]

noncomputable def stageRows (ab : RAB) (o : R2) (t : R3b) (s : State) : List (Instr × LaneForm) := [
  (.stqput ab, stqputForm ab s), (.stqget o, stqgetForm o s), (.stqtry t, stqtryForm t s)]

/-- MFSR, MTSR and the SYS instructions that neither trap nor leave a loop. -/
noncomputable def sysRows (m : MfsrOp) (n : MtsrOp) (ab : RAB) (k : N4) (s : State) : List (Instr × LaneForm) := [
  (.mfsr m, mfsrForm m s), (.mtsr n, mtsrForm n s), (.eret, eretForm s), (.loadfe ab, loadfeForm ab s), (.probe k, probeForm k),
  (.halt, haltForm s)]

/-! ### Engine commands (R248 to R272, R276 to R341, R400 to R404) -/

/-- The commands of the copy engine, each with its operands and its form (R248 to R263). -/
noncomputable def copyRows (o : R2) (s : State) : List (Instr × R2 × EngForm) := [
  (.cpTld o, o, boxForm .tld false true o s), (.cpTst o, o, boxForm .tst false false o s), (.cpGth o, o, boxForm .gth true true o s),
  (.cpSct o, o, boxForm .sct true false o s), (.cpLin o, o, cpLinForm o s), (.cpFill o, o, cpFillForm o s),
  (.cpMcst o, o, cpMcstForm o s)]

/-- The commands of the matrix engine (R276 to R285), by operand format. -/
noncomputable def matrixRows (o : R2) (s : State) : List (Instr × R2 × EngForm) := [
  (.mmE4m3 o, o, mmForm .e4m3 false o s), (.mmE5m2 o, o, mmForm .e5m2 false o s), (.mmF6a o, o, mmForm .f6a false o s),
  (.mmF6b o, o, mmForm .f6b false o s), (.mmBf16 o, o, mmForm .bf16 false o s), (.mmFp16 o, o, mmForm .fp16 false o s),
  (.mmI8 o, o, mmForm .i8 false o s), (.mmE8m10 o, o, mmForm .e8m10 false o s),
  (.mmsE4m3 o, o, mmForm .e4m3 true o s), (.mmsE5m2 o, o, mmForm .e5m2 true o s), (.mmsF6a o, o, mmForm .f6a true o s),
  (.mmsF6b o, o, mmForm .f6b true o s), (.mmsBf16 o, o, mmForm .bf16 true o s), (.mmsFp16 o, o, mmForm .fp16 true o s),
  (.mmsI8 o, o, mmForm .i8 true o s), (.mmsE8m10 o, o, mmForm .e8m10 true o s),
  (.qmE4m3B0 o, o, qmForm .e4m3 0 o s), (.qmE4m3B1 o, o, qmForm .e4m3 1 o s), (.qmE4m3B2 o, o, qmForm .e4m3 2 o s),
  (.qmE4m3B3 o, o, qmForm .e4m3 3 o s), (.qmE5m2B0 o, o, qmForm .e5m2 0 o s), (.qmE5m2B1 o, o, qmForm .e5m2 1 o s),
  (.qmE5m2B2 o, o, qmForm .e5m2 2 o s), (.qmE5m2B3 o, o, qmForm .e5m2 3 o s), (.qmF6aB0 o, o, qmForm .f6a 0 o s),
  (.qmF6aB1 o, o, qmForm .f6a 1 o s), (.qmF6aB2 o, o, qmForm .f6a 2 o s), (.qmF6aB3 o, o, qmForm .f6a 3 o s),
  (.qmF6bB0 o, o, qmForm .f6b 0 o s), (.qmF6bB1 o, o, qmForm .f6b 1 o s), (.qmF6bB2 o, o, qmForm .f6b 2 o s),
  (.qmF6bB3 o, o, qmForm .f6b 3 o s), (.qmBf16 o, o, qmForm .bf16 0 o s), (.qmFp16 o, o, qmForm .fp16 0 o s),
  (.qmI8 o, o, qmForm .i8 0 o s), (.qmE8m10 o, o, qmForm .e8m10 0 o s),
  (.drnF32 o, o, drnForm .f32 o s), (.drnBf16 o, o, drnForm .bf16 o s), (.drnFp16 o, o, drnForm .fp16 o s),
  (.drnE4m3 o, o, drnForm .e4m3 o s), (.mzero o, o, mzeroForm o s), (.mstat o, o, mstatForm o s)]

/-- The commands of the in-stack engine, the tables, the histogram unit and the fabric (R286 to R290, R270 to R272, R400 to
R404). -/
noncomputable def tableRows (o : R2) (d : RD) (s : State) : List (Instr × R2 × EngForm) := [
  (.pvE4m3 o, o, pvForm .e4m3 false o s), (.pvBf16 o, o, pvForm .bf16 false o s), (.pvI8 o, o, pvForm .i8 false o s),
  (.pvPred o, o, pvForm .e4m3 true o s), (.pvMask o, o, pvMaskForm o s), (.tbLoad o, o, tbLoadForm o s), (.tbSwap o, o, tbSwapForm o s),
  (.hgBind d, bare d, hgBindForm s), (.hgRead o, o, hgReadForm o s), (.hgClr d, bare d, hgClrForm s),
  (.fxPut o, o, fxPutForm o s), (.fxGet o, o, fxGetForm o s), (.fxAredF32 o, o, aredForm false o s),
  (.fxAredBf16 o, o, aredForm true o s), (.fxBcast o, o, fxBcastForm o s), (.fxSig o, o, fxSigForm o s)]

/-- The commands of the Carafe's handles, of Descent, and of the physics engines (R295 to R341). -/
noncomputable def physicsRows (o : R2) (d : RD) (s : State) : List (Instr × R2 × EngForm) := [
  (.neBind o, o, neBindForm o s), (.neFlush d, bare d, neFlushForm s), (.neUnbind o, o, neUnbindForm o s),
  (.tdBind o, o, tdBindForm o s), (.tdDesc o, o, tdDescForm o s), (.tdBwd o, o, tdBwdForm o s), (.tdPath o, o, tdPathForm o s),
  (.grSort32 o, o, sortForm false o s), (.grSort64 o, o, sortForm true o s), (.grMorton o, o, grMortonForm o s),
  (.grSap o, o, grSapForm o s), (.cvQbox o, o, cvQboxForm o s), (.cvQray o, o, cvQrayForm o s),
  (.psLu32 o, o, pressForm (.lu false) o s), (.psLu64 o, o, pressForm (.lu true) o s), (.psChol32 o, o, pressForm (.chol false) o s),
  (.psChol64 o, o, pressForm (.chol true) o s), (.psSolve o, o, pressForm .solve o s), (.psBwd o, o, pressForm .psBwd o s),
  (.psPgs o, o, pressForm .pgs o s)]

/-- Where a command issues, the instruction completes: the command is queued and the lanes of the run go on. -/
def commandsIssue (s : State) (l : List (Instr × R2 × EngForm)) : Prop :=
  ∀ r ∈ l, ∀ good, s.issues r.2.1 r.2.2 good → exec r.1 s = .next (s.issued r.2.1 r.2.2 good)

/-- Every lane of the run passes the checks and waits of a lane evaluation, and its network's checks (R304). -/
def State.evaluates (s : State) (k : NetOp) (o : R2) : Prop :=
  s.passes (s.netVerdict s.issue.core k o s.run.length) ∧
  ∀ v ∈ s.run, netFail k o v (s.laneNet s.issue.core k o v) = none
/-- Every lane of the run has handed its row to the Carafe. -/
def State.evaluated (s : State) (k : NetOp) (o : R2) : State :=
  s.does {} fun tids t => t.evalLanes s.issue.core k o (s.netOpnds s.issue.core k o) tids

/-! ### What an instruction leaves unchanged -/

/-- From `s` to `t` only the lanes of the run have changed, each as `P` says. A lane thread leaves the uniform registers as they
are (R10). -/
def State.onlyLanes (s t : State) (P : View → View → Prop) : Prop :=
  { t with cores := s.cores } = s ∧ (∀ i, i ≠ s.issue.core → t.coreAt i = s.coreAt i) ∧
  { t.coreAt s.issue.core with crew := none } = { s.coreAt s.issue.core with crew := none } ∧
  match s.crew?, t.crew? with
  | some a, some b =>
    { b with threads := a.threads, sfe := a.sfe, k := a.k } = a ∧
    List.Forall₂ (fun x y => if s.tids.contains x.ident.tid then ∃ k, P ⟨x, a.k⟩ ⟨y, k⟩ else y = x) a.threads b.threads ∧
    (if s.tids.contains a.sfe.ident.tid then P ⟨a.sfe, a.k⟩ ⟨b.sfe, b.k⟩ else b.sfe = a.sfe ∧ b.k = a.k)
  | _, _ => False

/-- A thread without its registers, its PC, its loop levels, its sticky flags, the bits UNSEEN and WSKIP, and what the walks of its
instruction have found; `g` leaves out more. -/
def Thread.rest (g : Thread → Thread) (t : Thread) : Thread :=
  let z : LoopLevel := { lc := 0#32, lb := 0#64, copy := [] }
  g { t with regs := [], pc := 0#64, l0 := z, l1 := z, l2 := z, walked := [],
             ctl := { t.ctl with fpflags := 0#32, dbgctl := t.ctl.dbgctl &&& ~~~0xA#32 } }

/-- Between the views `v` and `w` of a lane an instruction with operands `o` has changed no register but its destinations, no
sticky flag but those of `fl`, and nothing that `rest g` shows. -/
def View.keeps (v w : View) (o : Opnds) (fl : W32) (g : Thread → Thread) : Prop :=
  (∀ n, Dst.phys n ∉ o.writes v.th → w.th.regs[n]? = v.th.regs[n]?) ∧
  (∀ n, Dst.uni n ∉ o.writes v.th → w.k[n]? = v.k[n]?) ∧
  w.th.ctl.fpflags &&& ~~~fl = v.th.ctl.fpflags &&& ~~~fl ∧ v.th.ctl.fpflags &&& w.th.ctl.fpflags = v.th.ctl.fpflags ∧
  Thread.rest g w.th = Thread.rest g v.th

/-- What an instruction of a table leaves unchanged in the lanes of a run, and outside them. -/
def LaneRow.frame (r : LaneRow) (fl : W32) (g : Thread → Thread) : Prop :=
  ∀ s t : State, s.quiet → s.ready r.opn r.chk → exec r.instr s = .next t → s.onlyLanes t fun v w => v.keeps w r.opn fl g

/-- From `s` to `t` the lanes of the run keep every register but the destinations of `o`, and every sticky flag but those of `fl`. -/
def State.lanesKeep (s t : State) (o : Opnds) (fl : W32) : Prop :=
  ∀ tid ∈ s.tids, ∀ v w, s.view? s.issue.core tid = some v → t.view? s.issue.core tid = some w →
    (∀ n, Dst.phys n ∉ o.writes v.th → w.th.regs[n]? = v.th.regs[n]?) ∧ (∀ n, Dst.uni n ∉ o.writes v.th → w.k[n]? = v.k[n]?) ∧
    w.th.ctl.fpflags &&& ~~~fl = v.th.ctl.fpflags &&& ~~~fl

/-- Whether a place is a word of an image of engine state (R372), which is no byte of memory. -/
def Loc.isImage : Loc → Bool
  | .state _ _ _ => true
  | _ => false

/-- Every byte of memory reads the same. -/
def State.sameBytes (s t : State) : Prop := ∀ l : Loc, l.isImage = false → t.rdByte l = s.rdByte l

/-! ### Loops -/

/-- The loop-end event of the innermost level n of `t` leaves `u` (R99): the levels n to k end together, of which those above k have
come to their last iteration; level k begins its next one, or ends too. -/
def Thread.loopEnds (t u : Thread) (n : Nat) : Prop :=
  ∀ k ≤ n, (∀ j, k ≤ j → j ≤ n → (t.level j).stop = (t.level n).stop) → (∀ j, k < j → j ≤ n → (t.level j).lc.toNat ≤ 1) →
    (∀ j, k < j → j ≤ n → (u.level j).lc = 0#32 ∧ (u.level j).act = false) ∧
    (1 < (t.level k).lc.toNat →
      u.pc = (t.level k).start ∧ (u.level k).lc = (t.level k).lc - 1#32 ∧ (u.level k).lb = (t.level k).lb) ∧
    ((t.level k).lc.toNat ≤ 1 → (u.level k).lc = 0#32 ∧ (u.level k).act = false ∧
      (k = 0 ∨ (t.level (k - 1)).stop ≠ (t.level n).stop → u.pc = (t.level n).stop + 4#64)) ∧
    (1 < (t.level k).lc.toNat ∨ k = 0 ∨ (t.level (k - 1)).stop ≠ (t.level n).stop → ∀ j < k, u.level j = t.level j)

/-! ### Traps -/

/-- Every lane of the run takes a trap at the instruction, together (R351). -/
def State.trapped (s : State) (f : View → Trap) : State :=
  s.takeTrap s.issue.core (s.run.map fun v => (v.th.ident.tid, f v)) s.mkRegs

/-- The state in which the lanes of a run have noted each other, as those do that trap together at a collective instruction (R137). -/
def State.noted (s : State) : State :=
  let all := s.tids.filterMap fun x => (s.view? s.issue.core x).map fun v => (x, v.th.depth + 1)
  s.tids.foldl (fun t x => t.onThread s.issue.core x fun v => v.onTh fun h => h.noteTrap all) s

/-- Every lane of the run fails a check, with the trap `f`; the lanes agree on the check and the cause. -/
def State.allTrap (s : State) (verdict : View → Verdict) (f : View → Trap) : Prop :=
  s.run ≠ [] ∧ (∀ v ∈ s.run, verdict v = .trap (f v)) ∧
  ∀ v ∈ s.run, ∀ w ∈ s.run, (f v).stage = (f w).stage ∧ (f v).cause = (f w).cause

/-- Where every lane passes the checks of a row's operands and fails its card's with the trap `f`, the run takes it. -/
def LaneRow.traps (r : LaneRow) (s : State) (f : View → Trap) : Prop :=
  (∀ v ∈ s.run, r.opn.verdict v = .ok) → s.allTrap r.chk f → exec r.instr s = .next (s.trapped f)

/-! ### Memory accesses of one lane -/

/-- Whether place `l` is one of `n` bytes from `m`. -/
def Loc.within (l m : Loc) (n : Nat) : Prop := ∃ i < n, l = m.plus i

/-- The access that LD or ST makes of a lane: its address by R233. -/
def accessOf (v : View) (a : Fld) (off : W64) (n : Nat) (wr : Bool) : Access := { va := effAddr v a off n, n, rd := !wr, wr }

/-- LD and LDF with their operands and the access that each makes of a lane. -/
noncomputable def loadAccesses (o : M2) (l : L2) (x : BitVec 26) : List (Instr × Opnds × (View → Access)) :=
  let ld : Opnds := { srcs := [.base o.a o.f], dsts := [⟨o.d, szRegs o.s.toNat⟩] }
  let ldf : Opnds := { srcs := [.base l.a l.f], dsts := [⟨l.d, 2⟩] }
  [(.ld o, ld, fun v => accessOf v o.a (offM o.i) (szBytes o.s.toNat) false),
   (.ldX x o, ld, fun v => accessOf v o.a (offMX x o.i) (szBytes o.s.toNat) false),
   (.ldf l, ldf, fun v => { accessOf v l.a (offM l.i) 8 false with fut := true }),
   (.ldfX x l, ldf, fun v => { accessOf v l.a (offMX x l.i) 8 false with fut := true })]

/-- ST and STF. -/
noncomputable def storeAccesses (o : M2) (l : L2) (x : BitVec 26) : List (Instr × Opnds × (View → Access)) :=
  let st : Opnds := { srcs := [.base o.a o.f, ⟨o.d, szRegs o.s.toNat, szRegs o.s.toNat, false⟩] }
  let stf : Opnds := { srcs := [.base l.a l.f, ⟨l.d, 2, 2, false⟩] }
  [(.st o, st, fun v => accessOf v o.a (offM o.i) (szBytes o.s.toNat) true),
   (.stX x o, st, fun v => accessOf v o.a (offMX x o.i) (szBytes o.s.toNat) true),
   (.stf l, stf, fun v => { accessOf v l.a (offM l.i) 8 true with fut := true }),
   (.stfX x l, stf, fun v => { accessOf v l.a (offMX x l.i) 8 true with fut := true })]

/-- The atomics, those of `l`: their address is the base alone (R238). -/
def atomAccesses (l : List ((R3 → Instr) × AtomOp)) (p : R3) : List (Instr × Opnds × (View → Access)) :=
  l.map fun r => (r.1 p, atomOpnds r.2 p, fun v => { va := v.baseVal p.a, n := r.2.size, rd := true, wr := true })

/-- STA.32 and STA.64: the address of R213, in the pad aperture. -/
noncomputable def affStores (j : RJ) (s : State) : List (Instr × Opnds × (View → Access)) :=
  let row (i : Instr) (n : Nat) : Instr × Opnds × (View → Access) :=
    (i, { srcs := [.r j.a j.f, ⟨j.d, n / 4, n / 4, false⟩] },
      fun v => { va := padAddr ((s.affRec j.j.toNat).offset (v.rd32 j.a)), n, rd := false, wr := true })
  [row (.sta32 j) 4, row (.sta64 j) 8]

/-- A store of n bytes to flat memory, after which none of the words that it touches is an entry of a page table in use (R365). -/
def State.plainStore (s : State) (a n v : Nat) : Prop :=
  ∀ i < (n + 7) / 8, ((s.clearFutures (.mem a) n).wr (.mem a) n v).entryLevel (a / 8 * 8 + 8 * i) = none

end Machine
end Sys2Proof
end

