-- ==== Sys2Proof/WellFormed.lean ====
section
/-! DEFINITION. Well-formed instructions: the field values that R33, R40, R41 and R157 allow, and the units that the device
has (R2, R7). Every field value not named here is allowed. -/

namespace Sys2Proof

/-- A size code that ST takes (R33). -/
def storeSize (s : BitVec 3) : Bool := decide (s.toNat ∈ [0, 2, 4, 5, 6])

/-- The section that an engine's name carries. -/
def Eng.wf : Eng → Bool
  | .matrix k => decide (k < 4)
  | .stack k => decide (k < 4)
  | .copy | .table | .fabric | .carafe | .grinder | .caver | .press => true

def EngRef.wf (e : EngRef) : Bool := decide (e.core < Config.cores) && e.eng.wf

/-- Well-formed. -/
def Instr.wf (i : Instr) : Bool :=
  match i with
  | .qmFusedPass core sect _ => decide (core < Config.cores) && decide (sect < 4)
  | .subarrayGate core sect _ => decide (core < Config.cores) && decide (sect < 4)
  | .tableExchange core => decide (core < Config.cores)
  | .tileLaunch core _ => decide (core < Config.cores)
  | .tileDelivery core sect => decide (core < Config.cores) && decide (sect < 4)
  | .backwardSettle core => decide (core < Config.cores)
  | .commandCompletion eng _ => eng.wf
  | .lineDelivery eng _ _ => eng.wf
  | .engineTranslationFault eng _ _ => eng.wf
  | .stopHold eng => eng.wf
  | .stopRelease eng => eng.wf
  | .resultLands who _ => decide (who.core < Config.cores)
  | .sectionIssue core sect => decide (core < Config.cores) && decide (sect < 5)
  | .forcedRun core sect => decide (core < Config.cores) && decide (sect < 4)
  | .yieldDeferralEnd core sect slot => decide (core < Config.cores) && decide (sect < 4) && decide (slot < 16)
  | .governorWindow core => decide (core < Config.cores)
  | .gangFormation core bin => decide (core < Config.cores) && decide (bin < 8)
  | .crewDispatch cell => decide (cell < Config.cells)
  | .stealRequest thief victim => decide (thief < Config.cells) && decide (victim < Config.cells + Config.stackDomains)
  | .stealAnswer thief => decide (thief < Config.cells)
  | .stealRoundWait cell => decide (cell < Config.cells)
  | .costartAnnounce _ _ rank => decide (rank < 128)
  | .lineGroupSend core _ => decide (core < Config.cores)
  | .lineGroupAtHome core _ => decide (core < Config.cores)
  | .lineGroupReply core _ => decide (core < Config.cores)
  | .negativeAcknowledgement core _ => decide (core < Config.cores)
  | .nackRetry core _ => decide (core < Config.cores)
  | .bypassEntryFree slice _ => decide (slice < Config.cells)
  | .lanternPass chan => decide (chan < Config.cells)
  | .routerPowerDown router => decide (router < Config.cells)
  | .routerWake router => decide (router < Config.cells)
  | .tokenGrant die _ => decide (die < 2)
  | .throttleLift die => decide (die < 2)
  | .preempt core _ _ => decide (core < Config.cores)
  | .crewRestore _ core => decide (core < Config.cores)
  | .spareCoreRepair core _ => decide (core < Config.cores)
  | .spareSliceRepair slice => decide (slice < Config.cells)
  | .storeRefusalReport who _ => decide (who.core < Config.cores)
  | .flitData port _ => decide (port < 16)
  | .flitAcknowledgement port _ => decide (port < 16)
  | .flitNegativeAcknowledgement port _ => decide (port < 16)
  | .flitReservation port _ => decide (port < 16)
  | .flitControl port _ => decide (port < 16)
  | .wavelengthRetire port _ _ => decide (port < 16)
  | .fibreFailover port _ => decide (port < 16)
  | .peerUnreachable port rank => decide (port < 16) && decide (rank < 128)
  | .thermalEvent die => decide (die < 2)
  | .laserModuleSwap module => decide (module < 4)
  | .samplingEvt who _ => decide (who.core < Config.cores)
  | .voltageDroop die => decide (die < 2)
  | .linksComeUp port rank => decide (port < 16) && decide (rank < 128)
  | .fadd32 o => decide (o.r.toNat ≤ 5)
  | .fsub32 o => decide (o.r.toNat ≤ 5)
  | .fmul32 o => decide (o.r.toNat ≤ 5)
  | .ffma32 o => decide (o.r.toNat ≤ 5)
  | .fadd64 o => decide (o.r.toNat ≤ 5)
  | .fsub64 o => decide (o.r.toNat ≤ 5)
  | .fmul64 o => decide (o.r.toNat ≤ 5)
  | .ffma64 o => decide (o.r.toNat ≤ 5)
  | .hadd2 o => decide (o.r.toNat ≤ 5)
  | .hmul2 o => decide (o.r.toNat ≤ 5)
  | .hfma2 o => decide (o.r.toNat ≤ 5)
  | .badd2 o => decide (o.r.toNat ≤ 5)
  | .bmul2 o => decide (o.r.toNat ≤ 5)
  | .bfma2 o => decide (o.r.toNat ≤ 5)
  | .cvtF32F64 o => decide (o.r.toNat ≤ 5)
  | .cvtF64F32 o => decide (o.r.toNat ≤ 5)
  | .cvtF16F32 o => decide (o.r.toNat ≤ 5)
  | .cvtF32F16 o => decide (o.r.toNat ≤ 5)
  | .cvtBf16F32 o => decide (o.r.toNat ≤ 5)
  | .cvtF32Bf16 o => decide (o.r.toNat ≤ 5)
  | .cvtE4m3F32 o => decide (o.r.toNat ≤ 5)
  | .cvtF32E4m3 o => decide (o.r.toNat ≤ 5)
  | .cvtE5m2F32 o => decide (o.r.toNat ≤ 5)
  | .cvtF32E5m2 o => decide (o.r.toNat ≤ 5)
  | .cvtF6aF32 o => decide (o.r.toNat ≤ 5)
  | .cvtF32F6a o => decide (o.r.toNat ≤ 5)
  | .cvtF6bF32 o => decide (o.r.toNat ≤ 5)
  | .cvtF32F6b o => decide (o.r.toNat ≤ 5)
  | .cvtE8m10F32 o => decide (o.r.toNat ≤ 5)
  | .cvtF16x2F32 o => decide (o.r.toNat ≤ 5)
  | .cvtF32F16x2 o => decide (o.r.toNat ≤ 5)
  | .cvtBf16x2F32 o => decide (o.r.toNat ≤ 5)
  | .cvtF32Bf16x2 o => decide (o.r.toNat ≤ 5)
  | .cvtE4m3x2F32 o => decide (o.r.toNat ≤ 5)
  | .cvtE5m2x2F32 o => decide (o.r.toNat ≤ 5)
  | .cvtI32F32 o => decide (o.r.toNat ≤ 5)
  | .cvtUi32F32 o => decide (o.r.toNat ≤ 5)
  | .cvtI64F32 o => decide (o.r.toNat ≤ 5)
  | .cvtUi64F32 o => decide (o.r.toNat ≤ 5)
  | .cvtI32F64 o => decide (o.r.toNat ≤ 5)
  | .cvtUi32F64 o => decide (o.r.toNat ≤ 5)
  | .cvtI64F64 o => decide (o.r.toNat ≤ 5)
  | .cvtUi64F64 o => decide (o.r.toNat ≤ 5)
  | .cvtF32I32 o => decide (o.r.toNat ≤ 5)
  | .cvtF32Ui32 o => decide (o.r.toNat ≤ 5)
  | .cvtF32I64 o => decide (o.r.toNat ≤ 5)
  | .cvtF32Ui64 o => decide (o.r.toNat ≤ 5)
  | .cvtF64I32 o => decide (o.r.toNat ≤ 5)
  | .cvtF64Ui32 o => decide (o.r.toNat ≤ 5)
  | .cvtF64I64 o => decide (o.r.toNat ≤ 5)
  | .cvtF64Ui64 o => decide (o.r.toNat ≤ 5)
  | .cvtI8F32 o => decide (o.r.toNat ≤ 5)
  | .cvtF32I8 o => decide (o.r.toNat ≤ 5)
  | .ld o => decide (o.s.toNat ≠ 7)
  | .ldX _ o => decide (o.s.toNat ≠ 7)
  | .st o => storeSize o.s
  | .stX _ o => storeSize o.s
  | .arrive o => decide (o.l.toNat ≤ 4)
  | _ => true

end Sys2Proof
end

