-- ==== Sys2Proof/Certificates/Slice0/Obligations.lean ====
section
/-! DEFINITION. The statements about the model. Each says which rules of the spec it formalises. -/

open Sys2Proof Sys2Proof.Machine

/-! ### Encoding -/

/-- Words that R90, R94, R98 and R356 work out, and the two words of R89's worked case, decode to the instructions they stand
for. -/
def Obligations.WrittenWordsDecode : Prop :=
  decode2 0x30103303#32 none = .ok (.shri64 { f := false, d := 4#7, a := 6#7, n := 3#6 }, 4) ∧
  decode2 0xC1F9FFFC#32 none = .ok (.bru { f := false, a := 115#7, o := 0x7FFC#15 }, 4) ∧
  decode2 0xD1FC2801#32 none = .ok (.loop { f := false, a := 5#7, n := 1#8 }, 4) ∧
  decode2 0xE41FFF85#32 none = .ok (.trap 5#7, 4) ∧ decode2 0xE43FFFFF#32 none = .ok (.eret, 4) ∧
  decode2 0xE445027F#32 none = .ok (.savefe { f := false, d := 20#7, a := 4#7 }, 4) ∧
  decode2 0xE47FC214#32 none = .ok (.loadfe { f := false, g := false, a := 4#7, b := 20#7 }, 4) ∧
  decode2 0xE4BFFFFF#32 none = .ok (.brk, 4) ∧ decode2 0xE4DFFF83#32 none = .ok (.probe 3#4, 4) ∧
  decode2 0xFFFFFFFF#32 (some 0x2C081FFF#32) =
    .ok (.xoriX 0x3FFFFFF#26 { f := false, d := 2#7, a := 3#7, i := 0x7FF#11 }, 8)

/-- The bytes of a well-formed instruction, in the order in which they stand in memory (R25, R26, R35), decode to it and to its
length, whatever follows them. -/
def Obligations.DecodeInvertsEncode : Prop :=
  ∀ (i : Instr) (ws : List W32) (rest : List Byte), i.wf = true → encode i = some ws →
    decode ((ws.flatMap fun w => [byteAt w.toNat 0, byteAt w.toNat 1, byteAt w.toNat 2, byteAt w.toNat 3]) ++ rest) =
      .ok (i, 4 * ws.length)

/-! ### Reset and launch -/

/-- After reset: %lease 8 and %mgidle 1,024 on every core (R197, R269), every activation bank of zero bytes (R119), no crew and no
task, and NEXT 0 in every command queue of every tenancy (R406). A launched thread reads the special registers of R17 and R97 at
their reset values; its registers are full, not valid, and 0 (R13, R184). The threads of a crew have %tids of their own. -/
def Obligations.ResetAndLaunchValues : Prop :=
  (∀ i, (State.reset.coreAt i).lease = 8#32 ∧ (State.reset.coreAt i).mgidle = 1024#32 ∧ (State.reset.coreAt i).crew = none ∧
    ∀ t, ((State.reset.coreAt i).tableAt t).b0 = [] ∧ ((State.reset.coreAt i).tableAt t).b1 = []) ∧
  State.reset.tasks = [] ∧ (∀ t ∈ State.reset.tens, ∀ q ∈ t.zqs, q.next = 0#32) ∧
  (∀ (t : Tcb) (ten : Tenancy) (task crew : Nat) (sfe : Bool) (p : Place) (tid : W32) (pc : W64) (e : SrEnv),
    let th := t.thread ten task crew sfe p tid pc
    (∀ n ∈ [0x00C, 0x00D, 0x012, 0x013, 0x021, 0x022, 0x023, 0x025, 0x026, 0x027, 0x028, 0x029, 0x02C, 0x02D, 0x02E, 0x030, 0x031,
      0x040, 0x041, 0x042, 0x043, 0x044, 0x045, 0x046, 0x052, 0x053, 0x401, 0x410, 0x411, 0x412, 0x413, 0x414, 0x415],
      srRead e th n = 0#64) ∧
    srRead e th 0x020 = 0xFFFFFFFF#64 ∧ srRead e th 0x02A = 128#64 ∧ srRead e th 0x02B = 256#64 ∧
    ∀ r ∈ th.regs, r.val = 0#32 ∧ r.full = true ∧ r.valid = false) ∧
  ∀ (t : Task) (ten : Tenancy) (no cycle : Nat), no < t.tcb.crews.toNat → t.tcb.crews.toNat * t.tcb.nthr.toNat ≤ 2 ^ 31 →
    ((t.crewAt ten no cycle).all.map fun x => x.ident.tid).Nodup

/-- Memory after reset has the canonical form that `MemoryStaysCanonical` speaks of. -/
def Obligations.ResetMemoryIsCanonical : Prop := Memory.wf State.reset.mem

/-! ### A step -/

/-- While the clocks run, a filled issue slot is executed first: when every lane of its run passes the fetch and the bytes at the
PC of the lowest decode to an instruction, the step is `exec` of that instruction, for the run that the slot names (R26), in the
state in which the storage errors that are due have arisen. -/
def Obligations.StepRunsTheDecodedInstruction : Prop :=
  ∀ (s : State) (x : Issue) (rest : List Issue) (v : View) (vs : List View) (raw : RawInstr) (i : Instr),
    Clocked s → s.slots = x :: rest →
    let u : State := { s.turned with slots := rest, issue := x }
    u.run = v :: vs → (∀ y ∈ u.run, u.fetchVerdict x.core y.th = .ok) → u.fetch x.core v.th = .ok raw →
    (match raw.x with | none => decodeWord raw.word | some p => decodeX p raw.word) = .ok i →
    step s = exec i { u with issue := { x with raw } }

/-- When a lane of the run fails the fetch, or the word is no instruction, the step is the trap that every such fetch or word
takes (R26, R43). With no slot to execute, an input whose cycle has come is taken. A device whose clocks stand takes only resets and
power events (R389, R414, R416): while it has power nothing else changes but the count of the always-on reference (R388), and without
power and input it stops. -/
def Obligations.StepTrapsOrTakesInputs : Prop :=
  (∀ (s : State) (x : Issue) (rest : List Issue), Clocked s → s.slots = x :: rest →
    let u : State := { s.turned with slots := rest, issue := x }
    (∀ y ∈ u.run, u.fetchVerdict x.core y.th ≠ .ok → step s = exec .fetchTrap u) ∧
    (∀ v vs raw e, u.run = v :: vs → (∀ y ∈ u.run, u.fetchVerdict x.core y.th = .ok) → u.fetch x.core v.th = .ok raw →
      (match raw.x with | none => decodeWord raw.word | some p => decodeX p raw.word) = .error e →
      step s = exec (.wordNotInstruction e.sub raw) u)) ∧
  (∀ (s : State) (n : Nat) (i : Instr) (r : List (Nat × Instr)), Clocked s → s.slots = [] → s.sched = (n, i) :: r → n ≤ s.control →
    isInput i = true → step s = exec i { s.turned with sched := r }) ∧
  (∀ s : State, s.aon.power = false → s.sched = [] → step s = .fault .clocksStopped) ∧
  (∀ s : State, s.aon.frozen = true → s.aon.power = true → s.sched = [] →
    ∃ t, step s = .next t ∧ { t with aon := s.aon } = s ∧ { t.aon with time := s.aon.time } = s.aon ∧ t.aon.time = s.aon.time + 1) ∧
  ∀ (s : State) (n : Nat) (i : Instr) (r : List (Nat × Instr)), s.clocksStand = true → s.sched = (n, i) :: r →
    ∃ u : State, { u with aon := s.aon } = s ∧ u.sumpTime = (if s.aon.power then s.sumpTime + 1 else s.sumpTime) ∧
      step s = if wakesStopped i then exec i { u with sched := r } else .next { u with sched := r }

/-! ### Registers (R10 to R16, R31) -/

/-- A write to field z is discarded and z reads 0; a write to a v field reaches physical register %win + f, full and valid, and
no other; one to a k field reaches the uniform register (R10, R13, R31). -/
def Obligations.RegisterWritesLand : Prop :=
  (∀ (v : View) (x : W32), v.wr32 Fld.z x = v ∧ v.rd32 Fld.z = 0#32 ∧ v.rd64 Fld.z = 0#64) ∧
  (∀ (v : View) (f : Fld) (x : W32), f.toNat < 112 → v.th.win + f.toNat < v.th.regs.length →
    (v.wr32 f x).th.regs[v.th.win + f.toNat]? = some { val := x, full := true, valid := true } ∧
    (∀ n, n ≠ v.th.win + f.toNat → (v.wr32 f x).th.regs[n]? = v.th.regs[n]?) ∧ (v.wr32 f x).k = v.k ∧ (v.wr32 f x).rd32 f = x) ∧
  (∀ (v : View) (f : Fld) (x : W32), 112 ≤ f.toNat → f.toNat < 127 → f.toNat - 112 < v.k.length →
    (v.wr32 f x).k[f.toNat - 112]? = some { val := x, full := true, valid := true } ∧
    (∀ n, n ≠ f.toNat - 112 → (v.wr32 f x).k[n]? = v.k[n]?) ∧ (v.wr32 f x).th = v.th) ∧
  (∀ (v : View) (f : Fld) (x : W64), f.toNat % 2 = 0 → f.toNat < 112 → v.th.win + f.toNat + 1 < v.th.regs.length →
    (v.wr64 f x).rd64 f = x)

/-- A lane passes the checks of its operands exactly when every field reaches registers that it may name, the mode and the kind of thread
fit, no source and no destination with a result on its way is empty, no source is unwritten while UNINIT is 1, and no source is marked (R10,
R11, R14 to R16, R43, R356, R369). Otherwise it takes the first of these: ILLEGAL with sub-cause 5 for a field; PROT with sub-cause 3 for a
privileged form in user mode; ILLEGAL with sub-cause 7 for the kind of thread; EMPTYREAD, with the lowest field of an empty source read with its
bit set; the wait for an empty register (R14, R15); UNINIT, with the lowest such field (the model's choice, log entry 82); and the trap of a mark. That a lane which
waits makes the test of the empty-read bits again is the model's choice too (log entry 117). -/
def Obligations.OperandsPassWhen : Prop :=
  ∀ (o : Opnds) (v : View),
    let fields : Prop := (∀ x ∈ o.srcs, v.th.fieldOk x.f x.w x.al false = true) ∧ (∀ x ∈ o.dsts, v.th.fieldOk x.f x.w x.w true = true)
    let mode : Prop := o.priv = true → v.th.modeS = true
    let kind : Prop := (o.laneOnly = true → v.th.sfe = false) ∧ (o.sfeOnly = true → v.th.sfe = true)
    let empty (x : Src) : Prop := ∃ r ∈ v.srcRegs x, r.full = false
    let early (x : Src) : Prop := x.bang = true ∧ empty x
    let full : Prop := ∀ x ∈ o.srcs, ∀ r ∈ v.srcRegs x, r.full = true
    let landed : Prop := ∀ x ∈ o.dsts, ∀ d ∈ v.th.refs x.f x.w, (∃ p ∈ v.th.pending, d ∈ p.dst) → (v.get d).full = true
    let written : Prop := v.th.uninit = true → ∀ x ∈ o.srcs, v.unwritten x = false
    let clean : Prop := ∀ x ∈ o.srcs, ∀ r ∈ v.srcRegs x, r.mark.trap x.f = none
    let lowest (p : Src → Prop) (f : Fld) : Prop := (∃ x ∈ o.srcs, p x ∧ x.f = f) ∧ ∀ x ∈ o.srcs, p x → f.toNat ≤ x.f.toNat
    (o.verdict v = .ok ↔ fields ∧ mode ∧ kind ∧ full ∧ landed ∧ written ∧ clean) ∧
    (¬ fields → o.verdict v = .trap (trapOpen stageField 1 5)) ∧
    (fields → ¬ mode → o.verdict v = .trap (trapAt stageMode 6 3 0#64)) ∧
    (fields → mode → ¬ kind → o.verdict v = .trap (trapOpen stageKind 1 7)) ∧
    (fields → mode → kind →
      (∀ f, lowest early f → o.verdict v = .trap (trapAt stageEmpty 2 0 (f.setWidth 64))) ∧
      ((∀ x ∈ o.srcs, ¬ early x) → ¬ (full ∧ landed) → ∃ d, o.verdict v = .wait (.reg d) ∧ (v.get d).full = false ∧
        ((∃ x ∈ o.srcs, d ∈ v.th.refs x.f x.w) ∨ (full ∧ ∃ x ∈ o.dsts, d ∈ v.th.refs x.f x.w))) ∧
      (full → landed →
        (∀ f, v.th.uninit = true → lowest (fun x => v.unwritten x = true) f → o.verdict v = .trap (trapAt stageUninit 3 0 (f.setWidth 64))) ∧
        (written → ¬ clean → ∃ x ∈ o.srcs, ∃ r ∈ v.srcRegs x, ∃ t, r.mark.trap x.f = some t ∧ o.verdict v = .trap t)))

/-- An instruction of each lane alone, where every lane of the run executes it, has its effect on each lane of the run and
changes nothing else of the device (R26, R137). A source that was never written sets UNSEEN (R16). Runs of which a QM command is
in flight are left to R229. -/
def Obligations.LanesAloneChange : Prop :=
  ∀ (s : State) (o : Opnds) (f : View → View), s.run ≠ [] → s.quiet →
    s.onlyLanes (s.each o f) fun v w => w = f (o.noteUnseen v)

/-! ### Results of the integer instructions (R80 to R92) -/

/-- The table of R80: every operation of ALU and ALU64, on every lane of a run that is ready to execute it, writes the result of its
row. -/
def Obligations.AluResults : Prop := ∀ (s : State) (o : R3), ∀ r ∈ aluRows o, r.completes s

/-- MUL, MULH, MULHU and MUL.64 give the products of R81. DIV, DIVU, REM and REMU give its quotients and remainders, and those of
R82 where there is none; their destination is empty until the result lands (R79). -/
def Obligations.MultiplyDivideResults : Prop := ∀ (s : State) (o : R3), ∀ r ∈ mulRows o ++ divRows o, r.completes s

/-- The comparisons, minima and maxima of R83. -/
def Obligations.CompareResults : Prop := ∀ (s : State) (o : R3), ∀ r ∈ cmpRows o, r.completes s

/-- The operations of BITS (R84), with the clipped fields of R85 and the selector bytes of R86, those of MISC (R87), and the five
elements that UNPT decodes (R88). -/
def Obligations.BitSelectAndTernaryResults : Prop :=
  ∀ (s : State) (o : R3) (p : R2), ∀ r ∈ bitRows3 o ++ bitRows2 p ++ miscRows3 o ++ miscRows2 p ++ [unptRow p], r.completes s

/-- The immediate forms: R89 with and without an X word, the shifts of R90, LI (R91) and LEA (R92). -/
def Obligations.ImmediateResults : Prop :=
  ∀ (s : State) (o : I2) (x : BitVec 26) (m : Sh5) (n : Sh6) (l : LiOp) (e : RR3),
    ∀ r ∈ immRows o ++ immXRows x o ++ shift32Rows m ++ shift64Rows n ++ liRows l x ++ [leaRow e], r.completes s

/-- What the instructions of R80 to R92 leave unchanged: every register but the destinations, every sticky flag but TRIT, which
UNPT alone may set, and every other register of the thread but its PC, its loop levels (R99), UNSEEN and WSKIP. -/
def Obligations.IntegerFrame : Prop :=
  ∀ (o : R3) (p : R2) (i : I2) (x : BitVec 26) (m : Sh5) (n : Sh6) (l : LiOp) (e : RR3),
    (∀ r ∈ aluRows o ++ mulRows o ++ cmpRows o ++ bitRows3 o ++ bitRows2 p ++ miscRows3 o ++ miscRows2 p ++ immRows i ++ immXRows x i ++
      shift32Rows m ++ shift64Rows n ++ liRows l x ++ [leaRow e], r.frame 0#32 id) ∧
    (unptRow p).frame 32#32 id ∧
    ∀ r ∈ divRows o, r.frame 0#32 fun t => { t with pending := [], serial := 0 }

/-! ### Transfers of control (R93 to R100) -/

/-- The branches of R93 and BRU (R94), with and without an X word: taken or not by the signed value of a, and on to the next
instruction where not. BRA, JMP and CALL go to start + 4 × imm(), and CALL sets %ra to the address behind it, 8 on when it has an
X word (R34, R95). JR, JALR and RET (R96): JALR reads a before it writes d. -/
def Obligations.TransferResults : Prop :=
  ∀ (s : State) (x : BitVec 26) (o : B1) (b : O15) (j : O26) (a : RA) (p : R2),
    ∀ r ∈ branchRows o ++ branchXRows x o ++ jumpRows x b j ++ regJumpRows a p, r.completes s

/-- What the transfers of control leave unchanged: a branch or jump writes no register and no flag, JALR its destination, and CALL
besides %ra. -/
def Obligations.ControlFrame : Prop :=
  ∀ (x : BitVec 26) (o : B1) (b : O15) (j : O26) (a : RA) (p : R2),
    (∀ r ∈ branchRows o ++ branchXRows x o ++ (jumpRows x b j).take 4 ++ regJumpRows a p, r.frame 0#32 id) ∧
    ∀ r ∈ (jumpRows x b j).drop 4, r.frame 0#32 fun t => { t with ra := 0#64 }

/-- The target of a transfer that a lane takes: PROT with sub-cause 0 when it is not canonical, otherwise MISALIGN when it is no
multiple of 4, each with %taddr the target; the run takes the trap and the transfer has no effect (R9). -/
def Obligations.BadTargetTraps : Prop :=
  (∀ a : W64, canonical a = false → targetVerdict a = .trap { stage := stageCanon, cause := 6, sub := 0, addr := some a }) ∧
  (∀ a : W64, canonical a = true → a.toNat % 4 ≠ 0 →
    targetVerdict a = .trap { stage := stageAlign, cause := 4, sub := 0, addr := some a }) ∧
  ∀ (s : State) (f : View → Trap) (x : BitVec 26) (o : B1) (b : O15) (j : O26) (a : RA) (p : R2),
    ∀ r ∈ branchRows o ++ branchXRows x o ++ jumpRows x b j ++ regJumpRows a p, r.traps s f

/-- LOOP (R98): a count of 0 skips the body; otherwise the next level holds the count, the body's start and length, and the PC
is at the body's first word. The address that the PC takes is checked first (R9). LOOP traps with ILLEGAL, sub-cause 8, at depth
3 or where the body does not lie in the enclosing one, and with sub-cause 4 where the body ends in an X word, for whose page it
may wait. -/
def Obligations.LoopEntersItsBody : Prop :=
  ∀ (s : State) (o : LoopOp),
    let start (v : View) : W64 := v.th.pc + 4#64
    let stop (v : View) : W64 := v.th.pc + BitVec.ofNat 64 (4 * (o.n.toNat + 1))
    let inner (v : View) : Prop := v.th.loopDepth < 3 ∧ (0 < v.th.loopDepth →
      (v.th.level (v.th.loopDepth - 1)).start.toNat ≤ (start v).toNat ∧ (stop v).toNat ≤ (v.th.level (v.th.loopDepth - 1)).stop.toNat)
    let chk (v : View) : Verdict :=
      if v.rd32 o.a = 0#32 then targetVerdict (stop v + 4#64)
      else (targetVerdict (start v)).andThen (s.loopVerdict s.issue.core v.th o.n)
    (s.ready { srcs := [.r o.a o.f] } chk → exec (.loop o) s = .next (s.each { srcs := [.r o.a o.f] } fun v =>
      if v.rd32 o.a = 0#32 then v.onTh fun t => t.jumpTo (stop v + 4#64)
      else v.onTh fun t => (t.setLevel t.loopDepth
        { lc := v.rd32 o.a, lb := LoopLevel.body (start v) o.n, copy := s.bodyWords s.issue.core t (start v) (o.n.toNat + 1) }).jumpTo
          (start v))) ∧
    ∀ v : View, v.th.loopDepth ≤ 3 →
      (¬ inner v → s.loopVerdict s.issue.core v.th o.n = .trap { stage := 21, cause := 1, sub := 8, addr := some v.th.pc }) ∧
      (inner v → s.loopVerdict s.issue.core v.th o.n =
        match s.fetchWord s.issue.core v.th (stop v) with
        | .ok w => if bitsOf w 31 26 = 0x3F then .trap { stage := 22, cause := 1, sub := 4, addr := some v.th.pc } else .ok
        | .error (.wait w) => .wait w
        | .error _ => .ok)

/-- BRK leaves the innermost level without an end event: its counter is 0, it is active no longer, and the PC is at its body's end
+ 4, where that passes R9; otherwise BRK traps with the target. At depth 0 it traps with ILLEGAL, sub-cause 8, and %taddr its
address (R100). -/
def Obligations.BreakLeavesTheLoop : Prop :=
  ∀ (s : State),
    let behind (v : View) : W64 := (v.th.level (v.th.loopDepth - 1)).stop + 4#64
    (s.run ≠ [] → (∀ v ∈ s.run, 0 < v.th.loopDepth ∧ targetVerdict (behind v) = .ok) →
      exec .brk s = .next (s.each {} fun v => v.onTh fun t =>
      let l := t.level (t.loopDepth - 1)
      (t.setLevel (t.loopDepth - 1) { lc := 0#32, lb := setBit l.lb 0 false, copy := [] }).jumpTo (l.stop + 4#64))) ∧
    (s.run ≠ [] → (∀ v ∈ s.run, 0 < v.th.loopDepth ∧ canonical (behind v) = false) → exec .brk s =
      .next (s.trapped fun v => { stage := stageCanon, cause := 6, sub := 0, addr := some (behind v) })) ∧
    (s.run ≠ [] → (∀ v ∈ s.run, v.th.loopDepth = 0) → exec .brk s =
      .next (s.trapped fun v => { stage := 21, cause := 1, sub := 8, addr := some v.th.pc }))

/-- The loop-end event of the innermost level N (R99), when an instruction completes whose last word stands at the body's end: with
a counter above 1 the counter falls and the PC is at the body's start; otherwise the counter is 0, the level is active no longer,
and the PC is behind the body, or the event of level N - 1 follows when the bodies end together, whose counter may expire too, and so on
outwards. An instruction that does not end there causes no event, and neither does a taken transfer. -/
def Obligations.LoopEndEvent : Prop :=
  ∀ (t : Thread) (len : W64) (n : Nat), t.loopDepth = n + 1 →
    (t.pc + len - 4#64 ≠ (t.level n).stop → t.complete len = { t.clearWskip with pc := t.pc + len }) ∧
    (t.pc + len - 4#64 = (t.level n).stop → t.loopEnds (t.complete len) n) ∧
    ∀ target : W64, (t.jumpTo target).l0 = t.l0 ∧ (t.jumpTo target).l1 = t.l1 ∧ (t.jumpTo target).l2 = t.l2

/-! ### Results of the other instructions of one lane -/

/-- The sums, products and fused products of R107 and R108: each element is rounded once in the mode of the instruction, with a draw
of the rounding stream for each element under .sr, and the flags of all elements are set. The comparisons, minima, maxima, classes
and sign copies of R109 and R110, and those of packed pairs (R111). -/
def Obligations.FloatResults : Prop :=
  ∀ (s : State) (e : RR3) (o : R3) (p : R2), ∀ r ∈ floatRows e ++ fcmpRows o p ++ packedRows o, r.completes s

/-- The special functions (R117, R118), the table activations (R120, R121) and the random instructions (R125 to R127): each result
lands later, and each draw moves the data stream's counter on. -/
def Obligations.FunctionTableDrawResults : Prop :=
  ∀ (s : State) (o : R2) (t : RT) (d : RD) (ab : RAB) (p : R3), ∀ r ∈ sfuRows o ++ actRows t s ++ rngRows d ab o p, r.completes s

/-- What these instructions leave unchanged: a floating-point operation writes its destination, sets sticky flags and moves the
rounding stream under .sr; a comparison writes its destination and may set NV; an instruction whose result lands later empties its
destination and moves the streams that its rule names. -/
def Obligations.FloatFrame : Prop :=
  ∀ (s : State) (e : RR3) (o : R3) (p : R2) (t : RT) (d : RD) (ab : RAB),
    (∀ r ∈ floatRows e, r.frame 63#32 fun t => { t with str := { t.str with rngr := 0#32 } }) ∧
    (∀ r ∈ fcmpRows o p ++ packedRows o, r.frame 16#32 id) ∧
    (∀ r ∈ sfuRows p, r.frame 0#32 fun t => { t with pending := [], serial := 0 }) ∧
    (∀ r ∈ rngRows d ab p o, r.frame 0#32 fun t => { t with pending := [], serial := 0, str := { t.str with
      rngd := 0#32, rngr := 0#32, episode := 0#32, step := 0#32 } }) ∧
    ∀ (r : LaneRow) (u : State), r ∈ actRows t s → s.quiet → s.ready r.opn r.chk → exec r.instr s = .next u →
      s.onlyLanes u fun v w => v.keeps w r.opn 0#32 fun t => { t with pending := [], serial := 0 }

/-- The special cases of the SFU (R118), as the bits that it writes and the flags that it sets: zeros, infinities, negative operands and
NaNs, with NV (16) and DZ (8). The canonical NaN is 0x7FC0_0000 (R55), and a NaN is a signalling one when bit 22 is 0. -/
def Obligations.SpecialFunctionCases : Prop :=
  let nan (x : W32) : Prop := x.toNat / 2 ^ 23 % 2 ^ 8 = 255 ∧ x.toNat % 2 ^ 23 ≠ 0
  let invalid : W32 × FFlags := (0x7FC00000#32, 16#6)
  (∀ f ∈ [rcpVal, rsqVal, sqrtVal, ex2Val, lg2Val, sinVal, cosVal, tanhVal], ∀ x, nan x →
    sfu32 f x = (0x7FC00000#32, if x.getLsbD 22 then 0#6 else 16#6)) ∧
  (∀ f ∈ [rsqVal, sqrtVal, lg2Val], ∀ x : W32, x.getLsbD 31 = true → x.toNat % 2 ^ 31 ≠ 0 → ¬ nan x → sfu32 f x = invalid) ∧
  sfu32 rcpVal 0#32 = (0x7F800000#32, 8#6) ∧ sfu32 rcpVal 0x80000000#32 = (0xFF800000#32, 8#6) ∧
  sfu32 rcpVal 0x7F800000#32 = (0#32, 0#6) ∧ sfu32 rcpVal 0xFF800000#32 = (0x80000000#32, 0#6) ∧
  sfu32 rsqVal 0#32 = (0x7F800000#32, 8#6) ∧ sfu32 rsqVal 0x80000000#32 = (0xFF800000#32, 8#6) ∧
  sfu32 rsqVal 0x7F800000#32 = (0#32, 0#6) ∧
  sfu32 sqrtVal 0x80000000#32 = (0x80000000#32, 0#6) ∧ sfu32 sqrtVal 0x7F800000#32 = (0x7F800000#32, 0#6) ∧
  sfu32 ex2Val 0xFF800000#32 = (0#32, 0#6) ∧ sfu32 ex2Val 0x7F800000#32 = (0x7F800000#32, 0#6) ∧
  sfu32 lg2Val 0#32 = (0xFF800000#32, 8#6) ∧ sfu32 lg2Val 0x80000000#32 = (0xFF800000#32, 8#6) ∧
  sfu32 lg2Val 0x7F800000#32 = (0x7F800000#32, 0#6) ∧
  (∀ f ∈ [sinVal, cosVal], sfu32 f 0x7F800000#32 = invalid ∧ sfu32 f 0xFF800000#32 = invalid) ∧
  sfu32 tanhVal 0x7F800000#32 = (0x3F800000#32, 0#6) ∧ sfu32 tanhVal 0xFF800000#32 = (0xBF800000#32, 0#6)

/-- The conversions (R113, R115): the formats and places of each mnemonic, and the effect of R114 to R116 on a lane. A conversion leaves
every register but its destination unchanged, every sticky flag set that was set, the streams but the rounding stream, and all else but
the core's histogram unit, which counts what it writes (R77). -/
def Obligations.Conversions : Prop :=
  ∀ (s : State) (o : RR2), formsComplete s (cvtRows.map fun r => (r.1 o, cvtForm r.2 o)) ∧
    ∀ r ∈ cvtRows, ∀ t : State, s.quiet → (cvtForm r.2 o).goes s → exec (r.1 o) s = .next t →
      s.onlyLanes (t.onCore s.issue.core fun k => { k with hist := (s.coreAt s.issue.core).hist }) fun v w =>
        v.keeps w (r.2.opnds o) 63#32 fun t => { t with str := { t.str with rngr := 0#32 } }

/-- The cross-lane operations (R160 to R162): every lane's sources are read before any destination is written, and each lane
takes what the table gives it from the contributors. They leave every other register of the lanes as it is, and every sticky flag but
those of REDFADD. -/
def Obligations.CrossLaneResults : Prop :=
  ∀ (s : State) (o : R3) (p : R2), formsComplete s (crossRows o p s) ∧
    ∀ r ∈ crossRows o p s, ∀ t : State, s.quiet → r.2.goes s → exec r.1 s = .next t →
      s.lanesKeep t r.2.opn (if r.1 = .redfadd p then 63#32 else 0#32)

/-! ### Memory (R196, R232 to R244) -/

/-- Loads, stores, future words, atomics and affine accesses complete where every lane passes its checks and waits, with and
without an X word. -/
def Obligations.MemoryAccessesComplete : Prop :=
  ∀ (s : State) (o : M2) (l : L2) (p : R3) (j : RJ) (a : RAJ) (x : BitVec 26),
    formsComplete s (memRows o l x s) ∧ formsComplete s (atomRows.map fun r => (r.1 p, atomForm r.2 p s)) ∧
    formsComplete s (affRows j a s)

/-- The conversions of addresses and AFFCNT (R242, R243), and the fences: each completes once what it waits for is done (R229,
R230, R244). -/
def Obligations.AddressAndFenceResults : Prop :=
  ∀ (s : State) (j : RDJ) (o : R2) (p : R3), ∀ r ∈ addrRows j o p s ++ fenceRows s, r.completes s

/-- LD, ST and the atomics at the core's own scratchpad by one lane (R196, R235, R238), none of whose instruction's accesses is still to be
performed: the load's result is bound to the bytes read and changes no byte; the store writes the register's bytes, least significant first,
and no other byte of any storage; an atomic's result is bound to the value that stood there, and it stores what the table of R239 gives, or
nothing where its compare fails. The atomics that a replay task combines in order are left to R240. -/
def Obligations.ScratchpadAccess : Prop :=
  ∀ (s : State) (v : View) (o : M2) (h : Hit), s.run = [v] → s.view? s.issue.core v.th.ident.tid = some v → s.terms = [] →
    v.th.qm = [] → s.lowerLeft s.issue.core = false → (∃ k, h.loc = .pad s.issue.core k) →
    let n := szBytes o.s.toNat
    ((loadForm o.f o.s o.d o.a (offM o.i) 4#64 s).goes s → s.check s.issue.core v.th (accessOf v o.a (offM o.i) n false) = .ok h →
      ∃ t w, exec (.ld o) s = .next t ∧ s.sameBytes t ∧ t.view? s.issue.core v.th.ident.tid = some w ∧
        ∃ p ∈ w.th.pending, p.id = v.th.serial ∧ p.dst = v.th.refs o.d (szRegs o.s.toNat) ∧
          p.vals = some (loadWords o.s.toNat (s.rd h.loc n))) ∧
    ((storeForm o.f o.s o.d o.a (offM o.i) 4#64 s).goes s → s.check s.issue.core v.th (accessOf v o.a (offM o.i) n true) = .ok h →
      ∃ t, exec (.st o) s = .next t ∧ (∀ i < n, t.rdByte (h.loc.plus i) = byteAt (storeData v o.d o.s.toNat).toNat i) ∧
        ∀ l : Loc, l.isImage = false → ¬ l.within h.loc n → t.rdByte l = s.rdByte l) ∧
    ∀ (p : R3), ∀ r ∈ atomRows, ((s.crew?.map (·.replay)).getD false && r.2.ordered) = false → (atomForm r.2 p s).goes s →
      s.check s.issue.core v.th { va := v.baseVal p.a, n := r.2.size, rd := true, wr := true } = .ok h →
      let m := r.2.size
      let x := s.rd h.loc m
      let new := (atomicNew r.2 x (operandOf v p.b m).toNat (operandOf v p.d m).toNat).getD x
      ∃ t w, exec (r.1 p) s = .next t ∧ t.view? s.issue.core v.th.ident.tid = some w ∧
        (∃ q ∈ w.th.pending, q.id = v.th.serial ∧ q.dst = v.th.refs p.d (m / 4) ∧ q.vals = some (wordsOf (m / 4) x)) ∧
        (∀ i < m, t.rdByte (h.loc.plus i) = byteAt new i) ∧
        ∀ l : Loc, l.isImage = false → ¬ l.within h.loc m → t.rdByte l = s.rdByte l

/-- What LD, LDF, the affine loads and AFFSET leave of memory: every byte. What ST, STF, STA and the atomics leave: every byte but those
at the address of the access, by R233, R238 or R213, computed for each lane as the instruction does. No replay term is held, which an
access would settle first (R240), and the threads of the crew have %tids of their own; runs of which a QM command is in flight are left
to R229. Where every lane passes its checks and waits, they change no register of the lanes but the destination, and no sticky flag (R69). -/
def Obligations.LoadAndStoreFrame : Prop :=
  ∀ (s t : State) (o : M2) (l : L2) (p : R3) (j : RJ) (a : RAJ) (x : BitVec 26), s.terms = [] →
    (∀ c, s.crew? = some c → (c.all.map fun t => t.ident.tid).Nodup) →
    (∀ i ∈ (loadAccesses o l x).map (·.1) ++ [.lda32 j, .lda64 j, .affset a], exec i s = .next t → s.sameBytes t) ∧
    (s.quiet → ∀ r ∈ storeAccesses o l x ++ atomAccesses atomRows p ++ affStores j s, exec r.1 s = .next t →
      ∀ q : Loc, q.isImage = false →
        (∀ tid ∈ s.tids, ∀ v, s.view? s.issue.core tid = some v → ∀ h, s.check s.issue.core v.th (r.2.2 v) = .ok h →
          h.state = false ∧ ¬ q.within h.loc (r.2.2 v).n) →
        t.rdByte q = s.rdByte q) ∧
    (s.quiet → ∀ r ∈ memRows o l x s ++ (atomRows.map fun r => (r.1 p, atomForm r.2 p s)) ++ affRows j a s, r.2.goes s → exec r.1 s = .next t →
      s.lanesKeep t r.2.opn 0#32)

/-- No instruction of these families changes a byte of any storage, even where it traps: integer, immediate and shift forms, branches and
jumps, floating point, packed pairs, conversions, special functions, tables, random streams, address conversion, fences, cross-lane
operations, loops, MFSR, MTSR of any register but %trial, ELECT, YIELD, PROBE, SAVEFE, ERET, TRAP and BKPT, ITER and WIN. A change of
%trial writes a trace record (R387). -/
def Obligations.RegistersAloneLeaveMemory : Prop :=
  ∀ (s t : State) (o : R3) (p : R2) (i : I2) (x : BitVec 26) (m : Sh5) (n : Sh6) (l : LiOp) (e : RR3) (b : B1) (b' : O15) (j : O26)
    (a : RA) (d : RD) (ab : RAB) (c : RDJ) (k : RT) (q : LoopOp) (g : RR2) (mf : MfsrOp) (mt : MtsrOp) (pr : N4) (tr : N7),
    (∀ r ∈ aluRows o ++ mulRows o ++ divRows o ++ cmpRows o ++ bitRows3 o ++ bitRows2 p ++ miscRows3 o ++ miscRows2 p ++ [unptRow p] ++
      immRows i ++ immXRows x i ++ shift32Rows m ++ shift64Rows n ++ liRows l x ++ [leaRow e] ++ branchRows b ++ branchXRows x b ++
      jumpRows x b' j ++ regJumpRows a p ++ floatRows e ++ fcmpRows o p ++ packedRows o ++ sfuRows p ++ actRows k s ++
      rngRows d ab p o ++ addrRows c p o s ++ fenceRows s, exec r.instr s = .next t → s.sameBytes t) ∧
    (∀ r ∈ crossRows o p s, exec r.1 s = .next t → s.sameBytes t) ∧ (∀ r ∈ cvtRows, exec (r.1 g) s = .next t → s.sameBytes t) ∧
    (mt.n.toNat ≠ 0x404 → exec (.mtsr mt) s = .next t → s.sameBytes t) ∧
    ∀ y ∈ [Instr.loop q, .brk, .iter d, .win a, .mfsr mf, .elect d, .yield, .probe pr, .savefe p, .eret, .trap tr, .bkpt],
      exec y s = .next t → s.sameBytes t

/-! ### Threads, barriers, tasks and stage queues (R163 to R180) -/

/-- The instructions of threads, barriers, tasks and stage queues complete where every lane passes its checks and waits. ITER
writes the share of R176 and WIN moves the window (R168). They change no register of the lanes but their destinations, and no sticky flag;
of a thread that has left by EXIT nothing is said. -/
def Obligations.ThreadAndTaskInstructions : Prop :=
  ∀ (s : State) (ab : RAB) (a : RA) (d : RD) (l : RDL) (o : R2) (t : R3b),
    formsComplete s (threadRows ab a d s) ∧ formsComplete s (barRows l a s) ∧ formsComplete s (taskRows o s) ∧
    formsComplete s (stageRows ab o t s) ∧
    (s.ready { dsts := [⟨d.d, 2⟩] } noCheck → ∀ c k, s.crew? = some c → s.task? c.ten c.task = some k →
      let n := k.tcb.itern.toNat
      let lo := c.no * n / k.tcb.crews.toNat
      let hi := (c.no + 1) * n / k.tcb.crews.toNat
      let tl := k.tcb.itert.toNat
      exec (.iter d) s = .next (s.each { dsts := [⟨d.d, 2⟩] } fun v => (v.wr64 d.d (BitVec.ofNat 64 (lo + 2 ^ 32 * (hi - lo) +
        (if lo % tl ≠ 0 then 2 ^ 63 else 0) + (if hi % tl ≠ 0 ∧ hi < n then 2 ^ 62 else 0)))).done 4#64)) ∧
    (s.ready { srcs := [.r a.a a.f], laneOnly := true } (fun v =>
        if (v.rd32 a.a).toNat % 16 ≠ 0 ∨ (v.rd32 a.a).toNat + 16 > v.th.allot then rangeTrap else .ok) →
      exec (.win a) s = .next (s.each { srcs := [.r a.a a.f], laneOnly := true } fun v => v.onTh fun t =>
        { t with win := (v.rd32 a.a).toNat }.complete 4#64)) ∧
    (s.quiet → (∀ c, s.crew? = some c → (c.all.map fun t => t.ident.tid).Nodup) →
      ∀ r ∈ threadRows ab a d s ++ barRows l a s ++ taskRows o s ++ stageRows ab o t s, r.1 ≠ .exitThread → r.2.goes s →
        ∀ u : State, exec r.1 s = .next u → s.lanesKeep u r.2.opn 0#32)

/-! ### System instructions and special registers (R17 to R22, R103, R104, R356 to R360) -/

/-- MFSR, MTSR, ERET, LOADFE, PROBE and HALT complete where every lane passes their checks and waits, and SAVEFE writes the full
and valid bits that its selector names. They change no register of the lanes but the destination of MFSR, and no sticky flag but by MTSR of
%fpflags; LOADFE changes full and valid bits, and no value (R358). -/
def Obligations.SystemInstructions : Prop :=
  ∀ (s : State) (m : MfsrOp) (n : MtsrOp) (ab : RAB) (k : N4) (o : R2),
    formsComplete s (sysRows m n ab k s) ∧
    (s.ready { srcs := [.r o.a o.f], dsts := [⟨o.d, 2⟩], priv := true } (feVerdict o.a) →
      exec (.savefe o) s = .next (s.each { srcs := [.r o.a o.f], dsts := [⟨o.d, 2⟩], priv := true } fun v =>
        match feSel (v.rd32 o.a) v.th with
        | none => v
        | some sel => (v.wr64 o.d (feRead (s.coreAt s.issue.core) v sel)).done 4#64)) ∧
    ∀ t : State, s.quiet → (∀ c, s.crew? = some c → (c.all.map fun t => t.ident.tid).Nodup) →
      (∀ r ∈ sysRows m n ab k s, r.1 ≠ .loadfe ab → r.2.goes s → exec r.1 s = .next t →
        s.lanesKeep t r.2.opn (if n.n.toNat = 0x022 ∧ r.1 = .mtsr n then BitVec.allOnes 32 else 0#32)) ∧
      ((loadfeForm ab s).goes s → exec (.loadfe ab) s = .next t →
        ∀ tid ∈ s.tids, ∀ v w, s.view? s.issue.core tid = some v → t.view? s.issue.core tid = some w →
          w.th.regs.map (·.val) = v.th.regs.map (·.val) ∧ w.k.map (·.val) = v.k.map (·.val) ∧ w.th.ctl.fpflags = v.th.ctl.fpflags)

/-- MTSR and then MFSR of a thread's own register, in a lane thread or in the front end: the bits that R17 and R97 let software write read as
written, %dbgctl but UNSEEN, which a written 1 clears (R21), and %dqpos, which the front end does not have (R148); every number that is none of
these leaves the thread as it is. That %tprefix, %ktprefix, %tcause and %ktcause keep all 32 bits written is the model's (log entry 99). -/
def Obligations.SpecialRegistersReadBack : Prop :=
  ∀ (e : SrEnv) (t : Thread) (x : W64),
    let whole := [0x00B, 0x00C, 0x00D, 0x010, 0x011, 0x012, 0x013, 0x020, 0x025, 0x026, 0x027, 0x029, 0x02A, 0x02B, 0x040, 0x042,
      0x045, 0x047, 0x052, 0x410, 0x412, 0x415, 0x416]
    let wide := [0x028, 0x031, 0x034, 0x035, 0x041, 0x044, 0x046, 0x400, 0x402, 0x407, 0x411, 0x414]
    let parts := [(0x021, 0x7), (0x022, 0x3F), (0x030, 0x1FF), (0x401, 0xF), (0x036, 0x01FF01FF), (0x02C, 0xFF01FFFFFFFFFFFD),
      (0x02D, 0xFF01FFFFFFFFFFFD), (0x02E, 0xFF01FFFFFFFFFFFD), (0x043, 0xFFFFFFFFE3FFFFFF), (0x413, 0xFFFFFFFFE3FFFFFF)]
    (∀ n ∈ whole, srRead e (srWriteThread n x t) n = (lo32 x).setWidth 64) ∧ (∀ n ∈ wide, srRead e (srWriteThread n x t) n = x) ∧
    (∀ n ∈ parts, srRead e (srWriteThread n.1 x t) n.1 = x &&& BitVec.ofNat 64 n.2) ∧
    srRead e (srWriteThread 0x02F x t) 0x02F = (if t.sfe then 0#64 else (lo32 x).setWidth 64) ∧
    (srRead e (srWriteThread 0x053 x t) 0x053).toNat % 2 = x.toNat % 2 ∧
    (x.getLsbD 1 = true → (srRead e (srWriteThread 0x053 x t) 0x053).getLsbD 1 = false) ∧
    ∀ n, n ∉ whole → n ∉ wide → (∀ m ∈ parts, m.1 ≠ n) → n ≠ 0x02F → n ≠ 0x053 → srWriteThread n x t = t

/-! ### Traps (R9, R27 to R30, R351 to R360) -/

/-- Taking a trap (R28): a cause for the user handler in a thread that has one, runs in user mode and in no user handler, saves the
trap registers of the user, sets UH and goes to %uhandler; every other trap saves those of the system, sets S, keeps the old S in
PS, clears PE and goes to %khandler. No register changes. -/
def Obligations.TrapEntrySavesAndRedirects : Prop :=
  ∀ (t : Thread) (r : TrapRegs),
    let u := t.enterTrap r
    let user := bitsOf r.cause 7 0 ∈ [1, 2, 3, 4, 7, 8, 10, 12] ∧ t.uhandler ≠ 0#64 ∧ t.modeS = false ∧ t.modeUH = false
    u.regs = t.regs ∧ u.ra = t.ra ∧ u.ctl.fpflags = t.ctl.fpflags ∧
    (user → u.ut = r ∧ u.kt = t.kt ∧ u.pc = t.uhandler ∧ u.modeUH = true ∧ u.modeS = false) ∧
    (¬ user → u.kt = r ∧ u.ut = t.ut ∧ u.pc = t.khandler ∧ u.modeS = true ∧ u.modePS = t.modeS ∧ u.modeUH = t.modeUH ∧
      u.mode.getLsbD 3 = false)

/-- A lane that traps alone, with nothing in flight in its gang, enters its handler at once, with %tcause, %tpc, %tmask, %tinst,
%tprefix and %taddr of the trap (R28, R44, R45, R351, R352). -/
def Obligations.LaneEntersItsHandler : Prop :=
  ∀ (s : State) (f : View → Trap) (v : View) (c : Crew) (a : W64), s.run = [v] → s.crew? = some c →
    (c.all.filter fun t => t.ident.tid == v.th.ident.tid) = [v.th] → s.deferred = [] →
    (∀ g ∈ (s.coreAt s.issue.core).coll, ∀ r ∈ g.reqs, r.isLdf = false) →
    (∀ x ∈ c.all, x.inGang v.th.sfe v.th.place.sect v.th.place.slot = true → x.live = true → x.settled = true) →
    (f v).report = false → (f v).mark = .clean → (f v).addr = some a →
    ∃ w r, (s.trapped f).view? s.issue.core v.th.ident.tid = some w ∧
      w.th = { v.th.enterTrap r with status := .runnable, qm := [] } ∧
      r.cause = BitVec.ofNat 32 ((f v).sub * 256 + (f v).cause) ∧ r.pc = v.th.pc ∧ r.mask = v.th.laneBit ∧ r.addr = a ∧
      r.inst = s.issue.raw.word ∧ r.field = fieldsOf s.issue.raw.word ∧ r.pre = xReg s.issue.raw

/-- When every lane of a run fails the same check with the same cause, the whole run takes the trap, no lane executes and none is
held (R351, R419); the places 13 to 19 in the order name no check. At a collective instruction the lanes note each other, so that they return to it
together (R137). Where some lanes of a per-lane instruction pass every check: when all the failures are PAGEFAULTs, those lanes execute it and
the others trap (R234, R366); when a check of the card fails otherwise, no lane commits, the lanes that failed the earliest such check take the
trap together, each with its own registers, and all others are held (R234, R351). -/
def Obligations.WholeRunTraps : Prop :=
  (∀ (s : State) (k : LaneForm) (f : View → Trap), s.allTrap k.verdict f →
    (∀ v ∈ s.run, ((f v).stage < 13 ∨ 20 ≤ (f v).stage) ∧ (f v).stage ≤ 1000) →
    s.eachLane k = s.trapped f ∧
    s.allLanes k = s.noted.takeTrap s.issue.core (s.run.map fun v => (v.th.ident.tid, f v)) s.mkRegs) ∧
  ∀ (s : State) (k : LaneForm) (f : View → Trap) (ok : View → Bool), (s.run.map fun v => v.th.ident.tid).Nodup →
    (∀ v ∈ s.run, k.verdict v = if ok v then .ok else .trap (f v)) →
    let pairs (l : List View) : List (W32 × Trap) := l.map fun v => (v.th.ident.tid, f v)
    let good := s.run.filter ok
    let bad := s.run.filter fun v => !ok v
    good ≠ [] → bad ≠ [] →
    ((∀ v ∈ bad, (f v).stage = stageFault ∧ (f v).cause = 5) →
      s.eachLane k = (s.actQm k.opn k.act (good.map fun v => v.th.ident.tid)).takeTrap s.issue.core (pairs bad) s.mkRegs) ∧
    ∀ m c, (∀ v ∈ bad, 20 ≤ (f v).stage ∧ (f v).stage ≤ 1000 ∧ m ≤ (f v).stage ∧ ((f v).stage = m → (f v).cause = c)) →
      (∃ v ∈ bad, (f v).stage = m) → (∃ v ∈ bad, (f v).stage ≠ stageFault ∧ (f v).cause ≠ 9) →
      let first := bad.filter fun v => (f v).stage == m
      let depths := (pairs first).filterMap fun x => (s.view? s.issue.core x.1).map fun v => (x.1, v.th.depth + 1)
      s.eachLane k = ((good ++ bad.filter fun v => (f v).stage != m).foldl
        (fun u v => u.setStatus s.issue.core v.th.ident.tid (.held depths)) s).takeTrap s.issue.core (pairs first) s.mkRegs

/-- ERET (R30): out of a system handler the PC is %ktpc and S takes PS; out of a user handler the PC is %tpc and UH clears. Where the PC
is then behind the body of the innermost loop, the loop-end event follows, of every level that ends with it (R99). Outside a handler ERET traps with ILLEGAL, sub-cause
12. No register and no trap register changes. -/
def Obligations.TrapReturnRestores : Prop :=
  (∀ t : Thread,
    (t.modeS = true → t.eret.modeS = t.modePS ∧ t.eret.modeUH = t.modeUH) ∧
    (t.modeS = false → t.eret.modeUH = false ∧ t.eret.modeS = false) ∧
    t.eret.regs = t.regs ∧ t.eret.kt = t.kt ∧ t.eret.ut = t.ut ∧ t.eret.ctl.fpflags = t.ctl.fpflags ∧
    let back := if t.modeS then t.kt.pc else t.ut.pc
    (t.loopDepth = 0 → t.eret.pc = back) ∧
    ∀ n, t.loopDepth = n + 1 →
      (back ≠ (t.level n).stop + 4#64 → t.eret.pc = back ∧ t.eret.l0 = t.l0 ∧ t.eret.l1 = t.l1 ∧ t.eret.l2 = t.l2) ∧
      (back = (t.level n).stop + 4#64 → t.loopEnds t.eret n)) ∧
  ∀ s : State, s.run ≠ [] → (∀ v ∈ s.run, v.th.modeS = false ∧ v.th.modeUH = false) →
    exec .eret s = .next (s.trapped fun _ => trapOpen stageCard 1 12)

/-- TRAP n traps with cause 12 and sub-cause n, and BKPT with cause 8 (R357). In user mode SAVEFE, LOADFE and HALT trap with
PROT, sub-cause 3 and %taddr 0, and MFSR and MTSR of a number of 0x400 or more with %taddr the number (R19, R356). -/
def Obligations.SoftwareAndPrivilegeTraps : Prop :=
  (∀ (s : State) (n : N7), s.run ≠ [] →
    exec (.trap n) s = .next (s.trapped fun _ => trapOpen stageCard 12 n.toNat) ∧
    exec .bkpt s = .next (s.trapped fun _ => trapOpen stageCard 8 0)) ∧
  ∀ (s : State) (o : R2) (ab : RAB) (m : MfsrOp) (n : MtsrOp), s.run ≠ [] → (∀ v ∈ s.run, v.th.modeS = false) →
    let special := [0x400, 0x401, 0x402, 0x403, 0x404, 0x405, 0x406, 0x407, 0x408, 0x409, 0x410, 0x411, 0x412, 0x413, 0x414, 0x415, 0x416]
    let prot (a : W64) : View → Trap := fun _ => trapAt stageMode 6 3 a
    exec .halt s = .next (s.trapped (prot 0#64)) ∧
    ((∀ v ∈ s.run, v.th.fieldOk o.a 1 1 false = true ∧ v.th.fieldOk o.d 2 2 true = true) →
      exec (.savefe o) s = .next (s.trapped (prot 0#64))) ∧
    ((∀ v ∈ s.run, v.th.fieldOk ab.a 1 1 false = true ∧ v.th.fieldOk ab.b 2 2 false = true) →
      exec (.loadfe ab) s = .next (s.trapped (prot 0#64))) ∧
    (m.n.toNat ∈ special →
      (∀ v ∈ s.run, v.th.fieldOk m.d 2 2 true = true ∧ v.th.fieldOk m.d 1 1 true = true) →
      exec (.mfsr m) s = .next (s.trapped (prot (BitVec.ofNat 64 m.n.toNat)))) ∧
    (n.n.toNat ∈ special →
      (∀ v ∈ s.run, v.th.fieldOk n.a 2 2 false = true ∧ v.th.fieldOk n.a 1 1 false = true) →
      exec (.mtsr n) s = .next (s.trapped (prot (BitVec.ofNat 64 n.n.toNat))))

/-- An access of LD, ST, LDF, STF or an atomic at an address that is not canonical traps with PROT, sub-cause 0, and one at no multiple of
its size with MISALIGN, each with %taddr the address (R9, R24, R233, R234, R238), with and without an X word. An affine access whose
index or offset is out of range traps with PROT, sub-cause 1, and one at no multiple of its size with MISALIGN (R213). -/
def Obligations.AddressTraps : Prop :=
  ∀ (s : State) (o : M2) (l : L2) (p : R3) (j : RJ) (x : BitVec 26), s.run ≠ [] →
    (∀ r ∈ loadAccesses o l x ++ storeAccesses o l x ++
        atomAccesses (atomRows.filter fun r => !((s.crew?.map (·.replay)).getD false && r.2.ordered)) p,
      (∀ v ∈ s.run, r.2.1.verdict v = .ok) →
      ((∀ v ∈ s.run, canonical (r.2.2 v).va = false) → exec r.1 s = .next (s.trapped fun v => trapAt stageCanon 6 0 (r.2.2 v).va)) ∧
      ((∀ v ∈ s.run, canonical (r.2.2 v).va = true ∧ (r.2.2 v).va.toNat % (r.2.2 v).n ≠ 0) →
        exec r.1 s = .next (s.trapped fun v => trapAt stageAlign 4 0 (r.2.2 v).va))) ∧
    let rec' := s.affRec j.j.toNat
    let off (v : View) : Int := rec'.offset (v.rd32 j.a)
    let inside (v : View) : Prop := ∀ q < 4, affIndex (v.rd32 j.a) q < rec'.extent q
    let pad := (s.crew?.map (·.pad)).getD 0
    let load (n : Nat) : Opnds := { srcs := [.r j.a j.f], dsts := [⟨j.d, n / 4⟩] }
    let store (n : Nat) : Opnds := { srcs := [.r j.a j.f, ⟨j.d, n / 4, n / 4, false⟩] }
    ∀ i n, ∀ opn : Opnds, (i, n, opn) ∈ [(Instr.lda32 j, 4, load 4), (.lda64 j, 8, load 8), (.sta32 j, 4, store 4), (.sta64 j, 8, store 8)] →
      (∀ v ∈ s.run, opn.verdict v = .ok) →
      ((∀ v ∈ s.run, ¬ inside v) → exec i s = .next (s.trapped fun _ => trapAt stageAffIndex 6 1 (padAddr rec'.base))) ∧
      ((∀ v ∈ s.run, inside v ∧ (off v < 0 ∨ pad * 128 < off v + n)) →
        exec i s = .next (s.trapped fun v => trapAt stageAffRange 6 1 (padAddr (off v)))) ∧
      ((∀ v ∈ s.run, inside v ∧ 0 ≤ off v ∧ off v + n ≤ pad * 128 ∧ off v % n ≠ 0) →
        exec i s = .next (s.trapped fun v => trapAt stageAffAlign 4 0 (padAddr (off v))))

/-! ### Commands of the engines (R248 to R341, R400 to R404) -/

/-- Every command issues where the register checks and waits of its lanes pass, its card's checks pass, and its queue and the
scoreboard have room: it enters the queue, and the lanes of the run complete (R250, R251, R273, R274). NE.EVAL, NE.EVALG and NE.BWD
hand every lane's row to the Carafe where every lane passes its checks and waits (R299, R304, R305). -/
def Obligations.CommandsIssue : Prop :=
  ∀ (s : State) (o : R2) (d : RD), commandsIssue s (copyRows o s) ∧ commandsIssue s (matrixRows o s) ∧
    commandsIssue s (tableRows o d s) ∧ commandsIssue s (physicsRows o d s) ∧
    ∀ (k : NetOp) (i : R2 → Instr), (k, i) ∈ [(NetOp.eval, Instr.neEval), (.evalg, .neEvalg), (.bwd, .neBwd)] →
      s.evaluates k o → exec (i o) s = .next (s.evaluated k o)

/-- A command that issues stands last in its queue, with its words, its context and the engine's sequence number; no other command
of the queue changes (R250, R274). A matrix queue takes the tiles of the Carafe before it whose launch is due (R299). -/
def Obligations.IssuedCommandStandsInItsQueue : Prop :=
  ∀ (s : State) (core : Nat) (o : R2) (x : CmdCtx) (words : List W32) (d : Draft),
    engSect d.ref.eng < (s.coreAt d.ref.core).sects.length → s.terms = [] →
    ∃ (l : List Cmd) (c : Cmd), (s.accept core o x words d).queueOf d.ref = s.queueOf d.ref ++ l ++ [c] ∧
      (∀ y ∈ l, y.op.isTile = true) ∧ ((∀ k ∈ (s.coreAt core).tiles, k.due (s.coreAt core).cycle = false) → l = []) ∧
      c.op = d.op ∧ c.ctx = x ∧ c.words = words ∧ c.seq = s.seqOf d.ref ∧ c.lines = d.lines ∧ c.count = 0 ∧ c.held = false

/-! ### Events of the cores -/

/-- A pending result whose value is known lands (R13, R69): its register is full and valid and holds its word with its mark, no
other register changes, its flags are set, and it is pending no longer; one that a line group brings waits for the group's reply
(R211). The report of a refused store that the thread has not fenced is kept until its next fence (R396). -/
def Obligations.ResultsLand : Prop :=
  (∀ (s : State) (who : ThreadRef) (idx : Nat) (v : View) (p : Pending), s.view? who.core who.tid = some v →
    v.th.pending[idx]? = some p → p.ready = true → (s.coreAt who.core).awaitsReply who.tid p.id = false →
    exec (.resultLands who idx) s = .next (s.onThread who.core who.tid fun v => v.land p)) ∧
  (∀ (v : View) (p : Pending) (n : Nat) (x : W32), p.dst = [.phys n] → p.vals = some [x] → n < v.th.regs.length →
    (v.land p).th.regs[n]? = some { val := x, full := true, valid := true, mark := p.mark } ∧
    (∀ m, m ≠ n → (v.land p).th.regs[m]? = v.th.regs[m]?) ∧ (v.land p).k = v.k ∧
    (v.land p).th.ctl.fpflags = v.th.ctl.fpflags ||| p.flags ∧ ∀ q ∈ (v.land p).th.pending, q.id ≠ p.id) ∧
  ∀ (s : State) (who : ThreadRef) (addr : W64) (v : View), s.view? who.core who.tid = some v → addr ∈ v.th.far →
    ∃ t, exec (.storeRefusalReport who addr) s = .next t ∧ t.view? who.core who.tid =
      some ⟨{ v.th with refused := some (v.th.refused.getD addr) }, v.k⟩

/-- A line group that is due leaves for its home: over the crossbar while its cell holds the lantern of the home channel, over the bridge
when the home is on the other die, as a renewal on the mesh (the model's choice, log entry 18), or by the fabric to another device (R203, R208, R211, R214, R391,
R396). The home performs its next requests, a block of loads together (the model's reading, log entry 12), with the loads that must come with them at one time
(R220; the model's reading, log entry 13), once every packet that its cell sent before to that channel and that could be taken is taken (R215); or it refuses the
group, for want of bypass entries (R207; the model's choice, log entry 15); a refused group
waits 16 × 2^min(k-1, 6) control cycles before its k-th retry, which %nack counts and which leaves as any other (R208); when nothing is
left its reply comes, and lands (R203); and an L1 of 2,048 lines takes no more (R202). -/
def Obligations.LineGroupsTravel : Prop :=
  (∀ (s : State) (core grp : Nat) (g : Group), (s.coreAt core).groupAt grp = some g →
    (g.phase = .gathering → s.due core grp g = true → s.clear core g = true →
      (∀ d, s.way core g = .fabric d → ∃ t, exec (.lineGroupSend core grp) s = .next t ∧
        (t.coreAt core).coll = (s.coreAt core).coll.eraseIdx grp) ∧
      ((∀ d, s.way core g ≠ .fabric d) → ∃ t, exec (.lineGroupSend core grp) s = .next t ∧
        (t.coreAt core).groupAt grp = some { g with phase := .sent s.serial } ∧
        (∀ k, s.way core g = .crossbar k → t.bridge = s.bridge ∧ (t.lanternAt k).used = (s.lanternAt k).used + 1) ∧
        (s.way core g = .bridge → t.bridge = s.bridge ++ [{ load := .packet core g.id, die := g.homeDie core, attempts := 0 }]))) ∧
    (g.near core = false → s.passesEarlier core [g] = true → exec (.lineGroupAtHome core grp) s = .next s) ∧
    (∀ r l, g.block = r :: l → r.isLdf = false → s.arrived core g = true → g.near core = true ∨ s.passesEarlier core [g] = false →
      s.turnedAway g = false → s.along core [g] 64 = some [g] →
      ∃ t c d n, exec (.lineGroupAtHome core grp) s = .next t ∧ (t.coreAt core).groupAt grp =
        some (if g.left = g.block then
            { g with done := g.done + g.block.length, copy := c, nth := n, phase := .replied c (g.reqs.any Req.isLoad) d }
          else { g with done := g.done + g.block.length, copy := c })) ∧
    (∀ l, s.arrived core g = true → g.near core = true ∨ s.passesEarlier core [g] = false → s.turnedAway g = false →
      s.along core [g] 64 = some l → s.passesEarlier core l = false →
      exec (.lineGroupAtHome core grp) s = .next (l.foldl (fun s x => s.atHome core x) (if l.length = 1 then s else s.oneTime core l))) ∧
    (s.arrived core g = true → g.near core = true ∨ s.passesEarlier core [g] = false → s.turnedAway g = true →
      ∃ t, exec (.lineGroupAtHome core grp) s = .next t ∧
        (t.coreAt core).groupAt grp = some { g with phase := .refused (g.tries + 1) }) ∧
    (∀ k, g.phase = .refused k → s.inFlight core g = false → ∃ t, exec (.negativeAcknowledgement core grp) s = .next t ∧
      (t.coreAt core).groupAt grp = some { g with phase := .waiting k (s.control + 16 * 2 ^ min (k - 1) 6) }) ∧
    (∀ k n, g.phase = .waiting k n → s.due core grp g = true → s.clear core g = true → (∀ d, s.way core g ≠ .fabric d) →
      n ≤ s.control ∧ ∃ t, exec (.nackRetry core grp) s = .next t ∧
      (t.coreAt core).groupAt grp = some { g with phase := .sent s.serial, tries := k } ∧
      ∀ r v, g.reqs = [r] → s.view? core r.tid = some v → ∃ w, t.view? core r.tid = some w ∧
        w.th.ctl.nack = if v.th.ctl.nack = BitVec.allOnes 32 then v.th.ctl.nack else v.th.ctl.nack + 1#32) ∧
    ∀ copy load data, g.phase = .replied copy load data → s.mayLand core g data = true →
      let u := if data then (s.dropGroup core grp).onCell (cellOf core) fun c => { c with recvAt := s.control + 1 } else s.dropGroup core grp
      exec (.lineGroupReply core grp) s =
        .next (((match copy with
          | none => u
          | some x => u.onCore core fun c => c.replied (Config.freeWord [38, s.free]).toNat load x).landReqs core g.reqs).settleEnd core)) ∧
  ∀ (c : Core) (n : Nat) (x : Line), c.l1.length ≤ 2048 → (c.install n x).l1.length ≤ 2048

/-- At the home of a line of flat memory, where no replay term is held and nothing must be performed with it or before it: a load is bound to
the bytes that stand there, and a store that writes no entry of a page table in use writes the register's bytes, least significant
first, and no other byte of flat memory (R25, R203, R221, R235). An atomic, whose operands have its size, is bound to the old value, and
writes the value of the table of R239, or nothing where its compare fails (R224, R238). Memory has its canonical form
(`MemoryStaysCanonical`). -/
def Obligations.HomePerformsAccesses : Prop :=
  ∀ (s : State) (core grp : Nat) (g : Group) (r : Req) (a : Nat), (s.coreAt core).groupAt grp = some g → g.reqs = [r] → g.done = 0 →
    r.loc = .mem a → s.terms = [] → s.arrived core g = true → s.passesEarlier core [g] = false →
    s.turnedAway g = false → s.along core [g] 64 = some [g] →
    (∀ sz id v, r.op = .load sz → r.pend = some id → s.spoiled r.loc r.n = false → s.view? core r.tid = some v →
      ∃ t w, exec (.lineGroupAtHome core grp) s = .next t ∧ t.mem = s.mem ∧
        t.view? core r.tid = some w ∧
        w.th.pending = v.th.pending.map fun p => if p.id = id then { p with vals := some (loadWords sz (s.rd r.loc r.n)) } else p) ∧
    (∀ op (y e : W64) id v, r.op = .rmw op y e → r.n = op.size → y.toNat < 2 ^ (8 * r.n) → e.toNat < 2 ^ (8 * r.n) → r.pend = some id →
      s.spoiled r.loc r.n = false → s.view? core r.tid = some v → Memory.wf s.mem →
      let x := s.rd r.loc r.n
      ∃ t w, exec (.lineGroupAtHome core grp) s = .next t ∧ t.view? core r.tid = some w ∧
        (w.th.pending = v.th.pending.map fun p => if p.id = id then { p with vals := some (wordsOf (r.n / 4) x) } else p) ∧
        (atomicNew op x y.toNat e.toNat = none → t.mem = s.mem) ∧
        ∀ new, atomicNew op x y.toNat e.toNat = some new → s.plainStore a r.n new →
          (∀ i < r.n, memGet t.mem (a + i) = byteAt new i) ∧ ∀ b, b < a ∨ a + r.n ≤ b → memGet t.mem b = memGet s.mem b) ∧
    ∀ x, r.op = .store x → Memory.wf s.mem → s.plainStore a r.n x.toNat → ∃ t, exec (.lineGroupAtHome core grp) s = .next t ∧
      (∀ i < r.n, memGet t.mem (a + i) = byteAt x.toNat i) ∧ ∀ b, b < a ∨ a + r.n ≤ b → memGet t.mem b = memGet s.mem b

/-- A bypass entry is freed once its 64 cycles are over and its home has begun no group of its line that it has still to answer, and its
timestamp is kept (R207; the model's choice, log entry 15); every program timestamp rises by one
(R204); and a page walk that reads its own die alone, in no row under repair, ends for every thread of its die that joined it, with what
the tables give, the terms held for the entries settled first (R240), where the shared TLB of a slice holds no translation of the page (R364,
R390, R391). One that reads the other die crosses the bridge first. The 32 walks that a die has on their way at once, and the one transfer of
a walk that crosses, are the model's reading (log entry 10); which slice's shared TLB serves a page is its choice (log entry 92). -/
def Obligations.TimestampsAndWalks : Prop :=
  (∀ (s : State) (slice entry : Nat) (b : Bypass), (s.sliceAt slice).bypass[entry]? = some b → b.freeAt ≤ s.control → s.begun b.line = false →
    ∃ t, exec (.bypassEntryFree slice entry) s = .next t ∧ (t.sliceAt slice).bypass = (s.sliceAt slice).bypass.eraseIdx entry ∧
      b.rts ≤ (t.sliceAt slice).memTs ∧ (s.sliceAt slice).memTs ≤ (t.sliceAt slice).memTs ∧ ∀ x ∈ t.home, x.line ≠ b.line) ∧
  (∀ s : State, ∃ t, exec .ptsAdvance s = .next t ∧ ∀ i, (t.coreAt i).pts = (s.coreAt i).pts + 1) ∧
  ∀ (s : State) (n die page : Nat) (root : W64), s.walks[n]? = some (die, root, page) → n < 32 →
    (∀ a ∈ s.walkLoads die root page, s.underRepair (.mem a) = false) → (∀ b ∈ s.bridge, b.load ≠ .walk die root page) →
    ((∃ a ∈ s.walkLoads die root page, sliceOfPhys a / 80 ≠ die) → exec (.walkComplete n) s =
      .next { s with bridge := s.bridge ++ [{ load := .walk die root page, die := 1 - die, attempts := 0 }] }) ∧
    ((∀ a ∈ s.walkLoads die root page, sliceOfPhys a / 80 = die) →
      ∃ t f, exec (.walkComplete n) s = .next t ∧
        (∀ ten, (∀ c ∈ s.cores, c.ten = ten) →
          ((s.sliceAt (tlbSlice die page)).tlb.find? fun e => e.root == root && e.page == page) = none →
          f = ((s.walkLoads die root page).foldl (fun s a => s.settle (.mem a) 8) s).walk ten root (BitVec.ofNat 64 (page * 65536))) ∧
        ∀ i c x, (s.coreAt i).crew = some c → dieOfCore i = die → x ∈ c.threads →
        x.status = .parked (.walk root page) → (s.coreAt i).outstanding x.ident.tid = false →
        ∃ d, (t.coreAt i).crew = some d ∧
          { x with status := .runnable, walked := (page, f) :: x.walked } ∈ d.threads)

/-- The wires change timing alone: what each step writes is named, and nothing else of the device changes. A lantern passes to
the next of 81 stations when its holder has sent 2 packets or has none to send, one pass in a control cycle (R214). A message
that no earlier one of its routers stands before enters the next router, and a router sleeps after 512 idle cycles and wakes
(R216, R217). A unit draws a token and returns it, and the throttle lifts (R218). A transfer crosses the bridge, a packet where its
channel's lantern is at the bridge port and a reply where the port's receive channel is free, or is sent again, up to 16 times (R391 to R393). The 16th failure loses it: a record of kind 2
is written, a load's destinations bear a mark at which their reader takes MCHECK, and a command ends with STATUS 2 (R393; the model's reading, log
entry 16, says the rest). -/
def Obligations.WiresMove : Prop :=
  (∀ (s : State) (chan : Nat), chan < 160 → (s.lanternAt chan).since < s.control →
    2 ≤ (s.lanternAt chan).used ∨ s.demands chan (s.lanternAt chan).station = false →
    ∃ t, exec (.lanternPass chan) s = .next t ∧ { t with lantern := s.lantern } = s ∧
      t.lanternAt chan =
        { chan, station := ((s.lanternAt chan).station + 1) % 81, used := 0, since := max ((s.lanternAt chan).since + 1) (s.control - 162) } ∧
      ∀ c, c ≠ chan → t.lanternAt c = s.lanternAt c) ∧
  (∀ (s : State) (n r : Nat) (l : List Nat) (m : MeshMsg), s.msgs[n]? = some m → m.path = r :: l → m.ready ≤ s.control →
    s.routerOpen r = true → s.overtakes n m = false →
    ∃ t, exec (.meshHop n) s = .next t ∧ { t with msgs := s.msgs, routers := s.routers } = s ∧
      t.msgs = (if l = [] then s.msgs.eraseIdx n else s.msgs.set n { m with path := l, ready := s.control + 3 }) ∧
      (t.routerAt r).awake = true ∧ (t.routerAt r).last = s.control) ∧
  (∀ (s : State) (r : Nat), (s.routerAt r).awake = true → (s.routerAt r).last + 512 ≤ s.control →
    ∃ t, exec (.routerPowerDown r) s = .next t ∧ { t with routers := s.routers } = s ∧ (t.routerAt r).awake = false) ∧
  (∀ (s : State) (r : Nat), s.settled r = true → (s.routerAt r).awake = false → (s.routerAt r).wakeAt ≠ 0 →
    (s.routerAt r).wakeAt ≤ s.control →
    ∃ t, exec (.routerWake r) s = .next t ∧ { t with routers := s.routers } = s ∧ (t.routerAt r).awake = true) ∧
  (∀ (s : State) (die unit : Nat),
    ((s.dieAt die).tokens ≠ 0 → unit ∈ (s.dieAt die).waiting →
      ∃ t, exec (.tokenGrant die unit) s = .next t ∧ { t with dies := s.dies } = s ∧
        (t.dieAt die).tokens + 1 = (s.dieAt die).tokens ∧ unit ∉ (t.dieAt die).waiting ∧ unit ∈ (t.dieAt die).settling) ∧
    (unit ∉ (s.dieAt die).waiting → unit ∈ (s.dieAt die).settling →
      ∃ t, exec (.tokenGrant die unit) s = .next t ∧ { t with dies := s.dies, routers := s.routers } = s ∧
        (t.dieAt die).tokens = (s.dieAt die).tokens + 1 ∧ unit ∉ (t.dieAt die).settling ∧
        (unit < 80 → (t.routerAt (80 * die + unit)).awake = true))) ∧
  (∀ (s : State) (die : Nat), s.overClaim die = false →
    ∃ t, exec (.throttleLift die) s = .next t ∧ { t with dies := s.dies } = s ∧ (t.dieAt die).throttle = false ∧
      t.throttled die = false) ∧
  (∀ (s : State) (n : Nat) (b : Crossing), s.bridge[n]? = some b →
    let u : State := { s with bridge := s.bridge.eraseIdx n }
    (s.queuedBehind n b = false →
      (∀ k, s.crossChan b = some k → s.holds k 80 = true →
        ∃ t, exec (.bridgeTransfer n) s = .next t ∧ { t with lantern := s.lantern } = u ∧
          (t.lanternAt k).used = (s.lanternAt k).used + 1) ∧
      (∀ core id, b.load = .packet core id → s.crossChan b = none → (s.dieAt (1 - b.die)).recvAt ≤ s.control →
        ∃ t, exec (.bridgeTransfer n) s = .next t ∧ { t with dies := s.dies, cores := s.cores, serial := s.serial } = u ∧
          (t.dieAt (1 - b.die)).recvAt = s.control + 1 ∧ (∀ i, i ≠ core → t.coreAt i = s.coreAt i) ∧
          t.coreAt core = { s.coreAt core with coll := (s.coreAt core).coll.map fun g => if g.id = id then { g with nth := s.serial } else g }) ∧
      (∀ core va, b.load = .access core va → exec (.bridgeTransfer n) s = .next (u.accessCrossed core va false)) ∧
      (∀ die root page, b.load = .walk die root page → exec (.bridgeTransfer n) s = .next (u.endWalk die root page false)) ∧
      ((∀ core id, b.load ≠ .packet core id) → (∀ die root page, b.load ≠ .walk die root page) → (∀ core va, b.load ≠ .access core va) →
        exec (.bridgeTransfer n) s = .next u)) ∧
    (b.attempts + 1 < 16 → exec (.bridgeCrcFail n) s =
      .next { s with bridge := s.bridge.set n { b with attempts := b.attempts + 1 } }) ∧
    (16 ≤ b.attempts + 1 →
      (∀ core id g, b.load = .packet core id ∨ (∃ x y, b.load = .mesh x y (some (core, id))) →
        ((s.coreAt core).coll.find? fun x => x.id == id) = some g →
        exec (.bridgeCrcFail n) s = .next ((((u.sump 2 (dieOfCore core) (s.coreAt core).ten core 1
          ((g.reqs.head?.map fun r => r.va).getD 0#64) 1#64).endGroup core g.id).loseGroup core g).settleEnd core)) ∧
      (∀ r id va, b.load = .cmd r id va → ∃ t, exec (.bridgeCrcFail n) s = .next t ∧
        (t.aon.sump.getLast?.map fun x => (x.kind, x.a)) = some (2, va) ∧
        t.queueOf r = (s.queueOf r).map fun c => if c.id = id then { c with lost := true } else c) ∧
      ((∃ x y, b.load = .mesh x y none) ∨ (∃ die root page, b.load = .walk die root page) ∨ (∃ ten q seq, b.load = .cp ten q seq) ∨
          (∃ core va, b.load = .access core va) →
        ∃ t, exec (.bridgeCrcFail n) s = .next t ∧ (t.aon.sump.getLast?.map fun x => x.kind) = some 2))) ∧
  (∀ (s : State) (core id : Nat) (g : Group) (r : Req) (v : View) (p : Pending), g.reqs = [r] → g.done = 0 → r.isLoad = true →
    r.pend = some id → s.view? core r.tid = some v → (v.th.pending.find? fun p => p.id == id) = some p →
    (∃ w, (s.loseGroup core g).view? core r.tid = some w ∧
      w.th = (v.land { p with vals := some (p.dst.map fun d => (v.get d).val), mark := .load r.va }).th) ∧
    ∀ f, ∃ x, (Mark.load r.va).trap f = some x ∧ x.cause = 9 ∧ x.sub = 1 ∧ x.addr = some r.va) ∧
  ∀ (s : State) (r : EngRef) (c : Cmd), c.lost = true → c.op ≠ .tdBwd →
    ∃ n, s.complete r c = (s.settleTables c.ctx.ptbase).finishCmd r c n 2

/-- An issue cycle of a section fills at most two slots, each with a run of that section (R140), and one of the front end at
most one (R145), at 600 MHz while firmware holds the core (R144); the starvation timer forces the anchor's run (R141); a YIELD's
deferral ends (R166); the governor decides on a step at the end of a window (R144), which the core's next issue cycle takes, GOVHOLD counting from that
cycle on (the model's choice, log entry 66); and a full or timed-out bin forms a gang whose threads start at its entry
(R150, R151). -/
def Obligations.IssueCycles : Prop :=
  (∀ (s : State) (core sect : Nat) (c : Crew), sect < 4 →
    let u := (if sect = 0 then s.governed core else s).rouse core
    (u.coreAt core).crew = some c → (u.coreAt core).sects.length = 4 → ∃ t l, exec (.sectionIssue core sect) s = .next t ∧
      t.slots = u.slots ++ l ∧ l.length ≤ 2 ∧ (∀ x ∈ l, x.core = core ∧ x.sfe = false ∧ x.sect = sect) ∧
      ((t.coreAt core).sectAt sect).cycle = ((u.coreAt core).sectAt sect).cycle + 1) ∧
  (∀ (s : State) (core : Nat) (c : Crew), ((s.rouse core).coreAt core).crew = some c →
    ∃ t l, exec (.sectionIssue core 4) s = .next t ∧ t.slots = (s.rouse core).slots ++ l ∧ l.length ≤ 1 ∧
      ∀ x ∈ l, x.core = core ∧ x.sfe = true ∧ c.sfe.status = .runnable) ∧
  (∀ (s : State) (core : Nat), s.govHeld core = true → ((s.governed core).coreAt core).gov = 0) ∧
  (∀ (s : State) (core sect : Nat), sect < 4 → (s.coreAt core).sects.length = 4 → 1023 ≤ ((s.coreAt core).sectAt sect).timer →
    ∃ t, exec (.forcedRun core sect) s = .next t ∧
      ((t.coreAt core).sectAt sect).forced = ((s.coreAt core).sectAt sect).anchor) ∧
  (∀ (s : State) (core sect slot : Nat), ∃ t, exec (.yieldDeferralEnd core sect slot) s = .next t ∧
    ∀ c, (t.coreAt core).crew = some c → ∀ g ∈ c.gangs, g.sect = sect → g.slot = slot → ∀ m n, g.defer = some (m, n) →
      ((s.coreAt core).sectAt sect).cycle < n) ∧
  (∀ (s : State) (core : Nat), 16384 ≤ (s.coreAt core).govWin → (s.coreAt core).gov ≤ 4 →
    ∃ t g, exec (.governorWindow core) s = .next t ∧ (t.coreAt core).govWin = 0 ∧ (t.coreAt core).govGate = 0 ∧
      (t.coreAt core).gov = (s.coreAt core).gov ∧ (t.coreAt core).govNext = some g ∧ g ≤ 4 ∧ (s.govHeld core = true → g = 0) ∧
      (s.govHeld core = false → g ≤ (s.coreAt core).gov + 1 ∧ (s.coreAt core).gov ≤ g + 1)) ∧
  (∀ (s : State) (core g : Nat), (s.coreAt core).govWin < 16384 → s.govHeld core = false → (s.coreAt core).govNext = some g →
    ((s.governed core).coreAt core).gov = g ∧ ((s.governed core).coreAt core).govNext = none) ∧
  ∀ (s : State) (core i sect slot : Nat) (c : Crew) (k : Task) (b : Bin), (s.coreAt core).crew = some c →
    s.task? c.ten c.task = some k → c.bins.getD i none = some b → c.slotForBin = some (sect, slot) → c.gathering = false →
    c.preempt = none → b.threads ≠ [] → (32 ≤ b.threads.length ∨ b.timer = 0) →
    ∃ t d l, exec (.gangFormation core i) s = .next t ∧ (t.coreAt core).crew = some d ∧ d.threads = c.threads ++ l ∧
      d.bins = c.bins.set i none ∧ l.length = b.threads.length ∧
      ∀ x ∈ l, x.pc = b.entry ∧ x.place.sect = sect ∧ x.place.slot = slot ∧ x.status = .runnable

/-- The cell schedulers (R187 to R193, R395): a free core goes to the stage or the task chosen; a thief asks the next victim,
takes what it ships, a cell's units at its own cell and a stack unit as its domain deals it, and after a round of refusals
waits, unless it has found work meanwhile; a member's announcement is kept, and with all of them the crews start. -/
def Obligations.SchedulersAct : Prop :=
  (∀ (s : State) (cell : Nat), let frees := [2 * cell, 2 * cell + 1].filter fun c => (s.coreAt c).crew.isNone
    frees ≠ [] →
    let stage := frees.findSome? fun c => (s.barista c none).map fun k => (c, k)
    (∀ k h, stage = none ∨ (∃ x ∈ stage, topPri (s.stageTasks x.1) < topPri (s.topTasks cell)) → s.choose cell = some (k, h) →
      exec (.crewDispatch cell) s = .next ((s.startChosen cell k h).foundWork cell)) ∧
    ∀ core k, stage = some (core, k) → topPri (s.topTasks cell) ≤ topPri (s.stageTasks core) →
      exec (.crewDispatch cell) s = .next ((s.runStage core k none).foundWork cell)) ∧
  (∀ (s : State) (core ten id no : Nat) (k : Task), s.task? ten id = some k →
    ((s.startCrew core ten id no).coreAt core).crew = some (k.crewAt (s.tenAt ten) no (s.coreAt core).cycle) ∧
    ∃ k', (s.startCrew core ten id no).task? ten id = some k' ∧ k'.started = k.started ++ [no]) ∧
  (∀ (s : State) (thief victim : Nat), s.wantsWork thief = true → (s.victims thief)[(s.cellAt thief).asked]? = some victim →
    ∃ t, exec (.stealRequest thief victim) s = .next t ∧ (t.cellAt thief).asking = some victim ∧
      (s.shipTask victim = none → (t.cellAt thief).shipped = none ∧ t.tasks = s.tasks) ∧
      ∀ k, s.shipTask victim = some k → (t.cellAt thief).shipped = some (k.id, s.shipOf k victim)) ∧
  (∀ (s : State) (thief v : Nat), (s.cellAt thief).asking = some v → ∃ t, exec (.stealAnswer thief) s = .next t ∧
    (t.cellAt thief).asking = none ∧ (t.cellAt thief).shipped = none ∧
    ((s.cellAt thief).shipped = none → s.idleCell thief = true → (s.cellAt thief).found = false →
      (t.cellAt thief).asked = (s.cellAt thief).asked + 1) ∧
    ((s.cellAt thief).shipped = none → s.idleCell thief = false ∨ (s.cellAt thief).found = true → (t.cellAt thief).asked = 0) ∧
    ∀ id l, (s.cellAt thief).shipped = some (id, l) → (t.cellAt thief).asked = 0 ∧
      ∀ k, s.task? ((s.tenOfStack (stackOfCell thief)).getD 0) id = some k →
        ∃ k', t.task? ((s.tenOfStack (stackOfCell thief)).getD 0) id = some k' ∧ k'.allots = k.allots ++
          (if v < 160 then l.map fun a => { a with stack := stackOfCell thief, cell := some thief }
           else (dealUnits (stackOfCell thief) (l.foldl (fun m a => max m a.hi) 0) 20 (((l.head?.map fun a => a.lo).getD 0) / 2)
             (s.dealPos (stackOfCell thief))).1)) ∧
  (∀ (s : State) (cell : Nat), (s.cellAt cell).roundAt ≠ 0 → (s.cellAt cell).roundAt ≤ s.control →
    ∃ t, exec (.stealRoundWait cell) s = .next t ∧ (t.cellAt cell).asked = 0 ∧ (t.cellAt cell).roundAt = 0) ∧
  (∀ (s : State) (ten id rank : Nat) (k : Task), s.task? ten id = some k →
    k.tcb.first ≤ rank → rank < k.tcb.first + k.tcb.group → rank ∉ k.announced →
    (rank = s.dev → s.canCostart k = true ∧ ∀ m ∈ s.members k, s.cutOff m = false) →
    ∃ t k', exec (.costartAnnounce ten id rank) s = .next t ∧ t.task? ten id = some k' ∧ k'.announced = k.announced ++ [rank]) ∧
  ∀ (s : State) (ten id : Nat) (k : Task), s.task? ten id = some k → s.canCostart k = true →
    (∀ r, k.tcb.first ≤ r → r < k.tcb.first + k.tcb.group → r ∈ k.announced) →
    exec (.costart ten id) s = .next (((s.unitsCores k k.allots).getD []).foldl
      (fun s x => (s.startCrew x.1 ten id x.2).foundWork (cellOf x.1)) s)

/-! ### Events of the engines (R199, R250, R266, R268, R275, R288, R299, R368, R381) -/

/-- What the engines do of themselves: a command that may run has its effect and completes, a copy delivers a line, fused commands
complete in order, a page that is missing holds a command and service is asked for at its address or refused (the model's reading, log entry 80), a stop holds an
engine at its oldest command or evaluation, in the step that stands for its naming too (the model's reading, log entry 79), and is released, tiles launch where
their queue has room (the model's, log entry 90) and deliver, over the bridge where their network is homed on the other die (R391), idle sub-arrays are
gated, and banks are exchanged. A CP.LIN between two ranges of the scratchpad leaves in the destination the bytes that its source held, and
every other byte of the scratchpad as it was (R258, R276); MM.I8 leaves in each accumulator word the sum, modulo 2^32, of the products of its
operands' signed bytes (R71, R262), with the old word where it accumulates. Both are said where the crew goes on, nothing is traced, and no error and no replay
term is held. -/
def Obligations.EnginesAct : Prop :=
  (∀ (s : State) (r : EngRef) (i : Nat) (c : Cmd), (s.queueOf r)[i]? = some c →
    (s.mayRun r i c = true → exec (.commandCompletion r i) s = .next (s.complete r c)) ∧
    (s.mayRun r i c = true → r.eng = .copy → ∀ l, exec (.lineDelivery r i l) s = .next (s.deliverCopy r c l)) ∧
    ∀ va, s.awaitsPage r i c = some va →
      (c.asked va = false → exec (.engineTranslationFault r i false) s =
        .next ((s.onCmd r c.id fun x => { x with held := true, wants := some va }).askPage c.ctx.ten va)) ∧
      (c.asked va = true → exec (.engineTranslationFault r i true) s = .next (s.denyPage r c va) ∧
        (c.op.isTile = false → ∃ d, (s.denyPage r c va).queueOf r = (s.queueOf r).map d ∧ d c = { c with refused := true }))) ∧
  (∀ (s : State) (r : EngRef), s.stopped r = false →
    (∀ c l, s.queueOf r = c :: l → s.isHead r c.seq = true → c.op.isTile = false → c.past = false →
      (∀ x ∈ s.queueOf r, x.begun = false ∧ s.crossing x = false) →
      exec (.stopHold r) s = .next ((s.onCmd r c.id fun x => { x with stop := true }).holdAt r c.seq c.ctx c.op.engNo)) ∧
    ∀ x, r.eng = .carafe → (∀ c ∈ (s.queueOf r).head?, c.op.isTile = true ∨ s.isHead r c.seq = false) → s.headRow r = some x →
      exec (.stopHold r) s = .next (s.holdAt r x.seq x.ctx 8)) ∧
  (∀ (s : State) (r : EngRef), ∃ t, exec (.stopRelease r) s = .next t ∧ ∀ x ∈ t.stops, x.1 ≠ engHome r) ∧
  (∀ (s : State) (core sect n : Nat), let l := (s.queueOf { core, eng := .matrix sect }).take n
    fusable l = true → (∀ c ∈ l, s.readsFree c (s.engReads c) = true) → s.stopped { core, eng := .matrix sect } = false →
    exec (.qmFusedPass core sect n) s = .next (l.zipIdx.foldl (fun s x => match x.1.op with
      | .qm f sel => s.completeQm { core, eng := .matrix sect } x.1 f sel x.2
      | _ => s) s)) ∧
  (∀ (s : State) (core sect sub : Nat), sect < (s.coreAt core).sects.length → sub < 4 → bitsOf (s.coreAt core).mgidle 15 0 ≠ 0 →
    bitsOf (s.coreAt core).mgidle 15 0 ≤ s.arith - ((s.coreAt core).sectAt sect).lastUse.getD sub 0 →
    ∃ t, exec (.subarrayGate core sect sub) s = .next t ∧ ((t.coreAt core).sectAt sect).awake.getLsbD sub = false) ∧
  (∀ (s : State) (core : Nat) (c : Cmd) (l : List Cmd), s.queueOf { core, eng := .table } = c :: l → c.op = .tbSwap →
    s.mayRun { core, eng := .table } 0 c = true →
    exec (.tableExchange core) s = .next (s.completeTbSwap { core, eng := .table } c)) ∧
  (∀ (s : State) (core i : Nat) (k : Tile), (s.coreAt core).tiles[i]? = some k → k.due (s.coreAt core).cycle = true →
    ((s.coreAt core).sectAt k.sect).mq.length - drawnPass ((s.coreAt core).sectAt k.sect).mq < 8 → k.sect < (s.coreAt core).sects.length →
    ∃ t c, exec (.tileLaunch core i) s = .next t ∧ (t.coreAt core).tiles = (s.coreAt core).tiles.eraseIdx i ∧
      ((t.coreAt core).sectAt k.sect).mq = ((s.coreAt core).sectAt k.sect).mq ++ [c] ∧
      c.op = .tile k.net k.handle k.bind k.bwd k.rows) ∧
  (∀ (s : State) (core sect : Nat) (c : Cmd) (l : List Cmd) (net : List W32) (h b : Nat) (bwd : Bool) (rows : List Row),
    ((s.coreAt core).sectAt sect).mq = c :: l → c.op = .tile net h b bwd rows →
    rows.flatMap (s.rowMisses (Net.of net) bwd) = [] → (∀ x ∈ rows, s.linesFree x.ord (s.rowReads (Net.of net) bwd x) = true) →
    s.stopped { core, eng := .carafe } = false → s.crossing c = false →
    (c.stage ≠ 0 ∨ s.farRow core (Net.of net) rows = none →
      exec (.tileDelivery core sect) s = .next (s.tileOut { core, eng := .matrix sect } c (Net.of net) h bwd rows)) ∧
    ∀ va, c.stage = 0 → s.farRow core (Net.of net) rows = some va → exec (.tileDelivery core sect) s =
      .next ((s.cross (.cmd { core, eng := .matrix sect } c.id va) (1 - dieOfCore core)).onCmd { core, eng := .matrix sect } c.id
        fun x => { x with stage := 1 })) ∧
  (∀ (s : State) (core : Nat) (c : Crew), (s.coreAt core).crew = some c → c.backs ≠ [] → c.backsFilled = true →
    s.settleHeld c = false → (∃ x ∈ c.all, ∃ n, x.status = .parked (.backward n)) →
    exec (.backwardSettle core) s = .next ((s.settleBacks core).onCore core fun k => k.onCrew fun c =>
      { c with rspill := if c.rspill = BitVec.allOnes 32 then c.rspill else c.rspill + 1#32 })) ∧
  ∀ (s : State) (c : Cmd) (k : Crew), (s.coreAt c.ctx.core).crew = some k → k.preempt = none → (∃ t ∈ k.threads, t.status = .runnable) →
    (s.tenAt c.ctx.ten).trace.on = false → c.lost = false → s.terms = [] → s.errs = [] →
    (∀ (r : EngRef) (src dst : Nat), c.op = .lin → c.done = [] → pairAt c.words 0 = padAddr dst → pairAt c.words 2 = padAddr src →
      let n := (wordAt c.words 4).toNat
      n % 16 = 0 → c.ctx.pad * 128 ≤ 2 ^ 32 → src + n ≤ c.ctx.pad * 128 → dst + n ≤ c.ctx.pad * 128 →
      (∀ i < n, (s.complete r c).rdByte (.pad c.ctx.core (dst + i)) = s.rdByte (.pad c.ctx.core (src + i))) ∧
      ∀ o, o < dst ∨ dst + n ≤ o → (s.complete r c).rdByte (.pad c.ctx.core o) = s.rdByte (.pad c.ctx.core o)) ∧
    ∀ sect, c.op = .mm .i8 → sect < (s.coreAt c.ctx.core).sects.length →
      let x := MmShape.of c.words
      let acc (u : State) (m n : Nat) : W32 := lookWord ((u.coreAt c.ctx.core).sectAt sect).acc (x.o + 128 * m + n)
      let elem (base row i : Nat) : Int := (BitVec.ofNat 8 (s.rd (.pad c.ctx.core (base + swizzle x.span 0 x.k row i)) 1)).toInt
      ∀ m < x.m, ∀ n < x.n, acc (s.complete { core := c.ctx.core, eng := .matrix sect } c) m n =
        BitVec.ofInt 32 ((if x.acc then ((acc s m n).toNat : Int) else 0) + ((List.range x.k).map fun i => elem x.a m i * elem x.b n i).sum)

/-! ### Pre-emption, repair, freeze and service (R367, R370 to R373, R389, R390, R411) -/

/-- A crew is pre-empted, and restarts when the choice of R189 or R193 for a free core of its cell falls on it (R373); a spare takes the place
of a core or a slice, which keeps its contents, and no crew of a tenancy that is being reset restarts there (R413); a row under
repair holds back the accesses to its lines, which are free like its die (the model's reading, log entry 25); a freeze stops the clocks, takes the links down, and
opens every unit and the Sump to the debug domain (the model's reading, log entry 113); and the service ring is forwarded and sent again. -/
def Obligations.PreemptionRepairAndService : Prop :=
  (∀ (s : State) (core sub : Nat) (save : W64), 1 ≤ sub → sub ≤ 3 → saveAreaOk save = true →
    exec (.preempt core sub save) s = .next (s.preemptCrew core sub save) ∧
    ∀ c, (s.coreAt core).crew = some c → c.preempt = none ∨ (sub = 3 ∧ ∃ n a, c.preempt = some (n, a) ∧ n ≠ 3) →
      ∃ d, ((s.preemptCrew core sub save).coreAt core).crew = some d ∧ d.preempt = some (sub, save)) ∧
  (∀ (s : State) (n core : Nat) (k : SavedCrew) (x : Task) (p : Pick), s.saved[n]? = some k → s.task? k.ten k.task = some x →
    s.pick (cellOf core) = some p → s.pickSaved (cellOf core) p = some (core, k) →
    let t := s.startPick (cellOf core) p
    exec (.crewRestore n core) s = .next t ∧ k ∉ t.saved ∧ ∃ d, (t.coreAt core).crew = some d ∧ d.task = x.id ∧ d.no = k.no) ∧
  (∀ (s : State) (core : Nat) (k : SavedCrew) (x : Task), s.task? k.ten k.task = some x → k ∉ (s.restoreCrew core k).saved ∧
    ∃ d, ((s.restoreCrew core k).coreAt core).crew = some d ∧ d.task = x.id ∧ d.no = k.no) ∧
  (∀ (s : State) (core : Nat) (save : W64) (x : Nat), firstSpare s.aon.spareCores 320 8 (dieOfCore core) = some x →
    ((s.coreAt core).crew = none → (s.saved.find? fun k => k.repair && k.core == core) = none →
      ∃ t, exec (.spareCoreRepair core save) s = .next t ∧ (t.coreAt core).phys = x ∧ (t.coreAt core).pad = (s.coreAt core).pad ∧
        (t.coreAt core).l1 = [] ∧ (t.coreAt core).tlb = [] ∧ x ∉ t.aon.spareCores) ∧
    (∀ k, (s.coreAt core).crew = none → (s.saved.find? fun k => k.repair && k.core == core) = some k → (s.tenAt k.ten).reset ≠ none →
      ∃ t, exec (.spareCoreRepair core save) s = .next t ∧ t.saved = s.saved ∧ (t.coreAt core).crew = none) ∧
    ((s.coreAt core).crew ≠ none → saveAreaOk save = true →
      exec (.spareCoreRepair core save) s = .next (s.preemptCrew core 2 save))) ∧
  (∀ (s : State) (k x : Nat), firstSpare s.aon.spareSlices 160 2 (k / 80) = some x →
    ∃ t, exec (.spareSliceRepair k) s = .next t ∧ t.sliceAt k = { s.sliceAt k with phys := x, id := k } ∧ x ∉ t.aon.spareSlices) ∧
  (∀ (s : State) (row : Nat), (∃ t, exec (.hbmRowRepair row false) s = .next t ∧ row ∈ t.rows) ∧
    (row ∈ s.rows → ∃ t, exec (.hbmRowRepair row true) s = .next t ∧ row ∉ t.rows ∧
      (t.aon.sump.getLast?.map fun r => (r.kind, r.die)) = some (7, rowDie row)) ∧
    ∀ core g, ∀ r ∈ g.block, ∀ a < 2 ^ 39, r.loc = .mem a → row ∈ s.rows →
      s.arrived core g = false ∨ rowDie row ≠ a / 2 ^ 38 ∨ Config.freeBool [26, row, a / 128] = false) ∧
  (∀ s : State, ∃ t, exec .frzN s = .next t ∧ t.aon.frozen = true ∧ t.clocksStand = true ∧ (∀ p ∈ t.ports, p.up = false) ∧
    (t.aon.sump.getLast?.map fun r => r.kind) = some 8 ∧ t.mem = s.mem ∧
    t.readSump = some t.aon.sump ∧ ∀ i, t.readCore i = some ((s.coreAt i).phys, i, s.coreAt i) ∧
      t.readSlice i = some ((s.sliceAt i).phys, i, s.sliceAt i, s.sliceBytes i, s.sliceLines i) ∧
      t.readCell i = some (i, i, s.cellAt i) ∧ t.readDie i = some (i, i, s.dieAt i, t.ports.filter fun p => p.id / 8 == i)) ∧
  (∀ (s u : State) (ten : Nat) (va : W64) (b : Nat), s.serviceSlot ten = some (u, va, b) → fieldAt b 0 4 ≠ 0 →
    ∃ t, exec (.serviceForward ten) s = .next t ∧ t.out = s.out ++ [serviceDatagram ten (bytesOf 64 b)] ∧
      (t.tenAt ten).svcHead = (s.tenAt ten).svcHead + 1) ∧
  ∀ (s : State) (ten i : Nat) (x : Service), (s.tenAt ten).service[i]? = some x → x.sentAt + 1800000 ≤ s.control →
    ∃ t, exec (.serviceResend ten i) s = .next t ∧ t.out = s.out ++ [serviceDatagram ten x.payload] ∧
      (t.tenAt ten).service[i]? = some { x with sentAt := s.control }

/-! ### Links and other devices (R396 to R399, R402) -/

/-- A link takes a good flit in sequence and acknowledges it, drops a duplicate, and answers each that fails with the first missing SEQ, which
the sender sends again before all else; acknowledgements clear the replay buffer; spares replace wavelengths that fail, then the spare of
its direction a fibre; a peer without a port is unreachable; and an access of another device is performed here, memory having its
canonical form, or refused without effect; it waits for the repair of a row (R390). What an acknowledgement's payload looks like is the
model's (log entry 78). -/
def Obligations.LinksAndRemoteAccesses : Prop :=
  (∀ (s : State) (n : Nat) (f : Flit), let p := s.portAt n
    p.up = true → ∀ k i, (k, i) ∈ [(1, Instr.flitData n f), (2, .flitAcknowledgement n f), (3, .flitNegativeAcknowledgement n f),
      (4, .flitReservation n f), (5, .flitControl n f)] → f.kind = k → ∃ t, exec i s = .next t ∧
      (f.crcOk = true → f.seq = p.rx → (∀ x ∈ p.held, x.seq ≠ p.rx + 1#24) →
        (t.portAt n).rx = p.rx + 1#24 ∧ (t.portAt n).got = p.got + 1 ∧
        (k = 2 → (t.portAt n).replay =
          p.replay.filter fun x => decide (x.seq ≠ flitNames f ∧ (x.seq - flitNames f).getLsbD 23 = false)) ∧
        (k = 3 → flitNames f ∈ (t.portAt n).resend) ∧ (k = 4 → f.res ∈ (t.portAt n).resv) ∧
        (k ≠ 2 → k ≠ 3 → ∀ d, p.peer = some d → ∃ x, (t.portAt n).out = p.out ++ [x] ∧ x.kind = 2 ∧ flitNames x = f.seq ∧ x.dst = d)) ∧
      (f.crcOk = true → (f.seq - p.rx).getLsbD 23 = true → t = s) ∧
      (f.crcOk = false ∨ (f.seq ≠ p.rx ∧ (f.seq - p.rx).getLsbD 23 = false) →
        (t.portAt n).rx = p.rx ∧ (t.portAt n).got = p.got ∧ (t.portAt n).nak = some p.rx ∧
        ∀ d, p.peer = some d → ∃ x, (t.portAt n).out = p.out ++ [x] ∧ x.kind = 3 ∧ flitNames x = p.rx ∧ x.dst = d)) ∧
  (∀ (p : Port) (q : BitVec 24) (l : List (BitVec 24)) (x : Flit) (claim : Bool), p.resend = q :: l →
    (p.replay.find? fun y => y.seq == q) = some x → claim = false ∨ x.kind ≠ 1 → p.nextFlit claim = some (x, true) ∧
      (p.emit (x, true)).wire = p.wire ++ [x] ∧ (p.emit (x, true)).again = p.again + 1 ∧ x.seq ∉ (p.emit (x, true)).resend) ∧
  (∀ (s : State) (n k w : Nat) (x : Fibre), (s.portAt n).fibres[k]? = some x → w < 34 → 0 < x.active → w ∉ x.retired →
    s.waveFails n k w = true →
    (0 < x.spares → ∃ t, exec (.wavelengthRetire n k w) s = .next t ∧
      (t.portAt n).fibres[k]? = some { x with spares := x.spares - 1, retired := x.retired ++ [w] } ∧
      (t.aon.sump.getLast?.map fun r => r.kind) = some 7) ∧
    (x.spares = 0 → ∃ t, exec (.wavelengthRetire n k w) s = .next t ∧
      (t.portAt n).fibres[k]? = some { x with active := x.active - 1, retired := x.retired ++ [w] })) ∧
  (∀ (s : State) (n k : Nat) (x : Fibre), (s.portAt n).fibres[k]? = some x → (s.portAt n).spareFor k = true → x.active < 32 →
    ∃ t, exec (.fibreFailover n k) s = .next t ∧ (t.portAt n).spareFor k = false ∧
      (t.portAt n).fibres[k]? = some { active := 32, spares := 2, onSpare := true }) ∧
  (∀ (s : State) (n rank : Nat), (s.portAt n).peer = some rank → (∀ p ∈ s.ports, p.id ≠ n → p.usable = true → p.peer ≠ some rank) →
    (s.ports.map fun p => p.id).Nodup → ∃ t, exec (.peerUnreachable n rank) s = .next t ∧ rank ∈ t.unreach ∧ (t.portAt n).up = false ∧
      t.cutOff rank = true) ∧
  (∀ (s : State) (n rank : Nat), ∃ t, exec (.linksComeUp n rank) s = .next t ∧ rank ∉ t.unreach ∧ (t.portAt n).up = true ∧
    (t.portAt n).peer = some rank ∧ (t.portAt n).tx = 0#24 ∧ (t.portAt n).rx = 0#24) ∧
  ∀ (s : State) (a : RemoteAccess), let addr := bytesOf 8 a.addr.toNat
    (s.remotePlace a = none → exec (.remoteDomainAccess a) s = .next (s.transmit 0 a.rank 5 0#64 [addr])) ∧
    ∀ l, s.remotePlace a = some l →
      if s.underRepair l then exec (.remoteDomainAccess a) s = .next { s with sched := s.sched ++ [(s.control + 1, .remoteDomainAccess a)] }
      else s.terms = [] →
      (∀ n, a.op = .load n → ∃ t, exec (.remoteDomainAccess a) s = .next t ∧ t.mem = s.mem ∧ t.cores = s.cores ∧
        t.ports = (s.transmit l.die a.rank 1 0#64 [addr ++ bytesOf n (s.rd l n)]).ports) ∧
      (∀ v x, a.op = .add v → l = .mem x → Memory.wf s.mem → s.plainStore x 8 ((s.rd (.mem x) 8 + v.toNat) % 2 ^ 64) →
        ∃ t, exec (.remoteDomainAccess a) s = .next t ∧ t.rd (.mem x) 8 = (s.rd (.mem x) 8 + v.toNat) % 2 ^ 64) ∧
      ∀ n v x, a.op = .store n v → l = .mem x → Memory.wf s.mem → s.plainStore x n v.toNat →
        ∃ t, exec (.remoteDomainAccess a) s = .next t ∧
        (∀ i < n, memGet t.mem (x + i) = byteAt v.toNat i) ∧ ∀ b, b < x ∨ x + n ≤ b → memGet t.mem b = memGet s.mem b

/-! ### The host's commands (R404 to R415) -/

/-- A sequenced command with SEQ = NEXT, in a queue and a journal with room, that passes its own checks is accepted (R405 to R407,
R409): NEXT rises, the command stands last in its queue, the ACK is sent, and a record of kind 4 is written. One that is ahead of
NEXT is answered with NACK 3 and NEXT. A SERVICE_REPLY ends the resending of the slots that it answers (R411). The checks of MAP and UNMAP are the model's reading (log
entry 61). -/
def Obligations.SequencedCommandsAreAccepted : Prop :=
  ∀ (s : State) (dg : Datagram), dgIntake dg dg.op.toNat = .handle → dg.len.toNat = dg.payload.length → dg.qid.toNat < 16 →
    dg.ten.toNat < 8 →
    let ten := dg.ten.toNat
    let q := dg.qid.toNat
    let next := ((s.tenAt ten).zq q).next
    let b := leNat dg.payload
    let stage := s.hostStage ten b
    let room := ((s.tenAt ten).zq q).live.length < 256 ∧ (s.tenAt ten).journalFull = false
    let cmds : List (Instr × Nat × Nat × Bool) := [(.mapCmd dg, 2, 17, mapBad dg 16), (.unmapCmd dg, 3, 9, mapBad dg 8),
      (.signalCmd dg, 4, 16, decide (dgField dg 0 8 % 8 ≠ 0)), (.waitCmd dg, 5, 16, decide (dgField dg 0 8 % 8 ≠ 0)),
      (.resetTenancy dg, 8, 16, s.resetBad dg)]
    (∀ c ∈ cmds, dg.op.toNat = c.2.1 → dg.payload.length = c.2.2.1 → dg.seq = next → room → c.2.2.2 = false →
      exec c.1 s = .next (s.accepted dg 0#32 0)) ∧
    (dg.op.toNat = 1 → dg.payload.length = 256 → dg.seq = next → room → s.tcbReason ten b stage = none →
      exec (.launchCmd dg) s = .next ((s.acceptTask ten b stage (some (q, dg.seq))).1.accepted dg
        (BitVec.ofNat 32 (s.tenAt ten).nextTask) (s.tenAt ten).nextTask)) ∧
    (dg.op.toNat = 10 → dg.payload.length = 16 → dg.seq = next → room → dgField dg 0 8 % 8 = 0 → exec (.serviceReply dg) s =
      .next ((s.onTen ten fun t => { t with service := t.service.filter fun x => x.reply.toNat != dgField dg 0 8 }).accepted dg 0#32 0)) ∧
    (∀ c ∈ cmds ++ [(.launchCmd dg, 1, 256, false), (.serviceReply dg, 10, 16, false)], dg.op.toNat = c.2.1 → dg.payload.length = c.2.2.1 →
      dg.seq ≠ next → (dg.seq - next).getLsbD 31 = false →
      ∃ t, exec c.1 s = .next t ∧ { t with out := s.out } = s ∧
        t.out = s.out ++ [{ op := dg.op.toNat % 128 + 128, ten, kind := 2, qid := q, seq := next, code := 3#32, payload := [] }]) ∧
    ∀ (result : W32) (task : Nat), q < (s.tenAt ten).zqs.length →
      let t := s.accepted dg result task
      ((t.tenAt ten).zq q).next = dg.seq + 1#32 ∧ (((t.tenAt ten).zq q).live.getLast?.map fun c => c.seq) = some dg.seq ∧
      t.out = s.out ++ [{ op := dg.op.toNat % 128 + 128, ten, kind := 1, qid := q, seq := dg.seq, code := result, payload := [] }] ∧
      (t.aon.sump.getLast?.map fun r => r.kind) = some 4 ∧ ((t.tenAt ten).journal.getLast?.map fun e => (e.seq, e.state)) = some (dg.seq, 1)

/-- An accepted command starts, unless a row under repair or an earlier reset keeps it waiting (R390, R413), SIGNAL adding to its word in memory of canonical form; a finished one leaves its queue with
DONE; and the journal's entries reach the mirror in turn (R405, R407, R409). -/
def Obligations.CommandsStartAndEnd : Prop :=
  ∀ (s : State) (ten q : Nat),
    (∀ c, ((s.tenAt ten).zq q).startable = some c → s.zParks ten c = false → ∃ t, exec (.zcpCommandStart ten q) s = .next t ∧
      ∀ x ∈ ((t.tenAt ten).zq q).live, x.seq = c.seq → x.started = true) ∧
    (∀ c a, ((s.tenAt ten).zq q).startable = some c → s.zParks ten c = false → c.op = 4 → s.terms = [] → Memory.wf s.mem →
      s.cpPlace ten (c.pair 0) true true false true = .ok (.mem a) →
      s.plainStore a 8 ((s.rd (.mem a) 8 + (c.pair 8).toNat) % 2 ^ 64) → ∃ t, exec (.zcpCommandStart ten q) s = .next t ∧
      t.rd (.mem a) 8 = (s.rd (.mem a) 8 + (c.pair 8).toNat) % 2 ^ 64) ∧
    (∀ c, (((s.tenAt ten).zq q).live.find? fun c => (s.doneCode ten q c).isSome) = some c → ∃ t, exec (.doneEvt ten q) s = .next t ∧
      (∀ x ∈ ((t.tenAt ten).zq q).live, x.seq ≠ c.seq) ∧
      t.out.getLast? = some
        { op := c.op + 128, ten, kind := 3, qid := q, seq := c.seq, code := (s.doneCode ten q c).getD 0#32, payload := [] }) ∧
    ∀ n r, (s.tenAt ten).dirty = n :: r → ∃ t, exec (.journalMirrorWrite ten) s = .next t ∧ (t.tenAt ten).dirty = r

/-- The unsequenced commands answer at once with their data (R405, R410, R412, R414, R415), a FREEZE stopping the clocks behind its
answer; an OP that no rule names is refused with NACK 2. The layouts of QUERY 0 to 3 are the model's (log entry 62). -/
def Obligations.UnsequencedCommandsAnswer : Prop :=
  ∀ (s : State) (dg : Datagram), dgIntake dg dg.op.toNat = .handle → dg.len.toNat = dg.payload.length →
    let sel := dgField dg 0 4
    let n := dg.payload.length
    (dg.op.toNat = 6 → n ≤ 68 →
      (sel = 0 → 4 ≤ n → ∃ p, exec (.queryDevice dg) s = .next (s.data dg p) ∧ p.length = 28) ∧
      (∀ k, sel = 1 → 8 ≤ n → s.task? dg.ten.toNat (dgField dg 4 4) = some k →
        exec (.queryProbes dg) s = .next (s.data dg (k.probes.flatMap fun x => bytesOf 8 x.toNat))) ∧
      (sel = 2 → 8 ≤ n → exec (.querySump dg) s = .next (s.data dg
        (((s.aon.sump.drop (dgField dg 4 4)).take 32).flatMap fun r => (r.seenBy dg.ten.toNat).bytes))) ∧
      (sel = 3 → 8 ≤ n → ∃ t, exec (.queryTrace dg) s = .next t ∧
        (t.tenAt dg.ten.toNat).trace.on = decide (dgField dg 4 4 ≠ 0) ∧ t.out.length = s.out.length + 1) ∧
      (sel = 4 → 36 ≤ n → s.aon.lms < 2 ^ 40 → ∃ t, exec (.queryAttest dg) s = .next t ∧ t.aon.lms = s.aon.lms + 1 ∧
        t.out.length = s.out.length + 1) ∧
      (sel = 4 → 36 ≤ n → 2 ^ 40 ≤ s.aon.lms → exec (.queryAttest dg) s = .next (s.nack dg 6))) ∧
    (dg.op.toNat = 7 → n = 12 → sel < 16 → 0 < dgField dg 8 4 → dgField dg 8 4 ≤ 32 → ∃ p,
      exec (.journalRead dg) s = .next (s.data dg p) ∧ p.take 4 = bytesOf 4 ((s.tenAt dg.ten.toNat).zq sel).next.toNat) ∧
    (dg.op.toNat = 9 → n = 0 → exec (.freezeCmd dg) s = .next (s.data dg []).freeze) ∧
    (dg.op.toNat = 0 ∨ 10 < dg.op.toNat → exec (.zcpOpNotNamed dg) s = .next (s.nack dg 2))

/-! ### Bulk data, resets, power and traces (R380, R388, R408, R416 to R418) -/

/-- RDMA reads and writes where a connection stands, the key and the pages allow it and no byte read is in error: a READ is
answered with the bytes that stand there, and a WRITE that is acknowledged has placed its bytes, the last where two fall on one
place, and no others, where no word is an entry of a page table in use; a wrong key is refused, and an invalid request ends the connection (R227, R408; the model's choice,
log entry 63). -/
def Obligations.BulkDataRequests : Prop :=
  ∀ (s : State) (rq : RdmaReq), (s.tenAt rq.ten).connUp rq.conn = true →
    (rq.key = (s.tenAt rq.ten).rdmaKey → s.terms = [] → ∀ l, s.rdmaBytes rq true false rq.len = some l →
      (∀ p ∈ l, s.underRepair p = false ∧ s.spoiled p 1 = false) →
      exec (.rdmaRead rq) s = .next (s.rdmaAnswer rq.ten rq.conn 4 (l.map s.rdByte))) ∧
    (rq.key = (s.tenAt rq.ten).rdmaKey → ∀ l, s.rdmaBytes rq false true rq.data.length = some l →
      (∀ p ∈ l, s.underRepair p = false) → ∃ t, exec (.rdmaWrite rq) s = .next t ∧ (t.out.getLast?.map fun r => (r.kind, r.qid)) = some (1, rq.conn) ∧
        (s.terms = [] → Memory.wf s.mem → (∀ a, Loc.mem a ∈ l → (s.rdmaPut (l.zip rq.data)).entryLevel (a / 8 * 8) = none) →
          (∀ (i a : Nat) (b : Byte), l[i]? = some (Loc.mem a) → rq.data[i]? = some b →
            (∀ j : Nat, i < j → l[j]? ≠ some (Loc.mem a)) → memGet t.mem a = b) ∧
          ∀ a, Loc.mem a ∉ l → memGet t.mem a = memGet s.mem a)) ∧
    (rq.key ≠ (s.tenAt rq.ten).rdmaKey → exec (.rdmaRead rq) s = .next (s.rdmaAnswer rq.ten rq.conn 2 []) ∧
      exec (.rdmaWrite rq) s = .next (s.rdmaAnswer rq.ten rq.conn 2 [])) ∧
    ∃ t, exec (.rdmaInvalidRequest rq.ten rq.conn) s = .next t ∧ (t.tenAt rq.ten).connUp rq.conn = false

/-- A cold reset leaves no crew, no task, no line group and no journal, and keeps the monotonic store; a warm reset keeps the
journals, every NEXT, the SEQs of the engines, after a freeze the memory of the stacks, and lets no timestamp fall; a spare keeps the place that it has taken (the model's reading, log entry 35); each is
recorded in the Sump with kind 3 (R388, R389, R416, R417). -/
def Obligations.ResetsKeepAndClear : Prop :=
  (∀ s : State, ∃ t, exec .coldReset s = .next t ∧ (∀ c ∈ t.cores, c.crew = none ∧ c.coll = [] ∧ c.l1 = []) ∧
    (∀ i, (t.coreAt i).phys = (s.coreAt i).phys ∧ (t.sliceAt i).phys = (s.sliceAt i).phys) ∧ t.aon.spareCores = s.aon.spareCores ∧
    t.tasks = [] ∧ t.slots = [] ∧ t.mem = [] ∧ t.home = [] ∧
    (∀ x ∈ t.tens, x.journal = [] ∧ ∀ z ∈ x.zqs, z.next = 0#32) ∧ t.aon.frozen = false ∧ t.aon.power = true ∧
    t.aon.lms = s.aon.lms ∧ t.aon.minVer = s.aon.minVer ∧ (t.aon.sump.getLast?.map fun r => r.kind) = some 3) ∧
  (∀ s : State, ∃ t, exec .warmReset s = .next t ∧ (∀ c ∈ t.cores, c.crew = none ∧ c.coll = [] ∧ c.l1 = []) ∧
    (∀ i, (t.coreAt i).seqs = (s.coreAt i).seqs ∧ (t.coreAt i).phys = (s.coreAt i).phys ∧ (t.sliceAt i).phys = (s.sliceAt i).phys) ∧
    t.aon.spareCores = s.aon.spareCores ∧ t.tasks = [] ∧ t.slots = [] ∧
    (t.tens.map fun x => (x.id, x.journal, x.zqs.map fun z => z.next)) =
      (s.tens.map fun x => (x.id, x.journal, x.zqs.map fun z => z.next)) ∧
    (s.aon.frozen = true → ∀ a < 2 ^ 39, memGet t.mem a = memGet s.mem a) ∧ (∀ i, (s.coreAt i).pts ≤ (t.coreAt i).pts) ∧
    (∀ i < 160, (s.sliceAt i).memTs ≤ (t.sliceAt i).memTs) ∧ t.farTs = s.farTs ∧ (∀ x ∈ s.home, 2 ^ 42 ≤ x.line → x ∈ t.home) ∧
    t.aon.frozen = false ∧ t.aon.power = true ∧ t.aon.lms = s.aon.lms ∧ (t.aon.sump.getLast?.map fun r => r.kind) = some 3) ∧
  (∀ s : State, ∃ t, exec .alwaysOnPowerLoss s = .next t ∧ t.aon.sump = [] ∧ (∀ x ∈ t.tens, x.journal = []) ∧ t.aon.power = false ∧
    t.aon.lms = s.aon.lms) ∧
  ∀ s : State, ∃ t, exec .lossOfPower s = .next t ∧ t.aon.power = false ∧ t.aon.sump = s.aon.sump ∧ t.tens = s.tens

/-- The events that are recorded: a thermal event steps the governors of its die down, each with its core's next cycle, a droop and the swap of a laser module
leave the rest as it is (R388, R418), a sample writes its trace record (R380), and a word that is no instruction, or a fetch
that all lanes of a run fail alike, traps the run (R26, R43). -/
def Obligations.RecordedEvents : Prop :=
  (∀ (s : State) (die : Nat), ∃ t, exec (.thermalEvent die) s = .next t ∧
    (∀ i, dieOfCore i = die → (t.coreAt i).gov = (s.coreAt i).gov ∧
      (t.coreAt i).govNext.getD (t.coreAt i).gov = (s.coreAt i).govNext.getD (s.coreAt i).gov - 1) ∧ (t.aon.sump.getLast?.map fun r => r.kind) = some 5) ∧
  (∀ (s : State) (die : Nat), ∃ t, exec (.voltageDroop die) s = .next t ∧ { t with aon := s.aon } = s ∧
    (t.aon.sump.getLast?.map fun r => (r.kind, r.die)) = some (6, die)) ∧
  (∀ (s : State) (m : Nat), ∃ t, exec (.laserModuleSwap m) s = .next t ∧ { t with aon := s.aon } = s ∧
    (t.aon.sump.getLast?.map fun r => r.kind) = some 7) ∧
  (∀ (s : State) (who : ThreadRef) (v : View), s.view? who.core who.tid = some v →
    ∃ r, r.kind = 1 ∧ r.pc = v.th.pc ∧ r.tid = who.tid ∧
      exec (.samplingEvt who none) s = .next (s.trace (s.coreAt who.core).ten r)) ∧
  (∀ (s : State) (sub : Nat) (raw : RawInstr), s.run ≠ [] → exec (.wordNotInstruction sub raw) s =
    .next (s.takeTrap s.issue.core (s.run.map fun v => (v.th.ident.tid, trapOpen 4 1 sub))
      fun t x mask => trapRegs x.cause x.sub t.pc mask (s.taddr t x) raw)) ∧
  ∀ (s : State) (f : View → Trap), s.allTrap (fun v => s.fetchVerdict s.issue.core v.th) f → (∀ v ∈ s.run, (f v).stage ≤ 1000) →
    exec .fetchTrap s = .next (s.takeTrap s.issue.core (s.run.map fun v => (v.th.ident.tid, f v)) (s.fetchRegs s.issue.core))

/-! ### An invariant of every step -/

/-- Every step keeps memory in its canonical form: addresses rise, and no byte that is listed is 0, which is what an address that is
not listed reads as. -/
def Obligations.MemoryStaysCanonical : Prop :=
  ∀ s t : State, Memory.wf s.mem → step s = .next t → Memory.wf t.mem
end

