-- ==== Sys2Proof/Laws/Encoding.lean ====
section
/-! SUPPORT. The fields of a packed word: each format's fields are read back as they were packed (R32), and the bytes of a
word are those of the word (R3). -/

namespace Sys2Proof.Laws
open Sys2Proof

theorem getLsbD_app {n m : Nat} (a : BitVec n) (b : BitVec m) (i : Nat) :
    BitVec.getLsbD (w := n + m) (a ++ b) i = if i < m then b.getLsbD i else a.getLsbD (i - m) := by
  simp [BitVec.getLsbD_append]

/-- The bits of a word of format R. -/
theorem getLsbD_packR (op : BitVec 6) (f g : Bool) (m : BitVec 3) (d a b : Fld) (i : Nat) :
    (packR op f g m d a b).getLsbD i =
      if i < 7 then b.getLsbD i else if i < 14 then a.getLsbD (i - 7) else if i < 21 then d.getLsbD (i - 14)
      else if i < 24 then m.getLsbD (i - 21) else if i < 25 then g else if i < 26 then f else op.getLsbD (i - 26) := by
  show BitVec.getLsbD (w := 6 + 1 + 1 + 3 + 7 + 7 + 7) (((((((op ++ BitVec.ofBool f) : BitVec (6 + 1)) ++ BitVec.ofBool g :
    BitVec (6 + 1 + 1)) ++ m : BitVec (6 + 1 + 1 + 3)) ++ d : BitVec (6 + 1 + 1 + 3 + 7)) ++ a :
    BitVec (6 + 1 + 1 + 3 + 7 + 7)) ++ b) i = _
  simp only [getLsbD_app, BitVec.getLsbD_ofBool]
  repeat' split
  all_goals first | omega | rfl | (congr 1; omega) | (simp; omega)

theorem getLsbD_packI (op : BitVec 6) (f : Bool) (d a : Fld) (k : BitVec 11) (i : Nat) :
    (packI op f d a k).getLsbD i =
      if i < 11 then k.getLsbD i else if i < 18 then a.getLsbD (i - 11) else if i < 25 then d.getLsbD (i - 18)
      else if i < 26 then f else op.getLsbD (i - 26) := by
  show BitVec.getLsbD (w := 6 + 1 + 7 + 7 + 11) (((((op ++ BitVec.ofBool f) : BitVec (6 + 1)) ++ d : BitVec (6 + 1 + 7)) ++ a :
    BitVec (6 + 1 + 7 + 7)) ++ k) i = _
  simp only [getLsbD_app, BitVec.getLsbD_ofBool]
  repeat' split
  all_goals first | omega | rfl | (congr 1; omega) | (simp; omega)

theorem getLsbD_packM (op : BitVec 6) (f : Bool) (z : BitVec 3) (d a : Fld) (k : BitVec 8) (i : Nat) :
    (packM op f z d a k).getLsbD i =
      if i < 8 then k.getLsbD i else if i < 15 then a.getLsbD (i - 8) else if i < 22 then d.getLsbD (i - 15)
      else if i < 25 then z.getLsbD (i - 22) else if i < 26 then f else op.getLsbD (i - 26) := by
  show BitVec.getLsbD (w := 6 + 1 + 3 + 7 + 7 + 8) ((((((op ++ BitVec.ofBool f) : BitVec (6 + 1)) ++ z : BitVec (6 + 1 + 3)) ++ d :
    BitVec (6 + 1 + 3 + 7)) ++ a : BitVec (6 + 1 + 3 + 7 + 7)) ++ k) i = _
  simp only [getLsbD_app, BitVec.getLsbD_ofBool]
  repeat' split
  all_goals first | omega | rfl | (congr 1; omega) | (simp; omega)

theorem getLsbD_packB (op : BitVec 6) (f : Bool) (c : BitVec 3) (a : Fld) (o : BitVec 15) (i : Nat) :
    (packB op f c a o).getLsbD i =
      if i < 15 then o.getLsbD i else if i < 22 then a.getLsbD (i - 15)
      else if i < 25 then c.getLsbD (i - 22) else if i < 26 then f else op.getLsbD (i - 26) := by
  show BitVec.getLsbD (w := 6 + 1 + 3 + 7 + 15) (((((op ++ BitVec.ofBool f) : BitVec (6 + 1)) ++ c : BitVec (6 + 1 + 3)) ++ a :
    BitVec (6 + 1 + 3 + 7)) ++ o) i = _
  simp only [getLsbD_app, BitVec.getLsbD_ofBool]
  repeat' split
  all_goals first | omega | rfl | (congr 1; omega) | (simp; omega)

theorem getLsbD_packJ (op : BitVec 6) (o : BitVec 26) (i : Nat) :
    (packJ op o).getLsbD i = if i < 26 then o.getLsbD i else op.getLsbD (i - 26) := by
  show BitVec.getLsbD (w := 6 + 26) (op ++ o) i = _
  simp only [getLsbD_app]

/-- A field is read back when each of its bits is. -/
theorem field_eq {n : Nat} (w : W32) (s : Nat) (x : BitVec n) (h : ∀ i, i < n → w.getLsbD (s + i) = x.getLsbD i) :
    w.extractLsb' s n = x := by
  apply BitVec.eq_of_getLsbD_eq
  intro i hi
  simp [hi, h i hi]

theorem opOf_packR (op : BitVec 6) (f g : Bool) (m : BitVec 3) (d a b : Fld) : opOf (packR op f g m d a b) = op := by
  refine field_eq _ _ _ fun i hi => ?_
  rw [getLsbD_packR]; repeat' split
  all_goals first | omega | (congr 1; omega)
theorem opOf_packI (op : BitVec 6) (f : Bool) (d a : Fld) (k : BitVec 11) : opOf (packI op f d a k) = op := by
  refine field_eq _ _ _ fun i hi => ?_
  rw [getLsbD_packI]; repeat' split
  all_goals first | omega | (congr 1; omega)
theorem opOf_packM (op : BitVec 6) (f : Bool) (z : BitVec 3) (d a : Fld) (k : BitVec 8) : opOf (packM op f z d a k) = op := by
  refine field_eq _ _ _ fun i hi => ?_
  rw [getLsbD_packM]; repeat' split
  all_goals first | omega | (congr 1; omega)
theorem opOf_packB (op : BitVec 6) (f : Bool) (c : BitVec 3) (a : Fld) (o : BitVec 15) : opOf (packB op f c a o) = op := by
  refine field_eq _ _ _ fun i hi => ?_
  rw [getLsbD_packB]; repeat' split
  all_goals first | omega | (congr 1; omega)
theorem opOf_packJ (op : BitVec 6) (o : BitVec 26) : opOf (packJ op o) = op := by
  refine field_eq _ _ _ fun i hi => ?_
  rw [getLsbD_packJ]; repeat' split
  all_goals first | omega | (congr 1; omega)

theorem rOf_packR (op : BitVec 6) (f g : Bool) (m : BitVec 3) (d a b : Fld) : rOf (packR op f g m d a b) = ⟨f, g, m, d, a, b⟩ := by
  simp only [rOf, RWord.mk.injEq]
  refine ⟨by rw [getLsbD_packR]; rfl, by rw [getLsbD_packR]; rfl, ?_, ?_, ?_, ?_⟩
  all_goals
    refine field_eq _ _ _ fun i hi => ?_
    rw [getLsbD_packR]; repeat' split
    all_goals first | omega | (congr 1; omega)
theorem iOf_packI (op : BitVec 6) (f : Bool) (d a : Fld) (k : BitVec 11) : iOf (packI op f d a k) = ⟨f, d, a, k⟩ := by
  simp only [iOf, IWord.mk.injEq]
  refine ⟨by rw [getLsbD_packI]; rfl, ?_, ?_, ?_⟩
  all_goals
    refine field_eq _ _ _ fun i hi => ?_
    rw [getLsbD_packI]; repeat' split
    all_goals first | omega | (congr 1; omega)
theorem mOf_packM (op : BitVec 6) (f : Bool) (z : BitVec 3) (d a : Fld) (k : BitVec 8) : mOf (packM op f z d a k) = ⟨f, z, d, a, k⟩ := by
  simp only [mOf, MWord.mk.injEq]
  refine ⟨by rw [getLsbD_packM]; rfl, ?_, ?_, ?_, ?_⟩
  all_goals
    refine field_eq _ _ _ fun i hi => ?_
    rw [getLsbD_packM]; repeat' split
    all_goals first | omega | (congr 1; omega)
theorem bOf_packB (op : BitVec 6) (f : Bool) (c : BitVec 3) (a : Fld) (o : BitVec 15) : bOf (packB op f c a o) = ⟨f, c, a, o⟩ := by
  simp only [bOf, BWord.mk.injEq]
  refine ⟨by rw [getLsbD_packB]; rfl, ?_, ?_, ?_⟩
  all_goals
    refine field_eq _ _ _ fun i hi => ?_
    rw [getLsbD_packB]; repeat' split
    all_goals first | omega | (congr 1; omega)
theorem joOf_packJ (op : BitVec 6) (o : BitVec 26) : joOf (packJ op o) = o := by
  refine field_eq _ _ _ fun i hi => ?_
  rw [getLsbD_packJ]; repeat' split
  all_goals first | omega | (congr 1; omega)

end Sys2Proof.Laws
end

