-- ==== Sys2Proof/Laws/State.lean ====
section
/-! SUPPORT. What each update of a record leaves in each of its fields, and reading a unit after an update of it or of another
unit. -/

namespace Sys2Proof.Machine
open Sys2Proof

/-! ### Units in a list, by number -/

theorem find_putBy_same {α : Type} (key : α → Nat) (x : α) (l : List α) :
    (putBy key x l).find? (fun c => key c == key x) = some x := by
  induction l with
  | nil => simp [putBy]
  | cons y r ih =>
    by_cases h : key y = key x
    · simp [putBy, h]
    · simp [putBy, h, ih]

theorem find_putBy_other {α : Type} (key : α → Nat) (x : α) (l : List α) (j : Nat) (h : j ≠ key x) :
    (putBy key x l).find? (fun c => key c == j) = l.find? (fun c => key c == j) := by
  induction l with
  | nil => simp [putBy, Ne.symm h]
  | cons y r ih =>
    by_cases hy : key y = key x
    · simp [putBy, hy, Ne.symm h]
    · by_cases hj : key y = j
      · simp [putBy, hj, h]
      · simp [putBy, hy, hj, ih]

@[simp] theorem State.coreAt_onCore (s : State) (i : Nat) (f : Core → Core) :
    (s.onCore i f).coreAt i = { f (s.coreAt i) with id := i } := by
  have h := find_putBy_same Core.id { f (s.coreAt i) with id := i } s.cores
  simp only [coreAt, onCore, putCore] at *
  rw [h]; rfl
theorem State.coreAt_onCore_other (s : State) (i j : Nat) (f : Core → Core) (h : j ≠ i) :
    (s.onCore i f).coreAt j = s.coreAt j := by
  have h' := find_putBy_other Core.id { f (s.coreAt i) with id := i } s.cores j h
  simp only [coreAt, onCore, putCore] at *
  rw [h']
@[simp] theorem State.cellAt_onCell (s : State) (i : Nat) (f : Cell → Cell) :
    (s.onCell i f).cellAt i = { f (s.cellAt i) with id := i } := by
  have h := find_putBy_same Cell.id { f (s.cellAt i) with id := i } s.cells
  simp only [cellAt, onCell] at *
  rw [h]; rfl
theorem State.cellAt_onCell_other (s : State) (i j : Nat) (f : Cell → Cell) (h : j ≠ i) :
    (s.onCell i f).cellAt j = s.cellAt j := by
  have h' := find_putBy_other Cell.id { f (s.cellAt i) with id := i } s.cells j h
  simp only [cellAt, onCell] at *
  rw [h']
@[simp] theorem State.tenAt_onTen (s : State) (i : Nat) (f : Tenancy → Tenancy) :
    (s.onTen i f).tenAt i = { f (s.tenAt i) with id := i } := by
  have h := find_putBy_same Tenancy.id { f (s.tenAt i) with id := i } s.tens
  simp only [tenAt, onTen] at *
  rw [h]; rfl
theorem State.tenAt_onTen_other (s : State) (i j : Nat) (f : Tenancy → Tenancy) (h : j ≠ i) :
    (s.onTen i f).tenAt j = s.tenAt j := by
  have h' := find_putBy_other Tenancy.id { f (s.tenAt i) with id := i } s.tens j h
  simp only [tenAt, onTen] at *
  rw [h']
@[simp] theorem State.sliceAt_onSlice (s : State) (i : Nat) (f : Slice → Slice) :
    (s.onSlice i f).sliceAt i = { f (s.sliceAt i) with id := i } := by
  have h := find_putBy_same Slice.id { f (s.sliceAt i) with id := i } s.slices
  simp only [sliceAt, onSlice] at *
  rw [h]; rfl
@[simp] theorem State.dieAt_onDie (s : State) (i : Nat) (f : Die → Die) :
    (s.onDie i f).dieAt i = { f (s.dieAt i) with id := i } := by
  have h := find_putBy_same Die.id { f (s.dieAt i) with id := i } s.dies
  simp only [dieAt, onDie] at *
  rw [h]; rfl

/-! ### The other fields of the device after an update -/

@[simp] theorem State.putCore_issue (s : State) (c : Core) : (s.putCore c).issue = s.issue := rfl
@[simp] theorem State.putCore_slots (s : State) (c : Core) : (s.putCore c).slots = s.slots := rfl
@[simp] theorem State.putCore_sched (s : State) (c : Core) : (s.putCore c).sched = s.sched := rfl
@[simp] theorem State.putCore_free (s : State) (c : Core) : (s.putCore c).free = s.free := rfl
@[simp] theorem State.putCore_now (s : State) (c : Core) : (s.putCore c).now = s.now := rfl
@[simp] theorem State.putCore_cells (s : State) (c : Core) : (s.putCore c).cells = s.cells := rfl
@[simp] theorem State.putCore_slices (s : State) (c : Core) : (s.putCore c).slices = s.slices := rfl
@[simp] theorem State.putCore_dies (s : State) (c : Core) : (s.putCore c).dies = s.dies := rfl
@[simp] theorem State.putCore_mem (s : State) (c : Core) : (s.putCore c).mem = s.mem := rfl
@[simp] theorem State.putCore_home (s : State) (c : Core) : (s.putCore c).home = s.home := rfl
@[simp] theorem State.putCore_futures (s : State) (c : Core) : (s.putCore c).futures = s.futures := rfl
@[simp] theorem State.putCore_deferred (s : State) (c : Core) : (s.putCore c).deferred = s.deferred := rfl
@[simp] theorem State.putCore_terms (s : State) (c : Core) : (s.putCore c).terms = s.terms := rfl
@[simp] theorem State.putCore_queues (s : State) (c : Core) : (s.putCore c).queues = s.queues := rfl
@[simp] theorem State.putCore_rows (s : State) (c : Core) : (s.putCore c).rows = s.rows := rfl
@[simp] theorem State.putCore_tasks (s : State) (c : Core) : (s.putCore c).tasks = s.tasks := rfl
@[simp] theorem State.putCore_order (s : State) (c : Core) : (s.putCore c).order = s.order := rfl
@[simp] theorem State.putCore_saved (s : State) (c : Core) : (s.putCore c).saved = s.saved := rfl
@[simp] theorem State.putCore_dealAt (s : State) (c : Core) : (s.putCore c).dealAt = s.dealAt := rfl
@[simp] theorem State.putCore_tens (s : State) (c : Core) : (s.putCore c).tens = s.tens := rfl
@[simp] theorem State.putCore_stops (s : State) (c : Core) : (s.putCore c).stops = s.stops := rfl
@[simp] theorem State.putCore_out (s : State) (c : Core) : (s.putCore c).out = s.out := rfl
@[simp] theorem State.putCore_ports (s : State) (c : Core) : (s.putCore c).ports = s.ports := rfl
@[simp] theorem State.putCore_unreach (s : State) (c : Core) : (s.putCore c).unreach = s.unreach := rfl
@[simp] theorem State.putCore_routers (s : State) (c : Core) : (s.putCore c).routers = s.routers := rfl
@[simp] theorem State.putCore_msgs (s : State) (c : Core) : (s.putCore c).msgs = s.msgs := rfl
@[simp] theorem State.putCore_lantern (s : State) (c : Core) : (s.putCore c).lantern = s.lantern := rfl
@[simp] theorem State.putCore_bridge (s : State) (c : Core) : (s.putCore c).bridge = s.bridge := rfl
@[simp] theorem State.putCore_aon (s : State) (c : Core) : (s.putCore c).aon = s.aon := rfl
@[simp] theorem State.putCore_dev (s : State) (c : Core) : (s.putCore c).dev = s.dev := rfl
@[simp] theorem State.putCore_serial (s : State) (c : Core) : (s.putCore c).serial = s.serial := rfl
@[simp] theorem State.putCore_upsets (s : State) (c : Core) : (s.putCore c).upsets = s.upsets := rfl
@[simp] theorem State.putCore_errs (s : State) (c : Core) : (s.putCore c).errs = s.errs := rfl
@[simp] theorem State.putCore_stale (s : State) (c : Core) : (s.putCore c).stale = s.stale := rfl
@[simp] theorem State.putCore_ptsAt (s : State) (c : Core) : (s.putCore c).ptsAt = s.ptsAt := rfl
@[simp] theorem State.putCore_ptsLow (s : State) (c : Core) : (s.putCore c).ptsLow = s.ptsLow := rfl
@[simp] theorem State.putCore_hostTs (s : State) (c : Core) : (s.putCore c).hostTs = s.hostTs := rfl
@[simp] theorem State.putCore_farTs (s : State) (c : Core) : (s.putCore c).farTs = s.farTs := rfl

@[simp] theorem State.onCore_issue (s : State) (i : Nat) (f : Core → Core) : (s.onCore i f).issue = s.issue := rfl
@[simp] theorem State.onCore_slots (s : State) (i : Nat) (f : Core → Core) : (s.onCore i f).slots = s.slots := rfl
@[simp] theorem State.onCore_sched (s : State) (i : Nat) (f : Core → Core) : (s.onCore i f).sched = s.sched := rfl
@[simp] theorem State.onCore_free (s : State) (i : Nat) (f : Core → Core) : (s.onCore i f).free = s.free := rfl
@[simp] theorem State.onCore_now (s : State) (i : Nat) (f : Core → Core) : (s.onCore i f).now = s.now := rfl
@[simp] theorem State.onCore_cells (s : State) (i : Nat) (f : Core → Core) : (s.onCore i f).cells = s.cells := rfl
@[simp] theorem State.onCore_slices (s : State) (i : Nat) (f : Core → Core) : (s.onCore i f).slices = s.slices := rfl
@[simp] theorem State.onCore_dies (s : State) (i : Nat) (f : Core → Core) : (s.onCore i f).dies = s.dies := rfl
@[simp] theorem State.onCore_mem (s : State) (i : Nat) (f : Core → Core) : (s.onCore i f).mem = s.mem := rfl
@[simp] theorem State.onCore_home (s : State) (i : Nat) (f : Core → Core) : (s.onCore i f).home = s.home := rfl
@[simp] theorem State.onCore_futures (s : State) (i : Nat) (f : Core → Core) : (s.onCore i f).futures = s.futures := rfl
@[simp] theorem State.onCore_deferred (s : State) (i : Nat) (f : Core → Core) : (s.onCore i f).deferred = s.deferred := rfl
@[simp] theorem State.onCore_terms (s : State) (i : Nat) (f : Core → Core) : (s.onCore i f).terms = s.terms := rfl
@[simp] theorem State.onCore_queues (s : State) (i : Nat) (f : Core → Core) : (s.onCore i f).queues = s.queues := rfl
@[simp] theorem State.onCore_rows (s : State) (i : Nat) (f : Core → Core) : (s.onCore i f).rows = s.rows := rfl
@[simp] theorem State.onCore_tasks (s : State) (i : Nat) (f : Core → Core) : (s.onCore i f).tasks = s.tasks := rfl
@[simp] theorem State.onCore_order (s : State) (i : Nat) (f : Core → Core) : (s.onCore i f).order = s.order := rfl
@[simp] theorem State.onCore_saved (s : State) (i : Nat) (f : Core → Core) : (s.onCore i f).saved = s.saved := rfl
@[simp] theorem State.onCore_dealAt (s : State) (i : Nat) (f : Core → Core) : (s.onCore i f).dealAt = s.dealAt := rfl
@[simp] theorem State.onCore_tens (s : State) (i : Nat) (f : Core → Core) : (s.onCore i f).tens = s.tens := rfl
@[simp] theorem State.onCore_stops (s : State) (i : Nat) (f : Core → Core) : (s.onCore i f).stops = s.stops := rfl
@[simp] theorem State.onCore_out (s : State) (i : Nat) (f : Core → Core) : (s.onCore i f).out = s.out := rfl
@[simp] theorem State.onCore_ports (s : State) (i : Nat) (f : Core → Core) : (s.onCore i f).ports = s.ports := rfl
@[simp] theorem State.onCore_unreach (s : State) (i : Nat) (f : Core → Core) : (s.onCore i f).unreach = s.unreach := rfl
@[simp] theorem State.onCore_routers (s : State) (i : Nat) (f : Core → Core) : (s.onCore i f).routers = s.routers := rfl
@[simp] theorem State.onCore_msgs (s : State) (i : Nat) (f : Core → Core) : (s.onCore i f).msgs = s.msgs := rfl
@[simp] theorem State.onCore_lantern (s : State) (i : Nat) (f : Core → Core) : (s.onCore i f).lantern = s.lantern := rfl
@[simp] theorem State.onCore_bridge (s : State) (i : Nat) (f : Core → Core) : (s.onCore i f).bridge = s.bridge := rfl
@[simp] theorem State.onCore_aon (s : State) (i : Nat) (f : Core → Core) : (s.onCore i f).aon = s.aon := rfl
@[simp] theorem State.onCore_dev (s : State) (i : Nat) (f : Core → Core) : (s.onCore i f).dev = s.dev := rfl
@[simp] theorem State.onCore_serial (s : State) (i : Nat) (f : Core → Core) : (s.onCore i f).serial = s.serial := rfl
@[simp] theorem State.onCore_upsets (s : State) (i : Nat) (f : Core → Core) : (s.onCore i f).upsets = s.upsets := rfl
@[simp] theorem State.onCore_errs (s : State) (i : Nat) (f : Core → Core) : (s.onCore i f).errs = s.errs := rfl
@[simp] theorem State.onCore_stale (s : State) (i : Nat) (f : Core → Core) : (s.onCore i f).stale = s.stale := rfl
@[simp] theorem State.onCore_ptsAt (s : State) (i : Nat) (f : Core → Core) : (s.onCore i f).ptsAt = s.ptsAt := rfl
@[simp] theorem State.onCore_ptsLow (s : State) (i : Nat) (f : Core → Core) : (s.onCore i f).ptsLow = s.ptsLow := rfl
@[simp] theorem State.onCore_hostTs (s : State) (i : Nat) (f : Core → Core) : (s.onCore i f).hostTs = s.hostTs := rfl
@[simp] theorem State.onCore_farTs (s : State) (i : Nat) (f : Core → Core) : (s.onCore i f).farTs = s.farTs := rfl

@[simp] theorem State.onCell_issue (s : State) (i : Nat) (f : Cell → Cell) : (s.onCell i f).issue = s.issue := rfl
@[simp] theorem State.onCell_slots (s : State) (i : Nat) (f : Cell → Cell) : (s.onCell i f).slots = s.slots := rfl
@[simp] theorem State.onCell_sched (s : State) (i : Nat) (f : Cell → Cell) : (s.onCell i f).sched = s.sched := rfl
@[simp] theorem State.onCell_free (s : State) (i : Nat) (f : Cell → Cell) : (s.onCell i f).free = s.free := rfl
@[simp] theorem State.onCell_now (s : State) (i : Nat) (f : Cell → Cell) : (s.onCell i f).now = s.now := rfl
@[simp] theorem State.onCell_cores (s : State) (i : Nat) (f : Cell → Cell) : (s.onCell i f).cores = s.cores := rfl
@[simp] theorem State.onCell_slices (s : State) (i : Nat) (f : Cell → Cell) : (s.onCell i f).slices = s.slices := rfl
@[simp] theorem State.onCell_dies (s : State) (i : Nat) (f : Cell → Cell) : (s.onCell i f).dies = s.dies := rfl
@[simp] theorem State.onCell_mem (s : State) (i : Nat) (f : Cell → Cell) : (s.onCell i f).mem = s.mem := rfl
@[simp] theorem State.onCell_home (s : State) (i : Nat) (f : Cell → Cell) : (s.onCell i f).home = s.home := rfl
@[simp] theorem State.onCell_futures (s : State) (i : Nat) (f : Cell → Cell) : (s.onCell i f).futures = s.futures := rfl
@[simp] theorem State.onCell_deferred (s : State) (i : Nat) (f : Cell → Cell) : (s.onCell i f).deferred = s.deferred := rfl
@[simp] theorem State.onCell_terms (s : State) (i : Nat) (f : Cell → Cell) : (s.onCell i f).terms = s.terms := rfl
@[simp] theorem State.onCell_queues (s : State) (i : Nat) (f : Cell → Cell) : (s.onCell i f).queues = s.queues := rfl
@[simp] theorem State.onCell_rows (s : State) (i : Nat) (f : Cell → Cell) : (s.onCell i f).rows = s.rows := rfl
@[simp] theorem State.onCell_tasks (s : State) (i : Nat) (f : Cell → Cell) : (s.onCell i f).tasks = s.tasks := rfl
@[simp] theorem State.onCell_order (s : State) (i : Nat) (f : Cell → Cell) : (s.onCell i f).order = s.order := rfl
@[simp] theorem State.onCell_saved (s : State) (i : Nat) (f : Cell → Cell) : (s.onCell i f).saved = s.saved := rfl
@[simp] theorem State.onCell_dealAt (s : State) (i : Nat) (f : Cell → Cell) : (s.onCell i f).dealAt = s.dealAt := rfl
@[simp] theorem State.onCell_tens (s : State) (i : Nat) (f : Cell → Cell) : (s.onCell i f).tens = s.tens := rfl
@[simp] theorem State.onCell_stops (s : State) (i : Nat) (f : Cell → Cell) : (s.onCell i f).stops = s.stops := rfl
@[simp] theorem State.onCell_out (s : State) (i : Nat) (f : Cell → Cell) : (s.onCell i f).out = s.out := rfl
@[simp] theorem State.onCell_ports (s : State) (i : Nat) (f : Cell → Cell) : (s.onCell i f).ports = s.ports := rfl
@[simp] theorem State.onCell_unreach (s : State) (i : Nat) (f : Cell → Cell) : (s.onCell i f).unreach = s.unreach := rfl
@[simp] theorem State.onCell_routers (s : State) (i : Nat) (f : Cell → Cell) : (s.onCell i f).routers = s.routers := rfl
@[simp] theorem State.onCell_msgs (s : State) (i : Nat) (f : Cell → Cell) : (s.onCell i f).msgs = s.msgs := rfl
@[simp] theorem State.onCell_lantern (s : State) (i : Nat) (f : Cell → Cell) : (s.onCell i f).lantern = s.lantern := rfl
@[simp] theorem State.onCell_bridge (s : State) (i : Nat) (f : Cell → Cell) : (s.onCell i f).bridge = s.bridge := rfl
@[simp] theorem State.onCell_aon (s : State) (i : Nat) (f : Cell → Cell) : (s.onCell i f).aon = s.aon := rfl
@[simp] theorem State.onCell_dev (s : State) (i : Nat) (f : Cell → Cell) : (s.onCell i f).dev = s.dev := rfl
@[simp] theorem State.onCell_serial (s : State) (i : Nat) (f : Cell → Cell) : (s.onCell i f).serial = s.serial := rfl
@[simp] theorem State.onCell_upsets (s : State) (i : Nat) (f : Cell → Cell) : (s.onCell i f).upsets = s.upsets := rfl
@[simp] theorem State.onCell_errs (s : State) (i : Nat) (f : Cell → Cell) : (s.onCell i f).errs = s.errs := rfl
@[simp] theorem State.onCell_stale (s : State) (i : Nat) (f : Cell → Cell) : (s.onCell i f).stale = s.stale := rfl
@[simp] theorem State.onCell_ptsAt (s : State) (i : Nat) (f : Cell → Cell) : (s.onCell i f).ptsAt = s.ptsAt := rfl
@[simp] theorem State.onCell_ptsLow (s : State) (i : Nat) (f : Cell → Cell) : (s.onCell i f).ptsLow = s.ptsLow := rfl
@[simp] theorem State.onCell_hostTs (s : State) (i : Nat) (f : Cell → Cell) : (s.onCell i f).hostTs = s.hostTs := rfl
@[simp] theorem State.onCell_farTs (s : State) (i : Nat) (f : Cell → Cell) : (s.onCell i f).farTs = s.farTs := rfl

@[simp] theorem State.onSlice_issue (s : State) (i : Nat) (f : Slice → Slice) : (s.onSlice i f).issue = s.issue := rfl
@[simp] theorem State.onSlice_slots (s : State) (i : Nat) (f : Slice → Slice) : (s.onSlice i f).slots = s.slots := rfl
@[simp] theorem State.onSlice_sched (s : State) (i : Nat) (f : Slice → Slice) : (s.onSlice i f).sched = s.sched := rfl
@[simp] theorem State.onSlice_free (s : State) (i : Nat) (f : Slice → Slice) : (s.onSlice i f).free = s.free := rfl
@[simp] theorem State.onSlice_now (s : State) (i : Nat) (f : Slice → Slice) : (s.onSlice i f).now = s.now := rfl
@[simp] theorem State.onSlice_cores (s : State) (i : Nat) (f : Slice → Slice) : (s.onSlice i f).cores = s.cores := rfl
@[simp] theorem State.onSlice_cells (s : State) (i : Nat) (f : Slice → Slice) : (s.onSlice i f).cells = s.cells := rfl
@[simp] theorem State.onSlice_dies (s : State) (i : Nat) (f : Slice → Slice) : (s.onSlice i f).dies = s.dies := rfl
@[simp] theorem State.onSlice_mem (s : State) (i : Nat) (f : Slice → Slice) : (s.onSlice i f).mem = s.mem := rfl
@[simp] theorem State.onSlice_home (s : State) (i : Nat) (f : Slice → Slice) : (s.onSlice i f).home = s.home := rfl
@[simp] theorem State.onSlice_futures (s : State) (i : Nat) (f : Slice → Slice) : (s.onSlice i f).futures = s.futures := rfl
@[simp] theorem State.onSlice_deferred (s : State) (i : Nat) (f : Slice → Slice) : (s.onSlice i f).deferred = s.deferred := rfl
@[simp] theorem State.onSlice_terms (s : State) (i : Nat) (f : Slice → Slice) : (s.onSlice i f).terms = s.terms := rfl
@[simp] theorem State.onSlice_queues (s : State) (i : Nat) (f : Slice → Slice) : (s.onSlice i f).queues = s.queues := rfl
@[simp] theorem State.onSlice_rows (s : State) (i : Nat) (f : Slice → Slice) : (s.onSlice i f).rows = s.rows := rfl
@[simp] theorem State.onSlice_tasks (s : State) (i : Nat) (f : Slice → Slice) : (s.onSlice i f).tasks = s.tasks := rfl
@[simp] theorem State.onSlice_order (s : State) (i : Nat) (f : Slice → Slice) : (s.onSlice i f).order = s.order := rfl
@[simp] theorem State.onSlice_saved (s : State) (i : Nat) (f : Slice → Slice) : (s.onSlice i f).saved = s.saved := rfl
@[simp] theorem State.onSlice_dealAt (s : State) (i : Nat) (f : Slice → Slice) : (s.onSlice i f).dealAt = s.dealAt := rfl
@[simp] theorem State.onSlice_tens (s : State) (i : Nat) (f : Slice → Slice) : (s.onSlice i f).tens = s.tens := rfl
@[simp] theorem State.onSlice_stops (s : State) (i : Nat) (f : Slice → Slice) : (s.onSlice i f).stops = s.stops := rfl
@[simp] theorem State.onSlice_out (s : State) (i : Nat) (f : Slice → Slice) : (s.onSlice i f).out = s.out := rfl
@[simp] theorem State.onSlice_ports (s : State) (i : Nat) (f : Slice → Slice) : (s.onSlice i f).ports = s.ports := rfl
@[simp] theorem State.onSlice_unreach (s : State) (i : Nat) (f : Slice → Slice) : (s.onSlice i f).unreach = s.unreach := rfl
@[simp] theorem State.onSlice_routers (s : State) (i : Nat) (f : Slice → Slice) : (s.onSlice i f).routers = s.routers := rfl
@[simp] theorem State.onSlice_msgs (s : State) (i : Nat) (f : Slice → Slice) : (s.onSlice i f).msgs = s.msgs := rfl
@[simp] theorem State.onSlice_lantern (s : State) (i : Nat) (f : Slice → Slice) : (s.onSlice i f).lantern = s.lantern := rfl
@[simp] theorem State.onSlice_bridge (s : State) (i : Nat) (f : Slice → Slice) : (s.onSlice i f).bridge = s.bridge := rfl
@[simp] theorem State.onSlice_aon (s : State) (i : Nat) (f : Slice → Slice) : (s.onSlice i f).aon = s.aon := rfl
@[simp] theorem State.onSlice_dev (s : State) (i : Nat) (f : Slice → Slice) : (s.onSlice i f).dev = s.dev := rfl
@[simp] theorem State.onSlice_serial (s : State) (i : Nat) (f : Slice → Slice) : (s.onSlice i f).serial = s.serial := rfl
@[simp] theorem State.onSlice_upsets (s : State) (i : Nat) (f : Slice → Slice) : (s.onSlice i f).upsets = s.upsets := rfl
@[simp] theorem State.onSlice_errs (s : State) (i : Nat) (f : Slice → Slice) : (s.onSlice i f).errs = s.errs := rfl
@[simp] theorem State.onSlice_stale (s : State) (i : Nat) (f : Slice → Slice) : (s.onSlice i f).stale = s.stale := rfl
@[simp] theorem State.onSlice_ptsAt (s : State) (i : Nat) (f : Slice → Slice) : (s.onSlice i f).ptsAt = s.ptsAt := rfl
@[simp] theorem State.onSlice_ptsLow (s : State) (i : Nat) (f : Slice → Slice) : (s.onSlice i f).ptsLow = s.ptsLow := rfl
@[simp] theorem State.onSlice_hostTs (s : State) (i : Nat) (f : Slice → Slice) : (s.onSlice i f).hostTs = s.hostTs := rfl
@[simp] theorem State.onSlice_farTs (s : State) (i : Nat) (f : Slice → Slice) : (s.onSlice i f).farTs = s.farTs := rfl

@[simp] theorem State.onDie_issue (s : State) (i : Nat) (f : Die → Die) : (s.onDie i f).issue = s.issue := rfl
@[simp] theorem State.onDie_slots (s : State) (i : Nat) (f : Die → Die) : (s.onDie i f).slots = s.slots := rfl
@[simp] theorem State.onDie_sched (s : State) (i : Nat) (f : Die → Die) : (s.onDie i f).sched = s.sched := rfl
@[simp] theorem State.onDie_free (s : State) (i : Nat) (f : Die → Die) : (s.onDie i f).free = s.free := rfl
@[simp] theorem State.onDie_now (s : State) (i : Nat) (f : Die → Die) : (s.onDie i f).now = s.now := rfl
@[simp] theorem State.onDie_cores (s : State) (i : Nat) (f : Die → Die) : (s.onDie i f).cores = s.cores := rfl
@[simp] theorem State.onDie_cells (s : State) (i : Nat) (f : Die → Die) : (s.onDie i f).cells = s.cells := rfl
@[simp] theorem State.onDie_slices (s : State) (i : Nat) (f : Die → Die) : (s.onDie i f).slices = s.slices := rfl
@[simp] theorem State.onDie_mem (s : State) (i : Nat) (f : Die → Die) : (s.onDie i f).mem = s.mem := rfl
@[simp] theorem State.onDie_home (s : State) (i : Nat) (f : Die → Die) : (s.onDie i f).home = s.home := rfl
@[simp] theorem State.onDie_futures (s : State) (i : Nat) (f : Die → Die) : (s.onDie i f).futures = s.futures := rfl
@[simp] theorem State.onDie_deferred (s : State) (i : Nat) (f : Die → Die) : (s.onDie i f).deferred = s.deferred := rfl
@[simp] theorem State.onDie_terms (s : State) (i : Nat) (f : Die → Die) : (s.onDie i f).terms = s.terms := rfl
@[simp] theorem State.onDie_queues (s : State) (i : Nat) (f : Die → Die) : (s.onDie i f).queues = s.queues := rfl
@[simp] theorem State.onDie_rows (s : State) (i : Nat) (f : Die → Die) : (s.onDie i f).rows = s.rows := rfl
@[simp] theorem State.onDie_tasks (s : State) (i : Nat) (f : Die → Die) : (s.onDie i f).tasks = s.tasks := rfl
@[simp] theorem State.onDie_order (s : State) (i : Nat) (f : Die → Die) : (s.onDie i f).order = s.order := rfl
@[simp] theorem State.onDie_saved (s : State) (i : Nat) (f : Die → Die) : (s.onDie i f).saved = s.saved := rfl
@[simp] theorem State.onDie_dealAt (s : State) (i : Nat) (f : Die → Die) : (s.onDie i f).dealAt = s.dealAt := rfl
@[simp] theorem State.onDie_tens (s : State) (i : Nat) (f : Die → Die) : (s.onDie i f).tens = s.tens := rfl
@[simp] theorem State.onDie_stops (s : State) (i : Nat) (f : Die → Die) : (s.onDie i f).stops = s.stops := rfl
@[simp] theorem State.onDie_out (s : State) (i : Nat) (f : Die → Die) : (s.onDie i f).out = s.out := rfl
@[simp] theorem State.onDie_ports (s : State) (i : Nat) (f : Die → Die) : (s.onDie i f).ports = s.ports := rfl
@[simp] theorem State.onDie_unreach (s : State) (i : Nat) (f : Die → Die) : (s.onDie i f).unreach = s.unreach := rfl
@[simp] theorem State.onDie_routers (s : State) (i : Nat) (f : Die → Die) : (s.onDie i f).routers = s.routers := rfl
@[simp] theorem State.onDie_msgs (s : State) (i : Nat) (f : Die → Die) : (s.onDie i f).msgs = s.msgs := rfl
@[simp] theorem State.onDie_lantern (s : State) (i : Nat) (f : Die → Die) : (s.onDie i f).lantern = s.lantern := rfl
@[simp] theorem State.onDie_bridge (s : State) (i : Nat) (f : Die → Die) : (s.onDie i f).bridge = s.bridge := rfl
@[simp] theorem State.onDie_aon (s : State) (i : Nat) (f : Die → Die) : (s.onDie i f).aon = s.aon := rfl
@[simp] theorem State.onDie_dev (s : State) (i : Nat) (f : Die → Die) : (s.onDie i f).dev = s.dev := rfl
@[simp] theorem State.onDie_serial (s : State) (i : Nat) (f : Die → Die) : (s.onDie i f).serial = s.serial := rfl
@[simp] theorem State.onDie_upsets (s : State) (i : Nat) (f : Die → Die) : (s.onDie i f).upsets = s.upsets := rfl
@[simp] theorem State.onDie_errs (s : State) (i : Nat) (f : Die → Die) : (s.onDie i f).errs = s.errs := rfl
@[simp] theorem State.onDie_stale (s : State) (i : Nat) (f : Die → Die) : (s.onDie i f).stale = s.stale := rfl
@[simp] theorem State.onDie_ptsAt (s : State) (i : Nat) (f : Die → Die) : (s.onDie i f).ptsAt = s.ptsAt := rfl
@[simp] theorem State.onDie_ptsLow (s : State) (i : Nat) (f : Die → Die) : (s.onDie i f).ptsLow = s.ptsLow := rfl
@[simp] theorem State.onDie_hostTs (s : State) (i : Nat) (f : Die → Die) : (s.onDie i f).hostTs = s.hostTs := rfl
@[simp] theorem State.onDie_farTs (s : State) (i : Nat) (f : Die → Die) : (s.onDie i f).farTs = s.farTs := rfl

@[simp] theorem State.onTen_issue (s : State) (i : Nat) (f : Tenancy → Tenancy) : (s.onTen i f).issue = s.issue := rfl
@[simp] theorem State.onTen_slots (s : State) (i : Nat) (f : Tenancy → Tenancy) : (s.onTen i f).slots = s.slots := rfl
@[simp] theorem State.onTen_sched (s : State) (i : Nat) (f : Tenancy → Tenancy) : (s.onTen i f).sched = s.sched := rfl
@[simp] theorem State.onTen_free (s : State) (i : Nat) (f : Tenancy → Tenancy) : (s.onTen i f).free = s.free := rfl
@[simp] theorem State.onTen_now (s : State) (i : Nat) (f : Tenancy → Tenancy) : (s.onTen i f).now = s.now := rfl
@[simp] theorem State.onTen_cores (s : State) (i : Nat) (f : Tenancy → Tenancy) : (s.onTen i f).cores = s.cores := rfl
@[simp] theorem State.onTen_cells (s : State) (i : Nat) (f : Tenancy → Tenancy) : (s.onTen i f).cells = s.cells := rfl
@[simp] theorem State.onTen_slices (s : State) (i : Nat) (f : Tenancy → Tenancy) : (s.onTen i f).slices = s.slices := rfl
@[simp] theorem State.onTen_dies (s : State) (i : Nat) (f : Tenancy → Tenancy) : (s.onTen i f).dies = s.dies := rfl
@[simp] theorem State.onTen_mem (s : State) (i : Nat) (f : Tenancy → Tenancy) : (s.onTen i f).mem = s.mem := rfl
@[simp] theorem State.onTen_home (s : State) (i : Nat) (f : Tenancy → Tenancy) : (s.onTen i f).home = s.home := rfl
@[simp] theorem State.onTen_futures (s : State) (i : Nat) (f : Tenancy → Tenancy) : (s.onTen i f).futures = s.futures := rfl
@[simp] theorem State.onTen_deferred (s : State) (i : Nat) (f : Tenancy → Tenancy) : (s.onTen i f).deferred = s.deferred := rfl
@[simp] theorem State.onTen_terms (s : State) (i : Nat) (f : Tenancy → Tenancy) : (s.onTen i f).terms = s.terms := rfl
@[simp] theorem State.onTen_queues (s : State) (i : Nat) (f : Tenancy → Tenancy) : (s.onTen i f).queues = s.queues := rfl
@[simp] theorem State.onTen_rows (s : State) (i : Nat) (f : Tenancy → Tenancy) : (s.onTen i f).rows = s.rows := rfl
@[simp] theorem State.onTen_tasks (s : State) (i : Nat) (f : Tenancy → Tenancy) : (s.onTen i f).tasks = s.tasks := rfl
@[simp] theorem State.onTen_order (s : State) (i : Nat) (f : Tenancy → Tenancy) : (s.onTen i f).order = s.order := rfl
@[simp] theorem State.onTen_saved (s : State) (i : Nat) (f : Tenancy → Tenancy) : (s.onTen i f).saved = s.saved := rfl
@[simp] theorem State.onTen_dealAt (s : State) (i : Nat) (f : Tenancy → Tenancy) : (s.onTen i f).dealAt = s.dealAt := rfl
@[simp] theorem State.onTen_stops (s : State) (i : Nat) (f : Tenancy → Tenancy) : (s.onTen i f).stops = s.stops := rfl
@[simp] theorem State.onTen_out (s : State) (i : Nat) (f : Tenancy → Tenancy) : (s.onTen i f).out = s.out := rfl
@[simp] theorem State.onTen_ports (s : State) (i : Nat) (f : Tenancy → Tenancy) : (s.onTen i f).ports = s.ports := rfl
@[simp] theorem State.onTen_unreach (s : State) (i : Nat) (f : Tenancy → Tenancy) : (s.onTen i f).unreach = s.unreach := rfl
@[simp] theorem State.onTen_routers (s : State) (i : Nat) (f : Tenancy → Tenancy) : (s.onTen i f).routers = s.routers := rfl
@[simp] theorem State.onTen_msgs (s : State) (i : Nat) (f : Tenancy → Tenancy) : (s.onTen i f).msgs = s.msgs := rfl
@[simp] theorem State.onTen_lantern (s : State) (i : Nat) (f : Tenancy → Tenancy) : (s.onTen i f).lantern = s.lantern := rfl
@[simp] theorem State.onTen_bridge (s : State) (i : Nat) (f : Tenancy → Tenancy) : (s.onTen i f).bridge = s.bridge := rfl
@[simp] theorem State.onTen_aon (s : State) (i : Nat) (f : Tenancy → Tenancy) : (s.onTen i f).aon = s.aon := rfl
@[simp] theorem State.onTen_dev (s : State) (i : Nat) (f : Tenancy → Tenancy) : (s.onTen i f).dev = s.dev := rfl
@[simp] theorem State.onTen_serial (s : State) (i : Nat) (f : Tenancy → Tenancy) : (s.onTen i f).serial = s.serial := rfl
@[simp] theorem State.onTen_upsets (s : State) (i : Nat) (f : Tenancy → Tenancy) : (s.onTen i f).upsets = s.upsets := rfl
@[simp] theorem State.onTen_errs (s : State) (i : Nat) (f : Tenancy → Tenancy) : (s.onTen i f).errs = s.errs := rfl
@[simp] theorem State.onTen_stale (s : State) (i : Nat) (f : Tenancy → Tenancy) : (s.onTen i f).stale = s.stale := rfl
@[simp] theorem State.onTen_ptsAt (s : State) (i : Nat) (f : Tenancy → Tenancy) : (s.onTen i f).ptsAt = s.ptsAt := rfl
@[simp] theorem State.onTen_ptsLow (s : State) (i : Nat) (f : Tenancy → Tenancy) : (s.onTen i f).ptsLow = s.ptsLow := rfl
@[simp] theorem State.onTen_hostTs (s : State) (i : Nat) (f : Tenancy → Tenancy) : (s.onTen i f).hostTs = s.hostTs := rfl
@[simp] theorem State.onTen_farTs (s : State) (i : Nat) (f : Tenancy → Tenancy) : (s.onTen i f).farTs = s.farTs := rfl

@[simp] theorem State.onTask_issue (s : State) (a b : Nat) (f : Task → Task) : (s.onTask a b f).issue = s.issue := rfl
@[simp] theorem State.onTask_slots (s : State) (a b : Nat) (f : Task → Task) : (s.onTask a b f).slots = s.slots := rfl
@[simp] theorem State.onTask_sched (s : State) (a b : Nat) (f : Task → Task) : (s.onTask a b f).sched = s.sched := rfl
@[simp] theorem State.onTask_free (s : State) (a b : Nat) (f : Task → Task) : (s.onTask a b f).free = s.free := rfl
@[simp] theorem State.onTask_now (s : State) (a b : Nat) (f : Task → Task) : (s.onTask a b f).now = s.now := rfl
@[simp] theorem State.onTask_cores (s : State) (a b : Nat) (f : Task → Task) : (s.onTask a b f).cores = s.cores := rfl
@[simp] theorem State.onTask_cells (s : State) (a b : Nat) (f : Task → Task) : (s.onTask a b f).cells = s.cells := rfl
@[simp] theorem State.onTask_slices (s : State) (a b : Nat) (f : Task → Task) : (s.onTask a b f).slices = s.slices := rfl
@[simp] theorem State.onTask_dies (s : State) (a b : Nat) (f : Task → Task) : (s.onTask a b f).dies = s.dies := rfl
@[simp] theorem State.onTask_mem (s : State) (a b : Nat) (f : Task → Task) : (s.onTask a b f).mem = s.mem := rfl
@[simp] theorem State.onTask_home (s : State) (a b : Nat) (f : Task → Task) : (s.onTask a b f).home = s.home := rfl
@[simp] theorem State.onTask_futures (s : State) (a b : Nat) (f : Task → Task) : (s.onTask a b f).futures = s.futures := rfl
@[simp] theorem State.onTask_deferred (s : State) (a b : Nat) (f : Task → Task) : (s.onTask a b f).deferred = s.deferred := rfl
@[simp] theorem State.onTask_terms (s : State) (a b : Nat) (f : Task → Task) : (s.onTask a b f).terms = s.terms := rfl
@[simp] theorem State.onTask_queues (s : State) (a b : Nat) (f : Task → Task) : (s.onTask a b f).queues = s.queues := rfl
@[simp] theorem State.onTask_rows (s : State) (a b : Nat) (f : Task → Task) : (s.onTask a b f).rows = s.rows := rfl
@[simp] theorem State.onTask_order (s : State) (a b : Nat) (f : Task → Task) : (s.onTask a b f).order = s.order := rfl
@[simp] theorem State.onTask_saved (s : State) (a b : Nat) (f : Task → Task) : (s.onTask a b f).saved = s.saved := rfl
@[simp] theorem State.onTask_dealAt (s : State) (a b : Nat) (f : Task → Task) : (s.onTask a b f).dealAt = s.dealAt := rfl
@[simp] theorem State.onTask_tens (s : State) (a b : Nat) (f : Task → Task) : (s.onTask a b f).tens = s.tens := rfl
@[simp] theorem State.onTask_stops (s : State) (a b : Nat) (f : Task → Task) : (s.onTask a b f).stops = s.stops := rfl
@[simp] theorem State.onTask_out (s : State) (a b : Nat) (f : Task → Task) : (s.onTask a b f).out = s.out := rfl
@[simp] theorem State.onTask_ports (s : State) (a b : Nat) (f : Task → Task) : (s.onTask a b f).ports = s.ports := rfl
@[simp] theorem State.onTask_unreach (s : State) (a b : Nat) (f : Task → Task) : (s.onTask a b f).unreach = s.unreach := rfl
@[simp] theorem State.onTask_routers (s : State) (a b : Nat) (f : Task → Task) : (s.onTask a b f).routers = s.routers := rfl
@[simp] theorem State.onTask_msgs (s : State) (a b : Nat) (f : Task → Task) : (s.onTask a b f).msgs = s.msgs := rfl
@[simp] theorem State.onTask_lantern (s : State) (a b : Nat) (f : Task → Task) : (s.onTask a b f).lantern = s.lantern := rfl
@[simp] theorem State.onTask_bridge (s : State) (a b : Nat) (f : Task → Task) : (s.onTask a b f).bridge = s.bridge := rfl
@[simp] theorem State.onTask_aon (s : State) (a b : Nat) (f : Task → Task) : (s.onTask a b f).aon = s.aon := rfl
@[simp] theorem State.onTask_dev (s : State) (a b : Nat) (f : Task → Task) : (s.onTask a b f).dev = s.dev := rfl
@[simp] theorem State.onTask_serial (s : State) (a b : Nat) (f : Task → Task) : (s.onTask a b f).serial = s.serial := rfl
@[simp] theorem State.onTask_upsets (s : State) (a b : Nat) (f : Task → Task) : (s.onTask a b f).upsets = s.upsets := rfl
@[simp] theorem State.onTask_errs (s : State) (a b : Nat) (f : Task → Task) : (s.onTask a b f).errs = s.errs := rfl
@[simp] theorem State.onTask_stale (s : State) (a b : Nat) (f : Task → Task) : (s.onTask a b f).stale = s.stale := rfl
@[simp] theorem State.onTask_ptsAt (s : State) (a b : Nat) (f : Task → Task) : (s.onTask a b f).ptsAt = s.ptsAt := rfl
@[simp] theorem State.onTask_ptsLow (s : State) (a b : Nat) (f : Task → Task) : (s.onTask a b f).ptsLow = s.ptsLow := rfl
@[simp] theorem State.onTask_hostTs (s : State) (a b : Nat) (f : Task → Task) : (s.onTask a b f).hostTs = s.hostTs := rfl
@[simp] theorem State.onTask_farTs (s : State) (a b : Nat) (f : Task → Task) : (s.onTask a b f).farTs = s.farTs := rfl

@[simp] theorem State.onTids_issue (s : State) (i : Nat) (l : List W32) (f : View → View) : (s.onTids i l f).issue = s.issue := rfl
@[simp] theorem State.onTids_slots (s : State) (i : Nat) (l : List W32) (f : View → View) : (s.onTids i l f).slots = s.slots := rfl
@[simp] theorem State.onTids_sched (s : State) (i : Nat) (l : List W32) (f : View → View) : (s.onTids i l f).sched = s.sched := rfl
@[simp] theorem State.onTids_free (s : State) (i : Nat) (l : List W32) (f : View → View) : (s.onTids i l f).free = s.free := rfl
@[simp] theorem State.onTids_now (s : State) (i : Nat) (l : List W32) (f : View → View) : (s.onTids i l f).now = s.now := rfl
@[simp] theorem State.onTids_cells (s : State) (i : Nat) (l : List W32) (f : View → View) : (s.onTids i l f).cells = s.cells := rfl
@[simp] theorem State.onTids_slices (s : State) (i : Nat) (l : List W32) (f : View → View) : (s.onTids i l f).slices = s.slices := rfl
@[simp] theorem State.onTids_dies (s : State) (i : Nat) (l : List W32) (f : View → View) : (s.onTids i l f).dies = s.dies := rfl
@[simp] theorem State.onTids_mem (s : State) (i : Nat) (l : List W32) (f : View → View) : (s.onTids i l f).mem = s.mem := rfl
@[simp] theorem State.onTids_home (s : State) (i : Nat) (l : List W32) (f : View → View) : (s.onTids i l f).home = s.home := rfl
@[simp] theorem State.onTids_futures (s : State) (i : Nat) (l : List W32) (f : View → View) : (s.onTids i l f).futures = s.futures := rfl
@[simp] theorem State.onTids_deferred (s : State) (i : Nat) (l : List W32) (f : View → View) : (s.onTids i l f).deferred = s.deferred := rfl
@[simp] theorem State.onTids_terms (s : State) (i : Nat) (l : List W32) (f : View → View) : (s.onTids i l f).terms = s.terms := rfl
@[simp] theorem State.onTids_queues (s : State) (i : Nat) (l : List W32) (f : View → View) : (s.onTids i l f).queues = s.queues := rfl
@[simp] theorem State.onTids_rows (s : State) (i : Nat) (l : List W32) (f : View → View) : (s.onTids i l f).rows = s.rows := rfl
@[simp] theorem State.onTids_tasks (s : State) (i : Nat) (l : List W32) (f : View → View) : (s.onTids i l f).tasks = s.tasks := rfl
@[simp] theorem State.onTids_order (s : State) (i : Nat) (l : List W32) (f : View → View) : (s.onTids i l f).order = s.order := rfl
@[simp] theorem State.onTids_saved (s : State) (i : Nat) (l : List W32) (f : View → View) : (s.onTids i l f).saved = s.saved := rfl
@[simp] theorem State.onTids_dealAt (s : State) (i : Nat) (l : List W32) (f : View → View) : (s.onTids i l f).dealAt = s.dealAt := rfl
@[simp] theorem State.onTids_tens (s : State) (i : Nat) (l : List W32) (f : View → View) : (s.onTids i l f).tens = s.tens := rfl
@[simp] theorem State.onTids_stops (s : State) (i : Nat) (l : List W32) (f : View → View) : (s.onTids i l f).stops = s.stops := rfl
@[simp] theorem State.onTids_out (s : State) (i : Nat) (l : List W32) (f : View → View) : (s.onTids i l f).out = s.out := rfl
@[simp] theorem State.onTids_ports (s : State) (i : Nat) (l : List W32) (f : View → View) : (s.onTids i l f).ports = s.ports := rfl
@[simp] theorem State.onTids_unreach (s : State) (i : Nat) (l : List W32) (f : View → View) : (s.onTids i l f).unreach = s.unreach := rfl
@[simp] theorem State.onTids_routers (s : State) (i : Nat) (l : List W32) (f : View → View) : (s.onTids i l f).routers = s.routers := rfl
@[simp] theorem State.onTids_msgs (s : State) (i : Nat) (l : List W32) (f : View → View) : (s.onTids i l f).msgs = s.msgs := rfl
@[simp] theorem State.onTids_lantern (s : State) (i : Nat) (l : List W32) (f : View → View) : (s.onTids i l f).lantern = s.lantern := rfl
@[simp] theorem State.onTids_bridge (s : State) (i : Nat) (l : List W32) (f : View → View) : (s.onTids i l f).bridge = s.bridge := rfl
@[simp] theorem State.onTids_aon (s : State) (i : Nat) (l : List W32) (f : View → View) : (s.onTids i l f).aon = s.aon := rfl
@[simp] theorem State.onTids_dev (s : State) (i : Nat) (l : List W32) (f : View → View) : (s.onTids i l f).dev = s.dev := rfl
@[simp] theorem State.onTids_serial (s : State) (i : Nat) (l : List W32) (f : View → View) : (s.onTids i l f).serial = s.serial := rfl
@[simp] theorem State.onTids_upsets (s : State) (i : Nat) (l : List W32) (f : View → View) : (s.onTids i l f).upsets = s.upsets := rfl
@[simp] theorem State.onTids_errs (s : State) (i : Nat) (l : List W32) (f : View → View) : (s.onTids i l f).errs = s.errs := rfl
@[simp] theorem State.onTids_stale (s : State) (i : Nat) (l : List W32) (f : View → View) : (s.onTids i l f).stale = s.stale := rfl
@[simp] theorem State.onTids_ptsAt (s : State) (i : Nat) (l : List W32) (f : View → View) : (s.onTids i l f).ptsAt = s.ptsAt := rfl
@[simp] theorem State.onTids_ptsLow (s : State) (i : Nat) (l : List W32) (f : View → View) : (s.onTids i l f).ptsLow = s.ptsLow := rfl
@[simp] theorem State.onTids_hostTs (s : State) (i : Nat) (l : List W32) (f : View → View) : (s.onTids i l f).hostTs = s.hostTs := rfl
@[simp] theorem State.onTids_farTs (s : State) (i : Nat) (l : List W32) (f : View → View) : (s.onTids i l f).farTs = s.farTs := rfl

@[simp] theorem State.onThread_issue (s : State) (i : Nat) (t : W32) (f : View → View) : (s.onThread i t f).issue = s.issue := rfl
@[simp] theorem State.onThread_slots (s : State) (i : Nat) (t : W32) (f : View → View) : (s.onThread i t f).slots = s.slots := rfl
@[simp] theorem State.onThread_sched (s : State) (i : Nat) (t : W32) (f : View → View) : (s.onThread i t f).sched = s.sched := rfl
@[simp] theorem State.onThread_free (s : State) (i : Nat) (t : W32) (f : View → View) : (s.onThread i t f).free = s.free := rfl
@[simp] theorem State.onThread_now (s : State) (i : Nat) (t : W32) (f : View → View) : (s.onThread i t f).now = s.now := rfl
@[simp] theorem State.onThread_cells (s : State) (i : Nat) (t : W32) (f : View → View) : (s.onThread i t f).cells = s.cells := rfl
@[simp] theorem State.onThread_slices (s : State) (i : Nat) (t : W32) (f : View → View) : (s.onThread i t f).slices = s.slices := rfl
@[simp] theorem State.onThread_dies (s : State) (i : Nat) (t : W32) (f : View → View) : (s.onThread i t f).dies = s.dies := rfl
@[simp] theorem State.onThread_mem (s : State) (i : Nat) (t : W32) (f : View → View) : (s.onThread i t f).mem = s.mem := rfl
@[simp] theorem State.onThread_home (s : State) (i : Nat) (t : W32) (f : View → View) : (s.onThread i t f).home = s.home := rfl
@[simp] theorem State.onThread_futures (s : State) (i : Nat) (t : W32) (f : View → View) : (s.onThread i t f).futures = s.futures := rfl
@[simp] theorem State.onThread_deferred (s : State) (i : Nat) (t : W32) (f : View → View) : (s.onThread i t f).deferred = s.deferred := rfl
@[simp] theorem State.onThread_terms (s : State) (i : Nat) (t : W32) (f : View → View) : (s.onThread i t f).terms = s.terms := rfl
@[simp] theorem State.onThread_queues (s : State) (i : Nat) (t : W32) (f : View → View) : (s.onThread i t f).queues = s.queues := rfl
@[simp] theorem State.onThread_rows (s : State) (i : Nat) (t : W32) (f : View → View) : (s.onThread i t f).rows = s.rows := rfl
@[simp] theorem State.onThread_tasks (s : State) (i : Nat) (t : W32) (f : View → View) : (s.onThread i t f).tasks = s.tasks := rfl
@[simp] theorem State.onThread_order (s : State) (i : Nat) (t : W32) (f : View → View) : (s.onThread i t f).order = s.order := rfl
@[simp] theorem State.onThread_saved (s : State) (i : Nat) (t : W32) (f : View → View) : (s.onThread i t f).saved = s.saved := rfl
@[simp] theorem State.onThread_dealAt (s : State) (i : Nat) (t : W32) (f : View → View) : (s.onThread i t f).dealAt = s.dealAt := rfl
@[simp] theorem State.onThread_tens (s : State) (i : Nat) (t : W32) (f : View → View) : (s.onThread i t f).tens = s.tens := rfl
@[simp] theorem State.onThread_stops (s : State) (i : Nat) (t : W32) (f : View → View) : (s.onThread i t f).stops = s.stops := rfl
@[simp] theorem State.onThread_out (s : State) (i : Nat) (t : W32) (f : View → View) : (s.onThread i t f).out = s.out := rfl
@[simp] theorem State.onThread_ports (s : State) (i : Nat) (t : W32) (f : View → View) : (s.onThread i t f).ports = s.ports := rfl
@[simp] theorem State.onThread_unreach (s : State) (i : Nat) (t : W32) (f : View → View) : (s.onThread i t f).unreach = s.unreach := rfl
@[simp] theorem State.onThread_routers (s : State) (i : Nat) (t : W32) (f : View → View) : (s.onThread i t f).routers = s.routers := rfl
@[simp] theorem State.onThread_msgs (s : State) (i : Nat) (t : W32) (f : View → View) : (s.onThread i t f).msgs = s.msgs := rfl
@[simp] theorem State.onThread_lantern (s : State) (i : Nat) (t : W32) (f : View → View) : (s.onThread i t f).lantern = s.lantern := rfl
@[simp] theorem State.onThread_bridge (s : State) (i : Nat) (t : W32) (f : View → View) : (s.onThread i t f).bridge = s.bridge := rfl
@[simp] theorem State.onThread_aon (s : State) (i : Nat) (t : W32) (f : View → View) : (s.onThread i t f).aon = s.aon := rfl
@[simp] theorem State.onThread_dev (s : State) (i : Nat) (t : W32) (f : View → View) : (s.onThread i t f).dev = s.dev := rfl
@[simp] theorem State.onThread_serial (s : State) (i : Nat) (t : W32) (f : View → View) : (s.onThread i t f).serial = s.serial := rfl
@[simp] theorem State.onThread_upsets (s : State) (i : Nat) (t : W32) (f : View → View) : (s.onThread i t f).upsets = s.upsets := rfl
@[simp] theorem State.onThread_errs (s : State) (i : Nat) (t : W32) (f : View → View) : (s.onThread i t f).errs = s.errs := rfl
@[simp] theorem State.onThread_stale (s : State) (i : Nat) (t : W32) (f : View → View) : (s.onThread i t f).stale = s.stale := rfl
@[simp] theorem State.onThread_ptsAt (s : State) (i : Nat) (t : W32) (f : View → View) : (s.onThread i t f).ptsAt = s.ptsAt := rfl
@[simp] theorem State.onThread_ptsLow (s : State) (i : Nat) (t : W32) (f : View → View) : (s.onThread i t f).ptsLow = s.ptsLow := rfl
@[simp] theorem State.onThread_hostTs (s : State) (i : Nat) (t : W32) (f : View → View) : (s.onThread i t f).hostTs = s.hostTs := rfl
@[simp] theorem State.onThread_farTs (s : State) (i : Nat) (t : W32) (f : View → View) : (s.onThread i t f).farTs = s.farTs := rfl

@[simp] theorem State.setStatus_issue (s : State) (i : Nat) (t : W32) (x : Status) : (s.setStatus i t x).issue = s.issue := rfl
@[simp] theorem State.setStatus_slots (s : State) (i : Nat) (t : W32) (x : Status) : (s.setStatus i t x).slots = s.slots := rfl
@[simp] theorem State.setStatus_sched (s : State) (i : Nat) (t : W32) (x : Status) : (s.setStatus i t x).sched = s.sched := rfl
@[simp] theorem State.setStatus_free (s : State) (i : Nat) (t : W32) (x : Status) : (s.setStatus i t x).free = s.free := rfl
@[simp] theorem State.setStatus_now (s : State) (i : Nat) (t : W32) (x : Status) : (s.setStatus i t x).now = s.now := rfl
@[simp] theorem State.setStatus_cells (s : State) (i : Nat) (t : W32) (x : Status) : (s.setStatus i t x).cells = s.cells := rfl
@[simp] theorem State.setStatus_slices (s : State) (i : Nat) (t : W32) (x : Status) : (s.setStatus i t x).slices = s.slices := rfl
@[simp] theorem State.setStatus_dies (s : State) (i : Nat) (t : W32) (x : Status) : (s.setStatus i t x).dies = s.dies := rfl
@[simp] theorem State.setStatus_mem (s : State) (i : Nat) (t : W32) (x : Status) : (s.setStatus i t x).mem = s.mem := rfl
@[simp] theorem State.setStatus_home (s : State) (i : Nat) (t : W32) (x : Status) : (s.setStatus i t x).home = s.home := rfl
@[simp] theorem State.setStatus_futures (s : State) (i : Nat) (t : W32) (x : Status) : (s.setStatus i t x).futures = s.futures := rfl
@[simp] theorem State.setStatus_deferred (s : State) (i : Nat) (t : W32) (x : Status) : (s.setStatus i t x).deferred = s.deferred := rfl
@[simp] theorem State.setStatus_terms (s : State) (i : Nat) (t : W32) (x : Status) : (s.setStatus i t x).terms = s.terms := rfl
@[simp] theorem State.setStatus_queues (s : State) (i : Nat) (t : W32) (x : Status) : (s.setStatus i t x).queues = s.queues := rfl
@[simp] theorem State.setStatus_rows (s : State) (i : Nat) (t : W32) (x : Status) : (s.setStatus i t x).rows = s.rows := rfl
@[simp] theorem State.setStatus_tasks (s : State) (i : Nat) (t : W32) (x : Status) : (s.setStatus i t x).tasks = s.tasks := rfl
@[simp] theorem State.setStatus_order (s : State) (i : Nat) (t : W32) (x : Status) : (s.setStatus i t x).order = s.order := rfl
@[simp] theorem State.setStatus_saved (s : State) (i : Nat) (t : W32) (x : Status) : (s.setStatus i t x).saved = s.saved := rfl
@[simp] theorem State.setStatus_dealAt (s : State) (i : Nat) (t : W32) (x : Status) : (s.setStatus i t x).dealAt = s.dealAt := rfl
@[simp] theorem State.setStatus_tens (s : State) (i : Nat) (t : W32) (x : Status) : (s.setStatus i t x).tens = s.tens := rfl
@[simp] theorem State.setStatus_stops (s : State) (i : Nat) (t : W32) (x : Status) : (s.setStatus i t x).stops = s.stops := rfl
@[simp] theorem State.setStatus_out (s : State) (i : Nat) (t : W32) (x : Status) : (s.setStatus i t x).out = s.out := rfl
@[simp] theorem State.setStatus_ports (s : State) (i : Nat) (t : W32) (x : Status) : (s.setStatus i t x).ports = s.ports := rfl
@[simp] theorem State.setStatus_unreach (s : State) (i : Nat) (t : W32) (x : Status) : (s.setStatus i t x).unreach = s.unreach := rfl
@[simp] theorem State.setStatus_routers (s : State) (i : Nat) (t : W32) (x : Status) : (s.setStatus i t x).routers = s.routers := rfl
@[simp] theorem State.setStatus_msgs (s : State) (i : Nat) (t : W32) (x : Status) : (s.setStatus i t x).msgs = s.msgs := rfl
@[simp] theorem State.setStatus_lantern (s : State) (i : Nat) (t : W32) (x : Status) : (s.setStatus i t x).lantern = s.lantern := rfl
@[simp] theorem State.setStatus_bridge (s : State) (i : Nat) (t : W32) (x : Status) : (s.setStatus i t x).bridge = s.bridge := rfl
@[simp] theorem State.setStatus_aon (s : State) (i : Nat) (t : W32) (x : Status) : (s.setStatus i t x).aon = s.aon := rfl
@[simp] theorem State.setStatus_dev (s : State) (i : Nat) (t : W32) (x : Status) : (s.setStatus i t x).dev = s.dev := rfl
@[simp] theorem State.setStatus_serial (s : State) (i : Nat) (t : W32) (x : Status) : (s.setStatus i t x).serial = s.serial := rfl
@[simp] theorem State.setStatus_upsets (s : State) (i : Nat) (t : W32) (x : Status) : (s.setStatus i t x).upsets = s.upsets := rfl
@[simp] theorem State.setStatus_errs (s : State) (i : Nat) (t : W32) (x : Status) : (s.setStatus i t x).errs = s.errs := rfl
@[simp] theorem State.setStatus_stale (s : State) (i : Nat) (t : W32) (x : Status) : (s.setStatus i t x).stale = s.stale := rfl
@[simp] theorem State.setStatus_ptsAt (s : State) (i : Nat) (t : W32) (x : Status) : (s.setStatus i t x).ptsAt = s.ptsAt := rfl
@[simp] theorem State.setStatus_ptsLow (s : State) (i : Nat) (t : W32) (x : Status) : (s.setStatus i t x).ptsLow = s.ptsLow := rfl
@[simp] theorem State.setStatus_hostTs (s : State) (i : Nat) (t : W32) (x : Status) : (s.setStatus i t x).hostTs = s.hostTs := rfl
@[simp] theorem State.setStatus_farTs (s : State) (i : Nat) (t : W32) (x : Status) : (s.setStatus i t x).farTs = s.farTs := rfl

@[simp] theorem State.sump_issue (s : State) (k d t u x : Nat) (a b : W64) : (s.sump k d t u x a b).issue = s.issue := rfl
@[simp] theorem State.sump_slots (s : State) (k d t u x : Nat) (a b : W64) : (s.sump k d t u x a b).slots = s.slots := rfl
@[simp] theorem State.sump_sched (s : State) (k d t u x : Nat) (a b : W64) : (s.sump k d t u x a b).sched = s.sched := rfl
@[simp] theorem State.sump_free (s : State) (k d t u x : Nat) (a b : W64) : (s.sump k d t u x a b).free = s.free := rfl
@[simp] theorem State.sump_now (s : State) (k d t u x : Nat) (a b : W64) : (s.sump k d t u x a b).now = s.now := rfl
@[simp] theorem State.sump_cores (s : State) (k d t u x : Nat) (a b : W64) : (s.sump k d t u x a b).cores = s.cores := rfl
@[simp] theorem State.sump_cells (s : State) (k d t u x : Nat) (a b : W64) : (s.sump k d t u x a b).cells = s.cells := rfl
@[simp] theorem State.sump_slices (s : State) (k d t u x : Nat) (a b : W64) : (s.sump k d t u x a b).slices = s.slices := rfl
@[simp] theorem State.sump_dies (s : State) (k d t u x : Nat) (a b : W64) : (s.sump k d t u x a b).dies = s.dies := rfl
@[simp] theorem State.sump_mem (s : State) (k d t u x : Nat) (a b : W64) : (s.sump k d t u x a b).mem = s.mem := rfl
@[simp] theorem State.sump_home (s : State) (k d t u x : Nat) (a b : W64) : (s.sump k d t u x a b).home = s.home := rfl
@[simp] theorem State.sump_futures (s : State) (k d t u x : Nat) (a b : W64) : (s.sump k d t u x a b).futures = s.futures := rfl
@[simp] theorem State.sump_deferred (s : State) (k d t u x : Nat) (a b : W64) : (s.sump k d t u x a b).deferred = s.deferred := rfl
@[simp] theorem State.sump_terms (s : State) (k d t u x : Nat) (a b : W64) : (s.sump k d t u x a b).terms = s.terms := rfl
@[simp] theorem State.sump_queues (s : State) (k d t u x : Nat) (a b : W64) : (s.sump k d t u x a b).queues = s.queues := rfl
@[simp] theorem State.sump_rows (s : State) (k d t u x : Nat) (a b : W64) : (s.sump k d t u x a b).rows = s.rows := rfl
@[simp] theorem State.sump_tasks (s : State) (k d t u x : Nat) (a b : W64) : (s.sump k d t u x a b).tasks = s.tasks := rfl
@[simp] theorem State.sump_order (s : State) (k d t u x : Nat) (a b : W64) : (s.sump k d t u x a b).order = s.order := rfl
@[simp] theorem State.sump_saved (s : State) (k d t u x : Nat) (a b : W64) : (s.sump k d t u x a b).saved = s.saved := rfl
@[simp] theorem State.sump_dealAt (s : State) (k d t u x : Nat) (a b : W64) : (s.sump k d t u x a b).dealAt = s.dealAt := rfl
@[simp] theorem State.sump_tens (s : State) (k d t u x : Nat) (a b : W64) : (s.sump k d t u x a b).tens = s.tens := rfl
@[simp] theorem State.sump_stops (s : State) (k d t u x : Nat) (a b : W64) : (s.sump k d t u x a b).stops = s.stops := rfl
@[simp] theorem State.sump_out (s : State) (k d t u x : Nat) (a b : W64) : (s.sump k d t u x a b).out = s.out := rfl
@[simp] theorem State.sump_ports (s : State) (k d t u x : Nat) (a b : W64) : (s.sump k d t u x a b).ports = s.ports := rfl
@[simp] theorem State.sump_unreach (s : State) (k d t u x : Nat) (a b : W64) : (s.sump k d t u x a b).unreach = s.unreach := rfl
@[simp] theorem State.sump_routers (s : State) (k d t u x : Nat) (a b : W64) : (s.sump k d t u x a b).routers = s.routers := rfl
@[simp] theorem State.sump_msgs (s : State) (k d t u x : Nat) (a b : W64) : (s.sump k d t u x a b).msgs = s.msgs := rfl
@[simp] theorem State.sump_lantern (s : State) (k d t u x : Nat) (a b : W64) : (s.sump k d t u x a b).lantern = s.lantern := rfl
@[simp] theorem State.sump_bridge (s : State) (k d t u x : Nat) (a b : W64) : (s.sump k d t u x a b).bridge = s.bridge := rfl
@[simp] theorem State.sump_dev (s : State) (k d t u x : Nat) (a b : W64) : (s.sump k d t u x a b).dev = s.dev := rfl
@[simp] theorem State.sump_serial (s : State) (k d t u x : Nat) (a b : W64) : (s.sump k d t u x a b).serial = s.serial := rfl
@[simp] theorem State.sump_upsets (s : State) (k d t u x : Nat) (a b : W64) : (s.sump k d t u x a b).upsets = s.upsets := rfl
@[simp] theorem State.sump_errs (s : State) (k d t u x : Nat) (a b : W64) : (s.sump k d t u x a b).errs = s.errs := rfl
@[simp] theorem State.sump_stale (s : State) (k d t u x : Nat) (a b : W64) : (s.sump k d t u x a b).stale = s.stale := rfl
@[simp] theorem State.sump_ptsAt (s : State) (k d t u x : Nat) (a b : W64) : (s.sump k d t u x a b).ptsAt = s.ptsAt := rfl
@[simp] theorem State.sump_ptsLow (s : State) (k d t u x : Nat) (a b : W64) : (s.sump k d t u x a b).ptsLow = s.ptsLow := rfl
@[simp] theorem State.sump_hostTs (s : State) (k d t u x : Nat) (a b : W64) : (s.sump k d t u x a b).hostTs = s.hostTs := rfl
@[simp] theorem State.sump_farTs (s : State) (k d t u x : Nat) (a b : W64) : (s.sump k d t u x a b).farTs = s.farTs := rfl

/-! ### A core after an update of its crew -/

@[simp] theorem Core.onCrew_id (c : Core) (f : Crew → Crew) : (c.onCrew f).id = c.id := rfl
@[simp] theorem Core.onCrew_phys (c : Core) (f : Crew → Crew) : (c.onCrew f).phys = c.phys := rfl
@[simp] theorem Core.onCrew_cycle (c : Core) (f : Crew → Crew) : (c.onCrew f).cycle = c.cycle := rfl
@[simp] theorem Core.onCrew_clk (c : Core) (f : Crew → Crew) : (c.onCrew f).clk = c.clk := rfl
@[simp] theorem Core.onCrew_gov (c : Core) (f : Crew → Crew) : (c.onCrew f).gov = c.gov := rfl
@[simp] theorem Core.onCrew_govNext (c : Core) (f : Crew → Crew) : (c.onCrew f).govNext = c.govNext := rfl
@[simp] theorem Core.onCrew_govWin (c : Core) (f : Crew → Crew) : (c.onCrew f).govWin = c.govWin := rfl
@[simp] theorem Core.onCrew_govGate (c : Core) (f : Crew → Crew) : (c.onCrew f).govGate = c.govGate := rfl
@[simp] theorem Core.onCrew_sects (c : Core) (f : Crew → Crew) : (c.onCrew f).sects = c.sects := rfl
@[simp] theorem Core.onCrew_sfeTime (c : Core) (f : Crew → Crew) : (c.onCrew f).sfeTime = c.sfeTime := rfl
@[simp] theorem Core.onCrew_sfeMeta (c : Core) (f : Crew → Crew) : (c.onCrew f).sfeMeta = c.sfeMeta := rfl
@[simp] theorem Core.onCrew_epoch (c : Core) (f : Crew → Crew) : (c.onCrew f).epoch = c.epoch := rfl
@[simp] theorem Core.onCrew_pad (c : Core) (f : Crew → Crew) : (c.onCrew f).pad = c.pad := rfl
@[simp] theorem Core.onCrew_empty (c : Core) (f : Crew → Crew) : (c.onCrew f).empty = c.empty := rfl
@[simp] theorem Core.onCrew_pinned (c : Core) (f : Crew → Crew) : (c.onCrew f).pinned = c.pinned := rfl
@[simp] theorem Core.onCrew_tables (c : Core) (f : Crew → Crew) : (c.onCrew f).tables = c.tables := rfl
@[simp] theorem Core.onCrew_hist (c : Core) (f : Crew → Crew) : (c.onCrew f).hist = c.hist := rfl
@[simp] theorem Core.onCrew_copyq (c : Core) (f : Crew → Crew) : (c.onCrew f).copyq = c.copyq := rfl
@[simp] theorem Core.onCrew_tblq (c : Core) (f : Crew → Crew) : (c.onCrew f).tblq = c.tblq := rfl
@[simp] theorem Core.onCrew_netq (c : Core) (f : Crew → Crew) : (c.onCrew f).netq = c.netq := rfl
@[simp] theorem Core.onCrew_caverq (c : Core) (f : Crew → Crew) : (c.onCrew f).caverq = c.caverq := rfl
@[simp] theorem Core.onCrew_pressq (c : Core) (f : Crew → Crew) : (c.onCrew f).pressq = c.pressq := rfl
@[simp] theorem Core.onCrew_score (c : Core) (f : Crew → Crew) : (c.onCrew f).score = c.score := rfl
@[simp] theorem Core.onCrew_handles (c : Core) (f : Crew → Crew) : (c.onCrew f).handles = c.handles := rfl
@[simp] theorem Core.onCrew_tiles (c : Core) (f : Crew → Crew) : (c.onCrew f).tiles = c.tiles := rfl
@[simp] theorem Core.onCrew_l1 (c : Core) (f : Crew → Crew) : (c.onCrew f).l1 = c.l1 := rfl
@[simp] theorem Core.onCrew_pts (c : Core) (f : Crew → Crew) : (c.onCrew f).pts = c.pts := rfl
@[simp] theorem Core.onCrew_coll (c : Core) (f : Crew → Crew) : (c.onCrew f).coll = c.coll := rfl
@[simp] theorem Core.onCrew_tlb (c : Core) (f : Crew → Crew) : (c.onCrew f).tlb = c.tlb := rfl
@[simp] theorem Core.onCrew_lease (c : Core) (f : Crew → Crew) : (c.onCrew f).lease = c.lease := rfl
@[simp] theorem Core.onCrew_mgidle (c : Core) (f : Crew → Crew) : (c.onCrew f).mgidle = c.mgidle := rfl
@[simp] theorem Core.onCrew_trial (c : Core) (f : Crew → Crew) : (c.onCrew f).trial = c.trial := rfl
@[simp] theorem Core.onCrew_trlo (c : Core) (f : Crew → Crew) : (c.onCrew f).trlo = c.trlo := rfl
@[simp] theorem Core.onCrew_trhi (c : Core) (f : Crew → Crew) : (c.onCrew f).trhi = c.trhi := rfl
@[simp] theorem Core.onCrew_seqs (c : Core) (f : Crew → Crew) : (c.onCrew f).seqs = c.seqs := rfl
@[simp] theorem Core.onCrew_descs (c : Core) (f : Crew → Crew) : (c.onCrew f).descs = c.descs := rfl
@[simp] theorem Core.onCrew_debts (c : Core) (f : Crew → Crew) : (c.onCrew f).debts = c.debts := rfl
@[simp] theorem Core.onCrew_crew (c : Core) (f : Crew → Crew) : (c.onCrew f).crew = c.crew.map f := rfl

/-! ### A thread after its own updates -/

@[simp] theorem Thread.withMode_sfe (t : Thread) (n : Nat) (b : Bool) : (t.withMode n b).sfe = t.sfe := rfl
@[simp] theorem Thread.withMode_place (t : Thread) (n : Nat) (b : Bool) : (t.withMode n b).place = t.place := rfl
@[simp] theorem Thread.withMode_regs (t : Thread) (n : Nat) (b : Bool) : (t.withMode n b).regs = t.regs := rfl
@[simp] theorem Thread.withMode_pc (t : Thread) (n : Nat) (b : Bool) : (t.withMode n b).pc = t.pc := rfl
@[simp] theorem Thread.withMode_win (t : Thread) (n : Nat) (b : Bool) : (t.withMode n b).win = t.win := rfl
@[simp] theorem Thread.withMode_allot (t : Thread) (n : Nat) (b : Bool) : (t.withMode n b).allot = t.allot := rfl
@[simp] theorem Thread.withMode_ident (t : Thread) (n : Nat) (b : Bool) : (t.withMode n b).ident = t.ident := rfl
@[simp] theorem Thread.withMode_str (t : Thread) (n : Nat) (b : Bool) : (t.withMode n b).str = t.str := rfl
@[simp] theorem Thread.withMode_ctl (t : Thread) (n : Nat) (b : Bool) : (t.withMode n b).ctl = t.ctl := rfl
@[simp] theorem Thread.withMode_l0 (t : Thread) (n : Nat) (b : Bool) : (t.withMode n b).l0 = t.l0 := rfl
@[simp] theorem Thread.withMode_l1 (t : Thread) (n : Nat) (b : Bool) : (t.withMode n b).l1 = t.l1 := rfl
@[simp] theorem Thread.withMode_l2 (t : Thread) (n : Nat) (b : Bool) : (t.withMode n b).l2 = t.l2 := rfl
@[simp] theorem Thread.withMode_ra (t : Thread) (n : Nat) (b : Bool) : (t.withMode n b).ra = t.ra := rfl
@[simp] theorem Thread.withMode_ut (t : Thread) (n : Nat) (b : Bool) : (t.withMode n b).ut = t.ut := rfl
@[simp] theorem Thread.withMode_kt (t : Thread) (n : Nat) (b : Bool) : (t.withMode n b).kt = t.kt := rfl
@[simp] theorem Thread.withMode_uhandler (t : Thread) (n : Nat) (b : Bool) : (t.withMode n b).uhandler = t.uhandler := rfl
@[simp] theorem Thread.withMode_khandler (t : Thread) (n : Nat) (b : Bool) : (t.withMode n b).khandler = t.khandler := rfl
@[simp] theorem Thread.withMode_ptbase (t : Thread) (n : Nat) (b : Bool) : (t.withMode n b).ptbase = t.ptbase := rfl
@[simp] theorem Thread.withMode_svcq (t : Thread) (n : Nat) (b : Bool) : (t.withMode n b).svcq = t.svcq := rfl
@[simp] theorem Thread.withMode_dqpos (t : Thread) (n : Nat) (b : Bool) : (t.withMode n b).dqpos = t.dqpos := rfl
@[simp] theorem Thread.withMode_bpend (t : Thread) (n : Nat) (b : Bool) : (t.withMode n b).bpend = t.bpend := rfl
@[simp] theorem Thread.withMode_locbase (t : Thread) (n : Nat) (b : Bool) : (t.withMode n b).locbase = t.locbase := rfl
@[simp] theorem Thread.withMode_watch (t : Thread) (n : Nat) (b : Bool) : (t.withMode n b).watch = t.watch := rfl
@[simp] theorem Thread.withMode_clkShadow (t : Thread) (n : Nat) (b : Bool) : (t.withMode n b).clkShadow = t.clkShadow := rfl
@[simp] theorem Thread.withMode_status (t : Thread) (n : Nat) (b : Bool) : (t.withMode n b).status = t.status := rfl
@[simp] theorem Thread.withMode_pending (t : Thread) (n : Nat) (b : Bool) : (t.withMode n b).pending = t.pending := rfl
@[simp] theorem Thread.withMode_triggered (t : Thread) (n : Nat) (b : Bool) : (t.withMode n b).triggered = t.triggered := rfl
@[simp] theorem Thread.withMode_depth (t : Thread) (n : Nat) (b : Bool) : (t.withMode n b).depth = t.depth := rfl
@[simp] theorem Thread.withMode_serial (t : Thread) (n : Nat) (b : Bool) : (t.withMode n b).serial = t.serial := rfl
@[simp] theorem Thread.withMode_qm (t : Thread) (n : Nat) (b : Bool) : (t.withMode n b).qm = t.qm := rfl
@[simp] theorem Thread.withMode_walked (t : Thread) (n : Nat) (b : Bool) : (t.withMode n b).walked = t.walked := rfl
@[simp] theorem Thread.withMode_refused (t : Thread) (n : Nat) (b : Bool) : (t.withMode n b).refused = t.refused := rfl
@[simp] theorem Thread.withMode_far (t : Thread) (n : Nat) (b : Bool) : (t.withMode n b).far = t.far := rfl
@[simp] theorem Thread.withMode_answer (t : Thread) (n : Nat) (b : Bool) : (t.withMode n b).answer = t.answer := rfl
@[simp] theorem Thread.withMode_owed (t : Thread) (n : Nat) (b : Bool) : (t.withMode n b).owed = t.owed := rfl
@[simp] theorem Thread.withMode_rejoin (t : Thread) (n : Nat) (b : Bool) : (t.withMode n b).rejoin = t.rejoin := rfl
@[simp] theorem Thread.setUnseen_sfe (t : Thread) : (t.setUnseen).sfe = t.sfe := rfl
@[simp] theorem Thread.setUnseen_place (t : Thread) : (t.setUnseen).place = t.place := rfl
@[simp] theorem Thread.setUnseen_regs (t : Thread) : (t.setUnseen).regs = t.regs := rfl
@[simp] theorem Thread.setUnseen_pc (t : Thread) : (t.setUnseen).pc = t.pc := rfl
@[simp] theorem Thread.setUnseen_win (t : Thread) : (t.setUnseen).win = t.win := rfl
@[simp] theorem Thread.setUnseen_allot (t : Thread) : (t.setUnseen).allot = t.allot := rfl
@[simp] theorem Thread.setUnseen_ident (t : Thread) : (t.setUnseen).ident = t.ident := rfl
@[simp] theorem Thread.setUnseen_str (t : Thread) : (t.setUnseen).str = t.str := rfl
@[simp] theorem Thread.setUnseen_l0 (t : Thread) : (t.setUnseen).l0 = t.l0 := rfl
@[simp] theorem Thread.setUnseen_l1 (t : Thread) : (t.setUnseen).l1 = t.l1 := rfl
@[simp] theorem Thread.setUnseen_l2 (t : Thread) : (t.setUnseen).l2 = t.l2 := rfl
@[simp] theorem Thread.setUnseen_ra (t : Thread) : (t.setUnseen).ra = t.ra := rfl
@[simp] theorem Thread.setUnseen_ut (t : Thread) : (t.setUnseen).ut = t.ut := rfl
@[simp] theorem Thread.setUnseen_kt (t : Thread) : (t.setUnseen).kt = t.kt := rfl
@[simp] theorem Thread.setUnseen_uhandler (t : Thread) : (t.setUnseen).uhandler = t.uhandler := rfl
@[simp] theorem Thread.setUnseen_khandler (t : Thread) : (t.setUnseen).khandler = t.khandler := rfl
@[simp] theorem Thread.setUnseen_mode (t : Thread) : (t.setUnseen).mode = t.mode := rfl
@[simp] theorem Thread.setUnseen_ptbase (t : Thread) : (t.setUnseen).ptbase = t.ptbase := rfl
@[simp] theorem Thread.setUnseen_svcq (t : Thread) : (t.setUnseen).svcq = t.svcq := rfl
@[simp] theorem Thread.setUnseen_dqpos (t : Thread) : (t.setUnseen).dqpos = t.dqpos := rfl
@[simp] theorem Thread.setUnseen_bpend (t : Thread) : (t.setUnseen).bpend = t.bpend := rfl
@[simp] theorem Thread.setUnseen_locbase (t : Thread) : (t.setUnseen).locbase = t.locbase := rfl
@[simp] theorem Thread.setUnseen_watch (t : Thread) : (t.setUnseen).watch = t.watch := rfl
@[simp] theorem Thread.setUnseen_clkShadow (t : Thread) : (t.setUnseen).clkShadow = t.clkShadow := rfl
@[simp] theorem Thread.setUnseen_status (t : Thread) : (t.setUnseen).status = t.status := rfl
@[simp] theorem Thread.setUnseen_pending (t : Thread) : (t.setUnseen).pending = t.pending := rfl
@[simp] theorem Thread.setUnseen_triggered (t : Thread) : (t.setUnseen).triggered = t.triggered := rfl
@[simp] theorem Thread.setUnseen_depth (t : Thread) : (t.setUnseen).depth = t.depth := rfl
@[simp] theorem Thread.setUnseen_serial (t : Thread) : (t.setUnseen).serial = t.serial := rfl
@[simp] theorem Thread.setUnseen_qm (t : Thread) : (t.setUnseen).qm = t.qm := rfl
@[simp] theorem Thread.setUnseen_walked (t : Thread) : (t.setUnseen).walked = t.walked := rfl
@[simp] theorem Thread.setUnseen_refused (t : Thread) : (t.setUnseen).refused = t.refused := rfl
@[simp] theorem Thread.setUnseen_far (t : Thread) : (t.setUnseen).far = t.far := rfl
@[simp] theorem Thread.setUnseen_answer (t : Thread) : (t.setUnseen).answer = t.answer := rfl
@[simp] theorem Thread.setUnseen_owed (t : Thread) : (t.setUnseen).owed = t.owed := rfl
@[simp] theorem Thread.setUnseen_rejoin (t : Thread) : (t.setUnseen).rejoin = t.rejoin := rfl
@[simp] theorem Thread.clearWskip_sfe (t : Thread) : (t.clearWskip).sfe = t.sfe := rfl
@[simp] theorem Thread.clearWskip_place (t : Thread) : (t.clearWskip).place = t.place := rfl
@[simp] theorem Thread.clearWskip_regs (t : Thread) : (t.clearWskip).regs = t.regs := rfl
@[simp] theorem Thread.clearWskip_pc (t : Thread) : (t.clearWskip).pc = t.pc := rfl
@[simp] theorem Thread.clearWskip_win (t : Thread) : (t.clearWskip).win = t.win := rfl
@[simp] theorem Thread.clearWskip_allot (t : Thread) : (t.clearWskip).allot = t.allot := rfl
@[simp] theorem Thread.clearWskip_ident (t : Thread) : (t.clearWskip).ident = t.ident := rfl
@[simp] theorem Thread.clearWskip_str (t : Thread) : (t.clearWskip).str = t.str := rfl
@[simp] theorem Thread.clearWskip_l0 (t : Thread) : (t.clearWskip).l0 = t.l0 := rfl
@[simp] theorem Thread.clearWskip_l1 (t : Thread) : (t.clearWskip).l1 = t.l1 := rfl
@[simp] theorem Thread.clearWskip_l2 (t : Thread) : (t.clearWskip).l2 = t.l2 := rfl
@[simp] theorem Thread.clearWskip_ra (t : Thread) : (t.clearWskip).ra = t.ra := rfl
@[simp] theorem Thread.clearWskip_ut (t : Thread) : (t.clearWskip).ut = t.ut := rfl
@[simp] theorem Thread.clearWskip_kt (t : Thread) : (t.clearWskip).kt = t.kt := rfl
@[simp] theorem Thread.clearWskip_uhandler (t : Thread) : (t.clearWskip).uhandler = t.uhandler := rfl
@[simp] theorem Thread.clearWskip_khandler (t : Thread) : (t.clearWskip).khandler = t.khandler := rfl
@[simp] theorem Thread.clearWskip_mode (t : Thread) : (t.clearWskip).mode = t.mode := rfl
@[simp] theorem Thread.clearWskip_ptbase (t : Thread) : (t.clearWskip).ptbase = t.ptbase := rfl
@[simp] theorem Thread.clearWskip_svcq (t : Thread) : (t.clearWskip).svcq = t.svcq := rfl
@[simp] theorem Thread.clearWskip_dqpos (t : Thread) : (t.clearWskip).dqpos = t.dqpos := rfl
@[simp] theorem Thread.clearWskip_bpend (t : Thread) : (t.clearWskip).bpend = t.bpend := rfl
@[simp] theorem Thread.clearWskip_locbase (t : Thread) : (t.clearWskip).locbase = t.locbase := rfl
@[simp] theorem Thread.clearWskip_watch (t : Thread) : (t.clearWskip).watch = t.watch := rfl
@[simp] theorem Thread.clearWskip_clkShadow (t : Thread) : (t.clearWskip).clkShadow = t.clkShadow := rfl
@[simp] theorem Thread.clearWskip_status (t : Thread) : (t.clearWskip).status = t.status := rfl
@[simp] theorem Thread.clearWskip_pending (t : Thread) : (t.clearWskip).pending = t.pending := rfl
@[simp] theorem Thread.clearWskip_triggered (t : Thread) : (t.clearWskip).triggered = t.triggered := rfl
@[simp] theorem Thread.clearWskip_depth (t : Thread) : (t.clearWskip).depth = t.depth := rfl
@[simp] theorem Thread.clearWskip_serial (t : Thread) : (t.clearWskip).serial = t.serial := rfl
@[simp] theorem Thread.clearWskip_qm (t : Thread) : (t.clearWskip).qm = t.qm := rfl
@[simp] theorem Thread.clearWskip_walked (t : Thread) : (t.clearWskip).walked = [] := rfl
@[simp] theorem Thread.clearWskip_refused (t : Thread) : (t.clearWskip).refused = t.refused := rfl
@[simp] theorem Thread.clearWskip_far (t : Thread) : (t.clearWskip).far = t.far := rfl
@[simp] theorem Thread.clearWskip_answer (t : Thread) : (t.clearWskip).answer = t.answer := rfl
@[simp] theorem Thread.clearWskip_owed (t : Thread) : (t.clearWskip).owed = t.owed := rfl
@[simp] theorem Thread.clearWskip_rejoin (t : Thread) : (t.clearWskip).rejoin = t.rejoin := rfl
@[simp] theorem Thread.setBpend_sfe (t : Thread) (l : Nat) (b : Bool) : (t.setBpend l b).sfe = t.sfe := rfl
@[simp] theorem Thread.setBpend_place (t : Thread) (l : Nat) (b : Bool) : (t.setBpend l b).place = t.place := rfl
@[simp] theorem Thread.setBpend_regs (t : Thread) (l : Nat) (b : Bool) : (t.setBpend l b).regs = t.regs := rfl
@[simp] theorem Thread.setBpend_pc (t : Thread) (l : Nat) (b : Bool) : (t.setBpend l b).pc = t.pc := rfl
@[simp] theorem Thread.setBpend_win (t : Thread) (l : Nat) (b : Bool) : (t.setBpend l b).win = t.win := rfl
@[simp] theorem Thread.setBpend_allot (t : Thread) (l : Nat) (b : Bool) : (t.setBpend l b).allot = t.allot := rfl
@[simp] theorem Thread.setBpend_ident (t : Thread) (l : Nat) (b : Bool) : (t.setBpend l b).ident = t.ident := rfl
@[simp] theorem Thread.setBpend_str (t : Thread) (l : Nat) (b : Bool) : (t.setBpend l b).str = t.str := rfl
@[simp] theorem Thread.setBpend_ctl (t : Thread) (l : Nat) (b : Bool) : (t.setBpend l b).ctl = t.ctl := rfl
@[simp] theorem Thread.setBpend_l0 (t : Thread) (l : Nat) (b : Bool) : (t.setBpend l b).l0 = t.l0 := rfl
@[simp] theorem Thread.setBpend_l1 (t : Thread) (l : Nat) (b : Bool) : (t.setBpend l b).l1 = t.l1 := rfl
@[simp] theorem Thread.setBpend_l2 (t : Thread) (l : Nat) (b : Bool) : (t.setBpend l b).l2 = t.l2 := rfl
@[simp] theorem Thread.setBpend_ra (t : Thread) (l : Nat) (b : Bool) : (t.setBpend l b).ra = t.ra := rfl
@[simp] theorem Thread.setBpend_ut (t : Thread) (l : Nat) (b : Bool) : (t.setBpend l b).ut = t.ut := rfl
@[simp] theorem Thread.setBpend_kt (t : Thread) (l : Nat) (b : Bool) : (t.setBpend l b).kt = t.kt := rfl
@[simp] theorem Thread.setBpend_uhandler (t : Thread) (l : Nat) (b : Bool) : (t.setBpend l b).uhandler = t.uhandler := rfl
@[simp] theorem Thread.setBpend_khandler (t : Thread) (l : Nat) (b : Bool) : (t.setBpend l b).khandler = t.khandler := rfl
@[simp] theorem Thread.setBpend_mode (t : Thread) (l : Nat) (b : Bool) : (t.setBpend l b).mode = t.mode := rfl
@[simp] theorem Thread.setBpend_ptbase (t : Thread) (l : Nat) (b : Bool) : (t.setBpend l b).ptbase = t.ptbase := rfl
@[simp] theorem Thread.setBpend_svcq (t : Thread) (l : Nat) (b : Bool) : (t.setBpend l b).svcq = t.svcq := rfl
@[simp] theorem Thread.setBpend_dqpos (t : Thread) (l : Nat) (b : Bool) : (t.setBpend l b).dqpos = t.dqpos := rfl
@[simp] theorem Thread.setBpend_locbase (t : Thread) (l : Nat) (b : Bool) : (t.setBpend l b).locbase = t.locbase := rfl
@[simp] theorem Thread.setBpend_watch (t : Thread) (l : Nat) (b : Bool) : (t.setBpend l b).watch = t.watch := rfl
@[simp] theorem Thread.setBpend_clkShadow (t : Thread) (l : Nat) (b : Bool) : (t.setBpend l b).clkShadow = t.clkShadow := rfl
@[simp] theorem Thread.setBpend_status (t : Thread) (l : Nat) (b : Bool) : (t.setBpend l b).status = t.status := rfl
@[simp] theorem Thread.setBpend_pending (t : Thread) (l : Nat) (b : Bool) : (t.setBpend l b).pending = t.pending := rfl
@[simp] theorem Thread.setBpend_triggered (t : Thread) (l : Nat) (b : Bool) : (t.setBpend l b).triggered = t.triggered := rfl
@[simp] theorem Thread.setBpend_depth (t : Thread) (l : Nat) (b : Bool) : (t.setBpend l b).depth = t.depth := rfl
@[simp] theorem Thread.setBpend_serial (t : Thread) (l : Nat) (b : Bool) : (t.setBpend l b).serial = t.serial := rfl
@[simp] theorem Thread.setBpend_qm (t : Thread) (l : Nat) (b : Bool) : (t.setBpend l b).qm = t.qm := rfl
@[simp] theorem Thread.setBpend_walked (t : Thread) (l : Nat) (b : Bool) : (t.setBpend l b).walked = t.walked := rfl
@[simp] theorem Thread.setBpend_refused (t : Thread) (l : Nat) (b : Bool) : (t.setBpend l b).refused = t.refused := rfl
@[simp] theorem Thread.setBpend_far (t : Thread) (l : Nat) (b : Bool) : (t.setBpend l b).far = t.far := rfl
@[simp] theorem Thread.setBpend_answer (t : Thread) (l : Nat) (b : Bool) : (t.setBpend l b).answer = t.answer := rfl
@[simp] theorem Thread.setBpend_owed (t : Thread) (l : Nat) (b : Bool) : (t.setBpend l b).owed = t.owed := rfl
@[simp] theorem Thread.setBpend_rejoin (t : Thread) (l : Nat) (b : Bool) : (t.setBpend l b).rejoin = t.rejoin := rfl
@[simp] theorem Thread.jumpTo_sfe (t : Thread) (x : W64) : (t.jumpTo x).sfe = t.sfe := rfl
@[simp] theorem Thread.jumpTo_place (t : Thread) (x : W64) : (t.jumpTo x).place = t.place := rfl
@[simp] theorem Thread.jumpTo_regs (t : Thread) (x : W64) : (t.jumpTo x).regs = t.regs := rfl
@[simp] theorem Thread.jumpTo_win (t : Thread) (x : W64) : (t.jumpTo x).win = t.win := rfl
@[simp] theorem Thread.jumpTo_allot (t : Thread) (x : W64) : (t.jumpTo x).allot = t.allot := rfl
@[simp] theorem Thread.jumpTo_ident (t : Thread) (x : W64) : (t.jumpTo x).ident = t.ident := rfl
@[simp] theorem Thread.jumpTo_str (t : Thread) (x : W64) : (t.jumpTo x).str = t.str := rfl
@[simp] theorem Thread.jumpTo_l0 (t : Thread) (x : W64) : (t.jumpTo x).l0 = t.l0 := rfl
@[simp] theorem Thread.jumpTo_l1 (t : Thread) (x : W64) : (t.jumpTo x).l1 = t.l1 := rfl
@[simp] theorem Thread.jumpTo_l2 (t : Thread) (x : W64) : (t.jumpTo x).l2 = t.l2 := rfl
@[simp] theorem Thread.jumpTo_ra (t : Thread) (x : W64) : (t.jumpTo x).ra = t.ra := rfl
@[simp] theorem Thread.jumpTo_ut (t : Thread) (x : W64) : (t.jumpTo x).ut = t.ut := rfl
@[simp] theorem Thread.jumpTo_kt (t : Thread) (x : W64) : (t.jumpTo x).kt = t.kt := rfl
@[simp] theorem Thread.jumpTo_uhandler (t : Thread) (x : W64) : (t.jumpTo x).uhandler = t.uhandler := rfl
@[simp] theorem Thread.jumpTo_khandler (t : Thread) (x : W64) : (t.jumpTo x).khandler = t.khandler := rfl
@[simp] theorem Thread.jumpTo_mode (t : Thread) (x : W64) : (t.jumpTo x).mode = t.mode := rfl
@[simp] theorem Thread.jumpTo_ptbase (t : Thread) (x : W64) : (t.jumpTo x).ptbase = t.ptbase := rfl
@[simp] theorem Thread.jumpTo_svcq (t : Thread) (x : W64) : (t.jumpTo x).svcq = t.svcq := rfl
@[simp] theorem Thread.jumpTo_dqpos (t : Thread) (x : W64) : (t.jumpTo x).dqpos = t.dqpos := rfl
@[simp] theorem Thread.jumpTo_bpend (t : Thread) (x : W64) : (t.jumpTo x).bpend = t.bpend := rfl
@[simp] theorem Thread.jumpTo_locbase (t : Thread) (x : W64) : (t.jumpTo x).locbase = t.locbase := rfl
@[simp] theorem Thread.jumpTo_watch (t : Thread) (x : W64) : (t.jumpTo x).watch = t.watch := rfl
@[simp] theorem Thread.jumpTo_clkShadow (t : Thread) (x : W64) : (t.jumpTo x).clkShadow = t.clkShadow := rfl
@[simp] theorem Thread.jumpTo_status (t : Thread) (x : W64) : (t.jumpTo x).status = t.status := rfl
@[simp] theorem Thread.jumpTo_pending (t : Thread) (x : W64) : (t.jumpTo x).pending = t.pending := rfl
@[simp] theorem Thread.jumpTo_triggered (t : Thread) (x : W64) : (t.jumpTo x).triggered = t.triggered := rfl
@[simp] theorem Thread.jumpTo_depth (t : Thread) (x : W64) : (t.jumpTo x).depth = t.depth := rfl
@[simp] theorem Thread.jumpTo_serial (t : Thread) (x : W64) : (t.jumpTo x).serial = t.serial := rfl
@[simp] theorem Thread.jumpTo_qm (t : Thread) (x : W64) : (t.jumpTo x).qm = t.qm := rfl
@[simp] theorem Thread.jumpTo_walked (t : Thread) (x : W64) : (t.jumpTo x).walked = [] := rfl
@[simp] theorem Thread.jumpTo_refused (t : Thread) (x : W64) : (t.jumpTo x).refused = t.refused := rfl
@[simp] theorem Thread.jumpTo_far (t : Thread) (x : W64) : (t.jumpTo x).far = t.far := rfl
@[simp] theorem Thread.jumpTo_answer (t : Thread) (x : W64) : (t.jumpTo x).answer = t.answer := rfl
@[simp] theorem Thread.jumpTo_owed (t : Thread) (x : W64) : (t.jumpTo x).owed = t.owed := rfl
@[simp] theorem Thread.jumpTo_rejoin (t : Thread) (x : W64) : (t.jumpTo x).rejoin = t.rejoin := rfl
@[simp] theorem Thread.jumpTo_pc (t : Thread) (x : W64) : (t.jumpTo x).pc = x := rfl
@[simp] theorem Crew.onThreads_task (c : Crew) (p : Thread → Bool) (f : View → View) : (c.onThreads p f).task = c.task := by
  unfold Crew.onThreads; split <;> rfl
@[simp] theorem Crew.onThreads_no (c : Crew) (p : Thread → Bool) (f : View → View) : (c.onThreads p f).no = c.no := by
  unfold Crew.onThreads; split <;> rfl
@[simp] theorem Crew.onThreads_ten (c : Crew) (p : Thread → Bool) (f : View → View) : (c.onThreads p f).ten = c.ten := by
  unfold Crew.onThreads; split <;> rfl
@[simp] theorem Crew.onThreads_allot (c : Crew) (p : Thread → Bool) (f : View → View) : (c.onThreads p f).allot = c.allot := by
  unfold Crew.onThreads; split <;> rfl
@[simp] theorem Crew.onThreads_pad (c : Crew) (p : Thread → Bool) (f : View → View) : (c.onThreads p f).pad = c.pad := by
  unfold Crew.onThreads; split <;> rfl
@[simp] theorem Crew.onThreads_replay (c : Crew) (p : Thread → Bool) (f : View → View) : (c.onThreads p f).replay = c.replay := by
  unfold Crew.onThreads; split <;> rfl
@[simp] theorem Crew.onThreads_gangs (c : Crew) (p : Thread → Bool) (f : View → View) : (c.onThreads p f).gangs = c.gangs := by
  unfold Crew.onThreads; split <;> rfl
@[simp] theorem Crew.onThreads_head (c : Crew) (p : Thread → Bool) (f : View → View) : (c.onThreads p f).head = c.head := by
  unfold Crew.onThreads; split <;> rfl
@[simp] theorem Crew.onThreads_dq (c : Crew) (p : Thread → Bool) (f : View → View) : (c.onThreads p f).dq = c.dq := by
  unfold Crew.onThreads; split <;> rfl
@[simp] theorem Crew.onThreads_bins (c : Crew) (p : Thread → Bool) (f : View → View) : (c.onThreads p f).bins = c.bins := by
  unfold Crew.onThreads; split <;> rfl
@[simp] theorem Crew.onThreads_spawned (c : Crew) (p : Thread → Bool) (f : View → View) : (c.onThreads p f).spawned = c.spawned := by
  unfold Crew.onThreads; split <;> rfl
@[simp] theorem Crew.onThreads_aff (c : Crew) (p : Thread → Bool) (f : View → View) : (c.onThreads p f).aff = c.aff := by
  unfold Crew.onThreads; split <;> rfl
@[simp] theorem Crew.onThreads_rspill (c : Crew) (p : Thread → Bool) (f : View → View) : (c.onThreads p f).rspill = c.rspill := by
  unfold Crew.onThreads; split <;> rfl
@[simp] theorem Crew.onThreads_preempt (c : Crew) (p : Thread → Bool) (f : View → View) : (c.onThreads p f).preempt = c.preempt := by
  unfold Crew.onThreads; split <;> rfl
@[simp] theorem Crew.onThreads_owing (c : Crew) (p : Thread → Bool) (f : View → View) : (c.onThreads p f).owing = c.owing := by
  unfold Crew.onThreads; split <;> rfl
@[simp] theorem Crew.onThreads_backs (c : Crew) (p : Thread → Bool) (f : View → View) : (c.onThreads p f).backs = c.backs := by
  unfold Crew.onThreads; split <;> rfl
@[simp] theorem Crew.onThreads_backCnt (c : Crew) (p : Thread → Bool) (f : View → View) : (c.onThreads p f).backCnt = c.backCnt := by
  unfold Crew.onThreads; split <;> rfl
@[simp] theorem Crew.onThreads_backSeen (c : Crew) (p : Thread → Bool) (f : View → View) : (c.onThreads p f).backSeen = c.backSeen := by
  unfold Crew.onThreads; split <;> rfl
@[simp] theorem Crew.onThreads_binRaw (c : Crew) (p : Thread → Bool) (f : View → View) : (c.onThreads p f).binRaw = c.binRaw := by
  unfold Crew.onThreads; split <;> rfl
@[simp] theorem Crew.onThreads_dqRaw (c : Crew) (p : Thread → Bool) (f : View → View) : (c.onThreads p f).dqRaw = c.dqRaw := by
  unfold Crew.onThreads; split <;> rfl
@[simp] theorem View.onTh_th (v : View) (f : Thread → Thread) : (v.onTh f).th = f v.th := rfl
@[simp] theorem View.onTh_k (v : View) (f : Thread → Thread) : (v.onTh f).k = v.k := rfl

end Sys2Proof.Machine
end

