-- ==== Sys2Proof/Laws/Memory.lean ====
section
/-! SUPPORT. Flat memory: a read after a write, and that every operation on memory keeps the canonical form. -/

namespace Sys2Proof.Machine
open Sys2Proof

/-- Memory after a write reads as the byte written. -/
theorem memGet_memSet_same (l : List Host.Cell) (x : Nat) (b : Byte) (h : Memory.wf l) : memGet (memSet l x b) x = b := by
  induction l with
  | nil => by_cases hb : b = 0#8 <;> simp [memSet, memGet, hb]
  | cons c r ih =>
    obtain ⟨a, v⟩ := c
    obtain ⟨hs, hn⟩ := h
    rw [List.pairwise_cons] at hs
    have gone : ∀ y, (∀ p ∈ r, y < p.1) → memGet r y = 0#8 := by
      intro y
      clear ih hs hn
      induction r with
      | nil => intro _; rfl
      | cons p q iq =>
        intro hp
        have := hp p (by simp)
        simp only [memGet]
        rw [if_neg (by omega)]
        exact iq fun z hz => hp z (by simp [hz])
    simp only [memSet]
    split
    · rename_i hlt
      split
      · rename_i hb
        subst hb
        simp only [memGet]
        rw [if_neg (by omega)]
        exact gone x fun p hp => by have := hs.1 p hp; simp only at this; omega
      · simp [memGet]
    · split
      · rename_i heq
        subst heq
        split
        · rename_i hb
          subst hb
          exact gone x hs.1
        · simp [memGet]
      · simp only [memGet]
        rw [if_neg (by omega)]
        exact ih ⟨hs.2, fun p hp => hn p (by simp [hp])⟩

/-- A write leaves every other address alone. -/
theorem memGet_memSet_other (l : List Host.Cell) (x y : Nat) (b : Byte) (h : y ≠ x) (hw : Memory.wf l) :
    memGet (memSet l x b) y = memGet l y := by
  induction l with
  | nil => by_cases hb : b = 0#8 <;> simp [memSet, memGet, hb, h.symm]
  | cons c r ih =>
    obtain ⟨a, v⟩ := c
    obtain ⟨hs, hn⟩ := hw
    rw [List.pairwise_cons] at hs
    simp only [memSet]
    split
    · split
      · rfl
      · simp [memGet, h.symm]
    · split
      · rename_i heq
        subst heq
        split
        · simp [memGet, h.symm]
        · simp [memGet, h.symm]
      · simp only [memGet]
        split
        · rfl
        · exact ih ⟨hs.2, fun p hp => hn p (by simp [hp])⟩

/-- Every address of memory after a write is one of before, or the one written. -/
theorem memSet_addr (l : List Host.Cell) (x : Nat) (b : Byte) : ∀ p ∈ memSet l x b, p ∈ l ∨ (p = (x, b) ∧ b ≠ 0#8) := by
  induction l with
  | nil => by_cases hb : b = 0#8 <;> simp [memSet, hb]
  | cons c r ih =>
    obtain ⟨a, v⟩ := c
    intro p
    simp only [memSet]
    split
    · split
      · exact .inl
      · rename_i hb
        intro hp
        rcases List.mem_cons.1 hp with rfl | hp
        · exact .inr ⟨rfl, hb⟩
        · exact .inl hp
    · split
      · split
        · intro hp; exact .inl (List.mem_cons_of_mem _ hp)
        · rename_i hb
          intro hp
          rcases List.mem_cons.1 hp with rfl | hp
          · exact .inr ⟨rfl, hb⟩
          · exact .inl (List.mem_cons_of_mem _ hp)
      · intro hp
        rcases List.mem_cons.1 hp with rfl | hp
        · exact .inl (by simp)
        · rcases ih p hp with h | h
          · exact .inl (List.mem_cons_of_mem _ h)
          · exact .inr h

/-- A write keeps the canonical form. -/
theorem memSet_wf (l : List Host.Cell) (x : Nat) (b : Byte) (h : Memory.wf l) : Memory.wf (memSet l x b) := by
  refine ⟨?_, fun p hp => ?_⟩
  · induction l with
    | nil => by_cases hb : b = 0#8 <;> simp [memSet, hb]
    | cons c r ih =>
      obtain ⟨a, v⟩ := c
      obtain ⟨hs, hn⟩ := h
      rw [List.pairwise_cons] at hs
      have hr : Memory.wf r := ⟨hs.2, fun p hp => hn p (by simp [hp])⟩
      simp only [memSet]
      split
      · rename_i hlt
        split
        · exact List.pairwise_cons.2 hs
        · refine List.pairwise_cons.2 ⟨fun p hp => ?_, List.pairwise_cons.2 hs⟩
          rcases List.mem_cons.1 hp with rfl | hp
          · exact hlt
          · exact Nat.lt_trans hlt (hs.1 p hp)
      · split
        · rename_i heq
          subst heq
          split
          · exact hs.2
          · exact List.pairwise_cons.2 hs
        · refine List.pairwise_cons.2 ⟨fun p hp => ?_, ih hr⟩
          rcases memSet_addr r x b p hp with hp | ⟨rfl, -⟩
          · exact hs.1 p hp
          · simp only; omega
  · rcases memSet_addr l x b p hp with hp | ⟨rfl, hb⟩
    · exact h.2 p hp
    · exact hb

/-! ### The operations of the state -/

@[simp] theorem State.wrByte_mem_at (s : State) (a : Nat) (b : Byte) : (s.wrByte (.mem a) b).mem = memSet s.mem a b := rfl
@[simp] theorem State.wrByte_mem_pad (s : State) (c o : Nat) (b : Byte) : (s.wrByte (.pad c o) b).mem = s.mem := rfl
@[simp] theorem State.wrByte_mem_cel (s : State) (c o : Nat) (b : Byte) : (s.wrByte (.cel c o) b).mem = s.mem := rfl
@[simp] theorem State.wrByte_mem_state (s : State) (c k o : Nat) (b : Byte) : (s.wrByte (.state c k o) b).mem = s.mem := rfl
@[simp] theorem State.wrByte_mem_remote (s : State) (d : Nat) (a : W64) (b : Byte) : (s.wrByte (.remote d a) b).mem = s.mem := rfl

theorem State.wrByte_wf (s : State) (l : Loc) (b : Byte) (h : Memory.wf s.mem) : Memory.wf (s.wrByte l b).mem := by
  cases l with
  | mem a => exact memSet_wf _ _ _ h
  | _ => exact h

theorem State.wrBytes_wf (s : State) (l : Loc) (bs : List Byte) (h : Memory.wf s.mem) : Memory.wf (s.wrBytes l bs).mem := by
  induction bs generalizing s l with
  | nil => exact h
  | cons b r ih => exact ih _ _ (s.wrByte_wf l b h)

theorem State.wr_wf (s : State) (l : Loc) (n v : Nat) (h : Memory.wf s.mem) : Memory.wf (s.wr l n v).mem := s.wrBytes_wf _ _ h

/-- The device after reset lists no byte. -/
theorem State.reset_mem_wf : Memory.wf State.reset.mem := ⟨.nil, nofun⟩

/-- A byte of memory reads as the last byte written to it. -/
theorem State.rdByte_wrByte_same (s : State) (a : Nat) (b : Byte) (h : Memory.wf s.mem) :
    (s.wrByte (.mem a) b).rdByte (.mem a) = b := memGet_memSet_same _ _ _ h

/-- A write of one byte of memory leaves every other byte alone. -/
theorem State.rdByte_wrByte_other (s : State) (a c : Nat) (b : Byte) (hn : c ≠ a) (h : Memory.wf s.mem) :
    (s.wrByte (.mem a) b).rdByte (.mem c) = s.rdByte (.mem c) := memGet_memSet_other _ _ _ _ hn h

/-! ### Timestamps, future words and replay terms hold no byte -/

theorem State.foldl_mem_wf {α : Type} (f : State → α → State) (hf : ∀ s x, Memory.wf s.mem → Memory.wf (f s x).mem)
    (l : List α) (s : State) (h : Memory.wf s.mem) : Memory.wf (l.foldl f s).mem := by
  induction l generalizing s with
  | nil => exact h
  | cons x r ih => exact ih _ (hf s x h)

@[simp] theorem State.putStamps_mem (s : State) (l : Line) : (s.putStamps l).mem = s.mem := rfl
@[simp] theorem State.raisePts_mem (s : State) (c t : Nat) : (s.raisePts c t).mem = s.mem := rfl
@[simp] theorem State.stampDev_mem (s : State) (l : Loc) : (s.stampDev l).mem = s.mem := rfl
@[simp] theorem State.setFuture_mem (s : State) (l : Loc) (b : Bool) : (s.setFuture l b).mem = s.mem := rfl

@[simp] theorem State.stampLoad_mem (s : State) (c : Nat) (l : Loc) : (s.stampLoad c l).mem = s.mem := by
  simp only [State.stampLoad]; split <;> rfl
@[simp] theorem State.stampStore_mem (s : State) (c : Nat) (l : Loc) : (s.stampStore c l).mem = s.mem := by
  simp only [State.stampStore]; split <;> rfl

theorem State.clearFutures_wf (s : State) (l : Loc) (n : Nat) (h : Memory.wf s.mem) : Memory.wf (s.clearFutures l n).mem :=
  State.foldl_mem_wf (fun s i => s.setFuture (l.plus (8 * i)) false) (fun _ _ hs => hs) _ _ h

/-! ### Stores to page tables (R362, R365) -/

/-- Memory without some of its bytes has the canonical form. -/
theorem Memory.wf_filter {l : List Host.Cell} (p : Host.Cell → Bool) (h : Memory.wf l) : Memory.wf (l.filter p) :=
  ⟨h.1.filter p, fun c hc => h.2 c (List.mem_of_mem_filter hc)⟩

/-- Mapping or removing a pinned page removes bytes at most. -/
theorem State.pinPage_mem (was s : State) (e : W64) (lvl : Nat) (on root : Bool) :
    (was.pinPage s e lvl on root).mem = s.mem ∨ ∃ p, (was.pinPage s e lvl on root).mem = s.mem.filter p := by
  unfold State.pinPage
  simp only
  repeat' split
  all_goals first | exact .inl rfl | exact .inr ⟨_, rfl⟩

theorem State.pinPage_wf (was s : State) (e : W64) (lvl : Nat) (on root : Bool) (h : Memory.wf s.mem) :
    Memory.wf (was.pinPage s e lvl on root).mem := by
  rcases was.pinPage_mem s e lvl on root with hm | ⟨p, hm⟩ <;> rw [hm]
  · exact h
  · exact Memory.wf_filter p h

theorem State.mapPages_wf (was : State) (on root : Bool) (n : Nat) (s : State) (e : W64) (h : Memory.wf s.mem) :
    Memory.wf (was.mapPages s on root e n).mem := by
  induction n generalizing s e with
  | zero => exact h
  | succ n ih =>
    unfold State.mapPages
    split
    · exact h
    · split
      · exact was.pinPage_wf _ _ _ _ _ h
      · split
        · exact h
        · exact State.foldl_mem_wf _ (fun t _ ht => ih t _ ht) _ _ h

theorem State.mapRoot_wf (s : State) (root : Nat) (h : Memory.wf s.mem) : Memory.wf (s.mapRoot root).mem :=
  State.foldl_mem_wf _ (fun t _ ht => s.mapPages_wf _ _ _ t _ ht) _ _ h

theorem State.entryStored_wf (s : State) (a : Nat) (old : W64) (h : Memory.wf s.mem) : Memory.wf (s.entryStored a old).mem := by
  unfold State.entryStored
  simp only
  split
  · exact h
  · split
    · exact h
    · split
      · exact h
      · exact State.mapPages_wf _ _ _ _ _ _ h

theorem State.wrTables_wf (s : State) (l : Loc) (n v : Nat) (h : Memory.wf s.mem) : Memory.wf (s.wrTables l n v).mem := by
  unfold State.wrTables
  cases l with
  | mem a => exact State.foldl_mem_wf _ (fun t _ ht => t.entryStored_wf _ _ ht) _ _ (s.wr_wf _ _ _ h)
  | _ => exact s.wr_wf _ _ _ h

/-! ### Replay terms (R240) -/

@[simp] theorem State.raiseAll_mem (s : State) (t : Nat) : (s.raiseAll t).mem = s.mem := rfl

theorem State.foldl_mem_eq {α : Type} (f : State → α → State) (hf : ∀ s x, (f s x).mem = s.mem) (l : List α) (s : State) :
    (l.foldl f s).mem = s.mem := by
  induction l generalizing s with
  | nil => rfl
  | cons x r ih => exact (ih _).trans (hf s x)

@[simp] theorem State.stampTerms_mem (s : State) (ts : List Term) : (s.stampTerms ts).mem = s.mem := by
  unfold State.stampTerms
  refine State.foldl_mem_eq _ (fun s l => ?_) _ _
  simp only
  have : ∀ (cs : List Nat) (n : Nat) (s : State), (cs.foldl (fun s c => s.raisePts c n) s).mem = s.mem := fun cs n s =>
    State.foldl_mem_eq (fun s c => s.raisePts c n) (fun _ _ => rfl) _ _
  split
  · exact this _ _ _
  · exact this _ _ _

theorem State.applyTerm_wf (s : State) (t : Term) (h : Memory.wf s.mem) : Memory.wf (s.applyTerm t).mem := by
  unfold State.applyTerm
  simp only
  split
  · exact h
  · split
    · exact h
    · exact State.wrTables_wf _ _ _ _ (s.clearFutures_wf _ _ h)

theorem State.settle_wf (s : State) (l : Loc) (n : Nat) (h : Memory.wf s.mem) : Memory.wf (s.settle l n).mem := by
  unfold State.settle
  simp only
  split
  · exact h
  · rw [State.stampTerms_mem]
    exact State.foldl_mem_wf _ (fun s x => s.applyTerm_wf x) _ _ h

theorem State.spillTerms_wf (s : State) (home : Nat) (h : Memory.wf s.mem) : Memory.wf (s.spillTerms home).mem := by
  unfold State.spillTerms
  split
  · exact h
  · exact s.settle_wf _ _ h

theorem State.holdTerm_wf (s : State) (t : Term) (h : Memory.wf s.mem) : Memory.wf (s.holdTerm t).mem := by
  unfold State.holdTerm
  simp only
  split <;> split
  · exact s.settle_wf _ _ h
  · exact State.spillTerms_wf _ _ (s.settle_wf _ _ h)
  · exact h
  · exact s.spillTerms_wf _ h

/-! ### Accesses at their home -/

@[simp] theorem State.touchL1_mem (s : State) (c : Nat) (l : Loc) : (s.touchL1 c l).mem = s.mem := by
  simp only [State.touchL1]; split <;> rfl

theorem State.putBytes_wf (s : State) (l : Loc) (n v : Nat) (h : Memory.wf s.mem) : Memory.wf (s.putBytes l n v).mem :=
  State.wrTables_wf _ _ _ _ (State.clearFutures_wf _ _ _ (s.settle_wf l n h))

theorem State.storeAt_wf (s : State) (c : Nat) (l : Loc) (n v : Nat) (h : Memory.wf s.mem) : Memory.wf (s.storeAt c l n v).mem := by
  simp only [State.storeAt, State.stampStore_mem]
  exact s.putBytes_wf l n v h

/-- Timestamps of lines change no byte of memory. -/
@[simp] theorem State.stampLines_mem (s : State) (c : Nat) (ls : List Loc) : (s.stampLines c ls).mem = s.mem :=
  State.foldl_mem_eq _ (fun s l => by rw [State.touchL1_mem, State.stampStore_mem]) _ _

theorem State.storeEach_wf (s : State) (c : Nat) (xs : List (Loc × Nat × Nat)) (h : Memory.wf s.mem) : Memory.wf (s.storeEach c xs).mem := by
  unfold State.storeEach
  rw [State.stampLines_mem]
  exact State.foldl_mem_wf _ (fun s x hs => s.putBytes_wf _ _ _ hs) _ _ h

theorem State.settledView_wf (s : State) (h : Memory.wf s.mem) : Memory.wf s.settledView.mem :=
  State.foldl_mem_wf _ (fun s _ hs => s.settle_wf _ _ hs) _ _ h

theorem State.settleTables_wf (s : State) (root : W64) (h : Memory.wf s.mem) : Memory.wf (s.settleTables root).mem :=
  State.foldl_mem_wf _ (fun s _ hs => s.settle_wf _ _ hs) _ _ h

theorem State.mvWrite_wf (s : State) (m : Mv) (v : Nat) (keep : Loc → Bool) (h : Memory.wf s.mem) : Memory.wf (s.mvWrite m v keep).mem := by
  unfold State.mvWrite
  refine State.foldl_mem_wf _ (fun s x hs => ?_) _ _ h
  split
  · exact State.wr_wf _ _ _ _ (s.clearFutures_wf _ _ hs)
  · exact hs

theorem State.entriesStored_wf (was s : State) (written : List Loc) (h : Memory.wf s.mem) : Memory.wf (was.entriesStored s written).mem :=
  State.foldl_mem_wf _ (fun s _ hs => s.entryStored_wf _ _ hs) _ _ h

@[simp] theorem State.answerLdf_mem (s : State) (v : Nat) (d : Deferred) : (s.answerLdf v d).mem = s.mem := by
  simp only [State.answerLdf]
  repeat' split
  all_goals rfl

theorem State.answerAll_wf (s : State) (l : Loc) (v : Nat) (h : Memory.wf s.mem) : Memory.wf (s.answerAll l v).mem := by
  unfold State.answerAll
  refine State.foldl_mem_wf _ (fun t d ht => ?_) _ _ h
  rwa [State.answerLdf_mem, State.stampLoad_mem]

theorem State.stfAt_wf (s : State) (c : Nat) (l : Loc) (v : Nat) (h : Memory.wf s.mem) : Memory.wf (s.stfAt c l v).mem := by
  unfold State.stfAt
  refine State.answerAll_wf _ _ _ ?_
  simp only [State.stampStore_mem, State.setFuture_mem]
  exact State.wrTables_wf _ _ _ _ (s.settle_wf l 8 h)

theorem State.perform_wf (s : State) (c : Nat) (l : Loc) (n : Nat) (op : ReqOp) (h : Memory.wf s.mem) :
    Memory.wf (s.perform c l n op).1.mem := by
  cases op with
  | load sz => simpa only [State.perform, State.stampLoad_mem] using s.settle_wf l n h
  | future => simpa only [State.perform, State.stampLoad_mem] using s.settle_wf l n h
  | store v => exact s.storeAt_wf _ _ _ _ h
  | stf v => exact s.stfAt_wf _ _ _ h
  | term op y ten task crew tid => exact s.holdTerm_wf _ h
  | rmw op y e =>
    simp only [State.perform]
    split
    · simpa only [State.stampLoad_mem] using s.settle_wf l n h
    · exact State.storeAt_wf _ _ _ _ _ (s.settle_wf l n h)

/-- Bytes written below an address leave it alone. -/
theorem State.wrBytes_outside (s : State) (a x : Nat) (bs : List Byte) (h : Memory.wf s.mem) (hx : x < a ∨ a + bs.length ≤ x) :
    (s.wrBytes (.mem a) bs).rdByte (.mem x) = s.rdByte (.mem x) := by
  induction bs generalizing s a with
  | nil => rfl
  | cons b r ih =>
    simp only [List.length_cons] at hx
    have hw : Memory.wf (s.wrByte (.mem a) b).mem := s.wrByte_wf _ b h
    have := ih (s.wrByte (.mem a) b) (a + 1) hw (by omega)
    exact this.trans (s.rdByte_wrByte_other a x b (by omega) h)

end Sys2Proof.Machine
end

