-- ==== Sys2Proof/Laws/Ops.lean ====
section
/-! SUPPORT. What the shared operations do: a run whose lanes all pass executes (R137), taking a trap, and the issue of a
command. -/

namespace Sys2Proof.Machine
open Sys2Proof

/-! ### Splits of a run whose lanes all pass -/

theorem trapsOf_ok {l : List (Thread × Verdict)} (h : ∀ x ∈ l, x.2 = .ok) : trapsOf l = [] := by
  simp only [trapsOf, List.filterMap_eq_nil_iff]
  rintro ⟨t, v⟩ hx; rw [show v = .ok from h _ hx]

theorem waitsOf_ok {l : List (Thread × Verdict)} (h : ∀ x ∈ l, x.2 = .ok) : waitsOf l = [] := by
  simp only [waitsOf, List.filterMap_eq_nil_iff]
  rintro ⟨t, v⟩ hx; rw [show v = .ok from h _ hx]

theorem oksOf_ok {l : List (Thread × Verdict)} (h : ∀ x ∈ l, x.2 = .ok) : oksOf l = l.map fun x => x.1.ident.tid := by
  induction l with
  | nil => rfl
  | cons x r ih =>
    obtain ⟨t, v⟩ := x
    have hv : v = .ok := h (t, v) (by simp)
    subst hv
    simpa [oksOf] using ih fun y hy => h y (List.mem_cons_of_mem _ hy)

theorem splitLanes_ok {l : List (Thread × Verdict)} (h : ∀ x ∈ l, x.2 = .ok) :
    splitLanes l = { go := l.map fun x => x.1.ident.tid } := by
  simp [splitLanes, trapsOf_ok h, oksOf_ok h, waitsOf_ok h, readTraps, Split.together, softTraps]

theorem splitAll_ok {l : List (Thread × Verdict)} (h : ∀ x ∈ l, x.2 = .ok) :
    splitAll l = { go := l.map fun x => x.1.ident.tid } := by
  simp [splitAll, trapsOf_ok h, oksOf_ok h, waitsOf_ok h]

theorem splitNet_ok {l : List (Thread × Verdict)} (h : ∀ x ∈ l, x.2 = .ok) :
    splitNet l = { go := l.map fun x => x.1.ident.tid } := by
  simp [splitNet, trapsOf_ok h, splitAll_ok h]

theorem State.verdicts_ok {s : State} {f : View → Verdict} (h : ∀ v ∈ s.run, f v = .ok) :
    ∀ x ∈ s.verdicts f, x.2 = .ok := by
  intro x hx
  obtain ⟨v, hv, rfl⟩ := List.mem_map.1 hx
  exact h v hv

theorem State.verdicts_tids (s : State) (f : View → Verdict) :
    (s.verdicts f).map (fun x => x.1.ident.tid) = s.tids := by simp [verdicts, tids]

theorem State.tids_ne {s : State} {f : View → Verdict} (h : s.passes f) : s.tids ≠ [] := by
  simpa [tids] using h.1

theorem State.applySplit_go {s : State} (o : Opnds) (act : List W32 → State → State) (h : s.tids ≠ []) :
    s.applySplit o { go := s.tids } act = s.does o act := by
  simp [applySplit, does, h]

/-- An instruction of each lane alone whose lanes all pass has its effect. -/
theorem State.eachLane_passes {s : State} (k : LaneForm) (h : k.goes s) : s.eachLane k = k.result s := by
  simp only [eachLane, LaneForm.result]
  rw [splitLanes_ok (s.verdicts_ok h.2), s.verdicts_tids, s.applySplit_go _ _ (tids_ne h)]

/-- A collective instruction whose lanes all pass has its effect. -/
theorem State.allLanes_passes {s : State} (k : LaneForm) (h : k.goes s) : s.allLanes k = k.result s := by
  simp only [allLanes, LaneForm.result]
  rw [splitAll_ok (s.verdicts_ok h.2), s.verdicts_tids, s.applySplit_go _ _ (tids_ne h)]

/-- An instruction that never parks, whose lanes all pass, has its effect. -/
theorem State.stillLanes_passes {s : State} (k : LaneForm) (h : k.goes s) : s.stillLanes k = k.result s := by
  simp only [stillLanes, LaneForm.result]
  rw [splitLanes_ok (s.verdicts_ok h.2), s.verdicts_tids]
  exact s.applySplit_go _ _ (tids_ne h)

/-- An instruction that changes only its lane, in a run that is ready. -/
theorem State.lanes_ready {s : State} {o : Opnds} {chk : View → Verdict} (h : s.ready o chk) (f : View → View) :
    s.lanes o chk f = s.each o f :=
  s.eachLane_passes (.thenDo o chk f fun _ s => s) h

/-! ### The issue of a command -/

/-- A command whose issue conditions hold enters its queue. -/
theorem State.engIssue_issues {s : State} {o : R2} {k : EngForm} {good : List Issuer} (h : s.issues o k good) :
    s.engIssue o k = s.issued o k good := by
  obtain ⟨hp, hi, hr⟩ := h
  simp only [engIssue]
  have hne := tids_ne hp
  rw [splitAll_ok (s.verdicts_ok hp.2), s.verdicts_tids, hi]
  simp [List.filterMap_map, hne, hr, issued, s.applySplit_go _ _ hne]

end Sys2Proof.Machine
end

