-- ==== Sys2Proof/Laws/PerInstr.lean ====
section
/-! SUPPORT. Decoding what the encoder writes, one lemma per constructor of Instr (R32, R35, R36, R40 to R42): the word of a
well-formed instruction, behind its X word where it has one, decodes to that instruction. A constructor that is a step of the
device and no instruction word has no encoding. -/

namespace Sys2Proof.Laws
open Sys2Proof

/-- What the family says of one instruction. -/
def Encoding.Statement (i : Instr) : Prop :=
  i.wf = true → match rawOf i with
    | none => encode i = none
    | some ⟨w, none⟩ => ∀ n, decode2 w n = .ok (i, 4)
    | some ⟨w, some x⟩ => decode2 (packX x) (some w) = .ok (i, 8)

/-- A word whose major opcode is not that of the X word decodes alone. -/
theorem decode2_plain {w : W32} {i : Instr} {op : BitVec 6} (h : opOf w = op) (hx : op ≠ 0x3F#6)
    (hd : decodeWord w = .ok i) (n : Option W32) : decode2 w n = .ok (i, 4) := by
  simp [decode2, h, hx, hd, Except.map]

/-- A word behind an X word. -/
theorem decode2_prefixed {x : BitVec 26} {w : W32} {j : Instr} (h : decodeX x w = .ok j) :
    decode2 (packX x) (some w) = .ok (j, 8) := by
  simp [decode2, packX, opOf_packJ, joOf_packJ, h, Except.map]

namespace Encoding

set_option Elab.async false

/-- The immediate of a shift: its kind c in bits 10 to 8, a zero field, and the amount. -/
theorem shiftImm {m : Nat} (hm : m ≤ 8) (k : BitVec 11) (c : Nat) (hk : k.toNat = 256 * c) (n : BitVec m) :
    (k ||| n.setWidth 11).toNat = 256 * c + n.toNat := by
  have h2 : (2 : Nat) ^ m ≤ 2 ^ 8 := Nat.pow_le_pow_right (by omega) hm
  have hn : n.toNat < 2 ^ 8 := Nat.lt_of_lt_of_le n.isLt h2
  rw [BitVec.toNat_or, hk, BitVec.toNat_setWidth, Nat.mod_eq_of_lt (by omega)]
  exact (Nat.two_pow_add_eq_or_of_lt (i := 8) hn c).symm
theorem bitsOf_eq {w : Nat} (x : BitVec w) (hi lo : Nat) : bitsOf x hi lo = x.toNat / 2 ^ lo % 2 ^ (hi + 1 - lo) := by
  simp [bitsOf, Nat.shiftRight_eq_div_pow]
theorem shift5 (k : BitVec 11) (c : Nat) (hk : k.toNat = 256 * c) (n : BitVec 5) :
    bitsOf (k ||| n.setWidth 11) 7 6 = 0 ∧ bitsOf (k ||| n.setWidth 11) 10 8 = c % 8 ∧ bitsOf (k ||| n.setWidth 11) 5 5 = 0 ∧
    (k ||| n.setWidth 11).setWidth 5 = n := by
  have hn := n.isLt
  have h := shiftImm (by omega) k c hk n
  refine ⟨?_, ?_, ?_, BitVec.eq_of_toNat_eq ?_⟩
  · rw [bitsOf_eq, h]; omega
  · rw [bitsOf_eq, h]; omega
  · rw [bitsOf_eq, h]; omega
  · rw [BitVec.toNat_setWidth, h]; omega
theorem shift6 (k : BitVec 11) (c : Nat) (hk : k.toNat = 256 * c) (n : BitVec 6) :
    bitsOf (k ||| n.setWidth 11) 7 6 = 0 ∧ bitsOf (k ||| n.setWidth 11) 10 8 = c % 8 ∧ (k ||| n.setWidth 11).setWidth 6 = n := by
  have hn := n.isLt
  have h := shiftImm (by omega) k c hk n
  refine ⟨?_, ?_, BitVec.eq_of_toNat_eq ?_⟩
  · rw [bitsOf_eq, h]; omega
  · rw [bitsOf_eq, h]; omega
  · rw [BitVec.toNat_setWidth, h]; omega
/-- A short number that stands in a register field. -/
theorem small {n : Nat} (hn : n ≤ 7) (t : BitVec n) : (t.setWidth 7).toNat = t.toNat ∧ (t.setWidth 7).setWidth n = t := by
  have h := Nat.lt_of_lt_of_le t.isLt (Nat.pow_le_pow_right (show 0 < 2 by omega) hn)
  have h1 : (t.setWidth 7).toNat = t.toNat := by simp; omega
  exact ⟨h1, BitVec.eq_of_toNat_eq (by rw [BitVec.toNat_setWidth, h1, Nat.mod_eq_of_lt t.isLt])⟩
theorem ld_word (o : M2) (h : o.s.toNat ≠ 7) : dec24 ⟨o.f, o.s, o.d, o.a, o.i⟩ = .ok (.ld o) := by
  have h' : o.s ≠ 7#3 := fun e => h (by rw [e]; rfl)
  simp [dec24, need, h']
theorem st_word (o : M2) (h : storeSize o.s = true) : dec25 ⟨o.f, o.s, o.d, o.a, o.i⟩ = .ok (.st o) := by
  have h' : o.s ≠ 1#3 ∧ o.s ≠ 3#3 ∧ o.s ≠ 7#3 := by
    refine ⟨?_, ?_, ?_⟩ <;> intro e <;> simp [storeSize, e] at h
  simp [dec25, need, h'.1, h'.2.1, h'.2.2]
theorem arrive_word (o : RDL) (h : o.l.toNat ≤ 4) : dec2D ⟨false, false, 5#3, o.d, 127#7, o.l.setWidth 7⟩ = .ok (.arrive o) := by
  have h1 : (o.l.setWidth 7).toNat = o.l.toNat := by simp; omega
  have h2 : (o.l.setWidth 7).setWidth 3 = o.l := BitVec.eq_of_toNat_eq (by simp)
  simp [dec2D, need, Fld.z, h1]; omega
theorem loop_word (o : LoopOp) : dec34 ⟨o.f, 127#7, o.a, o.n.setWidth 11⟩ = .ok (.loop o) := by
  have hn := o.n.isLt
  have h1 : (o.n.setWidth 11).toNat = o.n.toNat := by simp; omega
  have h2 : (o.n.setWidth 11).setWidth 8 = o.n := BitVec.eq_of_toNat_eq (by simp)
  have h3 : bitsOf (o.n.setWidth 11) 10 8 = 0 := by rw [bitsOf_eq, h1]; omega
  simp [dec34, need, Fld.z, h3]

theorem qmFusedPass (core : Nat) (sect : Nat) (count : Nat) : Statement (.qmFusedPass core sect count) := fun _ => rfl
theorem subarrayGate (core : Nat) (sect : Nat) (sub : Nat) : Statement (.subarrayGate core sect sub) := fun _ => rfl
theorem tableExchange (core : Nat) : Statement (.tableExchange core) := fun _ => rfl
theorem tileLaunch (core : Nat) (tile : Nat) : Statement (.tileLaunch core tile) := fun _ => rfl
theorem tileDelivery (core : Nat) (sect : Nat) : Statement (.tileDelivery core sect) := fun _ => rfl
theorem backwardSettle (core : Nat) : Statement (.backwardSettle core) := fun _ => rfl
theorem commandCompletion (eng : EngRef) (idx : Nat) : Statement (.commandCompletion eng idx) := fun _ => rfl
theorem lineDelivery (eng : EngRef) (idx : Nat) (line : Nat) : Statement (.lineDelivery eng idx line) := fun _ => rfl
theorem engineTranslationFault (eng : EngRef) (idx : Nat) (refused : Bool) : Statement (.engineTranslationFault eng idx refused) := fun _ => rfl
theorem stopHold (eng : EngRef) : Statement (.stopHold eng) := fun _ => rfl
theorem stopRelease (eng : EngRef) : Statement (.stopRelease eng) := fun _ => rfl
theorem resultLands (who : ThreadRef) (idx : Nat) : Statement (.resultLands who idx) := fun _ => rfl
theorem sectionIssue (core : Nat) (sect : Nat) : Statement (.sectionIssue core sect) := fun _ => rfl
theorem forcedRun (core : Nat) (sect : Nat) : Statement (.forcedRun core sect) := fun _ => rfl
theorem yieldDeferralEnd (core : Nat) (sect : Nat) (slot : Nat) : Statement (.yieldDeferralEnd core sect slot) := fun _ => rfl
theorem governorWindow (core : Nat) : Statement (.governorWindow core) := fun _ => rfl
theorem gangFormation (core : Nat) (bin : Nat) : Statement (.gangFormation core bin) := fun _ => rfl
theorem crewDispatch (cell : Nat) : Statement (.crewDispatch cell) := fun _ => rfl
theorem stealRequest (thief : Nat) (victim : Nat) : Statement (.stealRequest thief victim) := fun _ => rfl
theorem stealAnswer (thief : Nat) : Statement (.stealAnswer thief) := fun _ => rfl
theorem stealRoundWait (cell : Nat) : Statement (.stealRoundWait cell) := fun _ => rfl
theorem costart (ten : Nat) (task : Nat) : Statement (.costart ten task) := fun _ => rfl
theorem costartAnnounce (ten : Nat) (task : Nat) (rank : Nat) : Statement (.costartAnnounce ten task rank) := fun _ => rfl
theorem lineGroupSend (core : Nat) (grp : Nat) : Statement (.lineGroupSend core grp) := fun _ => rfl
theorem lineGroupAtHome (core : Nat) (grp : Nat) : Statement (.lineGroupAtHome core grp) := fun _ => rfl
theorem lineGroupReply (core : Nat) (grp : Nat) : Statement (.lineGroupReply core grp) := fun _ => rfl
theorem negativeAcknowledgement (core : Nat) (grp : Nat) : Statement (.negativeAcknowledgement core grp) := fun _ => rfl
theorem nackRetry (core : Nat) (grp : Nat) : Statement (.nackRetry core grp) := fun _ => rfl
theorem bypassEntryFree (slice : Nat) (entry : Nat) : Statement (.bypassEntryFree slice entry) := fun _ => rfl
theorem ptsAdvance : Statement (.ptsAdvance) := fun _ => rfl
theorem lanternPass (chan : Nat) : Statement (.lanternPass chan) := fun _ => rfl
theorem meshHop (msg : Nat) : Statement (.meshHop msg) := fun _ => rfl
theorem routerPowerDown (router : Nat) : Statement (.routerPowerDown router) := fun _ => rfl
theorem routerWake (router : Nat) : Statement (.routerWake router) := fun _ => rfl
theorem tokenGrant (die : Nat) (unit : Nat) : Statement (.tokenGrant die unit) := fun _ => rfl
theorem throttleLift (die : Nat) : Statement (.throttleLift die) := fun _ => rfl
theorem walkComplete (walk : Nat) : Statement (.walkComplete walk) := fun _ => rfl
theorem serviceForward (ten : Nat) : Statement (.serviceForward ten) := fun _ => rfl
theorem serviceResend (ten : Nat) (idx : Nat) : Statement (.serviceResend ten idx) := fun _ => rfl
theorem preempt (core : Nat) (sub : Nat) (save : BitVec 64) : Statement (.preempt core sub save) := fun _ => rfl
theorem crewRestore (saved : Nat) (core : Nat) : Statement (.crewRestore saved core) := fun _ => rfl
theorem spareCoreRepair (core : Nat) (save : BitVec 64) : Statement (.spareCoreRepair core save) := fun _ => rfl
theorem spareSliceRepair (slice : Nat) : Statement (.spareSliceRepair slice) := fun _ => rfl
theorem hbmRowRepair (row : Nat) (ended : Bool) : Statement (.hbmRowRepair row ended) := fun _ => rfl
theorem frzN : Statement (.frzN) := fun _ => rfl
theorem bridgeTransfer (idx : Nat) : Statement (.bridgeTransfer idx) := fun _ => rfl
theorem bridgeCrcFail (idx : Nat) : Statement (.bridgeCrcFail idx) := fun _ => rfl
theorem remoteDomainAccess (acc : RemoteAccess) : Statement (.remoteDomainAccess acc) := fun _ => rfl
theorem storeRefusalReport (who : ThreadRef) (addr : BitVec 64) : Statement (.storeRefusalReport who addr) := fun _ => rfl
theorem flitData (port : Nat) (fl : Flit) : Statement (.flitData port fl) := fun _ => rfl
theorem flitAcknowledgement (port : Nat) (fl : Flit) : Statement (.flitAcknowledgement port fl) := fun _ => rfl
theorem flitNegativeAcknowledgement (port : Nat) (fl : Flit) : Statement (.flitNegativeAcknowledgement port fl) := fun _ => rfl
theorem flitReservation (port : Nat) (fl : Flit) : Statement (.flitReservation port fl) := fun _ => rfl
theorem flitControl (port : Nat) (fl : Flit) : Statement (.flitControl port fl) := fun _ => rfl
theorem wavelengthRetire (port : Nat) (fibre : Nat) (wave : Nat) : Statement (.wavelengthRetire port fibre wave) := fun _ => rfl
theorem fibreFailover (port : Nat) (fibre : Nat) : Statement (.fibreFailover port fibre) := fun _ => rfl
theorem peerUnreachable (port : Nat) (rank : Nat) : Statement (.peerUnreachable port rank) := fun _ => rfl
theorem launchCmd (dg : Datagram) : Statement (.launchCmd dg) := fun _ => rfl
theorem mapCmd (dg : Datagram) : Statement (.mapCmd dg) := fun _ => rfl
theorem unmapCmd (dg : Datagram) : Statement (.unmapCmd dg) := fun _ => rfl
theorem signalCmd (dg : Datagram) : Statement (.signalCmd dg) := fun _ => rfl
theorem waitCmd (dg : Datagram) : Statement (.waitCmd dg) := fun _ => rfl
theorem queryDevice (dg : Datagram) : Statement (.queryDevice dg) := fun _ => rfl
theorem queryProbes (dg : Datagram) : Statement (.queryProbes dg) := fun _ => rfl
theorem querySump (dg : Datagram) : Statement (.querySump dg) := fun _ => rfl
theorem queryTrace (dg : Datagram) : Statement (.queryTrace dg) := fun _ => rfl
theorem queryAttest (dg : Datagram) : Statement (.queryAttest dg) := fun _ => rfl
theorem journalRead (dg : Datagram) : Statement (.journalRead dg) := fun _ => rfl
theorem resetTenancy (dg : Datagram) : Statement (.resetTenancy dg) := fun _ => rfl
theorem freezeCmd (dg : Datagram) : Statement (.freezeCmd dg) := fun _ => rfl
theorem serviceReply (dg : Datagram) : Statement (.serviceReply dg) := fun _ => rfl
theorem zcpCommandStart (ten : Nat) (queue : Nat) : Statement (.zcpCommandStart ten queue) := fun _ => rfl
theorem doneEvt (ten : Nat) (queue : Nat) : Statement (.doneEvt ten queue) := fun _ => rfl
theorem journalMirrorWrite (ten : Nat) : Statement (.journalMirrorWrite ten) := fun _ => rfl
theorem rdmaRead (rq : RdmaReq) : Statement (.rdmaRead rq) := fun _ => rfl
theorem rdmaWrite (rq : RdmaReq) : Statement (.rdmaWrite rq) := fun _ => rfl
theorem rdmaInvalidRequest (ten : Nat) (conn : Nat) : Statement (.rdmaInvalidRequest ten conn) := fun _ => rfl
theorem coldReset : Statement (.coldReset) := fun _ => rfl
theorem warmReset : Statement (.warmReset) := fun _ => rfl
theorem alwaysOnPowerLoss : Statement (.alwaysOnPowerLoss) := fun _ => rfl
theorem thermalEvent (die : Nat) : Statement (.thermalEvent die) := fun _ => rfl
theorem laserModuleSwap (module : Nat) : Statement (.laserModuleSwap module) := fun _ => rfl
theorem wordNotInstruction (sub : Nat) (raw : RawInstr) : Statement (.wordNotInstruction sub raw) := fun _ => rfl
theorem fetchTrap : Statement (.fetchTrap) := fun _ => rfl
theorem zcpOpNotNamed (dg : Datagram) : Statement (.zcpOpNotNamed dg) := fun _ => rfl
theorem samplingEvt (who : ThreadRef) (eng : Option Eng) : Statement (.samplingEvt who eng) := fun _ => rfl
theorem voltageDroop (die : Nat) : Statement (.voltageDroop die) := fun _ => rfl
theorem lossOfPower : Statement (.lossOfPower) := fun _ => rfl
theorem linksComeUp (port : Nat) (rank : Nat) : Statement (.linksComeUp port rank) := fun _ => rfl
theorem add (o : R3) : Statement (.add o) := fun _ =>
  decode2_plain (opOf_packR ..) (by decide) (by rw [decodeWord, opOf_packR, rOf_packR]; rfl)
theorem sub (o : R3) : Statement (.sub o) := fun _ =>
  decode2_plain (opOf_packR ..) (by decide) (by rw [decodeWord, opOf_packR, rOf_packR]; rfl)
theorem and (o : R3) : Statement (.and o) := fun _ =>
  decode2_plain (opOf_packR ..) (by decide) (by rw [decodeWord, opOf_packR, rOf_packR]; rfl)
theorem or (o : R3) : Statement (.or o) := fun _ =>
  decode2_plain (opOf_packR ..) (by decide) (by rw [decodeWord, opOf_packR, rOf_packR]; rfl)
theorem xor (o : R3) : Statement (.xor o) := fun _ =>
  decode2_plain (opOf_packR ..) (by decide) (by rw [decodeWord, opOf_packR, rOf_packR]; rfl)
theorem shl (o : R3) : Statement (.shl o) := fun _ =>
  decode2_plain (opOf_packR ..) (by decide) (by rw [decodeWord, opOf_packR, rOf_packR]; rfl)
theorem shr (o : R3) : Statement (.shr o) := fun _ =>
  decode2_plain (opOf_packR ..) (by decide) (by rw [decodeWord, opOf_packR, rOf_packR]; rfl)
theorem sra (o : R3) : Statement (.sra o) := fun _ =>
  decode2_plain (opOf_packR ..) (by decide) (by rw [decodeWord, opOf_packR, rOf_packR]; rfl)
theorem add64 (o : R3) : Statement (.add64 o) := fun _ =>
  decode2_plain (opOf_packR ..) (by decide) (by rw [decodeWord, opOf_packR, rOf_packR]; rfl)
theorem sub64 (o : R3) : Statement (.sub64 o) := fun _ =>
  decode2_plain (opOf_packR ..) (by decide) (by rw [decodeWord, opOf_packR, rOf_packR]; rfl)
theorem and64 (o : R3) : Statement (.and64 o) := fun _ =>
  decode2_plain (opOf_packR ..) (by decide) (by rw [decodeWord, opOf_packR, rOf_packR]; rfl)
theorem or64 (o : R3) : Statement (.or64 o) := fun _ =>
  decode2_plain (opOf_packR ..) (by decide) (by rw [decodeWord, opOf_packR, rOf_packR]; rfl)
theorem xor64 (o : R3) : Statement (.xor64 o) := fun _ =>
  decode2_plain (opOf_packR ..) (by decide) (by rw [decodeWord, opOf_packR, rOf_packR]; rfl)
theorem shl64 (o : R3) : Statement (.shl64 o) := fun _ =>
  decode2_plain (opOf_packR ..) (by decide) (by rw [decodeWord, opOf_packR, rOf_packR]; rfl)
theorem shr64 (o : R3) : Statement (.shr64 o) := fun _ =>
  decode2_plain (opOf_packR ..) (by decide) (by rw [decodeWord, opOf_packR, rOf_packR]; rfl)
theorem sra64 (o : R3) : Statement (.sra64 o) := fun _ =>
  decode2_plain (opOf_packR ..) (by decide) (by rw [decodeWord, opOf_packR, rOf_packR]; rfl)
theorem mul (o : R3) : Statement (.mul o) := fun _ =>
  decode2_plain (opOf_packR ..) (by decide) (by rw [decodeWord, opOf_packR, rOf_packR]; rfl)
theorem mulh (o : R3) : Statement (.mulh o) := fun _ =>
  decode2_plain (opOf_packR ..) (by decide) (by rw [decodeWord, opOf_packR, rOf_packR]; rfl)
theorem mulhu (o : R3) : Statement (.mulhu o) := fun _ =>
  decode2_plain (opOf_packR ..) (by decide) (by rw [decodeWord, opOf_packR, rOf_packR]; rfl)
theorem mul64 (o : R3) : Statement (.mul64 o) := fun _ =>
  decode2_plain (opOf_packR ..) (by decide) (by rw [decodeWord, opOf_packR, rOf_packR]; rfl)
theorem div (o : R3) : Statement (.div o) := fun _ =>
  decode2_plain (opOf_packR ..) (by decide) (by rw [decodeWord, opOf_packR, rOf_packR]; rfl)
theorem divu (o : R3) : Statement (.divu o) := fun _ =>
  decode2_plain (opOf_packR ..) (by decide) (by rw [decodeWord, opOf_packR, rOf_packR]; rfl)
theorem rem (o : R3) : Statement (.rem o) := fun _ =>
  decode2_plain (opOf_packR ..) (by decide) (by rw [decodeWord, opOf_packR, rOf_packR]; rfl)
theorem remu (o : R3) : Statement (.remu o) := fun _ =>
  decode2_plain (opOf_packR ..) (by decide) (by rw [decodeWord, opOf_packR, rOf_packR]; rfl)
theorem seq (o : R3) : Statement (.seq o) := fun _ =>
  decode2_plain (opOf_packR ..) (by decide) (by rw [decodeWord, opOf_packR, rOf_packR]; rfl)
theorem sne (o : R3) : Statement (.sne o) := fun _ =>
  decode2_plain (opOf_packR ..) (by decide) (by rw [decodeWord, opOf_packR, rOf_packR]; rfl)
theorem slt (o : R3) : Statement (.slt o) := fun _ =>
  decode2_plain (opOf_packR ..) (by decide) (by rw [decodeWord, opOf_packR, rOf_packR]; rfl)
theorem sltu (o : R3) : Statement (.sltu o) := fun _ =>
  decode2_plain (opOf_packR ..) (by decide) (by rw [decodeWord, opOf_packR, rOf_packR]; rfl)
theorem sle (o : R3) : Statement (.sle o) := fun _ =>
  decode2_plain (opOf_packR ..) (by decide) (by rw [decodeWord, opOf_packR, rOf_packR]; rfl)
theorem sleu (o : R3) : Statement (.sleu o) := fun _ =>
  decode2_plain (opOf_packR ..) (by decide) (by rw [decodeWord, opOf_packR, rOf_packR]; rfl)
theorem min (o : R3) : Statement (.min o) := fun _ =>
  decode2_plain (opOf_packR ..) (by decide) (by rw [decodeWord, opOf_packR, rOf_packR]; rfl)
theorem max (o : R3) : Statement (.max o) := fun _ =>
  decode2_plain (opOf_packR ..) (by decide) (by rw [decodeWord, opOf_packR, rOf_packR]; rfl)
theorem seq64 (o : R3) : Statement (.seq64 o) := fun _ =>
  decode2_plain (opOf_packR ..) (by decide) (by rw [decodeWord, opOf_packR, rOf_packR]; rfl)
theorem sne64 (o : R3) : Statement (.sne64 o) := fun _ =>
  decode2_plain (opOf_packR ..) (by decide) (by rw [decodeWord, opOf_packR, rOf_packR]; rfl)
theorem slt64 (o : R3) : Statement (.slt64 o) := fun _ =>
  decode2_plain (opOf_packR ..) (by decide) (by rw [decodeWord, opOf_packR, rOf_packR]; rfl)
theorem sltu64 (o : R3) : Statement (.sltu64 o) := fun _ =>
  decode2_plain (opOf_packR ..) (by decide) (by rw [decodeWord, opOf_packR, rOf_packR]; rfl)
theorem sle64 (o : R3) : Statement (.sle64 o) := fun _ =>
  decode2_plain (opOf_packR ..) (by decide) (by rw [decodeWord, opOf_packR, rOf_packR]; rfl)
theorem sleu64 (o : R3) : Statement (.sleu64 o) := fun _ =>
  decode2_plain (opOf_packR ..) (by decide) (by rw [decodeWord, opOf_packR, rOf_packR]; rfl)
theorem min64 (o : R3) : Statement (.min64 o) := fun _ =>
  decode2_plain (opOf_packR ..) (by decide) (by rw [decodeWord, opOf_packR, rOf_packR]; rfl)
theorem max64 (o : R3) : Statement (.max64 o) := fun _ =>
  decode2_plain (opOf_packR ..) (by decide) (by rw [decodeWord, opOf_packR, rOf_packR]; rfl)
theorem popc (o : R2) : Statement (.popc o) := fun _ =>
  decode2_plain (opOf_packR ..) (by decide) (by rw [decodeWord, opOf_packR, rOf_packR]; rfl)
theorem clz (o : R2) : Statement (.clz o) := fun _ =>
  decode2_plain (opOf_packR ..) (by decide) (by rw [decodeWord, opOf_packR, rOf_packR]; rfl)
theorem ctz (o : R2) : Statement (.ctz o) := fun _ =>
  decode2_plain (opOf_packR ..) (by decide) (by rw [decodeWord, opOf_packR, rOf_packR]; rfl)
theorem brev (o : R2) : Statement (.brev o) := fun _ =>
  decode2_plain (opOf_packR ..) (by decide) (by rw [decodeWord, opOf_packR, rOf_packR]; rfl)
theorem bfx (o : R3) : Statement (.bfx o) := fun _ =>
  decode2_plain (opOf_packR ..) (by decide) (by rw [decodeWord, opOf_packR, rOf_packR]; rfl)
theorem bfi (o : R3) : Statement (.bfi o) := fun _ =>
  decode2_plain (opOf_packR ..) (by decide) (by rw [decodeWord, opOf_packR, rOf_packR]; rfl)
theorem prmt (o : R3) : Statement (.prmt o) := fun _ =>
  decode2_plain (opOf_packR ..) (by decide) (by rw [decodeWord, opOf_packR, rOf_packR]; rfl)
theorem andn (o : R3) : Statement (.andn o) := fun _ =>
  decode2_plain (opOf_packR ..) (by decide) (by rw [decodeWord, opOf_packR, rOf_packR]; rfl)
theorem sel (o : R3) : Statement (.sel o) := fun _ =>
  decode2_plain (opOf_packR ..) (by decide) (by rw [decodeWord, opOf_packR, rOf_packR]; rfl)
theorem abs (o : R2) : Statement (.abs o) := fun _ =>
  decode2_plain (opOf_packR ..) (by decide) (by rw [decodeWord, opOf_packR, rOf_packR]; rfl)
theorem neg (o : R2) : Statement (.neg o) := fun _ =>
  decode2_plain (opOf_packR ..) (by decide) (by rw [decodeWord, opOf_packR, rOf_packR]; rfl)
theorem sext8 (o : R2) : Statement (.sext8 o) := fun _ =>
  decode2_plain (opOf_packR ..) (by decide) (by rw [decodeWord, opOf_packR, rOf_packR]; rfl)
theorem sext16 (o : R2) : Statement (.sext16 o) := fun _ =>
  decode2_plain (opOf_packR ..) (by decide) (by rw [decodeWord, opOf_packR, rOf_packR]; rfl)
theorem zext8 (o : R2) : Statement (.zext8 o) := fun _ =>
  decode2_plain (opOf_packR ..) (by decide) (by rw [decodeWord, opOf_packR, rOf_packR]; rfl)
theorem zext16 (o : R2) : Statement (.zext16 o) := fun _ =>
  decode2_plain (opOf_packR ..) (by decide) (by rw [decodeWord, opOf_packR, rOf_packR]; rfl)
theorem unpt (o : R2) : Statement (.unpt o) := fun _ =>
  decode2_plain (opOf_packR ..) (by decide) (by rw [decodeWord, opOf_packR, rOf_packR]; rfl)
theorem addi (o : I2) : Statement (.addi o) := fun _ =>
  decode2_plain (opOf_packI ..) (by decide) (by rw [decodeWord, opOf_packI, iOf_packI]; rfl)
theorem addi64 (o : I2) : Statement (.addi64 o) := fun _ =>
  decode2_plain (opOf_packI ..) (by decide) (by rw [decodeWord, opOf_packI, iOf_packI]; rfl)
theorem andi (o : I2) : Statement (.andi o) := fun _ =>
  decode2_plain (opOf_packI ..) (by decide) (by rw [decodeWord, opOf_packI, iOf_packI]; rfl)
theorem ori (o : I2) : Statement (.ori o) := fun _ =>
  decode2_plain (opOf_packI ..) (by decide) (by rw [decodeWord, opOf_packI, iOf_packI]; rfl)
theorem xori (o : I2) : Statement (.xori o) := fun _ =>
  decode2_plain (opOf_packI ..) (by decide) (by rw [decodeWord, opOf_packI, iOf_packI]; rfl)
theorem addiX (x : BitVec 26) (o : I2) : Statement (.addiX x o) := fun _ => decode2_prefixed (by
  rw [decodeX, opOf_packI, decodeWord, opOf_packI, iOf_packI]; rfl)
theorem addi64X (x : BitVec 26) (o : I2) : Statement (.addi64X x o) := fun _ => decode2_prefixed (by
  rw [decodeX, opOf_packI, decodeWord, opOf_packI, iOf_packI]; rfl)
theorem andiX (x : BitVec 26) (o : I2) : Statement (.andiX x o) := fun _ => decode2_prefixed (by
  rw [decodeX, opOf_packI, decodeWord, opOf_packI, iOf_packI]; rfl)
theorem oriX (x : BitVec 26) (o : I2) : Statement (.oriX x o) := fun _ => decode2_prefixed (by
  rw [decodeX, opOf_packI, decodeWord, opOf_packI, iOf_packI]; rfl)
theorem xoriX (x : BitVec 26) (o : I2) : Statement (.xoriX x o) := fun _ => decode2_prefixed (by
  rw [decodeX, opOf_packI, decodeWord, opOf_packI, iOf_packI]; rfl)
theorem shli (o : Sh5) : Statement (.shli o) := fun h =>
  decode2_plain (opOf_packI ..) (by decide) (by rw [decodeWord, opOf_packI, iOf_packI]; show dec0C _ = _; obtain ⟨h1, h2, h3, h4⟩ := shift5 0#11 0 rfl o.n; simp only [dec0C, h1, h2, h3, h4]; rfl)
theorem shri (o : Sh5) : Statement (.shri o) := fun h =>
  decode2_plain (opOf_packI ..) (by decide) (by rw [decodeWord, opOf_packI, iOf_packI]; show dec0C _ = _; obtain ⟨h1, h2, h3, h4⟩ := shift5 512#11 2 rfl o.n; simp only [dec0C, h1, h2, h3, h4]; rfl)
theorem srai (o : Sh5) : Statement (.srai o) := fun h =>
  decode2_plain (opOf_packI ..) (by decide) (by rw [decodeWord, opOf_packI, iOf_packI]; show dec0C _ = _; obtain ⟨h1, h2, h3, h4⟩ := shift5 1024#11 4 rfl o.n; simp only [dec0C, h1, h2, h3, h4]; rfl)
theorem rori (o : Sh5) : Statement (.rori o) := fun h =>
  decode2_plain (opOf_packI ..) (by decide) (by rw [decodeWord, opOf_packI, iOf_packI]; show dec0C _ = _; obtain ⟨h1, h2, h3, h4⟩ := shift5 1536#11 6 rfl o.n; simp only [dec0C, h1, h2, h3, h4]; rfl)
theorem shli64 (o : Sh6) : Statement (.shli64 o) := fun h =>
  decode2_plain (opOf_packI ..) (by decide) (by rw [decodeWord, opOf_packI, iOf_packI]; show dec0C _ = _; obtain ⟨h1, h2, h3⟩ := shift6 256#11 1 rfl o.n; simp only [dec0C, h1, h2, h3]; rfl)
theorem shri64 (o : Sh6) : Statement (.shri64 o) := fun h =>
  decode2_plain (opOf_packI ..) (by decide) (by rw [decodeWord, opOf_packI, iOf_packI]; show dec0C _ = _; obtain ⟨h1, h2, h3⟩ := shift6 768#11 3 rfl o.n; simp only [dec0C, h1, h2, h3]; rfl)
theorem srai64 (o : Sh6) : Statement (.srai64 o) := fun h =>
  decode2_plain (opOf_packI ..) (by decide) (by rw [decodeWord, opOf_packI, iOf_packI]; show dec0C _ = _; obtain ⟨h1, h2, h3⟩ := shift6 1280#11 5 rfl o.n; simp only [dec0C, h1, h2, h3]; rfl)
theorem rori64 (o : Sh6) : Statement (.rori64 o) := fun h =>
  decode2_plain (opOf_packI ..) (by decide) (by rw [decodeWord, opOf_packI, iOf_packI]; show dec0C _ = _; obtain ⟨h1, h2, h3⟩ := shift6 1792#11 7 rfl o.n; simp only [dec0C, h1, h2, h3]; rfl)
theorem li (o : LiOp) : Statement (.li o) := fun _ =>
  decode2_plain (opOf_packI ..) (by decide) (by rw [decodeWord, opOf_packI, iOf_packI]; rfl)
theorem li64 (o : LiOp) : Statement (.li64 o) := fun _ =>
  decode2_plain (opOf_packI ..) (by decide) (by rw [decodeWord, opOf_packI, iOf_packI]; rfl)
theorem liX (x : BitVec 26) (o : LiOp) : Statement (.liX x o) := fun _ => decode2_prefixed (by
  rw [decodeX, opOf_packI, decodeWord, opOf_packI, iOf_packI]; rfl)
theorem li64X (x : BitVec 26) (o : LiOp) : Statement (.li64X x o) := fun _ => decode2_prefixed (by
  rw [decodeX, opOf_packI, decodeWord, opOf_packI, iOf_packI]; rfl)
theorem lea (o : RR3) : Statement (.lea o) := fun _ =>
  decode2_plain (opOf_packR ..) (by decide) (by rw [decodeWord, opOf_packR, rOf_packR]; rfl)
theorem fadd32 (o : RR3) : Statement (.fadd32 o) := fun h =>
  decode2_plain (opOf_packR ..) (by decide) (by rw [decodeWord, opOf_packR, rOf_packR]; simp [Instr.wf] at h; simp [dec0F, need]; omega)
theorem fsub32 (o : RR3) : Statement (.fsub32 o) := fun h =>
  decode2_plain (opOf_packR ..) (by decide) (by rw [decodeWord, opOf_packR, rOf_packR]; simp [Instr.wf] at h; simp [dec10, need]; omega)
theorem fmul32 (o : RR3) : Statement (.fmul32 o) := fun h =>
  decode2_plain (opOf_packR ..) (by decide) (by rw [decodeWord, opOf_packR, rOf_packR]; simp [Instr.wf] at h; simp [dec11, need]; omega)
theorem ffma32 (o : RR3) : Statement (.ffma32 o) := fun h =>
  decode2_plain (opOf_packR ..) (by decide) (by rw [decodeWord, opOf_packR, rOf_packR]; simp [Instr.wf] at h; simp [dec12, need]; omega)
theorem fadd64 (o : RR3) : Statement (.fadd64 o) := fun h =>
  decode2_plain (opOf_packR ..) (by decide) (by rw [decodeWord, opOf_packR, rOf_packR]; simp [Instr.wf] at h; simp [dec13, need]; omega)
theorem fsub64 (o : RR3) : Statement (.fsub64 o) := fun h =>
  decode2_plain (opOf_packR ..) (by decide) (by rw [decodeWord, opOf_packR, rOf_packR]; simp [Instr.wf] at h; simp [dec14, need]; omega)
theorem fmul64 (o : RR3) : Statement (.fmul64 o) := fun h =>
  decode2_plain (opOf_packR ..) (by decide) (by rw [decodeWord, opOf_packR, rOf_packR]; simp [Instr.wf] at h; simp [dec15, need]; omega)
theorem ffma64 (o : RR3) : Statement (.ffma64 o) := fun h =>
  decode2_plain (opOf_packR ..) (by decide) (by rw [decodeWord, opOf_packR, rOf_packR]; simp [Instr.wf] at h; simp [dec16, need]; omega)
theorem hadd2 (o : RR3) : Statement (.hadd2 o) := fun h =>
  decode2_plain (opOf_packR ..) (by decide) (by rw [decodeWord, opOf_packR, rOf_packR]; simp [Instr.wf] at h; simp [dec17, need]; omega)
theorem hmul2 (o : RR3) : Statement (.hmul2 o) := fun h =>
  decode2_plain (opOf_packR ..) (by decide) (by rw [decodeWord, opOf_packR, rOf_packR]; simp [Instr.wf] at h; simp [dec18, need]; omega)
theorem hfma2 (o : RR3) : Statement (.hfma2 o) := fun h =>
  decode2_plain (opOf_packR ..) (by decide) (by rw [decodeWord, opOf_packR, rOf_packR]; simp [Instr.wf] at h; simp [dec19, need]; omega)
theorem badd2 (o : RR3) : Statement (.badd2 o) := fun h =>
  decode2_plain (opOf_packR ..) (by decide) (by rw [decodeWord, opOf_packR, rOf_packR]; simp [Instr.wf] at h; simp [dec1A, need]; omega)
theorem bmul2 (o : RR3) : Statement (.bmul2 o) := fun h =>
  decode2_plain (opOf_packR ..) (by decide) (by rw [decodeWord, opOf_packR, rOf_packR]; simp [Instr.wf] at h; simp [dec1B, need]; omega)
theorem bfma2 (o : RR3) : Statement (.bfma2 o) := fun h =>
  decode2_plain (opOf_packR ..) (by decide) (by rw [decodeWord, opOf_packR, rOf_packR]; simp [Instr.wf] at h; simp [dec1C, need]; omega)
theorem feq (o : R3) : Statement (.feq o) := fun _ =>
  decode2_plain (opOf_packR ..) (by decide) (by rw [decodeWord, opOf_packR, rOf_packR]; rfl)
theorem flt (o : R3) : Statement (.flt o) := fun _ =>
  decode2_plain (opOf_packR ..) (by decide) (by rw [decodeWord, opOf_packR, rOf_packR]; rfl)
theorem fle (o : R3) : Statement (.fle o) := fun _ =>
  decode2_plain (opOf_packR ..) (by decide) (by rw [decodeWord, opOf_packR, rOf_packR]; rfl)
theorem funord (o : R3) : Statement (.funord o) := fun _ =>
  decode2_plain (opOf_packR ..) (by decide) (by rw [decodeWord, opOf_packR, rOf_packR]; rfl)
theorem fmin (o : R3) : Statement (.fmin o) := fun _ =>
  decode2_plain (opOf_packR ..) (by decide) (by rw [decodeWord, opOf_packR, rOf_packR]; rfl)
theorem fmax (o : R3) : Statement (.fmax o) := fun _ =>
  decode2_plain (opOf_packR ..) (by decide) (by rw [decodeWord, opOf_packR, rOf_packR]; rfl)
theorem fclass (o : R2) : Statement (.fclass o) := fun _ =>
  decode2_plain (opOf_packR ..) (by decide) (by rw [decodeWord, opOf_packR, rOf_packR]; rfl)
theorem fsgnj (o : R3) : Statement (.fsgnj o) := fun _ =>
  decode2_plain (opOf_packR ..) (by decide) (by rw [decodeWord, opOf_packR, rOf_packR]; rfl)
theorem feq64 (o : R3) : Statement (.feq64 o) := fun _ =>
  decode2_plain (opOf_packR ..) (by decide) (by rw [decodeWord, opOf_packR, rOf_packR]; rfl)
theorem flt64 (o : R3) : Statement (.flt64 o) := fun _ =>
  decode2_plain (opOf_packR ..) (by decide) (by rw [decodeWord, opOf_packR, rOf_packR]; rfl)
theorem fle64 (o : R3) : Statement (.fle64 o) := fun _ =>
  decode2_plain (opOf_packR ..) (by decide) (by rw [decodeWord, opOf_packR, rOf_packR]; rfl)
theorem funord64 (o : R3) : Statement (.funord64 o) := fun _ =>
  decode2_plain (opOf_packR ..) (by decide) (by rw [decodeWord, opOf_packR, rOf_packR]; rfl)
theorem fmin64 (o : R3) : Statement (.fmin64 o) := fun _ =>
  decode2_plain (opOf_packR ..) (by decide) (by rw [decodeWord, opOf_packR, rOf_packR]; rfl)
theorem fmax64 (o : R3) : Statement (.fmax64 o) := fun _ =>
  decode2_plain (opOf_packR ..) (by decide) (by rw [decodeWord, opOf_packR, rOf_packR]; rfl)
theorem fclass64 (o : R2) : Statement (.fclass64 o) := fun _ =>
  decode2_plain (opOf_packR ..) (by decide) (by rw [decodeWord, opOf_packR, rOf_packR]; rfl)
theorem fsgnj64 (o : R3) : Statement (.fsgnj64 o) := fun _ =>
  decode2_plain (opOf_packR ..) (by decide) (by rw [decodeWord, opOf_packR, rOf_packR]; rfl)
theorem hmin2 (o : R3) : Statement (.hmin2 o) := fun _ =>
  decode2_plain (opOf_packR ..) (by decide) (by rw [decodeWord, opOf_packR, rOf_packR]; rfl)
theorem hmax2 (o : R3) : Statement (.hmax2 o) := fun _ =>
  decode2_plain (opOf_packR ..) (by decide) (by rw [decodeWord, opOf_packR, rOf_packR]; rfl)
theorem heq2 (o : R3) : Statement (.heq2 o) := fun _ =>
  decode2_plain (opOf_packR ..) (by decide) (by rw [decodeWord, opOf_packR, rOf_packR]; rfl)
theorem hlt2 (o : R3) : Statement (.hlt2 o) := fun _ =>
  decode2_plain (opOf_packR ..) (by decide) (by rw [decodeWord, opOf_packR, rOf_packR]; rfl)
theorem bmin2 (o : R3) : Statement (.bmin2 o) := fun _ =>
  decode2_plain (opOf_packR ..) (by decide) (by rw [decodeWord, opOf_packR, rOf_packR]; rfl)
theorem bmax2 (o : R3) : Statement (.bmax2 o) := fun _ =>
  decode2_plain (opOf_packR ..) (by decide) (by rw [decodeWord, opOf_packR, rOf_packR]; rfl)
theorem beq2 (o : R3) : Statement (.beq2 o) := fun _ =>
  decode2_plain (opOf_packR ..) (by decide) (by rw [decodeWord, opOf_packR, rOf_packR]; rfl)
theorem blt2 (o : R3) : Statement (.blt2 o) := fun _ =>
  decode2_plain (opOf_packR ..) (by decide) (by rw [decodeWord, opOf_packR, rOf_packR]; rfl)
theorem cvtF32F64 (o : RR2) : Statement (.cvtF32F64 o) := fun h =>
  decode2_plain (opOf_packR ..) (by decide) (by rw [decodeWord, opOf_packR, rOf_packR]; simp [Instr.wf] at h; simp [dec20, need]; omega)
theorem cvtF64F32 (o : RR2) : Statement (.cvtF64F32 o) := fun h =>
  decode2_plain (opOf_packR ..) (by decide) (by rw [decodeWord, opOf_packR, rOf_packR]; simp [Instr.wf] at h; simp [dec20, need]; omega)
theorem cvtF16F32 (o : RR2) : Statement (.cvtF16F32 o) := fun h =>
  decode2_plain (opOf_packR ..) (by decide) (by rw [decodeWord, opOf_packR, rOf_packR]; simp [Instr.wf] at h; simp [dec20, need]; omega)
theorem cvtF32F16 (o : RR2) : Statement (.cvtF32F16 o) := fun h =>
  decode2_plain (opOf_packR ..) (by decide) (by rw [decodeWord, opOf_packR, rOf_packR]; simp [Instr.wf] at h; simp [dec20, need]; omega)
theorem cvtBf16F32 (o : RR2) : Statement (.cvtBf16F32 o) := fun h =>
  decode2_plain (opOf_packR ..) (by decide) (by rw [decodeWord, opOf_packR, rOf_packR]; simp [Instr.wf] at h; simp [dec20, need]; omega)
theorem cvtF32Bf16 (o : RR2) : Statement (.cvtF32Bf16 o) := fun h =>
  decode2_plain (opOf_packR ..) (by decide) (by rw [decodeWord, opOf_packR, rOf_packR]; simp [Instr.wf] at h; simp [dec20, need]; omega)
theorem cvtE4m3F32 (o : RR2) : Statement (.cvtE4m3F32 o) := fun h =>
  decode2_plain (opOf_packR ..) (by decide) (by rw [decodeWord, opOf_packR, rOf_packR]; simp [Instr.wf] at h; simp [dec20, need]; omega)
theorem cvtF32E4m3 (o : RR2) : Statement (.cvtF32E4m3 o) := fun h =>
  decode2_plain (opOf_packR ..) (by decide) (by rw [decodeWord, opOf_packR, rOf_packR]; simp [Instr.wf] at h; simp [dec20, need]; omega)
theorem cvtE5m2F32 (o : RR2) : Statement (.cvtE5m2F32 o) := fun h =>
  decode2_plain (opOf_packR ..) (by decide) (by rw [decodeWord, opOf_packR, rOf_packR]; simp [Instr.wf] at h; simp [dec20, need]; omega)
theorem cvtF32E5m2 (o : RR2) : Statement (.cvtF32E5m2 o) := fun h =>
  decode2_plain (opOf_packR ..) (by decide) (by rw [decodeWord, opOf_packR, rOf_packR]; simp [Instr.wf] at h; simp [dec20, need]; omega)
theorem cvtF6aF32 (o : RR2) : Statement (.cvtF6aF32 o) := fun h =>
  decode2_plain (opOf_packR ..) (by decide) (by rw [decodeWord, opOf_packR, rOf_packR]; simp [Instr.wf] at h; simp [dec20, need]; omega)
theorem cvtF32F6a (o : RR2) : Statement (.cvtF32F6a o) := fun h =>
  decode2_plain (opOf_packR ..) (by decide) (by rw [decodeWord, opOf_packR, rOf_packR]; simp [Instr.wf] at h; simp [dec20, need]; omega)
theorem cvtF6bF32 (o : RR2) : Statement (.cvtF6bF32 o) := fun h =>
  decode2_plain (opOf_packR ..) (by decide) (by rw [decodeWord, opOf_packR, rOf_packR]; simp [Instr.wf] at h; simp [dec20, need]; omega)
theorem cvtF32F6b (o : RR2) : Statement (.cvtF32F6b o) := fun h =>
  decode2_plain (opOf_packR ..) (by decide) (by rw [decodeWord, opOf_packR, rOf_packR]; simp [Instr.wf] at h; simp [dec20, need]; omega)
theorem cvtE8m10F32 (o : RR2) : Statement (.cvtE8m10F32 o) := fun h =>
  decode2_plain (opOf_packR ..) (by decide) (by rw [decodeWord, opOf_packR, rOf_packR]; simp [Instr.wf] at h; simp [dec20, need]; omega)
theorem cvtF16x2F32 (o : RR2) : Statement (.cvtF16x2F32 o) := fun h =>
  decode2_plain (opOf_packR ..) (by decide) (by rw [decodeWord, opOf_packR, rOf_packR]; simp [Instr.wf] at h; simp [dec20, need]; omega)
theorem cvtF32F16x2 (o : RR2) : Statement (.cvtF32F16x2 o) := fun h =>
  decode2_plain (opOf_packR ..) (by decide) (by rw [decodeWord, opOf_packR, rOf_packR]; simp [Instr.wf] at h; simp [dec20, need]; omega)
theorem cvtBf16x2F32 (o : RR2) : Statement (.cvtBf16x2F32 o) := fun h =>
  decode2_plain (opOf_packR ..) (by decide) (by rw [decodeWord, opOf_packR, rOf_packR]; simp [Instr.wf] at h; simp [dec20, need]; omega)
theorem cvtF32Bf16x2 (o : RR2) : Statement (.cvtF32Bf16x2 o) := fun h =>
  decode2_plain (opOf_packR ..) (by decide) (by rw [decodeWord, opOf_packR, rOf_packR]; simp [Instr.wf] at h; simp [dec20, need]; omega)
theorem cvtE4m3x2F32 (o : RR2) : Statement (.cvtE4m3x2F32 o) := fun h =>
  decode2_plain (opOf_packR ..) (by decide) (by rw [decodeWord, opOf_packR, rOf_packR]; simp [Instr.wf] at h; simp [dec20, need]; omega)
theorem cvtE5m2x2F32 (o : RR2) : Statement (.cvtE5m2x2F32 o) := fun h =>
  decode2_plain (opOf_packR ..) (by decide) (by rw [decodeWord, opOf_packR, rOf_packR]; simp [Instr.wf] at h; simp [dec20, need]; omega)
theorem cvtI32F32 (o : RR2) : Statement (.cvtI32F32 o) := fun h =>
  decode2_plain (opOf_packR ..) (by decide) (by rw [decodeWord, opOf_packR, rOf_packR]; simp [Instr.wf] at h; simp [dec20, need]; omega)
theorem cvtUi32F32 (o : RR2) : Statement (.cvtUi32F32 o) := fun h =>
  decode2_plain (opOf_packR ..) (by decide) (by rw [decodeWord, opOf_packR, rOf_packR]; simp [Instr.wf] at h; simp [dec20, need]; omega)
theorem cvtI64F32 (o : RR2) : Statement (.cvtI64F32 o) := fun h =>
  decode2_plain (opOf_packR ..) (by decide) (by rw [decodeWord, opOf_packR, rOf_packR]; simp [Instr.wf] at h; simp [dec20, need]; omega)
theorem cvtUi64F32 (o : RR2) : Statement (.cvtUi64F32 o) := fun h =>
  decode2_plain (opOf_packR ..) (by decide) (by rw [decodeWord, opOf_packR, rOf_packR]; simp [Instr.wf] at h; simp [dec20, need]; omega)
theorem cvtI32F64 (o : RR2) : Statement (.cvtI32F64 o) := fun h =>
  decode2_plain (opOf_packR ..) (by decide) (by rw [decodeWord, opOf_packR, rOf_packR]; simp [Instr.wf] at h; simp [dec20, need]; omega)
theorem cvtUi32F64 (o : RR2) : Statement (.cvtUi32F64 o) := fun h =>
  decode2_plain (opOf_packR ..) (by decide) (by rw [decodeWord, opOf_packR, rOf_packR]; simp [Instr.wf] at h; simp [dec20, need]; omega)
theorem cvtI64F64 (o : RR2) : Statement (.cvtI64F64 o) := fun h =>
  decode2_plain (opOf_packR ..) (by decide) (by rw [decodeWord, opOf_packR, rOf_packR]; simp [Instr.wf] at h; simp [dec20, need]; omega)
theorem cvtUi64F64 (o : RR2) : Statement (.cvtUi64F64 o) := fun h =>
  decode2_plain (opOf_packR ..) (by decide) (by rw [decodeWord, opOf_packR, rOf_packR]; simp [Instr.wf] at h; simp [dec20, need]; omega)
theorem cvtF32I32 (o : RR2) : Statement (.cvtF32I32 o) := fun h =>
  decode2_plain (opOf_packR ..) (by decide) (by rw [decodeWord, opOf_packR, rOf_packR]; simp [Instr.wf] at h; simp [dec20, need]; omega)
theorem cvtF32Ui32 (o : RR2) : Statement (.cvtF32Ui32 o) := fun h =>
  decode2_plain (opOf_packR ..) (by decide) (by rw [decodeWord, opOf_packR, rOf_packR]; simp [Instr.wf] at h; simp [dec20, need]; omega)
theorem cvtF32I64 (o : RR2) : Statement (.cvtF32I64 o) := fun h =>
  decode2_plain (opOf_packR ..) (by decide) (by rw [decodeWord, opOf_packR, rOf_packR]; simp [Instr.wf] at h; simp [dec20, need]; omega)
theorem cvtF32Ui64 (o : RR2) : Statement (.cvtF32Ui64 o) := fun h =>
  decode2_plain (opOf_packR ..) (by decide) (by rw [decodeWord, opOf_packR, rOf_packR]; simp [Instr.wf] at h; simp [dec20, need]; omega)
theorem cvtF64I32 (o : RR2) : Statement (.cvtF64I32 o) := fun h =>
  decode2_plain (opOf_packR ..) (by decide) (by rw [decodeWord, opOf_packR, rOf_packR]; simp [Instr.wf] at h; simp [dec20, need]; omega)
theorem cvtF64Ui32 (o : RR2) : Statement (.cvtF64Ui32 o) := fun h =>
  decode2_plain (opOf_packR ..) (by decide) (by rw [decodeWord, opOf_packR, rOf_packR]; simp [Instr.wf] at h; simp [dec20, need]; omega)
theorem cvtF64I64 (o : RR2) : Statement (.cvtF64I64 o) := fun h =>
  decode2_plain (opOf_packR ..) (by decide) (by rw [decodeWord, opOf_packR, rOf_packR]; simp [Instr.wf] at h; simp [dec20, need]; omega)
theorem cvtF64Ui64 (o : RR2) : Statement (.cvtF64Ui64 o) := fun h =>
  decode2_plain (opOf_packR ..) (by decide) (by rw [decodeWord, opOf_packR, rOf_packR]; simp [Instr.wf] at h; simp [dec20, need]; omega)
theorem cvtI8F32 (o : RR2) : Statement (.cvtI8F32 o) := fun h =>
  decode2_plain (opOf_packR ..) (by decide) (by rw [decodeWord, opOf_packR, rOf_packR]; simp [Instr.wf] at h; simp [dec20, need]; omega)
theorem cvtF32I8 (o : RR2) : Statement (.cvtF32I8 o) := fun h =>
  decode2_plain (opOf_packR ..) (by decide) (by rw [decodeWord, opOf_packR, rOf_packR]; simp [Instr.wf] at h; simp [dec20, need]; omega)
theorem rcp (o : R2) : Statement (.rcp o) := fun _ =>
  decode2_plain (opOf_packR ..) (by decide) (by rw [decodeWord, opOf_packR, rOf_packR]; rfl)
theorem rsq (o : R2) : Statement (.rsq o) := fun _ =>
  decode2_plain (opOf_packR ..) (by decide) (by rw [decodeWord, opOf_packR, rOf_packR]; rfl)
theorem sqrt (o : R2) : Statement (.sqrt o) := fun _ =>
  decode2_plain (opOf_packR ..) (by decide) (by rw [decodeWord, opOf_packR, rOf_packR]; rfl)
theorem ex2 (o : R2) : Statement (.ex2 o) := fun _ =>
  decode2_plain (opOf_packR ..) (by decide) (by rw [decodeWord, opOf_packR, rOf_packR]; rfl)
theorem lg2 (o : R2) : Statement (.lg2 o) := fun _ =>
  decode2_plain (opOf_packR ..) (by decide) (by rw [decodeWord, opOf_packR, rOf_packR]; rfl)
theorem sin (o : R2) : Statement (.sin o) := fun _ =>
  decode2_plain (opOf_packR ..) (by decide) (by rw [decodeWord, opOf_packR, rOf_packR]; rfl)
theorem cos (o : R2) : Statement (.cos o) := fun _ =>
  decode2_plain (opOf_packR ..) (by decide) (by rw [decodeWord, opOf_packR, rOf_packR]; rfl)
theorem tanh (o : R2) : Statement (.tanh o) := fun _ =>
  decode2_plain (opOf_packR ..) (by decide) (by rw [decodeWord, opOf_packR, rOf_packR]; rfl)
theorem actNear (o : RT) : Statement (.actNear o) := fun h =>
  decode2_plain (opOf_packR ..) (by decide) (by rw [decodeWord, opOf_packR, rOf_packR]; have h := small (by omega) o.t; show dec22 _ = _; simp [dec22, need, h.1, h.2, o.t.isLt])
theorem actLin (o : RT) : Statement (.actLin o) := fun h =>
  decode2_plain (opOf_packR ..) (by decide) (by rw [decodeWord, opOf_packR, rOf_packR]; have h := small (by omega) o.t; show dec22 _ = _; simp [dec22, need, h.1, h.2, o.t.isLt])
theorem rand (o : RD) : Statement (.rand o) := fun _ =>
  decode2_plain (opOf_packR ..) (by decide) (by rw [decodeWord, opOf_packR, rOf_packR]; rfl)
theorem randu (o : RD) : Statement (.randu o) := fun _ =>
  decode2_plain (opOf_packR ..) (by decide) (by rw [decodeWord, opOf_packR, rOf_packR]; rfl)
theorem randn (o : RD) : Statement (.randn o) := fun _ =>
  decode2_plain (opOf_packR ..) (by decide) (by rw [decodeWord, opOf_packR, rOf_packR]; rfl)
theorem rskip (o : RAB) : Statement (.rskip o) := fun _ =>
  decode2_plain (opOf_packR ..) (by decide) (by rw [decodeWord, opOf_packR, rOf_packR]; rfl)
theorem rsel (o : R2) : Statement (.rsel o) := fun _ =>
  decode2_plain (opOf_packR ..) (by decide) (by rw [decodeWord, opOf_packR, rOf_packR]; rfl)
theorem epreset : Statement (.epreset) := fun _ =>
  decode2_plain (opOf_packR ..) (by decide) (by rw [decodeWord, opOf_packR, rOf_packR]; rfl)
theorem epstep : Statement (.epstep) := fun _ =>
  decode2_plain (opOf_packR ..) (by decide) (by rw [decodeWord, opOf_packR, rOf_packR]; rfl)
theorem rpeek (o : R3) : Statement (.rpeek o) := fun _ =>
  decode2_plain (opOf_packR ..) (by decide) (by rw [decodeWord, opOf_packR, rOf_packR]; rfl)
theorem ld (o : M2) : Statement (.ld o) := fun h =>
  decode2_plain (opOf_packM ..) (by decide) (by rw [decodeWord, opOf_packM, mOf_packM]; exact ld_word o (by simpa [Instr.wf] using h))
theorem st (o : M2) : Statement (.st o) := fun h =>
  decode2_plain (opOf_packM ..) (by decide) (by rw [decodeWord, opOf_packM, mOf_packM]; exact st_word o (by simpa [Instr.wf] using h))
theorem ldX (x : BitVec 26) (o : M2) : Statement (.ldX x o) := fun h => decode2_prefixed (by
  have hd : decodeWord (packM 36#6 o.f o.s o.d o.a o.i) = .ok (.ld o) := by
    rw [decodeWord, opOf_packM, mOf_packM]; exact ld_word o (by simpa [Instr.wf] using h)
  rw [decodeX, opOf_packM, hd]; rfl)
theorem stX (x : BitVec 26) (o : M2) : Statement (.stX x o) := fun h => decode2_prefixed (by
  have hd : decodeWord (packM 37#6 o.f o.s o.d o.a o.i) = .ok (.st o) := by
    rw [decodeWord, opOf_packM, mOf_packM]; exact st_word o (by simpa [Instr.wf] using h)
  rw [decodeX, opOf_packM, hd]; rfl)
theorem ldf (o : L2) : Statement (.ldf o) := fun _ =>
  decode2_plain (opOf_packM ..) (by decide) (by rw [decodeWord, opOf_packM, mOf_packM]; rfl)
theorem stf (o : L2) : Statement (.stf o) := fun _ =>
  decode2_plain (opOf_packM ..) (by decide) (by rw [decodeWord, opOf_packM, mOf_packM]; rfl)
theorem ldfX (x : BitVec 26) (o : L2) : Statement (.ldfX x o) := fun _ => decode2_prefixed (by
  rw [decodeX, opOf_packM, decodeWord, opOf_packM, mOf_packM]; rfl)
theorem stfX (x : BitVec 26) (o : L2) : Statement (.stfX x o) := fun _ => decode2_prefixed (by
  rw [decodeX, opOf_packM, decodeWord, opOf_packM, mOf_packM]; rfl)
theorem atomAdd (o : R3) : Statement (.atomAdd o) := fun _ =>
  decode2_plain (opOf_packR ..) (by decide) (by rw [decodeWord, opOf_packR, rOf_packR]; rfl)
theorem atomMin (o : R3) : Statement (.atomMin o) := fun _ =>
  decode2_plain (opOf_packR ..) (by decide) (by rw [decodeWord, opOf_packR, rOf_packR]; rfl)
theorem atomMax (o : R3) : Statement (.atomMax o) := fun _ =>
  decode2_plain (opOf_packR ..) (by decide) (by rw [decodeWord, opOf_packR, rOf_packR]; rfl)
theorem atomAnd (o : R3) : Statement (.atomAnd o) := fun _ =>
  decode2_plain (opOf_packR ..) (by decide) (by rw [decodeWord, opOf_packR, rOf_packR]; rfl)
theorem atomOr (o : R3) : Statement (.atomOr o) := fun _ =>
  decode2_plain (opOf_packR ..) (by decide) (by rw [decodeWord, opOf_packR, rOf_packR]; rfl)
theorem atomXor (o : R3) : Statement (.atomXor o) := fun _ =>
  decode2_plain (opOf_packR ..) (by decide) (by rw [decodeWord, opOf_packR, rOf_packR]; rfl)
theorem atomXchg (o : R3) : Statement (.atomXchg o) := fun _ =>
  decode2_plain (opOf_packR ..) (by decide) (by rw [decodeWord, opOf_packR, rOf_packR]; rfl)
theorem atomCas (o : R3) : Statement (.atomCas o) := fun _ =>
  decode2_plain (opOf_packR ..) (by decide) (by rw [decodeWord, opOf_packR, rOf_packR]; rfl)
theorem atomAdd64 (o : R3) : Statement (.atomAdd64 o) := fun _ =>
  decode2_plain (opOf_packR ..) (by decide) (by rw [decodeWord, opOf_packR, rOf_packR]; rfl)
theorem atomCas64 (o : R3) : Statement (.atomCas64 o) := fun _ =>
  decode2_plain (opOf_packR ..) (by decide) (by rw [decodeWord, opOf_packR, rOf_packR]; rfl)
theorem atomXchg64 (o : R3) : Statement (.atomXchg64 o) := fun _ =>
  decode2_plain (opOf_packR ..) (by decide) (by rw [decodeWord, opOf_packR, rOf_packR]; rfl)
theorem atomFadd32 (o : R3) : Statement (.atomFadd32 o) := fun _ =>
  decode2_plain (opOf_packR ..) (by decide) (by rw [decodeWord, opOf_packR, rOf_packR]; rfl)
theorem atomFadd64 (o : R3) : Statement (.atomFadd64 o) := fun _ =>
  decode2_plain (opOf_packR ..) (by decide) (by rw [decodeWord, opOf_packR, rOf_packR]; rfl)
theorem atomBfadd2 (o : R3) : Statement (.atomBfadd2 o) := fun _ =>
  decode2_plain (opOf_packR ..) (by decide) (by rw [decodeWord, opOf_packR, rOf_packR]; rfl)
theorem atomFmin32 (o : R3) : Statement (.atomFmin32 o) := fun _ =>
  decode2_plain (opOf_packR ..) (by decide) (by rw [decodeWord, opOf_packR, rOf_packR]; rfl)
theorem atomFmax32 (o : R3) : Statement (.atomFmax32 o) := fun _ =>
  decode2_plain (opOf_packR ..) (by decide) (by rw [decodeWord, opOf_packR, rOf_packR]; rfl)
theorem lda32 (o : RJ) : Statement (.lda32 o) := fun h =>
  decode2_plain (opOf_packR ..) (by decide) (by rw [decodeWord, opOf_packR, rOf_packR]; have h := small (by omega) o.j; show dec2A _ = _; simp [dec2A, need, h.1, h.2, o.j.isLt])
theorem lda64 (o : RJ) : Statement (.lda64 o) := fun h =>
  decode2_plain (opOf_packR ..) (by decide) (by rw [decodeWord, opOf_packR, rOf_packR]; have h := small (by omega) o.j; show dec2A _ = _; simp [dec2A, need, h.1, h.2, o.j.isLt])
theorem sta32 (o : RJ) : Statement (.sta32 o) := fun h =>
  decode2_plain (opOf_packR ..) (by decide) (by rw [decodeWord, opOf_packR, rOf_packR]; have h := small (by omega) o.j; show dec2A _ = _; simp [dec2A, need, h.1, h.2, o.j.isLt])
theorem sta64 (o : RJ) : Statement (.sta64 o) := fun h =>
  decode2_plain (opOf_packR ..) (by decide) (by rw [decodeWord, opOf_packR, rOf_packR]; have h := small (by omega) o.j; show dec2A _ = _; simp [dec2A, need, h.1, h.2, o.j.isLt])
theorem affset (o : RAJ) : Statement (.affset o) := fun h =>
  decode2_plain (opOf_packR ..) (by decide) (by rw [decodeWord, opOf_packR, rOf_packR]; have h := small (by omega) o.j; show dec2A _ = _; simp [dec2A, need, h.1, h.2, Fld.z, o.j.isLt])
theorem affcnt (o : RDJ) : Statement (.affcnt o) := fun h =>
  decode2_plain (opOf_packR ..) (by decide) (by rw [decodeWord, opOf_packR, rOf_packR]; have h := small (by omega) o.j; show dec2A _ = _; simp [dec2A, need, h.1, h.2, Fld.z, o.j.isLt])
theorem a2gLoc (o : R2) : Statement (.a2gLoc o) := fun _ =>
  decode2_plain (opOf_packR ..) (by decide) (by rw [decodeWord, opOf_packR, rOf_packR]; rfl)
theorem a2gPad (o : R2) : Statement (.a2gPad o) := fun _ =>
  decode2_plain (opOf_packR ..) (by decide) (by rw [decodeWord, opOf_packR, rOf_packR]; rfl)
theorem a2gCel (o : R2) : Statement (.a2gCel o) := fun _ =>
  decode2_plain (opOf_packR ..) (by decide) (by rw [decodeWord, opOf_packR, rOf_packR]; rfl)
theorem g2aLoc (o : R2) : Statement (.g2aLoc o) := fun _ =>
  decode2_plain (opOf_packR ..) (by decide) (by rw [decodeWord, opOf_packR, rOf_packR]; rfl)
theorem g2aPad (o : R2) : Statement (.g2aPad o) := fun _ =>
  decode2_plain (opOf_packR ..) (by decide) (by rw [decodeWord, opOf_packR, rOf_packR]; rfl)
theorem g2aCel (o : R2) : Statement (.g2aCel o) := fun _ =>
  decode2_plain (opOf_packR ..) (by decide) (by rw [decodeWord, opOf_packR, rOf_packR]; rfl)
theorem inspace (o : R3) : Statement (.inspace o) := fun _ =>
  decode2_plain (opOf_packR ..) (by decide) (by rw [decodeWord, opOf_packR, rOf_packR]; rfl)
theorem spaceof (o : R2) : Statement (.spaceof o) := fun _ =>
  decode2_plain (opOf_packR ..) (by decide) (by rw [decodeWord, opOf_packR, rOf_packR]; rfl)
theorem oprdy : Statement (.oprdy) := fun _ =>
  decode2_plain (opOf_packR ..) (by decide) (by rw [decodeWord, opOf_packR, rOf_packR]; rfl)
theorem drain : Statement (.drain) := fun _ =>
  decode2_plain (opOf_packR ..) (by decide) (by rw [decodeWord, opOf_packR, rOf_packR]; rfl)
theorem fenceDom : Statement (.fenceDom) := fun _ =>
  decode2_plain (opOf_packR ..) (by decide) (by rw [decodeWord, opOf_packR, rOf_packR]; rfl)
theorem fenceSys : Statement (.fenceSys) := fun _ =>
  decode2_plain (opOf_packR ..) (by decide) (by rw [decodeWord, opOf_packR, rOf_packR]; rfl)
theorem barTeam : Statement (.barTeam) := fun _ =>
  decode2_plain (opOf_packR ..) (by decide) (by rw [decodeWord, opOf_packR, rOf_packR]; rfl)
theorem barCrew : Statement (.barCrew) := fun _ =>
  decode2_plain (opOf_packR ..) (by decide) (by rw [decodeWord, opOf_packR, rOf_packR]; rfl)
theorem barCell : Statement (.barCell) := fun _ =>
  decode2_plain (opOf_packR ..) (by decide) (by rw [decodeWord, opOf_packR, rOf_packR]; rfl)
theorem barStack : Statement (.barStack) := fun _ =>
  decode2_plain (opOf_packR ..) (by decide) (by rw [decodeWord, opOf_packR, rOf_packR]; rfl)
theorem barDom : Statement (.barDom) := fun _ =>
  decode2_plain (opOf_packR ..) (by decide) (by rw [decodeWord, opOf_packR, rOf_packR]; rfl)
theorem arrive (o : RDL) : Statement (.arrive o) := fun h =>
  decode2_plain (opOf_packR ..) (by decide) (by rw [decodeWord, opOf_packR, rOf_packR]; exact arrive_word o (by simpa [Instr.wf] using h))
theorem waitb (o : RA) : Statement (.waitb o) := fun _ =>
  decode2_plain (opOf_packR ..) (by decide) (by rw [decodeWord, opOf_packR, rOf_packR]; rfl)
theorem shfl (o : R3) : Statement (.shfl o) := fun _ =>
  decode2_plain (opOf_packR ..) (by decide) (by rw [decodeWord, opOf_packR, rOf_packR]; rfl)
theorem shflup (o : R3) : Statement (.shflup o) := fun _ =>
  decode2_plain (opOf_packR ..) (by decide) (by rw [decodeWord, opOf_packR, rOf_packR]; rfl)
theorem shfldn (o : R3) : Statement (.shfldn o) := fun _ =>
  decode2_plain (opOf_packR ..) (by decide) (by rw [decodeWord, opOf_packR, rOf_packR]; rfl)
theorem shflx (o : R3) : Statement (.shflx o) := fun _ =>
  decode2_plain (opOf_packR ..) (by decide) (by rw [decodeWord, opOf_packR, rOf_packR]; rfl)
theorem anyLane (o : R2) : Statement (.anyLane o) := fun _ =>
  decode2_plain (opOf_packR ..) (by decide) (by rw [decodeWord, opOf_packR, rOf_packR]; rfl)
theorem allLanes (o : R2) : Statement (.allLanes o) := fun _ =>
  decode2_plain (opOf_packR ..) (by decide) (by rw [decodeWord, opOf_packR, rOf_packR]; rfl)
theorem ballot (o : R2) : Statement (.ballot o) := fun _ =>
  decode2_plain (opOf_packR ..) (by decide) (by rw [decodeWord, opOf_packR, rOf_packR]; rfl)
theorem matchLanes (o : R2) : Statement (.matchLanes o) := fun _ =>
  decode2_plain (opOf_packR ..) (by decide) (by rw [decodeWord, opOf_packR, rOf_packR]; rfl)
theorem redadd (o : R2) : Statement (.redadd o) := fun _ =>
  decode2_plain (opOf_packR ..) (by decide) (by rw [decodeWord, opOf_packR, rOf_packR]; rfl)
theorem redmin (o : R2) : Statement (.redmin o) := fun _ =>
  decode2_plain (opOf_packR ..) (by decide) (by rw [decodeWord, opOf_packR, rOf_packR]; rfl)
theorem redmax (o : R2) : Statement (.redmax o) := fun _ =>
  decode2_plain (opOf_packR ..) (by decide) (by rw [decodeWord, opOf_packR, rOf_packR]; rfl)
theorem redfadd (o : R2) : Statement (.redfadd o) := fun _ =>
  decode2_plain (opOf_packR ..) (by decide) (by rw [decodeWord, opOf_packR, rOf_packR]; rfl)
theorem scani (o : R2) : Statement (.scani o) := fun _ =>
  decode2_plain (opOf_packR ..) (by decide) (by rw [decodeWord, opOf_packR, rOf_packR]; rfl)
theorem scane (o : R2) : Statement (.scane o) := fun _ =>
  decode2_plain (opOf_packR ..) (by decide) (by rw [decodeWord, opOf_packR, rOf_packR]; rfl)
theorem segi (o : R3) : Statement (.segi o) := fun _ =>
  decode2_plain (opOf_packR ..) (by decide) (by rw [decodeWord, opOf_packR, rOf_packR]; rfl)
theorem sege (o : R3) : Statement (.sege o) := fun _ =>
  decode2_plain (opOf_packR ..) (by decide) (by rw [decodeWord, opOf_packR, rOf_packR]; rfl)
theorem beqz (o : B1) : Statement (.beqz o) := fun _ =>
  decode2_plain (opOf_packB ..) (by decide) (by rw [decodeWord, opOf_packB, bOf_packB]; rfl)
theorem bnez (o : B1) : Statement (.bnez o) := fun _ =>
  decode2_plain (opOf_packB ..) (by decide) (by rw [decodeWord, opOf_packB, bOf_packB]; rfl)
theorem bltz (o : B1) : Statement (.bltz o) := fun _ =>
  decode2_plain (opOf_packB ..) (by decide) (by rw [decodeWord, opOf_packB, bOf_packB]; rfl)
theorem bgez (o : B1) : Statement (.bgez o) := fun _ =>
  decode2_plain (opOf_packB ..) (by decide) (by rw [decodeWord, opOf_packB, bOf_packB]; rfl)
theorem blez (o : B1) : Statement (.blez o) := fun _ =>
  decode2_plain (opOf_packB ..) (by decide) (by rw [decodeWord, opOf_packB, bOf_packB]; rfl)
theorem bgtz (o : B1) : Statement (.bgtz o) := fun _ =>
  decode2_plain (opOf_packB ..) (by decide) (by rw [decodeWord, opOf_packB, bOf_packB]; rfl)
theorem bra (o : O15) : Statement (.bra o) := fun _ =>
  decode2_plain (opOf_packB ..) (by decide) (by rw [decodeWord, opOf_packB, bOf_packB]; rfl)
theorem bru (o : B1) : Statement (.bru o) := fun _ =>
  decode2_plain (opOf_packB ..) (by decide) (by rw [decodeWord, opOf_packB, bOf_packB]; rfl)
theorem beqzX (x : BitVec 26) (o : B1) : Statement (.beqzX x o) := fun _ => decode2_prefixed (by
  rw [decodeX, opOf_packB, decodeWord, opOf_packB, bOf_packB]; rfl)
theorem bnezX (x : BitVec 26) (o : B1) : Statement (.bnezX x o) := fun _ => decode2_prefixed (by
  rw [decodeX, opOf_packB, decodeWord, opOf_packB, bOf_packB]; rfl)
theorem bltzX (x : BitVec 26) (o : B1) : Statement (.bltzX x o) := fun _ => decode2_prefixed (by
  rw [decodeX, opOf_packB, decodeWord, opOf_packB, bOf_packB]; rfl)
theorem bgezX (x : BitVec 26) (o : B1) : Statement (.bgezX x o) := fun _ => decode2_prefixed (by
  rw [decodeX, opOf_packB, decodeWord, opOf_packB, bOf_packB]; rfl)
theorem blezX (x : BitVec 26) (o : B1) : Statement (.blezX x o) := fun _ => decode2_prefixed (by
  rw [decodeX, opOf_packB, decodeWord, opOf_packB, bOf_packB]; rfl)
theorem bgtzX (x : BitVec 26) (o : B1) : Statement (.bgtzX x o) := fun _ => decode2_prefixed (by
  rw [decodeX, opOf_packB, decodeWord, opOf_packB, bOf_packB]; rfl)
theorem braX (x : BitVec 26) (o : O15) : Statement (.braX x o) := fun _ => decode2_prefixed (by
  rw [decodeX, opOf_packB, decodeWord, opOf_packB, bOf_packB]; rfl)
theorem bruX (x : BitVec 26) (o : B1) : Statement (.bruX x o) := fun _ => decode2_prefixed (by
  rw [decodeX, opOf_packB, decodeWord, opOf_packB, bOf_packB]; rfl)
theorem jmp (o : O26) : Statement (.jmp o) := fun _ =>
  decode2_plain (opOf_packJ ..) (by decide) (by rw [decodeWord, opOf_packJ, joOf_packJ]; rfl)
theorem call (o : O26) : Statement (.call o) := fun _ =>
  decode2_plain (opOf_packJ ..) (by decide) (by rw [decodeWord, opOf_packJ, joOf_packJ]; rfl)
theorem jmpX (x : BitVec 26) (o : O26) : Statement (.jmpX x o) := fun _ => decode2_prefixed (by
  rw [decodeX, opOf_packJ, decodeWord, opOf_packJ, joOf_packJ]; rfl)
theorem callX (x : BitVec 26) (o : O26) : Statement (.callX x o) := fun _ => decode2_prefixed (by
  rw [decodeX, opOf_packJ, decodeWord, opOf_packJ, joOf_packJ]; rfl)
theorem jr (o : RA) : Statement (.jr o) := fun _ =>
  decode2_plain (opOf_packR ..) (by decide) (by rw [decodeWord, opOf_packR, rOf_packR]; rfl)
theorem jalr (o : R2) : Statement (.jalr o) := fun _ =>
  decode2_plain (opOf_packR ..) (by decide) (by rw [decodeWord, opOf_packR, rOf_packR]; rfl)
theorem ret : Statement (.ret) := fun _ =>
  decode2_plain (opOf_packR ..) (by decide) (by rw [decodeWord, opOf_packR, rOf_packR]; rfl)
theorem loop (o : LoopOp) : Statement (.loop o) := fun h =>
  decode2_plain (opOf_packI ..) (by decide) (by rw [decodeWord, opOf_packI, iOf_packI]; exact loop_word o)
theorem spawn (o : RAB) : Statement (.spawn o) := fun _ =>
  decode2_plain (opOf_packR ..) (by decide) (by rw [decodeWord, opOf_packR, rOf_packR]; rfl)
theorem exitThread : Statement (.exitThread) := fun _ =>
  decode2_plain (opOf_packR ..) (by decide) (by rw [decodeWord, opOf_packR, rOf_packR]; rfl)
theorem regroup (o : RA) : Statement (.regroup o) := fun _ =>
  decode2_plain (opOf_packR ..) (by decide) (by rw [decodeWord, opOf_packR, rOf_packR]; rfl)
theorem yield : Statement (.yield) := fun _ =>
  decode2_plain (opOf_packR ..) (by decide) (by rw [decodeWord, opOf_packR, rOf_packR]; rfl)
theorem elect (o : RD) : Statement (.elect o) := fun _ =>
  decode2_plain (opOf_packR ..) (by decide) (by rw [decodeWord, opOf_packR, rOf_packR]; rfl)
theorem win (o : RA) : Statement (.win o) := fun _ =>
  decode2_plain (opOf_packR ..) (by decide) (by rw [decodeWord, opOf_packR, rOf_packR]; rfl)
theorem dqput (o : RA) : Statement (.dqput o) := fun _ =>
  decode2_plain (opOf_packR ..) (by decide) (by rw [decodeWord, opOf_packR, rOf_packR]; rfl)
theorem dqget (o : RD) : Statement (.dqget o) := fun _ =>
  decode2_plain (opOf_packR ..) (by decide) (by rw [decodeWord, opOf_packR, rOf_packR]; rfl)
theorem tasknew (o : R2) : Statement (.tasknew o) := fun _ =>
  decode2_plain (opOf_packR ..) (by decide) (by rw [decodeWord, opOf_packR, rOf_packR]; rfl)
theorem trigger : Statement (.trigger) := fun _ =>
  decode2_plain (opOf_packR ..) (by decide) (by rw [decodeWord, opOf_packR, rOf_packR]; rfl)
theorem waitdep : Statement (.waitdep) := fun _ =>
  decode2_plain (opOf_packR ..) (by decide) (by rw [decodeWord, opOf_packR, rOf_packR]; rfl)
theorem iter (o : RD) : Statement (.iter o) := fun _ =>
  decode2_plain (opOf_packR ..) (by decide) (by rw [decodeWord, opOf_packR, rOf_packR]; rfl)
theorem fixup (o : R2) : Statement (.fixup o) := fun _ =>
  decode2_plain (opOf_packR ..) (by decide) (by rw [decodeWord, opOf_packR, rOf_packR]; rfl)
theorem stqput (o : RAB) : Statement (.stqput o) := fun _ =>
  decode2_plain (opOf_packR ..) (by decide) (by rw [decodeWord, opOf_packR, rOf_packR]; rfl)
theorem stqget (o : R2) : Statement (.stqget o) := fun _ =>
  decode2_plain (opOf_packR ..) (by decide) (by rw [decodeWord, opOf_packR, rOf_packR]; rfl)
theorem stqtry (o : R3b) : Statement (.stqtry o) := fun _ =>
  decode2_plain (opOf_packR ..) (by decide) (by rw [decodeWord, opOf_packR, rOf_packR]; rfl)
theorem mfsr (o : MfsrOp) : Statement (.mfsr o) := fun _ =>
  decode2_plain (opOf_packI ..) (by decide) (by rw [decodeWord, opOf_packI, iOf_packI]; rfl)
theorem mtsr (o : MtsrOp) : Statement (.mtsr o) := fun _ =>
  decode2_plain (opOf_packI ..) (by decide) (by rw [decodeWord, opOf_packI, iOf_packI]; rfl)
theorem trap (o : N7) : Statement (.trap o) := fun _ =>
  decode2_plain (opOf_packR ..) (by decide) (by rw [decodeWord, opOf_packR, rOf_packR]; rfl)
theorem eret : Statement (.eret) := fun _ =>
  decode2_plain (opOf_packR ..) (by decide) (by rw [decodeWord, opOf_packR, rOf_packR]; rfl)
theorem savefe (o : R2) : Statement (.savefe o) := fun _ =>
  decode2_plain (opOf_packR ..) (by decide) (by rw [decodeWord, opOf_packR, rOf_packR]; rfl)
theorem loadfe (o : RAB) : Statement (.loadfe o) := fun _ =>
  decode2_plain (opOf_packR ..) (by decide) (by rw [decodeWord, opOf_packR, rOf_packR]; rfl)
theorem bkpt : Statement (.bkpt) := fun _ =>
  decode2_plain (opOf_packR ..) (by decide) (by rw [decodeWord, opOf_packR, rOf_packR]; rfl)
theorem brk : Statement (.brk) := fun _ =>
  decode2_plain (opOf_packR ..) (by decide) (by rw [decodeWord, opOf_packR, rOf_packR]; rfl)
theorem probe (o : N4) : Statement (.probe o) := fun h =>
  decode2_plain (opOf_packR ..) (by decide) (by rw [decodeWord, opOf_packR, rOf_packR]; have h := small (by omega) o; show dec39 _ = _; simp [dec39, need, h.1, h.2, Fld.z, o.isLt])
theorem halt : Statement (.halt) := fun _ =>
  decode2_plain (opOf_packR ..) (by decide) (by rw [decodeWord, opOf_packR, rOf_packR]; rfl)
theorem cpTld (o : R2) : Statement (.cpTld o) := fun _ =>
  decode2_plain (opOf_packR ..) (by decide) (by rw [decodeWord, opOf_packR, rOf_packR]; rfl)
theorem cpTst (o : R2) : Statement (.cpTst o) := fun _ =>
  decode2_plain (opOf_packR ..) (by decide) (by rw [decodeWord, opOf_packR, rOf_packR]; rfl)
theorem cpGth (o : R2) : Statement (.cpGth o) := fun _ =>
  decode2_plain (opOf_packR ..) (by decide) (by rw [decodeWord, opOf_packR, rOf_packR]; rfl)
theorem cpSct (o : R2) : Statement (.cpSct o) := fun _ =>
  decode2_plain (opOf_packR ..) (by decide) (by rw [decodeWord, opOf_packR, rOf_packR]; rfl)
theorem cpLin (o : R2) : Statement (.cpLin o) := fun _ =>
  decode2_plain (opOf_packR ..) (by decide) (by rw [decodeWord, opOf_packR, rOf_packR]; rfl)
theorem cpFill (o : R2) : Statement (.cpFill o) := fun _ =>
  decode2_plain (opOf_packR ..) (by decide) (by rw [decodeWord, opOf_packR, rOf_packR]; rfl)
theorem cpMcst (o : R2) : Statement (.cpMcst o) := fun _ =>
  decode2_plain (opOf_packR ..) (by decide) (by rw [decodeWord, opOf_packR, rOf_packR]; rfl)
theorem mmE4m3 (o : R2) : Statement (.mmE4m3 o) := fun _ =>
  decode2_plain (opOf_packR ..) (by decide) (by rw [decodeWord, opOf_packR, rOf_packR]; rfl)
theorem mmE5m2 (o : R2) : Statement (.mmE5m2 o) := fun _ =>
  decode2_plain (opOf_packR ..) (by decide) (by rw [decodeWord, opOf_packR, rOf_packR]; rfl)
theorem mmF6a (o : R2) : Statement (.mmF6a o) := fun _ =>
  decode2_plain (opOf_packR ..) (by decide) (by rw [decodeWord, opOf_packR, rOf_packR]; rfl)
theorem mmF6b (o : R2) : Statement (.mmF6b o) := fun _ =>
  decode2_plain (opOf_packR ..) (by decide) (by rw [decodeWord, opOf_packR, rOf_packR]; rfl)
theorem mmBf16 (o : R2) : Statement (.mmBf16 o) := fun _ =>
  decode2_plain (opOf_packR ..) (by decide) (by rw [decodeWord, opOf_packR, rOf_packR]; rfl)
theorem mmFp16 (o : R2) : Statement (.mmFp16 o) := fun _ =>
  decode2_plain (opOf_packR ..) (by decide) (by rw [decodeWord, opOf_packR, rOf_packR]; rfl)
theorem mmI8 (o : R2) : Statement (.mmI8 o) := fun _ =>
  decode2_plain (opOf_packR ..) (by decide) (by rw [decodeWord, opOf_packR, rOf_packR]; rfl)
theorem mmE8m10 (o : R2) : Statement (.mmE8m10 o) := fun _ =>
  decode2_plain (opOf_packR ..) (by decide) (by rw [decodeWord, opOf_packR, rOf_packR]; rfl)
theorem mmsE4m3 (o : R2) : Statement (.mmsE4m3 o) := fun _ =>
  decode2_plain (opOf_packR ..) (by decide) (by rw [decodeWord, opOf_packR, rOf_packR]; rfl)
theorem mmsE5m2 (o : R2) : Statement (.mmsE5m2 o) := fun _ =>
  decode2_plain (opOf_packR ..) (by decide) (by rw [decodeWord, opOf_packR, rOf_packR]; rfl)
theorem mmsF6a (o : R2) : Statement (.mmsF6a o) := fun _ =>
  decode2_plain (opOf_packR ..) (by decide) (by rw [decodeWord, opOf_packR, rOf_packR]; rfl)
theorem mmsF6b (o : R2) : Statement (.mmsF6b o) := fun _ =>
  decode2_plain (opOf_packR ..) (by decide) (by rw [decodeWord, opOf_packR, rOf_packR]; rfl)
theorem mmsBf16 (o : R2) : Statement (.mmsBf16 o) := fun _ =>
  decode2_plain (opOf_packR ..) (by decide) (by rw [decodeWord, opOf_packR, rOf_packR]; rfl)
theorem mmsFp16 (o : R2) : Statement (.mmsFp16 o) := fun _ =>
  decode2_plain (opOf_packR ..) (by decide) (by rw [decodeWord, opOf_packR, rOf_packR]; rfl)
theorem mmsI8 (o : R2) : Statement (.mmsI8 o) := fun _ =>
  decode2_plain (opOf_packR ..) (by decide) (by rw [decodeWord, opOf_packR, rOf_packR]; rfl)
theorem mmsE8m10 (o : R2) : Statement (.mmsE8m10 o) := fun _ =>
  decode2_plain (opOf_packR ..) (by decide) (by rw [decodeWord, opOf_packR, rOf_packR]; rfl)
theorem qmE4m3B0 (o : R2) : Statement (.qmE4m3B0 o) := fun _ =>
  decode2_plain (opOf_packR ..) (by decide) (by rw [decodeWord, opOf_packR, rOf_packR]; rfl)
theorem qmE4m3B1 (o : R2) : Statement (.qmE4m3B1 o) := fun _ =>
  decode2_plain (opOf_packR ..) (by decide) (by rw [decodeWord, opOf_packR, rOf_packR]; rfl)
theorem qmE4m3B2 (o : R2) : Statement (.qmE4m3B2 o) := fun _ =>
  decode2_plain (opOf_packR ..) (by decide) (by rw [decodeWord, opOf_packR, rOf_packR]; rfl)
theorem qmE4m3B3 (o : R2) : Statement (.qmE4m3B3 o) := fun _ =>
  decode2_plain (opOf_packR ..) (by decide) (by rw [decodeWord, opOf_packR, rOf_packR]; rfl)
theorem qmE5m2B0 (o : R2) : Statement (.qmE5m2B0 o) := fun _ =>
  decode2_plain (opOf_packR ..) (by decide) (by rw [decodeWord, opOf_packR, rOf_packR]; rfl)
theorem qmE5m2B1 (o : R2) : Statement (.qmE5m2B1 o) := fun _ =>
  decode2_plain (opOf_packR ..) (by decide) (by rw [decodeWord, opOf_packR, rOf_packR]; rfl)
theorem qmE5m2B2 (o : R2) : Statement (.qmE5m2B2 o) := fun _ =>
  decode2_plain (opOf_packR ..) (by decide) (by rw [decodeWord, opOf_packR, rOf_packR]; rfl)
theorem qmE5m2B3 (o : R2) : Statement (.qmE5m2B3 o) := fun _ =>
  decode2_plain (opOf_packR ..) (by decide) (by rw [decodeWord, opOf_packR, rOf_packR]; rfl)
theorem qmF6aB0 (o : R2) : Statement (.qmF6aB0 o) := fun _ =>
  decode2_plain (opOf_packR ..) (by decide) (by rw [decodeWord, opOf_packR, rOf_packR]; rfl)
theorem qmF6aB1 (o : R2) : Statement (.qmF6aB1 o) := fun _ =>
  decode2_plain (opOf_packR ..) (by decide) (by rw [decodeWord, opOf_packR, rOf_packR]; rfl)
theorem qmF6aB2 (o : R2) : Statement (.qmF6aB2 o) := fun _ =>
  decode2_plain (opOf_packR ..) (by decide) (by rw [decodeWord, opOf_packR, rOf_packR]; rfl)
theorem qmF6aB3 (o : R2) : Statement (.qmF6aB3 o) := fun _ =>
  decode2_plain (opOf_packR ..) (by decide) (by rw [decodeWord, opOf_packR, rOf_packR]; rfl)
theorem qmF6bB0 (o : R2) : Statement (.qmF6bB0 o) := fun _ =>
  decode2_plain (opOf_packR ..) (by decide) (by rw [decodeWord, opOf_packR, rOf_packR]; rfl)
theorem qmF6bB1 (o : R2) : Statement (.qmF6bB1 o) := fun _ =>
  decode2_plain (opOf_packR ..) (by decide) (by rw [decodeWord, opOf_packR, rOf_packR]; rfl)
theorem qmF6bB2 (o : R2) : Statement (.qmF6bB2 o) := fun _ =>
  decode2_plain (opOf_packR ..) (by decide) (by rw [decodeWord, opOf_packR, rOf_packR]; rfl)
theorem qmF6bB3 (o : R2) : Statement (.qmF6bB3 o) := fun _ =>
  decode2_plain (opOf_packR ..) (by decide) (by rw [decodeWord, opOf_packR, rOf_packR]; rfl)
theorem qmBf16 (o : R2) : Statement (.qmBf16 o) := fun _ =>
  decode2_plain (opOf_packR ..) (by decide) (by rw [decodeWord, opOf_packR, rOf_packR]; rfl)
theorem qmFp16 (o : R2) : Statement (.qmFp16 o) := fun _ =>
  decode2_plain (opOf_packR ..) (by decide) (by rw [decodeWord, opOf_packR, rOf_packR]; rfl)
theorem qmI8 (o : R2) : Statement (.qmI8 o) := fun _ =>
  decode2_plain (opOf_packR ..) (by decide) (by rw [decodeWord, opOf_packR, rOf_packR]; rfl)
theorem qmE8m10 (o : R2) : Statement (.qmE8m10 o) := fun _ =>
  decode2_plain (opOf_packR ..) (by decide) (by rw [decodeWord, opOf_packR, rOf_packR]; rfl)
theorem drnF32 (o : R2) : Statement (.drnF32 o) := fun _ =>
  decode2_plain (opOf_packR ..) (by decide) (by rw [decodeWord, opOf_packR, rOf_packR]; rfl)
theorem drnBf16 (o : R2) : Statement (.drnBf16 o) := fun _ =>
  decode2_plain (opOf_packR ..) (by decide) (by rw [decodeWord, opOf_packR, rOf_packR]; rfl)
theorem drnFp16 (o : R2) : Statement (.drnFp16 o) := fun _ =>
  decode2_plain (opOf_packR ..) (by decide) (by rw [decodeWord, opOf_packR, rOf_packR]; rfl)
theorem drnE4m3 (o : R2) : Statement (.drnE4m3 o) := fun _ =>
  decode2_plain (opOf_packR ..) (by decide) (by rw [decodeWord, opOf_packR, rOf_packR]; rfl)
theorem mzero (o : R2) : Statement (.mzero o) := fun _ =>
  decode2_plain (opOf_packR ..) (by decide) (by rw [decodeWord, opOf_packR, rOf_packR]; rfl)
theorem mstat (o : R2) : Statement (.mstat o) := fun _ =>
  decode2_plain (opOf_packR ..) (by decide) (by rw [decodeWord, opOf_packR, rOf_packR]; rfl)
theorem pvE4m3 (o : R2) : Statement (.pvE4m3 o) := fun _ =>
  decode2_plain (opOf_packR ..) (by decide) (by rw [decodeWord, opOf_packR, rOf_packR]; rfl)
theorem pvBf16 (o : R2) : Statement (.pvBf16 o) := fun _ =>
  decode2_plain (opOf_packR ..) (by decide) (by rw [decodeWord, opOf_packR, rOf_packR]; rfl)
theorem pvI8 (o : R2) : Statement (.pvI8 o) := fun _ =>
  decode2_plain (opOf_packR ..) (by decide) (by rw [decodeWord, opOf_packR, rOf_packR]; rfl)
theorem pvMask (o : R2) : Statement (.pvMask o) := fun _ =>
  decode2_plain (opOf_packR ..) (by decide) (by rw [decodeWord, opOf_packR, rOf_packR]; rfl)
theorem pvPred (o : R2) : Statement (.pvPred o) := fun _ =>
  decode2_plain (opOf_packR ..) (by decide) (by rw [decodeWord, opOf_packR, rOf_packR]; rfl)
theorem tbLoad (o : R2) : Statement (.tbLoad o) := fun _ =>
  decode2_plain (opOf_packR ..) (by decide) (by rw [decodeWord, opOf_packR, rOf_packR]; rfl)
theorem tbSwap (o : R2) : Statement (.tbSwap o) := fun _ =>
  decode2_plain (opOf_packR ..) (by decide) (by rw [decodeWord, opOf_packR, rOf_packR]; rfl)
theorem hgBind (o : RD) : Statement (.hgBind o) := fun _ =>
  decode2_plain (opOf_packR ..) (by decide) (by rw [decodeWord, opOf_packR, rOf_packR]; rfl)
theorem hgRead (o : R2) : Statement (.hgRead o) := fun _ =>
  decode2_plain (opOf_packR ..) (by decide) (by rw [decodeWord, opOf_packR, rOf_packR]; rfl)
theorem hgClr (o : RD) : Statement (.hgClr o) := fun _ =>
  decode2_plain (opOf_packR ..) (by decide) (by rw [decodeWord, opOf_packR, rOf_packR]; rfl)
theorem fxPut (o : R2) : Statement (.fxPut o) := fun _ =>
  decode2_plain (opOf_packR ..) (by decide) (by rw [decodeWord, opOf_packR, rOf_packR]; rfl)
theorem fxGet (o : R2) : Statement (.fxGet o) := fun _ =>
  decode2_plain (opOf_packR ..) (by decide) (by rw [decodeWord, opOf_packR, rOf_packR]; rfl)
theorem fxAredF32 (o : R2) : Statement (.fxAredF32 o) := fun _ =>
  decode2_plain (opOf_packR ..) (by decide) (by rw [decodeWord, opOf_packR, rOf_packR]; rfl)
theorem fxAredBf16 (o : R2) : Statement (.fxAredBf16 o) := fun _ =>
  decode2_plain (opOf_packR ..) (by decide) (by rw [decodeWord, opOf_packR, rOf_packR]; rfl)
theorem fxBcast (o : R2) : Statement (.fxBcast o) := fun _ =>
  decode2_plain (opOf_packR ..) (by decide) (by rw [decodeWord, opOf_packR, rOf_packR]; rfl)
theorem fxSig (o : R2) : Statement (.fxSig o) := fun _ =>
  decode2_plain (opOf_packR ..) (by decide) (by rw [decodeWord, opOf_packR, rOf_packR]; rfl)
theorem neBind (o : R2) : Statement (.neBind o) := fun _ =>
  decode2_plain (opOf_packR ..) (by decide) (by rw [decodeWord, opOf_packR, rOf_packR]; rfl)
theorem neEval (o : R2) : Statement (.neEval o) := fun _ =>
  decode2_plain (opOf_packR ..) (by decide) (by rw [decodeWord, opOf_packR, rOf_packR]; rfl)
theorem neEvalg (o : R2) : Statement (.neEvalg o) := fun _ =>
  decode2_plain (opOf_packR ..) (by decide) (by rw [decodeWord, opOf_packR, rOf_packR]; rfl)
theorem neBwd (o : R2) : Statement (.neBwd o) := fun _ =>
  decode2_plain (opOf_packR ..) (by decide) (by rw [decodeWord, opOf_packR, rOf_packR]; rfl)
theorem neFlush (o : RD) : Statement (.neFlush o) := fun _ =>
  decode2_plain (opOf_packR ..) (by decide) (by rw [decodeWord, opOf_packR, rOf_packR]; rfl)
theorem neUnbind (o : R2) : Statement (.neUnbind o) := fun _ =>
  decode2_plain (opOf_packR ..) (by decide) (by rw [decodeWord, opOf_packR, rOf_packR]; rfl)
theorem tdBind (o : R2) : Statement (.tdBind o) := fun _ =>
  decode2_plain (opOf_packR ..) (by decide) (by rw [decodeWord, opOf_packR, rOf_packR]; rfl)
theorem tdDesc (o : R2) : Statement (.tdDesc o) := fun _ =>
  decode2_plain (opOf_packR ..) (by decide) (by rw [decodeWord, opOf_packR, rOf_packR]; rfl)
theorem tdBwd (o : R2) : Statement (.tdBwd o) := fun _ =>
  decode2_plain (opOf_packR ..) (by decide) (by rw [decodeWord, opOf_packR, rOf_packR]; rfl)
theorem tdPath (o : R2) : Statement (.tdPath o) := fun _ =>
  decode2_plain (opOf_packR ..) (by decide) (by rw [decodeWord, opOf_packR, rOf_packR]; rfl)
theorem grSort32 (o : R2) : Statement (.grSort32 o) := fun _ =>
  decode2_plain (opOf_packR ..) (by decide) (by rw [decodeWord, opOf_packR, rOf_packR]; rfl)
theorem grSort64 (o : R2) : Statement (.grSort64 o) := fun _ =>
  decode2_plain (opOf_packR ..) (by decide) (by rw [decodeWord, opOf_packR, rOf_packR]; rfl)
theorem grMorton (o : R2) : Statement (.grMorton o) := fun _ =>
  decode2_plain (opOf_packR ..) (by decide) (by rw [decodeWord, opOf_packR, rOf_packR]; rfl)
theorem grSap (o : R2) : Statement (.grSap o) := fun _ =>
  decode2_plain (opOf_packR ..) (by decide) (by rw [decodeWord, opOf_packR, rOf_packR]; rfl)
theorem cvQbox (o : R2) : Statement (.cvQbox o) := fun _ =>
  decode2_plain (opOf_packR ..) (by decide) (by rw [decodeWord, opOf_packR, rOf_packR]; rfl)
theorem cvQray (o : R2) : Statement (.cvQray o) := fun _ =>
  decode2_plain (opOf_packR ..) (by decide) (by rw [decodeWord, opOf_packR, rOf_packR]; rfl)
theorem psLu32 (o : R2) : Statement (.psLu32 o) := fun _ =>
  decode2_plain (opOf_packR ..) (by decide) (by rw [decodeWord, opOf_packR, rOf_packR]; rfl)
theorem psLu64 (o : R2) : Statement (.psLu64 o) := fun _ =>
  decode2_plain (opOf_packR ..) (by decide) (by rw [decodeWord, opOf_packR, rOf_packR]; rfl)
theorem psChol32 (o : R2) : Statement (.psChol32 o) := fun _ =>
  decode2_plain (opOf_packR ..) (by decide) (by rw [decodeWord, opOf_packR, rOf_packR]; rfl)
theorem psChol64 (o : R2) : Statement (.psChol64 o) := fun _ =>
  decode2_plain (opOf_packR ..) (by decide) (by rw [decodeWord, opOf_packR, rOf_packR]; rfl)
theorem psSolve (o : R2) : Statement (.psSolve o) := fun _ =>
  decode2_plain (opOf_packR ..) (by decide) (by rw [decodeWord, opOf_packR, rOf_packR]; rfl)
theorem psBwd (o : R2) : Statement (.psBwd o) := fun _ =>
  decode2_plain (opOf_packR ..) (by decide) (by rw [decodeWord, opOf_packR, rOf_packR]; rfl)
theorem psPgs (o : R2) : Statement (.psPgs o) := fun _ =>
  decode2_plain (opOf_packR ..) (by decide) (by rw [decodeWord, opOf_packR, rOf_packR]; rfl)

end Encoding

end Sys2Proof.Laws
end

