-- ==== Sys2Proof/Tests/Slice0.lean ====
section
/-! SUPPORT. The model's own tests: words written out from the spec's encodings, refusals, witnesses for the premises of the
obligations, and results of single instructions from the spec's worked cases. -/

-- The theorems are checked one after another: in parallel they need more memory than one check is given.
set_option Elab.async false

namespace Sys2Proof.Tests
open Sys2Proof Sys2Proof.Machine

/-! ### Decoding: every word of the table, its fields filled with distinct values -/

/-- Each word, alone, decodes to its instruction, of 4 bytes. -/
noncomputable def wordsDecode (l : List (W32 × Instr)) : Bool :=
  l.all fun x => match decode2 x.1 none with
    | .ok (i, n) => decide (i = x.2) && n == 4
    | .error _ => false
/-- Each word behind the X word `x` decodes to its instruction, of 8 bytes. -/
noncomputable def xWordsDecode (x : W32) (l : List (W32 × Instr)) : Bool :=
  l.all fun y => match decode2 x (some y.1) with
    | .ok (i, n) => decide (i = y.2) && n == 8
    | .error _ => false

theorem test_decode_integer_1 : wordsDecode [
  (0x020565A6#32, .add { f := true, g := false, d := 0x15#7, a := 0x4b#7, b := 0x26#7 }),
  (0x022565A6#32, .sub { f := true, g := false, d := 0x15#7, a := 0x4b#7, b := 0x26#7 }),
  (0x024565A6#32, .and { f := true, g := false, d := 0x15#7, a := 0x4b#7, b := 0x26#7 }),
  (0x026565A6#32, .or { f := true, g := false, d := 0x15#7, a := 0x4b#7, b := 0x26#7 }),
  (0x028565A6#32, .xor { f := true, g := false, d := 0x15#7, a := 0x4b#7, b := 0x26#7 }),
  (0x02A565A6#32, .shl { f := true, g := false, d := 0x15#7, a := 0x4b#7, b := 0x26#7 }),
  (0x02C565A6#32, .shr { f := true, g := false, d := 0x15#7, a := 0x4b#7, b := 0x26#7 }),
  (0x02E565A6#32, .sra { f := true, g := false, d := 0x15#7, a := 0x4b#7, b := 0x26#7 }),
  (0x060565A6#32, .add64 { f := true, g := false, d := 0x15#7, a := 0x4b#7, b := 0x26#7 }),
  (0x062565A6#32, .sub64 { f := true, g := false, d := 0x15#7, a := 0x4b#7, b := 0x26#7 }),
  (0x064565A6#32, .and64 { f := true, g := false, d := 0x15#7, a := 0x4b#7, b := 0x26#7 }),
  (0x066565A6#32, .or64 { f := true, g := false, d := 0x15#7, a := 0x4b#7, b := 0x26#7 }),
  (0x068565A6#32, .xor64 { f := true, g := false, d := 0x15#7, a := 0x4b#7, b := 0x26#7 }),
  (0x06A565A6#32, .shl64 { f := true, g := false, d := 0x15#7, a := 0x4b#7, b := 0x26#7 }),
  (0x06C565A6#32, .shr64 { f := true, g := false, d := 0x15#7, a := 0x4b#7, b := 0x26#7 }),
  (0x06E565A6#32, .sra64 { f := true, g := false, d := 0x15#7, a := 0x4b#7, b := 0x26#7 }),
  (0x0A0565A6#32, .mul { f := true, g := false, d := 0x15#7, a := 0x4b#7, b := 0x26#7 }),
  (0x0A2565A6#32, .mulh { f := true, g := false, d := 0x15#7, a := 0x4b#7, b := 0x26#7 }),
  (0x0A4565A6#32, .mulhu { f := true, g := false, d := 0x15#7, a := 0x4b#7, b := 0x26#7 }),
  (0x0A6565A6#32, .mul64 { f := true, g := false, d := 0x15#7, a := 0x4b#7, b := 0x26#7 }),
  (0x0A8565A6#32, .div { f := true, g := false, d := 0x15#7, a := 0x4b#7, b := 0x26#7 }),
  (0x0AA565A6#32, .divu { f := true, g := false, d := 0x15#7, a := 0x4b#7, b := 0x26#7 }),
  (0x0AC565A6#32, .rem { f := true, g := false, d := 0x15#7, a := 0x4b#7, b := 0x26#7 }),
  (0x0AE565A6#32, .remu { f := true, g := false, d := 0x15#7, a := 0x4b#7, b := 0x26#7 }),
  (0x0E0565A6#32, .seq { f := true, g := false, d := 0x15#7, a := 0x4b#7, b := 0x26#7 }),
  (0x0E2565A6#32, .sne { f := true, g := false, d := 0x15#7, a := 0x4b#7, b := 0x26#7 }),
  (0x0E4565A6#32, .slt { f := true, g := false, d := 0x15#7, a := 0x4b#7, b := 0x26#7 }),
  (0x0E6565A6#32, .sltu { f := true, g := false, d := 0x15#7, a := 0x4b#7, b := 0x26#7 }),
  (0x0E8565A6#32, .sle { f := true, g := false, d := 0x15#7, a := 0x4b#7, b := 0x26#7 }),
  (0x0EA565A6#32, .sleu { f := true, g := false, d := 0x15#7, a := 0x4b#7, b := 0x26#7 })] = true := by decide +kernel

theorem test_decode_integer_2 : wordsDecode [
  (0x0EC565A6#32, .min { f := true, g := false, d := 0x15#7, a := 0x4b#7, b := 0x26#7 }),
  (0x0EE565A6#32, .max { f := true, g := false, d := 0x15#7, a := 0x4b#7, b := 0x26#7 }),
  (0x120565A6#32, .seq64 { f := true, g := false, d := 0x15#7, a := 0x4b#7, b := 0x26#7 }),
  (0x122565A6#32, .sne64 { f := true, g := false, d := 0x15#7, a := 0x4b#7, b := 0x26#7 }),
  (0x124565A6#32, .slt64 { f := true, g := false, d := 0x15#7, a := 0x4b#7, b := 0x26#7 }),
  (0x126565A6#32, .sltu64 { f := true, g := false, d := 0x15#7, a := 0x4b#7, b := 0x26#7 }),
  (0x128565A6#32, .sle64 { f := true, g := false, d := 0x15#7, a := 0x4b#7, b := 0x26#7 }),
  (0x12A565A6#32, .sleu64 { f := true, g := false, d := 0x15#7, a := 0x4b#7, b := 0x26#7 }),
  (0x12C565A6#32, .min64 { f := true, g := false, d := 0x15#7, a := 0x4b#7, b := 0x26#7 }),
  (0x12E565A6#32, .max64 { f := true, g := false, d := 0x15#7, a := 0x4b#7, b := 0x26#7 }),
  (0x160565FF#32, .popc { f := true, d := 0x15#7, a := 0x4b#7 }),
  (0x162565FF#32, .clz { f := true, d := 0x15#7, a := 0x4b#7 }),
  (0x164565FF#32, .ctz { f := true, d := 0x15#7, a := 0x4b#7 }),
  (0x166565FF#32, .brev { f := true, d := 0x15#7, a := 0x4b#7 }),
  (0x168565A6#32, .bfx { f := true, g := false, d := 0x15#7, a := 0x4b#7, b := 0x26#7 }),
  (0x16A565A6#32, .bfi { f := true, g := false, d := 0x15#7, a := 0x4b#7, b := 0x26#7 }),
  (0x16C565A6#32, .prmt { f := true, g := false, d := 0x15#7, a := 0x4b#7, b := 0x26#7 }),
  (0x16E565A6#32, .andn { f := true, g := false, d := 0x15#7, a := 0x4b#7, b := 0x26#7 }),
  (0x1A0565A6#32, .sel { f := true, g := false, d := 0x15#7, a := 0x4b#7, b := 0x26#7 }),
  (0x1A2565FF#32, .abs { f := true, d := 0x15#7, a := 0x4b#7 }),
  (0x1A4565FF#32, .neg { f := true, d := 0x15#7, a := 0x4b#7 }),
  (0x1A6565FF#32, .sext8 { f := true, d := 0x15#7, a := 0x4b#7 }),
  (0x1A8565FF#32, .sext16 { f := true, d := 0x15#7, a := 0x4b#7 }),
  (0x1AA565FF#32, .zext8 { f := true, d := 0x15#7, a := 0x4b#7 }),
  (0x1AC565FF#32, .zext16 { f := true, d := 0x15#7, a := 0x4b#7 }),
  (0x1AE565FF#32, .unpt { f := true, d := 0x15#7, a := 0x4b#7 }),
  (0x1E565DA3#32, .addi { f := true, d := 0x15#7, a := 0x4b#7, i := 0x5a3#11 }),
  (0x22565DA3#32, .addi64 { f := true, d := 0x15#7, a := 0x4b#7, i := 0x5a3#11 }),
  (0x26565DA3#32, .andi { f := true, d := 0x15#7, a := 0x4b#7, i := 0x5a3#11 }),
  (0x2A565DA3#32, .ori { f := true, d := 0x15#7, a := 0x4b#7, i := 0x5a3#11 })] = true := by decide +kernel

theorem test_decode_integer_3 : wordsDecode [
  (0x2E565DA3#32, .xori { f := true, d := 0x15#7, a := 0x4b#7, i := 0x5a3#11 }),
  (0x3256580D#32, .shli { f := true, d := 0x15#7, a := 0x4b#7, n := 0xd#5 }),
  (0x32565A0D#32, .shri { f := true, d := 0x15#7, a := 0x4b#7, n := 0xd#5 }),
  (0x32565C0D#32, .srai { f := true, d := 0x15#7, a := 0x4b#7, n := 0xd#5 }),
  (0x32565E0D#32, .rori { f := true, d := 0x15#7, a := 0x4b#7, n := 0xd#5 }),
  (0x3256592D#32, .shli64 { f := true, d := 0x15#7, a := 0x4b#7, n := 0x2d#6 }),
  (0x32565B2D#32, .shri64 { f := true, d := 0x15#7, a := 0x4b#7, n := 0x2d#6 }),
  (0x32565D2D#32, .srai64 { f := true, d := 0x15#7, a := 0x4b#7, n := 0x2d#6 }),
  (0x32565F2D#32, .rori64 { f := true, d := 0x15#7, a := 0x4b#7, n := 0x2d#6 }),
  (0x3457FDA3#32, .li { d := 0x15#7, i := 0x5a3#11 }),
  (0x3657FDA3#32, .li64 { d := 0x15#7, i := 0x5a3#11 }),
  (0x3A4565A6#32, .lea { f := true, g := false, r := 0x2#3, d := 0x15#7, a := 0x4b#7, b := 0x26#7 })] = true := by decide +kernel

theorem test_decode_float_1 : wordsDecode [
  (0x3EA565A6#32, .fadd32 { f := true, g := false, r := 0x5#3, d := 0x15#7, a := 0x4b#7, b := 0x26#7 }),
  (0x42A565A6#32, .fsub32 { f := true, g := false, r := 0x5#3, d := 0x15#7, a := 0x4b#7, b := 0x26#7 }),
  (0x46A565A6#32, .fmul32 { f := true, g := false, r := 0x5#3, d := 0x15#7, a := 0x4b#7, b := 0x26#7 }),
  (0x4AA565A6#32, .ffma32 { f := true, g := false, r := 0x5#3, d := 0x15#7, a := 0x4b#7, b := 0x26#7 }),
  (0x4EA565A6#32, .fadd64 { f := true, g := false, r := 0x5#3, d := 0x15#7, a := 0x4b#7, b := 0x26#7 }),
  (0x52A565A6#32, .fsub64 { f := true, g := false, r := 0x5#3, d := 0x15#7, a := 0x4b#7, b := 0x26#7 }),
  (0x56A565A6#32, .fmul64 { f := true, g := false, r := 0x5#3, d := 0x15#7, a := 0x4b#7, b := 0x26#7 }),
  (0x5AA565A6#32, .ffma64 { f := true, g := false, r := 0x5#3, d := 0x15#7, a := 0x4b#7, b := 0x26#7 }),
  (0x5EA565A6#32, .hadd2 { f := true, g := false, r := 0x5#3, d := 0x15#7, a := 0x4b#7, b := 0x26#7 }),
  (0x62A565A6#32, .hmul2 { f := true, g := false, r := 0x5#3, d := 0x15#7, a := 0x4b#7, b := 0x26#7 }),
  (0x66A565A6#32, .hfma2 { f := true, g := false, r := 0x5#3, d := 0x15#7, a := 0x4b#7, b := 0x26#7 }),
  (0x6AA565A6#32, .badd2 { f := true, g := false, r := 0x5#3, d := 0x15#7, a := 0x4b#7, b := 0x26#7 }),
  (0x6EA565A6#32, .bmul2 { f := true, g := false, r := 0x5#3, d := 0x15#7, a := 0x4b#7, b := 0x26#7 }),
  (0x72A565A6#32, .bfma2 { f := true, g := false, r := 0x5#3, d := 0x15#7, a := 0x4b#7, b := 0x26#7 }),
  (0x760565A6#32, .feq { f := true, g := false, d := 0x15#7, a := 0x4b#7, b := 0x26#7 }),
  (0x762565A6#32, .flt { f := true, g := false, d := 0x15#7, a := 0x4b#7, b := 0x26#7 }),
  (0x764565A6#32, .fle { f := true, g := false, d := 0x15#7, a := 0x4b#7, b := 0x26#7 }),
  (0x766565A6#32, .funord { f := true, g := false, d := 0x15#7, a := 0x4b#7, b := 0x26#7 }),
  (0x768565A6#32, .fmin { f := true, g := false, d := 0x15#7, a := 0x4b#7, b := 0x26#7 }),
  (0x76A565A6#32, .fmax { f := true, g := false, d := 0x15#7, a := 0x4b#7, b := 0x26#7 }),
  (0x76C565FF#32, .fclass { f := true, d := 0x15#7, a := 0x4b#7 }),
  (0x76E565A6#32, .fsgnj { f := true, g := false, d := 0x15#7, a := 0x4b#7, b := 0x26#7 }),
  (0x7A0565A6#32, .feq64 { f := true, g := false, d := 0x15#7, a := 0x4b#7, b := 0x26#7 }),
  (0x7A2565A6#32, .flt64 { f := true, g := false, d := 0x15#7, a := 0x4b#7, b := 0x26#7 }),
  (0x7A4565A6#32, .fle64 { f := true, g := false, d := 0x15#7, a := 0x4b#7, b := 0x26#7 }),
  (0x7A6565A6#32, .funord64 { f := true, g := false, d := 0x15#7, a := 0x4b#7, b := 0x26#7 }),
  (0x7A8565A6#32, .fmin64 { f := true, g := false, d := 0x15#7, a := 0x4b#7, b := 0x26#7 }),
  (0x7AA565A6#32, .fmax64 { f := true, g := false, d := 0x15#7, a := 0x4b#7, b := 0x26#7 }),
  (0x7AC565FF#32, .fclass64 { f := true, d := 0x15#7, a := 0x4b#7 }),
  (0x7AE565A6#32, .fsgnj64 { f := true, g := false, d := 0x15#7, a := 0x4b#7, b := 0x26#7 })] = true := by decide +kernel

theorem test_decode_float_2 : wordsDecode [
  (0x7E0565A6#32, .hmin2 { f := true, g := false, d := 0x15#7, a := 0x4b#7, b := 0x26#7 }),
  (0x7E2565A6#32, .hmax2 { f := true, g := false, d := 0x15#7, a := 0x4b#7, b := 0x26#7 }),
  (0x7E4565A6#32, .heq2 { f := true, g := false, d := 0x15#7, a := 0x4b#7, b := 0x26#7 }),
  (0x7E6565A6#32, .hlt2 { f := true, g := false, d := 0x15#7, a := 0x4b#7, b := 0x26#7 }),
  (0x7E8565A6#32, .bmin2 { f := true, g := false, d := 0x15#7, a := 0x4b#7, b := 0x26#7 }),
  (0x7EA565A6#32, .bmax2 { f := true, g := false, d := 0x15#7, a := 0x4b#7, b := 0x26#7 }),
  (0x7EC565A6#32, .beq2 { f := true, g := false, d := 0x15#7, a := 0x4b#7, b := 0x26#7 }),
  (0x7EE565A6#32, .blt2 { f := true, g := false, d := 0x15#7, a := 0x4b#7, b := 0x26#7 })] = true := by decide +kernel

theorem test_decode_conversions_1 : wordsDecode [
  (0x82A56580#32, .cvtF32F64 { f := true, r := 0x5#3, d := 0x15#7, a := 0x4b#7 }),
  (0x82A56581#32, .cvtF64F32 { f := true, r := 0x5#3, d := 0x15#7, a := 0x4b#7 }),
  (0x82A56582#32, .cvtF16F32 { f := true, r := 0x5#3, d := 0x15#7, a := 0x4b#7 }),
  (0x82A56583#32, .cvtF32F16 { f := true, r := 0x5#3, d := 0x15#7, a := 0x4b#7 }),
  (0x82A56584#32, .cvtBf16F32 { f := true, r := 0x5#3, d := 0x15#7, a := 0x4b#7 }),
  (0x82A56585#32, .cvtF32Bf16 { f := true, r := 0x5#3, d := 0x15#7, a := 0x4b#7 }),
  (0x82A56586#32, .cvtE4m3F32 { f := true, r := 0x5#3, d := 0x15#7, a := 0x4b#7 }),
  (0x82A56587#32, .cvtF32E4m3 { f := true, r := 0x5#3, d := 0x15#7, a := 0x4b#7 }),
  (0x82A56588#32, .cvtE5m2F32 { f := true, r := 0x5#3, d := 0x15#7, a := 0x4b#7 }),
  (0x82A56589#32, .cvtF32E5m2 { f := true, r := 0x5#3, d := 0x15#7, a := 0x4b#7 }),
  (0x82A5658A#32, .cvtF6aF32 { f := true, r := 0x5#3, d := 0x15#7, a := 0x4b#7 }),
  (0x82A5658B#32, .cvtF32F6a { f := true, r := 0x5#3, d := 0x15#7, a := 0x4b#7 }),
  (0x82A5658C#32, .cvtF6bF32 { f := true, r := 0x5#3, d := 0x15#7, a := 0x4b#7 }),
  (0x82A5658D#32, .cvtF32F6b { f := true, r := 0x5#3, d := 0x15#7, a := 0x4b#7 }),
  (0x82A5658E#32, .cvtE8m10F32 { f := true, r := 0x5#3, d := 0x15#7, a := 0x4b#7 }),
  (0x82A56590#32, .cvtF16x2F32 { f := true, r := 0x5#3, d := 0x15#7, a := 0x4b#7 }),
  (0x82A56591#32, .cvtF32F16x2 { f := true, r := 0x5#3, d := 0x15#7, a := 0x4b#7 }),
  (0x82A56592#32, .cvtBf16x2F32 { f := true, r := 0x5#3, d := 0x15#7, a := 0x4b#7 }),
  (0x82A56593#32, .cvtF32Bf16x2 { f := true, r := 0x5#3, d := 0x15#7, a := 0x4b#7 }),
  (0x82A56594#32, .cvtE4m3x2F32 { f := true, r := 0x5#3, d := 0x15#7, a := 0x4b#7 }),
  (0x82A56595#32, .cvtE5m2x2F32 { f := true, r := 0x5#3, d := 0x15#7, a := 0x4b#7 }),
  (0x82A565A0#32, .cvtI32F32 { f := true, r := 0x5#3, d := 0x15#7, a := 0x4b#7 }),
  (0x82A565A1#32, .cvtUi32F32 { f := true, r := 0x5#3, d := 0x15#7, a := 0x4b#7 }),
  (0x82A565A2#32, .cvtI64F32 { f := true, r := 0x5#3, d := 0x15#7, a := 0x4b#7 }),
  (0x82A565A3#32, .cvtUi64F32 { f := true, r := 0x5#3, d := 0x15#7, a := 0x4b#7 }),
  (0x82A565A4#32, .cvtI32F64 { f := true, r := 0x5#3, d := 0x15#7, a := 0x4b#7 }),
  (0x82A565A5#32, .cvtUi32F64 { f := true, r := 0x5#3, d := 0x15#7, a := 0x4b#7 }),
  (0x82A565A6#32, .cvtI64F64 { f := true, r := 0x5#3, d := 0x15#7, a := 0x4b#7 }),
  (0x82A565A7#32, .cvtUi64F64 { f := true, r := 0x5#3, d := 0x15#7, a := 0x4b#7 }),
  (0x82A565A8#32, .cvtF32I32 { f := true, r := 0x5#3, d := 0x15#7, a := 0x4b#7 })] = true := by decide +kernel

theorem test_decode_conversions_2 : wordsDecode [
  (0x82A565A9#32, .cvtF32Ui32 { f := true, r := 0x5#3, d := 0x15#7, a := 0x4b#7 }),
  (0x82A565AA#32, .cvtF32I64 { f := true, r := 0x5#3, d := 0x15#7, a := 0x4b#7 }),
  (0x82A565AB#32, .cvtF32Ui64 { f := true, r := 0x5#3, d := 0x15#7, a := 0x4b#7 }),
  (0x82A565AC#32, .cvtF64I32 { f := true, r := 0x5#3, d := 0x15#7, a := 0x4b#7 }),
  (0x82A565AD#32, .cvtF64Ui32 { f := true, r := 0x5#3, d := 0x15#7, a := 0x4b#7 }),
  (0x82A565AE#32, .cvtF64I64 { f := true, r := 0x5#3, d := 0x15#7, a := 0x4b#7 }),
  (0x82A565AF#32, .cvtF64Ui64 { f := true, r := 0x5#3, d := 0x15#7, a := 0x4b#7 }),
  (0x82A565B0#32, .cvtI8F32 { f := true, r := 0x5#3, d := 0x15#7, a := 0x4b#7 }),
  (0x82A565B1#32, .cvtF32I8 { f := true, r := 0x5#3, d := 0x15#7, a := 0x4b#7 })] = true := by decide +kernel

theorem test_decode_functions_and_draws : wordsDecode [
  (0x860565FF#32, .rcp { f := true, d := 0x15#7, a := 0x4b#7 }),
  (0x862565FF#32, .rsq { f := true, d := 0x15#7, a := 0x4b#7 }),
  (0x864565FF#32, .sqrt { f := true, d := 0x15#7, a := 0x4b#7 }),
  (0x866565FF#32, .ex2 { f := true, d := 0x15#7, a := 0x4b#7 }),
  (0x868565FF#32, .lg2 { f := true, d := 0x15#7, a := 0x4b#7 }),
  (0x86A565FF#32, .sin { f := true, d := 0x15#7, a := 0x4b#7 }),
  (0x86C565FF#32, .cos { f := true, d := 0x15#7, a := 0x4b#7 }),
  (0x86E565FF#32, .tanh { f := true, d := 0x15#7, a := 0x4b#7 }),
  (0x8A05658B#32, .actNear { f := true, d := 0x15#7, a := 0x4b#7, t := 0xb#4 }),
  (0x8A25658B#32, .actLin { f := true, d := 0x15#7, a := 0x4b#7, t := 0xb#4 }),
  (0x8C057FFF#32, .rand { d := 0x15#7 }),
  (0x8C257FFF#32, .randu { d := 0x15#7 }),
  (0x8C457FFF#32, .randn { d := 0x15#7 }),
  (0x8E7FE5A6#32, .rskip { f := true, g := false, a := 0x4b#7, b := 0x26#7 }),
  (0x8E8565FF#32, .rsel { f := true, d := 0x15#7, a := 0x4b#7 }),
  (0x8CBFFFFF#32, .epreset),
  (0x8CDFFFFF#32, .epstep),
  (0x8EE565A6#32, .rpeek { f := true, g := false, d := 0x15#7, a := 0x4b#7, b := 0x26#7 })] = true := by decide +kernel

theorem test_decode_memory_1 : wordsDecode [
  (0x928ACBA3#32, .ld { f := true, s := 0x2#3, d := 0x15#7, a := 0x4b#7, i := 0xa3#8 }),
  (0x968ACBA3#32, .st { f := true, s := 0x2#3, d := 0x15#7, a := 0x4b#7, i := 0xa3#8 }),
  (0x9B4ACBA3#32, .ldf { f := true, d := 0x15#7, a := 0x4b#7, i := 0xa3#8 }),
  (0x9F4ACBA3#32, .stf { f := true, d := 0x15#7, a := 0x4b#7, i := 0xa3#8 }),
  (0xA20565A6#32, .atomAdd { f := true, g := false, d := 0x15#7, a := 0x4b#7, b := 0x26#7 }),
  (0xA22565A6#32, .atomMin { f := true, g := false, d := 0x15#7, a := 0x4b#7, b := 0x26#7 }),
  (0xA24565A6#32, .atomMax { f := true, g := false, d := 0x15#7, a := 0x4b#7, b := 0x26#7 }),
  (0xA26565A6#32, .atomAnd { f := true, g := false, d := 0x15#7, a := 0x4b#7, b := 0x26#7 }),
  (0xA28565A6#32, .atomOr { f := true, g := false, d := 0x15#7, a := 0x4b#7, b := 0x26#7 }),
  (0xA2A565A6#32, .atomXor { f := true, g := false, d := 0x15#7, a := 0x4b#7, b := 0x26#7 }),
  (0xA2C565A6#32, .atomXchg { f := true, g := false, d := 0x15#7, a := 0x4b#7, b := 0x26#7 }),
  (0xA2E565A6#32, .atomCas { f := true, g := false, d := 0x15#7, a := 0x4b#7, b := 0x26#7 }),
  (0xA60565A6#32, .atomAdd64 { f := true, g := false, d := 0x15#7, a := 0x4b#7, b := 0x26#7 }),
  (0xA62565A6#32, .atomCas64 { f := true, g := false, d := 0x15#7, a := 0x4b#7, b := 0x26#7 }),
  (0xA64565A6#32, .atomXchg64 { f := true, g := false, d := 0x15#7, a := 0x4b#7, b := 0x26#7 }),
  (0xA66565A6#32, .atomFadd32 { f := true, g := false, d := 0x15#7, a := 0x4b#7, b := 0x26#7 }),
  (0xA68565A6#32, .atomFadd64 { f := true, g := false, d := 0x15#7, a := 0x4b#7, b := 0x26#7 }),
  (0xA6A565A6#32, .atomBfadd2 { f := true, g := false, d := 0x15#7, a := 0x4b#7, b := 0x26#7 }),
  (0xA6C565A6#32, .atomFmin32 { f := true, g := false, d := 0x15#7, a := 0x4b#7, b := 0x26#7 }),
  (0xA6E565A6#32, .atomFmax32 { f := true, g := false, d := 0x15#7, a := 0x4b#7, b := 0x26#7 }),
  (0xAA056586#32, .lda32 { f := true, d := 0x15#7, a := 0x4b#7, j := 0x6#3 }),
  (0xAA256586#32, .lda64 { f := true, d := 0x15#7, a := 0x4b#7, j := 0x6#3 }),
  (0xAA456586#32, .sta32 { f := true, d := 0x15#7, a := 0x4b#7, j := 0x6#3 }),
  (0xAA656586#32, .sta64 { f := true, d := 0x15#7, a := 0x4b#7, j := 0x6#3 }),
  (0xAA9FE586#32, .affset { f := true, a := 0x4b#7, j := 0x6#3 }),
  (0xA8A57F86#32, .affcnt { d := 0x15#7, j := 0x6#3 }),
  (0xAE0565FF#32, .a2gLoc { f := true, d := 0x15#7, a := 0x4b#7 }),
  (0xAE2565FF#32, .a2gPad { f := true, d := 0x15#7, a := 0x4b#7 }),
  (0xAE4565FF#32, .a2gCel { f := true, d := 0x15#7, a := 0x4b#7 }),
  (0xAE6565FF#32, .g2aLoc { f := true, d := 0x15#7, a := 0x4b#7 })] = true := by decide +kernel

theorem test_decode_memory_2 : wordsDecode [
  (0xAE8565FF#32, .g2aPad { f := true, d := 0x15#7, a := 0x4b#7 }),
  (0xAEA565FF#32, .g2aCel { f := true, d := 0x15#7, a := 0x4b#7 }),
  (0xAEC565A6#32, .inspace { f := true, g := false, d := 0x15#7, a := 0x4b#7, b := 0x26#7 }),
  (0xAEE565FF#32, .spaceof { f := true, d := 0x15#7, a := 0x4b#7 }),
  (0xB01FFFFF#32, .oprdy),
  (0xB03FFFFF#32, .drain),
  (0xB05FFFFF#32, .fenceDom),
  (0xB07FFFFF#32, .fenceSys)] = true := by decide +kernel

theorem test_decode_cross_lane : wordsDecode [
  (0xB41FFFFF#32, .barTeam),
  (0xB43FFFFF#32, .barCrew),
  (0xB45FFFFF#32, .barCell),
  (0xB47FFFFF#32, .barStack),
  (0xB49FFFFF#32, .barDom),
  (0xB4A57F83#32, .arrive { d := 0x15#7, l := 0x3#3 }),
  (0xB6DFE5FF#32, .waitb { f := true, a := 0x4b#7 }),
  (0xBA0565A6#32, .shfl { f := true, g := false, d := 0x15#7, a := 0x4b#7, b := 0x26#7 }),
  (0xBA2565A6#32, .shflup { f := true, g := false, d := 0x15#7, a := 0x4b#7, b := 0x26#7 }),
  (0xBA4565A6#32, .shfldn { f := true, g := false, d := 0x15#7, a := 0x4b#7, b := 0x26#7 }),
  (0xBA6565A6#32, .shflx { f := true, g := false, d := 0x15#7, a := 0x4b#7, b := 0x26#7 }),
  (0xBA8565FF#32, .anyLane { f := true, d := 0x15#7, a := 0x4b#7 }),
  (0xBAA565FF#32, .allLanes { f := true, d := 0x15#7, a := 0x4b#7 }),
  (0xBAC565FF#32, .ballot { f := true, d := 0x15#7, a := 0x4b#7 }),
  (0xBAE565FF#32, .matchLanes { f := true, d := 0x15#7, a := 0x4b#7 }),
  (0xBE0565FF#32, .redadd { f := true, d := 0x15#7, a := 0x4b#7 }),
  (0xBE2565FF#32, .redmin { f := true, d := 0x15#7, a := 0x4b#7 }),
  (0xBE4565FF#32, .redmax { f := true, d := 0x15#7, a := 0x4b#7 }),
  (0xBE6565FF#32, .redfadd { f := true, d := 0x15#7, a := 0x4b#7 }),
  (0xBE8565FF#32, .scani { f := true, d := 0x15#7, a := 0x4b#7 }),
  (0xBEA565FF#32, .scane { f := true, d := 0x15#7, a := 0x4b#7 }),
  (0xBEC565A6#32, .segi { f := true, g := false, d := 0x15#7, a := 0x4b#7, b := 0x26#7 }),
  (0xBEE565A6#32, .sege { f := true, g := false, d := 0x15#7, a := 0x4b#7, b := 0x26#7 })] = true := by decide +kernel

theorem test_decode_control : wordsDecode [
  (0xC225AD35#32, .beqz { f := true, a := 0x4b#7, o := 0x2d35#15 }),
  (0xC265AD35#32, .bnez { f := true, a := 0x4b#7, o := 0x2d35#15 }),
  (0xC2A5AD35#32, .bltz { f := true, a := 0x4b#7, o := 0x2d35#15 }),
  (0xC2E5AD35#32, .bgez { f := true, a := 0x4b#7, o := 0x2d35#15 }),
  (0xC325AD35#32, .blez { f := true, a := 0x4b#7, o := 0x2d35#15 }),
  (0xC365AD35#32, .bgtz { f := true, a := 0x4b#7, o := 0x2d35#15 }),
  (0xC1BFAD35#32, .bra 0x2d35#15),
  (0xC3E5AD35#32, .bru { f := true, a := 0x4b#7, o := 0x2d35#15 }),
  (0xC6B2D359#32, .jmp 0x2b2d359#26),
  (0xCAB2D359#32, .call 0x2b2d359#26),
  (0xCE1FE5FF#32, .jr { f := true, a := 0x4b#7 }),
  (0xCE2565FF#32, .jalr { f := true, d := 0x15#7, a := 0x4b#7 }),
  (0xCC5FFFFF#32, .ret),
  (0xD3FE582D#32, .loop { f := true, a := 0x4b#7, n := 0x2d#8 })] = true := by decide +kernel

theorem test_decode_threads_and_tasks : wordsDecode [
  (0xD61FE5A6#32, .spawn { f := true, g := false, a := 0x4b#7, b := 0x26#7 }),
  (0xD43FFFFF#32, .exitThread),
  (0xD65FE5FF#32, .regroup { f := true, a := 0x4b#7 }),
  (0xD47FFFFF#32, .yield),
  (0xD4857FFF#32, .elect { d := 0x15#7 }),
  (0xD6BFE5FF#32, .win { f := true, a := 0x4b#7 }),
  (0xD6DFE5FF#32, .dqput { f := true, a := 0x4b#7 }),
  (0xD4E57FFF#32, .dqget { d := 0x15#7 }),
  (0xDA0565FF#32, .tasknew { f := true, d := 0x15#7, a := 0x4b#7 }),
  (0xD83FFFFF#32, .trigger),
  (0xD85FFFFF#32, .waitdep),
  (0xD8657FFF#32, .iter { d := 0x15#7 }),
  (0xDA8565FF#32, .fixup { f := true, d := 0x15#7, a := 0x4b#7 }),
  (0xDABFE5A6#32, .stqput { f := true, g := false, a := 0x4b#7, b := 0x26#7 }),
  (0xDAC565FF#32, .stqget { f := true, d := 0x15#7, a := 0x4b#7 }),
  (0xDAE565A6#32, .stqtry { f := true, d := 0x15#7, a := 0x4b#7, b := 0x26#7 })] = true := by decide +kernel

theorem test_decode_system : wordsDecode [
  (0xDC57F82D#32, .mfsr { d := 0x15#7, n := 0x2d#11 }),
  (0xE3FE582D#32, .mtsr { f := true, a := 0x4b#7, n := 0x2d#11 }),
  (0xE41FFFAD#32, .trap 0x2d#7),
  (0xE43FFFFF#32, .eret),
  (0xE64565FF#32, .savefe { f := true, d := 0x15#7, a := 0x4b#7 }),
  (0xE67FE5A6#32, .loadfe { f := true, g := false, a := 0x4b#7, b := 0x26#7 }),
  (0xE49FFFFF#32, .bkpt),
  (0xE4BFFFFF#32, .brk),
  (0xE4DFFF8D#32, .probe 0xd#4),
  (0xE4FFFFFF#32, .halt)] = true := by decide +kernel

theorem test_decode_copy_and_matrix_1 : wordsDecode [
  (0xEA056580#32, .cpTld { f := true, d := 0x15#7, a := 0x4b#7 }),
  (0xEA056581#32, .cpTst { f := true, d := 0x15#7, a := 0x4b#7 }),
  (0xEA056582#32, .cpGth { f := true, d := 0x15#7, a := 0x4b#7 }),
  (0xEA056583#32, .cpSct { f := true, d := 0x15#7, a := 0x4b#7 }),
  (0xEA056584#32, .cpLin { f := true, d := 0x15#7, a := 0x4b#7 }),
  (0xEA056585#32, .cpFill { f := true, d := 0x15#7, a := 0x4b#7 }),
  (0xEA056586#32, .cpMcst { f := true, d := 0x15#7, a := 0x4b#7 }),
  (0xEA256580#32, .mmE4m3 { f := true, d := 0x15#7, a := 0x4b#7 }),
  (0xEA256581#32, .mmE5m2 { f := true, d := 0x15#7, a := 0x4b#7 }),
  (0xEA256582#32, .mmF6a { f := true, d := 0x15#7, a := 0x4b#7 }),
  (0xEA256583#32, .mmF6b { f := true, d := 0x15#7, a := 0x4b#7 }),
  (0xEA256584#32, .mmBf16 { f := true, d := 0x15#7, a := 0x4b#7 }),
  (0xEA256585#32, .mmFp16 { f := true, d := 0x15#7, a := 0x4b#7 }),
  (0xEA256586#32, .mmI8 { f := true, d := 0x15#7, a := 0x4b#7 }),
  (0xEA256587#32, .mmE8m10 { f := true, d := 0x15#7, a := 0x4b#7 }),
  (0xEA256588#32, .mmsE4m3 { f := true, d := 0x15#7, a := 0x4b#7 }),
  (0xEA256589#32, .mmsE5m2 { f := true, d := 0x15#7, a := 0x4b#7 }),
  (0xEA25658A#32, .mmsF6a { f := true, d := 0x15#7, a := 0x4b#7 }),
  (0xEA25658B#32, .mmsF6b { f := true, d := 0x15#7, a := 0x4b#7 }),
  (0xEA25658C#32, .mmsBf16 { f := true, d := 0x15#7, a := 0x4b#7 }),
  (0xEA25658D#32, .mmsFp16 { f := true, d := 0x15#7, a := 0x4b#7 }),
  (0xEA25658E#32, .mmsI8 { f := true, d := 0x15#7, a := 0x4b#7 }),
  (0xEA25658F#32, .mmsE8m10 { f := true, d := 0x15#7, a := 0x4b#7 }),
  (0xEA256590#32, .qmE4m3B0 { f := true, d := 0x15#7, a := 0x4b#7 }),
  (0xEA256591#32, .qmE4m3B1 { f := true, d := 0x15#7, a := 0x4b#7 }),
  (0xEA256592#32, .qmE4m3B2 { f := true, d := 0x15#7, a := 0x4b#7 }),
  (0xEA256593#32, .qmE4m3B3 { f := true, d := 0x15#7, a := 0x4b#7 }),
  (0xEA256594#32, .qmE5m2B0 { f := true, d := 0x15#7, a := 0x4b#7 }),
  (0xEA256595#32, .qmE5m2B1 { f := true, d := 0x15#7, a := 0x4b#7 }),
  (0xEA256596#32, .qmE5m2B2 { f := true, d := 0x15#7, a := 0x4b#7 })] = true := by decide +kernel

theorem test_decode_copy_and_matrix_2 : wordsDecode [
  (0xEA256597#32, .qmE5m2B3 { f := true, d := 0x15#7, a := 0x4b#7 }),
  (0xEA256598#32, .qmF6aB0 { f := true, d := 0x15#7, a := 0x4b#7 }),
  (0xEA256599#32, .qmF6aB1 { f := true, d := 0x15#7, a := 0x4b#7 }),
  (0xEA25659A#32, .qmF6aB2 { f := true, d := 0x15#7, a := 0x4b#7 }),
  (0xEA25659B#32, .qmF6aB3 { f := true, d := 0x15#7, a := 0x4b#7 }),
  (0xEA25659C#32, .qmF6bB0 { f := true, d := 0x15#7, a := 0x4b#7 }),
  (0xEA25659D#32, .qmF6bB1 { f := true, d := 0x15#7, a := 0x4b#7 }),
  (0xEA25659E#32, .qmF6bB2 { f := true, d := 0x15#7, a := 0x4b#7 }),
  (0xEA25659F#32, .qmF6bB3 { f := true, d := 0x15#7, a := 0x4b#7 }),
  (0xEA2565A0#32, .qmBf16 { f := true, d := 0x15#7, a := 0x4b#7 }),
  (0xEA2565A1#32, .qmFp16 { f := true, d := 0x15#7, a := 0x4b#7 }),
  (0xEA2565A2#32, .qmI8 { f := true, d := 0x15#7, a := 0x4b#7 }),
  (0xEA2565A3#32, .qmE8m10 { f := true, d := 0x15#7, a := 0x4b#7 }),
  (0xEA2565A8#32, .drnF32 { f := true, d := 0x15#7, a := 0x4b#7 }),
  (0xEA2565A9#32, .drnBf16 { f := true, d := 0x15#7, a := 0x4b#7 }),
  (0xEA2565AA#32, .drnFp16 { f := true, d := 0x15#7, a := 0x4b#7 }),
  (0xEA2565AB#32, .drnE4m3 { f := true, d := 0x15#7, a := 0x4b#7 }),
  (0xEA2565AC#32, .mzero { f := true, d := 0x15#7, a := 0x4b#7 }),
  (0xEA2565AD#32, .mstat { f := true, d := 0x15#7, a := 0x4b#7 }),
  (0xEA456580#32, .pvE4m3 { f := true, d := 0x15#7, a := 0x4b#7 }),
  (0xEA456581#32, .pvBf16 { f := true, d := 0x15#7, a := 0x4b#7 }),
  (0xEA456582#32, .pvI8 { f := true, d := 0x15#7, a := 0x4b#7 }),
  (0xEA456583#32, .pvMask { f := true, d := 0x15#7, a := 0x4b#7 }),
  (0xEA456584#32, .pvPred { f := true, d := 0x15#7, a := 0x4b#7 }),
  (0xEA656580#32, .tbLoad { f := true, d := 0x15#7, a := 0x4b#7 }),
  (0xEA656581#32, .tbSwap { f := true, d := 0x15#7, a := 0x4b#7 }),
  (0xE8657F82#32, .hgBind { d := 0x15#7 }),
  (0xEA656583#32, .hgRead { f := true, d := 0x15#7, a := 0x4b#7 }),
  (0xE8657F84#32, .hgClr { d := 0x15#7 }),
  (0xEA856580#32, .fxPut { f := true, d := 0x15#7, a := 0x4b#7 })] = true := by decide +kernel

theorem test_decode_copy_and_matrix_3 : wordsDecode [
  (0xEA856581#32, .fxGet { f := true, d := 0x15#7, a := 0x4b#7 }),
  (0xEA856582#32, .fxAredF32 { f := true, d := 0x15#7, a := 0x4b#7 }),
  (0xEA856583#32, .fxAredBf16 { f := true, d := 0x15#7, a := 0x4b#7 }),
  (0xEA856584#32, .fxBcast { f := true, d := 0x15#7, a := 0x4b#7 }),
  (0xEA856585#32, .fxSig { f := true, d := 0x15#7, a := 0x4b#7 })] = true := by decide +kernel

theorem test_decode_other_engines : wordsDecode [
  (0xEE056580#32, .neBind { f := true, d := 0x15#7, a := 0x4b#7 }),
  (0xEE056581#32, .neEval { f := true, d := 0x15#7, a := 0x4b#7 }),
  (0xEE056582#32, .neEvalg { f := true, d := 0x15#7, a := 0x4b#7 }),
  (0xEE056583#32, .neBwd { f := true, d := 0x15#7, a := 0x4b#7 }),
  (0xEC057F84#32, .neFlush { d := 0x15#7 }),
  (0xEE056585#32, .neUnbind { f := true, d := 0x15#7, a := 0x4b#7 }),
  (0xEE256580#32, .tdBind { f := true, d := 0x15#7, a := 0x4b#7 }),
  (0xEE256581#32, .tdDesc { f := true, d := 0x15#7, a := 0x4b#7 }),
  (0xEE256582#32, .tdBwd { f := true, d := 0x15#7, a := 0x4b#7 }),
  (0xEE256583#32, .tdPath { f := true, d := 0x15#7, a := 0x4b#7 }),
  (0xEE456580#32, .grSort32 { f := true, d := 0x15#7, a := 0x4b#7 }),
  (0xEE456581#32, .grSort64 { f := true, d := 0x15#7, a := 0x4b#7 }),
  (0xEE456582#32, .grMorton { f := true, d := 0x15#7, a := 0x4b#7 }),
  (0xEE456583#32, .grSap { f := true, d := 0x15#7, a := 0x4b#7 }),
  (0xEE656580#32, .cvQbox { f := true, d := 0x15#7, a := 0x4b#7 }),
  (0xEE656581#32, .cvQray { f := true, d := 0x15#7, a := 0x4b#7 }),
  (0xEE856580#32, .psLu32 { f := true, d := 0x15#7, a := 0x4b#7 }),
  (0xEE856581#32, .psLu64 { f := true, d := 0x15#7, a := 0x4b#7 }),
  (0xEE856582#32, .psChol32 { f := true, d := 0x15#7, a := 0x4b#7 }),
  (0xEE856583#32, .psChol64 { f := true, d := 0x15#7, a := 0x4b#7 }),
  (0xEE856584#32, .psSolve { f := true, d := 0x15#7, a := 0x4b#7 }),
  (0xEE856585#32, .psBwd { f := true, d := 0x15#7, a := 0x4b#7 }),
  (0xEE856586#32, .psPgs { f := true, d := 0x15#7, a := 0x4b#7 })] = true := by decide +kernel

theorem test_decode_behind_x_word : xWordsDecode 0xFF234567#32 [
  (0x1E565DA3#32, .addiX 0x3234567#26 { f := true, d := 0x15#7, a := 0x4b#7, i := 0x5a3#11 }),
  (0x22565DA3#32, .addi64X 0x3234567#26 { f := true, d := 0x15#7, a := 0x4b#7, i := 0x5a3#11 }),
  (0x26565DA3#32, .andiX 0x3234567#26 { f := true, d := 0x15#7, a := 0x4b#7, i := 0x5a3#11 }),
  (0x2A565DA3#32, .oriX 0x3234567#26 { f := true, d := 0x15#7, a := 0x4b#7, i := 0x5a3#11 }),
  (0x2E565DA3#32, .xoriX 0x3234567#26 { f := true, d := 0x15#7, a := 0x4b#7, i := 0x5a3#11 }),
  (0x3457FDA3#32, .liX 0x3234567#26 { d := 0x15#7, i := 0x5a3#11 }),
  (0x3657FDA3#32, .li64X 0x3234567#26 { d := 0x15#7, i := 0x5a3#11 }),
  (0x928ACBA3#32, .ldX 0x3234567#26 { f := true, s := 0x2#3, d := 0x15#7, a := 0x4b#7, i := 0xa3#8 }),
  (0x968ACBA3#32, .stX 0x3234567#26 { f := true, s := 0x2#3, d := 0x15#7, a := 0x4b#7, i := 0xa3#8 }),
  (0x9B4ACBA3#32, .ldfX 0x3234567#26 { f := true, d := 0x15#7, a := 0x4b#7, i := 0xa3#8 }),
  (0x9F4ACBA3#32, .stfX 0x3234567#26 { f := true, d := 0x15#7, a := 0x4b#7, i := 0xa3#8 }),
  (0xC225AD35#32, .beqzX 0x3234567#26 { f := true, a := 0x4b#7, o := 0x2d35#15 }),
  (0xC265AD35#32, .bnezX 0x3234567#26 { f := true, a := 0x4b#7, o := 0x2d35#15 }),
  (0xC2A5AD35#32, .bltzX 0x3234567#26 { f := true, a := 0x4b#7, o := 0x2d35#15 }),
  (0xC2E5AD35#32, .bgezX 0x3234567#26 { f := true, a := 0x4b#7, o := 0x2d35#15 }),
  (0xC325AD35#32, .blezX 0x3234567#26 { f := true, a := 0x4b#7, o := 0x2d35#15 }),
  (0xC365AD35#32, .bgtzX 0x3234567#26 { f := true, a := 0x4b#7, o := 0x2d35#15 }),
  (0xC1BFAD35#32, .braX 0x3234567#26 0x2d35#15),
  (0xC3E5AD35#32, .bruX 0x3234567#26 { f := true, a := 0x4b#7, o := 0x2d35#15 }),
  (0xC6B2D359#32, .jmpX 0x3234567#26 0x2b2d359#26),
  (0xCAB2D359#32, .callX 0x3234567#26 0x2b2d359#26)] = true := by decide +kernel

/-! ### Words that are no instruction, and terms that are not well-formed -/

/-- Each word is refused by the failure beside it. -/
noncomputable def refusals (l : List (W32 × Option W32 × DecodeError)) : Bool :=
  l.all fun x => match decode2 x.1 x.2.1 with
    | .ok _ => false
    | .error e => e == x.2.2
/-- R40, R41: reserved major opcodes, a rounding mode of 6, size codes 7 of LD, 1, 3 and 7 of ST and 0 of LDF, and ACT with m 2. -/
theorem test_reserved_encodings : refusals [(0xF0000000#32, none, .reserved), (0xF7FFFFFF#32, none, .reserved), (0xF8000000#32, none, .reserved),
    (0x3CC00000#32, none, .reserved), (0x91C00000#32, none, .reserved), (0x94400000#32, none, .reserved), (0x94C00000#32, none, .reserved),
    (0x95C00000#32, none, .reserved), (0x98000000#32, none, .reserved), (0x88400000#32, none, .reserved)] = true := by decide +kernel
/-- R38, R39, R90, R91: POPC whose b is not 127, SHI with bit 6 or a 32-bit amount of 32, LI whose a is not 127, CVT with fb; and R41:
a table number of 16. -/
theorem test_bad_fields : refusals [(0x14000000#32, none, .badField), (0x30000040#32, none, .badField), (0x30000020#32, none, .badField),
    (0x34000000#32, none, .badField), (0x8180C084#32, none, .badField), (0x88000010#32, none, .unassigned)] = true := by decide +kernel
/-- R36: X before format R, X, SHI and LOOP; and before a reserved major opcode. -/
theorem test_x_misuse : refusals [(0xFC000000#32, some 0x0000C0F2#32, .xMisuse), (0xFC000000#32, some 0xFC000000#32, .xMisuse),
    (0xFC000000#32, some 0x30103303#32, .xMisuse), (0xFC000000#32, some 0xD1FC2801#32, .xMisuse), (0xFC000000#32, some 0xF0000000#32, .reserved)] =
    true := by decide +kernel

/-- The smoke test of `Instr.wf`: for every check of it, terms that it refuses. -/
def badRounding : RR3 := { f := false, g := false, r := 6#3, d := 0#7, a := 0#7, b := 0#7 }
def badCvt : RR2 := { f := false, r := 7#3, d := 0#7, a := 0#7 }
def sized (s : BitVec 3) : M2 := { f := false, s, d := 0#7, a := 0#7, i := 0#8 }
theorem test_wf_refuses_words : ([.fadd32 badRounding, .fsub32 badRounding, .fmul32 badRounding, .ffma32 badRounding, .fadd64 badRounding,
    .fsub64 badRounding, .fmul64 badRounding, .ffma64 badRounding, .hadd2 badRounding, .hmul2 badRounding, .hfma2 badRounding, .badd2 badRounding,
    .bmul2 badRounding, .bfma2 badRounding, .cvtF32F64 badCvt, .cvtF64F32 badCvt, .cvtF16F32 badCvt, .cvtF32F16 badCvt, .cvtBf16F32 badCvt,
    .cvtF32Bf16 badCvt, .cvtE4m3F32 badCvt, .cvtF32E4m3 badCvt, .cvtE5m2F32 badCvt, .cvtF32E5m2 badCvt, .cvtF6aF32 badCvt, .cvtF32F6a badCvt,
    .cvtF6bF32 badCvt, .cvtF32F6b badCvt, .cvtE8m10F32 badCvt, .cvtF16x2F32 badCvt, .cvtF32F16x2 badCvt, .cvtBf16x2F32 badCvt,
    .cvtF32Bf16x2 badCvt, .cvtE4m3x2F32 badCvt, .cvtE5m2x2F32 badCvt, .cvtI32F32 badCvt, .cvtUi32F32 badCvt, .cvtI64F32 badCvt,
    .cvtUi64F32 badCvt, .cvtI32F64 badCvt, .cvtUi32F64 badCvt, .cvtI64F64 badCvt, .cvtUi64F64 badCvt, .cvtF32I32 badCvt, .cvtF32Ui32 badCvt,
    .cvtF32I64 badCvt, .cvtF32Ui64 badCvt, .cvtF64I32 badCvt, .cvtF64Ui32 badCvt, .cvtF64I64 badCvt, .cvtF64Ui64 badCvt, .cvtI8F32 badCvt,
    .cvtF32I8 badCvt, .ld (sized 7#3), .ldX 0#26 (sized 7#3), .st (sized 1#3), .st (sized 3#3), .st (sized 7#3), .stX 0#26 (sized 1#3),
    .stX 0#26 (sized 3#3), .stX 0#26 (sized 7#3), .arrive { d := 0#7, l := 5#3 }, .arrive { d := 0#7, l := 7#3 }] : List Instr).all
      (fun i => !i.wf) = true := by decide +kernel
def farCore : EngRef := { core := 320, eng := .copy }
def farSect : EngRef := { core := 0, eng := .matrix 4 }
def farThread : ThreadRef := { core := 320, tid := 0#32 }
def noFlit : Flit := { seq := 0#24, vc := 0, dst := 0, src := 0, kind := 0, res := 0#64, payload := [], crcOk := true }
theorem test_wf_refuses_events_1 : ([.qmFusedPass 320 0 0, .qmFusedPass 0 4 0, .subarrayGate 320 0 0, .subarrayGate 0 4 0, .tableExchange 320,
    .tileLaunch 320 0, .tileDelivery 320 0, .tileDelivery 0 4, .backwardSettle 320, .commandCompletion farCore 0, .commandCompletion farSect 0,
    .lineDelivery farCore 0 0, .engineTranslationFault farSect 0 true, .stopHold farCore, .stopRelease { core := 0, eng := .stack 4 },
    .resultLands farThread 0, .sectionIssue 320 0, .sectionIssue 0 5, .forcedRun 320 0, .forcedRun 0 4, .yieldDeferralEnd 320 0 0,
    .yieldDeferralEnd 0 4 0, .yieldDeferralEnd 0 0 16, .governorWindow 320, .gangFormation 320 0, .gangFormation 0 8, .crewDispatch 160,
    .stealRequest 160 0, .stealRequest 0 168, .stealAnswer 160, .stealRoundWait 160, .costartAnnounce 0 0 128] : List Instr).all
      (fun i => !i.wf) = true := by decide +kernel
theorem test_wf_refuses_events_2 : ([.lineGroupSend 320 0, .lineGroupAtHome 320 0, .lineGroupReply 320 0, .negativeAcknowledgement 320 0,
    .nackRetry 320 0, .bypassEntryFree 160 0, .lanternPass 160, .routerPowerDown 160, .routerWake 160, .tokenGrant 2 0, .throttleLift 2,
    .preempt 320 0 0#64, .crewRestore 0 320, .spareCoreRepair 320 0#64, .spareSliceRepair 160, .storeRefusalReport farThread 0#64,
    .flitData 16 noFlit, .flitAcknowledgement 16 noFlit, .flitNegativeAcknowledgement 16 noFlit, .flitReservation 16 noFlit,
    .flitControl 16 noFlit, .wavelengthRetire 16 0 0, .fibreFailover 16 0, .peerUnreachable 16 0, .peerUnreachable 0 128, .thermalEvent 2,
    .laserModuleSwap 4, .samplingEvt farThread none, .voltageDroop 2, .linksComeUp 16 0, .linksComeUp 0 128] : List Instr).all
      (fun i => !i.wf) = true := by decide +kernel
/-- Neighbours at the ends of the ranges are well-formed. -/
theorem test_wf_accepts : ([.fadd32 { badRounding with r := 5#3 }, .ld (sized 6#3), .st (sized 6#3), .arrive { d := 0#7, l := 4#3 }, .sectionIssue 319 4,
    .stealRequest 159 167, .tokenGrant 1 0, .linksComeUp 15 127] : List Instr).all Instr.wf = true := by decide +kernel

/-! ### A small device -/

/-- A device whose core 0 runs a crew of one lane thread with 64 registers, all 0, at virtual address 0, and executes an
instruction of it. -/
def small : State :=
  let s := State.reset.withFetchWord 32 0
  { s with slots := [], issue := { core := 0, sfe := false, sect := 0, slot := 0, mask := 1#32, raw := ⟨0#32, none⟩ } }
/-- `small` with its lane changed, and with words in its registers from 0. -/
def smallTh (f : Thread → Thread) : State := small.onThread 0 0#32 fun v => v.onTh f
def smallRegs (l : List W32) : State :=
  smallTh fun t => { t with regs := (l ++ List.replicate (64 - l.length) 0#32).map fun x => { val := x, full := true, valid := true } }

def readyB (s : State) (r : LaneRow) : Bool := !s.run.isEmpty && s.run.all fun v => (r.opn.verdict v).andThen (r.chk v) == .ok
def goesB (s : State) (k : LaneForm) : Bool := !s.run.isEmpty && s.run.all fun v => k.verdict v == .ok
def goesOn (r : Result) : Bool := match r with
  | .next _ => true
  | _ => false
theorem passes_of (s : State) (f : View → Verdict) (h : (!s.run.isEmpty && s.run.all fun v => f v == .ok) = true) : s.passes f := by
  simp only [Bool.and_eq_true, Bool.not_eq_true', List.all_eq_true, beq_iff_eq] at h
  exact ⟨by rintro e; simp [e] at h, h.2⟩
theorem readyAll (s : State) (l : List LaneRow) (h : l.all (readyB s) = true) : ∀ r ∈ l, s.ready r.opn r.chk :=
  fun r hr => passes_of s _ (List.all_eq_true.mp h r hr)
theorem goesAll (s : State) (l : List (Instr × LaneForm)) (h : l.all (fun r => goesB s r.2) = true) : ∀ r ∈ l, r.2.goes s :=
  fun r hr => passes_of s _ (List.all_eq_true.mp h r hr)

def o3 : R3 := { f := false, g := false, d := 2#7, a := 0#7, b := 4#7 }
def o2 : R2 := { f := false, d := 2#7, a := 0#7 }
def i2 : I2 := { f := false, d := 2#7, a := 0#7, i := 5#11 }
def trapsB (s : State) (f : View → Trap) (r : LaneRow) : Bool :=
  !s.run.isEmpty && s.run.all fun v => r.opn.verdict v == .ok && r.chk v == .trap (f v) &&
    s.run.all fun w => (f v).stage == (f w).stage && (f v).cause == (f w).cause
theorem trapsAll (s : State) (f : View → Trap) (l : List LaneRow) (h : l.all (trapsB s f) = true) :
    ∀ r ∈ l, (∀ v ∈ s.run, r.opn.verdict v = .ok) ∧ s.allTrap r.chk f := by
  intro r hr
  have := List.all_eq_true.mp h r hr
  simp only [trapsB, Bool.and_eq_true, Bool.not_eq_true', List.all_eq_true, beq_iff_eq] at this
  exact ⟨fun v hv => (this.2 v hv).1.1, by rintro e; simp [e] at this, fun v hv => (this.2 v hv).1.2, fun v hv w hw => (this.2 v hv).2 w hw⟩

/-! ### Encoding, reset and a step -/

/-- The hypotheses of `DecodeInvertsEncode`, for a word alone and behind an X word. -/
theorem test_round_trip_premises : (Instr.add o3).wf = true ∧ (encode (.add o3)).isSome = true ∧
    (Instr.ldX 3#26 { f := true, s := 6#3, d := 4#7, a := 9#7, i := 1#8 }).wf = true ∧
    (encode (.ldX 3#26 { f := true, s := 6#3, d := 4#7, a := 9#7, i := 1#8 })).isSome = true := by decide +kernel

/-- A crew of `ResetAndLaunchValues`. -/
theorem test_launch_premises : 0 < probeTask.tcb.crews.toNat ∧ probeTask.tcb.crews.toNat * probeTask.tcb.nthr.toNat ≤ 2 ^ 31 := by
  decide +kernel

/-- The premises of `StepRunsTheDecodedInstruction` for the word of an ADD. -/
theorem test_step_premises :
    let s := State.reset.withFetchWord 32 0x00008004
    let x : Issue := { core := 0, sfe := false, sect := 0, slot := 0, mask := 1#32, raw := ⟨0#32, none⟩ }
    let u : State := { s.turned with slots := [], issue := x }
    Clocked s ∧ s.slots = [x] ∧ u.run.length = 1 ∧ (∀ y ∈ u.run, u.fetchVerdict x.core y.th = .ok) ∧
    (∀ y ∈ u.run, u.fetch x.core y.th = .ok ⟨0x00008004#32, none⟩) ∧
    decodeWord 0x00008004#32 = .ok (.add { f := false, g := false, d := 2#7, a := 0#7, b := 4#7 }) := by
  refine ⟨⟨by decide +kernel, by decide +kernel⟩, by decide +kernel, by decide +kernel, by decide +kernel, by decide +kernel, by decide +kernel⟩

/-- A lane that fails the fetch, and a word that is no instruction, for `StepTrapsOrTakesInputs`. -/
theorem test_step_fetch_fails :
    let s := (State.reset.withFetchWord 32 0).onThread 0 0#32 fun v => v.onTh fun t => { t with pc := 2#64 }
    let x : Issue := { core := 0, sfe := false, sect := 0, slot := 0, mask := 1#32, raw := ⟨0#32, none⟩ }
    let u : State := { s.turned with slots := [], issue := x }
    s.slots = [x] ∧ u.run ≠ [] ∧ ∀ y ∈ u.run, u.fetchVerdict x.core y.th ≠ .ok := by decide +kernel
theorem test_step_reserved_word :
    let s := State.reset.withFetchWord 32 0xF0000000
    let x : Issue := { core := 0, sfe := false, sect := 0, slot := 0, mask := 1#32, raw := ⟨0#32, none⟩ }
    let u : State := { s.turned with slots := [], issue := x }
    (∀ y ∈ u.run, u.fetchVerdict x.core y.th = .ok ∧ u.fetch x.core y.th = .ok ⟨0xF0000000#32, none⟩) ∧
    (match decodeWord 0xF0000000#32 with | .error .reserved => true | _ => false) = true := by decide +kernel
/-- An input that has come, a device without an input whose clocks stand, and one with an input. -/
theorem test_step_input : Clocked { State.reset with sched := [(0, .coldReset)] } ∧ State.reset.slots = [] ∧
    isInput .coldReset = true ∧ 0 ≤ State.reset.control := by
  refine ⟨⟨rfl, rfl⟩, rfl, by decide +kernel, by decide⟩
theorem test_step_stopped : State.reset.freeze.aon.frozen = true ∧ State.reset.freeze.aon.power = true ∧ State.reset.freeze.sched = [] ∧
    ({ State.reset with aon := { State.reset.aon with power := false } } : State).sched = [] ∧
    ({ State.reset.freeze with sched := [(0, .voltageDroop 0)] } : State).clocksStand = true := by decide +kernel

/-! ### Registers and operands -/

/-- Fields at the ends of the ranges of `RegisterWritesLand`: 0 and 63 of the allotment, 112 and 126 of the uniform registers. -/
theorem test_fields_in_range : ∀ v ∈ small.run, v.th.win = 0 ∧ 63 < v.th.regs.length ∧ v.k.length = 15 ∧
    ((126#7 : Fld).toNat - 112 < v.k.length) ∧ (62#7 : Fld).toNat % 2 = 0 ∧ v.th.win + 62 + 1 < v.th.regs.length := by decide +kernel
/-- A lane that passes the checks of its operands, and one that parks on an empty source. -/
theorem test_operands_pass : small.run.all (fun v => (opn32 o3).verdict v == .ok) = true := by decide +kernel
theorem test_operands_wait :
    (smallTh fun t => { t with regs := t.regs.set 4 { val := 0#32, full := false, valid := true } }).run.map (opn32 o3).verdict =
      [.wait (.reg (.phys 4))] := by decide +kernel

/-- Each failure of `OperandsPassWhen`, in its order: a field behind the allotment, a privileged form, one of the front end, an empty source
with its bit set, an empty source without it, a destination with a result on its way, an unwritten source, and a mark. -/
theorem test_operands_fail :
    let at' (o : Opnds) (f : Thread → Thread) : List Verdict := (smallTh f).run.map o.verdict
    let hole (n : Nat) (t : Thread) : Thread := { t with regs := t.regs.set n { val := 0#32, full := false, valid := true } }
    let late (t : Thread) : Thread := { hole 2 t with pending := [{ id := 0, kind := .load, dst := [.phys 2], vals := none, flags := 0#32, mark := .clean, tables := [] }] }
    at' (opn32 { o3 with a := 64#7 }) id = [.trap (trapOpen stageField 1 5)] ∧ at' { priv := true } id = [.trap (trapAt stageMode 6 3 0#64)] ∧
    at' { sfeOnly := true } id = [.trap (trapOpen stageKind 1 7)] ∧
    at' (opn32 { o3 with f := true, g := true }) (fun t => hole 0 (hole 4 t)) = [.trap (trapAt stageEmpty 2 0 0#64)] ∧
    at' (opn32 { o3 with f := true }) (hole 4) = [.wait (.reg (.phys 4))] ∧ at' (opn32 o3) late = [.wait (.reg (.phys 2))] ∧
    at' (opn32 o3) (hole 2) = [.ok] ∧
    at' (opn32 o3) (fun t => { t with ctl := { t.ctl with dbgctl := 1#32 }, regs := t.regs.set 4 { val := 0#32, full := true, valid := false } }) =
      [.trap (trapAt stageUninit 3 0 0#64)] ∧
    at' (opn32 o3) (fun t => { t with regs := t.regs.set 4 { val := 0#32, full := true, valid := true, mark := .storage } }) =
      [.trap (trapAt stageMark 9 4 4#64)] := by decide +kernel

/-- `LanesAloneChange`, and every frame: a run with no QM command in flight. -/
theorem test_quiet : small.run ≠ [] ∧ small.quiet := by
  refine ⟨by decide +kernel, ?_⟩
  unfold State.quiet; decide +kernel

/-! ### The tables of one lane -/

theorem test_integer_ready : ∀ r ∈ aluRows o3 ++ mulRows o3 ++ divRows o3 ++ cmpRows o3 ++ bitRows3 o3 ++ bitRows2 o2 ++ miscRows3 o3 ++
    miscRows2 o2 ++ [unptRow o2] ++ immRows i2 ++ immXRows 1#26 i2 ++ shift32Rows { f := false, d := 2#7, a := 0#7, n := 31#5 } ++
    shift64Rows { f := false, d := 2#7, a := 0#7, n := 63#6 } ++ liRows { d := 2#7, i := 5#11 } 1#26 ++
    [leaRow { f := false, g := false, r := 2#3, d := 2#7, a := 0#7, b := 4#7 }], small.ready r.opn r.chk :=
  readyAll _ _ (by decide +kernel)
/-- Each of them answers a next state, the second premise of `IntegerFrame` and `RegistersAloneLeaveMemory`. -/
theorem test_integer_goes : (aluRows o3 ++ divRows o3 ++ immRows i2).all (fun r => goesOn (exec r.instr small)) = true := by decide +kernel

theorem test_transfers_ready : ∀ r ∈ branchRows { f := false, a := 112#7, o := 0x0FFC#15 } ++
    branchXRows 0#26 { f := false, a := 112#7, o := 8#15 } ++ jumpRows 0#26 8#15 8#26 ++ regJumpRows { f := false, a := 0#7 } o2,
    small.ready r.opn r.chk := readyAll _ _ (by decide +kernel)

/-- The last word of the lower half of the canonical addresses, and no multiple of 4, for `BadTargetTraps`. -/
theorem test_bad_targets : canonical 0x0001000000000000#64 = false ∧ canonical 0x0000FFFFFFFFFFFE#64 = true ∧
    (0x0000FFFFFFFFFFFE#64 : W64).toNat % 4 ≠ 0 := by decide
/-- A lane in the last word of the lower half, with %ra and its registers behind it: every transfer of the tables that it takes
traps. -/
theorem test_bad_target_premises :
    let s := smallTh fun t => { t with pc := 0x0000FFFFFFFFFFFC#64, ra := 0x0001000000000000#64, regs := t.regs.set 1 (Reg.of 0x00010000#32) }
    let f : View → Trap := fun _ => { stage := stageCanon, cause := 6, sub := 0, addr := some 0x0001000000000000#64 }
    ∀ r ∈ (branchRows { f := false, a := 0#7, o := 1#15 }).take 1 ++ (branchXRows 0#26 { f := false, a := 0#7, o := 1#15 }).take 1 ++
      jumpRows 0#26 1#15 1#26 ++ regJumpRows { f := false, a := 0#7 } o2,
      (∀ v ∈ s.run, r.opn.verdict v = .ok) ∧ s.allTrap r.chk f := by
  intro s f r hr
  exact trapsAll s f _ (by decide +kernel) r hr

/-- LOOP with a count of 0, with one of 3 at depth 0, and at depth 3, where it traps. -/
theorem test_loop_ready :
    let o : LoopOp := { f := false, a := 0#7, n := 0#8 }
    let chk (s : State) (v : View) : Verdict := if v.rd32 o.a = 0#32 then targetVerdict (v.th.pc + 8#64)
      else (targetVerdict (v.th.pc + 4#64)).andThen (s.loopVerdict 0 v.th o.n)
    small.ready { srcs := [.r 0#7 false] } (chk small) ∧ (smallRegs [3#32]).ready { srcs := [.r 0#7 false] } (chk (smallRegs [3#32])) := by
  exact ⟨passes_of _ _ (by decide +kernel), passes_of _ _ (by decide +kernel)⟩
/-- A thread with n levels active, each with the body of one word at 0 and the counters c. -/
def looping (n : Nat) (c : W32) : Thread → Thread := fun t =>
  let l : LoopLevel := { lc := c, lb := LoopLevel.body 0#64 0#8, copy := [] }
  { t with l0 := if 0 < n then l else t.l0, l1 := if 1 < n then l else t.l1, l2 := if 2 < n then l else t.l2 }
theorem test_loop_depths : (smallTh (looping 3 2#32)).run.map (fun v => v.th.loopDepth) = [3] ∧
    (smallTh (looping 2 2#32)).run.map (fun v => v.th.loopDepth) = [2] ∧
    (smallTh (looping 3 2#32)).run.map (fun v => (smallTh (looping 3 2#32)).loopVerdict 0 v.th 0#8) = [.trap (trapAt 21 1 8 0#64)] := by
  decide +kernel
/-- BRK inside a body, in one at the end of the lower half of the canonical addresses, and at depth 0. -/
theorem test_brk_premises :
    let far : State := smallTh fun t => { t with l0 := { lc := 2#32, lb := LoopLevel.body 0x0000FFFFFFFFFFFC#64 0#8, copy := [] } }
    let behind (v : View) : W64 := (v.th.level (v.th.loopDepth - 1)).stop + 4#64
    (smallTh (looping 1 2#32)).run ≠ [] ∧
    (∀ v ∈ (smallTh (looping 1 2#32)).run, 0 < v.th.loopDepth ∧ targetVerdict (behind v) = .ok) ∧
    far.run ≠ [] ∧ (∀ v ∈ far.run, 0 < v.th.loopDepth ∧ canonical (behind v) = false) ∧
    small.run ≠ [] ∧ ∀ v ∈ small.run, v.th.loopDepth = 0 := by decide +kernel
/-- A body that ends at an instruction: with counters of 2 and 1, alone, and with one around it that ends there too, whose counter expires
or not; and an instruction that does not end there. -/
theorem test_loop_end_premises :
    (∀ v ∈ (smallTh (looping 1 2#32)).run, v.th.loopDepth = 1 ∧ v.th.pc + 4#64 - 4#64 = (v.th.level 0).stop ∧ 1 < (v.th.level 0).lc.toNat) ∧
    (∀ v ∈ (smallTh (looping 2 1#32)).run, v.th.loopDepth = 2 ∧ v.th.pc + 4#64 - 4#64 = (v.th.level 1).stop ∧
      (v.th.level 1).lc.toNat ≤ 1 ∧ (v.th.level 0).stop = (v.th.level 1).stop ∧ (v.th.level 0).lc.toNat ≤ 1) ∧
    (∀ v ∈ (smallTh (looping 2 1#32)).run, 1 < (({ v.th with l0 := { v.th.l0 with lc := 2#32 } } : Thread).level 0).lc.toNat) ∧
    ∀ v ∈ (smallTh (looping 1 1#32)).run, (v.th.level 0).lc.toNat ≤ 1 ∧ v.th.pc + 8#64 - 4#64 ≠ (v.th.level 0).stop := by decide +kernel

theorem test_float_ready : ∀ r ∈ floatRows { f := false, g := false, r := 5#3, d := 2#7, a := 0#7, b := 4#7 } ++ fcmpRows o3 o2 ++
    packedRows o3 ++ sfuRows o2 ++ actRows { f := false, d := 2#7, a := 0#7, t := 15#4 } small ++
    rngRows { d := 2#7 } { f := false, g := false, a := 0#7, b := 4#7 } o2 o3, small.ready r.opn r.chk := readyAll _ _ (by decide +kernel)
theorem test_conversions_go : ∀ r ∈ cvtRows, (cvtForm r.2 { f := false, r := 0#3, d := 2#7, a := 0#7 }).goes small := by
  intro r hr
  exact passes_of _ _ (List.all_eq_true.mp (show cvtRows.all (fun r => goesB small (cvtForm r.2 { f := false, r := 0#3, d := 2#7, a := 0#7 })) = true
    by decide +kernel) r hr)
theorem test_cross_lane_go : ∀ r ∈ crossRows o3 o2 small, r.2.goes small := goesAll _ _ (by decide +kernel)

/-- `small` with the translation of its page in the core's TLB, `pte` its leaf, words in its registers, and an affine record of 256
indices with a stride of 4. -/
def mappedAs (pte : Nat) (l : List W32) : State :=
  let s := (smallRegs l).onCore 0 fun c =>
    { c with tlb := [{ root := BitVec.ofNat 64 (probeTable 4), page := 0, pte := BitVec.ofNat 64 pte, lvl := 1 }] }
  s.onAff 0 fun _ => { bits := BitVec.ofNat 128 (2 ^ 32 * 4), cnt := 0#32 }
def mapped (l : List W32) : State := mappedAs probeLeaf l
/-- The same with the leaf of a page of future words. -/
def futures : State := (mappedAs (probeLeaf + 0x200) []).wr (.mem (probeTable 1)) 8 (probeLeaf + 0x200)
def m2 (s : BitVec 3) : M2 := { f := false, s, d := 4#7, a := 0#7, i := 0#8 }
def l2 : L2 := { f := false, d := 4#7, a := 0#7, i := 0#8 }

theorem test_memory_goes : (∀ r ∈ (memRows (m2 2#3) l2 0#26 (mapped [])).take 4, r.2.goes (mapped [])) ∧
    (∀ r ∈ (memRows (m2 6#3) l2 0#26 (mapped [])).take 4, r.2.goes (mapped [])) ∧
    (∀ r ∈ (memRows (m2 0#3) l2 0#26 futures).drop 4, r.2.goes futures) :=
  ⟨goesAll _ _ (by decide +kernel), goesAll _ _ (by decide +kernel), goesAll _ _ (by decide +kernel)⟩
theorem test_atomics_go : ∀ r ∈ atomRows, (atomForm r.2 { f := false, g := false, d := 4#7, a := 0#7, b := 6#7 } (mapped [])).goes (mapped []) := by
  intro r hr
  exact passes_of _ _ (List.all_eq_true.mp (show atomRows.all
    (fun r => goesB (mapped []) (atomForm r.2 { f := false, g := false, d := 4#7, a := 0#7, b := 6#7 } (mapped []))) = true
    by decide +kernel) r hr)
/-- ATOM.ADD of a scratchpad word. -/
theorem test_pad_atomic_premises :
    let s := mapped [0#32, 0xFFFFFFFE#32]
    let p : R3 := { f := false, g := false, d := 4#7, a := 0#7, b := 6#7 }
    (((s.crew?.map (·.replay)).getD false && AtomOp.add.ordered) = false) ∧ (atomForm .add p s).goes s ∧
    ∀ v ∈ s.run, (s.check s.issue.core v.th { va := v.baseVal 0#7, n := 4, rd := true, wr := true }).toOption.map (·.loc) = some (.pad 0 0) := by
  exact ⟨by decide +kernel, passes_of _ _ (by decide +kernel), by decide +kernel⟩
theorem test_affine_goes : ∀ r ∈ affRows { f := false, d := 4#7, a := 0#7, j := 0#3 } { f := false, a := 0#7, j := 7#3 } (mapped [2#32]),
    r.2.goes (mapped [2#32]) := goesAll _ _ (by decide +kernel)
theorem test_addresses_and_fences_ready : ∀ r ∈ addrRows { d := 2#7, j := 0#3 } o2 o3 small ++ fenceRows small, small.ready r.opn r.chk :=
  readyAll _ _ (by decide +kernel)

/-- A load and a store of scratchpad word 0 by one lane (`ScratchpadAccess`). -/
theorem test_scratchpad_premises :
    let s := mapped [0#32, 0xFFFFFFFE#32]
    s.terms = [] ∧ (∀ v ∈ s.run, s.view? s.issue.core v.th.ident.tid = some v ∧ v.th.qm = []) ∧ (s.run.length = 1 ∧ s.lowerLeft s.issue.core = false) ∧
    (loadForm false 2#3 4#7 0#7 (offM 0#8) 4#64 s).goes s ∧ (storeForm false 2#3 4#7 0#7 (offM 0#8) 4#64 s).goes s ∧
    (∀ v ∈ s.run, (s.check s.issue.core v.th (accessOf v 0#7 (offM 0#8) 4 false)).toOption.map (·.loc) = some (.pad 0 0) ∧
      (s.check s.issue.core v.th (accessOf v 0#7 (offM 0#8) 4 true)).toOption.map (·.loc) = some (.pad 0 0)) := by
  refine ⟨by decide +kernel, by decide +kernel, by decide +kernel, passes_of _ _ (by decide +kernel), passes_of _ _ (by decide +kernel),
    by decide +kernel⟩

/-- `LoadAndStoreFrame`: a store that stores at physical address 65536, a load, and another byte. -/
theorem test_store_frame_premises :
    let s := mapped []
    s.terms = [] ∧ (∀ c ∈ s.crew?, (c.all.map fun t => t.ident.tid).Nodup) ∧
    goesOn (exec (.ld (m2 2#3)) s) = true ∧ goesOn (exec (.st (m2 2#3)) s) = true ∧
    (∀ v ∈ s.run, (s.check s.issue.core v.th (accessOf v 0#7 (offM 0#8) 4 true)).toOption.map (fun h => (h.loc, h.state)) =
      some (.mem 65536, false)) ∧
    (Loc.mem 65540).isImage = false ∧ ∀ i < 4, Loc.mem 65540 ≠ (Loc.mem 65536).plus i := by decide +kernel
/-- The other accesses that it names go too: affine ones, future words and atomics, in runs without a QM command in flight. -/
def j4 : RJ := { f := false, d := 4#7, a := 0#7, j := 0#3 }
def at46 : R3 := { f := false, g := false, d := 4#7, a := 0#7, b := 6#7 }
theorem test_other_frames_premises :
    ([.lda32 j4, .lda64 j4, .sta32 j4, .sta64 j4, .affset { f := false, a := 0#7, j := 7#3 }] : List Instr).all (fun i => goesOn (exec i (mapped [2#32]))) = true ∧
    ([.ldf l2, .stf l2, .ldfX 0#26 l2, .stfX 0#26 l2] : List Instr).all (fun i => goesOn (exec i futures)) = true ∧
    (atomRows.all fun r => goesOn (exec (r.1 at46) (mapped []))) = true := by decide +kernel
theorem test_store_frame_quiet : (mapped []).quiet ∧ (mapped [2#32]).quiet ∧ futures.quiet := by
  unfold State.quiet; decide +kernel

/-! ### Threads, barriers, tasks and stage queues -/

/-- `small` as its scalar front end executes. -/
def smallSfe : State :=
  let s := small.onCore 0 fun c => c.onCrew fun k => { k with sfe := { k.sfe with status := .runnable } }
  { s with issue := { s.issue with sfe := true } }
theorem test_threads_go :
    (∀ r ∈ (threadRows { f := false, g := false, a := 0#7, b := 4#7 } { f := false, a := 0#7 } { d := 2#7 } small), r.1 ≠ .dqput { f := false, a := 0#7 } → r.2.goes small) ∧
    (dqputForm { f := false, a := 0#7 } smallSfe).goes smallSfe := by
  refine ⟨?_, passes_of _ _ (by decide +kernel)⟩
  intro r hr hn
  refine passes_of _ _ (List.all_eq_true.mp (show ((threadRows { f := false, g := false, a := 0#7, b := 4#7 } { f := false, a := 0#7 } { d := 2#7 } small).filter
    fun r => decide (r.1 ≠ .dqput { f := false, a := 0#7 })).all (fun r => goesB small r.2) = true by decide +kernel) r ?_)
  exact List.mem_filter.mpr ⟨hr, by simpa using hn⟩
theorem test_barriers_go : ∀ r ∈ barRows { d := 2#7, l := 4#3 } { f := false, a := 0#7 } small, r.2.goes small := goesAll _ _ (by decide +kernel)
theorem test_iter_and_win_ready : small.ready { dsts := [⟨2#7, 2⟩] } noCheck ∧ small.crew?.isSome = true ∧ small.crewTask.isSome = true ∧
    small.ready { srcs := [.r 0#7 false], laneOnly := true }
      (fun v => if (v.rd32 0#7).toNat % 16 ≠ 0 ∨ (v.rd32 0#7).toNat + 16 > v.th.allot then rangeTrap else .ok) :=
  ⟨passes_of _ _ (by decide +kernel), by decide +kernel, by decide +kernel, passes_of _ _ (by decide +kernel)⟩
/-- A task of 4 units of work in tiles of 4, and a control block at virtual address 256. -/
def withWork : State := { mapped [256#32] with tasks := [{ probeTask with tcb := { probeTask.tcb with itern := 4#64, itert := 4#32 } }] }
theorem test_tasks_go : (∀ r ∈ (taskRows { f := false, d := 2#7, a := 0#7 } (mapped [256#32])).take 3, r.2.goes (mapped [256#32])) ∧
    (fixupForm { f := false, d := 2#7, a := 1#7 } withWork).goes withWork :=
  ⟨goesAll _ _ (by decide +kernel), passes_of _ _ (by decide +kernel)⟩
/-- A stage queue of 2 entries in a PIN-SLICE page at virtual address 0: its descriptor at 4096, its ring at 8192. -/
def withQueue : State :=
  let s := (mapped [4096#32]).wr (.mem (probeTable 1)) 8 0xBF
  let s := s.wr (.mem (pinSliceBase 0 0 + 4096)) 8 8192
  s.wr (.mem (pinSliceBase 0 0 + 4104)) 4 1
theorem test_stage_queues_go : ∀ r ∈ stageRows { f := false, g := false, a := 0#7, b := 16#7 } { f := false, d := 16#7, a := 0#7 }
    { f := false, d := 16#7, a := 0#7, b := 2#7 } withQueue, r.2.goes withQueue := goesAll _ _ (by decide +kernel)

/-! ### System instructions and traps -/

/-- `small` in system mode. -/
def smallSys : State := smallTh fun t => { t with mode := 1#32 }
theorem test_system_goes :
    (∀ r ∈ (sysRows { d := 2#7, n := 0x415#11 } { f := false, a := 0#7, n := 0x400#11 } { f := false, g := false, a := 0#7, b := 4#7 } 15#4
      smallSys).take 5, r.2.goes smallSys) ∧
    smallSys.ready { srcs := [.r 0#7 false], dsts := [⟨2#7, 2⟩], priv := true } (feVerdict 0#7) :=
  ⟨goesAll _ _ (by decide +kernel), passes_of _ _ (by decide +kernel)⟩
/-- HALT runs in a crew that is under pre-emption. -/
def smallUnder : State := smallSys.onCore 0 fun c => c.onCrew fun k => { k with preempt := some (1, 0#64) }
/-- What touches registers alone goes (`RegistersAloneLeaveMemory`). -/
theorem test_registers_alone_go :
    ([.mfsr { d := 2#7, n := 0x021#11 }, .mtsr { f := false, a := 0#7, n := 0x021#11 }, .elect { d := 2#7 }, .yield, .probe 15#4, .trap 5#7, .bkpt,
      .loop { f := false, a := 0#7, n := 0#8 }, .cvtF32F64 { f := false, r := 0#3, d := 2#7, a := 0#7 }] : List Instr).all
      (fun i => goesOn (exec i small)) = true ∧ goesOn (exec .eret smallSys) = true ∧ goesOn (exec (.savefe o2) smallSys) = true := by decide +kernel
theorem test_halt_goes : (haltForm smallUnder).goes smallUnder := passes_of _ _ (by decide +kernel)
/-- A written 1 in bit 1 of %dbgctl, and a number that no thread writes. -/
theorem test_special_register_premises : (2#64 : W64).getLsbD 1 = true ∧ (0x404 : Nat) ∉ [0x407, 0x410, 0x402, 0x401, 0x02F, 0x053] := by decide

/-- A thread with a user handler takes cause 4 there, and one without it in the system handler (`TrapEntrySavesAndRedirects`). -/
theorem test_trap_entry_cases : bitsOf (4#32) 7 0 ∈ [1, 2, 3, 4, 7, 8, 10, 12] ∧
    (∀ v ∈ (smallTh fun t => { t with uhandler := 64#64 }).run, v.th.uhandler ≠ 0#64 ∧ v.th.modeS = false ∧ v.th.modeUH = false) ∧
    ∀ v ∈ small.run, v.th.uhandler = 0#64 := by decide +kernel
theorem test_lane_enters_premises :
    (∀ c ∈ small.crew?, ∀ v ∈ small.run, (c.all.filter fun t => t.ident.tid == v.th.ident.tid) = [v.th] ∧
      ∀ x ∈ c.all, x.inGang v.th.sfe v.th.place.sect v.th.place.slot = true → x.live = true → x.settled = true) ∧
    small.crew?.isSome = true ∧ small.run.length = 1 ∧ small.deferred = [] ∧ (small.coreAt 0).coll = [] ∧
    (trapAt stageCanon 6 0 5#64).report = false ∧ (trapAt stageCanon 6 0 5#64).mark = .clean ∧
    (trapAt stageCanon 6 0 5#64).addr = some 5#64 := by decide +kernel
/-- A load at an address that is not canonical: the lane fails a check of its card. -/
def badAddr : State := mapped [0#32, 0x00010000#32]
theorem test_whole_run_premises :
    badAddr.allTrap (loadForm false 2#3 4#7 0#7 0#64 4#64 badAddr).verdict (fun _ => trapAt stageCanon 6 0 0x0001000000000000#64) ∧
    ((trapAt stageCanon 6 0 0x0001000000000000#64).stage < 13 ∨ 20 ≤ (trapAt stageCanon 6 0 0x0001000000000000#64).stage) ∧
    (trapAt stageCanon 6 0 0x0001000000000000#64).stage ≤ 1000 := by
  refine ⟨⟨by decide +kernel, by decide +kernel, by decide +kernel⟩, by decide, by decide⟩
/-- Two lanes, of which the second fails a check with `x`. -/
def pair : State :=
  let s := small.onCore 0 fun c => c.onCrew fun k =>
    { k with threads := k.threads ++ k.threads.map fun t => { t with ident := { t.ident with tid := 1#32 }, place := { t.place with lane := 1 } } }
  { s with issue := { s.issue with mask := 3#32 } }
def failing (x : Trap) : LaneForm :=
  { opn := {}, verdict := fun v => if v.th.ident.tid = 0#32 then .ok else .trap x, act := fun _ s => s }
theorem test_some_lanes_premises :
    let ok (v : View) : Bool := v.th.ident.tid == 0#32
    (pair.run.map fun v => v.th.ident.tid) = [0#32, 1#32] ∧ pair.run.map ok = [true, false] ∧
    (∀ v ∈ pair.run, (failing (trapAt stageFault 5 4 0#64)).verdict v = if ok v then .ok else .trap (trapAt stageFault 5 4 0#64)) ∧
    (∀ v ∈ pair.run, (failing (trapAt stageCanon 6 0 0#64)).verdict v = if ok v then .ok else .trap (trapAt stageCanon 6 0 0#64)) ∧
    20 ≤ stageCanon ∧ stageCanon ≤ 1000 ∧ stageCanon ≠ stageFault := by decide +kernel
theorem test_trap_return_premises : (∀ v ∈ smallSys.run, v.th.loopDepth = 0 ∧ v.th.modeS = true) ∧
    small.run ≠ [] ∧ ∀ v ∈ small.run, v.th.loopDepth = 0 ∧ v.th.modeS = false ∧ v.th.modeUH = false := by decide +kernel
/-- A thread in a system handler that returns to the address a, with n levels active, each with the body of one word at 0 and the counters
c. The word behind that body is at 4. -/
def returning (n : Nat) (c : W32) (a : W64) (t : Thread) : Thread := { looping n c t with mode := 1#32, kt := { t.kt with pc := a } }
theorem test_return_at_loop_end : ∀ v ∈ small.run, let t n c a := returning n c a v.th
    (t 1 2#32 4#64).loopDepth = 1 ∧ (t 1 2#32 4#64).modeS = true ∧ (t 1 2#32 4#64).kt.pc = ((t 1 2#32 4#64).level 0).stop + 4#64 ∧
    1 < ((t 1 2#32 4#64).level 0).lc.toNat ∧
    (t 1 1#32 4#64).kt.pc = ((t 1 1#32 4#64).level 0).stop + 4#64 ∧ ((t 1 1#32 4#64).level 0).lc.toNat ≤ 1 ∧
    (t 2 1#32 4#64).loopDepth = 2 ∧ ((t 2 1#32 4#64).level 0).stop = ((t 2 1#32 4#64).level 1).stop ∧ ((t 2 1#32 4#64).level 0).lc.toNat ≤ 1 ∧
    1 < (({ t 2 1#32 4#64 with l0 := (t 2 2#32 4#64).l0 } : Thread).level 0).lc.toNat ∧
    (t 1 2#32 8#64).kt.pc ≠ ((t 1 2#32 8#64).level 0).stop + 4#64 := by decide +kernel
theorem test_privilege_premises : small.run ≠ [] ∧ (∀ v ∈ small.run, v.th.modeS = false) ∧
    (∀ v ∈ small.run, v.th.fieldOk 0#7 1 1 false = true ∧ v.th.fieldOk 2#7 2 2 true = true ∧ v.th.fieldOk 2#7 1 1 true = true ∧
      v.th.fieldOk 4#7 2 2 false = true) ∧ (0x416#11 : BitVec 11).toNat ∈ [0x400, 0x416] := by decide +kernel
/-- Addresses that are not canonical, and one that is no multiple of 4 (`AddressTraps`). -/
noncomputable def accesses (s : State) : List (Opnds × (View → Access)) :=
  (loadAccesses (m2 2#3) l2 0#26 ++ storeAccesses (m2 2#3) l2 0#26 ++
    atomAccesses (atomRows.filter fun r => !((s.crew?.map (·.replay)).getD false && r.2.ordered)) at46).map (·.2)
theorem test_address_trap_premises : badAddr.run ≠ [] ∧ (mapped [1#32]).run ≠ [] ∧
    (∀ r ∈ accesses badAddr, ∀ v ∈ badAddr.run, r.1.verdict v = .ok ∧ canonical (r.2 v).va = false) ∧
    ∀ r ∈ accesses (mapped [1#32]), ∀ v ∈ (mapped [1#32]).run, r.1.verdict v = .ok ∧ canonical (r.2 v).va = true ∧
      (r.2 v).va.toNat % (r.2 v).n ≠ 0 := by decide +kernel
/-- A record with 8 indices, a stride of -4 and the base b; its indices 9, 1 and 0. -/
def affine (b : Nat) (x : W32) : State := (mapped [x]).onAff 0 fun _ => { bits := BitVec.ofNat 128 (2 ^ 96 * 8 + 2 ^ 32 * 0xFFFC + b), cnt := 0#32 }
theorem test_affine_trap_premises :
    let inside (s : State) (v : View) : Prop := ∀ q < 4, affIndex (v.rd32 0#7) q < (s.affRec 0).extent q
    let off (s : State) (v : View) : Int := (s.affRec 0).offset (v.rd32 0#7)
    (∀ v ∈ (affine 0 9#32).run, ¬ inside (affine 0 9#32) v) ∧
    (∀ v ∈ (affine 0 1#32).run, inside (affine 0 1#32) v ∧ off (affine 0 1#32) v < 0) ∧
    (∀ v ∈ (affine 2 0#32).run, inside (affine 2 0#32) v ∧ 0 ≤ off (affine 2 0#32) v ∧ off (affine 2 0#32) v + 8 ≤
      (((affine 2 0#32).crew?.map (·.pad)).getD 0) * 128 ∧ off (affine 2 0#32) v % 4 ≠ 0 ∧ off (affine 2 0#32) v % 8 ≠ 0) ∧
    (affine 0 9#32).run ≠ [] ∧ (affine 0 1#32).run ≠ [] ∧ (affine 2 0#32).run ≠ [] := by decide +kernel

/-! ### Commands of the engines -/

/-- Write words at an address of the mapped page. -/
def placed (s : State) (va : Nat) (l : List W32) : State :=
  l.zipIdx.foldl (fun s x => s.wr (.mem (probePage + va + 4 * x.2)) 4 x.1.toNat) s
/-- A tensor record of 16 × 16 elements at virtual address 0, with rows of 16 bytes, or of 32 for BF16. -/
def tensor (bf : Bool) : List W32 :=
  if bf then [0#32, 0#32, 1#32, 0#32, 16#32, 16#32, 1#32, 1#32, 32#32, 0#32, 0#32, 0#32, 0#32, 0#32, 32#32, 0#32]
  else [0#32, 0#32, 0#32, 0#32, 16#32, 16#32, 1#32, 1#32, 16#32, 0#32, 0#32, 0#32, 0#32, 0#32, 16#32, 0#32]
/-- A network of one input and one output, and a tree of depth 1 with 16 inputs. -/
def netWords : List W32 :=
  [0x00010001#32] ++ List.replicate 15 0#32 ++ [0#32, 0#32, 0#32, 0#32, 1#32, 16#32] ++ List.replicate 42 0#32
def treeWords : List W32 := [0#32, 0#32, 32#32, 0x00100001#32]
/-- A device with a bundle from register 16 on; records at virtual addresses 256 (tensor), 512 (tensor of BF16), 1024 (network) and
1536 (tree); a DOMAIN page of device 5 at 65536; cell windows of 256 KiB; a trace of one row at pad offset 0; path slot 0 and handle 0 bound. -/
def armed (l : List W32) : State :=
  let s := mapped (List.replicate 16 0#32 ++ l)
  let s := placed (placed (placed (placed s 256 (tensor false)) 512 (tensor true)) 1024 netWords) 1536 treeWords
  let s := s.wr (.mem (probeTable 1 + 8)) 8 (5 * 2 ^ 57 + 0x40F)
  let s := s.onTen 0 fun t => { t with celk := 1 }
  s.onCore 0 fun c => { (c.onSect 0 fun y => { y with paths := y.paths.set 0 (some { desc := treeWords, t := 0, gen := 0#32 }) }) with
    handles := c.handles.set 0 (some { net := netWords, bind := 1 }), pad := [{ idx := 0, val := 1#32, valid := true }] }
def o16 : R2 := { f := false, d := 2#7, a := 16#7 }

def issuesB (s : State) (o : R2) (k : EngForm) : Bool :=
  (!s.run.isEmpty && s.run.all fun v => s.engVerdict s.issue.core o k.card k.who k.load v == .ok) &&
  ((s.issuers o k).all fun x => x.2.2.isOk) &&
  (s.engRoom s.issue.core ((s.issuers o k).filterMap fun x => x.2.2.toOption)).isNone
theorem issues_of (s : State) (o : R2) (k : EngForm) (h : issuesB s o k = true) : ∃ good, s.issues o k good := by
  simp only [issuesB, Bool.and_eq_true, List.all_eq_true, Option.isNone_iff_eq_none] at h
  refine ⟨(s.issuers o k).filterMap fun x => x.2.2.toOption.map fun d => (x.1, x.2.1, d), passes_of _ _ (by simpa using h.1.1), ?_, ?_⟩
  · have : ∀ l : List (View × List W32 × Except (Nat × Fld) Draft), (∀ x ∈ l, x.2.2.isOk = true) →
        l = (l.filterMap fun x => x.2.2.toOption.map fun d => (x.1, x.2.1, d)).map fun x => (x.1, x.2.1, .ok x.2.2) := by
      intro l
      induction l with
      | nil => intro _; rfl
      | cons x r ih =>
        intro hl
        obtain ⟨v, w, d⟩ := x
        have hd := hl (v, w, d) (by simp)
        cases d with
        | error e => simp [Except.isOk, Except.toBool] at hd
        | ok d =>
          have hr := ih fun y hy => hl y (by simp [hy])
          simpa [Except.toOption] using hr
    exact this _ h.1.2
  · rw [← h.2]
    congr 1
    simp [List.map_filterMap, Option.map_map, Function.comp_def]
/-- Every command of a list issues with the bundle `l`. -/
def Issues (l : List W32) (f : State → List (Instr × R2 × EngForm)) : Prop :=
  ∀ r ∈ f (armed l), ∃ good, (armed l).issues r.2.1 r.2.2 good
theorem issuesAll (l : List W32) (f : State → List (Instr × R2 × EngForm))
    (h : (f (armed l)).all (fun r => issuesB (armed l) r.2.1 r.2.2) = true) : Issues l f :=
  fun r hr => issues_of _ _ _ (List.all_eq_true.mp h r hr)
def sel (l : List Nat) (r : List (Instr × R2 × EngForm)) : List (Instr × R2 × EngForm) := l.filterMap fun i => r[i]?

theorem test_box_commands_issue : Issues [256#32, 0#32, 0#32, 0#32, 128#32, 0x00010010#32, 0#32] (fun s => sel [0, 1, 2, 3] (copyRows o16 s)) :=
  issuesAll _ _ (by decide +kernel)
theorem test_linear_copy_issues : Issues [0#32, 0xFFFFFFFE#32, 0#32, 0#32, 16#32] (fun s => sel [4] (copyRows o16 s)) :=
  issuesAll _ _ (by decide +kernel)
theorem test_fill_and_multicast_issue : Issues [0#32, 0xFFFFFFFE#32, 0#32, 16#32, 0#32, 1#32, 0#32] (fun s => sel [5, 6] (copyRows o16 s)) :=
  issuesAll _ _ (by decide +kernel)
theorem test_full_tiles_issue : Issues [0#32, 128#32, 0x00004000#32, 0#32, 0#32] (fun s => sel (List.range 16) (matrixRows o16 s)) :=
  issuesAll _ _ (by decide +kernel)
/-- A in registers 32 on, C in 48 to 63, scales in 20 to 23. -/
theorem test_quarter_operations_issue : Issues [0#32, 0#32, BitVec.ofNat 32 (20 * 2 ^ 14 + 48 * 2 ^ 7 + 32), 0#32] (fun s => sel ((List.range 20).map (16 + ·)) (matrixRows o16 s)) :=
  issuesAll _ _ (by decide +kernel)
theorem test_drains_issue : Issues [0#32, 0#32, 0#32] (fun s => sel [36, 37, 38, 39, 40, 41] (matrixRows o16 s)) :=
  issuesAll _ _ (by decide +kernel)
theorem test_stack_products_issue : Issues [256#32, 0#32, 0#32, 128#32, 0#32, 256#32] (fun s => sel [0, 2, 3] (tableRows o16 { d := 2#7 } s)) :=
  issuesAll _ _ (by decide +kernel)
theorem test_stack_product_bf16_issues : Issues [512#32, 0#32, 0#32, 128#32, 0#32] (fun s => sel [1] (tableRows o16 { d := 2#7 } s)) :=
  issuesAll _ _ (by decide +kernel)
theorem test_tables_issue : Issues [0#32, 0#32, 15#32] (fun s => sel [4, 5, 6, 7, 8, 9] (tableRows o16 { d := 2#7 } s)) :=
  issuesAll _ _ (by decide +kernel)
theorem test_fabric_transfers_issue : Issues [0#32, 0#32, 0x10000#32, 0#32, 16#32] (fun s => sel [10, 11] (tableRows o16 { d := 2#7 } s)) :=
  issuesAll _ _ (by decide +kernel)
theorem test_fabric_collectives_issue : Issues [0#32, 0#32, 16#32, 1#32, 0#32] (fun s => sel [12, 13, 14] (tableRows o16 { d := 2#7 } s)) :=
  issuesAll _ _ (by decide +kernel)
theorem test_fabric_signal_issues : Issues [0x10008#32, 0#32, 1#32, 0#32] (fun s => sel [15] (tableRows o16 { d := 2#7 } s)) :=
  issuesAll _ _ (by decide +kernel)
theorem test_bind_issues : Issues [1024#32, 0#32, 63#32] (fun s => sel [0, 1] (physicsRows o16 { d := 2#7 } s)) :=
  issuesAll _ _ (by decide +kernel)
theorem test_unbind_and_descent_issue : Issues [0#32, 0#32, 1#32, 0#32, 0#32] (fun s => sel [2, 4, 6] (physicsRows o16 { d := 2#7 } s)) :=
  issuesAll _ _ (by decide +kernel)
theorem test_tree_bind_issues : Issues [1536#32, 0#32, 0#32, 0#32] (fun s => sel [3] (physicsRows o16 { d := 2#7 } s)) :=
  issuesAll _ _ (by decide +kernel)
theorem test_tree_backward_issues : Issues [0#32, 0#32, 0#32, 0#32, 4096#32] (fun s => sel [5] (physicsRows o16 { d := 2#7 } s)) :=
  issuesAll _ _ (by decide +kernel)
theorem test_sorts_issue : Issues [0#32, 128#32, 4#32, 256#32, 0x800#32] (fun s => sel [7, 8] (physicsRows o16 { d := 2#7 } s)) :=
  issuesAll _ _ (by decide +kernel)
theorem test_morton_issues : Issues [0#32, 128#32, 256#32, 2#32, 512#32] (fun s => sel [9] (physicsRows o16 { d := 2#7 } s)) :=
  issuesAll _ _ (by decide +kernel)
/-- The queue of GR.SAP is that of `withQueue`. -/
theorem test_sweep_issues :
    let s := (armed [4096#32, 0#32, 0#32, 128#32, 2#32, 0#32, 0#32])
    let s := ((s.wr (.mem (probeTable 1)) 8 0xBF).wr (.mem (pinSliceBase 0 0 + 4096)) 8 8192).wr (.mem (pinSliceBase 0 0 + 4104)) 4 1
    ∃ good, s.issues o16 (grSapForm o16 s) good := issues_of _ _ _ (by decide +kernel)
theorem test_box_query_issues : Issues [0#32, 0#32, 0#32, 1#32, 64#32, 4#32, 1#32] (fun s => sel [11] (physicsRows o16 { d := 2#7 } s)) :=
  issuesAll _ _ (by decide +kernel)
theorem test_ray_query_issues : Issues [0#32, 0#32, 0#32, 1#32, 64#32, 1#32] (fun s => sel [12] (physicsRows o16 { d := 2#7 } s)) :=
  issuesAll _ _ (by decide +kernel)
theorem test_press_issues : Issues [0#32, 32#32, 64#32, 16#32, 128#32, 1#32] (fun s => sel [13, 14, 15, 16, 17, 18, 19] (physicsRows o16 { d := 2#7 } s)) :=
  issuesAll _ _ (by decide +kernel)
/-- NE.EVAL and NE.BWD with a bundle of zeros, and NE.EVALG with its input at virtual address 0. -/
theorem test_lane_evaluations : (armed []).evaluates .eval o16 ∧ (armed []).evaluates .evalg o16 ∧ (armed []).evaluates .bwd o16 := by
  refine ⟨⟨passes_of _ _ (by decide +kernel), by decide +kernel⟩, ⟨passes_of _ _ (by decide +kernel), by decide +kernel⟩,
    ⟨passes_of _ _ (by decide +kernel), by decide +kernel⟩⟩
/-- A queue that stands in a section of the core (`IssuedCommandStandsInItsQueue`). -/
theorem test_issued_command_premises : engSect (.matrix 3) < (small.coreAt 0).sects.length ∧ small.terms = [] ∧
    ∀ k ∈ (small.coreAt 0).tiles, k.due (small.coreAt 0).cycle = false := by decide +kernel

/-! ### Events of the cores -/

/-- A lane with a result on its way to register 4. -/
def pend4 : Pending := { id := 0, kind := .load, dst := [.phys 4], vals := some [7#32], flags := 0#32, mark := .clean, tables := [] }
def landing : State := smallTh fun t => { t with pending := [pend4], serial := 1, regs := t.regs.set 4 { val := 0#32, full := false, valid := false } }
theorem test_landing_premises : (∀ v ∈ landing.view? 0 0#32, v.th.pending[0]? = some pend4 ∧ 4 < v.th.regs.length) ∧
    (landing.view? 0 0#32).isSome = true ∧ pend4.ready = true ∧ pend4.dst = [.phys 4] ∧ pend4.vals = some [7#32] := by decide +kernel

/-- A result that a line group brings waits for its reply, and the report of a refused store for its fence. -/
theorem test_report_premises :
    (landing.coreAt 0).awaitsReply 0#32 0 = false ∧
    ((landing.onThread 0 0#32 fun v => v.onTh fun t => { t with far := [8#64] }).view? 0 0#32).map (·.th.far) = some [8#64] := by
  decide +kernel

/-- A line group of one request of the lane of `landing` for the line at physical address 65536. -/
def group1 (op : ReqOp) (p : Phase) : Group :=
  { id := 1, line := 512, leased := true, opened := 0, reqs := [{ tid := 0#32, pend := some 0, op, n := 4, loc := .mem 65536, va := 0#64, lane := 0, len := 4#64 }],
    phase := p, tries := 0 }
/-- The collector of core 0 holds it; slice 12, its home, has settled and its lantern stands at cell 0. -/
def grouped (op : ReqOp) (p : Phase) : State :=
  let s := landing.onCore 0 fun c => { c with cycle := 16, coll := [group1 op p] }
  (s.onDie 0 fun d => { d with waiting := [], settling := [] }).putLantern { chan := 12, station := 0, used := 1, since := 0 }
theorem test_line_group_premises :
    ((grouped (.load 2) .gathering).coreAt 0).groupAt 0 = some (group1 (.load 2) .gathering) ∧
    (grouped (.load 2) .gathering).due 0 0 (group1 (.load 2) .gathering) = true ∧
    (grouped (.load 2) .gathering).clear 0 (group1 (.load 2) .gathering) = true ∧
    (grouped (.load 2) .gathering).way 0 (group1 (.load 2) .gathering) = .crossbar 12 ∧
    (grouped (.load 2) (.sent 0)).arrived 0 (group1 (.load 2) (.sent 0)) = true ∧
    (grouped (.load 2) (.sent 0)).turnedAway (group1 (.load 2) (.sent 0)) = false ∧
    (grouped (.load 2) (.sent 0)).along 0 [group1 (.load 2) (.sent 0)] 64 = some [group1 (.load 2) (.sent 0)] ∧
    (grouped (.load 2) (.sent 0)).passesEarlier 0 [group1 (.load 2) (.sent 0)] = false ∧
    (group1 (.load 2) (.sent 0)).block = (group1 (.load 2) (.sent 0)).reqs ∧ (group1 (.load 2) (.sent 0)).block ≠ [] := by decide +kernel
/-- A packet that its cell sent to the same channel before stands ready. -/
theorem test_earlier_packet_premises :
    let g := { group1 (.load 2) (.sent 1) with id := 2, reqs := (group1 (.load 2) (.sent 1)).reqs.map fun r => { r with inst := 1, seq := 1 } }
    g.near 0 = false ∧ ((grouped (.load 2) (.sent 0)).onCore 0 fun c => { c with coll := [group1 (.load 2) (.sent 0), g] }).passesEarlier 0 [g] = true := by
  decide +kernel
theorem test_retry_premises :
    ((grouped (.load 2) (.refused 7)).coreAt 0).groupAt 0 = some (group1 (.load 2) (.refused 7)) ∧
    (grouped (.load 2) (.refused 7)).inFlight 0 (group1 (.load 2) (.refused 7)) = false ∧
    (grouped (.load 2) (.waiting 8 0)).due 0 0 (group1 (.load 2) (.waiting 8 0)) = true ∧
    (grouped (.load 2) (.waiting 8 0)).clear 0 (group1 (.load 2) (.waiting 8 0)) = true ∧
    (grouped (.load 2) (.waiting 8 0)).way 0 (group1 (.load 2) (.waiting 8 0)) = .crossbar 12 ∧
    (grouped (.load 2) (.replied none true true)).mayLand 0 (group1 (.load 2) (.replied none true true)) true = true ∧
    (grouped (.load 2) (.replied none true false)).mayLand 0 (group1 (.load 2) (.replied none true false)) false = true := by decide +kernel
/-- The group in a core of the other die, and one whose place is in another device. -/
def groupFar : Group := { group1 (.load 2) .gathering with reqs := (group1 (.load 2) .gathering).reqs.map fun r => { r with loc := .remote 9 0#64 } }
theorem test_far_group_premises :
    let s := small.onCore 160 fun c => { c with cycle := 16, coll := [group1 (.load 2) .gathering] }
    let t := small.onCore 0 fun c => { c with cycle := 16, coll := [groupFar] }
    s.due 160 0 (group1 (.load 2) .gathering) = true ∧ s.clear 160 (group1 (.load 2) .gathering) = true ∧
    s.way 160 (group1 (.load 2) .gathering) = .bridge ∧
    t.due 0 0 groupFar = true ∧ t.clear 0 groupFar = true ∧ t.way 0 groupFar = .fabric 9 := by decide +kernel
/-- A load of one instruction in two lines, whose lower lane's line must come along; and a load before a store of one line. -/
def twoLines : List Group :=
  [group1 (.load 2) (.sent 0), { group1 (.load 2) (.sent 1) with id := 2, line := 513, reqs := (group1 (.load 2) (.sent 1)).reqs.map fun r =>
    { r with loc := .mem 65664, seq := 1 } }]
def loadStore : Group :=
  { group1 (.load 2) (.sent 0) with reqs := (group1 (.load 2) (.sent 0)).reqs ++ (group1 (.store 5#128) (.sent 0)).reqs.map fun r => { r with inst := 1, seq := 1 } }
theorem test_along_premises :
    let s := (grouped (.load 2) (.sent 0)).onCore 0 fun c => { c with coll := twoLines }
    s.along 0 (twoLines.drop 1) 64 = some (twoLines.drop 1 ++ twoLines.take 1) ∧
    (twoLines.drop 1).map (s.arrived 0) = [true] ∧ (twoLines.drop 1).map s.turnedAway = [false] ∧
    s.passesEarlier 0 (twoLines.drop 1) = false ∧ s.passesEarlier 0 (twoLines.drop 1 ++ twoLines.take 1) = false ∧
    loadStore.block = loadStore.reqs.take 1 ∧ loadStore.left ≠ loadStore.block := by decide +kernel
/-- The core's L1 has room, or is full. -/
theorem test_l1_premises : (Core.fresh 0).l1.length ≤ 2048 ∧
    ({ Core.fresh 0 with l1 := List.replicate 2048 { line := 0, wts := 0, rts := 0, data := [] } } : Core).l1.length = 2048 := by decide +kernel
/-- The same at a slice whose sets are all pinned and whose bypass buffer is full. -/
def pinned : State :=
  let s := (grouped (.load 2) (.sent 0)).onTen 0 fun t => { t with celk := 8 }
  s.onSlice 12 fun x => { x with pins := List.range 32, bypass := (List.range 64).map fun i => { line := i, rts := 0, freeAt := 0 } }
theorem test_pinned : pinned.fullyPinned (.mem 65536) = true := by
  have h : ∀ q < 4, (List.range 8).all (fun i => ((pinned.sliceAt 12).pins).contains (4 * i + q)) = true := by decide +kernel
  have hk : (pinned.tenOfStack (stackOfCell 12)).map (fun t => (pinned.tenAt t).celk) = some 8 := by decide +kernel
  have h1 : (Loc.mem 65536).slice = some 12 := by decide +kernel
  have hq := h _ (Nat.mod_lt (Config.freeWord [12, 65536 / 128]).toNat (by decide : 4 > 0))
  simp only [State.fullyPinned, h1]
  cases hs : pinned.tenOfStack (stackOfCell 12) with
  | none => simp [hs] at hk
  | some t =>
    simp only [hs, Option.map_some, Option.some.injEq] at hk
    simp only [hk, hq]
    decide
theorem test_bypass_full_premises :
    let g := { group1 (.load 2) (.sent 0) with cached := true }
    pinned.arrived 0 g = true ∧ g.near 0 = false ∧ pinned.passesEarlier 0 [g] = false ∧ pinned.turnedAway g = true := by
  refine ⟨by decide +kernel, by decide +kernel, by decide +kernel, ?_⟩
  have h : pinned.viaBypass { group1 (.load 2) (.sent 0) with cached := true } = true := by
    simp [State.viaBypass, group1, test_pinned]
  simp only [State.turnedAway, State.hasRoom, List.filter_cons, List.filter_nil, h, if_true]
  decide +kernel
/-- A load and a store that have reached the home of their line (`HomePerformsAccesses`). -/
theorem test_home_premises :
    (grouped (.load 2) (.sent 0)).terms = [] ∧ Memory.wf (grouped (.load 2) (.sent 0)).mem ∧ ((grouped (.load 2) (.sent 0)).view? 0 0#32).isSome = true ∧
    (grouped (.store 5#128) (.sent 0)).arrived 0 (group1 (.store 5#128) (.sent 0)) = true ∧
    (grouped (.store 5#128) (.sent 0)).turnedAway (group1 (.store 5#128) (.sent 0)) = false ∧
    (grouped (.store 5#128) (.sent 0)).along 0 [group1 (.store 5#128) (.sent 0)] 64 = some [group1 (.store 5#128) (.sent 0)] ∧
    (∀ op ∈ [.load 2, .store 5#128, .rmw .cas 5#64 0#64], (grouped op (.sent 0)).passesEarlier 0 [group1 op (.sent 0)] = false) ∧
    (grouped (.rmw .cas 5#64 0#64) (.sent 0)).arrived 0 (group1 (.rmw .cas 5#64 0#64) (.sent 0)) = true ∧
    (grouped (.rmw .cas 5#64 0#64) (.sent 0)).turnedAway (group1 (.rmw .cas 5#64 0#64) (.sent 0)) = false ∧
    (grouped (.rmw .cas 5#64 0#64) (.sent 0)).along 0 [group1 (.rmw .cas 5#64 0#64) (.sent 0)] 64 = some [group1 (.rmw .cas 5#64 0#64) (.sent 0)] ∧
    AtomOp.cas.size = 4 ∧ (grouped (.rmw .cas 5#64 0#64) (.sent 0)).rd (.mem 65536) 4 = 0 ∧ atomicNew .cas 0 5 0 = some 5 ∧ atomicNew .cas 0 5 1 = none ∧
    (group1 (.store 5#128) (.sent 0)).reqs.map (·.op) = [.store 5#128] ∧ (grouped (.load 2) (.sent 0)).spoiled (.mem 65536) 4 = false := by decide +kernel
/-- A store that writes no entry of the tables. -/
theorem test_plain_store : (grouped (.store 5#128) (.sent 0)).plainStore 65536 4 5 := by unfold State.plainStore; decide +kernel

/-- A bypass entry whose cycles are over, and a lane that waits for a page walk. -/
theorem test_bypass_entry_premises : ((pinned.sliceAt 12).bypass[0]?).map (·.freeAt) = some 0 ∧ 0 ≤ pinned.control ∧ pinned.begun 0 = false := by decide +kernel
def walking : State := smallTh fun t => { t with status := .parked (.walk (BitVec.ofNat 64 (probeTable 4)) 0) }
theorem test_walk_premises : walking.walks = [(0, BitVec.ofNat 64 (probeTable 4), 0)] ∧
    (∀ c ∈ (walking.coreAt 0).crew, ∀ x ∈ c.threads, x.status = .parked (.walk (BitVec.ofNat 64 (probeTable 4)) 0)) ∧
    dieOfCore 0 = 0 ∧ (walking.coreAt 0).outstanding 0#32 = false ∧
    (∀ a ∈ walking.walkLoads 0 (BitVec.ofNat 64 (probeTable 4)) 0, sliceOfPhys a / 80 = 0 ∧ walking.underRepair (.mem a) = false) ∧
    walking.bridge = [] ∧ (∀ c ∈ walking.cores, c.ten = 0) ∧ (walking.sliceAt (tlbSlice 0 0)).tlb = [] := by decide +kernel
/-- A walk whose tables stand on the other die. -/
theorem test_far_walk_premises :
    let s := smallTh fun t => { t with status := .parked (.walk 0x4000000000#64 0) }
    s.walks = [(0, 0x4000000000#64, 0)] ∧ (∀ a ∈ s.walkLoads 0 0x4000000000#64 0, s.underRepair (.mem a) = false) ∧
    ∃ a ∈ s.walkLoads 0 0x4000000000#64 0, sliceOfPhys a / 80 ≠ 0 := by decide +kernel

/-- A message at a router that is awake, and one that would overtake it; routers that slept and that may wake; transfers of the bridge, one
of each kind, a packet that has failed 14 times and one that has failed 15; a lantern at a station without a packet, one whose holder has
sent two, and one at the bridge port of die 0, where a transfer for its channel is the first. -/
def wires : State :=
  let s := (grouped (.load 2) (.sent 0)).onCore 160 fun c => { c with coll := [group1 (.load 2) (.sent 0)] }
  let s := s.onCore 161 fun c => { c with coll := [group1 (.load 2) (.replied none true true)] }
  { s with
    now := 600 * unitsPerControl,
    msgs := [{ src := 0, path := [1, 2], ready := 0 }, { src := 0, path := [1, 2], ready := 0 }, { src := 2, path := [3], ready := 0 }],
    routers := [{ id := 5, awake := true, wakeAt := 0, last := 0 }, { id := 6, awake := false, wakeAt := 3, last := 0 },
      { id := 1, awake := true, wakeAt := 0, last := 0 }, { id := 3, awake := true, wakeAt := 0, last := 0 }],
    lantern := [{ chan := 12, station := 80, used := 0, since := 0 }, { chan := 13, station := 80, used := 2, since := 599 }],
    bridge := [{ load := .packet 160 1, die := 0, attempts := 14 }, { load := .packet 161 1, die := 1, attempts := 15 },
      { load := .walk 0 0#64 0, die := 1, attempts := 15 }, { load := .mesh 0 99 (some (161, 1)), die := 1, attempts := 15 },
      { load := .mesh 1 99 none, die := 1, attempts := 15 }, { load := .cmd { core := 0, eng := .press } 1 0#64, die := 1, attempts := 15 },
      { load := .cp 0 0 0#32, die := 1, attempts := 15 }, { load := .access 0 0#64, die := 1, attempts := 15 }] }
theorem test_wires_premises : wires.control = 600 ∧ wires.routerOpen 1 = true ∧ wires.routerOpen 3 = true ∧
    (wires.msgs.zipIdx.map fun m => wires.overtakes m.2 m.1) = [false, true, false] ∧
    (wires.routerAt 5).awake = true ∧ (wires.routerAt 5).last + 512 ≤ wires.control ∧
    (wires.routerAt 6).awake = false ∧ wires.settled 6 = true ∧ (wires.routerAt 6).wakeAt ≠ 0 ∧ (wires.routerAt 6).wakeAt ≤ wires.control ∧
    (wires.bridge.map fun b => b.attempts + 1) = [15, 16, 16, 16, 16, 16, 16, 16] ∧
    wires.bridge.map wires.crossChan = [some 12, none, none, none, none, none, none, none] ∧
    (wires.bridge.zipIdx.map fun b => wires.queuedBehind b.2 b.1) = [false, false, false, false, false, false, false, false] ∧
    (wires.dieAt 0).recvAt ≤ wires.control ∧ ((wires.coreAt 161).coll.find? fun x => x.id == 1) = some (group1 (.load 2) (.replied none true true)) ∧
    wires.holds 12 80 = true ∧ (wires.lanternAt 159).since < wires.control ∧ wires.demands 159 (wires.lanternAt 159).station = false ∧
    (wires.lanternAt 13).since < wires.control ∧ 2 ≤ (wires.lanternAt 13).used := by decide +kernel
/-- A group that is lost, whose load has a pending result. -/
theorem test_loss_premises :
    (group1 (.load 2) (.sent 0)).done = 0 ∧ (group1 (.load 2) (.sent 0)).reqs.map (fun r => (r.isLoad, r.pend)) = [(true, some 0)] ∧
    ((landing.view? 0 0#32).bind fun v => v.th.pending.find? fun p => p.id == 0) = some pend4 ∧
    pend4.id = 0 := by decide +kernel
/-- A unit that waits for a token, and one that is settled. -/
theorem test_token_premises :
    let s := State.reset.onDie 0 fun d => { d with tokens := 1, waiting := [7], settling := [8] }
    (s.dieAt 0).tokens ≠ 0 ∧ 7 ∈ (s.dieAt 0).waiting ∧ 8 ∉ (s.dieAt 0).waiting ∧ 8 ∈ (s.dieAt 0).settling := by decide +kernel
theorem test_throttle_premise : State.reset.overClaim 0 = false := by simp [State.overClaim, State.reset]

/-- A core with a crew and four sections; a starvation timer that has run out; a governor at its last step. -/
theorem test_issue_premises : ((small.rouse 0).coreAt 0).crew.isSome = true ∧ ((small.rouse 0).coreAt 0).sects.length = 4 ∧
    1023 ≤ ((small.onCore 0 fun c => c.onSect 3 fun k => { k with timer := 1023 }).coreAt 0 |>.sectAt 3).timer ∧
    (small.onTen 0 fun t => { t with govhold := true }).govHeld 0 = true ∧
    16384 ≤ ((small.onCore 0 fun c => { c with govWin := 16384, gov := 4 }).coreAt 0).govWin ∧
    ((small.onCore 0 fun c => { c with govWin := 16384, gov := 4 }).coreAt 0).gov ≤ 4 ∧
    (let s := small.onCore 0 fun c => { c with govNext := some 3 }
     (s.coreAt 0).govWin < 16384 ∧ s.govHeld 0 = false ∧ (s.coreAt 0).govNext = some 3) := by decide +kernel
/-- A spawn bin whose time is over. -/
def bin1 : Bin :=
  { entry := 64#64, threads := [{ arg := 5#32, tid := 0x80000000#32, envid := 0#32, episode := 0#32, step := 0#32, dqpos := 0#32 }], timer := 0 }
def binned : State := small.onCore 0 fun c => c.onCrew fun k => { k with bins := k.bins.set 7 (some bin1) }
theorem test_gang_premises : ∀ c ∈ (binned.coreAt 0).crew, (binned.task? c.ten c.task).isSome = true ∧
    ((c.bins.getD 7 none).map fun b => (b.threads.length, b.timer)) = some (1, 0) ∧ c.slotForBin.isSome = true ∧ c.gathering = false ∧
    c.preempt = none := by decide +kernel

/-- A task of four crews that cell 3 holds, and a device without a crew. -/
def four : Task :=
  { probeTask with tcb := { probeTask.tcb with crews := 4#32 }, started := [], allots := [{ lo := 0, hi := 4, stack := 0, cell := some 3 }] }
def idle (l : List Task) : State := { State.reset with tasks := l }
theorem test_dispatch_premises : ([6, 7].filter fun c => ((idle [four]).coreAt c).crew.isNone) = [6, 7] ∧
    (idle [four]).barista 6 none = none ∧ (idle [four]).barista 7 none = none ∧ ((idle [four]).choose 3).isSome = true := by decide +kernel
/-- A stage task of one crew, held at domain 0, whose descriptor allows one worker. -/
def stageTask : Task :=
  { probeTask with started := [], stage := some (.mem (2 ^ 41)), allots := [{ lo := 0, hi := 1, stack := 0, cell := none }] }
def staged : State := (idle [stageTask]).wr (.mem (2 ^ 41 + 36)) 4 0x00010001
theorem test_stage_dispatch_premises : (staged.coreAt 6).crew = none ∧ staged.barista 6 none = some stageTask ∧
    topPri (staged.topTasks 3) ≤ topPri (staged.stageTasks 6) ∧
    (let s : State := { staged with tasks := [stageTask, { four with id := 2, tcb := { four.tcb with ctl := 1#32 } }] }
     (s.barista 6 none).isSome = true ∧ topPri (s.stageTasks 6) < topPri (s.topTasks 3) ∧ (s.choose 3).isSome = true) := by decide +kernel
/-- A thief at cell 4 with the first victim of its ring; its request under way, with nothing shipped and with two crews of `four`. -/
theorem test_steal_premises : (idle [four]).wantsWork 4 = true ∧
    ((idle [four]).victims 4)[((idle [four]).cellAt 4).asked]? = some 5 ∧ (idle [four]).shipTask 5 = none ∧ ((idle [four]).shipTask 3).isSome = true ∧
    (((idle [four]).onCell 4 fun c => { c with asking := some 5 }).cellAt 4).asking = some 5 ∧
    (((idle [four]).onCell 4 fun c => { c with asking := some 5, found := true }).cellAt 4).found = true ∧
    (((idle [four]).onCell 4 fun c => { c with asking := some 3, shipped := some (1, [{ lo := 2, hi := 4, stack := 0, cell := some 3 }]) }).cellAt 4).shipped =
      some (1, [{ lo := 2, hi := 4, stack := 0, cell := some 3 }]) ∧
    ((idle [four]).task? (((idle [four]).tenOfStack (stackOfCell 4)).getD 0) 1) = some four ∧
    (idle [four]).idleCell 4 = true ∧ (idle [four]).idleCell 3 = false ∧
    (((idle [four]).onCell 4 fun c => { c with roundAt := 1 }).cellAt 4).roundAt ≠ 0 ∧
    (({ idle [four] with now := unitsPerControl } : State)).control = 1 := by decide +kernel
/-- A task of two devices whose crews can start together here; rank 0 is this device. -/
def twin (l : List Nat) : Task :=
  { probeTask with
    tcb := { probeTask.tcb with ctl := BitVec.ofNat 32 (4 * 2 ^ 11), dgrp := 0x00020000#32 }, started := [], announced := l,
    allots := [{ lo := 0, hi := 1, stack := 0, cell := some 0 }] }
theorem test_costart_premises : ((idle [twin []]).task? 0 1) = some (twin []) ∧ (twin []).tcb.first = 0 ∧ (twin []).tcb.group = 2 ∧
    1 ∉ (twin []).announced ∧ (idle [twin []]).canCostart (twin []) = true ∧ (idle [twin [0, 1]]).canCostart (twin [0, 1]) = true ∧
    ∀ r, 0 ≤ r → r < 0 + 2 → r ∈ (twin [0, 1]).announced := by
  refine ⟨by decide +kernel, by decide +kernel, by decide +kernel, by decide +kernel, by decide +kernel, by decide +kernel, ?_⟩
  intro r _ h
  have : r = 0 ∨ r = 1 := by omega
  rcases this with rfl | rfl <;> decide

/-- Every member has a path: this device announces. -/
theorem test_own_announcement_premises :
    let s := (idle [twin []]).onPort 0 fun p => { p with up := true, peer := some 1 }
    s.dev = 0 ∧ s.canCostart (twin []) = true ∧ s.members (twin []) = [1] ∧ ∀ m ∈ s.members (twin []), s.cutOff m = false := by decide +kernel

/-! ### Events of the engines -/

/-- The context of the crew of `small`, and a command of it. -/
def ctx1 : CmdCtx :=
  { core := 0, sect := 0, tid := 0#32, task := 1, crew := 0, ten := 0, ptbase := BitVec.ofNat 64 (probeTable 4), locbase := 0#64,
    sys := false, pad := 8192, replay := false, pc := 0#64 }
def cmd1 (op : CmdOp) (words cap : List W32) : Cmd :=
  { id := 1, op, ctx := ctx1, words, cap, owners := [], seq := 0#32, lines := [], done := [], count := 0, held := false,
    refused := false, stop := false, past := false }
def queued (r : EngRef) (l : List Cmd) : State := small.onQueue r fun _ => l
/-- A command one of whose transfers is lost. -/
theorem test_lost_command_premises : ({ cmd1 .fill [] [] with lost := true } : Cmd).lost = true ∧ (cmd1 .fill [] []).op ≠ .tdBwd := by decide +kernel
/-- A fill of scratchpad that may run, and one of a page that is not mapped, which waits for it. -/
theorem test_completion_premises :
    let r : EngRef := { core := 0, eng := .copy }
    let c := cmd1 .fill [0#32, 0xFFFFFFFE#32, 16#32, 0#32] []
    let d := cmd1 .fill [0x20000#32, 0#32, 16#32, 0#32] []
    ((queued r [c]).queueOf r)[0]? = some c ∧ (queued r [c]).mayRun r 0 c = true ∧
    (queued r [d]).awaitsPage r 0 d = some 0x20000#64 ∧ d.asked 0x20000#64 = false ∧
    (queued r [{ d with held := true, wants := some 0x20000#64 }]).awaitsPage r 0 { d with held := true, wants := some 0x20000#64 } =
      some 0x20000#64 ∧ ({ d with held := true, wants := some 0x20000#64 } : Cmd).asked 0x20000#64 = true := by
  decide +kernel
/-- A command at the head of a queue, for STOP_HOLD, and an evaluation that stands first at the Carafe; two QMs of one weight tile, for
QM_FUSED_PASS. -/
theorem test_stop_premises :
    let r : EngRef := { core := 0, eng := .press }
    let c := cmd1 (.lu false) [0#32] []
    let y : Row := { ctx := ctx1, pend := 0, ord := 1, x := [0#32], gamma := [], seq := 0#32 }
    let s := (queued { core := 0, eng := .matrix 0 } [cmd1 (.tile netWords 0 1 false [y]) [] []]).bumpSeq { core := 0, eng := .carafe }
    let q := (queued r [c]).bumpSeq r
    q.queueOf r = [c] ∧ q.stopped r = false ∧ q.isHead r c.seq = true ∧ c.past = false ∧ c.begun = false ∧
    q.crossing c = false ∧ c.op.isTile = false ∧ s.queueOf { core := 0, eng := .carafe } = [] ∧ s.headRow { core := 0, eng := .carafe } = some y ∧
    s.stopped { core := 0, eng := .carafe } = false := by decide +kernel
theorem test_fused_premises :
    let r : EngRef := { core := 0, eng := .matrix 3 }
    let q := [cmd1 (.qm .bf16 0) [0#32, 0#32, 0x1820#32, 0#32] [0#32], { cmd1 (.qm .bf16 0) [0#32, 0#32, 0x1820#32, 0#32] [8#32] with id := 2 }]
    ((queued r q).queueOf r).take 2 = q ∧ fusable q = true ∧
    ∀ c ∈ q, (queued r q).readsFree c ((queued r q).engReads c) = true ∧ (queued r q).stopped r = false := by decide +kernel
/-- Sub-arrays that stood idle for the count of %mgidle. -/
theorem test_gate_premises :
    let s := { small with now := 3 * 1024 * unitsPerControl }
    0 < (s.coreAt 0).sects.length ∧ bitsOf (s.coreAt 0).mgidle 15 0 ≠ 0 ∧
    bitsOf (s.coreAt 0).mgidle 15 0 ≤ s.arith - ((s.coreAt 0).sectAt 0).lastUse.getD 3 0 := by decide +kernel
theorem test_exchange_premises :
    let r : EngRef := { core := 0, eng := .table }
    let c := cmd1 .tbSwap [15#32] []
    (queued r [c]).queueOf r = [c] ∧ c.op = .tbSwap ∧ (queued r [c]).mayRun r 0 c = true := by decide +kernel
/-- A tile of the Carafe that was told to launch, one that stands in a matrix queue, and a backward store that an issuer waits for. -/
def row1 : Row := { ctx := ctx1, pend := 0, ord := 1, x := [0#32], gamma := [], seq := 0#32 }
def tile1 : Tile :=
  { net := netWords, handle := 0, bind := 1, bwd := false, rows := [row1], opened := 0, nwin := 128, sect := 0, full := true, ctx := row1.ctx }
def tiled : State := small.onCore 0 fun c => { c with tiles := [tile1] }
theorem test_tile_launch_premises : (tiled.coreAt 0).tiles[0]? = some tile1 ∧ tile1.due (tiled.coreAt 0).cycle = true ∧
    ((tiled.coreAt 0).sectAt 0).mq.length < 8 ∧ tile1.sect < (tiled.coreAt 0).sects.length := by decide +kernel
theorem test_tile_delivery_premises :
    let c := cmd1 (.tile netWords 0 1 false [row1]) [] []
    let s := queued { core := 0, eng := .matrix 0 } [c]
    ((s.coreAt 0).sectAt 0).mq = [c] ∧ [row1].flatMap (s.rowMisses (Net.of netWords) false) = [] ∧
    (∀ x ∈ [row1], s.linesFree x.ord (s.rowReads (Net.of netWords) false x) = true) ∧
    s.stopped { core := 0, eng := .carafe } = false ∧ s.crossing c = false ∧ c.stage = 0 ∧ s.farRow 0 (Net.of netWords) [row1] = none ∧
    ((((s.wr (.mem (probeTable 1)) 8 (2 ^ 38 + 0x3F)).onTen 0 fun t => { t with doms := [0, 4] }).farRow 0 (Net.of netWords) [row1]).isSome = true) := by decide +kernel
/-- A copy from pad offset 64 to 0 of 32 bytes, and a product of one row and one column of 16 elements, by a crew that goes on. -/
theorem test_result_premises :
    let c := cmd1 .lin [0#32, 0xFFFFFFFE#32, 64#32, 0xFFFFFFFE#32, 32#32] []
    let d := cmd1 (.mm .i8) [0#32, 128#32, 0#32, 0#32] []
    (∀ k ∈ (small.coreAt 0).crew, k.preempt = none ∧ (k.threads.any fun t => t.status == .runnable) = true) ∧ (small.coreAt 0).crew.isSome = true ∧
    (small.tenAt 0).trace.on = false ∧ small.terms = [] ∧ small.errs = [] ∧ c.lost = false ∧ c.done = [] ∧
    pairAt c.words 0 = padAddr 0 ∧ pairAt c.words 2 = padAddr 64 ∧ (wordAt c.words 4).toNat = 32 ∧ 64 + 32 ≤ c.ctx.pad * 128 ∧ c.ctx.pad * 128 ≤ 2 ^ 32 ∧
    0 < (MmShape.of d.words).m ∧ 0 < (MmShape.of d.words).n ∧ (MmShape.of d.words).k = 16 ∧ 3 < (small.coreAt 0).sects.length := by decide +kernel
def backed : State := (smallTh fun t => { t with status := .parked (.backward 1) }).onCore 0 fun c => c.onCrew fun k =>
  { k with backs := [{ tid := 0#32, order := 0, ctx := row1.ctx, terms := some [], wants := none, refused := false }] }
theorem test_settle_premises : ∀ c ∈ (backed.coreAt 0).crew, c.backs ≠ [] ∧ c.backsFilled = true ∧ backed.settleHeld c = false ∧
    (c.all.any fun x => x.status == .parked (.backward 1)) = true := by decide +kernel

/-! ### Pre-emption, repair, service and links -/

/-- A saved crew, which a free core of its cell can take. -/
def saved1 : SavedCrew :=
  let x : SavedThread := { tid := 0#32, place := { sect := 0, slot := 0, lane := 0 }, bpend := 0#32, triggered := false, live := true }
  { task := 1, no := 0, ten := 0, core := 0, save := 0#64, gangs := [], threads := [x], sfe := { x with tid := sfeTid, live := false },
    repair := false, head := 0, backs := [], backCnt := 0, backSeen := 0 }
theorem test_preempt_premises : saveAreaOk 0x30000#64 = true ∧
    (let s := { idle [probeTask] with saved := [saved1] }
     s.saved[0]? = some saved1 ∧ s.task? 0 1 = some probeTask ∧ ((s.pick (cellOf 0)).bind (s.pickSaved (cellOf 0))) = some (0, saved1)) ∧
    (let s := { idle [probeTask] with saved := [{ saved1 with repair := true }] }.onTen 0 fun t => { t with reset := some 0 }
     (s.coreAt 0).crew = none ∧ (s.saved.find? fun k => k.repair && k.core == 0).isSome = true ∧ (s.tenAt 0).reset ≠ none) ∧
    ((smallUnder.coreAt 0).crew.map fun c => c.preempt) = some (some (1, 0#64)) ∧ ((small.coreAt 0).crew.map fun c => c.preempt) = some none := by
  decide +kernel
/-- Spares of both dies; a core without a crew and one with a crew. -/
theorem test_repair_premises : firstSpare State.reset.aon.spareCores 320 8 (dieOfCore 0) = some 320 ∧
    firstSpare State.reset.aon.spareCores 320 8 (dieOfCore 319) = some 328 ∧ (State.reset.coreAt 0).crew = none ∧
    (small.coreAt 0).crew ≠ none ∧ firstSpare State.reset.aon.spareSlices 160 2 (159 / 80) = some 162 ∧
    7 ∈ ({ State.reset with rows := [7] } : State).rows ∧
    (group1 (.load 2) (.sent 0)).reqs.map (·.loc) = [.mem 65536] := by decide +kernel
/-- A service ring at virtual address 256 of the tenancy's tables, with a request in its first slot. -/
def serving : State :=
  let s := (placed small 256 [0#32, 4#32]).onTen 0 fun t => { t with root := BitVec.ofNat 64 (probeTable 4), svcq := 256#64 }
  placed s 320 [1#32]
theorem test_service_premises : ((serving.serviceSlot 0).map fun x => fieldAt x.2.2 0 4) = some 1 ∧
    ((({ State.reset with now := 1800000 * unitsPerControl } : State).onTen 0 fun t =>
      { t with service := [{ reply := 0#64, payload := [], sentAt := 0 }] }).tenAt 0).service.map (·.sentAt + 1800000) = [1800000] := by
  decide +kernel

/-- A port whose link is up, with device 9 behind it; a flit in sequence, and one ahead. -/
def linked : State := State.reset.onPort 0 fun p => { p with up := true, peer := some 9 }
def flit1 (kind : Nat) (seq : BitVec 24) : Flit :=
  { seq, vc := 0, dst := 0, src := 9, kind, res := 0#64, payload := [], crcOk := true }
theorem test_link_premises : (linked.portAt 0).up = true ∧ (flit1 1 0#24).crcOk = true ∧ (flit1 1 0#24).seq = (linked.portAt 0).rx ∧
    (((flit1 4 5#24).seq - (linked.portAt 0).rx).getLsbD 23 = false) ∧ (flit1 4 5#24).seq ≠ (linked.portAt 0).rx ∧
    (linked.portAt 0).held = [] ∧ ({ flit1 1 0#24 with crcOk := false } : Flit).crcOk = false ∧
    ((flit1 1 0xFFFFFF#24).seq - (linked.portAt 0).rx).getLsbD 23 = true ∧
    (linked.portAt 0).peer = some 9 ∧ (∀ p ∈ linked.ports, p.id ≠ 0 → p.usable = true → p.peer ≠ some 9) ∧
    (linked.ports.map fun p => p.id).Nodup ∧ (flit1 2 0#24).kind = 2 ∧ (flit1 3 0#24).kind = 3 := by decide +kernel
/-- Fibres with a spare wavelength, without one, and with fewer than 32 active. -/
def worn : State := linked.onPort 0 fun p => { p with fibres := [{ active := 32, spares := 1, onSpare := false }, { active := 31, spares := 0, onSpare := false }] }
theorem test_fibre_premises : (worn.portAt 0).fibres[0]?.map (fun x => (decide (0 < x.active), decide (0 < x.spares))) = some (true, true) ∧
    (worn.portAt 0).fibres[1]?.map (fun x => (decide (0 < x.active), x.spares, decide (x.active < 32))) = some (true, 0, true) ∧
    (worn.portAt 0).spareFor 0 = true ∧ (State.reset.portAt 15).spareFor 15 = true ∧ (State.reset.portAt 0).fibres.length = 16 := by decide +kernel
/-- A port that has to send a flit again, and one that has had 8 negative acknowledgements. -/
theorem test_resend_premises :
    let p : Port := { linked.portAt 0 with resend := [3#24], replay := [flit1 1 2#24, flit1 5 3#24] }
    let s := linked.onPort 0 fun p => { p with naks := List.replicate 8 0 }
    p.resend = [3#24] ∧ (p.replay.find? fun y => y.seq == 3#24) = some (flit1 5 3#24) ∧ (flit1 5 3#24).kind ≠ 1 ∧
    s.waveFails 0 0 33 = true ∧ ((s.portAt 0).fibres[0]?.map fun x => (decide (0 < x.active), x.retired)) = some (true, []) := by decide +kernel
/-- An access of another device that matches no DOMAIN entry, and one to a DOMAIN page of this device at address 0. -/
def shared : State :=
  (small.wr (.mem (probeTable 1)) 8 (probeLeaf + 0x400)).onTen 0 fun t => { t with root := BitVec.ofNat 64 (probeTable 4) }
theorem test_remote_premises : small.remotePlace { rank := 9, ten := 0, addr := 0#64, op := .load 8 } = none ∧
    shared.remotePlace { rank := 9, ten := 0, addr := 0#64, op := .load 8 } = some (.mem 65536) ∧
    shared.remotePlace { rank := 9, ten := 0, addr := 8#64, op := .store 8 5#128 } = some (.mem 65544) ∧
    shared.remotePlace { rank := 9, ten := 0, addr := 8#64, op := .add 5#64 } = some (.mem 65544) ∧ shared.terms = [] ∧ Memory.wf shared.mem ∧
    shared.underRepair (.mem 65544) = false := by decide +kernel
theorem test_remote_plain_store : shared.plainStore 65544 8 5 := by unfold State.plainStore; decide +kernel
theorem test_remote_sum : (shared.rd (.mem 65544) 8 + 5) % 2 ^ 64 = 5 := by decide +kernel

/-! ### The host's commands -/

/-- A datagram of tenancy 0 that its source may send. -/
def dg1 (op : BitVec 8) (seq : W32) (payload : List Byte) : Datagram :=
  { accepted := true, own := true, mgmt := true, ver := 1#8, op, ten := 0#8, kind := 0#8, qid := 15#16, len := BitVec.ofNat 16 payload.length, seq,
    code := 0#32, payload }
/-- The bytes of a control block of one crew of one thread. -/
def block1 : List Byte :=
  bytesOf 40 0 ++ bytesOf 4 1 ++ bytesOf 4 1 ++ bytesOf 2 64 ++ bytesOf 2 0 ++ bytesOf 4 1 ++ List.replicate 200 0#8
theorem test_sequenced_premises :
    (∀ op ∈ [1#8, 2#8, 3#8, 4#8, 5#8, 8#8, 10#8], dgIntake (dg1 op 0#32 []) op.toNat = .handle) ∧
    ((State.reset.tenAt 0).zq 15).next = 0#32 ∧ ((State.reset.tenAt 0).zq 15).live.length < 256 ∧ (State.reset.tenAt 0).journalFull = false ∧
    mapBad (dg1 2#8 0#32 (bytesOf 16 0 ++ [1#8])) 16 = false ∧ mapBad (dg1 3#8 0#32 (bytesOf 8 0 ++ [3#8])) 8 = false ∧
    dgField (dg1 4#8 0#32 (bytesOf 16 8)) 0 8 % 8 = 0 ∧ State.reset.resetBad (dg1 8#8 0#32 (bytesOf 16 0)) = false ∧
    block1.length = 256 ∧ State.reset.tcbReason 0 (leNat block1) (State.reset.hostStage 0 (leNat block1)) = none ∧
    (dg1 1#8 0#32 block1).len.toNat = (dg1 1#8 0#32 block1).payload.length ∧
    ((7#32 : W32) - 0#32).getLsbD 31 = false ∧ 15 < (State.reset.tenAt 0).zqs.length := by decide +kernel
/-- A queue with a SIGNAL that may start, and one whose command is done; an entry that the mirror has still to take. -/
def zc (op : Nat) (code : Option W32) : ZCmd := { seq := 0#32, op, payload := bytesOf 16 (8 + 2 ^ 64), started := code.isSome, task := 0, code }
def signalling (code : Option W32) : State :=
  shared.onTen 0 fun t => { t with zqs := t.zqs.set 0 { next := 1#32, live := [zc 4 code] }, dirty := [0] }
theorem test_start_premises : (((signalling none).tenAt 0).zq 0).startable = some (zc 4 none) ∧
    (match (signalling none).cpPlace 0 ((zc 4 none).pair 0) true true false true with | .ok l => l == .mem 65544 | .error _ => false) = true ∧
    (((signalling (some 0#32)).tenAt 0).zq 0).live.find? (fun c => ((signalling (some 0#32)).doneCode 0 0 c).isSome) = some (zc 4 (some 0#32)) ∧
    (signalling none).zParks 0 (zc 4 none) = false ∧
    ((signalling none).tenAt 0).dirty = [0] ∧ (signalling none).terms = [] ∧ Memory.wf (signalling none).mem := by decide +kernel
theorem test_signal_plain_store :
    (signalling none).plainStore 65544 8 (((signalling none).rd (.mem 65544) 8 + ((zc 4 none).pair 8).toNat) % 2 ^ 64) := by
  unfold State.plainStore; decide +kernel
theorem test_unsequenced_premises :
    (∀ op ∈ [6#8, 7#8, 9#8, 0#8, 11#8], dgIntake (dg1 op 0#32 []) op.toNat = .handle) ∧
    (∀ k ∈ [0, 1, 2, 3, 4], dgField (dg1 6#8 0#32 (bytesOf 4 k ++ bytesOf 4 1)) 0 4 = k) ∧
    (small.task? 0 (dgField (dg1 6#8 0#32 (bytesOf 4 1 ++ bytesOf 4 1)) 4 4)).isSome = true ∧
    State.reset.aon.lms < 2 ^ 40 ∧ 2 ^ 40 ≤ ({ State.reset.aon with lms := 2 ^ 40 } : AlwaysOn).lms ∧
    dgField (dg1 7#8 0#32 (bytesOf 8 15 ++ bytesOf 4 32)) 0 4 < 16 ∧ dgField (dg1 7#8 0#32 (bytesOf 8 15 ++ bytesOf 4 32)) 8 4 = 32 ∧
    (dg1 7#8 0#32 (bytesOf 8 15 ++ bytesOf 4 32)).payload.length = 12 := by decide +kernel
/-- A connection that stands, a page that RDMA may reach, and a key that is not the tenancy's. -/
def rq1 (key : W32) (data : List Byte) : RdmaReq := { ten := 0, conn := 15, key, addr := 8#64, len := 8, data }
def reachable : State := small.onTen 0 fun t => { t with root := BitVec.ofNat 64 (probeTable 4) }
theorem test_rdma_premises : (reachable.tenAt 0).connUp 15 = true ∧ (rq1 0#32 []).key = (reachable.tenAt 0).rdmaKey ∧
    (reachable.rdmaBytes (rq1 0#32 []) true false 8).isSome = true ∧
    (reachable.rdmaBytes (rq1 0#32 (List.replicate 8 7#8)) false true 8).isSome = true ∧
    (rq1 1#32 []).key ≠ (reachable.tenAt 0).rdmaKey ∧ reachable.terms = [] ∧ reachable.errs = [] ∧ Memory.wf reachable.mem := by decide +kernel
theorem test_rdma_places :
    (∀ l ∈ reachable.rdmaBytes (rq1 0#32 []) true false 8, ∀ p ∈ l, reachable.underRepair p = false ∧ reachable.spoiled p 1 = false) ∧
    ∀ l ∈ reachable.rdmaBytes (rq1 0#32 (List.replicate 8 7#8)) false true 8, l = (List.range 8).map (fun i => Loc.mem (65544 + i)) ∧
      (reachable.rdmaPut (l.zip (List.replicate 8 7#8))).entryLevel 65544 = none := by decide +kernel
/-- A lane for a sample, and a run whose lanes all fail the fetch (`RecordedEvents`). -/
theorem test_recorded_premises : (small.view? 0 0#32).isSome = true ∧
    (smallTh fun t => { t with pc := 2#64 }).allTrap
      (fun v => (smallTh fun t => { t with pc := 2#64 }).fetchVerdict (smallTh fun t => { t with pc := 2#64 }).issue.core v.th)
      (fun _ => trapAt 1 4 0 2#64) := by
  refine ⟨by decide +kernel, by decide +kernel, by decide +kernel, by decide +kernel⟩
/-- A frozen device, for the clause of `ResetsKeepAndClear` on the memory of the stacks; canonical memory and a step that goes, for
`MemoryStaysCanonical`. -/
theorem test_frozen_premise : State.reset.freeze.aon.frozen = true := by decide +kernel
theorem test_canonical_premises : Memory.wf (State.reset.withFetchWord 32 0x00008004).mem ∧
    goesOn (step (State.reset.withFetchWord 32 0x00008004)) = true := by decide +kernel

/-! ### Results of single instructions

The expected values are the spec's worked cases, named by rule, or follow by hand from the rule named. -/

/-- The lane. -/
def lane (s : State) : Option Thread := (s.view? 0 0#32).map (·.th)
/-- The state after an instruction, with every pending result of the lane landed. -/
def settled (i : Instr) (s : State) : State :=
  let run (i : Instr) (s : State) := match exec i s with
    | .next t => t
    | _ => s
  run (.resultLands ⟨0, 0#32⟩ 0) (run i s)
/-- Registers `ns` of the lane and its flags, after an instruction. -/
def regsOf (s : State) (ns : List Nat) : List W32 := (lane s).elim [] fun t => ns.map fun n => (t.regs.getD n (Reg.of 0#32)).val
def regsAfter (i : Instr) (s : State) (ns : List Nat) : List W32 := regsOf (settled i s) ns
def flagsAfter (i : Instr) (s : State) : List W32 := (lane (settled i s)).elim [] fun t => [t.ctl.fpflags]
def rr (d a b : Nat) : R3 := { f := false, g := false, d := BitVec.ofNat 7 d, a := BitVec.ofNat 7 a, b := BitVec.ofNat 7 b }
def r2 (d a : Nat) : R2 := { f := false, d := BitVec.ofNat 7 d, a := BitVec.ofNat 7 a }

/-- R80: the sum wraps, and the destination may be a source. -/
theorem test_add_wraps : regsAfter (.add (rr 0 0 1)) (smallRegs [0xFFFFFFFF#32, 2#32]) [0, 1] = [1#32, 2#32] := by decide +kernel
/-- R80: SRA.64 fills from bit 63 of the pair, by the low 6 bits. -/
theorem test_sra64 : regsAfter (.sra64 (rr 4 0 2)) (smallRegs [0#32, 0x80000000#32, 36#32, 1#32]) [4, 5] = [0xF8000000#32, 0xFFFFFFFF#32] := by
  decide +kernel
/-- R81: signed and unsigned high halves. -/
theorem test_mulh : regsAfter (.mulh (rr 2 0 1)) (smallRegs [0xFFFFFFFF#32, 0xFFFFFFFF#32]) [2] = [0#32] ∧
    regsAfter (.mulhu (rr 2 0 1)) (smallRegs [0xFFFFFFFF#32, 0xFFFFFFFF#32]) [2] = [0xFFFFFFFE#32] := by decide +kernel
/-- R82's worked case and table. -/
theorem test_div : regsAfter (.div (rr 3 1 2)) (smallRegs [0#32, 0xFFFFFFF9#32, 2#32]) [3] = [0xFFFFFFFD#32] ∧
    regsAfter (.divu (rr 3 1 2)) (smallRegs [0#32, 0xFFFFFFF9#32, 0#32]) [3] = [0xFFFFFFFF#32] := by decide +kernel
theorem test_rem : regsAfter (.rem (rr 4 1 2)) (smallRegs [0#32, 0xFFFFFFF9#32, 2#32]) [4] = [0xFFFFFFFF#32] ∧
    regsAfter (.rem (rr 4 1 2)) (smallRegs [0#32, 0x80000000#32, 0xFFFFFFFF#32]) [4] = [0#32] := by decide +kernel
/-- R82: the register is empty from issue until the result lands. -/
theorem test_div_empties : (match exec (.div (rr 3 1 2)) (smallRegs [0#32, 6#32, 2#32]) with
    | .next t => ((lane t).map fun t => (t.regs.getD 3 (Reg.of 0#32)).full)
    | _ => none) = some false := by decide +kernel
/-- R83: a 64-bit comparison writes one register. -/
theorem test_sltu64 : regsAfter (.sltu64 (rr 9 2 4)) (smallRegs [0#32, 0#32, 5#32, 1#32, 4#32, 2#32]) [9, 10] = [1#32, 0#32] := by decide +kernel
/-- R85's worked case; and an insertion clipped at bit 31. -/
theorem test_bfx : regsAfter (.bfx (rr 2 0 1)) (smallRegs [0xABCD#32, 0x00010804#32]) [2] = [0xFFFFFFBC#32] ∧
    regsAfter (.bfx (rr 2 0 1)) (smallRegs [0xABCD#32, 0x00000804#32]) [2] = [0xBC#32] := by decide +kernel
theorem test_bfi : regsAfter (.bfi (rr 2 0 1)) (smallRegs [0x5A#32, 0x081C#32, 0x11111111#32]) [2] = [0xA1111111#32] := by decide +kernel
/-- R86's example: the byte order reversed, and all bits reversed. -/
theorem test_prmt : regsAfter (.prmt (rr 2 3 7)) (smallRegs [0#32, 0#32, 0#32, 0x11223344#32, 0#32, 0#32, 0#32, 0x00010203#32]) [2] = [0x44332211#32] ∧
    regsAfter (.prmt (rr 2 3 7)) (smallRegs [0#32, 0#32, 0#32, 1#32, 0#32, 0#32, 0#32, 0x08090A0B#32]) [2] = [0x80000000#32] := by decide +kernel
/-- R88's worked case, with the flag of a byte above 242 (R68). -/
theorem test_unpt : regsAfter (.unpt (r2 4 9)) (smallRegs (List.replicate 9 0#32 ++ [200#32])) [4, 5] = [0xFF01#32, 1#32] ∧
    flagsAfter (.unpt (r2 4 9)) (smallRegs (List.replicate 9 0#32 ++ [243#32])) = [0x20#32] := by decide +kernel
/-- R89's worked case: NOT is XORI of −1, behind an X word. -/
theorem test_xori_not : regsAfter (.xoriX 0x3FFFFFF#26 { f := false, d := 2#7, a := 3#7, i := 0x7FF#11 }) (smallRegs [0#32, 0#32, 0#32, 0x0F0F1234#32]) [2] =
    [0xF0F0EDCB#32] := by decide +kernel
/-- R90: the pair of a 64-bit shift, and a rotation. -/
theorem test_shift_immediates : regsAfter (.shri64 { f := false, d := 4#7, a := 6#7, n := 3#6 }) (smallRegs (List.replicate 7 0#32 ++ [0x1D#32])) [4, 5] =
      [0xA0000000#32, 3#32] ∧
    regsAfter (.rori { f := false, d := 4#7, a := 6#7, n := 8#5 }) (smallRegs (List.replicate 6 0#32 ++ [0x12345678#32])) [4] = [0x78123456#32] := by
  decide +kernel
/-- The worked case of R49: a prefixed LI.64. -/
theorem test_li64 : regsAfter (.li64X 0x2468AC#26 { d := 10#7, i := 0x789#11 }) small [10, 11] = [0x23456789#32, 1#32] := by decide +kernel
/-- R94's worked case: BNEZ at 0x100 goes to 0xF0, and falls through on 0. -/
theorem test_bnez : (lane (settled (.bnez { f := false, a := 4#7, o := 0x7FFC#15 })
      ((smallRegs [0#32, 0#32, 0#32, 0#32, 1#32]).onThread 0 0#32 fun v => v.onTh fun t => { t with pc := 0x100#64 }))).map (·.pc) = some 0xF0#64 ∧
    (lane (settled (.bnez { f := false, a := 4#7, o := 0x7FFC#15 }) (smallTh fun t => { t with pc := 0x100#64 }))).map (·.pc) =
      some 0x104#64 := by decide +kernel
/-- The worked case of R99: LOOP at 0x1000 with a count of 3 sets %lc0 and %lb0 and goes to the body. -/
theorem test_loop : ((lane (settled (.loop { f := false, a := 5#7, n := 1#8 })
      ((smallRegs (List.replicate 5 0#32 ++ [3#32])).onThread 0 0#32 fun v => v.onTh fun t => { t with pc := 0x1000#64 }))).map
      fun t => (t.pc, t.l0.lc, t.l0.lb)) = some (0x1004#64, 3#32, 0x0100000000001005#64) := by decide +kernel
/-- R59, R62: one rounding in a fused multiply-add, (1 + 2^-12)^2 - (1 + 2^-11) = 2^-24 exactly; and a product that overflows. -/
theorem test_ffma : regsAfter (.ffma32 { f := false, g := false, r := 0#3, d := 2#7, a := 0#7, b := 0#7 }) (smallRegs [0x3F800800#32, 0#32, 0xBF801000#32]) [2] =
    [0x33800000#32] := by decide +kernel
theorem test_fmul_overflows : regsAfter (.fmul32 { f := false, g := false, r := 0#3, d := 2#7, a := 0#7, b := 0#7 }) (smallRegs [0x7F000000#32]) [2] = [0x7F800000#32] ∧
    flagsAfter (.fmul32 { f := false, g := false, r := 0#3, d := 2#7, a := 0#7, b := 0#7 }) (smallRegs [0x7F000000#32]) = [5#32] := by decide +kernel
/-- The worked case of R114 at the top of E4M3. -/
theorem test_cvt_e4m3 : regsAfter (.cvtE4m3F32 { f := false, r := 0#3, d := 2#7, a := 0#7 }) (smallRegs [0x43960000#32]) [2] = [0x79#32] ∧
    flagsAfter (.cvtE4m3F32 { f := false, r := 0#3, d := 2#7, a := 0#7 }) (smallRegs [0x43EB0000#32]) = [5#32] := by decide +kernel
/-- The worked cases of R118. -/
theorem test_rcp : regsAfter (.rcp (r2 2 1)) (smallRegs [0#32, 0x40400000#32]) [2] = [0x3EAAAAAB#32] ∧
    flagsAfter (.rcp (r2 2 1)) (smallRegs [0#32, 0x40400000#32]) = [1#32] := by decide +kernel
theorem test_rsq_of_zero : regsAfter (.rsq (r2 2 1)) (smallRegs [0#32, 0x80000000#32]) [2] = [0xFF800000#32] ∧
    flagsAfter (.rsq (r2 2 1)) (smallRegs [0#32, 0x80000000#32]) = [8#32] := by decide +kernel
/-- R118: a signalling NaN, and the square root of a negative number. -/
theorem test_sfu_invalid : regsAfter (.tanh (r2 2 1)) (smallRegs [0#32, 0xFF800001#32]) [2] = [0x7FC00000#32] ∧
    flagsAfter (.sqrt (r2 2 1)) (smallRegs [0#32, 0x80000001#32]) = [16#32] := by decide +kernel
theorem test_ex2_lg2 : regsAfter (.ex2 (r2 2 1)) (smallRegs [0#32, 0x40400000#32]) [2] = [0x41000000#32] ∧
    regsAfter (.lg2 (r2 2 1)) (smallRegs [0#32, 0x3E800000#32]) [2] = [0xC0000000#32] := by decide +kernel
/-- R103: %tid is 0 in the first thread, and %rmode takes 4. -/
theorem test_mtsr_rmode : (lane (settled (.mtsr { f := false, a := 1#7, n := 0x021#11 }) (smallRegs [0#32, 4#32]))).map
    (fun t => t.ctl.rmode) = some 4#32 := by decide +kernel

/-- A lane that has a user handler at 0x400000. -/
def handled : State := smallTh fun t => { t with uhandler := 0x400000#64, pc := 0x100200#64 }
/-- The worked case of R43: the reserved word 0xF000C0F2 traps, sub-cause 1. -/
theorem test_reserved_word_traps : (lane (settled (.wordNotInstruction 1 ⟨0xF000C0F2#32, none⟩) handled)).map
    (fun t => (t.pc, t.ut.cause, t.ut.pc, t.ut.inst, t.ut.field)) =
      some (0x400000#64, 0x101#32, 0x100200#64, 0xF000C0F2#32, 0xE780181E40000000#64) := by decide +kernel

/-- The worked case of R3, in scratchpad: a store of a word, and a load of the two bytes at offset 2 of it, sign-extended. -/
def padded : State := (mapped [0#32, 0xFFFFFFFE#32, 0#32, 0#32, 0#32, 0x91223344#32]).onCore 0 fun c =>
  { c with pad := [{ idx := 0, val := 0xFFFFFFFF#32, valid := true }] }
noncomputable def storedWord : State := settled (.st { f := false, s := 4#3, d := 5#7, a := 0#7, i := 0#8 }) padded
theorem test_store_is_little_endian : (List.range 4).map (fun i => storedWord.rd (.pad 0 i) 1) = [0x44, 0x33, 0x22, 0x91] := by decide +kernel
theorem test_load_s16 : regsAfter (.ld { f := false, s := 3#3, d := 6#7, a := 0#7, i := 1#8 }) storedWord [6] = [0xFFFF9122#32] := by decide +kernel
/-- An atomic addition in scratchpad answers the old word and leaves the sum. -/
theorem test_atomic_add : regsAfter (.atomAdd (rr 6 0 5)) storedWord [6] = [0x91223344#32] ∧
    (settled (.atomAdd (rr 6 0 5)) storedWord).rd (.pad 0 0) 4 = 0x22446688 := by decide +kernel

end Sys2Proof.Tests
end

section
/-! PROOFS. The decoder inverts the encoder (R25, R26, R32, R35). -/

namespace Sys2Proof.Proofs
open Sys2Proof Sys2Proof.Laws

/-- The four bytes of a word in memory, least significant first, make the word (R3, R25). -/
theorem wordLE_byteAt (w : W32) :
    wordLE (byteAt w.toNat 0) (byteAt w.toNat 1) (byteAt w.toNat 2) (byteAt w.toNat 3) = w := by
  apply BitVec.eq_of_getLsbD_eq
  intro i hi
  simp only [wordLE, byteAt, BitVec.getLsbD_append, BitVec.getLsbD_ofNat, Nat.testBit_shiftRight, BitVec.testBit_toNat]
  repeat' split
  all_goals
    rw [decide_eq_true (by omega), Bool.true_and]
    congr 1
    omega

/-- The first word of a list of bytes decides how it is decoded, for a word that stands alone. -/
theorem decode_word {w : W32} {i : Instr} (h : ∀ n, decode2 w n = .ok (i, 4)) (rest : List Byte) :
    decode ([byteAt w.toNat 0, byteAt w.toNat 1, byteAt w.toNat 2, byteAt w.toNat 3] ++ rest) = .ok (i, 4) := by
  match rest with
  | [] | [_] | [_, _] | [_, _, _] => simp only [List.cons_append, List.nil_append, decode, wordLE_byteAt, h]
  | _ :: _ :: _ :: _ :: _ => simp only [List.cons_append, List.nil_append, decode, wordLE_byteAt, h]

/-- An X word and the word behind it decode together (R35). -/
theorem decode_pair (x w : W32) (rest : List Byte) :
    decode ([byteAt x.toNat 0, byteAt x.toNat 1, byteAt x.toNat 2, byteAt x.toNat 3,
      byteAt w.toNat 0, byteAt w.toNat 1, byteAt w.toNat 2, byteAt w.toNat 3] ++ rest) = decode2 x (some w) := by
  simp only [List.cons_append, List.nil_append, decode, wordLE_byteAt]

/-- Every instruction's word decodes to it, by the lemma of its constructor. -/
theorem encoding_statement (i : Instr) : Encoding.Statement i :=
  open Encoding in
  Instr.casesOn (motive := Encoding.Statement) i
    qmFusedPass subarrayGate tableExchange tileLaunch tileDelivery backwardSettle commandCompletion lineDelivery
    engineTranslationFault stopHold stopRelease resultLands sectionIssue forcedRun yieldDeferralEnd governorWindow
    gangFormation crewDispatch stealRequest stealAnswer stealRoundWait costart costartAnnounce lineGroupSend lineGroupAtHome
    lineGroupReply negativeAcknowledgement nackRetry bypassEntryFree ptsAdvance lanternPass meshHop routerPowerDown routerWake
    tokenGrant throttleLift walkComplete serviceForward serviceResend preempt crewRestore spareCoreRepair spareSliceRepair
    hbmRowRepair frzN bridgeTransfer bridgeCrcFail remoteDomainAccess storeRefusalReport flitData flitAcknowledgement
    flitNegativeAcknowledgement flitReservation flitControl wavelengthRetire fibreFailover peerUnreachable launchCmd mapCmd
    unmapCmd signalCmd waitCmd queryDevice queryProbes querySump queryTrace queryAttest journalRead resetTenancy freezeCmd
    serviceReply zcpCommandStart doneEvt journalMirrorWrite rdmaRead rdmaWrite rdmaInvalidRequest coldReset warmReset
    alwaysOnPowerLoss thermalEvent laserModuleSwap wordNotInstruction fetchTrap zcpOpNotNamed samplingEvt voltageDroop
    lossOfPower linksComeUp add sub and or xor shl shr sra add64 sub64 and64 or64 xor64 shl64 shr64 sra64 mul mulh mulhu mul64
    div divu rem remu seq sne slt sltu sle sleu min max seq64 sne64 slt64 sltu64 sle64 sleu64 min64 max64 popc clz ctz brev
    bfx bfi prmt andn sel abs neg sext8 sext16 zext8 zext16 unpt addi addi64 andi ori xori addiX addi64X andiX oriX xoriX shli
    shri srai rori shli64 shri64 srai64 rori64 li li64 liX li64X lea fadd32 fsub32 fmul32 ffma32 fadd64 fsub64 fmul64 ffma64
    hadd2 hmul2 hfma2 badd2 bmul2 bfma2 feq flt fle funord fmin fmax fclass fsgnj feq64 flt64 fle64 funord64 fmin64 fmax64
    fclass64 fsgnj64 hmin2 hmax2 heq2 hlt2 bmin2 bmax2 beq2 blt2 cvtF32F64 cvtF64F32 cvtF16F32 cvtF32F16 cvtBf16F32 cvtF32Bf16
    cvtE4m3F32 cvtF32E4m3 cvtE5m2F32 cvtF32E5m2 cvtF6aF32 cvtF32F6a cvtF6bF32 cvtF32F6b cvtE8m10F32 cvtF16x2F32 cvtF32F16x2
    cvtBf16x2F32 cvtF32Bf16x2 cvtE4m3x2F32 cvtE5m2x2F32 cvtI32F32 cvtUi32F32 cvtI64F32 cvtUi64F32 cvtI32F64 cvtUi32F64
    cvtI64F64 cvtUi64F64 cvtF32I32 cvtF32Ui32 cvtF32I64 cvtF32Ui64 cvtF64I32 cvtF64Ui32 cvtF64I64 cvtF64Ui64 cvtI8F32 cvtF32I8
    rcp rsq sqrt ex2 lg2 sin cos tanh actNear actLin rand randu randn rskip rsel epreset epstep rpeek ld st ldX stX ldf stf
    ldfX stfX atomAdd atomMin atomMax atomAnd atomOr atomXor atomXchg atomCas atomAdd64 atomCas64 atomXchg64 atomFadd32
    atomFadd64 atomBfadd2 atomFmin32 atomFmax32 lda32 lda64 sta32 sta64 affset affcnt a2gLoc a2gPad a2gCel g2aLoc g2aPad
    g2aCel inspace spaceof oprdy drain fenceDom fenceSys barTeam barCrew barCell barStack barDom arrive waitb shfl shflup
    shfldn shflx anyLane allLanes ballot matchLanes redadd redmin redmax redfadd scani scane segi sege beqz bnez bltz bgez
    blez bgtz bra bru beqzX bnezX bltzX bgezX blezX bgtzX braX bruX jmp call jmpX callX jr jalr ret loop spawn exitThread
    regroup yield elect win dqput dqget tasknew trigger waitdep iter fixup stqput stqget stqtry mfsr mtsr trap eret savefe
    loadfe bkpt brk probe halt cpTld cpTst cpGth cpSct cpLin cpFill cpMcst mmE4m3 mmE5m2 mmF6a mmF6b mmBf16 mmFp16 mmI8
    mmE8m10 mmsE4m3 mmsE5m2 mmsF6a mmsF6b mmsBf16 mmsFp16 mmsI8 mmsE8m10 qmE4m3B0 qmE4m3B1 qmE4m3B2 qmE4m3B3 qmE5m2B0 qmE5m2B1
    qmE5m2B2 qmE5m2B3 qmF6aB0 qmF6aB1 qmF6aB2 qmF6aB3 qmF6bB0 qmF6bB1 qmF6bB2 qmF6bB3 qmBf16 qmFp16 qmI8 qmE8m10 drnF32
    drnBf16 drnFp16 drnE4m3 mzero mstat pvE4m3 pvBf16 pvI8 pvMask pvPred tbLoad tbSwap hgBind hgRead hgClr fxPut fxGet
    fxAredF32 fxAredBf16 fxBcast fxSig neBind neEval neEvalg neBwd neFlush neUnbind tdBind tdDesc tdBwd tdPath grSort32
    grSort64 grMorton grSap cvQbox cvQray psLu32 psLu64 psChol32 psChol64 psSolve psBwd psPgs

/-- Settles O2: what one or two words decode to (`Encoding.Statement`), read from their bytes. -/
theorem decodeInvertsEncode : Obligations.DecodeInvertsEncode := by
  intro i ws rest hwf henc
  have hdec := encoding_statement i hwf
  rw [encode] at henc
  cases hraw : rawOf i with
  | none => simp [hraw] at henc
  | some raw =>
    obtain ⟨w, x⟩ := raw
    rw [hraw] at hdec henc
    cases x with
    | none =>
      obtain rfl : [w] = ws := by simpa using henc
      exact decode_word hdec rest
    | some x =>
      obtain rfl : [packX x, w] = ws := by simpa using henc
      exact (decode_pair (packX x) w rest).trans hdec

end Sys2Proof.Proofs
end

section
/-! PROOFS. Register fields: what a write of a field reaches, and the checks that operands meet (R10 to R16, R31, R43). -/

namespace Sys2Proof.Proofs
open Sys2Proof Sys2Proof.Machine

/-! ### What a register field reaches -/

@[simp] theorem ref_z (t : Thread) (i : Nat) : t.ref Fld.z i = .drop := by simp [Thread.ref]

theorem ref_lane {t : Thread} {f : Fld} (h : f.toNat < 112) (i : Nat) : t.ref f i = .phys (t.win + f.toNat + i) := by
  have hz : f ≠ Fld.z := by rintro rfl; exact absurd h (by decide)
  simp [Thread.ref, hz, h]

theorem ref_uniform {t : Thread} {f : Fld} (h : 112 ≤ f.toNat) (hz : f.toNat < 127) (i : Nat) :
    t.ref f i = .uni (f.toNat - 112 + i) := by
  have hz : f ≠ Fld.z := by rintro rfl; exact absurd hz (by decide)
  simp [Thread.ref, hz, Nat.not_lt.2 h]

/-- What a field reaches depends on the window alone. -/
theorem ref_congr {t u : Thread} (h : u.win = t.win) (f : Fld) (i : Nat) : u.ref f i = t.ref f i := by
  simp [Thread.ref, h]

/-! ### Writing one register -/

@[simp] theorem put_drop (v : View) (r : Reg) : v.put .drop r = v := rfl
@[simp] theorem put_phys_k (v : View) (n : Nat) (r : Reg) : (v.put (.phys n) r).k = v.k := rfl
@[simp] theorem put_phys_regs (v : View) (n : Nat) (r : Reg) : (v.put (.phys n) r).th.regs = v.th.regs.set n r := rfl
@[simp] theorem put_uni_k (v : View) (n : Nat) (r : Reg) : (v.put (.uni n) r).k = v.k.set n r := rfl
@[simp] theorem put_uni_th (v : View) (n : Nat) (r : Reg) : (v.put (.uni n) r).th = v.th := rfl

@[simp] theorem put_win (v : View) (d : Dst) (r : Reg) : (v.put d r).th.win = v.th.win := by cases d <;> rfl
@[simp] theorem put_ref (v : View) (d : Dst) (r : Reg) (f : Fld) (i : Nat) : (v.put d r).th.ref f i = v.th.ref f i :=
  ref_congr (put_win v d r) f i

theorem get_put_phys_same {v : View} {n : Nat} (r : Reg) (h : n < v.th.regs.length) : (v.put (.phys n) r).get (.phys n) = r := by
  simp [View.get, List.getD, h]
theorem get_put_phys_other {v : View} {m n : Nat} (r : Reg) (h : m ≠ n) :
    (v.put (.phys n) r).get (.phys m) = v.get (.phys m) := by
  simp [View.get, List.getD, List.getElem?_set_ne h.symm]

/-- The two halves of a value, put together again. -/
theorem pair64_halves (x : W64) : pair64 (lo32 x) (hi32 x) = x := by
  apply BitVec.eq_of_getLsbD_eq
  intro i hi
  simp only [pair64, lo32, hi32, BitVec.getLsbD_append, BitVec.getLsbD_extractLsb']
  split
  · simp_all
  · rw [decide_eq_true (by omega), Bool.true_and]
    congr 1
    omega

/-- Settles O7, field by field: `Thread.ref` says which register a field reaches, and `View.put` writes that one. -/
theorem registerWritesLand : Obligations.RegisterWritesLand := by
  refine ⟨fun v x => ?_, fun v f x hf hn => ?_, fun v f x hlo hhi hn => ?_, fun v f x _ hf hn => ?_⟩
  · simp [View.wr32, View.rd32, View.rd64, View.word, View.get, Reg.z, Reg.of, pair64]
  · rw [View.wr32, ref_lane hf]
    refine ⟨by simp [Reg.of, hn], fun n hne => by simp [List.getElem?_set_ne hne.symm], rfl, ?_⟩
    rw [View.rd32, View.word, put_ref, ref_lane hf, Nat.add_zero, get_put_phys_same _ hn, Reg.of]
  · rw [View.wr32, ref_uniform hlo hhi]
    exact ⟨by simp [Reg.of, hn], fun n hne => by simp [List.getElem?_set_ne hne.symm], rfl⟩
  · have hlow : v.th.win + f.toNat < v.th.regs.length := by omega
    simp only [View.wr64, View.rd64, View.word, ref_lane hf, put_win, Nat.add_zero]
    rw [get_put_phys_same _ (by simpa using hn), get_put_phys_other _ (by omega), get_put_phys_same _ hlow]
    exact pair64_halves x

end Sys2Proof.Proofs
end

section
/-! PROOFS. The checks of operands, in their order (R43): fields, mode and kind of thread; then the reads of the sources. -/

namespace Sys2Proof.Proofs
open Sys2Proof Sys2Proof.Machine

/-! ### The conditions, each with a name -/

/-- Every field reaches registers that it may name (R10, R11, R33). -/
def FieldsOk (o : Opnds) (v : View) : Prop :=
  (∀ x ∈ o.srcs, v.th.fieldOk x.f x.w x.al false = true) ∧ (∀ x ∈ o.dsts, v.th.fieldOk x.f x.w x.w true = true)
/-- A privileged form runs in system mode (R356). -/
def ModeOk (o : Opnds) (v : View) : Prop := o.priv = true → v.th.modeS = true
/-- The thread is of the kind that the form is for. -/
def KindOk (o : Opnds) (v : View) : Prop := (o.laneOnly = true → v.th.sfe = false) ∧ (o.sfeOnly = true → v.th.sfe = true)
/-- A source with an empty register that its empty-read bit forbids (R14). -/
def EarlySrc (v : View) (x : Src) : Prop := x.bang = true ∧ ∃ r ∈ v.srcRegs x, r.full = false
/-- No source is empty. -/
def SrcsFull (o : Opnds) (v : View) : Prop := ∀ x ∈ o.srcs, ∀ r ∈ v.srcRegs x, r.full = true
/-- No destination waits for a result on its way (R15). -/
def DstsLanded (o : Opnds) (v : View) : Prop :=
  ∀ x ∈ o.dsts, ∀ d ∈ v.th.refs x.f x.w, (∃ p ∈ v.th.pending, d ∈ p.dst) → (v.get d).full = true
/-- No source is unwritten while UNINIT is 1 (R16). -/
def SrcsWritten (o : Opnds) (v : View) : Prop := v.th.uninit = true → ∀ x ∈ o.srcs, v.unwritten x = false
/-- No source is marked (R301, R369). -/
def SrcsClean (o : Opnds) (v : View) : Prop := ∀ x ∈ o.srcs, ∀ r ∈ v.srcRegs x, r.mark.trap x.f = none
/-- `f` is the lowest field of the sources in `l` that satisfy `p`. -/
def Lowest (l : List Src) (p : Src → Prop) (f : Fld) : Prop :=
  (∃ x ∈ l, p x ∧ x.f = f) ∧ ∀ x ∈ l, p x → f.toNat ≤ x.f.toNat

theorem Lowest.unique {l : List Src} {p : Src → Prop} {f g : Fld} (hf : Lowest l p f) (hg : Lowest l p g) : f = g := by
  obtain ⟨⟨x, hx, hpx, rfl⟩, hle⟩ := hf
  obtain ⟨⟨y, hy, hpy, rfl⟩, hge⟩ := hg
  exact BitVec.eq_of_toNat_eq (Nat.le_antisymm (hle y hy hpy) (hge x hx hpx))

/-! ### The search for the lowest field, and for the first empty word -/

/-- One step of the search: the lowest of the fields so far. -/
def lowerField (p : Src → Bool) (b : Option Fld) (x : Src) : Option Fld :=
  if p x then (match b with | none => some x.f | some y => some (if x.f.toNat < y.toNat then x.f else y)) else b

theorem leastField_eq_foldl (l : List Src) (p : Src → Bool) : leastField l p = l.foldl (lowerField p) none := rfl

theorem foldl_lowerField_some (p : Src → Bool) (l : List Src) (y : Fld) :
    ∃ f, l.foldl (lowerField p) (some y) = some f ∧ (f = y ∨ ∃ x ∈ l, p x = true ∧ x.f = f) ∧ f.toNat ≤ y.toNat ∧
      ∀ x ∈ l, p x = true → f.toNat ≤ x.f.toNat := by
  induction l generalizing y with
  | nil => exact ⟨y, rfl, .inl rfl, Nat.le_refl _, nofun⟩
  | cons a l ih =>
    by_cases ha : p a = true
    · obtain ⟨f, hf, hin, hle, hall⟩ := ih (if a.f.toNat < y.toNat then a.f else y)
      refine ⟨f, by simpa [lowerField, ha] using hf, ?_, ?_, ?_⟩
      · rcases hin with rfl | ⟨x, hx, hp, rfl⟩
        · split
          · exact .inr ⟨a, by simp, ha, rfl⟩
          · exact .inl rfl
        · exact .inr ⟨x, by simp [hx], hp, rfl⟩
      · split at hle <;> omega
      · intro x hx hp
        rcases List.mem_cons.1 hx with rfl | hx
        · split at hle <;> omega
        · exact hall x hx hp
    · obtain ⟨f, hf, hin, hle, hall⟩ := ih y
      refine ⟨f, by simpa [lowerField, ha] using hf, ?_, hle, ?_⟩
      · exact hin.imp_right fun ⟨x, hx, h⟩ => ⟨x, by simp [hx], h⟩
      · intro x hx hp
        rcases List.mem_cons.1 hx with rfl | hx
        · exact absurd hp ha
        · exact hall x hx hp

/-- The search answers nothing when no source satisfies `p`, and else the lowest field. -/
theorem leastField_cases (l : List Src) (p : Src → Bool) :
    (leastField l p = none ∧ ∀ x ∈ l, p x = false) ∨ ∃ f, leastField l p = some f ∧ Lowest l (fun x => p x = true) f := by
  rw [leastField_eq_foldl]
  induction l with
  | nil => exact .inl ⟨rfl, nofun⟩
  | cons a l ih =>
    by_cases ha : p a = true
    · obtain ⟨f, hf, hin, hle, hall⟩ := foldl_lowerField_some p l a.f
      refine .inr ⟨f, by simpa [lowerField, ha] using hf, ?_, ?_⟩
      · rcases hin with rfl | ⟨x, hx, hp, rfl⟩
        · exact ⟨a, by simp, ha, rfl⟩
        · exact ⟨x, by simp [hx], hp, rfl⟩
      · rintro x hx hp
        rcases List.mem_cons.1 hx with rfl | hx
        · exact hle
        · exact hall x hx hp
    · rcases ih with ⟨hn, hall⟩ | ⟨f, hf, ⟨x, hx, hp, rfl⟩, hall⟩
      · exact .inl ⟨by simpa [lowerField, ha] using hn, by simpa [ha] using hall⟩
      · exact .inr ⟨x.f, by simpa [lowerField, ha] using hf, ⟨x, by simp [hx], hp, rfl⟩, by simpa [ha] using hall⟩

theorem leastField_eq_none {l : List Src} {p : Src → Bool} : leastField l p = none ↔ ∀ x ∈ l, p x = false := by
  rcases leastField_cases l p with ⟨hn, hall⟩ | ⟨f, hf, ⟨x, hx, hp, -⟩, -⟩
  · simpa [hn] using hall
  · simp only [hf, reduceCtorEq, false_iff]
    exact fun hall => by simp [hall x hx] at hp

theorem leastField_eq_some {l : List Src} {p : Src → Bool} {f : Fld} (h : Lowest l (fun x => p x = true) f) :
    leastField l p = some f := by
  rcases leastField_cases l p with ⟨-, hall⟩ | ⟨g, hg, hlow⟩
  · obtain ⟨⟨x, hx, hp, -⟩, -⟩ := h
    simp [hall x hx] at hp
  · rw [hg, hlow.unique h]

theorem waitFor_cases (v : View) (l : List Dst) :
    (v.waitFor l = none ∧ ∀ d ∈ l, (v.get d).full = true) ∨ ∃ d ∈ l, v.waitFor l = some (.reg d) ∧ (v.get d).full = false := by
  induction l with
  | nil => exact .inl ⟨rfl, nofun⟩
  | cons a l ih =>
    by_cases ha : (v.get a).full = true
    · rcases ih with ⟨hn, hall⟩ | ⟨d, hd, hw, he⟩
      · exact .inl ⟨by simp [View.waitFor, ha, hn], by simpa [ha] using hall⟩
      · exact .inr ⟨d, by simp [hd], by simp [View.waitFor, ha, hw], he⟩
    · exact .inr ⟨a, by simp, by simp [View.waitFor, ha], by simpa using ha⟩

/-! ### The checks before the reads -/

theorem decodeTrap_of_fields {o : Opnds} {v : View} (h : ¬ FieldsOk o v) :
    o.decodeTrap v.th = some (trapOpen stageField 1 5) := by
  unfold FieldsOk at h
  simp only [not_and_or] at h
  simp only [Opnds.decodeTrap]
  rw [if_pos (by simpa using h)]
  rfl

theorem fields_pass {o : Opnds} {v : View} (h : FieldsOk o v) :
    (!(o.srcs.all fun x => v.th.fieldOk x.f x.w x.al false) || !(o.dsts.all fun x => v.th.fieldOk x.f x.w x.w true)) = false := by
  simpa [FieldsOk] using h

theorem decodeTrap_of_mode {o : Opnds} {v : View} (hf : FieldsOk o v) (h : ¬ ModeOk o v) :
    o.decodeTrap v.th = some (trapAt stageMode 6 3 0#64) := by
  have hm : o.priv = true ∧ v.th.modeS = false := by simpa [ModeOk] using h
  simp [Opnds.decodeTrap, fields_pass hf, hm, Cause.prot]

theorem decodeTrap_of_kind {o : Opnds} {v : View} (hf : FieldsOk o v) (hm : ModeOk o v) (h : ¬ KindOk o v) :
    o.decodeTrap v.th = some (trapOpen stageKind 1 7) := by
  have hm' : (o.priv && !v.th.modeS) = false := by simpa [ModeOk] using hm
  have hk : ((o.laneOnly && v.th.sfe) || (o.sfeOnly && !v.th.sfe)) = true := by
    simpa [KindOk, Classical.or_iff_not_imp_left] using h
  simp [Opnds.decodeTrap, fields_pass hf, hm', hk, Cause.illegal]

theorem decodeTrap_none {o : Opnds} {v : View} (hf : FieldsOk o v) (hm : ModeOk o v) (hk : KindOk o v) :
    o.decodeTrap v.th = none := by
  have hm' : (o.priv && !v.th.modeS) = false := by simpa [ModeOk] using hm
  have hk' : ((o.laneOnly && v.th.sfe) || (o.sfeOnly && !v.th.sfe)) = false := by simpa [KindOk] using hk
  simp [Opnds.decodeTrap, fields_pass hf, hm', hk']

theorem decodeTrap_eq_none {o : Opnds} {v : View} : o.decodeTrap v.th = none ↔ FieldsOk o v ∧ ModeOk o v ∧ KindOk o v := by
  refine ⟨fun h => ?_, fun ⟨hf, hm, hk⟩ => decodeTrap_none hf hm hk⟩
  by_cases hf : FieldsOk o v
  · by_cases hm : ModeOk o v
    · by_cases hk : KindOk o v
      · exact ⟨hf, hm, hk⟩
      · simp [decodeTrap_of_kind hf hm hk] at h
    · simp [decodeTrap_of_mode hf hm] at h
  · simp [decodeTrap_of_fields hf] at h

/-! ### The reads of the sources -/

/-- The first test of a read: whether a source is empty that its empty-read bit forbids. -/
theorem early_iff (v : View) (x : Src) : (x.bang && (v.srcRegs x).any fun r => !r.full) = true ↔ EarlySrc v x := by
  simp [EarlySrc]

theorem no_early {o : Opnds} {v : View} (h : ∀ x ∈ o.srcs, ¬ EarlySrc v x) :
    leastField o.srcs (fun x => x.bang && (v.srcRegs x).any fun r => !r.full) = none :=
  leastField_eq_none.2 fun x hx => by simpa [early_iff] using mt (early_iff v x).1 (h x hx)

theorem readVerdict_early {o : Opnds} {v : View} {f : Fld} (h : Lowest o.srcs (EarlySrc v) f) :
    o.readVerdict v = .trap (trapAt stageEmpty 2 0 (f.setWidth 64)) := by
  have hl : Lowest o.srcs (fun x => (x.bang && (v.srcRegs x).any fun r => !r.full) = true) f := by
    simpa only [early_iff] using h
  simp only [Opnds.readVerdict, leastField_eq_some hl]
  rfl

theorem srcsFull_iff {o : Opnds} {v : View} :
    SrcsFull o v ↔ ∀ d ∈ o.srcs.flatMap fun x => v.th.refs x.f x.w, (v.get d).full = true := by
  simp only [SrcsFull, View.srcRegs, List.mem_map, List.mem_flatMap]
  exact ⟨fun h d ⟨x, hx, hd⟩ => h x hx _ ⟨d, hd, rfl⟩, fun h x hx r ⟨d, hd, hr⟩ => hr ▸ h d ⟨x, hx, hd⟩⟩

theorem SrcsFull.not_early {o : Opnds} {v : View} (h : SrcsFull o v) : ∀ x ∈ o.srcs, ¬ EarlySrc v x := by
  rintro x hx ⟨-, r, hr, he⟩
  simp [h x hx r hr] at he

theorem waitFor_srcs {o : Opnds} {v : View} (h : SrcsFull o v) : v.waitFor (o.srcs.flatMap fun x => v.th.refs x.f x.w) = none := by
  rcases waitFor_cases v (o.srcs.flatMap fun x => v.th.refs x.f x.w) with ⟨hn, -⟩ | ⟨d, hd, -, he⟩
  · exact hn
  · simp [srcsFull_iff.1 h d hd] at he

/-- The destinations that an instruction waits for: those of results on their way. -/
theorem mem_awaited {o : Opnds} {v : View} {d : Dst} :
    d ∈ ((o.dsts.flatMap fun x => v.th.refs x.f x.w).filter fun d => v.th.pending.any fun p => p.dst.contains d) ↔
      (∃ x ∈ o.dsts, d ∈ v.th.refs x.f x.w) ∧ ∃ p ∈ v.th.pending, d ∈ p.dst := by
  simp [List.mem_filter, List.mem_flatMap]

theorem waitForDst_none {o : Opnds} {v : View} (h : DstsLanded o v) :
    v.waitForDst (o.dsts.flatMap fun x => v.th.refs x.f x.w) = none := by
  rcases waitFor_cases v ((o.dsts.flatMap fun x => v.th.refs x.f x.w).filter fun d => v.th.pending.any fun p => p.dst.contains d)
    with ⟨hn, -⟩ | ⟨d, hd, -, he⟩
  · exact hn
  · obtain ⟨⟨x, hx, hdx⟩, hp⟩ := mem_awaited.1 hd
    simp [h x hx d hdx hp] at he

theorem readVerdict_wait {o : Opnds} {v : View} (hn : ∀ x ∈ o.srcs, ¬ EarlySrc v x) (h : ¬ (SrcsFull o v ∧ DstsLanded o v)) :
    ∃ d, o.readVerdict v = .wait (.reg d) ∧ (v.get d).full = false ∧
      ((∃ x ∈ o.srcs, d ∈ v.th.refs x.f x.w) ∨ (SrcsFull o v ∧ ∃ x ∈ o.dsts, d ∈ v.th.refs x.f x.w)) := by
  simp only [Opnds.readVerdict, no_early hn]
  rcases waitFor_cases v (o.srcs.flatMap fun x => v.th.refs x.f x.w) with ⟨hs, hall⟩ | ⟨d, hd, hw, he⟩
  · have hfull := srcsFull_iff.2 hall
    have hland : ¬ DstsLanded o v := fun hl => h ⟨hfull, hl⟩
    rcases waitFor_cases v ((o.dsts.flatMap fun x => v.th.refs x.f x.w).filter fun d => v.th.pending.any fun p => p.dst.contains d)
      with ⟨-, hall'⟩ | ⟨d, hd, hw, he⟩
    · exact absurd (fun x hx d hd hp => hall' d (mem_awaited.2 ⟨⟨x, hx, hd⟩, hp⟩)) hland
    · exact ⟨d, by simp only [hs, View.waitForDst, hw], he, .inr ⟨hfull, (mem_awaited.1 hd).1⟩⟩
  · exact ⟨d, by simp only [hw], he, .inl (by simpa [List.mem_flatMap] using hd)⟩

/-- With every register full, the reads come to the test of UNINIT. -/
theorem readVerdict_uninit {o : Opnds} {v : View} {f : Fld} (hs : SrcsFull o v) (hd : DstsLanded o v) (hu : v.th.uninit = true)
    (h : Lowest o.srcs (fun x => v.unwritten x = true) f) :
    o.readVerdict v = .trap (trapAt stageUninit 3 0 (f.setWidth 64)) := by
  simp only [Opnds.readVerdict, no_early hs.not_early, waitFor_srcs hs, waitForDst_none hd, if_pos hu, leastField_eq_some h,
    Cause.uninit]

theorem no_unwritten {o : Opnds} {v : View} (h : SrcsWritten o v) :
    (if v.th.uninit then leastField o.srcs v.unwritten else none) = none := by
  split
  · exact leastField_eq_none.2 (h (by assumption))
  · rfl

/-- The first mark among the sources, as the trap that it raises. -/
def firstMark (o : Opnds) (v : View) : Option Trap :=
  o.srcs.findSome? fun x => (v.srcRegs x).findSome? fun r => r.mark.trap x.f

theorem firstMark_eq_none {o : Opnds} {v : View} : firstMark o v = none ↔ SrcsClean o v := by
  simp [firstMark, SrcsClean, List.findSome?_eq_none_iff]

/-- After the test of UNINIT, only the marks are left. -/
theorem readVerdict_marks {o : Opnds} {v : View} (hs : SrcsFull o v) (hd : DstsLanded o v) (hw : SrcsWritten o v) :
    (∀ t, firstMark o v = some t → o.readVerdict v = .trap t) ∧ (firstMark o v = none → o.readVerdict v = .ok) := by
  constructor
  · intro t ht
    simp only [Opnds.readVerdict, no_early hs.not_early, waitFor_srcs hs, waitForDst_none hd, no_unwritten hw]
    rw [firstMark] at ht
    simp only [ht]
  · intro ht
    simp only [Opnds.readVerdict, no_early hs.not_early, waitFor_srcs hs, waitForDst_none hd, no_unwritten hw]
    rw [firstMark] at ht
    simp only [ht]

theorem readVerdict_mark {o : Opnds} {v : View} (hs : SrcsFull o v) (hd : DstsLanded o v) (hw : SrcsWritten o v)
    (h : ¬ SrcsClean o v) :
    ∃ x ∈ o.srcs, ∃ r ∈ v.srcRegs x, ∃ t, r.mark.trap x.f = some t ∧ o.readVerdict v = .trap t := by
  obtain ⟨t, ht⟩ := Option.ne_none_iff_exists'.1 (mt firstMark_eq_none.1 h)
  obtain ⟨x, hx, hxt⟩ := List.exists_of_findSome?_eq_some ht
  obtain ⟨r, hr, hrt⟩ := List.exists_of_findSome?_eq_some hxt
  exact ⟨x, hx, r, hr, t, hrt, (readVerdict_marks hs hd hw).1 t ht⟩

theorem readVerdict_ok {o : Opnds} {v : View} :
    o.readVerdict v = .ok ↔ SrcsFull o v ∧ DstsLanded o v ∧ SrcsWritten o v ∧ SrcsClean o v := by
  refine ⟨fun h => ?_, fun ⟨hs, hd, hw, hc⟩ => ?_⟩
  · by_cases hn : ∀ x ∈ o.srcs, ¬ EarlySrc v x
    · by_cases hsd : SrcsFull o v ∧ DstsLanded o v
      · obtain ⟨hs, hd⟩ := hsd
        by_cases hw : SrcsWritten o v
        · by_cases hc : SrcsClean o v
          · exact ⟨hs, hd, hw, hc⟩
          · obtain ⟨x, -, r, -, t, -, ht⟩ := readVerdict_mark hs hd hw hc
            simp [ht] at h
        · obtain ⟨hu, x, hx, hux⟩ : v.th.uninit = true ∧ ∃ x ∈ o.srcs, v.unwritten x = true := by
            simpa [SrcsWritten] using hw
          rcases leastField_cases o.srcs v.unwritten with ⟨-, hall⟩ | ⟨f, -, hlow⟩
          · simp [hall x hx] at hux
          · simp [readVerdict_uninit hs hd hu hlow] at h
      · obtain ⟨d, hd, -⟩ := readVerdict_wait hn hsd
        simp [hd] at h
    · rcases leastField_cases o.srcs (fun x => x.bang && (v.srcRegs x).any fun r => !r.full) with ⟨-, hall⟩ | ⟨f, -, hlow⟩
      · exact absurd (fun x hx he => absurd ((early_iff v x).2 he) (by rw [hall x hx]; decide)) hn
      · simp [readVerdict_early (by simpa only [early_iff] using hlow)] at h
  · exact (readVerdict_marks hs hd hw).2 (firstMark_eq_none.2 hc)

theorem verdict_eq_readVerdict {o : Opnds} {v : View} (h : o.decodeTrap v.th = none) : o.verdict v = o.readVerdict v := by
  simp only [Opnds.verdict, h]

theorem verdict_of_decodeTrap {o : Opnds} {v : View} {t : Trap} (h : o.decodeTrap v.th = some t) : o.verdict v = .trap t := by
  simp only [Opnds.verdict, h]

theorem verdict_ok {o : Opnds} {v : View} :
    o.verdict v = .ok ↔ (FieldsOk o v ∧ ModeOk o v ∧ KindOk o v) ∧ SrcsFull o v ∧ DstsLanded o v ∧ SrcsWritten o v ∧ SrcsClean o v := by
  rw [← decodeTrap_eq_none, ← readVerdict_ok]
  cases h : o.decodeTrap v.th with
  | none => simp [verdict_eq_readVerdict h]
  | some t => simp [verdict_of_decodeTrap h]

/-- Settles O8: the checks stand in one order, and each clause is the lemma of one of them. -/
theorem operandsPassWhen : Obligations.OperandsPassWhen := by
  intro o v
  refine ⟨verdict_ok.trans (by rw [and_assoc, and_assoc]; rfl), fun hf => verdict_of_decodeTrap (decodeTrap_of_fields hf),
    fun hf hm => verdict_of_decodeTrap (decodeTrap_of_mode hf hm),
    fun hf hm hk => verdict_of_decodeTrap (decodeTrap_of_kind hf hm hk), fun hf hm hk => ?_⟩
  rw [verdict_eq_readVerdict (decodeTrap_none hf hm hk)]
  exact ⟨fun f hl => readVerdict_early hl, fun hn hw => readVerdict_wait hn hw, fun hs hd =>
    ⟨fun f hu hl => readVerdict_uninit hs hd hu hl, fun hw hc => readVerdict_mark hs hd hw hc⟩⟩

end Sys2Proof.Proofs
end

section
/-! PROOFS. A run at an instruction of its lanes alone: the whole run traps together (R351, R419), or every lane of it executes and
nothing else of the device changes (R26, R137). -/

namespace Sys2Proof.Proofs
open Sys2Proof Sys2Proof.Machine

/-! ### A run that traps as a whole -/

section AllTrap
variable {s : State} {f : View → Verdict} {g : View → Trap}

theorem trapsOf_verdicts (h : ∀ v ∈ s.run, f v = .trap (g v)) : trapsOf (s.verdicts f) = s.run.map fun v => (v.th, g v) := by
  rw [State.verdicts, trapsOf, List.filterMap_map, ← List.filterMap_eq_map]
  exact List.filterMap_congr fun v hv => by simp [h v hv]

theorem oksOf_verdicts (h : ∀ v ∈ s.run, f v = .trap (g v)) : oksOf (s.verdicts f) = [] := by
  rw [State.verdicts, oksOf, List.filterMap_map, List.filterMap_eq_nil_iff]
  exact fun v hv => by simp [h v hv]

theorem waitsOf_verdicts (h : ∀ v ∈ s.run, f v = .trap (g v)) : waitsOf (s.verdicts f) = [] := by
  rw [State.verdicts, waitsOf, List.filterMap_map, List.filterMap_eq_nil_iff]
  exact fun v hv => by simp [h v hv]

/-- What a run notes of a trap that all its lanes take. -/
def State.lanesWith (s : State) (g : View → Trap) : List (W32 × Trap) := s.run.map fun v => (v.th.ident.tid, g v)

theorem foldl_min_eq {α : Type} (k : α → Nat) (m n : Nat) (l : List α) (hl : ∀ x ∈ l, k x = m) (hn : m ≤ n) :
    (l.foldl (fun a x => min a (k x)) n) = if l = [] then n else m := by
  induction l generalizing n with
  | nil => rfl
  | cons x l ih =>
    have hx : min n (k x) = m := by rw [hl x (by simp)]; omega
    rw [List.foldl_cons, hx, ih m (fun y hy => hl y (by simp [hy])) (Nat.le_refl m)]
    simp

/-- Lanes that agree on the check and the cause trap together. -/
theorem takeTrap_agree {m c : Nat} (hne : s.run ≠ []) (hm : m ≤ 1000) (hg : ∀ v ∈ s.run, (g v).stage = m ∧ (g v).cause = c) :
    Machine.takeTrap (s.run.map fun v => (v.th, g v)) = State.lanesWith s g := by
  have hmin : minStage (s.run.map fun v => (v.th, g v)) = m := by
    rw [minStage, foldl_min_eq _ m 1000 _ (by simpa using fun v hv => (hg v hv).1) hm]
    simp [hne]
  obtain ⟨v, r, hr⟩ := List.exists_cons_of_ne_nil hne
  have hv : (g v).stage = m ∧ (g v).cause = c := hg v (by simp [hr])
  have hfind : (s.run.map fun v => (v.th, g v)).find? (fun x => x.2.stage == m) = some (v.th, g v) := by simp [hr, hv.1]
  have hall : ∀ x ∈ s.run.map fun v => (v.th, g v), (x.2.stage == m && x.2.cause == (g v).cause) = true := by
    simp only [List.mem_map, forall_exists_index, and_imp, forall_apply_eq_imp_iff₂]
    intro w hw
    simp [hg w hw, hv.2]
  simp only [Machine.takeTrap, hmin, hfind]
  rw [List.filter_eq_self.2 hall, List.map_map]
  rfl

theorem othersThan_lanesWith : othersThan (s.verdicts f) (State.lanesWith s g) = [] := by
  simp only [othersThan, State.verdicts, State.lanesWith, List.map_map, List.filter_eq_nil_iff]
  intro x hx
  simpa using hx

theorem readTraps_nil : readTraps [] = [] := rfl

theorem filter_card {m : Nat} (hm : stageCard ≤ m) (hg : ∀ v ∈ s.run, (g v).stage = m) :
    ((s.run.map fun v => (v.th, g v)).filter fun x => decide (x.2.stage < stageCard)) = [] ∧
    ((s.run.map fun v => (v.th, g v)).filter fun x => decide (x.2.stage ≥ stageCard)) = s.run.map fun v => (v.th, g v) := by
  constructor
  · simp only [List.filter_eq_nil_iff, List.mem_map, forall_exists_index, and_imp, forall_apply_eq_imp_iff₂]
    intro v hv
    simpa [hg v hv] using hm
  · simp only [List.filter_eq_self, List.mem_map, forall_exists_index, and_imp, forall_apply_eq_imp_iff₂]
    intro v hv
    simpa [hg v hv] using hm

/-- A split of which nothing is left but one trap: the run takes it. -/
theorem applySplit_trap (o : Opnds) (act : List W32 → State → State) (b : List W32) :
    s.applySplit o { behind := b, traps := [State.lanesWith s g] } act = s.trapped g := rfl

/-- Where every lane of a run fails the same check, before the reads of the sources or of the card, the run takes the trap. -/
theorem eachLane_allTrap {k : LaneForm} {m c : Nat} (hne : s.run ≠ []) (h : ∀ v ∈ s.run, k.verdict v = .trap (g v))
    (hg : ∀ v ∈ s.run, (g v).stage = m ∧ (g v).cause = c)
    (hm : m < stageEmpty ∨ (stageCard ≤ m ∧ m ≤ 1000 ∧ m ≠ stageFault ∧ c ≠ Cause.mcheck)) : s.eachLane k = s.trapped g := by
  obtain ⟨v, r, hr⟩ := List.exists_cons_of_ne_nil hne
  have hv : (g v).stage = m ∧ (g v).cause = c := hg v (by simp [hr])
  have hle : m ≤ 1000 := by
    rcases hm with hm | ⟨-, hm, -⟩
    · exact Nat.le_trans (Nat.le_of_lt hm) (by decide)
    · exact hm
  simp only [State.eachLane, splitLanes, trapsOf_verdicts h]
  rcases hm with hm | ⟨hcard, -, hfault, hmc⟩
  · rw [if_pos (by simp [hr, hv.1, hm]), takeTrap_agree hne hle hg, othersThan_lanesWith]
    exact applySplit_trap _ _ _
  · have hearly : ¬ (((s.run.map fun v => (v.th, g v)).any fun x => decide (x.2.stage < stageEmpty)) = true) := by
      simp only [List.any_map, List.any_eq_true, not_exists, not_and]
      intro w hw
      have : stageEmpty ≤ m := Nat.le_trans (by decide) hcard
      simpa [(hg w hw).1] using this
    have hsoft : ¬ (((s.run.map fun v => (v.th, g v)).all fun x => x.2.soft) = true) := by
      simp [hr, Trap.soft, hv, hfault, hmc]
    obtain ⟨hreads, hcards⟩ := filter_card hcard fun v hv => (hg v hv).1
    rw [if_neg hearly, hreads, hcards, if_neg hsoft, takeTrap_agree hne hle hg, oksOf_verdicts h, waitsOf_verdicts h, readTraps_nil]
    have hrest : (((s.run.map fun v => (v.th, g v)).map fun x => x.1.ident.tid).filter fun x =>
        !((State.lanesWith s g).map (·.1)).contains x) = [] := by
      simp only [State.lanesWith, List.map_map, List.filter_eq_nil_iff]
      intro x hx
      simpa using hx
    rw [hrest]
    exact applySplit_trap _ _ _

end AllTrap

/-- An instruction of its lanes alone, whose operands every lane passes and at whose card's check every lane fails alike. -/
theorem lanes_allTrap {s : State} {o : Opnds} {chk : View → Verdict} {op : View → View} {g : View → Trap} {m c : Nat}
    (hne : s.run ≠ []) (ho : ∀ v ∈ s.run, o.verdict v = .ok) (hc : ∀ v ∈ s.run, chk v = .trap (g v))
    (hg : ∀ v ∈ s.run, (g v).stage = m ∧ (g v).cause = c)
    (hm : stageCard ≤ m ∧ m ≤ 1000 ∧ m ≠ stageFault ∧ c ≠ Cause.mcheck) : s.lanes o chk op = s.trapped g :=
  eachLane_allTrap hne (fun v hv => by simp [LaneForm.thenDo, LaneForm.of, ho v hv, hc v hv, Verdict.andThen]) hg (.inr hm)

/-! ### A run that executes -/

/-- With no QM command in flight the effect is the instruction's own. -/
theorem actQm_quiet {s : State} (h : s.quiet) (o : Opnds) (act : List W32 → State → State) (tids : List W32) :
    s.actQm o act tids = act tids s := by
  have : (s.run.filter fun v => tids.contains v.th.ident.tid && !v.th.qm.isEmpty) = [] := by
    simp only [List.filter_eq_nil_iff, Bool.and_eq_true, not_and]
    intro v hv _
    simp [h v hv]
  rw [State.actQm]
  simp only [this, List.isEmpty_nil, if_true]

theorem each_quiet {s : State} (h : s.quiet) (o : Opnds) (f : View → View) :
    s.each o f = s.onTids s.issue.core s.tids fun v => f (o.noteUnseen v) := by
  rw [State.each, State.does, actQm_quiet h]

theorem crew_of_run {s : State} (h : s.run ≠ []) : ∃ c, s.crew? = some c := by
  cases hc : s.crew? with
  | none => simp [State.run, hc] at h
  | some c => exact ⟨c, rfl⟩

@[simp] theorem coreAt_id (s : State) (i : Nat) : (s.coreAt i).id = i := by
  rw [State.coreAt]
  cases h : s.cores.find? fun c => c.id == i with
  | none => rfl
  | some c => simpa using List.find?_some h

/-- The crew of the issuing core after an effect on some of its threads. -/
theorem crew_onTids (s : State) (tids : List W32) (f : View → View) :
    (s.onTids s.issue.core tids f).crew? = s.crew?.map fun c => c.onThreads (fun t => tids.contains t.ident.tid) f := by
  simp [State.crew?, State.onTids]

/-- What changes nothing but the issuing core's crew, and there the threads of the run as `f` says, changes its lanes alone. -/
theorem onlyLanes_of_crew {s t : State} (hne : s.run ≠ []) {f : View → View} {P : View → View → Prop} (hP : ∀ v, P v (f v))
    (hrest : { t with cores := s.cores } = s) (hother : ∀ i, i ≠ s.issue.core → t.coreAt i = s.coreAt i)
    (hcore : { t.coreAt s.issue.core with crew := none } = { s.coreAt s.issue.core with crew := none })
    (hcrew : t.crew? = s.crew?.map fun c => c.onThreads (fun t => s.tids.contains t.ident.tid) f) : s.onlyLanes t P := by
  obtain ⟨c, hc⟩ := crew_of_run hne
  refine ⟨hrest, hother, hcore, ?_⟩
  rw [hcrew, hc]
  simp only [Option.map_some, Crew.onThreads]
  have lanes : List.Forall₂ (fun x y => if s.tids.contains x.ident.tid = true then ∃ k, P ⟨x, c.k⟩ ⟨y, k⟩ else y = x) c.threads
      (c.threads.map fun t => if s.tids.contains t.ident.tid = true then (f ⟨t, c.k⟩).th else t) := by
    rw [List.forall₂_map_right_iff, List.forall₂_same]
    intro t _
    split
    · exact ⟨_, hP _⟩
    · rfl
  split
  · exact ⟨rfl, lanes, hP _⟩
  · exact ⟨rfl, lanes, rfl, rfl⟩

/-- A core that takes another's crew is that core but for its crew. -/
theorem withoutCrew_onCrew (c : Core) (f : Crew → Crew) : { c.onCrew f with crew := none } = { c with crew := none } := rfl

theorem withoutCrew_onTids (s : State) (i : Nat) (tids : List W32) (f : View → View) :
    { (s.onTids i tids f).coreAt i with crew := none } = { s.coreAt i with crew := none } := by
  rw [State.onTids, State.coreAt_onCore]
  conv_rhs => rw [← withoutCrew_onCrew (s.coreAt i) fun k => k.onThreads (fun t => tids.contains t.ident.tid) f]
  simp

/-- An effect on some threads of the issuing core is an effect on them alone. -/
theorem onTids_onlyLanes {s : State} (hne : s.run ≠ []) {f : View → View} {P : View → View → Prop} (hP : ∀ v, P v (f v)) :
    s.onlyLanes (s.onTids s.issue.core s.tids f) P :=
  onlyLanes_of_crew hne hP rfl (fun _ hi => s.coreAt_onCore_other _ _ _ hi) (withoutCrew_onTids ..) (crew_onTids ..)

theorem each_onlyLanes {s : State} (hne : s.run ≠ []) (hq : s.quiet) {o : Opnds} {f : View → View} {P : View → View → Prop}
    (hP : ∀ v, P v (f (o.noteUnseen v))) : s.onlyLanes (s.each o f) P := by
  rw [each_quiet hq]
  exact onTids_onlyLanes hne hP

/-- Settles O9: the effect goes to the threads of the run through `State.onTids`, which leaves the rest of the device alone. -/
theorem lanesAloneChange : Obligations.LanesAloneChange :=
  fun _ _ _ hne hq => each_onlyLanes hne hq fun _ => rfl

end Sys2Proof.Proofs
end

section
/-! PROOFS. What an instruction of its lanes alone leaves unchanged: the integer, floating-point, function, table and random
instructions and the conversions (R13, R68, R69). -/

namespace Sys2Proof.Proofs
open Sys2Proof Sys2Proof.Machine

/-! ### What an effect on one lane may change -/

/-- `View.keeps` for destinations given as a list: between `v` and `w` no register but those of `ds` has changed, no sticky flag but
those of `fl`, and nothing that `rest g` shows. -/
def Keeps (ds : List Dst) (fl : W32) (g : Thread → Thread) (v w : View) : Prop :=
  (∀ n, Dst.phys n ∉ ds → w.th.regs[n]? = v.th.regs[n]?) ∧
  (∀ n, Dst.uni n ∉ ds → w.k[n]? = v.k[n]?) ∧
  w.th.ctl.fpflags &&& ~~~fl = v.th.ctl.fpflags &&& ~~~fl ∧ v.th.ctl.fpflags &&& w.th.ctl.fpflags = v.th.ctl.fpflags ∧
  Thread.rest g w.th = Thread.rest g v.th

theorem keeps_iff (v w : View) (o : Opnds) (fl : W32) (g : Thread → Thread) :
    v.keeps w o fl g ↔ Keeps (o.writes v.th) fl g v w := Iff.rfl

section Keeps
variable {ds : List Dst} {fl : W32} {g : Thread → Thread} {u v w : View}

theorem Keeps.refl : Keeps ds fl g v v := ⟨fun _ _ => rfl, fun _ _ => rfl, rfl, BitVec.and_self, rfl⟩

theorem Keeps.trans (h : Keeps ds fl g u v) (k : Keeps ds fl g v w) : Keeps ds fl g u w := by
  obtain ⟨hr, hk, hf, hm, hg⟩ := h
  obtain ⟨kr, kk, kf, km, kg⟩ := k
  refine ⟨fun n hn => (kr n hn).trans (hr n hn), fun n hn => (kk n hn).trans (hk n hn), kf.trans hf, ?_, kg.trans hg⟩
  calc u.th.ctl.fpflags &&& w.th.ctl.fpflags
      = u.th.ctl.fpflags &&& v.th.ctl.fpflags &&& w.th.ctl.fpflags := by rw [hm]
    _ = u.th.ctl.fpflags &&& (v.th.ctl.fpflags &&& w.th.ctl.fpflags) := BitVec.and_assoc ..
    _ = u.th.ctl.fpflags := by rw [km, hm]

/-- A write of a register among the destinations. -/
theorem Keeps.put {d : Dst} (hd : d ∈ ds) (r : Reg) : Keeps ds fl g v (v.put d r) := by
  cases d with
  | drop => exact .refl
  | uni m =>
    refine ⟨fun _ _ => rfl, fun n hn => ?_, rfl, BitVec.and_self, rfl⟩
    exact List.getElem?_set_ne (by rintro rfl; exact hn hd)
  | phys m =>
    refine ⟨fun n hn => ?_, fun _ _ => rfl, rfl, BitVec.and_self, rfl⟩
    exact List.getElem?_set_ne (by rintro rfl; exact hn hd)

/-- An effect on the thread alone that touches neither registers nor flags. -/
theorem Keeps.onTh {f : Thread → Thread} (hr : (f v.th).regs = v.th.regs) (hf : (f v.th).ctl.fpflags = v.th.ctl.fpflags)
    (hg : Thread.rest g (f v.th) = Thread.rest g v.th) : Keeps ds fl g v (v.onTh f) :=
  ⟨fun n _ => by simp [View.onTh, hr], fun _ _ => rfl, by simp [View.onTh, hf], by simp [View.onTh, hf], hg⟩

/-- Sticky flags that the instruction may set. -/
theorem Keeps.flag {f : FFlags} (hf : f.setWidth 32 &&& ~~~fl = 0#32) : Keeps ds fl g v (v.onTh (·.flag f)) := by
  refine ⟨fun _ _ => rfl, fun _ _ => rfl, ?_, ?_, rfl⟩
  · show (v.th.ctl.fpflags ||| f.setWidth 32) &&& ~~~fl = _
    rw [BitVec.and_or_distrib_right, hf, BitVec.or_zero]
  · show v.th.ctl.fpflags &&& (v.th.ctl.fpflags ||| f.setWidth 32) = _
    ext i
    simp only [BitVec.getElem_and, BitVec.getElem_or]
    cases v.th.ctl.fpflags[i] <;> rfl

end Keeps

/-! ### Completion -/

/-- Level n of a thread at the end of its last iteration (R99). -/
def leftLevel (t : Thread) (n : Nat) : Thread :=
  { t.setLevel n { lc := 0#32, lb := setBit (t.level n).lb 0 false, copy := [] } with pc := (t.level n).stop + 4#64 }
/-- Level n of a thread that begins its next iteration. -/
def nextIteration (t : Thread) (n : Nat) : Thread :=
  { t.setLevel n { t.level n with lc := (t.level n).lc - 1#32 } with pc := (t.level n).start }
theorem loopEnd_zero (t : Thread) : t.loopEnd 0 = if (t.level 0).lc.toNat ≤ 1 then leftLevel t 0 else nextIteration t 0 := rfl
theorem loopEnd_succ (t : Thread) (n : Nat) : t.loopEnd (n + 1) =
    if (t.level (n + 1)).lc.toNat ≤ 1 then
      if ((leftLevel t (n + 1)).level n).stop = (t.level (n + 1)).stop then (leftLevel t (n + 1)).loopEnd n else leftLevel t (n + 1)
    else nextIteration t (n + 1) := rfl

/-- A thread without what every instruction may change. -/
def bare (t : Thread) : Thread := Thread.rest id t

theorem rest_of_bare {g : Thread → Thread} {t u : Thread} (h : bare u = bare t) : Thread.rest g u = Thread.rest g t :=
  congrArg g h

/-- UNSEEN and WSKIP stand outside the mask of `Thread.rest`. -/
theorem dbgctl_masked (x : W32) :
    setBit x 1 true &&& ~~~0xA#32 = x &&& ~~~0xA#32 ∧ setBit x 3 false &&& ~~~0xA#32 = x &&& ~~~0xA#32 := by
  constructor
  · rw [setBit, if_pos rfl, BitVec.and_or_distrib_right, show BitVec.ofNat 32 (2 ^ 1) &&& ~~~0xA#32 = 0#32 by decide, BitVec.or_zero]
  · rw [setBit, if_neg Bool.false_ne_true, BitVec.and_assoc, show ~~~BitVec.ofNat 32 (2 ^ 3) &&& ~~~0xA#32 = ~~~0xA#32 by decide]

theorem bare_setUnseen (t : Thread) : bare t.setUnseen = bare t := by
  simp only [bare, Thread.rest, Thread.setUnseen, (dbgctl_masked _).1]

theorem bare_clearWskip (t : Thread) : bare t.clearWskip = bare t := by
  simp only [bare, Thread.rest, Thread.clearWskip, (dbgctl_masked _).2]

theorem bare_setLevel (t : Thread) (n : Nat) (l : LoopLevel) : bare (t.setLevel n l) = bare t := by
  match n with
  | 0 | 1 | _ + 2 => rfl

theorem bare_pc (t : Thread) (a : W64) : bare { t with pc := a } = bare t := rfl

/-- The loop-end event changes the PC and the levels alone. -/
theorem bare_loopEnd (n : Nat) (t : Thread) : bare (t.loopEnd n) = bare t := by
  induction n generalizing t with
  | zero =>
    rw [loopEnd_zero]
    split <;> rfl
  | succ n ih =>
    rw [loopEnd_succ]
    split
    · split
      · rw [ih, leftLevel, bare_pc, bare_setLevel]
      · rw [leftLevel, bare_pc, bare_setLevel]
    · rw [nextIteration, bare_pc, bare_setLevel]

theorem bare_complete (t : Thread) (len : W64) : bare (t.complete len) = bare t := by
  simp only [Thread.complete]
  split
  · rw [bare_loopEnd, bare_pc, bare_clearWskip]
  · rw [bare_pc, bare_clearWskip]

theorem bare_jumpTo (t : Thread) (a : W64) : bare (t.jumpTo a) = bare t := by
  rw [Thread.jumpTo, bare_pc, bare_clearWskip]

/-- The registers and the flags of a thread. -/
def regFlags (t : Thread) : List Reg × W32 := (t.regs, t.ctl.fpflags)

theorem regFlags_setLevel (t : Thread) (n : Nat) (l : LoopLevel) : regFlags (t.setLevel n l) = regFlags t := by
  match n with
  | 0 | 1 | _ + 2 => rfl

theorem regFlags_loopEnd (n : Nat) (t : Thread) : regFlags (t.loopEnd n) = regFlags t := by
  induction n generalizing t with
  | zero =>
    rw [loopEnd_zero]
    split <;> rfl
  | succ n ih =>
    rw [loopEnd_succ]
    split
    · split
      · exact (ih _).trans (regFlags_setLevel t _ _)
      · exact regFlags_setLevel t _ _
    · exact regFlags_setLevel t _ _

theorem regFlags_complete (t : Thread) (len : W64) : regFlags (t.complete len) = regFlags t := by
  simp only [Thread.complete]
  split
  · rw [regFlags_loopEnd]
    rfl
  · rfl

/-! ### The pieces of an effect -/

section Pieces
variable {ds : List Dst} {fl : W32} {g : Thread → Thread} {v : View}

/-- What touches neither registers, flags nor the rest of the thread. -/
theorem Keeps.ofBare {f : Thread → Thread} (hr : regFlags (f v.th) = regFlags v.th) (hb : bare (f v.th) = bare v.th) :
    Keeps ds fl g v (v.onTh f) :=
  .onTh (congrArg Prod.fst hr) (congrArg Prod.snd hr) (rest_of_bare hb)

theorem Keeps.done (len : W64) : Keeps ds fl g v (v.done len) :=
  .ofBare (regFlags_complete v.th len) (bare_complete v.th len)

theorem Keeps.noteUnseen (o : Opnds) : Keeps ds fl g v (o.noteUnseen v) := by
  rw [Opnds.noteUnseen]
  split
  · exact .ofBare (f := Thread.setUnseen) rfl (bare_setUnseen v.th)
  · exact .refl

theorem Keeps.wr32 {d : Fld} (hd : v.th.ref d 0 ∈ ds) (x : W32) : Keeps ds fl g v (v.wr32 d x) := .put hd _

theorem Keeps.wr64 {d : Fld} (h0 : v.th.ref d 0 ∈ ds) (h1 : v.th.ref d 1 ∈ ds) (x : W64) : Keeps ds fl g v (v.wr64 d x) :=
  (Keeps.put h0 _).trans (.put h1 _)

theorem Keeps.markEmpty {l : List Dst} (hl : ∀ d ∈ l, d ∈ ds) : Keeps ds fl g v (v.markEmpty l) := by
  induction l generalizing v with
  | nil => exact .refl
  | cons d l ih =>
    exact (Keeps.put (hl d (by simp)) _).trans (ih fun x hx => hl x (by simp [hx]))

/-- A result that lands later takes a place among the pending ones, and the thread's next number. -/
theorem Keeps.produce {l : List Dst} (hl : ∀ d ∈ l, d ∈ ds) (kind : PendKind) (vals : Option (List W32)) (f : FFlags) (ts : List Nat)
    (hg : ∀ (t : Thread) (p : List Pending) (n : Nat), Thread.rest g { t with pending := p, serial := n } = Thread.rest g t) :
    Keeps ds fl g v (v.produce kind l vals f ts) :=
  (Keeps.markEmpty hl).trans (w := v.produce kind l vals f ts) ⟨fun _ _ => rfl, fun _ _ => rfl, rfl, BitVec.and_self, hg _ _ _⟩

end Pieces

/-- An operand's destinations are those of its thread's window. -/
theorem noteUnseen_ref (o : Opnds) (v : View) (f : Fld) (i : Nat) : (o.noteUnseen v).th.ref f i = v.th.ref f i := by
  rw [Opnds.noteUnseen]
  split <;> rfl

theorem mem_writes_single {o : Opnds} {d : Fld} (hd : o.dsts = [⟨d, 1⟩]) (v : View) :
    (o.noteUnseen v).th.ref d 0 ∈ o.writes v.th := by
  simp [Opnds.writes, hd, Thread.refs, noteUnseen_ref, List.range_succ]

theorem mem_writes_pair {o : Opnds} {d : Fld} (hd : o.dsts = [⟨d, 2⟩]) (v : View) :
    (o.noteUnseen v).th.ref d 0 ∈ o.writes v.th ∧ (o.noteUnseen v).th.ref d 1 ∈ o.writes v.th := by
  simp [Opnds.writes, hd, Thread.refs, noteUnseen_ref, List.range_succ]

/-! ### The frame of a row -/

/-- What every lane keeps, the run keeps. -/
theorem onlyLanes_of_keeps {r : LaneRow} {fl : W32} {g : Thread → Thread} {f : View → View} {s t : State}
    (hx : exec r.instr s = .next (s.lanes r.opn r.chk f))
    (hk : ∀ v, Keeps (r.opn.writes v.th) fl g (r.opn.noteUnseen v) (f (r.opn.noteUnseen v)))
    (hq : s.quiet) (hr : s.ready r.opn r.chk) (ht : exec r.instr s = .next t) : s.onlyLanes t fun v w => v.keeps w r.opn fl g := by
  rw [hx, State.lanes_ready hr] at ht
  obtain rfl : s.each r.opn f = t := by simpa using ht
  exact each_onlyLanes hr.1 hq fun v => (Keeps.noteUnseen _).trans (hk v)

theorem frame_of_keeps {r : LaneRow} {fl : W32} {g : Thread → Thread} {f : View → View}
    (hx : ∀ s, exec r.instr s = .next (s.lanes r.opn r.chk f))
    (hk : ∀ v, Keeps (r.opn.writes v.th) fl g (r.opn.noteUnseen v) (f (r.opn.noteUnseen v))) : r.frame fl g :=
  fun s _ hq hr ht => onlyLanes_of_keeps (hx s) hk hq hr ht

theorem frame_wr32 {r : LaneRow} {fl : W32} {g : Thread → Thread} {d : Fld} {len : W64} {F : View → W32} (hd : r.opn.dsts = [⟨d, 1⟩])
    (hx : ∀ s, exec r.instr s = .next (s.lanes r.opn r.chk fun v => (v.wr32 d (F v)).done len)) : r.frame fl g :=
  frame_of_keeps hx fun v => (Keeps.wr32 (mem_writes_single hd v) _).trans (.done _)

theorem frame_wr64 {r : LaneRow} {fl : W32} {g : Thread → Thread} {d : Fld} {len : W64} {F : View → W64} (hd : r.opn.dsts = [⟨d, 2⟩])
    (hx : ∀ s, exec r.instr s = .next (s.lanes r.opn r.chk fun v => (v.wr64 d (F v)).done len)) : r.frame fl g :=
  frame_of_keeps hx fun v =>
    (Keeps.wr64 (mem_writes_pair hd v).1 (mem_writes_pair hd v).2 _).trans (.done _)

/-- A row whose one result lands later. -/
theorem frame_later {r : LaneRow} {fl : W32} {g : Thread → Thread} {d : Fld} {len : W64} {kind : PendKind}
    {F : View → Option (List W32)} {G : View → FFlags} {ts : List Nat}
    (hg : ∀ (t : Thread) (p : List Pending) (n : Nat), Thread.rest g { t with pending := p, serial := n } = Thread.rest g t)
    (hd : r.opn.dsts = [⟨d, 1⟩])
    (hx : ∀ s, exec r.instr s =
      .next (s.lanes r.opn r.chk fun v => (v.produce kind [v.th.ref d 0] (F v) (G v) ts).done len)) : r.frame fl g :=
  frame_of_keeps hx fun v =>
    (Keeps.produce (by simpa using mem_writes_single hd v) _ _ _ _ hg).trans (.done _)

/-! ### The integer instructions (R80 to R92) -/

section Integer
variable {fl : W32} {g : Thread → Thread}

theorem aluRows_frame (o : R3) : ∀ r ∈ aluRows o, r.frame fl g := by
  simp only [aluRows, List.forall_mem_cons]
  refine ⟨?_, ?_, ?_, ?_, ?_, ?_, ?_, ?_, ?_, ?_, ?_, ?_, ?_, ?_, ?_, ?_, List.forall_mem_nil _⟩
  iterate 8 exact frame_wr32 rfl fun _ => rfl
  all_goals exact frame_wr64 rfl fun _ => rfl

theorem mulRows_frame (o : R3) : ∀ r ∈ mulRows o, r.frame fl g := by
  simp only [mulRows, List.forall_mem_cons]
  refine ⟨?_, ?_, ?_, ?_, List.forall_mem_nil _⟩
  iterate 3 exact frame_wr32 rfl fun _ => rfl
  · exact frame_wr64 rfl fun _ => rfl

theorem cmpRows_frame (o : R3) : ∀ r ∈ cmpRows o, r.frame fl g := by
  simp only [cmpRows, List.forall_mem_cons]
  refine ⟨?_, ?_, ?_, ?_, ?_, ?_, ?_, ?_, ?_, ?_, ?_, ?_, ?_, ?_, ?_, ?_, List.forall_mem_nil _⟩
  iterate 14 exact frame_wr32 rfl fun _ => rfl
  all_goals exact frame_wr64 rfl fun _ => rfl

theorem bitRows3_frame (o : R3) : ∀ r ∈ bitRows3 o, r.frame fl g := by
  simp only [bitRows3, List.forall_mem_cons]
  refine ⟨?_, ?_, ?_, ?_, List.forall_mem_nil _⟩
  all_goals exact frame_wr32 rfl fun _ => rfl

theorem bitRows2_frame (o : R2) : ∀ r ∈ bitRows2 o, r.frame fl g := by
  simp only [bitRows2, List.forall_mem_cons]
  refine ⟨?_, ?_, ?_, ?_, List.forall_mem_nil _⟩
  all_goals exact frame_wr32 rfl fun _ => rfl

theorem miscRows3_frame (o : R3) : ∀ r ∈ miscRows3 o, r.frame fl g := by
  simp only [miscRows3, List.forall_mem_cons]
  refine ⟨?_, List.forall_mem_nil _⟩
  exact frame_wr32 rfl fun _ => rfl

theorem miscRows2_frame (o : R2) : ∀ r ∈ miscRows2 o, r.frame fl g := by
  simp only [miscRows2, List.forall_mem_cons]
  refine ⟨?_, ?_, ?_, ?_, ?_, ?_, List.forall_mem_nil _⟩
  all_goals exact frame_wr32 rfl fun _ => rfl

theorem immRows_frame (o : I2) : ∀ r ∈ immRows o, r.frame fl g := by
  simp only [immRows, List.forall_mem_cons]
  refine ⟨?_, ?_, ?_, ?_, ?_, List.forall_mem_nil _⟩
  · exact frame_wr32 rfl fun _ => rfl
  · exact frame_wr64 rfl fun _ => rfl
  all_goals exact frame_wr32 rfl fun _ => rfl

theorem immXRows_frame (x : BitVec 26) (o : I2) : ∀ r ∈ immXRows x o, r.frame fl g := by
  simp only [immXRows, List.forall_mem_cons]
  refine ⟨?_, ?_, ?_, ?_, ?_, List.forall_mem_nil _⟩
  · exact frame_wr32 rfl fun _ => rfl
  · exact frame_wr64 rfl fun _ => rfl
  all_goals exact frame_wr32 rfl fun _ => rfl

theorem shift32Rows_frame (o : Sh5) : ∀ r ∈ shift32Rows o, r.frame fl g := by
  simp only [shift32Rows, List.forall_mem_cons]
  refine ⟨?_, ?_, ?_, ?_, List.forall_mem_nil _⟩
  all_goals exact frame_wr32 rfl fun _ => rfl

theorem shift64Rows_frame (o : Sh6) : ∀ r ∈ shift64Rows o, r.frame fl g := by
  simp only [shift64Rows, List.forall_mem_cons]
  refine ⟨?_, ?_, ?_, ?_, List.forall_mem_nil _⟩
  all_goals exact frame_wr64 rfl fun _ => rfl

theorem liRows_frame (o : LiOp) (x : BitVec 26) : ∀ r ∈ liRows o x, r.frame fl g := by
  simp only [liRows, List.forall_mem_cons]
  refine ⟨?_, ?_, ?_, ?_, List.forall_mem_nil _⟩
  · exact frame_wr32 rfl fun _ => rfl
  · exact frame_wr64 rfl fun _ => rfl
  · exact frame_wr32 rfl fun _ => rfl
  · exact frame_wr64 rfl fun _ => rfl

theorem leaRow_frame (o : RR3) : (leaRow o).frame fl g := frame_wr32 rfl fun _ => rfl

/-- UNPT writes its pair, and sets TRIT for some bytes (R88). -/
theorem unptRow_frame (o : R2) : (unptRow o).frame 32#32 g := by
  refine frame_of_keeps (fun _ => rfl) fun v => ?_
  obtain ⟨h0, h1⟩ := mem_writes_pair (o := (unptRow o).opn) (d := o.d) rfl v
  refine Keeps.trans ?_ (.done _)
  split
  · exact (Keeps.wr64 h0 h1 _).trans (.flag (by decide))
  · exact .wr64 h0 h1 _

/-- The divisions leave their destination empty and a result on its way (R79). -/
theorem divRows_frame (o : R3) : ∀ r ∈ divRows o, r.frame fl fun t => { t with pending := [], serial := 0 } := by
  simp only [divRows, List.forall_mem_cons]
  refine ⟨?_, ?_, ?_, ?_, List.forall_mem_nil _⟩
  all_goals exact frame_later (fun _ _ _ => rfl) rfl fun _ => rfl

end Integer

/-- Settles O15: table by table. -/
theorem integerFrame : Obligations.IntegerFrame := by
  intro o p i x m n l e
  refine ⟨?_, unptRow_frame p, divRows_frame o⟩
  simp only [List.forall_mem_append, List.forall_mem_singleton]
  exact ⟨⟨⟨⟨⟨⟨⟨⟨⟨⟨⟨⟨aluRows_frame o, mulRows_frame o⟩, cmpRows_frame o⟩, bitRows3_frame o⟩, bitRows2_frame p⟩, miscRows3_frame o⟩,
    miscRows2_frame p⟩, immRows_frame i⟩, immXRows_frame x i⟩, shift32Rows_frame m⟩, shift64Rows_frame n⟩, liRows_frame l x⟩,
    leaRow_frame e⟩

end Sys2Proof.Proofs
end

section
/-! PROOFS. What the floating-point, function, table and random instructions and the conversions leave unchanged (R67, R68, R77,
R107 to R127). -/

namespace Sys2Proof.Proofs
open Sys2Proof Sys2Proof.Machine

/-! ### Draws of the rounding stream (R66, R67) -/

/-- The frame of an instruction that may draw from the rounding stream. -/
def noRounding (t : Thread) : Thread := { t with str := { t.str with rngr := 0#32 } }

/-- `u` is `t` after draws of the rounding stream. -/
def Redrawn (t u : Thread) : Prop := ∃ x, u = { t with str := { t.str with rngr := x } }

theorem Redrawn.refl (t : Thread) : Redrawn t t := ⟨_, rfl⟩
theorem Redrawn.trans {t u w : Thread} (h : Redrawn t u) (k : Redrawn u w) : Redrawn t w := by
  obtain ⟨x, rfl⟩ := h
  obtain ⟨y, rfl⟩ := k
  exact ⟨y, rfl⟩

theorem roundDraw_redrawn (t : Thread) (m : Rnd) : Redrawn t (t.roundDraw m).2 := by
  rw [Thread.roundDraw]
  split
  · exact ⟨_, rfl⟩
  · exact .refl t

theorem roundElems_redrawn (fm : Fmt) (m : Rnd) (f : FOp) (x y z n : Nat) (t : Thread) :
    Redrawn t (roundElems fm m f x y z n t).2.2 := by
  induction n generalizing x y z t with
  | zero => exact .refl t
  | succ n ih => exact (roundDraw_redrawn t m).trans (ih _ _ _ _)

theorem elems_redrawn (c : CvtCode) (m : Rnd) (x n : Nat) (t : Thread) : Redrawn t (c.elems m x n t).2 := by
  induction n generalizing x t with
  | zero => exact .refl t
  | succ n ih => exact (roundDraw_redrawn t m).trans (ih _ _)

section Redrawn
variable {ds : List Dst} {fl : W32} {v w : View}

/-- Draws of the rounding stream are all that a lane's operands and flags do not show. -/
theorem Keeps.redrawn (h : Redrawn v.th w.th) (hk : w.k = v.k) : Keeps ds fl noRounding v w := by
  obtain ⟨t, k⟩ := w
  obtain ⟨x, hx⟩ := h
  subst hk
  obtain rfl : t = _ := hx
  exact ⟨fun _ _ => rfl, fun _ _ => rfl, rfl, BitVec.and_self, rfl⟩

theorem Redrawn.ref (h : Redrawn v.th w.th) (f : Fld) (i : Nat) : w.th.ref f i = v.th.ref f i := by
  obtain ⟨x, hx⟩ := h
  exact ref_congr (by rw [hx]) f i

end Redrawn

/-- The six sticky flags are all that an operation may set. -/
theorem allFlags_masked (f : FFlags) : f.setWidth 32 &&& ~~~63#32 = 0#32 := by
  ext i hi
  simp only [BitVec.getElem_and, BitVec.getElem_setWidth, BitVec.getElem_not, BitVec.getElem_zero]
  by_cases h : i < 6
  · have : i = 0 ∨ i = 1 ∨ i = 2 ∨ i = 3 ∨ i = 4 ∨ i = 5 := by omega
    rcases this with rfl | rfl | rfl | rfl | rfl | rfl <;> simp
  · simp [BitVec.getLsbD_of_ge f i (by omega)]

/-- A lane's sum, product or conversion: draws, a write of the destination, sticky flags, and completion. -/
theorem Keeps.rounded32 {ds : List Dst} {v w : View} {d : Fld} (h : Redrawn v.th w.th) (hk : w.k = v.k) (hd : v.th.ref d 0 ∈ ds)
    (x : W32) (f : FFlags) (len : W64) : Keeps ds 63#32 noRounding v (((w.wr32 d x).onTh (·.flag f)).done len) :=
  (Keeps.redrawn h hk).trans <| (Keeps.wr32 (by rwa [h.ref]) x).trans <| (Keeps.flag (allFlags_masked f)).trans (.done len)
theorem Keeps.rounded64 {ds : List Dst} {v w : View} {d : Fld} (h : Redrawn v.th w.th) (hk : w.k = v.k) (h0 : v.th.ref d 0 ∈ ds)
    (h1 : v.th.ref d 1 ∈ ds) (x : W64) (f : FFlags) (len : W64) :
    Keeps ds 63#32 noRounding v (((w.wr64 d x).onTh (·.flag f)).done len) :=
  (Keeps.redrawn h hk).trans <| (Keeps.wr64 (by rwa [h.ref]) (by rwa [h.ref]) x).trans <|
    (Keeps.flag (allFlags_masked f)).trans (.done len)

/-! ### Sums and products (R107, R108) -/

/-- The elements of a sum or product in the registers of a lane, with their flags and the thread after its draws. -/
def laneElems32 (o : RR3) (fm : Fmt) (n : Nat) (acc : Bool) (f : FOp) (v : View) : Nat × FFlags × Thread :=
  roundElems fm (v.th.rnd o.r) f (v.rd32 o.a).toNat (v.rd32 o.b).toNat (if acc then (v.rd32 o.d).toNat else 0) n v.th
def laneElems64 (o : RR3) (acc : Bool) (f : FOp) (v : View) : Nat × FFlags × Thread :=
  roundElems .f64 (v.th.rnd o.r) f (v.rd64 o.a).toNat (v.rd64 o.b).toNat (if acc then (v.rd64 o.d).toNat else 0) 1 v.th

theorem laneElems32_redrawn (o : RR3) (fm : Fmt) (n : Nat) (acc : Bool) (f : FOp) (v : View) :
    Redrawn v.th (laneElems32 o fm n acc f v).2.2 := roundElems_redrawn _ _ _ _ _ _ _ _
theorem laneElems64_redrawn (o : RR3) (acc : Bool) (f : FOp) (v : View) : Redrawn v.th (laneElems64 o acc f v).2.2 :=
  roundElems_redrawn _ _ _ _ _ _ _ _

theorem fp32_eq (o : RR3) (fm : Fmt) (n : Nat) (acc : Bool) (f : FOp) (s : State) : fp32 o fm n acc f s =
    .next (s.lanes { srcs := [.r o.a o.f, .r o.b o.g] ++ (if acc then [.r o.d false] else []), dsts := [⟨o.d, 1⟩] } noCheck fun v =>
      (((View.mk (laneElems32 o fm n acc f v).2.2 v.k).wr32 o.d (enc32 (laneElems32 o fm n acc f v).1)).onTh
        (·.flag (laneElems32 o fm n acc f v).2.1)).done 4#64) := rfl
theorem fp64_eq (o : RR3) (acc : Bool) (f : FOp) (s : State) : fp64 o acc f s =
    .next (s.lanes { srcs := [.p o.a o.f, .p o.b o.g] ++ (if acc then [.p o.d false] else []), dsts := [⟨o.d, 2⟩] } noCheck fun v =>
      (((View.mk (laneElems64 o acc f v).2.2 v.k).wr64 o.d (BitVec.ofNat 64 (laneElems64 o acc f v).1)).onTh
        (·.flag (laneElems64 o acc f v).2.1)).done 4#64) := rfl

theorem rowFp32_frame {o : RR3} {i : RR3 → Instr} {fm : Fmt} {n : Nat} {acc : Bool} {f : FOp} (f' : FOp)
    (hx : ∀ s, exec (i o) s = fp32 o fm n acc f' s) : (rowFp32 o i fm n acc f).frame 63#32 noRounding := by
  have hlanes := fun s => (hx s).trans (fp32_eq o fm n acc f' s)
  refine frame_of_keeps (r := rowFp32 o i fm n acc f) hlanes fun v => ?_
  have hd := mem_writes_single (o := (rowFp32 o i fm n acc f).opn) (d := o.d) rfl v
  refine Keeps.rounded32 ?_ ?_ hd _ _ _
  · exact laneElems32_redrawn o fm n acc f' _
  · rfl

theorem rowFp64_frame {o : RR3} {i : RR3 → Instr} {acc : Bool} {f : FOp} (f' : FOp)
    (hx : ∀ s, exec (i o) s = fp64 o acc f' s) : (rowFp64 o i acc f).frame 63#32 noRounding := by
  have hlanes := fun s => (hx s).trans (fp64_eq o acc f' s)
  refine frame_of_keeps (r := rowFp64 o i acc f) hlanes fun v => ?_
  obtain ⟨h0, h1⟩ := mem_writes_pair (o := (rowFp64 o i acc f).opn) (d := o.d) rfl v
  refine Keeps.rounded64 ?_ ?_ h0 h1 _ _ _
  · exact laneElems64_redrawn o acc f' _
  · rfl

theorem floatRows_frame (o : RR3) : ∀ r ∈ floatRows o, r.frame 63#32 noRounding := by
  simp only [floatRows, List.forall_mem_cons]
  exact ⟨rowFp32_frame opFadd fun _ => rfl, rowFp32_frame opFsub fun _ => rfl, rowFp32_frame opFmul fun _ => rfl,
    rowFp32_frame opFfma fun _ => rfl, rowFp64_frame opFadd fun _ => rfl, rowFp64_frame opFsub fun _ => rfl,
    rowFp64_frame opFmul fun _ => rfl, rowFp64_frame opFfma fun _ => rfl, rowFp32_frame opFadd fun _ => rfl,
    rowFp32_frame opFmul fun _ => rfl, rowFp32_frame opFfma fun _ => rfl, rowFp32_frame opFadd fun _ => rfl,
    rowFp32_frame opFmul fun _ => rfl, rowFp32_frame opFfma fun _ => rfl, List.forall_mem_nil _⟩

/-! ### Comparisons, minima and maxima (R109 to R111) -/

/-- A comparison sets NV at most. -/
def NvOnly (f : FFlags) : Prop := f.setWidth 32 &&& ~~~16#32 = 0#32

theorem nvOnly_nvIf (b : Bool) : NvOnly (nvIf b) := by
  rw [NvOnly]
  cases b <;> decide
theorem NvOnly.or {f g : FFlags} (hf : NvOnly f) (hg : NvOnly g) : NvOnly (f ||| g) := by
  rw [NvOnly, BitVec.setWidth_or, BitVec.and_or_distrib_right, hf, hg, BitVec.or_zero]

/-- A row that writes a register, or a pair, and sets flags. -/
theorem frame_flagged32 {r : LaneRow} {fl : W32} {g : Thread → Thread} {d : Fld} {len : W64} {F : View → W32} {G : View → FFlags}
    (hd : r.opn.dsts = [⟨d, 1⟩]) (hG : ∀ v, (G v).setWidth 32 &&& ~~~fl = 0#32)
    (hx : ∀ s, exec r.instr s = .next (s.lanes r.opn r.chk fun v => ((v.wr32 d (F v)).onTh (·.flag (G v))).done len)) : r.frame fl g :=
  frame_of_keeps hx fun v => (Keeps.wr32 (mem_writes_single hd v) _).trans ((Keeps.flag (hG _)).trans (.done _))
theorem frame_flagged64 {r : LaneRow} {fl : W32} {g : Thread → Thread} {d : Fld} {len : W64} {F : View → W64} {G : View → FFlags}
    (hd : r.opn.dsts = [⟨d, 2⟩]) (hG : ∀ v, (G v).setWidth 32 &&& ~~~fl = 0#32)
    (hx : ∀ s, exec r.instr s = .next (s.lanes r.opn r.chk fun v => ((v.wr64 d (F v)).onTh (·.flag (G v))).done len)) : r.frame fl g :=
  frame_of_keeps hx fun v =>
    (Keeps.wr64 (mem_writes_pair hd v).1 (mem_writes_pair hd v).2 _).trans ((Keeps.flag (hG _)).trans (.done _))

/-- What a relation says of two registers, or of two pairs, of a lane. -/
def laneRel32 (o : R3) (f : FRel) (v : View) : Bool × FFlags :=
  f (Fmt.f32.decode (v.rd32 o.a).toNat) (Fmt.f32.decode (v.rd32 o.b).toNat)
def laneRel64 (o : R3) (f : FRel) (v : View) : Bool × FFlags :=
  f (Fmt.f64.decode (v.rd64 o.a).toNat) (Fmt.f64.decode (v.rd64 o.b).toNat)

theorem fcmp32_eq (o : R3) (f : FRel) (s : State) : fcmp32 o f s = .next (s.lanes (opn32 o) noCheck fun v =>
    ((v.wr32 o.d (boolWord (laneRel32 o f v).1)).onTh (·.flag (laneRel32 o f v).2)).done 4#64) := rfl
theorem fcmp64_eq (o : R3) (f : FRel) (s : State) : fcmp64 o f s = .next (s.lanes (opnSet64 o) noCheck fun v =>
    ((v.wr32 o.d (boolWord (laneRel64 o f v).1)).onTh (·.flag (laneRel64 o f v).2)).done 4#64) := rfl

theorem rowFcmp32_frame {o : R3} {i : R3 → Instr} {g : Thread → Thread} {h nv : FVal → FVal → Bool} (f : FRel)
    (hf : ∀ x y, NvOnly (f x y).2) (hx : ∀ s, exec (i o) s = fcmp32 o f s) : (rowFcmp32 o i h nv).frame 16#32 g :=
  frame_flagged32 rfl (fun _ => hf _ _) fun s => (hx s).trans (fcmp32_eq o f s)
theorem rowFcmp64_frame {o : R3} {i : R3 → Instr} {g : Thread → Thread} {h nv : FVal → FVal → Bool} (f : FRel)
    (hf : ∀ x y, NvOnly (f x y).2) (hx : ∀ s, exec (i o) s = fcmp64 o f s) : (rowFcmp64 o i h nv).frame 16#32 g :=
  frame_flagged32 rfl (fun _ => hf _ _) fun s => (hx s).trans (fcmp64_eq o f s)
theorem rowFsel32_frame {o : R3} {i : R3 → Instr} {g : Thread → Thread} {h : Fmt → Nat → Nat → Nat} (big : Bool)
    (hx : ∀ s, exec (i o) s = fsel32 o big s) : (rowFsel32 o i h).frame 16#32 g :=
  frame_flagged32 rfl (fun _ => nvOnly_nvIf _) hx
theorem rowFsel64_frame {o : R3} {i : R3 → Instr} {g : Thread → Thread} {h : Fmt → Nat → Nat → Nat} (big : Bool)
    (hx : ∀ s, exec (i o) s = fsel64 o big s) : (rowFsel64 o i h).frame 16#32 g :=
  frame_flagged64 rfl (fun _ => nvOnly_nvIf _) hx

theorem nvOnly_relFeq (x y : FVal) : NvOnly (relFeq x y).2 := nvOnly_nvIf _
theorem nvOnly_relFlt (x y : FVal) : NvOnly (relFlt x y).2 := nvOnly_nvIf _
theorem nvOnly_relFle (x y : FVal) : NvOnly (relFle x y).2 := nvOnly_nvIf _
theorem nvOnly_relFunord (x y : FVal) : NvOnly (relFunord x y).2 := nvOnly_nvIf _

theorem fcmpRows_frame (o : R3) (p : R2) {g : Thread → Thread} : ∀ r ∈ fcmpRows o p, r.frame 16#32 g := by
  simp only [fcmpRows, List.forall_mem_cons]
  exact ⟨rowFcmp32_frame relFeq nvOnly_relFeq fun _ => rfl, rowFcmp32_frame relFlt nvOnly_relFlt fun _ => rfl,
    rowFcmp32_frame relFle nvOnly_relFle fun _ => rfl, rowFcmp32_frame relFunord nvOnly_relFunord fun _ => rfl,
    rowFsel32_frame false fun _ => rfl, rowFsel32_frame true fun _ => rfl, frame_wr32 rfl fun _ => rfl, frame_wr32 rfl fun _ => rfl,
    rowFcmp64_frame relFeq nvOnly_relFeq fun _ => rfl, rowFcmp64_frame relFlt nvOnly_relFlt fun _ => rfl,
    rowFcmp64_frame relFle nvOnly_relFle fun _ => rfl, rowFcmp64_frame relFunord nvOnly_relFunord fun _ => rfl,
    rowFsel64_frame false fun _ => rfl, rowFsel64_frame true fun _ => rfl, frame_wr32 rfl fun _ => rfl, frame_wr64 rfl fun _ => rfl,
    List.forall_mem_nil _⟩

/-- What an operation on elements makes of the low and the high elements of two registers. -/
def laneLow (o : R3) (fm : Fmt) (f : Nat → Nat → Nat × FFlags) (v : View) : Nat × FFlags :=
  f ((v.rd32 o.a).toNat % 2 ^ fm.width) ((v.rd32 o.b).toNat % 2 ^ fm.width)
def laneHigh (o : R3) (fm : Fmt) (f : Nat → Nat → Nat × FFlags) (v : View) : Nat × FFlags :=
  f ((v.rd32 o.a).toNat / 2 ^ fm.width) ((v.rd32 o.b).toNat / 2 ^ fm.width)

theorem packed2_eq (o : R3) (fm : Fmt) (f : Nat → Nat → Nat × FFlags) (s : State) : packed2 o fm f s =
    .next (s.lanes (opn32 o) noCheck fun v =>
      ((v.wr32 o.d (enc32 ((laneHigh o fm f v).1 * 2 ^ fm.width + (laneLow o fm f v).1))).onTh
        (·.flag ((laneLow o fm f v).2 ||| (laneHigh o fm f v).2))).done 4#64) := rfl

theorem rowPacked_frame {o : R3} {i : R3 → Instr} {fm : Fmt} {h : Nat → Nat → Nat} {nv : FVal → FVal → Bool} {g : Thread → Thread}
    (f : Nat → Nat → Nat × FFlags) (hf : ∀ x y, NvOnly (f x y).2) (hx : ∀ s, exec (i o) s = packed2 o fm f s) :
    (rowPacked o i fm h nv).frame 16#32 g :=
  frame_flagged32 rfl (fun _ => (hf _ _).or (hf _ _)) fun s => (hx s).trans (packed2_eq o fm f s)

theorem nvOnly_elemSel (fm : Fmt) (big : Bool) (x y : Nat) : NvOnly (elemSel fm big x y).2 := nvOnly_nvIf _
theorem nvOnly_elemRel (fm : Fmt) {f : FRel} (hf : ∀ x y, NvOnly (f x y).2) (x y : Nat) : NvOnly (elemRel fm f x y).2 := hf _ _

theorem packedRows_frame (o : R3) {g : Thread → Thread} : ∀ r ∈ packedRows o, r.frame 16#32 g := by
  simp only [packedRows, List.forall_mem_cons]
  exact ⟨rowPacked_frame (elemSel .f16 false) (nvOnly_elemSel _ _) fun _ => rfl,
    rowPacked_frame (elemSel .f16 true) (nvOnly_elemSel _ _) fun _ => rfl,
    rowPacked_frame (elemRel .f16 relFeq) (nvOnly_elemRel _ nvOnly_relFeq) fun _ => rfl,
    rowPacked_frame (elemRel .f16 relFlt) (nvOnly_elemRel _ nvOnly_relFlt) fun _ => rfl,
    rowPacked_frame (elemSel .bf16 false) (nvOnly_elemSel _ _) fun _ => rfl,
    rowPacked_frame (elemSel .bf16 true) (nvOnly_elemSel _ _) fun _ => rfl,
    rowPacked_frame (elemRel .bf16 relFeq) (nvOnly_elemRel _ nvOnly_relFeq) fun _ => rfl,
    rowPacked_frame (elemRel .bf16 relFlt) (nvOnly_elemRel _ nvOnly_relFlt) fun _ => rfl, List.forall_mem_nil _⟩

/-! ### Special functions and tables (R117, R120) -/

theorem sfuOp_eq (o : R2) (f : FVal → FVal × FFlags) (s : State) : sfuOp o f s = .next (s.lanes (opnUn o) noCheck fun v =>
    (v.produce .arith [v.th.ref o.d 0] (some [(sfu32 f (v.rd32 o.a)).1]) (sfu32 f (v.rd32 o.a)).2).done 4#64) := rfl

/-- The frame of a result that lands later. -/
def noPending (t : Thread) : Thread := { t with pending := [], serial := 0 }

theorem rest_noPending (t : Thread) (p : List Pending) (n : Nat) :
    Thread.rest noPending { t with pending := p, serial := n } = Thread.rest noPending t := rfl

theorem sfuRows_frame (o : R2) : ∀ r ∈ sfuRows o, r.frame 0#32 noPending := by
  simp only [sfuRows, List.forall_mem_cons]
  exact ⟨frame_later rest_noPending rfl fun s => sfuOp_eq o rcpVal s, frame_later rest_noPending rfl fun s => sfuOp_eq o rsqVal s,
    frame_later rest_noPending rfl fun s => sfuOp_eq o sqrtVal s, frame_later rest_noPending rfl fun s => sfuOp_eq o ex2Val s,
    frame_later rest_noPending rfl fun s => sfuOp_eq o lg2Val s, frame_later rest_noPending rfl fun s => sfuOp_eq o sinVal s,
    frame_later rest_noPending rfl fun s => sfuOp_eq o cosVal s, frame_later rest_noPending rfl fun s => sfuOp_eq o tanhVal s,
    List.forall_mem_nil _⟩

/-- The table that ACT reads, and what it makes of a lane's operand (R120). -/
def actTable (o : RT) (s : State) : ActTable := (s.coreAt s.issue.core).tableAt o.t.toNat
def laneAct (lin : Bool) (o : RT) (s : State) (v : View) : W32 × FFlags := actValue lin (actTable o s).bank (v.rd32 o.a)

theorem actOp_eq (lin : Bool) (o : RT) (s : State) : actOp lin o s =
    .next (s.lanes { srcs := [.r o.a o.f], dsts := [⟨o.d, 1⟩] }
      (fun _ => if (actTable o s).held then .wait (.swap o.t.toNat) else .ok) fun v =>
        (v.produce .arith [v.th.ref o.d 0] (some [(laneAct lin o s v).1]) (laneAct lin o s v).2 [o.t.toNat]).done 4#64) := rfl

/-- The row of one of the two forms. -/
noncomputable def actRow (o : RT) (s : State) (i : RT → Instr) (lin : Bool) : LaneRow :=
  ⟨i o, { srcs := [.r o.a o.f], dsts := [⟨o.d, 1⟩] }, fun v =>
    (v.produce .arith [v.th.ref o.d 0] (some [(laneAct lin o s v).1]) (laneAct lin o s v).2 [o.t.toNat]).done 4#64,
    fun _ => if (actTable o s).held then .wait (.swap o.t.toNat) else .ok⟩

theorem actRows_eq (o : RT) (s : State) : actRows o s = [actRow o s .actNear false, actRow o s .actLin true] := rfl

theorem actRow_frame {o : RT} {s u : State} {i : RT → Instr} {lin : Bool} (hx : exec (i o) s = actOp lin o s) (hq : s.quiet)
    (hr : s.ready (actRow o s i lin).opn (actRow o s i lin).chk) (hu : exec (i o) s = .next u) :
    s.onlyLanes u fun v w => v.keeps w (actRow o s i lin).opn 0#32 noPending := by
  refine onlyLanes_of_keeps (r := actRow o s i lin) (hx.trans (actOp_eq lin o s)) (fun v => ?_) hq hr hu
  have hd := mem_writes_single (o := (actRow o s i lin).opn) (d := o.d) rfl v
  exact (Keeps.produce (by simpa using hd) _ _ _ _ rest_noPending).trans (.done _)

theorem actRows_frame (o : RT) (s u : State) : ∀ r ∈ actRows o s, s.quiet → s.ready r.opn r.chk → exec r.instr s = .next u →
    s.onlyLanes u fun v w => v.keeps w r.opn 0#32 noPending := by
  rw [actRows_eq]
  simp only [List.forall_mem_cons]
  exact ⟨actRow_frame rfl, actRow_frame rfl, List.forall_mem_nil _⟩

/-! ### Random instructions (R123, R125 to R127) -/

/-- The frame of an instruction that moves the streams. -/
def noStreams (t : Thread) : Thread :=
  { t with pending := [], serial := 0, str := { t.str with rngd := 0#32, rngr := 0#32, episode := 0#32, step := 0#32 } }

/-- `f` moves the episode, the step and the counters of a thread, and nothing else. -/
def MovesStreams (f : Thread → Thread) : Prop :=
  ∀ t, ∃ a b c d, f t = { t with str := { t.str with rngd := a, rngr := b, episode := c, step := d } }

theorem Keeps.streams {ds : List Dst} {fl : W32} {v : View} {f : Thread → Thread} (hf : MovesStreams f) :
    Keeps ds fl noStreams v (v.onTh f) := by
  obtain ⟨a, b, c, d, hf⟩ := hf v.th
  rw [View.onTh, hf]
  exact ⟨fun _ _ => rfl, fun _ _ => rfl, rfl, BitVec.and_self, rfl⟩

theorem MovesStreams.ref {f : Thread → Thread} (hf : MovesStreams f) (v : View) (d : Fld) (i : Nat) :
    (v.onTh f).th.ref d i = v.th.ref d i := by
  obtain ⟨a, b, c, e, hf⟩ := hf v.th
  exact ref_congr (by rw [View.onTh, hf]) d i

theorem movesStreams_id : MovesStreams id := fun _ => ⟨_, _, _, _, rfl⟩
theorem movesStreams_drawData : MovesStreams fun t => t.drawData.2 := fun _ => ⟨_, _, _, _, rfl⟩
theorem MovesStreams.comp {f g : Thread → Thread} (hf : MovesStreams f) (hg : MovesStreams g) : MovesStreams fun t => g (f t) := by
  intro t
  obtain ⟨a, b, c, d, h⟩ := hf t
  obtain ⟨a', b', c', d', h'⟩ := hg (f t)
  exact ⟨a', b', c', d', h'.trans (by rw [h])⟩

/-- A row that moves the streams, and one whose result lands later besides. -/
theorem frame_streams {r : LaneRow} {fl : W32} {len : W64} {F : View → Thread → Thread} (hF : ∀ v, MovesStreams (F v))
    (hx : ∀ s, exec r.instr s = .next (s.lanes r.opn r.chk fun v => (v.onTh (F v)).done len)) : r.frame fl noStreams :=
  frame_of_keeps hx fun _ => (Keeps.streams (hF _)).trans (.done _)
theorem frame_drawn {r : LaneRow} {fl : W32} {d : Fld} {len : W64} {F : Thread → Thread} (hF : MovesStreams F) {W : View → W32}
    (hd : r.opn.dsts = [⟨d, 1⟩])
    (hx : ∀ s, exec r.instr s = .next (s.lanes r.opn r.chk fun v => ((v.onTh F).later32 d (W v)).done len)) : r.frame fl noStreams :=
  frame_of_keeps hx fun v => (Keeps.streams hF).trans <|
    (Keeps.produce (by rw [List.forall_mem_singleton, hF.ref]; exact mem_writes_single hd v) _ _ _ _ fun _ _ _ => rfl).trans (.done _)

theorem rngRows_frame (d : RD) (ab : RAB) (o : R2) (p : R3) : ∀ r ∈ rngRows d ab o p, r.frame 0#32 noStreams := by
  simp only [rngRows, List.forall_mem_cons]
  exact ⟨frame_drawn movesStreams_drawData rfl fun _ => rfl, frame_drawn movesStreams_drawData rfl fun _ => rfl,
    frame_drawn (movesStreams_drawData.comp movesStreams_drawData) rfl fun _ => rfl,
    frame_streams (fun _ _ => ⟨_, _, _, _, rfl⟩) fun _ => rfl, frame_drawn movesStreams_drawData rfl fun _ => rfl,
    frame_streams (fun _ _ => ⟨_, _, _, _, rfl⟩) fun _ => rfl, frame_streams (fun _ _ => ⟨_, _, _, _, rfl⟩) fun _ => rfl,
    frame_drawn movesStreams_id rfl fun _ => rfl, List.forall_mem_nil _⟩

/-- Settles O24: table by table. -/
theorem floatFrame : Obligations.FloatFrame := by
  intro s e o p t d ab
  refine ⟨floatRows_frame e, ?_, sfuRows_frame p, rngRows_frame d ab p o, fun r u hr => actRows_frame t s u r hr⟩
  rw [List.forall_mem_append]
  exact ⟨fcmpRows_frame o p, packedRows_frame o⟩

end Sys2Proof.Proofs
end

section
/-! PROOFS. The conversions (R77, R112 to R116). -/

namespace Sys2Proof.Proofs
open Sys2Proof Sys2Proof.Machine

/-- Every mnemonic is the conversion of its row (R113, R115). -/
theorem cvtRows_exec : ∀ r ∈ cvtRows, ∀ (o : RR2) (s : State), exec (r.1 o) s = .next (s.eachLane (cvtForm r.2 o)) := by
  simp only [cvtRows, List.forall_mem_cons]
  and_intros
  iterate 39 exact fun _ _ => rfl
  exact List.forall_mem_nil _

/-- What a conversion writes in a lane, once its elements are known. -/
theorem cvtLane_eq (c : CvtCode) (o : RR2) (v : View) : c.lane o v =
    ((if c.dstPair then (c.run o v).2.wr64 o.d (BitVec.ofNat 64 (joinElems c.ds (c.run o v).1))
      else (c.run o v).2.wr32 o.d (BitVec.ofNat 32 (joinElems c.ds (c.run o v).1))).onTh
      (·.flag ((c.run o v).1.foldl (fun f e => f ||| e.fl) 0))).done 4#64 := rfl

theorem cvtRun_redrawn (c : CvtCode) (o : RR2) (v : View) : Redrawn v.th (c.run o v).2.th := elems_redrawn _ _ _ _ _
theorem cvtRun_k (c : CvtCode) (o : RR2) (v : View) : (c.run o v).2.k = v.k := rfl

theorem cvtLane_keeps (c : CvtCode) (o : RR2) (v : View) :
    Keeps ((c.opnds o).writes v.th) 63#32 noRounding v (c.lane o ((c.opnds o).noteUnseen v)) := by
  refine (Keeps.noteUnseen (c.opnds o)).trans ?_
  rw [cvtLane_eq]
  split
  next h =>
    obtain ⟨h0, h1⟩ := mem_writes_pair (o := c.opnds o) (d := o.d) (by rw [CvtCode.opnds, if_pos h]) v
    exact Keeps.rounded64 (cvtRun_redrawn c o _) (cvtRun_k c o _) h0 h1 _ _ _
  next h =>
    have hd := mem_writes_single (o := c.opnds o) (d := o.d) (by rw [CvtCode.opnds, if_neg h]) v
    exact Keeps.rounded32 (cvtRun_redrawn c o _) (cvtRun_k c o _) hd _ _ _

/-- A conversion changes the lanes of its run, and the counters of its core's histogram unit. -/
theorem cvtForm_onlyLanes {c : CvtCode} {o : RR2} {s t : State} (hq : s.quiet) (hg : (cvtForm c o).goes s)
    (ht : (cvtForm c o).result s = t) :
    s.onlyLanes (t.onCore s.issue.core fun k => { k with hist := (s.coreAt s.issue.core).hist }) fun v w =>
      v.keeps w (c.opnds o) 63#32 noRounding := by
  subst ht
  rw [LaneForm.result, State.does, actQm_quiet hq]
  refine onlyLanes_of_crew hg.1 (f := fun v => c.lane o ((c.opnds o).noteUnseen v)) (cvtLane_keeps c o) rfl (fun i hi => ?_) ?_ ?_
  · rw [State.coreAt_onCore_other _ _ _ _ hi]
    exact (State.coreAt_onCore_other _ _ _ _ hi).trans (State.coreAt_onCore_other _ _ _ _ hi)
  · simp [cvtForm, LaneForm.of, State.onTids, Core.onCrew]
  · simp [cvtForm, LaneForm.of, State.onTids, State.crew?]

/-- Settles O26: each mnemonic is the conversion form of its row, and that form changes its lanes and the histogram alone. -/
theorem conversions : Obligations.Conversions := by
  refine fun s o => ⟨?_, fun r hr t hq hg ht => ?_⟩
  · intro r hr hg
    obtain ⟨c, hc, rfl⟩ := List.mem_map.1 hr
    rw [cvtRows_exec c hc, State.eachLane_passes _ hg]
  · rw [cvtRows_exec r hr, State.eachLane_passes _ hg] at ht
    exact cvtForm_onlyLanes hq hg (by simpa using ht)

end Sys2Proof.Proofs
end

section
/-! PROOFS. Transfers of control: bad targets (R9), LOOP and BRK (R98, R100). -/

namespace Sys2Proof.Proofs
open Sys2Proof Sys2Proof.Machine

/-! ### Runs that trap at a check of the card -/

/-- A check of the card whose failure the whole run takes, rather than each lane for itself (R351, R419). -/
def CardTrap (t : Trap) : Prop :=
  stageCard ≤ t.stage ∧ t.stage ≤ 1000 ∧ t.stage ≠ stageFault ∧ t.cause ≠ Cause.mcheck

theorem cardTrap_at {stage cause sub : Nat} {a : W64} (hs : stageCard ≤ stage ∧ stage ≤ 1000 ∧ stage ≠ stageFault)
    (hc : cause ≠ Cause.mcheck) : CardTrap (trapAt stage cause sub a) := ⟨hs.1, hs.2.1, hs.2.2, hc⟩
theorem cardTrap_open {stage cause sub : Nat} (hs : stageCard ≤ stage ∧ stage ≤ 1000 ∧ stage ≠ stageFault)
    (hc : cause ≠ Cause.mcheck) : CardTrap (trapOpen stage cause sub) := ⟨hs.1, hs.2.1, hs.2.2, hc⟩

theorem lanes_traps {s : State} {o : Opnds} {chk : View → Verdict} {op : View → View} {g : View → Trap}
    (ho : ∀ v ∈ s.run, o.verdict v = .ok) (h : s.allTrap chk g) (hg : ∀ v ∈ s.run, CardTrap (g v)) :
    s.lanes o chk op = s.trapped g := by
  obtain ⟨hne, hc, hagree⟩ := h
  obtain ⟨v, r, hr⟩ := List.exists_cons_of_ne_nil hne
  have hv : v ∈ s.run := by simp [hr]
  exact lanes_allTrap hne ho hc (fun w hw => hagree w hw v hv) (hg v hv)

theorem traps_of_lanes {r : LaneRow} {op : View → View} (hx : ∀ s, exec r.instr s = .next (s.lanes r.opn r.chk op))
    (hcard : ∀ v t, r.chk v = .trap t → CardTrap t) (s : State) (f : View → Trap) : r.traps s f := by
  intro ho hall
  rw [hx, lanes_traps ho hall fun v hv => hcard v _ (hall.2.1 v hv)]

/-! ### Targets (R9) -/

theorem targetVerdict_canon {a : W64} (h : canonical a = false) : targetVerdict a = .trap (trapAt stageCanon 6 0 a) := by
  simp [targetVerdict, h, Cause.prot]
theorem targetVerdict_align {a : W64} (h : canonical a = true) (ha : a.toNat % 4 ≠ 0) :
    targetVerdict a = .trap (trapAt stageAlign 4 0 a) := by
  simp [targetVerdict, h, ha, Cause.misalign]

theorem targetVerdict_card {a : W64} {t : Trap} (h : targetVerdict a = .trap t) : CardTrap t := by
  by_cases hc : canonical a = true
  · by_cases ha : a.toNat % 4 = 0
    · simp [targetVerdict, hc, ha] at h
    · rw [targetVerdict_align hc ha] at h
      obtain rfl := Verdict.trap.inj h
      exact cardTrap_at (by decide) (by decide)
  · rw [targetVerdict_canon (by simpa using hc)] at h
    obtain rfl := Verdict.trap.inj h
    exact cardTrap_at (by decide) (by decide)

/-! ### Offsets (R34, R35) -/

theorem relTarget_ofInt (a : W64) (n : Int) : relTarget a (BitVec.ofInt 64 n) = targetOf a n := by
  rw [relTarget, targetOf, BitVec.shiftLeft_eq_mul_twoPow, BitVec.ofInt_mul, BitVec.mul_comm]
  rfl

theorem relTarget_offB (a : W64) (o : BitVec 15) : relTarget a (offB o) = targetOf a (immB o) := relTarget_ofInt _ _
theorem relTarget_offJ (a : W64) (o : BitVec 26) : relTarget a (offJ o) = targetOf a (immJ o) := relTarget_ofInt _ _
theorem relTarget_offBX (a : W64) (x : BitVec 26) (o : BitVec 15) : relTarget a (offBX x o) = targetOf a (immBX x o) := by
  have : (x ++ o).toInt = immBX x o := by rw [BitVec.toInt_append, immBX, Int.mul_comm]; rfl
  rw [← this]
  exact relTarget_ofInt _ _
theorem relTarget_offJX (a : W64) (x o : BitVec 26) : relTarget a (offJX x o) = targetOf a (immJX x o) := by
  have : (x ++ o).toInt = immJX x o := by rw [BitVec.toInt_append, immJX, Int.mul_comm]; rfl
  rw [← this]
  exact relTarget_ofInt _ _

/-! ### Conditions of branches (R93) -/

theorem condEqz_iff (x : W32) : condEqz x = decide (x.toInt = 0) := by
  rw [condEqz, Bool.eq_iff_iff]
  simp [← BitVec.toInt_inj]
theorem condNez_iff (x : W32) : condNez x = decide (x.toInt ≠ 0) := by
  rw [condNez, Bool.eq_iff_iff]
  simp [← BitVec.toInt_inj]
theorem condLtz_iff (x : W32) : condLtz x = decide (x.toInt < 0) := rfl
theorem condGez_iff (x : W32) : condGez x = decide (x.toInt ≥ 0) := by
  simp [condGez, BitVec.slt_eq_decide, ← decide_not]
theorem condLez_iff (x : W32) : condLez x = decide (x.toInt ≤ 0) := rfl
theorem condGtz_iff (x : W32) : condGtz x = decide (x.toInt > 0) := by
  simp [condGtz, BitVec.sle_eq_decide, ← decide_not]

/-! ### The rows of transfers -/

/-- A branch is the instruction of its row. -/
theorem branch_eq {i : Instr} {o : B1} {sfe : Bool} {off : W64} {imm : Int} {len : W64} {taken : W32 → Bool} {c : Int → Bool}
    (hoff : ∀ a, relTarget a off = targetOf a imm) (hc : ∀ x, taken x = c x.toInt)
    (hx : ∀ s, exec i s = branch o.f o.a sfe off len taken s) (s : State) :
    exec i s = .next (s.lanes (rowBranch i o sfe imm len c).opn (rowBranch i o sfe imm len c).chk (rowBranch i o sfe imm len c).eff) := by
  rw [hx]
  simp only [branch, hoff, hc, rowBranch]

theorem rowBranch_card {i : Instr} {o : B1} {sfe : Bool} {imm : Int} {len : W64} {c : Int → Bool} (v : View) (t : Trap)
    (h : (rowBranch i o sfe imm len c).chk v = .trap t) : CardTrap t := by
  simp only [rowBranch] at h
  split at h
  · exact targetVerdict_card h
  · simp at h

section Rows
variable (s : State) (f : View → Trap)

theorem rowBranch_traps {i : Instr} {o : B1} {sfe : Bool} {off : W64} {imm : Int} {len : W64} {taken : W32 → Bool} {c : Int → Bool}
    (hoff : ∀ a, relTarget a off = targetOf a imm) (hc : ∀ x, taken x = c x.toInt)
    (hx : ∀ s, exec i s = branch o.f o.a sfe off len taken s) : (rowBranch i o sfe imm len c).traps s f :=
  traps_of_lanes (r := rowBranch i o sfe imm len c) (branch_eq hoff hc hx) rowBranch_card s f

theorem branchRows_traps (o : B1) : ∀ r ∈ branchRows o, r.traps s f := by
  have off := fun a => relTarget_offB a o.o
  simp only [branchRows, List.forall_mem_cons]
  exact ⟨rowBranch_traps s f off condEqz_iff fun _ => rfl, rowBranch_traps s f off condNez_iff fun _ => rfl,
    rowBranch_traps s f off condLtz_iff fun _ => rfl, rowBranch_traps s f off condGez_iff fun _ => rfl,
    rowBranch_traps s f off condLez_iff fun _ => rfl, rowBranch_traps s f off condGtz_iff fun _ => rfl,
    rowBranch_traps s f off condNez_iff fun _ => rfl, List.forall_mem_nil _⟩

theorem branchXRows_traps (x : BitVec 26) (o : B1) : ∀ r ∈ branchXRows x o, r.traps s f := by
  have off := fun a => relTarget_offBX a x o.o
  simp only [branchXRows, List.forall_mem_cons]
  exact ⟨rowBranch_traps s f off condEqz_iff fun _ => rfl, rowBranch_traps s f off condNez_iff fun _ => rfl,
    rowBranch_traps s f off condLtz_iff fun _ => rfl, rowBranch_traps s f off condGez_iff fun _ => rfl,
    rowBranch_traps s f off condLez_iff fun _ => rfl, rowBranch_traps s f off condGtz_iff fun _ => rfl,
    rowBranch_traps s f off condNez_iff fun _ => rfl, List.forall_mem_nil _⟩

/-- A jump is the instruction of its row. -/
theorem jump_eq {i : Instr} {off : W64} {imm : Int} {link : Option W64} (hoff : ∀ a, relTarget a off = targetOf a imm)
    (hx : ∀ s, exec i s = jump off link s) (s : State) :
    exec i s = .next (s.lanes (rowJump i imm link).opn (rowJump i imm link).chk (rowJump i imm link).eff) := by
  rw [hx]
  simp only [jump, hoff, rowJump]
  cases link <;> rfl

theorem rowJump_traps {i : Instr} {off : W64} {imm : Int} {link : Option W64} (hoff : ∀ a, relTarget a off = targetOf a imm)
    (hx : ∀ s, exec i s = jump off link s) : (rowJump i imm link).traps s f :=
  traps_of_lanes (r := rowJump i imm link) (jump_eq hoff hx) (fun _ _ => targetVerdict_card) s f

theorem jumpRows_traps (x : BitVec 26) (b : O15) (j : O26) : ∀ r ∈ jumpRows x b j, r.traps s f := by
  simp only [jumpRows, List.forall_mem_cons]
  exact ⟨rowJump_traps s f (fun a => relTarget_offB a b) fun _ => rfl, rowJump_traps s f (fun a => relTarget_offBX a x b) fun _ => rfl,
    rowJump_traps s f (fun a => relTarget_offJ a j) fun _ => rfl, rowJump_traps s f (fun a => relTarget_offJX a x j) fun _ => rfl,
    rowJump_traps s f (fun a => relTarget_offJ a j) fun _ => rfl, rowJump_traps s f (fun a => relTarget_offJX a x j) fun _ => rfl,
    List.forall_mem_nil _⟩

theorem regJumpRows_traps (a : RA) (o : R2) : ∀ r ∈ regJumpRows a o, r.traps s f := by
  simp only [regJumpRows, List.forall_mem_cons]
  exact ⟨traps_of_lanes (fun _ => rfl) (fun _ _ => targetVerdict_card) s f,
    traps_of_lanes (fun _ => rfl) (fun _ _ => targetVerdict_card) s f,
    traps_of_lanes (fun _ => rfl) (fun _ _ => targetVerdict_card) s f, List.forall_mem_nil _⟩

end Rows

/-- Settles O18: the two checks of a target, and every transfer makes the check of its row. -/
theorem badTargetTraps : Obligations.BadTargetTraps := by
  refine ⟨fun a => targetVerdict_canon, fun a => targetVerdict_align, fun s f x o b j a p => ?_⟩
  simp only [List.forall_mem_append]
  exact ⟨⟨⟨branchRows_traps s f o, branchXRows_traps s f x o⟩, jumpRows_traps s f x b j⟩, regJumpRows_traps s f a p⟩

/-! ### LOOP (R98) -/

theorem loopVerdict_outside {s : State} {core : Nat} {t : Thread} {n : BitVec 8}
    (h : t.loopDepth = 3 ∨ ∃ k, t.loopDepth = k + 1 ∧ ¬ ((t.level k).start.toNat ≤ (t.pc + 4#64).toNat ∧
      (t.pc + BitVec.ofNat 64 (4 * (n.toNat + 1))).toNat ≤ (t.level k).stop.toNat)) :
    s.loopVerdict core t n = .trap (trapAt 21 1 8 t.pc) := by
  rcases h with h | ⟨k, h, hk⟩
  · simp [State.loopVerdict, h, Cause.illegal]
  · simp only [State.loopVerdict, h]
    rw [if_pos (by rw [← Bool.decide_and, decide_eq_false hk]; simp)]
    rfl

/-- What LOOP makes of the last word of the body that it enters, as far as it could be fetched. -/
def bodyEndVerdict (pc : W64) : Except Verdict W32 → Verdict
  | .ok w => if bitsOf w 31 26 = 0x3F then .trap (trapAt 22 1 4 pc) else .ok
  | .error (.wait w) => .wait w
  | .error _ => .ok

theorem loopVerdict_inside {s : State} {core : Nat} {t : Thread} {n : BitVec 8} (h3 : t.loopDepth ≠ 3)
    (h : ∀ k, t.loopDepth = k + 1 → (t.level k).start.toNat ≤ (t.pc + 4#64).toNat ∧
      (t.pc + BitVec.ofNat 64 (4 * (n.toNat + 1))).toNat ≤ (t.level k).stop.toNat) :
    s.loopVerdict core t n = bodyEndVerdict t.pc (s.fetchWord core t (t.pc + BitVec.ofNat 64 (4 * (n.toNat + 1)))) := by
  cases hd : t.loopDepth with
  | zero =>
    simp only [State.loopVerdict, hd]
    rw [if_neg (by decide)]
    rcases s.fetchWord core t (t.pc + BitVec.ofNat 64 (4 * (n.toNat + 1))) with (_ | _ | _) | _ <;> rfl
  | succ k =>
    simp only [State.loopVerdict, hd, decide_eq_true (h k hd).1, decide_eq_true (h k hd).2]
    rw [if_neg (by simpa [hd] using h3)]
    rcases s.fetchWord core t (t.pc + BitVec.ofNat 64 (4 * (n.toNat + 1))) with (_ | _ | _) | _ <;> rfl

theorem enterLoop_eq (s : State) (o : LoopOp) : exec (.loop o) s =
    .next (s.lanes { srcs := [.r o.a o.f] } (s.loopCheck s.issue.core o) fun v =>
      v.onTh fun t => t.enterLoop (v.rd32 o.a) o.n (s.bodyWords s.issue.core t (t.pc + 4#64) (o.n.toNat + 1))) := rfl

/-- A lane that LOOP lets on: past the body, or at its first word with a new level. -/
theorem enterLoop_onTh (s : State) (o : LoopOp) (v : View) :
    (v.onTh fun t => t.enterLoop (v.rd32 o.a) o.n (s.bodyWords s.issue.core t (t.pc + 4#64) (o.n.toNat + 1))) =
    if v.rd32 o.a = 0#32 then v.onTh fun t => t.jumpTo (v.th.pc + BitVec.ofNat 64 (4 * (o.n.toNat + 1)) + 4#64)
    else v.onTh fun t => (t.setLevel t.loopDepth
        { lc := v.rd32 o.a, lb := LoopLevel.body (v.th.pc + 4#64) o.n,
          copy := s.bodyWords s.issue.core t (v.th.pc + 4#64) (o.n.toNat + 1) }).jumpTo (v.th.pc + 4#64) := by
  split
  next h => simp only [View.onTh, Thread.enterLoop, if_pos h]
  next h => simp only [View.onTh, Thread.enterLoop, if_neg h]

/-- Settles O19: LOOP is an instruction of its lanes alone, whose check asks for the nesting first and then for the last word. -/
theorem loopEntersItsBody : Obligations.LoopEntersItsBody := by
  intro s o start stop inner chk
  refine ⟨fun hr => ?_, fun v hd => ⟨fun hi => loopVerdict_outside ?_, fun ⟨h3, hnest⟩ => ?_⟩⟩
  · rw [enterLoop_eq, State.lanes_ready (chk := s.loopCheck s.issue.core o) hr]
    congr 2
    funext v
    exact enterLoop_onTh s o v
  · simp only [inner, not_and_or, Nat.not_lt] at hi
    rcases hi with h3 | hnest
    · exact .inl (Nat.le_antisymm hd h3)
    · obtain ⟨hpos, hk⟩ := Classical.not_imp.1 hnest
      exact .inr ⟨v.th.loopDepth - 1, (Nat.sub_add_cancel hpos).symm, by simpa only [not_and_or] using hk⟩
  · rw [loopVerdict_inside (Nat.ne_of_lt h3) fun k hk => by
      have hk' := hnest (by omega)
      rwa [hk] at hk']
    rcases s.fetchWord s.issue.core v.th (stop v) with (_ | _ | _) | _ <;> rfl

/-! ### BRK (R100) -/

theorem brk_eq (s : State) : exec .brk s = .next (s.lanes {} (fun v => brkVerdict v.th) fun v => v.onTh fun t =>
    (t.setLevel (t.loopDepth - 1) { lc := 0#32, lb := setBit (t.level (t.loopDepth - 1)).lb 0 false, copy := [] }).jumpTo
      ((t.level (t.loopDepth - 1)).stop + 4#64)) := rfl

/-- An instruction without operands passes their checks. -/
@[simp] theorem verdict_no_operands (v : View) : ({} : Opnds).verdict v = .ok :=
  verdict_ok.2 ⟨⟨⟨nofun, nofun⟩, nofun, nofun, nofun⟩, nofun, nofun, fun _ => nofun, nofun⟩

theorem brkVerdict_loop {t : Thread} (h : 0 < t.loopDepth) :
    brkVerdict t = targetVerdict ((t.level (t.loopDepth - 1)).stop + 4#64) := if_neg (Nat.ne_of_gt h)
theorem brkVerdict_outside {t : Thread} (h : t.loopDepth = 0) : brkVerdict t = .trap (trapAt 21 1 8 t.pc) := if_pos h

/-- Settles O20: BRK checks the level that it leaves, then the target behind it. -/
theorem breakLeavesTheLoop : Obligations.BreakLeavesTheLoop := by
  intro s behind
  refine ⟨fun hne h => ?_, fun hne h => ?_, fun hne h => ?_⟩ <;> rw [brk_eq]
  · refine congrArg _ (State.lanes_ready ⟨hne, fun v hv => ?_⟩ _)
    simp only [verdict_no_operands, brkVerdict_loop (h v hv).1]
    exact (h v hv).2
  · refine congrArg _ (lanes_traps (fun v _ => verdict_no_operands v) ⟨hne, fun v hv => ?_, fun _ _ _ _ => ⟨rfl, rfl⟩⟩ fun v hv => ?_)
    · exact (brkVerdict_loop (h v hv).1).trans (targetVerdict_canon (h v hv).2)
    · exact cardTrap_at (stage := stageCanon) (by decide) (by decide)
  · refine congrArg _ (lanes_traps (fun v _ => verdict_no_operands v) ⟨hne, fun v hv => ?_, fun _ _ _ _ => ⟨rfl, rfl⟩⟩ fun v hv => ?_)
    · exact brkVerdict_outside (h v hv)
    · exact cardTrap_at (stage := 21) (by decide) (by decide)

end Sys2Proof.Proofs
end

section
/-! PROOFS. Special registers (R17 to R21, R97), taking a trap (R28), returning from one (R30), and the traps of software and of
privileged instructions (R19, R356, R357). -/

namespace Sys2Proof.Proofs
open Sys2Proof Sys2Proof.Machine

/-! ### Special registers -/

/-- The low word of a value under a mask that lies in it. -/
theorem keep32_setWidth (mask : Nat) (x : W64) (h : mask < 2 ^ 32) : (keep32 mask x).setWidth 64 = x &&& BitVec.ofNat 64 mask := by
  apply BitVec.eq_of_getLsbD_eq
  intro i hi
  have hhigh : 32 ≤ i → mask.testBit i = false := fun hi =>
    Nat.testBit_lt_two_pow (Nat.lt_of_lt_of_le h (Nat.pow_le_pow_right (by decide) hi))
  simp only [keep32, lo32, BitVec.getLsbD_setWidth, BitVec.getLsbD_and, BitVec.getLsbD_extractLsb', BitVec.getLsbD_ofNat]
  by_cases h32 : i < 32
  · simp [h32, hi]
  · simp [h32, hi, hhigh (by omega)]

/-- What a write of %dbgctl leaves: UNINIT as written, and UNSEEN cleared by a 1. -/
theorem dbgctlWrite_bits (old : W32) (x : W64) :
    (dbgctlWrite old x).getLsbD 0 = x.getLsbD 0 ∧ (x.getLsbD 1 = true → (dbgctlWrite old x).getLsbD 1 = false) := by
  constructor
  · simp [dbgctlWrite, keep32, lo32]
  · intro h
    simp [dbgctlWrite, keep32, lo32, h]

/-- The registers of a thread that software may write: whole words, wide ones, those with bits of access RSV, %dqpos and %dbgctl. -/
def writtenRegs : List Nat :=
  [0x00B, 0x00C, 0x00D, 0x010, 0x011, 0x012, 0x013, 0x020, 0x025, 0x026, 0x027, 0x029, 0x02A, 0x02B, 0x040, 0x042, 0x045, 0x047,
    0x052, 0x410, 0x412, 0x415, 0x416] ++
  [0x028, 0x031, 0x034, 0x035, 0x041, 0x044, 0x046, 0x400, 0x402, 0x407, 0x411, 0x414] ++
  [0x021, 0x022, 0x030, 0x401, 0x036, 0x02C, 0x02D, 0x02E, 0x043, 0x413] ++ [0x02F, 0x053]

theorem srWriteThread_other {n : Nat} (h : n ∉ writtenRegs) (x : W64) (t : Thread) : srWriteThread n x t = t := by
  unfold srWriteThread
  split
  case h_48 => rfl
  all_goals exact absurd (by decide) h

/-- Settles O35: register by register. -/
theorem specialRegistersReadBack : Obligations.SpecialRegistersReadBack := by
  intro e t x whole wide parts
  refine ⟨?_, ?_, ?_, rfl, ?_, ?_, ?_⟩
  · simp only [whole, List.forall_mem_cons]
    and_intros
    iterate 23 exact rfl
    exact List.forall_mem_nil _
  · simp only [wide, List.forall_mem_cons]
    and_intros
    iterate 12 exact rfl
    exact List.forall_mem_nil _
  · simp only [parts, List.forall_mem_cons]
    exact ⟨keep32_setWidth _ x (by decide), keep32_setWidth _ x (by decide), keep32_setWidth _ x (by decide),
      keep32_setWidth _ x (by decide), keep32_setWidth _ x (by decide), rfl, rfl, rfl, rfl, rfl, List.forall_mem_nil _⟩
  · have h := (dbgctlWrite_bits t.ctl.dbgctl x).1
    show ((dbgctlWrite t.ctl.dbgctl x).setWidth 64).toNat % 2 = x.toNat % 2
    have hmod (a b : Nat) (hab : a.testBit 0 = b.testBit 0) : a % 2 = b % 2 := by
      rw [Nat.testBit_zero, Nat.testBit_zero, decide_eq_decide] at hab
      omega
    rw [BitVec.toNat_setWidth_of_le (by decide)]
    exact hmod _ _ h
  · intro h
    show ((dbgctlWrite t.ctl.dbgctl x).setWidth 64).getLsbD 1 = false
    simpa using (dbgctlWrite_bits t.ctl.dbgctl x).2 h
  · intro n h1 h2 h3 h4 h5
    refine srWriteThread_other ?_ x t
    simp only [writtenRegs, List.mem_append, not_or, List.mem_cons, List.not_mem_nil, not_false_eq_true, and_true]
    exact ⟨⟨⟨by simpa [whole] using h1, by simpa [wide] using h2⟩, by simpa [parts, eq_comm] using h3⟩, h4, h5⟩

/-! ### Trap entry (R28) -/

theorem getLsbD_setBit {w : Nat} (x : BitVec w) {n i : Nat} (b : Bool) (hi : i < w) :
    (setBit x n b).getLsbD i = if i = n then b else x.getLsbD i := by
  have hbit : (BitVec.ofNat w (2 ^ n)).getLsbD i = decide (i = n) := by
    simp only [BitVec.getLsbD_ofNat, hi, decide_true, Bool.true_and, Nat.testBit_two_pow, eq_comm]
  cases b
  · rw [setBit, if_neg Bool.false_ne_true, BitVec.getLsbD_and, BitVec.getLsbD_not, hbit]
    by_cases h : i = n <;> simp [h, hi]
  · rw [setBit, if_pos rfl, BitVec.getLsbD_or, hbit]
    by_cases h : i = n <;> simp [h]

/-- The bits of %mode after a write of one of them. -/
theorem mode_withMode (t : Thread) {n i : Nat} (b : Bool) (hi : i < 32) :
    (t.withMode n b).mode.getLsbD i = if i = n then b else t.mode.getLsbD i := getLsbD_setBit t.mode b hi

/-- A thread that leaves its instruction for a handler. -/
def leaving (t : Thread) : Thread :=
  let t := match t.status with
    | .parked (.barrier l) => t.setRW l
    | _ => t
  { t.clearWskip with depth := t.depth + 1, owed := false, answer := none, crossed := none }

/-- Whether a trap goes to the user handler of the thread. -/
def toUser (t : Thread) (r : TrapRegs) : Prop :=
  bitsOf r.cause 7 0 ∈ [1, 2, 3, 4, 7, 8, 10, 12] ∧ t.uhandler ≠ 0#64 ∧ t.modeS = false ∧ t.modeUH = false

/-- What leaving keeps: all but %bpend, %dbgctl and the notes of the instruction. -/
theorem leaving_keeps (t : Thread) : (leaving t).regs = t.regs ∧ (leaving t).ra = t.ra ∧ (leaving t).ctl.fpflags = t.ctl.fpflags ∧
    (leaving t).ut = t.ut ∧ (leaving t).kt = t.kt ∧ (leaving t).mode = t.mode ∧ (leaving t).uhandler = t.uhandler ∧
    (leaving t).khandler = t.khandler := by
  simp only [leaving]
  split <;> exact ⟨rfl, rfl, rfl, rfl, rfl, rfl, rfl, rfl⟩

theorem enterTrap_eq (t : Thread) (r : TrapRegs) : t.enterTrap r =
    if userCause (bitsOf r.cause 7 0) && (leaving t).uhandler != 0#64 && !(leaving t).modeS && !(leaving t).modeUH then
      { (leaving t).withMode 2 true with ut := r, pc := (leaving t).uhandler }
    else { (((leaving t).withMode 1 (leaving t).modeS).withMode 0 true).withMode 3 false with kt := r, pc := (leaving t).khandler } :=
  rfl

theorem toUser_iff (t : Thread) (r : TrapRegs) : toUser t r ↔
    (userCause (bitsOf r.cause 7 0) && (leaving t).uhandler != 0#64 && !(leaving t).modeS && !(leaving t).modeUH) = true := by
  obtain ⟨-, -, -, -, -, hmode, hhand, -⟩ := leaving_keeps t
  simp only [toUser, userCause, hhand, Thread.modeS, Thread.modeUH, hmode, Bool.and_eq_true, decide_eq_true_eq, bne_iff_ne,
    Bool.not_eq_true', and_assoc]

theorem enterTrap_user {t : Thread} {r : TrapRegs} (h : toUser t r) :
    t.enterTrap r = { (leaving t).withMode 2 true with ut := r, pc := (leaving t).uhandler } := by
  rw [enterTrap_eq, if_pos ((toUser_iff t r).1 h)]

theorem enterTrap_system {t : Thread} {r : TrapRegs} (h : ¬ toUser t r) : t.enterTrap r =
    { (((leaving t).withMode 1 (leaving t).modeS).withMode 0 true).withMode 3 false with kt := r, pc := (leaving t).khandler } := by
  rw [enterTrap_eq, if_neg (mt (toUser_iff t r).2 h)]

/-- Settles O36: a thread leaves its instruction, and then enters one handler or the other. -/
theorem trapEntrySavesAndRedirects : Obligations.TrapEntrySavesAndRedirects := by
  intro t r u user
  obtain ⟨hregs, hra, hflags, hut, hkt, hmode, huh, hkh⟩ := leaving_keeps t
  by_cases h : toUser t r
  · have hu : u = _ := enterTrap_user h
    rw [hu]
    refine ⟨hregs, hra, hflags, fun _ => ⟨rfl, hkt, huh, ?_, ?_⟩, fun hn => absurd h hn⟩
    · exact (mode_withMode _ true (by decide)).trans rfl
    · exact (mode_withMode _ true (by decide)).trans ((congrArg (BitVec.getLsbD · 0) hmode).trans h.2.2.1)
  · have hu : u = _ := enterTrap_system h
    rw [hu]
    refine ⟨hregs, hra, hflags, fun hn => absurd hn h, fun _ => ⟨rfl, hut, hkh, ?_, ?_, ?_, ?_⟩⟩
    all_goals simp only [Thread.modeS, Thread.modePS, Thread.modeUH, mode_withMode, hmode, Nat.reduceLT, Nat.reduceEqDiff, if_true,
      if_false]

end Sys2Proof.Proofs
end

section
/-! PROOFS. Loop-end events (R99) and ERET (R30); TRAP, BKPT and the privileged instructions in user mode (R19, R356, R357). -/

namespace Sys2Proof.Proofs
open Sys2Proof Sys2Proof.Machine

/-! ### The loop levels under a loop-end event -/

theorem level_setLevel_same (t : Thread) (n : Nat) (l : LoopLevel) : (t.setLevel n l).level n = l := by
  match n with
  | 0 | 1 | _ + 2 => rfl

theorem level_setLevel_ne (t : Thread) {n j : Nat} (hn : n ≤ 2) (hj : j ≤ 2) (h : j ≠ n) (l : LoopLevel) :
    (t.setLevel n l).level j = t.level j := by
  match n, j, hn, hj, h with
  | 0, 1, _, _, _ | 0, 2, _, _, _ | 1, 0, _, _, _ | 1, 2, _, _, _ | 2, 0, _, _, _ | 2, 1, _, _, _ => rfl
  | 2, _ + 2, _, hj, h => exact absurd (by omega) h

/-- The level that `leftLevel` leaves behind. -/
theorem leftLevel_same (t : Thread) (n : Nat) : ((leftLevel t n).level n).lc = 0#32 ∧ ((leftLevel t n).level n).act = false := by
  have h : (leftLevel t n).level n = { lc := 0#32, lb := setBit (t.level n).lb 0 false, copy := [] } := level_setLevel_same t n _
  rw [h]
  exact ⟨rfl, (getLsbD_setBit _ false (by decide)).trans rfl⟩

theorem leftLevel_ne (t : Thread) {n j : Nat} (hn : n ≤ 2) (hj : j ≤ 2) (h : j ≠ n) : (leftLevel t n).level j = t.level j :=
  level_setLevel_ne t hn hj h _

theorem nextIteration_ne (t : Thread) {n j : Nat} (hn : n ≤ 2) (hj : j ≤ 2) (h : j ≠ n) : (nextIteration t n).level j = t.level j :=
  level_setLevel_ne t hn hj h _

/-- The levels that lie inside the one that ends have ended before, and stay so. -/
theorem loopEnd_above (n : Nat) (t : Thread) {j : Nat} (hn : n < j) (hj : j ≤ 2) : (t.loopEnd n).level j = t.level j := by
  induction n generalizing t with
  | zero =>
    rw [loopEnd_zero]
    split
    · exact leftLevel_ne t (by omega) hj (by omega)
    · exact nextIteration_ne t (by omega) hj (by omega)
  | succ n ih =>
    rw [loopEnd_succ]
    split
    · split
      · exact (ih _ (by omega)).trans (leftLevel_ne t (by omega) hj (by omega))
      · exact leftLevel_ne t (by omega) hj (by omega)
    · exact nextIteration_ne t (by omega) hj (by omega)

/-- A level that has iterations left begins its next one. -/
theorem loopEnds_next {t : Thread} {n : Nat} (hn : n ≤ 2) (h : ¬ (t.level n).lc.toNat ≤ 1) : t.loopEnds (nextIteration t n) n := by
  intro k hk _ hlast
  obtain rfl : k = n := by
    by_contra hne
    exact h (hlast n (by omega) (Nat.le_refl n))
  have hlevel : (nextIteration t k).level k = { t.level k with lc := (t.level k).lc - 1#32 } := level_setLevel_same t k _
  refine ⟨fun j hj hj' => by omega, fun _ => ⟨rfl, by rw [hlevel], by rw [hlevel]⟩, fun hlc => absurd hlc h, fun _ j hj => ?_⟩
  exact nextIteration_ne t hn (by omega) (by omega)

/-- A level that ends with no other around it is left. -/
theorem loopEnds_left {t : Thread} {n : Nat} (hn : n ≤ 2) (h : (t.level n).lc.toNat ≤ 1)
    (halone : n = 0 ∨ (t.level (n - 1)).stop ≠ (t.level n).stop) : t.loopEnds (leftLevel t n) n := by
  intro k hk hstop _
  obtain rfl : k = n := by
    rcases halone with h0 | hne
    · omega
    · by_contra hk'
      exact hne (hstop (n - 1) (by omega) (by omega))
  obtain ⟨hlc, hact⟩ := leftLevel_same t k
  exact ⟨fun j hj hj' => by omega, fun hlt => by omega, fun _ => ⟨hlc, hact, fun _ => rfl⟩,
    fun _ j hj => leftLevel_ne t hn (by omega) (by omega)⟩

/-- A level that ends together with the one around it hands the event on. -/
theorem loopEnds_outer {t : Thread} {n : Nat} (hn : n + 1 ≤ 2) (h : (t.level (n + 1)).lc.toNat ≤ 1)
    (hstop : (t.level n).stop = (t.level (n + 1)).stop) (ih : (leftLevel t (n + 1)).loopEnds ((leftLevel t (n + 1)).loopEnd n) n) :
    t.loopEnds ((leftLevel t (n + 1)).loopEnd n) (n + 1) := by
  have hsame : ∀ j ≤ n, (leftLevel t (n + 1)).level j = t.level j := fun j hj => leftLevel_ne t hn (by omega) (by omega)
  have hleft : (((leftLevel t (n + 1)).loopEnd n).level (n + 1)).lc = 0#32 ∧
      (((leftLevel t (n + 1)).loopEnd n).level (n + 1)).act = false := by
    rw [loopEnd_above n _ (by omega) hn]
    exact leftLevel_same t (n + 1)
  intro k hk hs hlast
  rcases Nat.eq_or_lt_of_le hk with rfl | hlt
  · have hne : ¬ (n + 1 = 0 ∨ (t.level (n + 1 - 1)).stop ≠ (t.level (n + 1)).stop) := by simp [hstop]
    exact ⟨fun j hj hj' => by omega, fun hlt => by omega, fun _ => ⟨hleft.1, hleft.2, fun hc => absurd hc hne⟩,
      fun hc => absurd (hc.resolve_left (by omega)) hne⟩
  · have hk' : k ≤ n := by omega
    obtain ⟨hin, hnext, hend, hout⟩ := ih k hk'
      (fun j hj hj' => by rw [hsame j hj', hsame n (Nat.le_refl n), hs j hj (by omega), hstop])
      (fun j hj hj' => by rw [hsame j hj']; exact hlast j hj (by omega))
    rw [hsame k hk', hsame n (Nat.le_refl n), hsame (k - 1) (by omega), hstop] at *
    refine ⟨fun j hj hj' => ?_, hnext, hend, fun hc j hj => ?_⟩
    · rcases Nat.eq_or_lt_of_le hj' with rfl | hlt'
      · exact hleft
      · exact hin j hj (by omega)
    · rw [hout hc j hj, hsame j (by omega)]

/-- The loop-end event of level n (R99). -/
theorem loopEnd_ends (n : Nat) (t : Thread) (hn : n ≤ 2) : t.loopEnds (t.loopEnd n) n := by
  induction n generalizing t with
  | zero =>
    rw [loopEnd_zero]
    split
    next h => exact loopEnds_left hn h (.inl rfl)
    next h => exact loopEnds_next hn h
  | succ n ih =>
    rw [loopEnd_succ, leftLevel_ne t (j := n) hn (by omega) (by omega)]
    split
    next h =>
      split
      next hstop => exact loopEnds_outer hn h hstop (ih _ (by omega))
      next hstop => exact loopEnds_left hn h (.inr hstop)
    next h => exact loopEnds_next hn h

theorem loopDepth_le (t : Thread) : t.loopDepth ≤ 3 := by
  rw [Thread.loopDepth]
  split <;> split <;> split <;> decide

/-! ### ERET (R30) -/

/-- A thread that has left its handler, before the loop-end event that may follow. -/
def returning (t : Thread) : Thread :=
  { (if t.modeS then { t with depth := t.depth - 1 }.withMode 0 t.modePS else { t with depth := t.depth - 1 }.withMode 2 false) with
    pc := if t.modeS then t.kt.pc else t.ut.pc }

theorem eret_eq (t : Thread) : t.eret =
    if (returning t).loopDepth > 0 && ((returning t).level ((returning t).loopDepth - 1)).stop + 4#64 == (returning t).pc then
      (returning t).loopEnd ((returning t).loopDepth - 1) else returning t := rfl

/-- What the return keeps: all but the mode, the PC and the nesting of traps. -/
theorem returning_keeps (t : Thread) : (returning t).regs = t.regs ∧ (returning t).kt = t.kt ∧ (returning t).ut = t.ut ∧
    (returning t).ctl = t.ctl ∧ (returning t).l0 = t.l0 ∧ (returning t).l1 = t.l1 ∧ (returning t).l2 = t.l2 := by
  simp only [returning]
  split <;> exact ⟨rfl, rfl, rfl, rfl, rfl, rfl, rfl⟩

theorem returning_level (t : Thread) (n : Nat) : (returning t).level n = t.level n := by
  obtain ⟨-, -, -, -, h0, h1, h2⟩ := returning_keeps t
  match n with
  | 0 => exact h0
  | 1 => exact h1
  | _ + 2 => exact h2

theorem returning_loopDepth (t : Thread) : (returning t).loopDepth = t.loopDepth := by
  obtain ⟨-, -, -, -, h0, h1, h2⟩ := returning_keeps t
  simp only [Thread.loopDepth, h0, h1, h2]

theorem returning_modeS {t : Thread} (h : t.modeS = true) :
    (returning t).modeS = t.modePS ∧ (returning t).modeUH = t.modeUH := by
  simp only [returning, if_pos h]
  exact ⟨(mode_withMode _ _ (by decide)).trans rfl, (mode_withMode _ _ (by decide)).trans rfl⟩

theorem returning_user {t : Thread} (h : t.modeS = false) : (returning t).modeUH = false ∧ (returning t).modeS = false := by
  simp only [returning, if_neg (Bool.eq_false_iff.1 h)]
  exact ⟨(mode_withMode _ _ (by decide)).trans rfl, (mode_withMode _ _ (by decide)).trans h⟩

/-- ERET returns; a loop-end event changes the PC and the levels alone. -/
theorem bare_eret (t : Thread) : bare t.eret = bare (returning t) ∧ regFlags t.eret = regFlags (returning t) := by
  rw [eret_eq]
  split
  · exact ⟨bare_loopEnd _ _, regFlags_loopEnd _ _⟩
  · exact ⟨rfl, rfl⟩

theorem mode_of_bare {t u : Thread} (h : bare t = bare u) : t.mode = u.mode ∧ t.kt = u.kt ∧ t.ut = u.ut :=
  ⟨congrArg (·.mode) h, congrArg (·.kt) h, congrArg (·.ut) h⟩

theorem loopEnds_congr {t u v : Thread} {n : Nat} (h : ∀ j, t.level j = u.level j) (hu : u.loopEnds v n) : t.loopEnds v n := by
  simpa only [Thread.loopEnds, h] using hu

theorem eret_traps {s : State} (hne : s.run ≠ []) (h : ∀ v ∈ s.run, v.th.modeS = false ∧ v.th.modeUH = false) :
    exec .eret s = .next (s.trapped fun _ => trapOpen stageCard 1 12) := by
  have hv : ∀ v ∈ s.run, (eretForm s).verdict v = .trap (trapOpen stageCard 1 12) := by
    intro v hv
    have he : eretVerdict v.th = .trap (trapOpen stageCard 1 12) := if_pos (by simp [h v hv])
    simp [eretForm, LaneForm.thenDo, LaneForm.of, Verdict.andThen, he]
  exact congrArg _ (eachLane_allTrap hne hv (fun _ _ => ⟨rfl, rfl⟩) (.inr (by decide)))

/-- Settles O39: the return, and the loop-end event of `loopEnd_ends` where the PC stands behind the innermost body. -/
theorem trapReturnRestores : Obligations.TrapReturnRestores := by
  refine ⟨fun t => ?_, fun s => eret_traps⟩
  obtain ⟨hbare, hregs⟩ := bare_eret t
  obtain ⟨hmode, hkt, hut⟩ := mode_of_bare hbare
  obtain ⟨kregs, kkt, kut, kctl, k0, k1, k2⟩ := returning_keeps t
  have hS : t.eret.modeS = (returning t).modeS := congrArg (BitVec.getLsbD · 0) hmode
  have hU : t.eret.modeUH = (returning t).modeUH := congrArg (BitVec.getLsbD · 2) hmode
  have hpc : (returning t).pc = if t.modeS then t.kt.pc else t.ut.pc := rfl
  refine ⟨fun h => ?_, fun h => ?_, (congrArg Prod.fst hregs).trans kregs, hkt.trans kkt, hut.trans kut,
    (congrArg Prod.snd hregs).trans (congrArg (·.fpflags) kctl), fun h0 => ?_, fun n hn => ⟨fun hb => ?_, fun hb => ?_⟩⟩
  · rw [hS, hU]
    exact returning_modeS h
  · rw [hS, hU]
    exact returning_user h
  · rw [eret_eq, if_neg (by simp [returning_loopDepth, h0])]
    exact hpc
  · rw [eret_eq, if_neg (by simpa [returning_loopDepth, returning_level, hn, hpc] using fun h => hb h.symm)]
    exact ⟨hpc, k0, k1, k2⟩
  · rw [eret_eq, if_pos (by simp [returning_loopDepth, returning_level, hn, hb, hpc]), returning_loopDepth, hn]
    have := loopDepth_le t
    exact loopEnds_congr (fun j => (returning_level t j).symm) (loopEnd_ends n (returning t) (by omega))

/-! ### TRAP, BKPT, and privileged instructions in user mode (R19, R356, R357) -/

theorem softTrap_eq {s : State} (hne : s.run ≠ []) {cause sub : Nat} (hc : cause ≠ Cause.mcheck) :
    softTrap cause sub s = .next (s.trapped fun _ => trapOpen stageCard cause sub) :=
  congrArg _ (lanes_traps (fun v _ => verdict_no_operands v) ⟨hne, fun _ _ => rfl, fun _ _ _ _ => ⟨rfl, rfl⟩⟩
    fun _ _ => cardTrap_open (by decide) hc)

/-- A privileged form whose fields are good, in user mode. -/
theorem priv_traps {o : Opnds} {v : View} (hf : FieldsOk o v) (hp : o.priv = true) (hs : v.th.modeS = false) :
    o.verdict v = .trap (trapAt stageMode 6 3 0#64) :=
  verdict_of_decodeTrap (decodeTrap_of_mode hf fun h => by simpa [hs] using h hp)

/-- The run takes the trap of a check that it makes at decoding. -/
theorem eachLane_mode {s : State} {k : LaneForm} {c sub : Nat} {a : W64} (hne : s.run ≠ [])
    (h : ∀ v ∈ s.run, k.verdict v = .trap (trapAt stageMode c sub a)) : s.eachLane k = s.trapped fun _ => trapAt stageMode c sub a :=
  eachLane_allTrap hne h (fun _ _ => ⟨rfl, rfl⟩) (.inl (show stageMode < stageEmpty by decide))

theorem eachLane_priv {s : State} {o : Opnds} {chk : View → Verdict} {act : List W32 → State → State} (hne : s.run ≠ [])
    (hs : ∀ v ∈ s.run, v.th.modeS = false) (hf : ∀ v ∈ s.run, FieldsOk o v) (hp : o.priv = true) :
    s.eachLane (.of o chk act) = s.trapped fun _ => trapAt stageMode 6 3 0#64 :=
  eachLane_mode hne fun v hv => by simp [LaneForm.of, priv_traps (hf v hv) hp (hs v hv), Verdict.andThen]

/-- A special register of the system, in user mode. -/
theorem srTrap_system {n : Nat} (hn : srInfo n ≠ none) (h : n ≥ 0x400) (wr : Bool) {t : Thread} (hs : t.modeS = false) :
    srTrap n wr t = some (trapAt stageMode 6 3 (BitVec.ofNat 64 n)) := by
  obtain ⟨⟨w, acc⟩, hi⟩ := Option.ne_none_iff_exists'.1 hn
  simp [srTrap, hi, h, hs, Cause.prot]

/-- The registers of the system. -/
def systemRegs : List Nat :=
  [0x400, 0x401, 0x402, 0x403, 0x404, 0x405, 0x406, 0x407, 0x408, 0x409, 0x410, 0x411, 0x412, 0x413, 0x414, 0x415, 0x416]

theorem systemRegs_info : ∀ n ∈ systemRegs, srInfo n ≠ none ∧ n ≥ 0x400 := by decide

theorem srVerdict_system {o : Opnds} {n : Nat} (hn : n ∈ systemRegs) (wr : Bool) {v : View} (hf : FieldsOk o v)
    (hp : o.priv = false) (hl : o.laneOnly = false) (hk : o.sfeOnly = false) (hs : v.th.modeS = false) :
    srVerdict o n wr v = .trap (trapAt stageMode 6 3 (BitVec.ofNat 64 n)) := by
  obtain ⟨hi, hge⟩ := systemRegs_info n hn
  simp only [srVerdict, decodeTrap_none hf (fun h => by simp [hp] at h) ⟨fun h => by simp [hl] at h, fun h => by simp [hk] at h⟩,
    srTrap_system hi hge wr hs]

/-- Settles O40: the traps of the card, and those of R19's checks at decoding. -/
theorem softwareAndPrivilegeTraps : Obligations.SoftwareAndPrivilegeTraps := by
  refine ⟨fun s n hne => ⟨softTrap_eq hne (by decide), softTrap_eq hne (by decide)⟩, ?_⟩
  intro s o ab m n hne hs special prot
  refine ⟨?_, fun hf => ?_, fun hf => ?_, fun hn hf => ?_, fun hn hf => ?_⟩
  · exact congrArg _ (eachLane_priv hne hs (fun v _ => ⟨List.forall_mem_nil _, List.forall_mem_nil _⟩) rfl)
  · exact congrArg _ (eachLane_priv hne hs (fun v hv => by simpa [FieldsOk, Src.r] using hf v hv) rfl)
  · exact congrArg _ (eachLane_priv hne hs (fun v hv => by simpa [FieldsOk, Src.r, Src.p] using hf v hv) rfl)
  · refine congrArg _ (eachLane_mode hne fun v hv => srVerdict_system hn false ?_ rfl rfl rfl (hs v hv))
    obtain ⟨h2, h1⟩ := hf v hv
    refine ⟨nofun, ?_⟩
    cases h : srWide m.n.toNat <;> simpa [h]
  · refine congrArg _ (eachLane_mode hne fun v hv => ?_)
    obtain ⟨h2, h1⟩ := hf v hv
    have hv' := srVerdict_system (o := { srcs := [if srWide n.n.toNat then .p n.a n.f else .r n.a n.f] }) hn true (v := v) ⟨?_, nofun⟩
      rfl rfl rfl (hs v hv)
    · simp [mtsrForm, hv', Verdict.andThen]
    · cases h : srWide n.n.toNat <;> simpa [h, Src.r, Src.p]

end Sys2Proof.Proofs
end

section
/-! PROOFS. Reset and launch values (R13, R17, R97, R184); a step of the machine (R26, R140); results that land (R13, R69, R396); recorded
events (R380, R388, R418). -/

namespace Sys2Proof.Proofs
open Sys2Proof Sys2Proof.Machine

/-! ### Reset and launch -/

theorem reset_core (i : Nat) : State.reset.coreAt i = Core.fresh i := rfl

theorem fresh_table (i t : Nat) : ((Core.fresh i).tableAt t).b0 = [] ∧ ((Core.fresh i).tableAt t).b1 = [] := by
  have h : (Core.fresh i).tableAt t = ActTable.fresh := List.getElem?_getD_replicate_default_eq _ 16 t
  rw [h]
  exact ⟨rfl, rfl⟩

theorem reset_next : ∀ t ∈ State.reset.tens, ∀ q ∈ t.zqs, q.next = 0#32 := by
  have h : State.reset.tens = (List.range 8).map Tenancy.fresh := rfl
  simp only [h, List.forall_mem_map]
  intro i _ q hq
  rw [List.eq_of_mem_replicate hq]

/-- The %tids of a crew: those of its lane threads follow each other, below that of the front end. -/
theorem crewAt_tids (t : Task) (ten : Tenancy) (no cycle : Nat) :
    ((t.crewAt ten no cycle).all.map fun x => x.ident.tid) =
      ((List.range t.tcb.nthr.toNat).map fun i => BitVec.ofNat 32 (no * t.tcb.nthr.toNat + i)) ++ [sfeTid] := by
  simp only [Crew.all, Task.crewAt, List.map_append, List.map_map, List.map_cons, List.map_nil]
  rfl

theorem tids_below {crews n no : Nat} (hno : no < crews) (h : crews * n ≤ 2 ^ 31) {i : Nat} (hi : i < n) : no * n + i < 2 ^ 31 := by
  calc no * n + i < no * n + n := by omega
    _ = (no + 1) * n := by ring
    _ ≤ crews * n := Nat.mul_le_mul_right n hno
    _ ≤ 2 ^ 31 := h

theorem crewAt_nodup (t : Task) (ten : Tenancy) (no cycle : Nat) (hno : no < t.tcb.crews.toNat)
    (h : t.tcb.crews.toNat * t.tcb.nthr.toNat ≤ 2 ^ 31) : ((t.crewAt ten no cycle).all.map fun x => x.ident.tid).Nodup := by
  have hlt := fun i (hi : i < t.tcb.nthr.toNat) => tids_below hno h hi
  rw [crewAt_tids, List.nodup_append]
  refine ⟨?_, List.nodup_singleton _, ?_⟩
  · refine List.nodup_range.map_on fun i hi j hj hij => ?_
    have hi' := hlt i (List.mem_range.1 hi)
    have hj' := hlt j (List.mem_range.1 hj)
    have := congrArg BitVec.toNat hij
    rw [BitVec.toNat_ofNat, BitVec.toNat_ofNat, Nat.mod_eq_of_lt (by omega), Nat.mod_eq_of_lt (by omega)] at this
    omega
  · simp only [List.mem_map, List.mem_range, List.mem_singleton, forall_exists_index, and_imp]
    rintro a i hi rfl b rfl hab
    have hi' := hlt i hi
    have := congrArg BitVec.toNat hab
    rw [BitVec.toNat_ofNat, Nat.mod_eq_of_lt (by omega), show sfeTid.toNat = 2 ^ 32 - 1 from rfl] at this
    omega

section Launch
variable (t : Tcb) (ten : Tenancy) (task crew : Nat) (sfe : Bool) (p : Place) (tid : W32) (pc : W64) (e : SrEnv)

/-- The registers whose launch value is 0. -/
theorem launch_zero : ∀ n ∈ [0x00C, 0x00D, 0x012, 0x013, 0x021, 0x022, 0x023, 0x025, 0x026, 0x027, 0x028, 0x029, 0x02C, 0x02D, 0x02E,
    0x030, 0x031, 0x040, 0x041, 0x042, 0x043, 0x044, 0x045, 0x046, 0x052, 0x053, 0x401, 0x410, 0x411, 0x412, 0x413, 0x414, 0x415],
    srRead e (t.thread ten task crew sfe p tid pc) n = 0#64 := by
  simp only [List.forall_mem_cons]
  and_intros
  iterate 6 exact rfl
  · cases sfe <;> rfl
  iterate 26 exact rfl
  exact List.forall_mem_nil _

theorem launch_regs : ∀ r ∈ (t.thread ten task crew sfe p tid pc).regs, r.val = 0#32 ∧ r.full = true ∧ r.valid = false := by
  intro r hr
  rw [List.eq_of_mem_replicate hr]
  exact ⟨rfl, rfl, rfl⟩

end Launch

/-- Settles O3: the fresh state and the fresh thread, field by field; %tids by their places. -/
theorem resetAndLaunchValues : Obligations.ResetAndLaunchValues :=
  ⟨fun i => by rw [reset_core]; exact ⟨rfl, rfl, rfl, fresh_table i⟩, rfl, reset_next,
    fun t ten task crew sfe p tid pc e => ⟨launch_zero t ten task crew sfe p tid pc e, rfl, rfl, rfl,
      launch_regs t ten task crew sfe p tid pc⟩, crewAt_nodup⟩

/-! ### A step -/

theorem step_slot {s : State} {x : Issue} {rest : List Issue} (hc : Clocked s) (hs : s.turned.slots = x :: rest) :
    step s = State.runSlot { s.turned with slots := rest, issue := x } := by
  have hgo : s.clocksStand = false := by simp [State.clocksStand, hc.1, hc.2]
  have h : (s.turned).slots = x :: rest := hs
  simp only [State.turned] at h
  simp only [step, State.cycle, hgo, h, State.turned]
  rfl

/-- The errors that arise leave the issue slots as they are. -/
theorem upset_slots (s : State) (u : Upset) : (s.upset u).slots = s.slots := by
  cases u <;> rfl

theorem turned_slots (s : State) : s.turned.slots = s.slots := by
  suffices h : ∀ (l : List (Nat × Upset)) (s : State), (l.foldl (fun s x => s.upset x.2) s).slots = s.slots from h _ _
  intro l
  induction l with
  | nil => exact fun _ => rfl
  | cons x l ih => exact fun s => (ih _).trans (upset_slots s x.2)

/-- A filled slot all of whose lanes pass the fetch. -/
theorem runSlot_exec {u : State} {v : View} {vs : List View} {raw : RawInstr} {i : Instr} (hrun : u.run = v :: vs)
    (hok : ∀ y ∈ u.run, u.fetchVerdict u.issue.core y.th = .ok) (hraw : u.fetch u.issue.core v.th = .ok raw)
    (hi : (match raw.x with | none => decodeWord raw.word | some p => decodeX p raw.word) = .ok i) :
    u.runSlot = exec i { u with issue := { u.issue with raw } } := by
  rw [hrun] at hok
  have hany : ((v :: vs).any fun x => u.fetchVerdict u.issue.core x.th != .ok) = false := by
    simpa only [List.any_eq_false, bne_iff_ne, ne_eq, not_not] using hok
  cases hx : raw.x with
  | none | some p =>
    simp only [hx] at hi
    simp only [State.runSlot, hrun, hany, hraw, hx, hi, Bool.false_eq_true, if_false]

/-- Settles O5: the step runs the slot, and the slot runs the instruction. -/
theorem stepRunsTheDecodedInstruction : Obligations.StepRunsTheDecodedInstruction := by
  intro s x rest v vs raw i hc hs u hrun hok hraw hi
  rw [step_slot hc ((turned_slots s).trans hs)]
  exact runSlot_exec hrun hok hraw hi

/-! ### One thread of a core -/

/-- The threads of a crew after an effect on some of them that leaves each its %tid. -/
theorem all_onThreads (c : Crew) (p : Thread → Bool) (f : View → View) :
    (c.onThreads p f).all = c.all.map fun t => if p t then (f ⟨t, c.k⟩).th else t := by
  simp only [Crew.all, Crew.onThreads, List.map_append, List.map_cons, List.map_nil]
  split <;> rfl

theorem byTid_onThreads (c : Crew) (p : Thread → Bool) {f : View → View} (hf : ∀ v, (f v).th.ident.tid = v.th.ident.tid) (x : W32) :
    (c.onThreads p f).byTid x = (c.byTid x).map fun t => if p t then (f ⟨t, c.k⟩).th else t := by
  have hp : ((fun t => t.ident.tid == x) ∘ fun t => if p t then (f ⟨t, c.k⟩).th else t) = fun t : Thread => t.ident.tid == x := by
    funext t
    simp only [Function.comp]
    split
    · rw [hf]
    · rfl
  rw [Crew.byTid, all_onThreads, List.find?_map, hp, Crew.byTid]

theorem k_onThreads (c : Crew) (p : Thread → Bool) {f : View → View} (hk : ∀ v, (f v).k = v.k) : (c.onThreads p f).k = c.k := by
  simp only [Crew.onThreads]
  split
  · exact hk _
  · rfl

section OnTh
variable (c : Crew) (p : Thread → Bool) {g : Thread → Thread}

@[simp] theorem k_onThreads_onTh : (c.onThreads p fun v => v.onTh g).k = c.k := k_onThreads c p fun _ => rfl

theorem byTid_onThreads_onTh (hg : ∀ t, (g t).ident = t.ident) (x : W32) :
    (c.onThreads p fun v => v.onTh g).byTid x = (c.byTid x).map fun t => if p t then g t else t :=
  byTid_onThreads c p (fun v => congrArg (·.tid) (hg v.th)) x

end OnTh

theorem tid_of_view? {s : State} {core : Nat} {x : W32} {v : View} (h : s.view? core x = some v) : v.th.ident.tid = x := by
  simp only [State.view?] at h
  split at h
  · simp at h
  · obtain ⟨t, ht, rfl⟩ := Option.map_eq_some_iff.1 h
    simpa using List.find?_some ht

/-- An effect on one thread that leaves it its %tid, and the crew its uniform registers, as that thread shows it. -/
theorem view?_onThread {s : State} {core : Nat} {x : W32} {f : View → View} {v : View} (hf : ∀ v, (f v).th.ident.tid = v.th.ident.tid)
    (hk : ∀ v, (f v).k = v.k) (h : s.view? core x = some v) : (s.onThread core x f).view? core x = some (f v) := by
  have hx := tid_of_view? h
  simp only [State.view?, State.onThread, State.onTids, State.coreAt_onCore, Core.onCrew] at h ⊢
  cases hc : (s.coreAt core).crew with
  | none => simp [hc] at h
  | some c =>
    simp only [hc] at h
    obtain ⟨t, ht, rfl⟩ := Option.map_eq_some_iff.1 h
    simp only [Option.map_some, byTid_onThreads c _ hf, k_onThreads c _ hk, ht]
    rw [if_pos (by simpa using hx)]
    exact congrArg some (congrArg (View.mk _) (hk ⟨t, c.k⟩).symm)

theorem view?_onThread_onTh {s : State} {core : Nat} {x : W32} {g : Thread → Thread} {v : View} (hg : ∀ t, (g t).ident = t.ident)
    (h : s.view? core x = some v) : (s.onThread core x fun v => v.onTh g).view? core x = some (v.onTh g) :=
  view?_onThread (fun v => congrArg (·.tid) (hg v.th)) (fun _ => rfl) h

/-! ### Results that land -/

theorem land_single {v : View} {p : Pending} {n : Nat} {x : W32} (hd : p.dst = [.phys n]) (hv : p.vals = some [x]) :
    v.land p = (v.put (.phys n) { val := x, full := true, valid := true, mark := p.mark }).onTh fun t =>
      { t with pending := t.pending.filter fun q => q.id != p.id, ctl := { t.ctl with fpflags := t.ctl.fpflags ||| p.flags } } := by
  rw [View.land, hv, hd]
  rfl

/-- Settles O44: the step lands a result that is ready, which writes its register; a report keeps the first address. -/
theorem resultsLand : Obligations.ResultsLand := by
  refine ⟨fun s who idx v p hv hp hr ha => ?_, fun v p n x hd hx hn => ?_, fun s who addr v hv ha => ⟨_, rfl, ?_⟩⟩
  · show execResultLands who idx s = _
    simp [execResultLands, hv, hp, hr, ha]
  · rw [land_single hd hx]
    refine ⟨by simp [View.onTh, hn], fun m hm => by simp [View.onTh, List.getElem?_set_ne hm.symm], rfl, rfl, fun q hq => ?_⟩
    simpa using (List.mem_filter.1 hq).2
  · rw [view?_onThread_onTh ?_ hv]
    · simp only [View.onTh]
      cases v.th.refused <;> simp [ha]
    · exact fun _ => rfl

/-! ### Recorded events -/

theorem record_last (a : AlwaysOn) (r : SumpRec) : (a.record r).sump.getLast? = some r := by
  simp only [AlwaysOn.record, List.getLast?_append, List.getLast?_singleton, Option.some_or]

/-- What a thermal event does to a core (R388): its governor is a step lower from its next window on. -/
def stepDown (die : Nat) (c : Core) : Core :=
  if dieOfCore c.id = die then { c with govNext := some ((c.govNext.getD c.gov) - 1) } else c

theorem stepDown_id (die : Nat) (c : Core) : (stepDown die c).id = c.id := by
  simp only [stepDown]
  split <;> rfl

theorem coreAt_stepDown (s : State) (die i : Nat) (h : dieOfCore i = die) :
    ({ s with cores := s.cores.map (stepDown die) }.coreAt i).gov = (s.coreAt i).gov ∧
    ({ s with cores := s.cores.map (stepDown die) }.coreAt i).govNext.getD ({ s with cores := s.cores.map (stepDown die) }.coreAt i).gov =
      (s.coreAt i).govNext.getD (s.coreAt i).gov - 1 := by
  have hp : (fun c : Core => c.id == i) ∘ stepDown die = fun c => c.id == i := by
    funext c
    simp [stepDown_id]
  simp only [State.coreAt, List.find?_map, hp]
  cases hc : s.cores.find? fun c => c.id == i with
  | none => exact ⟨rfl, rfl⟩
  | some c =>
    have hi : c.id = i := by simpa using List.find?_some hc
    simp [stepDown, hi, h]

/-- The trace record of a sample of a thread (R380). -/
def laneSample (s : State) (who : ThreadRef) (v : View) : TraceRec :=
  { pc := v.th.pc, clk := (s.coreAt who.core).clock, kind := 1, tid := who.tid, info := BitVec.ofNat 32 v.th.laneState }

theorem sampling_traces {s : State} {who : ThreadRef} {v : View} (h : s.view? who.core who.tid = some v) :
    exec (.samplingEvt who none) s = .next (s.trace (s.coreAt who.core).ten (laneSample s who v)) := by
  show execSamplingEvt who none s = _
  simp only [execSamplingEvt, h]
  rfl

theorem wordNotInstruction_traps {s : State} (sub : Nat) (raw : RawInstr) (h : s.run ≠ []) : exec (.wordNotInstruction sub raw) s =
    .next (s.takeTrap s.issue.core (s.run.map fun v => (v.th.ident.tid, trapOpen 4 1 sub))
      fun t x mask => trapRegs x.cause x.sub t.pc mask (s.taddr t x) raw) := by
  show execWordNotInstruction sub raw s = _
  rw [execWordNotInstruction]
  exact if_neg (by simpa using h)

/-- A run whose lanes all fail the fetch alike. -/
theorem fetchTrap_traps {s : State} {f : View → Trap} (h : s.allTrap (fun v => s.fetchVerdict s.issue.core v.th) f)
    (hf : ∀ v ∈ s.run, (f v).stage ≤ 1000) :
    exec .fetchTrap s = .next (s.takeTrap s.issue.core (s.run.map fun v => (v.th.ident.tid, f v)) (s.fetchRegs s.issue.core)) := by
  obtain ⟨hne, hc, hagree⟩ := h
  obtain ⟨v, r, hr⟩ := List.exists_cons_of_ne_nil hne
  have hv : v ∈ s.run := by simp [hr]
  have htaken := takeTrap_agree hne (hf v hv) fun w hw => hagree w hw v hv
  have hnil : (State.lanesWith s f).isEmpty = false := by simp [State.lanesWith, hr]
  show execFetchTrap s = _
  simp only [execFetchTrap, trapsOf_verdicts hc, waitsOf_verdicts hc, htaken, hnil, othersThan_lanesWith, List.filter_nil, ite_self,
    List.foldl_nil, Bool.false_eq_true, if_false]
  rfl

/-- Settles O59: each event by its record, or by the trap that the run takes. -/
theorem recordedEvents : Obligations.RecordedEvents :=
  ⟨fun s die => ⟨_, rfl, fun i hi => coreAt_stepDown s die i hi, congrArg (Option.map _) (record_last ..)⟩,
    fun _ _ => ⟨_, rfl, rfl, congrArg (Option.map _) (record_last ..)⟩,
    fun _ _ => ⟨_, rfl, rfl, congrArg (Option.map _) (record_last ..)⟩,
    fun s who v hv => ⟨laneSample s who v, rfl, rfl, rfl, sampling_traces hv⟩,
    fun _ sub raw => wordNotInstruction_traps sub raw, fun _ _ => fetchTrap_traps⟩

end Sys2Proof.Proofs
end

section
/-! PROOFS. A lane that traps alone (R28, R44, R45, R351, R352). -/

namespace Sys2Proof.Proofs
open Sys2Proof Sys2Proof.Machine

/-! ### What a trap entry leaves of a thread -/

/-- What a gang waits for in a thread before a trap entry, and what tells the thread (R352). -/
def inFlight (t : Thread) : Bool × Place × Ident × Status × List Pending × List QmHold :=
  (t.sfe, t.place, t.ident, t.status, t.pending, t.qm)

theorem inFlight_eq_iff {t u : Thread} : inFlight t = inFlight u ↔
    t.sfe = u.sfe ∧ t.place = u.place ∧ t.ident = u.ident ∧ t.status = u.status ∧ t.pending = u.pending ∧ t.qm = u.qm := by
  simp only [inFlight, Prod.mk.injEq]

theorem inFlight_leaving (t : Thread) : inFlight (leaving t) = inFlight t := by
  simp only [leaving]
  split <;> rfl

theorem inFlight_enterTrap (t : Thread) (r : TrapRegs) : inFlight (t.enterTrap r) = inFlight t := by
  rw [← inFlight_leaving t, enterTrap_eq]
  split <;> rfl

theorem settled_enterTrap (t : Thread) (r : TrapRegs) : (t.enterTrap r).settled = t.settled := by
  obtain ⟨-, -, -, -, hp, hq⟩ := inFlight_eq_iff.1 (inFlight_enterTrap t r)
  simp only [Thread.settled, hp, hq]
theorem live_enterTrap (t : Thread) (r : TrapRegs) : (t.enterTrap r).live = t.live := by
  obtain ⟨-, -, -, hs, -, -⟩ := inFlight_eq_iff.1 (inFlight_enterTrap t r)
  simp only [Thread.live, hs]
theorem ident_enterTrap (t : Thread) (r : TrapRegs) : (t.enterTrap r).ident = t.ident :=
  (inFlight_eq_iff.1 (inFlight_enterTrap t r)).2.2.1
theorem inGang_enterTrap (t : Thread) (r : TrapRegs) (sfe : Bool) (sect slot : Nat) :
    (t.enterTrap r).inGang sfe sect slot = t.inGang sfe sect slot := by
  obtain ⟨hf, hp, -⟩ := inFlight_eq_iff.1 (inFlight_enterTrap t r)
  simp only [Thread.inGang, hf, hp]

/-! ### The steps of a trap that one thread takes -/

/-- With no future word refused there is nothing to cancel (R210). -/
theorem cancelDeferred_none {s : State} {core : Nat} (tid : W32) (hd : s.deferred = [])
    (hc : ∀ g ∈ (s.coreAt core).coll, ∀ r ∈ g.reqs, r.isLdf = false) : s.cancelDeferred core tid = s := by
  have htried : ((s.coreAt core).coll.filter fun g => g.reqs.any fun r => r.isLdf && r.tid == tid) = [] := by
    rw [List.filter_eq_nil_iff]
    intro g hg
    simp only [List.any_eq_true, not_exists, not_and]
    exact fun r hr => by simp [hc g hg r hr]
  simp [State.cancelDeferred, hd, htried]

/-- The entry of one thread into its handler. -/
def entersHandler (s : State) (core : Nat) (tid : W32) (g : Thread → Thread) : State := s.onThread core tid fun v => v.onTh g

/-- A thread of which nothing is in flight in its gang begins its handler; any other waits (R352). -/
def begins (c : Crew) (t : Thread) : Thread :=
  if c.gangSettled t then { t with status := .runnable, qm := [] } else { t with status := .parked .entry }

theorem takeTrap_lone {s : State} {core : Nat} {c : Crew} {t : Thread} {x : Trap} (mk : Thread → Trap → W32 → TrapRegs)
    (hc : (s.coreAt core).crew = some c) (ht : (c.all.filter fun u => u.ident.tid == t.ident.tid) = [t]) (hd : s.deferred = [])
    (hl : ∀ g ∈ (s.coreAt core).coll, ∀ r ∈ g.reqs, r.isLdf = false) (hr : x.report = false) (hm : x.mark = .clean) :
    s.takeTrap core [(t.ident.tid, x)] mk =
      ((((entersHandler s core t.ident.tid fun u => u.enterTrap (mk u x t.laneBit)).onCore core fun k => k.closeTiles t.ident.tid).onCore core
        fun k => k.onCrew fun c => c.onThreads (fun u => [t.ident.tid].contains u.ident.tid) fun v => v.onTh (begins c)).sumpTrap
          core c.ten x.cause [x.sub] t.pc t.laneBit) := by
  have hwho : (c.all.filter fun u => ([(t.ident.tid, x)].map (·.1)).contains u.ident.tid) = [t] := by
    rw [← ht]
    exact List.filter_congr fun u _ => by simp only [List.map_cons, List.map_nil, List.contains_cons, List.contains_nil, Bool.or_false]
  have hadj : (if x.cause = Cause.watch then { x with sub := 0 ||| x.sub } else x) = x := by
    rw [Nat.zero_or]
    exact ite_self x
  have hmask : maskOf [t] = t.laneBit := BitVec.zero_or
  simp only [State.takeTrap, hc, hwho, List.foldl_cons, List.foldl_nil, cancelDeferred_none _ hd hl]
  rw [hmask, hadj]
  simp only [hm, Thread.clearMark, hr, Bool.false_eq_true, if_false]
  rfl

/-- A record in the Sump changes nothing but the always-on domain. -/
theorem sumpTrap_aon (s : State) (core ten cause : Nat) (subs : List Nat) (pc : W64) (mask : W32) :
    { s.sumpTrap core ten cause subs pc mask with aon := s.aon } = s := by
  rw [State.sumpTrap]
  induction subs.eraseDups generalizing s with
  | nil => rfl
  | cons sub l ih =>
    rw [List.foldl_cons]
    split
    · exact congrArg (fun t : State => { t with aon := s.aon }) (ih _)
    · exact ih s

theorem sumpTrap_view? (s : State) (core ten cause : Nat) (subs : List Nat) (pc : W64) (mask : W32) (i : Nat) (x : W32) :
    (s.sumpTrap core ten cause subs pc mask).view? i x = s.view? i x :=
  (congrArg (fun t : State => t.view? i x) (sumpTrap_aon s core ten cause subs pc mask) :)

/-- A thread whose gang has nothing in flight begins its handler. -/
theorem gangSettled_enters {c : Crew} {p : Thread → Bool} {g : Thread → TrapRegs} {t : Thread}
    (h : ∀ x ∈ c.all, x.inGang t.sfe t.place.sect t.place.slot = true → x.live = true → x.settled = true) :
    (c.onThreads p fun v => v.onTh fun u => u.enterTrap (g u)).gangSettled (t.enterTrap (g t)) = true := by
  obtain ⟨hsfe, hplace, -⟩ := inFlight_eq_iff.1 (inFlight_enterTrap t (g t))
  simp only [Crew.gangSettled, all_onThreads, List.all_eq_true, List.mem_filter, List.mem_map, Bool.and_eq_true, hsfe, hplace]
  rintro y ⟨⟨x, hx, rfl⟩, hgang, hlive⟩
  by_cases hp : p x = true
  · simp only [hp, if_true, View.onTh, inGang_enterTrap, live_enterTrap, settled_enterTrap] at hgang hlive ⊢
    exact h x hx hgang hlive
  · simp only [hp] at hgang hlive ⊢
    exact h x hx hgang hlive

theorem view?_begins {s : State} {core : Nat} {c : Crew} {t : Thread} {g : Thread → TrapRegs} (hc : (s.coreAt core).crew = some c)
    (ht : c.byTid t.ident.tid = some t)
    (h : ∀ x ∈ c.all, x.inGang t.sfe t.place.sect t.place.slot = true → x.live = true → x.settled = true) :
    ((((entersHandler s core t.ident.tid fun u => u.enterTrap (g u)).onCore core fun k => k.closeTiles t.ident.tid).onCore core
        fun k => k.onCrew fun c => c.onThreads (fun u => [t.ident.tid].contains u.ident.tid) fun v => v.onTh (begins c)).view?
          core t.ident.tid) = some ⟨{ t.enterTrap (g t) with status := .runnable, qm := [] }, c.k⟩ := by
  have hbegins : ∀ (c : Crew) (u : Thread), (begins c u).ident = u.ident := fun c u => by
    simp only [begins]
    split <;> rfl
  simp only [State.view?, entersHandler, State.onThread, State.onTids, State.coreAt_onCore, Core.onCrew, Core.closeTiles, hc, Option.map_some]
  rw [byTid_onThreads_onTh _ _ (hbegins _), byTid_onThreads_onTh _ _ fun u => ident_enterTrap u _, ht, k_onThreads_onTh, k_onThreads_onTh]
  simp only [Option.map_some, List.contains_cons, List.contains_nil, Bool.or_false, beq_self_eq_true, if_true, ident_enterTrap, begins]
  rw [if_pos (gangSettled_enters h)]

/-- Settles O37: the trap of one thread by `takeTrap_lone`, and what its entry shows by `view?_begins`. -/
theorem laneEntersItsHandler : Obligations.LaneEntersItsHandler := by
  intro s f v c a hrun hc hlone hd hl hgang hreport hmark haddr
  have hby : c.byTid v.th.ident.tid = some v.th := by rw [Crew.byTid, ← List.head?_filter, hlone, List.head?_cons]
  refine ⟨⟨{ v.th.enterTrap (s.mkRegs v.th (f v) v.th.laneBit) with status := .runnable, qm := [] }, c.k⟩,
    s.mkRegs v.th (f v) v.th.laneBit, ?_, rfl, rfl, rfl, rfl, ?_, rfl, rfl, rfl⟩
  · rw [State.trapped, hrun, List.map_singleton, takeTrap_lone _ hc hlone hd hl hreport hmark, sumpTrap_view?]
    exact view?_begins hc hby hgang
  · show s.taddr v.th (f v) = a
    simp only [State.taddr, haddr]

end Sys2Proof.Proofs
end

section
/-! PROOFS. Accesses at bad addresses (R9, R24, R213, R233, R234, R238). -/

namespace Sys2Proof.Proofs
open Sys2Proof Sys2Proof.Machine

/-! ### The first two checks of an access -/

theorem accessVerdict_canon {s : State} {core : Nat} {t : Thread} {a : Access} (h : canonical a.va = false) :
    s.accessVerdict core t a = .trap (trapAt stageCanon 6 0 a.va) := by
  simp only [State.accessVerdict, State.check, h, Bool.not_false, if_true]
  rfl

theorem accessVerdict_align {s : State} {core : Nat} {t : Thread} {a : Access} (h : canonical a.va = true)
    (ha : a.va.toNat % a.n ≠ 0) : s.accessVerdict core t a = .trap (trapAt stageAlign 4 0 a.va) := by
  simp only [State.accessVerdict, State.check, h, Bool.not_true, Bool.false_eq_true, if_false, if_pos ha]
  rfl

/-- The offset behind an X word (R35). -/
theorem off34_eq (x : BitVec 26) (i : BitVec 8) : off34 x i = offMX x i := by
  have h : (x ++ i).toInt = x.toInt * 2 ^ 8 + i.toNat := by rw [BitVec.toInt_append, Int.mul_comm]; rfl
  rw [offMX, ← h]
  rfl

/-- The atomics, each by its operation. -/
theorem atomRows_exec (p : R3) (s : State) : ∀ r ∈ atomRows, exec (r.1 p) s = atom r.2 p s := by
  simp only [atomRows, List.forall_mem_cons]
  and_intros
  iterate 16 exact rfl
  exact List.forall_mem_nil _

/-! ### A memory instruction whose lanes all fail one of them -/

theorem of_andThen (v w : Verdict) (t : Trap) (h : v = .trap t) : v.andThen w = .trap t := by
  rw [h]
  rfl

/-- The check of the card that a lane meets first. -/
theorem memForm_verdict {s : State} {o : Opnds} {acc : View → Access} {pre : View → Verdict} {body : State → Nat → View → Hit → State}
    {v : View} {t : Trap} (ho : o.verdict v = .ok) (hpre : pre v = .ok)
    (h : s.accessVerdict s.issue.core v.th (acc v) = .trap t) : (memForm o acc pre body s).verdict v = .trap t := by
  simp only [memForm, LaneForm.of, ho, hpre, h, Verdict.andThen]

/-- The run takes the trap of a check of the card, each lane with an address of its own. -/
theorem eachLane_card {s : State} {k : LaneForm} {m c sub : Nat} {a : View → W64} (hne : s.run ≠ [])
    (h : ∀ v ∈ s.run, k.verdict v = .trap (trapAt m c sub (a v)))
    (hm : stageCard ≤ m ∧ m ≤ 1000 ∧ m ≠ stageFault ∧ c ≠ Cause.mcheck) : s.eachLane k = s.trapped fun v => trapAt m c sub (a v) :=
  eachLane_allTrap hne h (fun _ _ => ⟨rfl, rfl⟩) (.inr hm)

/-- What O41 says of an access. -/
def badAccessTraps (s : State) (i : Instr) (o : Opnds) (acc : View → Access) : Prop :=
  (∀ v ∈ s.run, o.verdict v = .ok) →
    ((∀ v ∈ s.run, canonical (acc v).va = false) → exec i s = .next (s.trapped fun v => trapAt stageCanon 6 0 (acc v).va)) ∧
    ((∀ v ∈ s.run, canonical (acc v).va = true ∧ (acc v).va.toNat % (acc v).n ≠ 0) →
      exec i s = .next (s.trapped fun v => trapAt stageAlign 4 0 (acc v).va))

section Access
variable {s : State} (hne : s.run ≠ [])
include hne

theorem badAccess_of_memForm {i : Instr} {o : Opnds} {acc : View → Access} {pre : View → Verdict}
    {body : State → Nat → View → Hit → State} (hx : exec i s = .next (s.eachLane (memForm o acc pre body s)))
    (hpre : ∀ v, pre v = .ok) : badAccessTraps s i o acc := by
  refine fun ho => ⟨fun h => ?_, fun h => ?_⟩ <;> rw [hx]
  · exact congrArg _ (eachLane_card hne (fun v hv => memForm_verdict (ho v hv) (hpre v) (accessVerdict_canon (h v hv))) (by decide))
  · exact congrArg _ (eachLane_card hne
      (fun v hv => memForm_verdict (ho v hv) (hpre v) (accessVerdict_align (h v hv).1 (h v hv).2)) (by decide))

theorem loadAccesses_trap (o : M2) (l : L2) (x : BitVec 26) : ∀ r ∈ loadAccesses o l x, badAccessTraps s r.1 r.2.1 r.2.2 := by
  simp only [loadAccesses, List.forall_mem_cons, ← off34_eq]
  exact ⟨badAccess_of_memForm hne rfl fun _ => rfl, badAccess_of_memForm hne rfl fun _ => rfl,
    badAccess_of_memForm hne rfl fun _ => rfl, badAccess_of_memForm hne rfl fun _ => rfl, List.forall_mem_nil _⟩

theorem storeAccesses_trap (o : M2) (l : L2) (x : BitVec 26) : ∀ r ∈ storeAccesses o l x, badAccessTraps s r.1 r.2.1 r.2.2 := by
  simp only [storeAccesses, List.forall_mem_cons, ← off34_eq]
  exact ⟨badAccess_of_memForm hne rfl fun _ => rfl, badAccess_of_memForm hne rfl fun _ => rfl,
    badAccess_of_memForm hne rfl fun _ => rfl, badAccess_of_memForm hne rfl fun _ => rfl, List.forall_mem_nil _⟩

/-- Atomics that no replay task combines in order. -/
theorem atomAccesses_trap (p : R3) :
    ∀ r ∈ atomAccesses (atomRows.filter fun r => !((s.crew?.map (·.replay)).getD false && r.2.ordered)) p,
      badAccessTraps s r.1 r.2.1 r.2.2 := by
  simp only [atomAccesses, List.forall_mem_map, List.mem_filter, Bool.not_eq_true', and_imp]
  intro r hr hfree
  refine badAccess_of_memForm hne (atomRows_exec p s r hr) fun v => ?_
  exact if_neg (by rw [hfree]; simp)

end Access

/-! ### Affine accesses (R213) -/

theorem affCheck_index {r : AffRec} {pad n : Nat} {x : W32} (h : ¬ ∀ q < 4, affIndex x q < r.extent q) :
    affCheck r pad x n = .trap (trapAt stageAffIndex 6 1 (padAddr r.base)) :=
  if_pos (by simpa using h)

theorem affCheck_inside {r : AffRec} {pad n : Nat} {x : W32} (h : ∀ q < 4, affIndex x q < r.extent q) :
    affCheck r pad x n = if r.offset x < 0 ∨ r.offset x + n > pad * 128 then .trap (trapAt stageAffRange Cause.prot 1 (padAddr (r.offset x)))
      else if r.offset x % n ≠ 0 then .trap (trapAt stageAffAlign Cause.misalign 0 (padAddr (r.offset x))) else .ok :=
  if_neg (by simpa using h)

theorem affCheck_range {r : AffRec} {pad n : Nat} {x : W32} (h : ∀ q < 4, affIndex x q < r.extent q)
    (hr : r.offset x < 0 ∨ (pad * 128 : Nat) < r.offset x + n) :
    affCheck r pad x n = .trap (trapAt stageAffRange 6 1 (padAddr (r.offset x))) := by
  rw [affCheck_inside h, if_pos (by push_cast at hr; exact hr)]
  rfl

theorem affCheck_align {r : AffRec} {pad n : Nat} {x : W32} (h : ∀ q < 4, affIndex x q < r.extent q)
    (h0 : 0 ≤ r.offset x) (hr : r.offset x + n ≤ (pad * 128 : Nat)) (ha : r.offset x % n ≠ 0) :
    affCheck r pad x n = .trap (trapAt stageAffAlign 4 0 (padAddr (r.offset x))) := by
  rw [affCheck_inside h, if_neg (by push_cast at hr; omega), if_pos ha]
  rfl

/-- The operands of an affine access. -/
def affOpnds (o : RJ) (n : Nat) (store : Bool) : Opnds :=
  if store then { srcs := [.r o.a o.f, ⟨o.d, n / 4, n / 4, false⟩] } else { srcs := [.r o.a o.f], dsts := [⟨o.d, n / 4⟩] }

theorem affForm_verdict {s : State} {o : RJ} {n : Nat} {store : Bool} {v : View} {t : Trap} (ho : (affOpnds o n store).verdict v = .ok)
    (h : affCheck (s.affRec o.j.toNat) ((s.crew?.map (·.pad)).getD 0) (v.rd32 o.a) n = .trap t) :
    (affForm o n store s).verdict v = .trap t := by
  have ho' : (affForm o n store s).opn.verdict v = .ok := ho
  show (((affForm o n store s).opn.verdict v).andThen ((affCheck (s.affRec o.j.toNat) ((s.crew?.map (·.pad)).getD 0) (v.rd32 o.a) n).andThen _)) = _
  rw [ho', h]
  rfl

/-- Whether the indices of an affine access lie in the extents of its record, its offset, and the bytes of the scratchpad. -/
def affInside (s : State) (o : RJ) (v : View) : Prop := ∀ q < 4, affIndex (v.rd32 o.a) q < (s.affRec o.j.toNat).extent q
def affOffset (s : State) (o : RJ) (v : View) : Int := (s.affRec o.j.toNat).offset (v.rd32 o.a)
def padLines (s : State) : Int := (s.crew?.map fun c => (c.pad : Int)).getD 0

theorem padLines_eq (s : State) : padLines s = ((s.crew?.map (·.pad)).getD 0 : Nat) := by
  rw [padLines]
  cases s.crew? <;> rfl

/-- What O41 says of an affine access. -/
def badAffineTraps (s : State) (o : RJ) (i : Instr) (n : Int) (opn : Opnds) : Prop :=
  (∀ v ∈ s.run, opn.verdict v = .ok) →
    ((∀ v ∈ s.run, ¬ affInside s o v) →
      exec i s = .next (s.trapped fun _ => trapAt stageAffIndex 6 1 (padAddr (s.affRec o.j.toNat).base))) ∧
    ((∀ v ∈ s.run, affInside s o v ∧ (affOffset s o v < 0 ∨ padLines s * 128 < affOffset s o v + n)) →
      exec i s = .next (s.trapped fun v => trapAt stageAffRange 6 1 (padAddr (affOffset s o v)))) ∧
    ((∀ v ∈ s.run, affInside s o v ∧ 0 ≤ affOffset s o v ∧ affOffset s o v + n ≤ padLines s * 128 ∧ affOffset s o v % n ≠ 0) →
      exec i s = .next (s.trapped fun v => trapAt stageAffAlign 4 0 (padAddr (affOffset s o v))))

theorem badAffine {s : State} (hne : s.run ≠ []) {o : RJ} {i : Instr} {n : Nat} {store : Bool}
    (hx : exec i s = .next (s.eachLane (affForm o n store s))) : badAffineTraps s o i n (affOpnds o n store) := by
  intro ho
  rw [padLines_eq]
  refine ⟨fun h => ?_, fun h => ?_, fun h => ?_⟩ <;> rw [hx]
  · exact congrArg _ (eachLane_card hne (fun v hv => affForm_verdict (ho v hv) (affCheck_index (h v hv))) (by decide))
  · exact congrArg _ (eachLane_card hne (fun v hv => affForm_verdict (ho v hv) (affCheck_range (h v hv).1 (h v hv).2)) (by decide))
  · refine congrArg _ (eachLane_card hne (fun v hv => ?_) (by decide))
    obtain ⟨hin, h0, hr, ha⟩ := h v hv
    exact affForm_verdict (ho v hv) (affCheck_align hin h0 hr ha)

/-- Settles O41: table by table. -/
theorem addressTraps : Obligations.AddressTraps := by
  intro s o l p j x hne
  refine ⟨?_, ?_⟩
  · simp only [List.forall_mem_append]
    exact ⟨⟨loadAccesses_trap hne o l x, storeAccesses_trap hne o l x⟩, atomAccesses_trap hne p⟩
  · intro rec' off inside pad load store i n opn hi
    simp only [List.mem_cons, List.not_mem_nil, or_false, Prod.mk.injEq] at hi
    obtain ⟨rfl, rfl, rfl⟩ | ⟨rfl, rfl, rfl⟩ | ⟨rfl, rfl, rfl⟩ | ⟨rfl, rfl, rfl⟩ := hi
    · exact badAffine (i := .lda32 j) (n := 4) (store := false) hne rfl
    · exact badAffine (i := .lda64 j) (n := 8) (store := false) hne rfl
    · exact badAffine (i := .sta32 j) (n := 4) (store := true) hne rfl
    · exact badAffine (i := .sta64 j) (n := 8) (store := true) hne rfl

end Sys2Proof.Proofs
end

section
/-! PROOFS. What keeps the registers of a core's threads: memory, barriers, records and the end of a crew write no register. -/

namespace Sys2Proof.Proofs
open Sys2Proof Sys2Proof.Machine

/-! ### Crews that keep their registers -/

/-- Two threads of one %tid with the same registers, window and sticky flags. -/
structure SameRegs (t u : Thread) : Prop where
  tid   : u.ident.tid = t.ident.tid
  regs  : u.regs = t.regs
  win   : u.win = t.win
  flags : u.ctl.fpflags = t.ctl.fpflags

theorem SameRegs.refl (t : Thread) : SameRegs t t := ⟨rfl, rfl, rfl, rfl⟩
theorem SameRegs.trans {t u v : Thread} (h : SameRegs t u) (k : SameRegs u v) : SameRegs t v :=
  ⟨k.tid.trans h.tid, k.regs.trans h.regs, k.win.trans h.win, k.flags.trans h.flags⟩

theorem forall₂_sameRegs_trans {l m n : List Thread} (h : List.Forall₂ SameRegs l m) (k : List.Forall₂ SameRegs m n) :
    List.Forall₂ SameRegs l n := by
  induction h generalizing n with
  | nil => exact k
  | cons ht _ ih =>
    cases k with
    | cons hu hr => exact .cons (ht.trans hu) (ih hr)

/-- The thread of a %tid among threads of the same registers. -/
theorem find?_sameRegs {l m : List Thread} (h : List.Forall₂ SameRegs l m) {x : W32} {u : Thread}
    (hu : m.find? (fun t => t.ident.tid == x) = some u) : ∃ t, l.find? (fun t => t.ident.tid == x) = some t ∧ SameRegs t u := by
  induction h with
  | nil => simp at hu
  | @cons t v l m htv _ ih =>
    by_cases ht : t.ident.tid = x
    · obtain rfl : v = u := by simpa [List.find?_cons, htv.tid, ht] using hu
      exact ⟨t, by simp [ht], htv⟩
    · rw [List.find?_cons_of_neg (by simpa [htv.tid] using ht)] at hu
      rw [List.find?_cons_of_neg (by simpa using ht)]
      exact ih hu

/-- From crew `a` to crew `b` no thread and no register of one has changed. -/
def CrewKept (a b : Crew) : Prop := b.k = a.k ∧ List.Forall₂ SameRegs a.all b.all

theorem CrewKept.refl (a : Crew) : CrewKept a a := ⟨rfl, List.forall₂_same.2 fun t _ => .refl t⟩
theorem CrewKept.trans {a b c : Crew} (h : CrewKept a b) (k : CrewKept b c) : CrewKept a c :=
  ⟨k.1.trans h.1, forall₂_sameRegs_trans h.2 k.2⟩

/-- What leaves the threads and the uniform registers as they are. -/
theorem CrewKept.of_eq {a b : Crew} (ht : b.threads = a.threads) (hs : b.sfe = a.sfe) (hk : b.k = a.k) : CrewKept a b := by
  have hall : b.all = a.all := by rw [Crew.all, Crew.all, ht, hs]
  exact ⟨hk, hall ▸ (CrewKept.refl a).2⟩

theorem CrewKept.onThreads (a : Crew) (p : Thread → Bool) {g : Thread → Thread} (hg : ∀ t, SameRegs t (g t)) :
    CrewKept a (a.onThreads p fun v => v.onTh g) := by
  refine ⟨k_onThreads_onTh a p, ?_⟩
  rw [all_onThreads, List.forall₂_map_right_iff, List.forall₂_same]
  intro t _
  split
  · exact hg t
  · exact .refl t

/-- The thread of a %tid, in a crew that keeps its registers. -/
theorem CrewKept.byTid {a b : Crew} (h : CrewKept a b) {x : W32} {u : Thread} (hu : b.byTid x = some u) :
    ∃ t, a.byTid x = some t ∧ SameRegs t u := find?_sameRegs h.2 hu

/-- The same where there may be no crew: one that is there was there before. -/
structure CrewOptKept (a b : Option Crew) : Prop where
  crew : ∀ c, b = some c → ∃ d, a = some d ∧ CrewKept d c

theorem CrewOptKept.refl (a : Option Crew) : CrewOptKept a a := ⟨fun c h => ⟨c, h, .refl c⟩⟩
theorem CrewOptKept.none (a : Option Crew) : CrewOptKept a none := ⟨fun _ h => by simp at h⟩
theorem CrewOptKept.map (a : Option Crew) {f : Crew → Crew} (hf : ∀ c, CrewKept c (f c)) : CrewOptKept a (a.map f) := by
  refine ⟨fun c hc => ?_⟩
  obtain ⟨d, hd, rfl⟩ := Option.map_eq_some_iff.1 hc
  exact ⟨d, hd, hf d⟩
theorem CrewOptKept.trans {a b c : Option Crew} (h : CrewOptKept a b) (k : CrewOptKept b c) : CrewOptKept a c := by
  refine ⟨fun z hz => ?_⟩
  obtain ⟨y, hy, hyz⟩ := k.crew z hz
  obtain ⟨x, hx, hxy⟩ := h.crew y hy
  exact ⟨x, hx, hxy.trans hyz⟩

/-- From core `c` to core `d` no register of a thread has changed, though the crew may have ended. -/
structure CoreKept (c d : Core) : Prop where
  crew : CrewOptKept c.crew d.crew

theorem CoreKept.of_crew {c d : Core} (h : d.crew = c.crew) : CoreKept c d := ⟨h ▸ .refl _⟩
theorem CoreKept.refl (c : Core) : CoreKept c c := .of_crew rfl
theorem CoreKept.onCrew (c : Core) {f : Crew → Crew} (hf : ∀ k, CrewKept k (f k)) : CoreKept c (c.onCrew f) := ⟨.map _ hf⟩
theorem CoreKept.ite {c d e : Core} {p : Prop} [Decidable p] (hd : CoreKept c d) (he : CoreKept c e) :
    CoreKept c (if p then d else e) := by
  split
  · exact hd
  · exact he

/-! ### States that keep the registers of a core's threads -/

/-- From `s` to `t` no register of a thread of core `core` has changed, though its crew may have ended. -/
structure LanesKept (core : Nat) (s t : State) : Prop where
  core : CrewOptKept (s.coreAt core).crew (t.coreAt core).crew

section Kept
variable {core : Nat} {s t u : State}

theorem LanesKept.refl : LanesKept core s s := ⟨.refl _⟩
theorem LanesKept.trans (h : LanesKept core s t) (k : LanesKept core t u) : LanesKept core s u := ⟨h.core.trans k.core⟩

/-- What leaves the core's crew as it is. -/
theorem LanesKept.of_crew (h : (t.coreAt core).crew = (s.coreAt core).crew) : LanesKept core s t := by
  refine ⟨?_⟩
  rw [h]
  exact .refl _

/-- A first step that leaves the core's crew as it is. -/
theorem LanesKept.after (k : LanesKept core t u) (h : (t.coreAt core).crew = (s.coreAt core).crew) : LanesKept core s u :=
  (of_crew h).trans k

theorem LanesKept.onCore (i : Nat) {f : Core → Core} (hf : ∀ c, CoreKept c (f c)) : LanesKept core s (s.onCore i f) := by
  refine ⟨?_⟩
  by_cases h : core = i
  · subst h
    rw [State.coreAt_onCore]
    exact (hf _).crew
  · rw [State.coreAt_onCore_other _ _ _ _ h]
    exact .refl _

theorem LanesKept.onCrew (i : Nat) {f : Crew → Crew} (hf : ∀ c, CrewKept c (f c)) :
    LanesKept core s (s.onCore i fun c => c.onCrew f) :=
  .onCore i fun c => .onCrew c hf

/-- An effect on threads that writes no register. -/
theorem LanesKept.onTids (i : Nat) (tids : List W32) {g : Thread → Thread} (hg : ∀ t, SameRegs t (g t)) :
    LanesKept core s (s.onTids i tids fun v => v.onTh g) :=
  .onCrew i fun c => .onThreads c _ hg

theorem LanesKept.ite {p : Prop} [Decidable p] (ht : LanesKept core s t) (hu : LanesKept core s u) :
    LanesKept core s (if p then t else u) := by
  split
  · exact ht
  · exact hu

theorem LanesKept.foldl {α : Type} (l : List α) {f : State → α → State} (hf : ∀ s x, LanesKept core s (f s x)) :
    LanesKept core s (l.foldl f s) := by
  induction l generalizing s with
  | nil => exact .refl
  | cons x l ih => exact (hf s x).trans ih

/-- Every core with the same crew as before. -/
theorem LanesKept.mapCores {f : Core → Core} (hid : ∀ c, (f c).id = c.id) (hf : ∀ c, (f c).crew = c.crew) (p : Nat) :
    LanesKept core s { s with cores := s.cores.map f, ptsLow := p } := by
  refine LanesKept.of_crew ?_
  have hp : (fun c : Core => c.id == core) ∘ f = fun c => c.id == core := by
    funext c
    simp [hid]
  simp only [State.coreAt, List.find?_map, hp]
  cases s.cores.find? fun c => c.id == core with
  | none => rfl
  | some c => exact hf c

/-! ### Memory -/

theorem onSect_crew (c : Core) (i : Nat) (f : Machine.Section → Machine.Section) : (c.onSect i f).crew = c.crew := rfl
theorem setHandleWord_crew (c : Core) (h i : Nat) (v : W32) : (c.setHandleWord h i v).crew = c.crew := rfl

/-- A word of the image of a bin, of the decision queue or of an affine record is no register. -/
theorem setImageWord_kept (c : Core) (slot off : Nat) (v : W32) : CoreKept c (c.setImageWord slot off v) := by
  have same {d : Core} (h : d.crew = c.crew) : CoreKept c d := .of_crew h
  have bin (k : Crew) (j i : Nat) : CrewKept k (k.setBinWord j i v) := by
    simp only [Crew.setBinWord]
    split <;> exact .of_eq rfl rfl rfl
  have dq (k : Crew) (n h : Nat) : CrewKept k (k.setDqWord n h v) := by
    simp only [Crew.setDqWord]
    split <;> exact .of_eq rfl rfl rfl
  unfold Core.setImageWord
  refine .ite (same rfl) (.ite (.ite (same rfl) (.ite (same rfl) (.ite (same rfl) (.ite (same rfl) (.ite ?_
    (.ite (same (onSect_crew ..)) (.ite (same rfl) (.ite (same rfl) (.ite (same (setHandleWord_crew ..)) (same rfl)))))))))) (.ite (.ite ?_ (.ite ?_ (.ite (same (onSect_crew ..)) (.ite ?_
    (.ite ?_ (.ite ?_ (same rfl))))))) (same rfl)))
  · exact .onCrew c fun k => .of_eq rfl rfl rfl
  · exact .onCrew c fun k => dq k _ _
  · exact .onCrew c fun k => .of_eq rfl rfl rfl
  · exact .onCrew c fun k => bin k _ _
  · exact .onCrew c fun k => .of_eq rfl rfl rfl
  · exact .onCrew c fun k => .of_eq rfl rfl rfl

/-- What a byte written to an image does to its core. -/
def setImageByte (free c k o : Nat) (b : Byte) (x : Core) : Core :=
  let w := if x.engineBusy then Config.freeWord [4, c, k, o / 4, free] else x.imageWord k (o / 4 * 4)
  x.setImageWord k (o / 4 * 4) ((w &&& ~~~(0xFF#32 <<< (8 * (o % 4)))) ||| (b.setWidth 32 <<< (8 * (o % 4))))

theorem wrByte_state (s : State) (c k o : Nat) (b : Byte) : s.wrByte (.state c k o) b = s.onCore c (setImageByte s.free c k o b) := rfl
theorem wrByte_pad (s : State) (c o : Nat) (b : Byte) : s.wrByte (.pad c o) b = s.onCore c fun x => x.setPadByte o b := rfl

theorem wrByte_kept (l : Loc) (b : Byte) : LanesKept core s (s.wrByte l b) := by
  cases l with
  | mem a => exact .of_crew rfl
  | pad c o =>
    rw [wrByte_pad]
    exact .onCore c fun _ => .of_crew rfl
  | cel c o => exact .of_crew rfl
  | state c k o =>
    rw [wrByte_state]
    exact .onCore c fun x => setImageWord_kept x k (o / 4 * 4) _
  | remote d a => exact .refl

theorem wrBytes_kept (l : Loc) (bs : List Byte) : LanesKept core s (s.wrBytes l bs) := by
  induction bs generalizing s l with
  | nil => exact .refl
  | cons b r ih => exact (wrByte_kept l b).trans (ih _)

theorem wr_kept (l : Loc) (n v : Nat) : LanesKept core s (s.wr l n v) :=
  (wrBytes_kept l _).trans (.of_crew rfl)

theorem clearFutures_kept (l : Loc) (n : Nat) : LanesKept core s (s.clearFutures l n) :=
  .foldl _ fun _ _ => .of_crew rfl

theorem pinPage_kept (was : State) (e : W64) (lvl : Nat) (on root : Bool) : LanesKept core s (was.pinPage s e lvl on root) := by
  unfold State.pinPage
  extract_lets p first upd new lo s1 fresh kept
  have hs : LanesKept core s kept := .ite (.ite (.of_crew rfl) (.of_crew rfl)) (.ite (.onCore _ fun _ => .of_crew rfl) .refl)
  exact .ite .refl (.ite (hs.trans (.of_crew rfl)) hs)

theorem mapPages_kept (was : State) (on root : Bool) (e : W64) (n : Nat) : LanesKept core s (was.mapPages s on root e n) := by
  induction n generalizing s e with
  | zero => exact .refl
  | succ n ih =>
    unfold State.mapPages
    split
    · exact .refl
    · split
      · exact pinPage_kept was ..
      · split
        · exact .refl
        · exact .foldl _ fun _ _ => ih _

theorem mapRoot_kept (root : Nat) : LanesKept core s (s.mapRoot root) := .foldl _ fun _ _ => mapPages_kept ..

theorem entryStored_kept (a : Nat) (old : W64) : LanesKept core s (s.entryStored a old) := by
  unfold State.entryStored
  simp only
  split
  · exact .refl
  · split
    · exact .refl
    · split
      · exact .of_crew rfl
      · exact mapPages_kept ..

theorem wrTables_kept (l : Loc) (n v : Nat) : LanesKept core s (s.wrTables l n v) := by
  cases l with
  | mem a => exact (wr_kept _ n v).trans (.foldl _ fun _ _ => entryStored_kept ..)
  | _ => exact wr_kept _ n v

theorem applyTerm_kept (x : Term) : LanesKept core s (s.applyTerm x) := by
  unfold State.applyTerm
  simp only
  split
  · exact .refl
  · split
    · exact .refl
    · exact (clearFutures_kept _ _).trans (wrTables_kept ..)

theorem raiseAll_kept (p : Nat) : LanesKept core s (s.raiseAll p) :=
  .mapCores (f := fun c => { c with pts := max c.pts p }) (fun _ => rfl) (fun _ => rfl) _

theorem raisePts_kept (i p : Nat) : LanesKept core s (s.raisePts i p) :=
  .onCore i (f := fun c => { c with pts := max c.pts p }) fun _ => .of_crew rfl

theorem stampTerms_kept (ts : List Term) : LanesKept core s (s.stampTerms ts) := by
  refine .foldl _ fun s l => ?_
  have hraise : ∀ (l : List Nat) (p : Nat) (s : State), LanesKept core s (l.foldl (fun s c => s.raisePts c p) s) :=
    fun l p s => .foldl l fun _ _ => raisePts_kept _ _
  simp only
  split
  · exact ((hraise _ _ _).trans (raiseAll_kept _)).after rfl
  · exact (hraise _ _ _).after rfl

theorem settle_kept (l : Loc) (n : Nat) : LanesKept core s (s.settle l n) := by
  unfold State.settle
  simp only
  split
  · exact .refl
  · refine LanesKept.trans ?_ (stampTerms_kept _)
    exact LanesKept.after (.foldl _ fun _ x => applyTerm_kept x) rfl

/-! ### Records (R380), core registers, barriers (R172) and saved crews (R373) -/

theorem cpWrite_kept (ten : Nat) (va : W64) (n v : Nat) : LanesKept core s (s.cpWrite ten va n v).1 := by
  unfold State.cpWrite
  split
  · exact .refl
  · exact (((settle_kept _ n).trans (clearFutures_kept _ n)).trans (wrTables_kept _ n v)).trans (.of_crew rfl)

theorem trace_kept (ten : Nat) (r : TraceRec) : LanesKept core s (s.trace ten r) := by
  unfold State.trace
  extract_lets t drop
  have hdrop (s : State) : LanesKept core s (drop s) := .of_crew rfl
  refine .ite .refl (.ite (hdrop s) ?_)
  have hw := cpWrite_kept (core := core) (s := s) ten (t.addr + BitVec.ofNat 64 (32 * t.count)) 32 r.bits
  split
  next => exact hdrop s
  next _ s' h =>
    rw [h] at hw
    exact hw.trans (.of_crew rfl)

theorem srWriteCore_kept (n : Nat) (x : W64) (c : Core) : CoreKept c (srWriteCore n x c) := by
  unfold srWriteCore
  split
  case h_1 => exact .onCrew c fun k => .of_eq rfl rfl rfl
  all_goals exact .of_crew rfl

theorem writeCoreReg_kept (i n : Nat) (t : Thread) (x : W64) : LanesKept core s (s.writeCoreReg i n t x) := by
  have h : LanesKept core s (s.onCore i (srWriteCore n x)) := .onCore i fun c => srWriteCore_kept n x c
  exact .ite h (h.trans (trace_kept _ _))

theorem inject_kept (a b : Nat) (cargo : Option (Nat × Nat)) : LanesKept core s (s.inject a b cargo) := by
  have wake (s : State) (r hops : Nat) : LanesKept core s (s.wakeRouter r hops) := .ite .refl (.of_crew rfl)
  refine .ite (.of_crew rfl) ?_
  split
  · exact .refl
  next r l _ =>
    cases l with
    | nil => exact (wake s r 1).trans (.of_crew rfl)
    | cons q l => exact ((wake s r 1).trans (wake _ q 2)).trans (.of_crew rfl)

theorem meet_kept (i : Nat) : LanesKept core s (s.meet i) := LanesKept.after (raisePts_kept i _) rfl

theorem sameRegs_complete (t : Thread) (len : W64) : SameRegs t (t.complete len) :=
  ⟨congrArg (·.ident.tid) (bare_complete t len), congrArg Prod.fst (regFlags_complete t len),
    congrArg (·.win) (bare_complete t len), congrArg Prod.snd (regFlags_complete t len)⟩

theorem releaseBar_same (t : Thread) (lvl : Nat) : SameRegs t (t.releaseBar lvl) := by
  unfold Thread.releaseBar
  extract_lets u
  split
  · obtain ⟨hi, hr, hw, hf⟩ := sameRegs_complete (t.setBpend lvl false).clearRW 4#64
    exact ⟨hi, hr, hw, hf⟩
  · exact ⟨rfl, rfl, rfl, rfl⟩

theorem completeInst_kept (t : Task) (i : Inst) : LanesKept core s (s.completeInst t i) := by
  unfold State.completeInst
  extract_lets nos cores s1 s2
  have h1 : LanesKept core s s1 := .foldl cores fun s c =>
    ((inject_kept _ _ _).trans (meet_kept c)).trans
      (.onCrew c fun k => .onThreads k i.member fun th => releaseBar_same th i.lvl)
  exact h1.trans (.of_crew rfl)

theorem tryInst_kept (ten task : Nat) (i : Inst) : LanesKept core s (s.tryInst ten task i) := by
  unfold State.tryInst
  split
  · exact .refl
  · exact .ite (completeInst_kept _ i) .refl

theorem tryBarriers_kept (ten task no : Nat) : LanesKept core s (s.tryBarriers ten task no) :=
  .foldl _ fun _ _ => tryInst_kept ten task _

theorem countCores_kept (ten id : Nat) (up : Bool) : LanesKept core s (s.countCores ten id up) := by
  unfold State.countCores
  split
  · exact .refl
  · refine .ite ?_ .refl
    unfold State.setStageField
    split
    · exact .refl
    · exact (wr_kept _ _ _).trans (.of_crew rfl)

theorem release_kept (i : Nat) (tid : W32) (depth : Nat) : LanesKept core s (s.onCore i fun x => x.onCrew fun c => c.release tid depth) := by
  refine .onCrew i fun c => .onThreads c _ fun t => ?_
  simp only
  split <;> exact ⟨rfl, rfl, rfl, rfl⟩

/-! ### The end of a crew that halts (R164, R360, R373) -/

theorem endCrew_kept (i : Nat) : LanesKept core s (s.onCore i Core.endCrew) := .onCore i fun _ => ⟨.none _⟩

/-- A crew is saved, which ends it on its core, or stays as it is. -/
theorem trySave_cases (s : State) (i : Nat) : s.trySave i = s ∨ ((s.trySave i).coreAt i).crew = none := by
  unfold State.trySave
  split
  · exact .inl rfl
  · split
    · exact .inl rfl
    · split
      · exact .inr (congrArg Core.crew (State.coreAt_onCore _ _ _))
      · exact .inl rfl

theorem trySave_kept (i : Nat) : LanesKept core s (s.trySave i) := by
  unfold State.trySave
  split
  · exact .refl
  · split
    · exact .refl
    · exact .ite (LanesKept.after ((countCores_kept _ _ _).trans (endCrew_kept i)) rfl) .refl

/-- A crew with a halted thread is not over. -/
theorem crewOver_halted {s : State} {i : Nat} (h : ∀ c, (s.coreAt i).crew = some c → ∃ t ∈ c.all, t.status = .halted) :
    s.crewOver i = false := by
  unfold State.crewOver
  split
  · rfl
  next c hc =>
    obtain ⟨t, ht, hs⟩ := h c hc
    have hall : (c.all.all fun t => t.status == .exited) = false := List.all_eq_false.2 ⟨t, ht, by simp [hs]⟩
    simp only [hall, Bool.false_and]

theorem settleEnd_kept {i : Nat} (h : ∀ c, (s.coreAt i).crew = some c → ∃ t ∈ c.all, t.status = .halted) :
    LanesKept core s (s.settleEnd i) := by
  have hover : (s.trySave i).crewOver i = false := by
    rcases trySave_cases s i with hs | hn
    · rw [hs]
      exact crewOver_halted h
    · exact crewOver_halted fun c hc => by simp [hn] at hc
  have hend : s.settleEnd i = s.trySave i := if_pos (by rw [hover]; rfl)
  rw [hend]
  exact trySave_kept i

end Kept

end Sys2Proof.Proofs
end

section
/-! PROOFS. The system instructions (R30, R103, R104, R356 to R360): what they complete with, and that they write no other register. -/

namespace Sys2Proof.Proofs
open Sys2Proof Sys2Proof.Machine

/-! ### Registers and flags between two views of a thread -/

/-- Between `v` and `w`, views of one thread, no register but those of `ds` has changed, and no sticky flag but those of `fl`. -/
structure RegsKept (ds : List Dst) (fl : W32) (v w : View) : Prop where
  tid   : w.th.ident.tid = v.th.ident.tid
  phys  : ∀ n, Dst.phys n ∉ ds → w.th.regs[n]? = v.th.regs[n]?
  uni   : ∀ n, Dst.uni n ∉ ds → w.k[n]? = v.k[n]?
  flags : w.th.ctl.fpflags &&& ~~~fl = v.th.ctl.fpflags &&& ~~~fl

section RegsKept
variable {ds : List Dst} {fl : W32} {u v w : View}

theorem RegsKept.of_keeps (h : Keeps ds fl id v w) : RegsKept ds fl v w :=
  ⟨congrArg (·.ident.tid) h.2.2.2.2, h.1, h.2.1, h.2.2.1⟩

theorem RegsKept.trans (h : RegsKept ds fl u v) (k : RegsKept ds fl v w) : RegsKept ds fl u w :=
  ⟨k.tid.trans h.tid, fun n hn => (k.phys n hn).trans (h.phys n hn), fun n hn => (k.uni n hn).trans (h.uni n hn), k.flags.trans h.flags⟩

/-- An effect on the thread alone that keeps its registers. -/
theorem RegsKept.onTh {g : Thread → Thread} (hi : (g v.th).ident.tid = v.th.ident.tid) (hr : (g v.th).regs = v.th.regs)
    (hf : (g v.th).ctl.fpflags &&& ~~~fl = v.th.ctl.fpflags &&& ~~~fl) : RegsKept ds fl v (v.onTh g) :=
  ⟨hi, fun n _ => by simp [View.onTh, hr], fun _ _ => rfl, hf⟩

end RegsKept

/-- The destinations of an instruction depend on the window alone, and those among the uniform registers on nothing. -/
theorem writes_congr (o : Opnds) {t u : Thread} (h : u.win = t.win) : o.writes u = o.writes t := by
  have href : u.ref = t.ref := funext₂ fun f i => ref_congr h f i
  simp only [Opnds.writes, Thread.refs, href]

theorem ref_uni {t : Thread} (u : Thread) {f : Fld} {i n : Nat} (h : t.ref f i = .uni n) : u.ref f i = .uni n := by
  unfold Thread.ref at h ⊢
  split at h
  · cases h
  · split at h
    · cases h
    next hz hf => rw [if_neg hz, if_neg hf, h]

theorem uni_mem_writes {o : Opnds} {t : Thread} (u : Thread) {n : Nat} (h : Dst.uni n ∈ o.writes t) : Dst.uni n ∈ o.writes u := by
  simp only [Opnds.writes, Thread.refs, List.mem_flatMap, List.mem_map] at h ⊢
  obtain ⟨x, hx, i, hi, hr⟩ := h
  exact ⟨x, hx, i, hi, ref_uni u hr⟩

/-! ### A thread by its %tid, before and after -/

theorem LanesKept.view? {core : Nat} {s t : State} (h : LanesKept core s t) {x : W32} {w : View} (hw : t.view? core x = some w) :
    ∃ v, s.view? core x = some v ∧ SameRegs v.th w.th ∧ w.k = v.k := by
  simp only [State.view?] at hw ⊢
  cases hc : (t.coreAt core).crew with
  | none => simp [hc] at hw
  | some c =>
    obtain ⟨d, hd, hdc⟩ := h.core.crew c hc
    simp only [hc] at hw
    obtain ⟨u, hu, rfl⟩ := Option.map_eq_some_iff.1 hw
    obtain ⟨r, hr, hru⟩ := hdc.byTid hu
    exact ⟨⟨r, d.k⟩, by simp [hd, hr], hru, hdc.1⟩

/-- A thread after an effect on some threads: its own effect, and that of one of them on the uniform registers. -/
theorem view?_onTids {core : Nat} {s : State} {tids : List W32} {f : View → View} (hf : ∀ v, (f v).th.ident.tid = v.th.ident.tid)
    {x : W32} (hx : x ∈ tids) {w : View} (hw : (s.onTids core tids f).view? core x = some w) :
    ∃ v, s.view? core x = some v ∧ w.th = (f v).th ∧ (w.k = v.k ∨ ∃ u, u.k = v.k ∧ w.k = (f u).k) := by
  simp only [State.view?, State.onTids, State.coreAt_onCore, Core.onCrew] at hw ⊢
  cases hc : (s.coreAt core).crew with
  | none => simp [hc] at hw
  | some c =>
    simp only [hc, Option.map_some, byTid_onThreads c _ hf] at hw ⊢
    cases ht : c.byTid x with
    | none => simp [ht] at hw
    | some t =>
      have htx : t.ident.tid = x := by simpa using List.find?_some ht
      simp only [ht, Option.map_some, htx, List.contains_iff_mem, if_pos hx] at hw
      obtain rfl := Option.some.inj hw
      refine ⟨⟨t, c.k⟩, rfl, rfl, ?_⟩
      simp only [Crew.onThreads]
      split
      · exact .inr ⟨⟨c.sfe, c.k⟩, rfl, rfl⟩
      · exact .inl rfl

/-- What an instruction keeps whose effect on its lanes keeps it, with steps before and after that write no register. -/
theorem lanesKeep_of {s s' t : State} {o : Opnds} {fl : W32} {f : View → View} (h : LanesKept s.issue.core s s')
    (hf : ∀ v, RegsKept (o.writes v.th) fl v (f v)) (k : LanesKept s.issue.core (s'.onTids s.issue.core s.tids f) t) :
    s.lanesKeep t o fl := by
  intro x hx v w hv hw
  obtain ⟨w', hw', hsame', hk'⟩ := k.view? hw
  obtain ⟨v', hv', hth, huni⟩ := view?_onTids (fun v => (hf v).tid) hx hw'
  obtain ⟨v'', hv'', hsame, hk⟩ := h.view? hv'
  obtain rfl : v'' = v := Option.some.inj (hv''.symm.trans hv)
  have hwrites : o.writes v'.th = o.writes v''.th := writes_congr o hsame.win
  have hfv := hf v'
  rw [hwrites] at hfv
  refine ⟨fun n hn => ?_, fun n hn => ?_, ?_⟩
  · rw [hsame'.regs, hth, hfv.phys n hn, hsame.regs]
  · rw [hk', ← hk]
    rcases huni with hu | ⟨u, hu, hfu⟩
    · rw [hu]
    · rw [hfu, (hf u).uni n fun hmem => hn (uni_mem_writes _ hmem), hu]
  · rw [hsame'.flags, hth, hfv.flags, hsame.flags]

/-! ### The system instructions but LOADFE -/

/-- What an instruction does that completes, with no QM command in flight. -/
theorem result_quiet {s : State} (hq : s.quiet) (k : LaneForm) : k.result s = k.act s.tids s := actQm_quiet hq _ _ _

theorem noteUnseen_kept {ds : List Dst} {fl : W32} (o : Opnds) (v : View) : RegsKept ds fl v (o.noteUnseen v) :=
  .of_keeps (.noteUnseen o)

section Sys
variable {s : State}

theorem mfsr_lanesKeep (m : MfsrOp) (fl : W32) : s.lanesKeep ((mfsrForm m s).act s.tids s) (mfsrForm m s).opn fl := by
  refine lanesKeep_of .refl (fun v => ?_) .refl
  have latch : RegsKept ((mfsrForm m s).opn.writes v.th) fl v (v.onTh (srLatch (s.srEnv s.issue.core) m.n.toNat)) := by
    refine .onTh ?_ ?_ ?_ <;> (simp only [srLatch]; split <;> rfl)
  have hwin : (srLatch (s.srEnv s.issue.core) m.n.toNat v.th).win = v.th.win := by
    simp only [srLatch]
    split <;> rfl
  have href (i : Nat) : (v.onTh (srLatch (s.srEnv s.issue.core) m.n.toNat)).th.ref m.d i = v.th.ref m.d i := ref_congr hwin m.d i
  refine (latch.trans ?_).trans (.of_keeps (.done _))
  split
  next hw =>
    have hd : (mfsrForm m s).opn.dsts = [⟨m.d, 2⟩] := by simp only [mfsrForm, hw, if_true]
    have hmem := mem_writes_pair hd v
    rw [noteUnseen_ref, noteUnseen_ref] at hmem
    exact .of_keeps (.wr64 (by rw [href]; exact hmem.1) (by rw [href]; exact hmem.2) _)
  next hw =>
    have hd : (mfsrForm m s).opn.dsts = [⟨m.d, 1⟩] := by simp only [mfsrForm, hw]; rfl
    have hmem := mem_writes_single hd v
    rw [noteUnseen_ref] at hmem
    exact .of_keeps (.wr32 (by rw [href]; exact hmem) _)

theorem srWriteThread_kept (n : Nat) (x : W64) (t : Thread) :
    (srWriteThread n x t).ident.tid = t.ident.tid ∧ (srWriteThread n x t).regs = t.regs ∧
    (n ≠ 0x022 → (srWriteThread n x t).ctl.fpflags = t.ctl.fpflags) := by
  unfold srWriteThread
  split
  case h_10 => exact ⟨rfl, rfl, fun h => absurd rfl h⟩
  all_goals exact ⟨rfl, rfl, fun _ => rfl⟩

theorem srWriteLane_kept (n : Nat) (x : W64) (t : Thread) :
    (srWriteLane n x t).ident.tid = t.ident.tid ∧ (srWriteLane n x t).regs = t.regs ∧
    (n ≠ 0x022 → (srWriteLane n x t).ctl.fpflags = t.ctl.fpflags) := by
  have hc (t : Thread) := sameRegs_complete t 4#64
  rw [srWriteLane]
  split
  · obtain ⟨hi, hr, hf⟩ := srWriteThread_kept n x (t.complete 4#64)
    exact ⟨hi.trans (hc t).tid, hr.trans (hc t).regs, fun h => (hf h).trans (hc t).flags⟩
  · obtain ⟨hi, hr, hf⟩ := srWriteThread_kept n x t
    exact ⟨(hc _).tid.trans hi, (hc _).regs.trans hr, fun h => (hc _).flags.trans (hf h)⟩

/-- The loop buffer of a thread takes a body, and nothing else changes. -/
theorem takeBody_kept (s : State) (core n : Nat) (t : Thread) : SameRegs t (s.takeBody core n t) := by
  unfold State.takeBody
  split <;> exact ⟨rfl, rfl, rfl, rfl⟩

/-- The sticky flags that MTSR may change. -/
def mtsrFlags (n : MtsrOp) : W32 := if n.n.toNat = 0x022 then BitVec.allOnes 32 else 0#32

theorem mtsr_lane (s' : State) (n : MtsrOp) (v : View) (ds : List Dst) : RegsKept ds (mtsrFlags n) v
    (((mtsrForm n s).opn.noteUnseen v).onTh fun t => s'.takeBody s.issue.core n.n.toNat (srWriteLane n.n.toNat (mtsrValue n v) t)) := by
  refine (noteUnseen_kept (mtsrForm n s).opn v).trans ?_
  generalize (mtsrForm n s).opn.noteUnseen v = w
  obtain ⟨hi, hr, hf⟩ := srWriteLane_kept n.n.toNat (mtsrValue n v) w.th
  have hb := takeBody_kept s' s.issue.core n.n.toNat (srWriteLane n.n.toNat (mtsrValue n v) w.th)
  refine .onTh (hb.tid.trans hi) (hb.regs.trans hr) ?_
  by_cases h : n.n.toNat = 0x022
  · simp [mtsrFlags, h]
  · rw [hb.flags, hf h]

/-- What follows the writes of MTSR: a barrier may complete, or a root come into use. -/
theorem mtsr_after (u : State) (n : MtsrOp) (rs : List Nat) (c : Nat) : LanesKept c u
    (match n.n.toNat, u.crew? with
      | 0x030, some c => u.tryBarriers c.ten c.task c.no
      | 0x402, _ => rs.foldl State.mapRoot u
      | _, _ => u) := by
  split
  · exact tryBarriers_kept _ _ _
  · exact .foldl _ fun _ _ => mapRoot_kept _
  · exact .refl

theorem mtsr_lanesKeep (n : MtsrOp) : s.lanesKeep ((mtsrForm n s).act s.tids s) (mtsrForm n s).opn (mtsrFlags n) :=
  lanesKeep_of (LanesKept.foldl _ fun _ _ => writeCoreReg_kept _ _ _ _) (fun v => mtsr_lane _ n v _) (mtsr_after _ n _ _)

/-- The same for a form whose effect reaches each lane alone, and then what the lanes share. -/
theorem thenDo_lanesKeep {o : Opnds} {chk : View → Verdict} {op : View → View} {after : List W32 → State → State} {fl : W32}
    (hop : ∀ ds v, RegsKept ds fl v (op v))
    (hafter : LanesKept s.issue.core (s.onTids s.issue.core s.tids fun v => op (o.noteUnseen v))
      (after s.tids (s.onTids s.issue.core s.tids fun v => op (o.noteUnseen v)))) :
    s.lanesKeep ((LaneForm.thenDo o chk op after).act s.tids s) (LaneForm.thenDo o chk op after).opn fl :=
  lanesKeep_of .refl (fun v => (noteUnseen_kept o v).trans (hop _ _)) hafter

theorem sameRegs_eret (t : Thread) : SameRegs t t.eret := by
  obtain ⟨hbare, hregs⟩ := bare_eret t
  obtain ⟨kregs, -, -, kctl, -⟩ := returning_keeps t
  have hkeep : (returning t).ident = t.ident ∧ (returning t).win = t.win := by
    simp only [returning]
    split <;> exact ⟨rfl, rfl⟩
  have hi : t.eret.ident = (returning t).ident := congrArg (·.ident) hbare
  have hw : t.eret.win = (returning t).win := congrArg (·.win) hbare
  exact ⟨by rw [hi, hkeep.1], (congrArg Prod.fst hregs).trans kregs, hw.trans hkeep.2,
    (congrArg Prod.snd hregs).trans (congrArg (·.fpflags) kctl)⟩

theorem sameRegs_regather (t : Thread) : SameRegs t t.regather := by
  unfold Thread.regather
  generalize (t.rejoin.filter fun r => r.depth == t.depth + 1 && r.pc == t.pc && !r.mates.isEmpty) = here
  cases here <;> exact ⟨rfl, rfl, rfl, rfl⟩

theorem SameRegs.kept {g : Thread → Thread} (h : ∀ t, SameRegs t (g t)) (ds : List Dst) (fl : W32) (v : View) :
    RegsKept ds fl v (v.onTh g) :=
  .onTh (h v.th).tid (h v.th).regs (by rw [(h v.th).flags])

/-- What ERET does beside its lanes: threads held for them go on, and they gather at a collective instruction again (R137, R351). -/
def eretAfter (core : Nat) (tids : List W32) (s : State) : State :=
  (tids.foldl (fun s tid => match s.view? core tid with
    | none => s
    | some v => s.onCore core fun x => x.onCrew fun c => c.release tid v.th.depth) s).onTids core tids fun v => v.onTh Thread.regather

theorem eretForm_eq (s : State) :
    eretForm s = .thenDo {} (fun v => eretVerdict v.th) (fun v => v.onTh Thread.eret) (eretAfter s.issue.core) := rfl

theorem eretAfter_kept (core : Nat) (tids : List W32) (u : State) : LanesKept core u (eretAfter core tids u) := by
  refine LanesKept.trans (.foldl _ fun u x => ?_) (.onTids _ _ sameRegs_regather)
  split
  · exact .refl
  · exact release_kept _ _ _

theorem eret_lanesKeep (fl : W32) : s.lanesKeep ((eretForm s).act s.tids s) (eretForm s).opn fl := by
  rw [eretForm_eq]
  exact thenDo_lanesKeep (SameRegs.kept sameRegs_eret · fl) (eretAfter_kept ..)

theorem probe_lanesKeep (k : N4) (fl : W32) : s.lanesKeep ((probeForm k).act s.tids s) (probeForm k).opn fl := by
  refine thenDo_lanesKeep (fun _ v => .of_keeps (.done 4#64)) ?_
  split
  · exact .refl
  · exact .of_crew rfl

/-- A crew, where there is one, has a halted thread. -/
def HasHalted (core : Nat) (s : State) : Prop := ∀ c, (s.coreAt core).crew = some c → ∃ t ∈ c.all, t.status = .halted

theorem HasHalted.release {core : Nat} {u : State} (h : HasHalted core u) (x : W32) (d : Nat) :
    HasHalted core (u.onCore core fun k => k.onCrew fun c => c.release x d) := by
  intro c hc
  rw [State.coreAt_onCore] at hc
  obtain ⟨c', hc', rfl⟩ := Option.map_eq_some_iff.1 hc
  obtain ⟨t, ht, hs⟩ := h c' hc'
  rw [Crew.release, all_onThreads]
  refine ⟨_, List.mem_map_of_mem ht, ?_⟩
  simp only [if_true, View.onTh, hs]

/-- The threads of a run halt. -/
theorem hasHalted_run (hne : s.run ≠ []) {f : View → View} (hf : ∀ v, (f v).th.status = .halted) :
    HasHalted s.issue.core (s.onTids s.issue.core s.tids f) := by
  obtain ⟨v, r, hr⟩ := List.exists_cons_of_ne_nil hne
  have hv : v ∈ s.run := by simp [hr]
  intro c hc
  obtain ⟨a, ha⟩ := crew_of_run hne
  have hc' : c = a.onThreads (fun t => s.tids.contains t.ident.tid) f := by
    have := crew_onTids s s.tids f
    rw [ha] at this
    exact Option.some.inj (hc.symm.trans this)
  simp only [State.run, ha, List.mem_map, List.mem_filter] at hv
  obtain ⟨t, ⟨ht, hhas⟩, rfl⟩ := hv
  have hmem : t.ident.tid ∈ s.tids := by
    simp only [State.tids, State.run, ha, List.map_map, List.mem_map, List.mem_filter]
    exact ⟨t, ⟨ht, hhas⟩, rfl⟩
  rw [hc', all_onThreads]
  refine ⟨_, List.mem_map_of_mem ht, ?_⟩
  rw [if_pos (by simpa using hmem), hf]

/-- What HALT does beside its lanes: threads held for them go on, and the crew may be saved (R351, R360). -/
def haltAfter (core : Nat) (tids : List W32) (s : State) : State :=
  (tids.foldl (fun s tid => s.onCore core fun x => x.onCrew fun c => c.release tid 0) s).settleEnd core

/-- The check of HALT: a crew under pre-emption. -/
def haltCheck (s : State) (_ : View) : Verdict :=
  if (s.crew?.map fun c => c.preempt.isSome).getD false then .ok else .trap (trapOpen stageCard Cause.illegal 12)

theorem haltForm_eq (s : State) : haltForm s =
    .thenDo { priv := true } (haltCheck s) (fun v => v.onTh fun t => { t with status := .halted }) (haltAfter s.issue.core) := rfl

theorem haltAfter_kept {core : Nat} (tids : List W32) {u : State} (h : HasHalted core u) : LanesKept core u (haltAfter core tids u) := by
  induction tids generalizing u with
  | nil => exact settleEnd_kept h
  | cons x l ih => exact (release_kept core x 0).trans (ih (h.release x 0))

theorem halt_lanesKeep (hne : s.run ≠ []) (fl : W32) : s.lanesKeep ((haltForm s).act s.tids s) (haltForm s).opn fl := by
  rw [haltForm_eq]
  exact thenDo_lanesKeep (fun _ _ => .onTh rfl rfl rfl) (haltAfter_kept _ (hasHalted_run hne fun _ => rfl))

/-- The rows but that of LOADFE. -/
theorem sysRows_keep {m : MfsrOp} {n : MtsrOp} {ab : RAB} {k : N4} (hne : s.run ≠ []) : ∀ r ∈ sysRows m n ab k s, r.1 ≠ .loadfe ab →
    s.lanesKeep (r.2.act s.tids s) r.2.opn (if n.n.toNat = 0x022 ∧ r.1 = .mtsr n then BitVec.allOnes 32 else 0#32) := by
  simp only [sysRows, List.forall_mem_cons]
  refine ⟨fun _ => mfsr_lanesKeep m _, fun _ => ?_, fun _ => eret_lanesKeep _, fun h => absurd rfl h, fun _ => probe_lanesKeep k _,
    fun _ => halt_lanesKeep hne _, List.forall_mem_nil _⟩
  simp only [and_true]
  exact mtsr_lanesKeep n

end Sys

/-! ### LOADFE (R358) -/

/-- Between `v` and `w`, views of one thread, no register's value has changed, and no sticky flag. -/
structure ValuesKept (v w : View) : Prop where
  tid   : w.th.ident.tid = v.th.ident.tid
  regs  : w.th.regs.map (·.val) = v.th.regs.map (·.val)
  uni   : w.k.map (·.val) = v.k.map (·.val)
  flags : w.th.ctl.fpflags = v.th.ctl.fpflags

theorem ValuesKept.refl (v : View) : ValuesKept v v := ⟨rfl, rfl, rfl, rfl⟩
theorem ValuesKept.trans {u v w : View} (h : ValuesKept u v) (k : ValuesKept v w) : ValuesKept u w :=
  ⟨k.tid.trans h.tid, k.regs.trans h.regs, k.uni.trans h.uni, k.flags.trans h.flags⟩
theorem ValuesKept.onTh {v : View} {g : Thread → Thread} (h : SameRegs v.th (g v.th)) : ValuesKept v (v.onTh g) :=
  ⟨h.tid, congrArg _ h.regs, rfl, h.flags⟩

/-- A register of a list written with its own value. -/
theorem map_val_set (l : List Reg) (n : Nat) {r : Reg} (h : r.val = (l.getD n Reg.z).val) : (l.set n r).map (·.val) = l.map (·.val) := by
  rw [List.map_set, h]
  refine List.ext_getElem? fun i => ?_
  by_cases hi : i = n
  · subst hi
    by_cases hl : i < l.length <;> simp [hl]
  · rw [List.getElem?_set_ne (Ne.symm hi)]

theorem put_values (v : View) (d : Dst) {r : Reg} (h : r.val = (v.get d).val) : ValuesKept v (v.put d r) := by
  cases d with
  | drop => exact .refl v
  | phys n => exact ⟨rfl, map_val_set _ n h, rfl, rfl⟩
  | uni n => exact ⟨rfl, rfl, map_val_set _ n h, rfl⟩

theorem feWrite_values (v : View) (g : Nat) (x : W64) : ValuesKept v (v.feWrite g x) := by
  unfold View.feWrite
  generalize List.range 32 = l
  induction l generalizing v with
  | nil => exact .refl v
  | cons j l ih => exact (put_values v (feDst v.th g j) (by rfl)).trans (ih _)

theorem noteUnseen_values (o : Opnds) (v : View) : ValuesKept v (o.noteUnseen v) := by
  rw [Opnds.noteUnseen]
  split
  · exact .onTh (g := Thread.setUnseen) ⟨rfl, rfl, rfl, rfl⟩
  · exact .refl v

/-- What LOADFE does to a lane: it writes the bits of a group of registers. -/
def loadfeWrite (o : RAB) (v : View) : View :=
  match feSel (v.rd32 o.a) v.th with
  | some (.group g) => v.feWrite g (v.rd64 o.b)
  | _ => v
def loadfeLane (o : RAB) (v : View) : View := (loadfeWrite o v).done 4#64

theorem loadfeLane_values (o : RAB) (v : View) : ValuesKept v (loadfeLane o v) := by
  have hdone : ValuesKept (loadfeWrite o v) (loadfeLane o v) :=
    .onTh (g := fun t => t.complete 4#64) (sameRegs_complete (loadfeWrite o v).th 4#64)
  refine ValuesKept.trans ?_ hdone
  unfold loadfeWrite
  split
  · exact feWrite_values v _ _
  · exact .refl v

/-- What LOADFE does to the lines of the scratchpad leaves the crew as it is. -/
theorem feLine_crew_one (c : Core) (q : Nat) (x : W64) : (c.feLine q x).crew = c.crew := by
  simp only [Core.feLine]

theorem feLine_crew (l : List (Nat × W64)) (c : Core) : (l.foldl (fun c x => c.feLine x.1 x.2) c).crew = c.crew := by
  induction l generalizing c with
  | nil => rfl
  | cons x l ih =>
    rw [List.foldl_cons, ih, feLine_crew_one]

theorem loadfe_act (o : RAB) (s : State) : ∃ l : List (Nat × W64), (loadfeForm o s).act s.tids s =
    (s.onTids s.issue.core s.tids fun v => loadfeLane o ((loadfeForm o s).opn.noteUnseen v)).onCore s.issue.core
      fun c => l.foldl (fun c x => c.feLine x.1 x.2) c := ⟨_, rfl⟩

theorem loadfe_values {s : State} {o : RAB} {x : W32} (hx : x ∈ s.tids) {v w : View} (hv : s.view? s.issue.core x = some v)
    (hw : ((loadfeForm o s).act s.tids s).view? s.issue.core x = some w) : ValuesKept v w := by
  obtain ⟨l, hl⟩ := loadfe_act o s
  have hlane := fun v => (noteUnseen_values (loadfeForm o s).opn v).trans (loadfeLane_values o _)
  have hlines := fun u : State => LanesKept.onCore (core := s.issue.core) (s := u) s.issue.core fun c => .of_crew (feLine_crew l c)
  rw [hl] at hw
  obtain ⟨w', hw', hsame, hk⟩ := (hlines _).view? hw
  obtain ⟨v', hv', hth, huni⟩ := view?_onTids (fun v => (hlane v).tid) hx hw'
  obtain rfl : v' = v := Option.some.inj (hv'.symm.trans hv)
  have hfv := hlane v'
  refine ⟨by rw [hsame.tid, hth, hfv.tid], by rw [hsame.regs, hth, hfv.regs], ?_, by rw [hsame.flags, hth, hfv.flags]⟩
  rw [hk]
  rcases huni with hu | ⟨u, hu, hfu⟩
  · rw [hu]
  · rw [hfu, (hlane u).uni, hu]

/-! ### Completion -/

theorem sysRows_complete (s : State) (m : MfsrOp) (n : MtsrOp) (ab : RAB) (k : N4) : ∀ r ∈ sysRows m n ab k s,
    exec r.1 s = .next (s.eachLane r.2) := by
  simp only [sysRows, List.forall_mem_cons]
  exact ⟨rfl, rfl, rfl, rfl, rfl, rfl, List.forall_mem_nil _⟩

/-- Settles O34: each row by its effect on a lane, and by what follows it for what the lanes share. -/
theorem systemInstructions : Obligations.SystemInstructions := by
  intro s m n ab k o
  have hx := sysRows_complete s m n ab k
  refine ⟨fun r hr hg => by rw [hx r hr, s.eachLane_passes r.2 hg], fun hr => congrArg _ (State.lanes_ready hr _), fun t hq _ => ⟨?_, ?_⟩⟩
  · intro r hr hne hg ht
    rw [hx r hr, s.eachLane_passes r.2 hg, result_quiet hq] at ht
    obtain rfl : r.2.act s.tids s = t := by simpa using ht
    exact sysRows_keep hg.1 r hr hne
  · intro hg ht x hmem v w hv hw
    have hrow : exec (.loadfe ab) s = .next (s.eachLane (loadfeForm ab s)) := rfl
    rw [hrow, s.eachLane_passes _ hg, result_quiet hq] at ht
    obtain rfl : (loadfeForm ab s).act s.tids s = t := by simpa using ht
    obtain ⟨-, hregs, huni, hflags⟩ := loadfe_values hmem hv hw
    exact ⟨hregs, huni, hflags⟩

end Sys2Proof.Proofs
end

section
/-! PROOFS. The bytes of storage: what a store writes, that it writes no other byte, and what leaves every byte and every crew alone. -/

namespace Sys2Proof.Proofs
open Sys2Proof Sys2Proof.Machine

/-! ### States of the same storage and crews -/

/-- From core `c` to core `d` no crew and no word of the scratchpad has changed. -/
structure CoreStill (c d : Core) : Prop where
  crew   : d.crew = c.crew
  pad    : d.pad = c.pad
  pinned : d.pinned = c.pinned
  epoch  : d.epoch = c.epoch

theorem CoreStill.refl (c : Core) : CoreStill c c := ⟨rfl, rfl, rfl, rfl⟩
theorem CoreStill.trans {c d e : Core} (h : CoreStill c d) (k : CoreStill d e) : CoreStill c e :=
  ⟨k.crew.trans h.crew, k.pad.trans h.pad, k.pinned.trans h.pinned, k.epoch.trans h.epoch⟩

/-- From `s` to `t` no byte of storage and no crew has changed. -/
structure Still (s t : State) : Prop where
  mem   : t.mem = s.mem
  cells : t.cells = s.cells
  free  : t.free = s.free
  core  : ∀ i, CoreStill (s.coreAt i) (t.coreAt i)

section Still
variable {s t u : State}

theorem Still.refl : Still s s := ⟨rfl, rfl, rfl, fun _ => .refl _⟩
theorem Still.trans (h : Still s t) (k : Still t u) : Still s u :=
  ⟨k.mem.trans h.mem, k.cells.trans h.cells, k.free.trans h.free, fun i => (h.core i).trans (k.core i)⟩

/-- What leaves memory and the cores as they are. -/
theorem Still.of_eq (hm : t.mem = s.mem) (hl : t.cells = s.cells) (hf : t.free = s.free) (hc : t.cores = s.cores) : Still s t := by
  refine ⟨hm, hl, hf, fun i => ?_⟩
  have hfind : (t.cores.find? fun c => c.id == i) = s.cores.find? fun c => c.id == i := by rw [hc]
  unfold State.coreAt
  rw [hfind]
  cases s.cores.find? fun c => c.id == i with
  | none => exact ⟨rfl, rfl, rfl, rfl⟩
  | some c => exact .refl c

theorem Still.onCore (i : Nat) {f : Core → Core} (hf : ∀ c, CoreStill c (f c)) : Still s (s.onCore i f) := by
  refine ⟨rfl, rfl, rfl, fun j => ?_⟩
  by_cases h : j = i
  · subst h
    rw [State.coreAt_onCore]
    obtain ⟨hc, hp, hn, he⟩ := hf (s.coreAt j)
    exact ⟨hc, hp, hn, he⟩
  · rw [State.coreAt_onCore_other _ _ _ _ h]
    exact .refl _

theorem Still.ite {p : Prop} [Decidable p] (ht : Still s t) (hu : Still s u) : Still s (if p then t else u) := by
  split
  · exact ht
  · exact hu

theorem Still.foldl {α : Type} (l : List α) {f : State → α → State} (hf : ∀ s x, Still s (f s x)) : Still s (l.foldl f s) := by
  induction l generalizing s with
  | nil => exact .refl
  | cons x l ih => exact (hf s x).trans ih

theorem Still.view? (h : Still s t) (core : Nat) (x : W32) : t.view? core x = s.view? core x := by
  rw [State.view?, State.view?, (h.core core).crew]

/-- Two cores of one number read the same scratchpad. -/
theorem padByte_congr {c d : Core} (hp : d.pad = c.pad) (hn : d.pinned = c.pinned) (hi : d.id = c.id) (he : d.epoch = c.epoch) (o : Nat) :
    d.padByte o = c.padByte o := by
  simp only [Core.padByte, Core.padWord, hp, hn, hi, he]

theorem padByte_withId {c : Core} {i : Nat} (h : c.id = i) (o : Nat) : ({ c with id := i }).padByte o = c.padByte o := by
  subst h
  rfl

/-- A place that is no word of an image reads the same byte where memory and the scratchpads are the same. -/
theorem rdByte_congr (hm : t.mem = s.mem) (hl : t.cells = s.cells) (hf : t.free = s.free)
    (hp : ∀ i o, (t.coreAt i).padByte o = (s.coreAt i).padByte o) {l : Loc} (h : l.isImage = false) : t.rdByte l = s.rdByte l := by
  cases l with
  | mem a => simp only [State.rdByte, hm]
  | pad c o => exact hp c o
  | cel c o => simp only [State.rdByte, State.cellAt, hl]
  | state c k o => cases h
  | remote d a => simp only [State.rdByte, hf]

theorem Still.rdByte (h : Still s t) {l : Loc} (hl : l.isImage = false) : t.rdByte l = s.rdByte l :=
  rdByte_congr h.mem h.cells h.free
    (fun i o => padByte_congr (h.core i).pad (h.core i).pinned (by rw [coreAt_id, coreAt_id]) (h.core i).epoch o) hl

/-- An effect on one thread leaves every byte alone. -/
theorem rdByte_onThread (s : State) (core : Nat) (x : W32) (f : View → View) {l : Loc} (hl : l.isImage = false) :
    (s.onThread core x f).rdByte l = s.rdByte l := by
  refine rdByte_congr (s := s) (t := s.onThread core x f) rfl rfl rfl (fun i o => ?_) hl
  by_cases h : i = core
  · subst h
    simp only [State.onThread, State.onTids, State.coreAt_onCore]
    exact padByte_withId (c := (s.coreAt i).onCrew _) (coreAt_id s i) o
  · simp only [State.onThread, State.onTids, State.coreAt_onCore_other _ _ _ _ h]

end Still

/-! ### Timestamps, future words and messages -/

section Kept
variable (s : State)

theorem settle_nil {s : State} (h : s.terms = []) (l : Loc) (n : Nat) : s.settle l n = s := by
  simp [State.settle, h, sortBy]

theorem raisePts_still (i p : Nat) : Still s (s.raisePts i p) :=
  .onCore i (f := fun c => { c with pts := max c.pts p }) fun _ => ⟨rfl, rfl, rfl, rfl⟩

theorem putStamps_still (x : Line) : Still s (s.putStamps x) := .of_eq rfl rfl rfl rfl

theorem stampLoad_still (i : Nat) (l : Loc) : Still s (s.stampLoad i l) := by
  unfold State.stampLoad
  exact .ite .refl ((putStamps_still s _).trans (raisePts_still _ i _))

theorem stampStore_still (i : Nat) (l : Loc) : Still s (s.stampStore i l) := by
  unfold State.stampStore
  exact .ite .refl ((putStamps_still s _).trans (raisePts_still _ i _))

theorem clearFutures_still (l : Loc) (n : Nat) : Still s (s.clearFutures l n) := .foldl _ fun _ _ => .of_eq rfl rfl rfl rfl

theorem inject_still (a b : Nat) (cargo : Option (Nat × Nat)) : Still s (s.inject a b cargo) := by
  have wake (s : State) (r hops : Nat) : Still s (s.wakeRouter r hops) := .ite .refl (.of_eq rfl rfl rfl rfl)
  refine .ite (.of_eq rfl rfl rfl rfl) ?_
  split
  · exact .refl
  next r l _ =>
    cases l with
    | nil => exact (wake s r 1).trans (.of_eq rfl rfl rfl rfl)
    | cons q l => exact ((wake s r 1).trans (wake _ q 2)).trans (.of_eq rfl rfl rfl rfl)

end Kept

/-! ### Bytes of the scratchpad (R200) -/

theorem padWord_putBy_same (c : Core) (w : PadWord) : ({ c with pad := putBy PadWord.idx w c.pad }).padWord w.idx = w := by
  have h := find_putBy_same PadWord.idx w c.pad
  unfold Core.padWord
  simp only
  rw [h]

theorem padWord_putBy_other (c : Core) (w : PadWord) {i : Nat} (h : i ≠ w.idx) :
    ({ c with pad := putBy PadWord.idx w c.pad }).padWord i = c.padWord i := by
  have h := find_putBy_other PadWord.idx w c.pad i h
  unfold Core.padWord
  simp only
  rw [h]

/-- The word that holds a byte written. -/
def byteWord (c : Core) (o : Nat) (b : Byte) : PadWord :=
  { idx := o / 4, val := ((c.padWord (o / 4)).val &&& ~~~(0xFF#32 <<< (8 * (o % 4)))) ||| (b.setWidth 32 <<< (8 * (o % 4))),
    valid := true }

theorem setPadByte_eq (c : Core) (o : Nat) (b : Byte) : c.setPadByte o b = { c with pad := putBy PadWord.idx (byteWord c o b) c.pad } := rfl

/-- Byte j of a word of which byte k is replaced. -/
theorem extract_putByte (w : W32) (b : Byte) {j k : Nat} (hk : k < 4) (hj : j < 4) :
    ((w &&& ~~~(0xFF#32 <<< (8 * k))) ||| (b.setWidth 32 <<< (8 * k))).extractLsb' (8 * j) 8 =
      if j = k then b else w.extractLsb' (8 * j) 8 := by
  have hmask : ∀ (i : Nat) (h : i < 32), (0xFF#32 : W32)[i] = decide (i < 8) := by decide
  refine BitVec.eq_of_getLsbD_eq fun i hi => ?_
  have hlt : 8 * j + i < 32 := by omega
  split
  · rename_i h
    subst h
    simp [hmask, hlt, hi]
  · rename_i h
    rcases Nat.lt_or_gt_of_ne h with hjk | hjk
    · have hbelow : 8 * j + i < 8 * k := by omega
      simp [hlt, hbelow, hi]
    · have habove : 8 ≤ 8 * j + i - 8 * k := by omega
      have hb : b.getLsbD (8 * j + i - 8 * k) = false := BitVec.getLsbD_of_ge _ _ habove
      simp [hmask, hlt, hb, hi, Nat.not_lt.2 habove]

theorem padByte_setPadByte (c : Core) (o p : Nat) (b : Byte) : (c.setPadByte o b).padByte p = if p = o then b else c.padByte p := by
  rw [setPadByte_eq]
  simp only [Core.padByte]
  by_cases hw : p / 4 = o / 4
  · have hword : ({ c with pad := putBy PadWord.idx (byteWord c o b) c.pad }).padWord (o / 4) = byteWord c o b :=
      padWord_putBy_same c (byteWord c o b)
    rw [hw, hword, byteWord, extract_putByte _ _ (Nat.mod_lt _ (by decide)) (Nat.mod_lt _ (by decide))]
    by_cases h : p = o
    · rw [h, if_pos rfl, if_pos rfl]
    · rw [if_neg (by omega), if_neg h]
  · have hword : ({ c with pad := putBy PadWord.idx (byteWord c o b) c.pad }).padWord (p / 4) = c.padWord (p / 4) :=
      padWord_putBy_other c (byteWord c o b) hw
    rw [hword, if_neg fun h => hw (by rw [h])]

/-! ### Bytes written at a place -/

/-- Where a byte written reads back, and no other place changes: scratchpads, and memory in its canonical form. -/
def Writable (s : State) : Loc → Prop
  | .mem _ => Memory.wf s.mem
  | .pad _ _ => True
  | _ => False

/-- Byte i of the number that n bytes make. -/
theorem byteAt_leNat (f : Nat → Byte) {n i : Nat} (h : i < n) : byteAt (leNat ((List.range n).map f)) i = f i := by
  have general : ∀ (l : List Byte) (i : Nat) (hi : i < l.length), byteAt (leNat l) i = l[i] := by
    intro l
    induction l with
    | nil => intro i hi; simp at hi
    | cons b r ih =>
      intro i hi
      cases i with
      | zero =>
        refine BitVec.eq_of_toNat_eq ?_
        have hb : b.toNat < 256 := b.isLt
        simp [byteAt, leNat, hb]
      | succ i =>
        have hshift : (b.toNat + 256 * leNat r) >>> (8 * (i + 1)) = leNat r >>> (8 * i) := by
          have hb := b.isLt
          have hlow : (b.toNat + 256 * leNat r) >>> 8 = leNat r := by
            rw [Nat.shiftRight_eq_div_pow]
            omega
          rw [show 8 * (i + 1) = 8 + 8 * i by omega, Nat.shiftRight_add, hlow]
        rw [byteAt, leNat, hshift]
        exact ih i (Nat.lt_of_succ_lt_succ hi)
  rw [general _ i (by simpa using h)]
  simp

/-- The number that n bytes make is below 256^n. -/
theorem leNat_lt (l : List Byte) : leNat l < 2 ^ (8 * l.length) := by
  induction l with
  | nil => simp [leNat]
  | cons b r ih =>
    have hb := b.isLt
    rw [leNat, List.length_cons, show 8 * (r.length + 1) = 8 * r.length + 8 by omega, Nat.pow_add]
    omega

theorem rd_lt (s : State) (l : Loc) (n : Nat) : s.rd l n < 2 ^ (8 * n) := by
  have h := leNat_lt ((List.range n).map fun i => s.rdByte (l.plus i))
  rwa [List.length_map, List.length_range] at h

section Write
variable {s : State}

theorem rdByte_wrByte {l m : Loc} (b : Byte) (h : Writable s l) (hm : m.isImage = false) :
    (s.wrByte l b).rdByte m = if m = l then b else s.rdByte m := by
  cases l with
  | mem a =>
    by_cases hml : m = .mem a
    · subst hml
      rw [if_pos rfl]
      exact s.rdByte_wrByte_same a b h
    · rw [if_neg hml]
      cases m with
      | mem c => exact s.rdByte_wrByte_other a c b (fun hc => hml (by rw [hc])) h
      | state c k o => cases hm
      | _ => rfl
  | pad c o =>
    cases m with
    | pad d p =>
      simp only [wrByte_pad, State.rdByte, Loc.pad.injEq]
      by_cases hd : d = c
      · subst hd
        have hbyte := (padByte_withId (c := (s.coreAt d).setPadByte o b) (coreAt_id s d) p).trans (padByte_setPadByte _ o p b)
        rw [State.coreAt_onCore]
        exact hbyte.trans (by simp)
      · rw [State.coreAt_onCore_other _ _ _ _ hd, if_neg fun h => hd h.1]
    | state c k o => cases hm
    | _ => rfl
  | cel c o => exact h.elim
  | state c k o => exact h.elim
  | remote d a => exact h.elim

theorem Writable.wrByte {l : Loc} (b : Byte) (h : Writable s l) : Writable (s.wrByte l b) (l.plus 1) := by
  cases l with
  | mem a => exact s.wrByte_wf _ b h
  | pad c o => trivial
  | cel c o => exact h.elim
  | state c k o => exact h.elim
  | remote d a => exact h.elim

theorem Writable.plus_inj {l : Loc} (h : Writable s l) {i j : Nat} (hij : l.plus i = l.plus j) : i = j := by
  cases l with
  | mem a => simpa [Loc.plus] using hij
  | pad c o => simpa [Loc.plus] using hij
  | cel c o => exact h.elim
  | state c k o => exact h.elim
  | remote d a => exact h.elim

theorem Writable.plus_plus {l : Loc} (h : Writable s l) (i : Nat) : (l.plus 1).plus i = l.plus (i + 1) := by
  cases l with
  | mem a => simp only [Loc.plus, Nat.add_assoc, Nat.add_comm 1]
  | pad c o => simp only [Loc.plus, Nat.add_assoc, Nat.add_comm 1]
  | cel c o => exact h.elim
  | state c k o => exact h.elim
  | remote d a => exact h.elim

theorem Writable.plus_zero {l : Loc} (h : Writable s l) : l.plus 0 = l := by
  cases l with
  | mem a => rfl
  | pad c o => rfl
  | cel c o => exact h.elim
  | state c k o => exact h.elim
  | remote d a => exact h.elim

theorem Writable.notImage {l : Loc} (h : Writable s l) (i : Nat) : (l.plus i).isImage = false := by
  cases l with
  | mem a => rfl
  | pad c o => rfl
  | cel c o => exact h.elim
  | state c k o => exact h.elim
  | remote d a => exact h.elim

/-- From `s` to `t` the n bytes from `l` on have become those of `v`, and no other byte has changed. -/
structure Wrote (s t : State) (l : Loc) (n v : Nat) : Prop where
  bytes : ∀ i < n, t.rdByte (l.plus i) = byteAt v i
  frame : ∀ m : Loc, m.isImage = false → ¬ m.within l n → t.rdByte m = s.rdByte m

theorem wrBytes_frame (bs : List Byte) {s : State} {l m : Loc} (h : Writable s l) (hm : m.isImage = false) (hw : ¬ m.within l bs.length) :
    (s.wrBytes l bs).rdByte m = s.rdByte m := by
  induction bs generalizing s l with
  | nil => rfl
  | cons b r ih =>
    have hrest : ¬ m.within (l.plus 1) r.length := fun ⟨i, hi, he⟩ => hw ⟨i + 1, Nat.succ_lt_succ hi, by rw [he, h.plus_plus]⟩
    have hne : m ≠ l := fun he => hw ⟨0, Nat.succ_pos _, by rw [he, h.plus_zero]⟩
    exact (ih (h.wrByte b) hrest).trans (by rw [rdByte_wrByte b h hm, if_neg hne])

theorem wrBytes_bytes (bs : List Byte) {s : State} {l : Loc} (h : Writable s l) {i : Nat} (hi : i < bs.length) :
    (s.wrBytes l bs).rdByte (l.plus i) = bs[i] := by
  induction bs generalizing s l i with
  | nil => simp at hi
  | cons b r ih =>
    cases i with
    | zero =>
      have hout : ¬ (l.plus 0).within (l.plus 1) r.length := fun ⟨i, _, he⟩ => by
        rw [h.plus_plus] at he
        have := h.plus_inj he
        omega
      have hfirst : (s.wrByte l b).rdByte (l.plus 0) = b := by
        rw [rdByte_wrByte b h (h.notImage 0), if_pos h.plus_zero]
      exact (wrBytes_frame r (h.wrByte b) (h.notImage 0) hout).trans hfirst
    | succ i =>
      rw [← h.plus_plus]
      exact ih (h.wrByte b) (Nat.lt_of_succ_lt_succ hi)

theorem wr_wrote {s : State} {l : Loc} (h : Writable s l) (n v : Nat) : Wrote s (s.wr l n v) l n v := by
  have hlen : (bytesOf n v).length = n := by simp [bytesOf]
  refine ⟨fun i hi => ?_, fun m hm hw => ?_⟩
  · have hb : (s.wrBytes l (bytesOf n v)).rdByte (l.plus i) = byteAt v i := by
      rw [wrBytes_bytes _ h (by rwa [hlen])]
      simp [bytesOf, byteAt]
    exact hb
  · exact wrBytes_frame (bytesOf n v) h hm (by rwa [hlen])

theorem Wrote.before {s t u : State} {l : Loc} {n v : Nat} (h : Still s t) (k : Wrote t u l n v) : Wrote s u l n v :=
  ⟨k.bytes, fun m hm hw => (k.frame m hm hw).trans (h.rdByte hm)⟩

theorem Wrote.after {s t u : State} {l : Loc} {n v : Nat} (hl : Writable s l) (k : Wrote s t l n v)
    (h : ∀ m : Loc, m.isImage = false → u.rdByte m = t.rdByte m) : Wrote s u l n v :=
  ⟨fun i hi => (h _ (hl.notImage i)).trans (k.bytes i hi), fun m hm hw => (h m hm).trans (k.frame m hm hw)⟩

/-- A place that reads as it did holds the number that it did. -/
theorem wrote_rd {s t : State} {l : Loc} {n : Nat} (hl : Writable s l) (h : ∀ m : Loc, m.isImage = false → t.rdByte m = s.rdByte m) :
    Wrote s t l n (s.rd l n) := by
  refine ⟨fun i hi => ?_, fun m hm _ => h m hm⟩
  rw [h _ (hl.notImage i)]
  exact (byteAt_leNat (fun i => s.rdByte (l.plus i)) hi).symm

end Write

end Sys2Proof.Proofs
end

section
/-! PROOFS. Loads, stores and atomics of one lane at the scratchpad of its core (R196, R235, R238, R239). -/

namespace Sys2Proof.Proofs
open Sys2Proof Sys2Proof.Machine

/-! ### The table of the atomics (R239) -/

theorem lesser_eq (fm : Fmt) (x y : Nat) : lesser fm x y = fminmax fm false x y := by
  simp only [lesser, fminmax, FVal.below]
  grind

theorem greater_eq (fm : Fmt) (x y : Nat) : greater fm x y = fminmax fm true x y := by
  simp only [greater, fminmax, FVal.below]
  grind

/-- The table of R239 on values of an atomic's size. -/
theorem atomicNew_eq (op : AtomOp) {x y : Nat} (e : Nat) (hx : x < 2 ^ (8 * op.size)) (hy : y < 2 ^ (8 * op.size)) :
    atomicNew op x y e = op.apply x y e := by
  cases op with
  | min =>
    simp only [atomicNew, AtomOp.apply]
    grind
  | max =>
    simp only [atomicNew, AtomOp.apply]
    grind
  | fmin32 => exact congrArg some (lesser_eq .f32 x y)
  | fmax32 => exact congrArg some (greater_eq .f32 x y)
  | bfadd2 =>
    have hx : x / 65536 < 65536 := by simp only [AtomOp.size] at hx; omega
    have hy : y / 65536 < 65536 := by simp only [AtomOp.size] at hy; omega
    simp [atomicNew, AtomOp.apply, elemOf, Nat.mod_eq_of_lt hx, Nat.mod_eq_of_lt hy]
  | _ => rfl

/-- An operand has the atomic's size. -/
theorem operandOf_lt (v : View) (f : Fld) (op : AtomOp) : (operandOf v f op.size).toNat < 2 ^ (8 * op.size) := by
  have hsize : op.size = 4 ∨ op.size = 8 := by cases op <;> simp [AtomOp.size]
  rcases hsize with h | h
  · have hlt := (v.rd32 f).isLt
    rw [h, operandOf, if_neg (by decide), BitVec.toNat_setWidth]
    omega
  · rw [h]
    exact (operandOf v f 8).isLt

/-! ### An access at its home, where no term is held -/

section Store
variable {s : State} {l : Loc}

/-- From `s` to `t` no crew has changed. -/
structure CrewsSame (s t : State) : Prop where
  crew : ∀ i, (t.coreAt i).crew = (s.coreAt i).crew

theorem CrewsSame.refl : CrewsSame s s := ⟨fun _ => rfl⟩
theorem CrewsSame.trans {s t u : State} (h : CrewsSame s t) (k : CrewsSame t u) : CrewsSame s u := ⟨fun i => (k.crew i).trans (h.crew i)⟩
theorem Still.crews {s t : State} (h : Still s t) : CrewsSame s t := ⟨fun i => (h.core i).crew⟩
theorem CrewsSame.view? {s t : State} (h : CrewsSame s t) (core : Nat) (x : W32) : t.view? core x = s.view? core x := by
  rw [State.view?, State.view?, h.crew core]

theorem CrewsSame.onCore (i : Nat) {f : Core → Core} (hf : ∀ c, (f c).crew = c.crew) : CrewsSame s (s.onCore i f) := by
  refine ⟨fun j => ?_⟩
  by_cases h : j = i
  · subst h
    rw [State.coreAt_onCore]
    exact hf _
  · rw [State.coreAt_onCore_other _ _ _ _ h]

theorem CrewsSame.ite {t u : State} {p : Prop} [Decidable p] (ht : CrewsSame s t) (hu : CrewsSame s u) : CrewsSame s (if p then t else u) := by
  split
  · exact ht
  · exact hu

theorem CrewsSame.foldl {α : Type} (l : List α) {f : State → α → State} {s : State} (hf : ∀ s x, CrewsSame s (f s x)) :
    CrewsSame s (l.foldl f s) := by
  induction l generalizing s with
  | nil => exact .refl
  | cons x l ih => exact (hf s x).trans ih

theorem isImage_plus (l : Loc) (i : Nat) : (l.plus i).isImage = l.isImage := by cases l <;> rfl

theorem wrByte_crews (h : l.isImage = false) (b : Byte) : CrewsSame s (s.wrByte l b) := by
  cases l with
  | pad c o =>
    rw [wrByte_pad]
    exact .onCore c fun _ => rfl
  | state c k o => cases h
  | _ => exact ⟨fun _ => rfl⟩

theorem wrBytes_crews (bs : List Byte) {s : State} {l : Loc} (h : l.isImage = false) : CrewsSame s (s.wrBytes l bs) := by
  induction bs generalizing s l with
  | nil => exact .refl
  | cons b r ih => exact (wrByte_crews h b).trans (ih ((isImage_plus l 1).trans h))

theorem wr_crews (h : l.isImage = false) (n v : Nat) : CrewsSame s (s.wr l n v) :=
  (wrBytes_crews (bytesOf n v) h).trans ⟨fun _ => rfl⟩

theorem pinPage_crews (was : State) (e : W64) (lvl : Nat) (on root : Bool) : CrewsSame s (was.pinPage s e lvl on root) := by
  unfold State.pinPage
  extract_lets p first upd new lo s1 fresh kept
  have hs : CrewsSame s kept := .ite (.ite ⟨fun _ => rfl⟩ ⟨fun _ => rfl⟩) (.ite (.onCore _ fun _ => rfl) .refl)
  exact .ite .refl (.ite (hs.trans ⟨fun _ => rfl⟩) hs)

theorem mapPages_crews (was : State) (on root : Bool) (n : Nat) {s : State} (e : W64) : CrewsSame s (was.mapPages s on root e n) := by
  induction n generalizing s e with
  | zero => exact .refl
  | succ n ih =>
    unfold State.mapPages
    split
    · exact .refl
    · split
      · exact pinPage_crews was ..
      · split
        · exact .refl
        · exact .foldl _ fun _ _ => ih _

theorem entryStored_crews (s : State) (a : Nat) (old : W64) : CrewsSame s (s.entryStored a old) := by
  unfold State.entryStored
  simp only
  split
  · exact .refl
  · split
    · exact .refl
    · split
      · exact ⟨fun _ => rfl⟩
      · exact mapPages_crews ..

theorem wrTables_crews (h : l.isImage = false) (n v : Nat) : CrewsSame s (s.wrTables l n v) := by
  cases l with
  | mem a => exact (wr_crews h n v).trans (.foldl _ fun _ _ => entryStored_crews ..)
  | _ => exact wr_crews h n v

theorem storeAt_crews {core n v : Nat} (ht : s.terms = []) (h : l.isImage = false) : CrewsSame s (s.storeAt core l n v) := by
  rw [State.storeAt, State.putBytes, settle_nil ht]
  exact ((clearFutures_still s l n).crews.trans (wrTables_crews h n v)).trans (stampStore_still _ core l).crews

/-- A store after which no page table follows. -/
def PlainAt (s : State) (l : Loc) (n v : Nat) : Prop := (s.clearFutures l n).wrTables l n v = (s.clearFutures l n).wr l n v

theorem plainAt_pad (s : State) (c o n v : Nat) : PlainAt s (.pad c o) n v := rfl

theorem Still.writable {t : State} (h : Still s t) (k : Writable s l) : Writable t l := by
  cases l with
  | mem a => exact (h.mem ▸ k : Memory.wf t.mem)
  | _ => exact k

theorem storeAt_plain {core n v : Nat} (ht : s.terms = []) (hp : PlainAt s l n v) :
    s.storeAt core l n v = ((s.clearFutures l n).wr l n v).stampStore core l := by
  rw [State.storeAt, State.putBytes, settle_nil ht, hp]

theorem storeAt_wrote {core n v : Nat} (ht : s.terms = []) (hw : Writable s l) (hp : PlainAt s l n v) :
    Wrote s (s.storeAt core l n v) l n v := by
  rw [storeAt_plain ht hp]
  have hclear := clearFutures_still s l n
  exact .before hclear (.after (hclear.writable hw) (wr_wrote (hclear.writable hw) n v) fun m hm => (stampStore_still _ core l).rdByte hm)

theorem perform_load {core n sz : Nat} (ht : s.terms = []) : s.perform core l n (.load sz) = (s.stampLoad core l, s.rd l n) := by
  rw [State.perform, settle_nil ht]

theorem perform_rmw {core n : Nat} {op : AtomOp} {y e : W64} (ht : s.terms = []) : s.perform core l n (.rmw op y e) =
    match op.apply (s.rd l n) y.toNat e.toNat with
    | none => (s.stampLoad core l, s.rd l n)
    | some new => (s.storeAt core l n new, s.rd l n) := by
  rw [State.perform, settle_nil ht] <;> rfl

/-- An atomic returns what stood there, stores the new value, and leaves every byte where its compare fails. -/
theorem perform_rmw_bytes {core n : Nat} {op : AtomOp} {y e : W64} (ht : s.terms = []) (hw : Writable s l) :
    (s.perform core l n (.rmw op y e)).2 = s.rd l n ∧ CrewsSame s (s.perform core l n (.rmw op y e)).1 ∧
    (op.apply (s.rd l n) y.toNat e.toNat = none → Still s (s.perform core l n (.rmw op y e)).1) ∧
    ∀ new, op.apply (s.rd l n) y.toNat e.toNat = some new → PlainAt s l n new → Wrote s (s.perform core l n (.rmw op y e)).1 l n new := by
  rw [perform_rmw ht]
  cases h : op.apply (s.rd l n) y.toNat e.toNat with
  | none =>
    have hstill := stampLoad_still s core l
    exact ⟨rfl, hstill.crews, fun _ => hstill, by simp⟩
  | some new =>
    refine ⟨rfl, storeAt_crews ht (isImage_plus l 0 ▸ hw.notImage 0), by simp, fun x hx hp => ?_⟩
    obtain rfl : new = x := Option.some.inj hx
    exact storeAt_wrote ht hw hp

end Store

/-! ### A lane alone that issues its access at its own core -/

section Lone
variable {s : State} {v : View}

theorem thread_onThread {core : Nat} {x : W32} {f : View → View} (hf : ∀ v, (f v).th.ident.tid = v.th.ident.tid)
    (h : s.view? core x = some v) : ∃ w, (s.onThread core x f).view? core x = some w ∧ w.th = (f v).th := by
  have hx := tid_of_view? h
  simp only [State.view?, State.onThread, State.onTids, State.coreAt_onCore, Core.onCrew] at h ⊢
  cases hc : (s.coreAt core).crew with
  | none => simp [hc] at h
  | some c =>
    simp only [hc] at h
    obtain ⟨t, ht, rfl⟩ := Option.map_eq_some_iff.1 h
    simp only [Option.map_some, byTid_onThreads c _ hf, ht]
    exact ⟨_, rfl, if_pos (by simpa using hx)⟩

/-- A lane with the destinations of its request empty, if it has any. -/
def marked (op : ReqOp) (dst : Option (List Dst)) (v : View) : View :=
  match dst with
  | none => v
  | some ds => v.produce (if op = .future then .future else .load) ds none 0

/-- A lane that has issued a request which is performed at once. -/
def issued (op : ReqOp) (dst : Option (List Dst)) (len : W64) (v : View) : View := (marked op dst v).commit len

/-- A request at the core itself, of no instruction of which lower lanes have some left, is performed at once. -/
theorem issueReq_near {core n : Nat} {x : W32} {h : Hit} {op : ReqOp} {dst : Option (List Dst)} {len : W64} (hv : s.view? core x = some v)
    (hn : h.near core = true) (hl : s.lowerLeft core = false) : s.issueReq core x h n op dst len =
      ((s.perform core h.loc n op).1.onThread core x (issued op dst len)).bind core x v.th.serial (op.words (s.perform core h.loc n op).2) := by
  unfold State.issueReq
  rw [hv]
  simp only [hn, hl, Bool.not_false, Bool.and_self, if_true]
  rfl

theorem tid_markEmpty (ds : List Dst) (v : View) : (v.markEmpty ds).th.ident = v.th.ident := by
  unfold View.markEmpty
  induction ds generalizing v with
  | nil => rfl
  | cons d ds ih =>
    rw [List.foldl_cons, ih]
    cases d <;> rfl

theorem pending_complete (t : Thread) (len : W64) : (t.complete len).pending = t.pending := congrArg (·.pending) (bare_complete t len)
theorem ident_complete (t : Thread) (len : W64) : (t.complete len).ident = t.ident := congrArg (·.ident) (bare_complete t len)

theorem tid_issued (op : ReqOp) (dst : Option (List Dst)) (len : W64) (v : View) : (issued op dst len v).th.ident.tid = v.th.ident.tid := by
  have hmark : (marked op dst v).th.ident = v.th.ident := by
    cases dst with
    | none => rfl
    | some ds => exact tid_markEmpty ds v
  have hcommit : (issued op dst len v).th.ident = (marked op dst v).th.ident :=
    ident_complete { (marked op dst v).th with walked := [], crossed := none } len
  rw [hcommit, hmark]

/-- The result that a request leaves pending. -/
def pendingOf (op : ReqOp) (ds : List Dst) (v : View) : Pending :=
  { id := v.th.serial, kind := if op = .future then .future else .load, dst := ds, vals := none, flags := (0 : FFlags).setWidth 32, mark := .clean,
    tables := [] }

theorem mem_pending_issued (op : ReqOp) (ds : List Dst) (len : W64) (v : View) :
    pendingOf op ds v ∈ (issued op (some ds) len v).th.pending := by
  have hcommit : (issued op (some ds) len v).th.pending = (v.markEmpty ds).th.pending ++ [pendingOf op ds v] :=
    pending_complete { (marked op (some ds) v).th with walked := [], crossed := none } len
  rw [hcommit]
  exact List.mem_append_right _ (List.mem_singleton.2 rfl)

theorem pending_noteSeen (t : Thread) : t.noteSeen.pending = t.pending ∧ t.noteSeen.ident = t.ident := by
  have hunseen : t.setUnseen.pending = t.pending ∧ t.setUnseen.ident = t.ident := by
    have h := bare_setUnseen t
    exact ⟨congrArg (·.pending) h, congrArg (·.ident) h⟩
  unfold Thread.noteSeen
  split
  · split
    · exact ⟨rfl, rfl⟩
    · exact ⟨rfl, rfl⟩
  · exact hunseen

/-- What a lane alone does that issues an access at its own core, which is performed at once as `u` says and gives `x`. -/
def loneAfter (u : State) (core : Nat) (v : View) (op : ReqOp) (dst : Option (List Dst)) (len : W64) (x : Nat) (unseen : Bool) : State :=
  ((u.onThread core v.th.ident.tid (issued op dst len)).bind core v.th.ident.tid v.th.serial (op.words x)).noteSeen core v.th.ident.tid unseen

variable {u : State} {core x : Nat} {op : ReqOp} {dst : Option (List Dst)} {len : W64} {unseen : Bool}

theorem loneAfter_rdByte {l : Loc} (hl : l.isImage = false) : (loneAfter u core v op dst len x unseen).rdByte l = u.rdByte l := by
  have hbind := (rdByte_onThread (u.onThread core v.th.ident.tid (issued op dst len)) core v.th.ident.tid
    (fun w => w.onTh fun t => { t with pending := t.pending.map fun p => if p.id = v.th.serial then { p with vals := some (op.words x) } else p }) hl).trans
      (rdByte_onThread u core v.th.ident.tid (issued op dst len) hl)
  unfold loneAfter State.noteSeen
  split
  · exact (rdByte_onThread _ core v.th.ident.tid (fun w => w.onTh Thread.noteSeen) hl).trans hbind
  · exact hbind

/-- What a bound value does to a thread. -/
def bindPending (id : Nat) (xs : List W32) (t : Thread) : Thread :=
  { t with pending := t.pending.map fun p => if p.id = id then { p with vals := some xs } else p }

theorem bind_eq (s : State) (core : Nat) (x : W32) (id : Nat) (xs : List W32) :
    s.bind core x id xs = s.onThread core x fun v => v.onTh (bindPending id xs) := rfl

/-- The lane afterwards: its result is bound to the words of the value. -/
theorem loneAfter_pending {ds : List Dst} (hv : u.view? core v.th.ident.tid = some v) :
    ∃ w, (loneAfter u core v op (some ds) len x unseen).view? core v.th.ident.tid = some w ∧
      ∃ p ∈ w.th.pending, p.id = v.th.serial ∧ p.dst = ds ∧ p.vals = some (op.words x) := by
  obtain ⟨w, hw, hth⟩ := thread_onThread (tid_issued op (some ds) len) hv
  have hb := view?_onThread_onTh (g := bindPending v.th.serial (op.words x)) (fun _ => rfl) hw
  have hmem : { pendingOf op ds v with vals := some (op.words x) } ∈ (w.onTh (bindPending v.th.serial (op.words x))).th.pending :=
    List.mem_map.2 ⟨pendingOf op ds v, by rw [hth]; exact mem_pending_issued op ds len v, if_pos rfl⟩
  rw [loneAfter, bind_eq]
  unfold State.noteSeen
  split
  · refine ⟨_, view?_onThread_onTh (g := Thread.noteSeen) (fun t => (pending_noteSeen t).2) hb, _,
      ((pending_noteSeen (w.onTh (bindPending v.th.serial (op.words x))).th).1 ▸ hmem :), rfl, rfl, rfl⟩
  · exact ⟨_, hb, _, hmem, rfl, rfl, rfl⟩

/-- A lane alone whose access passes its checks: the instruction's effect is that of its body on the lane. -/
theorem memForm_lone {o : Opnds} {acc : View → Access} {pre : View → Verdict} {body : State → Nat → View → Hit → State} {h : Hit}
    (hrun : s.run = [v]) (hv : s.view? s.issue.core v.th.ident.tid = some v) (hq : v.th.qm = []) (hg : (memForm o acc pre body s).goes s)
    (hc : s.check s.issue.core v.th (acc v) = .ok h) : ∃ unseen, s.eachLane (memForm o acc pre body s) =
      (body s s.issue.core v h).noteSeen s.issue.core v.th.ident.tid unseen := by
  have hquiet : s.quiet := by
    intro w hw
    rw [hrun, List.mem_singleton] at hw
    rwa [hw]
  have htids : s.tids = [v.th.ident.tid] := by rw [State.tids, hrun]; rfl
  refine ⟨(o.srcs.any v.unwritten) || ((acc v).rd && s.padUnwritten h.loc (acc v).n), ?_⟩
  rw [s.eachLane_passes _ hg, result_quiet hquiet, htids]
  show (match s.view? s.issue.core v.th.ident.tid with | none => s | some v => _) = _
  rw [hv]
  show (match s.check s.issue.core v.th (acc v) with | .error _ => s | .ok h => _) = _
  rw [hc]

theorem near_pad {h : Hit} {i k : Nat} (hl : h.loc = .pad i k) : h.near i = true := by
  simp [Hit.near, hl]

/-- The access of a lane alone at the scratchpad of its core. -/
theorem lone_issue {n : Nat} {o : Opnds} {acc : View → Access} {pre : View → Verdict} {body : State → Nat → View → Hit → State} {h : Hit}
    (hrun : s.run = [v]) (hv : s.view? s.issue.core v.th.ident.tid = some v) (hq : v.th.qm = []) (hl : s.lowerLeft s.issue.core = false)
    (hk : ∃ k, h.loc = .pad s.issue.core k) (hg : (memForm o acc pre body s).goes s)
    (hc : s.check s.issue.core v.th (acc v) = .ok h)
    (hb : body s s.issue.core v h = s.issueReq s.issue.core v.th.ident.tid h n op dst len) : ∃ unseen, s.eachLane (memForm o acc pre body s) =
      loneAfter (s.perform s.issue.core h.loc n op).1 s.issue.core v op dst len (s.perform s.issue.core h.loc n op).2 unseen := by
  obtain ⟨k, hk⟩ := hk
  obtain ⟨unseen, hact⟩ := memForm_lone hrun hv hq hg hc
  exact ⟨unseen, by rw [hact, hb, issueReq_near hv (near_pad hk) hl]; rfl⟩

end Lone

/-! ### The scratchpad -/

theorem writable_pad {s : State} {h : Hit} {i : Nat} (hk : ∃ k, h.loc = .pad i k) : Writable s h.loc := by
  obtain ⟨k, hk⟩ := hk
  rw [hk]
  trivial

theorem plainAt_of_pad {s : State} {h : Hit} {i : Nat} (hk : ∃ k, h.loc = .pad i k) (n v : Nat) : PlainAt s h.loc n v := by
  obtain ⟨k, hk⟩ := hk
  rw [hk]
  exact plainAt_pad ..

section Pad
variable {s : State} {v : View} {h : Hit} (hrun : s.run = [v]) (hv : s.view? s.issue.core v.th.ident.tid = some v) (ht : s.terms = [])
  (hq : v.th.qm = []) (hl : s.lowerLeft s.issue.core = false) (hk : ∃ k, h.loc = .pad s.issue.core k)
include hrun hv ht hq hl hk

theorem pad_load {o : M2} (hg : (loadForm o.f o.s o.d o.a (offM o.i) 4#64 s).goes s)
    (hc : s.check s.issue.core v.th (accessOf v o.a (offM o.i) (szBytes o.s.toNat) false) = .ok h) :
    ∃ t w, exec (.ld o) s = .next t ∧ s.sameBytes t ∧ t.view? s.issue.core v.th.ident.tid = some w ∧
      ∃ p ∈ w.th.pending, p.id = v.th.serial ∧ p.dst = v.th.refs o.d (szRegs o.s.toNat) ∧
        p.vals = some (loadWords o.s.toNat (s.rd h.loc (szBytes o.s.toNat))) := by
  obtain ⟨unseen, hx⟩ := lone_issue (op := .load o.s.toNat) (n := szBytes o.s.toNat) (dst := some (v.th.refs o.d (szRegs o.s.toNat)))
    (len := 4#64) hrun hv hq hl hk hg hc rfl
  rw [perform_load ht] at hx
  have hstill := stampLoad_still s s.issue.core h.loc
  obtain ⟨w, hview, hp⟩ := loneAfter_pending (unseen := unseen) (x := s.rd h.loc (szBytes o.s.toNat)) (op := .load o.s.toNat)
    (len := 4#64) (ds := v.th.refs o.d (szRegs o.s.toNat)) ((hstill.view? s.issue.core v.th.ident.tid).trans hv)
  exact ⟨_, w, congrArg Host.Outcome.next hx, fun _ hi => (loneAfter_rdByte hi).trans (hstill.rdByte hi), hview, hp⟩

theorem pad_store {o : M2} (hg : (storeForm o.f o.s o.d o.a (offM o.i) 4#64 s).goes s)
    (hc : s.check s.issue.core v.th (accessOf v o.a (offM o.i) (szBytes o.s.toNat) true) = .ok h) :
    ∃ t, exec (.st o) s = .next t ∧ Wrote s t h.loc (szBytes o.s.toNat) (storeData v o.d o.s.toNat).toNat := by
  obtain ⟨unseen, hx⟩ := lone_issue (op := .store (storeData v o.d o.s.toNat)) (n := szBytes o.s.toNat) (dst := none) (len := 4#64)
    hrun hv hq hl hk hg hc rfl
  have hw := writable_pad (s := s) hk
  exact ⟨_, congrArg Host.Outcome.next hx, .after hw (storeAt_wrote ht hw (plainAt_of_pad hk _ _)) fun _ hi => loneAfter_rdByte hi⟩

theorem pad_atom {op : AtomOp} {p : R3} (hfree : ((s.crew?.map (·.replay)).getD false && op.ordered) = false) (hg : (atomForm op p s).goes s)
    (hc : s.check s.issue.core v.th { va := v.baseVal p.a, n := op.size, rd := true, wr := true } = .ok h) :
    ∃ t w, atom op p s = .next t ∧ t.view? s.issue.core v.th.ident.tid = some w ∧
      (∃ q ∈ w.th.pending, q.id = v.th.serial ∧ q.dst = v.th.refs p.d (op.size / 4) ∧
        q.vals = some (wordsOf (op.size / 4) (s.rd h.loc op.size))) ∧
      Wrote s t h.loc op.size ((atomicNew op (s.rd h.loc op.size) (operandOf v p.b op.size).toNat (operandOf v p.d op.size).toNat).getD
        (s.rd h.loc op.size)) := by
  obtain ⟨unseen, hx⟩ := lone_issue (op := .rmw op (operandOf v p.b op.size) (operandOf v p.d op.size)) (n := op.size)
    (dst := some (v.th.refs p.d (op.size / 4))) (len := 4#64) hrun hv hq hl hk hg hc (if_neg (by rw [hfree]; simp))
  have hw := writable_pad (s := s) hk
  obtain ⟨hval, hcrews, hnone, hsome⟩ := perform_rmw_bytes (core := s.issue.core) (n := op.size) (op := op) (y := operandOf v p.b op.size)
    (e := operandOf v p.d op.size) ht hw
  have hwrote : Wrote s (s.perform s.issue.core h.loc op.size (.rmw op (operandOf v p.b op.size) (operandOf v p.d op.size))).1 h.loc op.size
      ((atomicNew op (s.rd h.loc op.size) (operandOf v p.b op.size).toNat (operandOf v p.d op.size).toNat).getD (s.rd h.loc op.size)) := by
    rw [atomicNew_eq op _ (rd_lt s h.loc op.size) (operandOf_lt v p.b op)]
    cases hnew : op.apply (s.rd h.loc op.size) (operandOf v p.b op.size).toNat (operandOf v p.d op.size).toNat with
    | none => exact wrote_rd hw fun m hm => (hnone hnew).rdByte hm
    | some new => exact hsome new hnew (plainAt_of_pad hk op.size new)
  rw [hval] at hx
  obtain ⟨w, hview, hp⟩ := loneAfter_pending (unseen := unseen) (x := s.rd h.loc op.size)
    (op := .rmw op (operandOf v p.b op.size) (operandOf v p.d op.size)) (len := 4#64) (ds := v.th.refs p.d (op.size / 4))
    ((hcrews.view? s.issue.core v.th.ident.tid).trans hv)
  exact ⟨_, w, congrArg Host.Outcome.next hx, hview, hp, hwrote.after hw fun _ hi => loneAfter_rdByte hi⟩

end Pad

/-- Settles O30: each instruction issues its access at once, which is performed in the scratchpad. -/
theorem scratchpadAccess : Obligations.ScratchpadAccess := by
  intro s v o h hrun hv ht hq hl hk
  refine ⟨pad_load hrun hv ht hq hl hk, fun hg hc => ?_, fun p r hr hfree hg hc => ?_⟩
  · obtain ⟨t, hx, hbytes, hframe⟩ := pad_store hrun hv ht hq hl hk hg hc
    exact ⟨t, hx, hbytes, hframe⟩
  · obtain ⟨t, w, hx, hview, hp, hbytes, hframe⟩ := pad_atom hrun hv ht hq hl hk hfree hg hc
    exact ⟨t, w, (atomRows_exec p s r hr).trans hx, hview, hp, hbytes, hframe⟩

end Sys2Proof.Proofs
end

section
/-! PROOFS. The home of a line of flat memory performs the accesses of a line group (R203, R221, R235, R238). -/

namespace Sys2Proof.Proofs
open Sys2Proof Sys2Proof.Machine

/-! ### What follows an access at its home -/

section Home
variable {s : State}

theorem onSlice_still (i : Nat) (f : Slice → Slice) : Still s (s.onSlice i f) := .of_eq rfl rfl rfl rfl

theorem onGroup_still (core id : Nat) (f : Group → Group) : Still s (s.onGroup core id f) :=
  .onCore core fun _ => ⟨rfl, rfl, rfl, rfl⟩

theorem bypassed_still (l : Loc) : Still s (s.bypassed l) := by
  unfold State.bypassed
  split
  · exact .refl
  · exact onSlice_still ..

theorem replyGroup_still (core : Nat) (g : Group) (same : Bool) : Still s (s.replyGroup core g same) := by
  unfold State.replyGroup
  extract_lets near data t u
  have hu : Still s u := (onGroup_still core g.id _).trans (.of_eq rfl rfl rfl rfl)
  exact hu.trans (.ite .refl (.ite (inject_still ..) (.ite (.of_eq rfl rfl rfl rfl) .refl)))

/-- The bookkeeping of a home leaves every byte and every crew alone. -/
theorem stepGroup_still (core : Nat) (g : Group) (n : Nat) (copy : Option Line) (same : Bool) : Still s (s.stepGroup core g n copy same) := by
  unfold State.stepGroup
  extract_lets g' t u
  have ht : Still s t := by
    unfold t
    split
    · exact .refl
    · exact onSlice_still ..
  have hu : Still t u := by
    unfold u
    split
    · exact .ite (bypassed_still _) .refl
    · exact .refl
  exact (ht.trans hu).trans (.ite (replyGroup_still ..) (onGroup_still ..))

theorem leaseLine_still (core : Nat) (l : Loc) : Still s (s.leaseLine core l).1 :=
  (putStamps_still s _).trans (raisePts_still _ core _)

/-- The copy that loads take, and what the line's timestamps become. -/
def loadStamped (s : State) (core : Nat) (g : Group) (l : Loc) : State × Option Line :=
  if g.leased then let (s, x) := s.leaseLine core l; (s, some x) else (s.stampLoad core l, g.copy)

theorem loadStamped_still (core : Nat) (g : Group) (l : Loc) : Still s (loadStamped s core g l).1 ∧ (loadStamped s core g l).1.errs = s.errs := by
  unfold loadStamped
  split
  · exact ⟨leaseLine_still core l, rfl⟩
  · refine ⟨stampLoad_still s core l, ?_⟩
    simp only [State.stampLoad]
    split <;> rfl

theorem bindReq_some {core id : Nat} {r : Req} (hp : r.pend = some id) (x : Nat) :
    s.bindReq core r x = s.bind core r.tid id (r.op.words x) := by
  rw [State.bindReq, hp]

/-- A load alone at its home, of bytes that no error has taken, is bound to the value there. -/
theorem groupLoads_one {core id : Nat} {g : Group} {r : Req} (ht : s.terms = []) (hp : r.pend = some id) (hs : s.spoiled r.loc r.n = false) :
    ∃ copy same, s.groupLoads core g r [r] =
      ((loadStamped s core g r.loc).1.bind core r.tid id (r.op.words ((loadStamped s core g r.loc).1.rd r.loc r.n))).stepGroup core g 1 copy
        same := by
  have hsp : (loadStamped s core g r.loc).1.spoiled r.loc r.n = false := by
    rw [State.spoiled, (loadStamped_still core g r.loc).2]
    exact hs
  have hone : s.groupLoads core g r [r] = ([r].foldl (fun t r => if t.spoiled r.loc r.n then t.markReq core r
      else t.bindReq core r (t.rd r.loc r.n)) (loadStamped s core g r.loc).1).stepGroup core g 1 (loadStamped s core g r.loc).2
        (g.leased && (s.coreAt core).l1.any fun x => x.line == g.line && x.wts == (s.stamps r.loc).wts) := by
    unfold State.groupLoads
    simp only [List.foldl_cons, List.foldl_nil, settle_nil ht]
    rfl
  rw [List.foldl_cons, List.foldl_nil, if_neg (by rw [hsp]; simp), bindReq_some hp] at hone
  exact ⟨_, _, hone⟩

/-- A write or an atomic at its home, whose bytes no error has taken where it reads them. -/
theorem homeReq_eq {core : Nat} {g : Group} {r : Req} (h : (∃ op y e, r.op = .rmw op y e ∧ s.spoiled r.loc r.n = false) ∨ ∃ x, r.op = .store x) :
    ∃ copy, s.homeReq core g r =
      ((s.perform core r.loc r.n r.op).1.bindReq core r (s.perform core r.loc r.n r.op).2).stepGroup core g 1 copy false := by
  unfold State.homeReq
  obtain ⟨op, y, e, hop, hs⟩ | ⟨x, hop⟩ := h
  · simp only [hop, hs, Bool.and_false, Bool.false_eq_true, if_false]
    exact ⟨_, rfl⟩
  · simp only [hop, Bool.false_and, Bool.false_eq_true, if_false]
    exact ⟨_, rfl⟩

/-- Where nothing is to be performed with a group or before it, its home performs the next of its requests. -/
theorem lineGroup_performs {core grp : Nat} {g : Group} (hg : (s.coreAt core).groupAt grp = some g) (ha : s.arrived core g = true)
    (hp : s.passesEarlier core [g] = false) (ht : s.turnedAway g = false) (hl : s.along core [g] 64 = some [g]) :
    exec (.lineGroupAtHome core grp) s = .next (s.atHome core g) := by
  show execLineGroupAtHome core grp s = _
  unfold execLineGroupAtHome
  rw [hg]
  simp only [ha, hp, ht, hl, Bool.and_false, Bool.not_true, Bool.or_self, Bool.false_eq_true, if_false]

theorem block_one {g : Group} {r : Req} (hr : g.reqs = [r]) (hd : g.done = 0) : g.block = [r] := by
  have hleft : g.left = [r] := by rw [Group.left, hr, hd]; rfl
  rw [Group.block, hleft]
  simp only
  split
  · rename_i hload
    rw [List.takeWhile_cons, if_pos hload]
    rfl
  · rfl

/-! ### Stores that no page table follows -/

theorem plainAt_mem {l : Loc} {a n v : Nat} (hl : l = .mem a) (h : s.plainStore a n v) : PlainAt s l n v := by
  subst hl
  have hsame : ∀ (l : List Nat) (f : Nat → W64), (∀ i ∈ l, i < (n + 7) / 8) →
      l.foldl (fun t i => t.entryStored (a / 8 * 8 + 8 * i) (f i)) ((s.clearFutures (.mem a) n).wr (.mem a) n v) =
        (s.clearFutures (.mem a) n).wr (.mem a) n v := by
    intro l f hl
    induction l with
    | nil => rfl
    | cons i l ih =>
      have hone : ((s.clearFutures (.mem a) n).wr (.mem a) n v).entryStored (a / 8 * 8 + 8 * i) (f i) =
          (s.clearFutures (.mem a) n).wr (.mem a) n v := by
        unfold State.entryStored
        simp only [h i (hl i (by simp))]
        split <;> rfl
      rw [List.foldl_cons, hone]
      exact ih fun j hj => hl j (by simp [hj])
  exact hsame _ _ fun i hi => List.mem_range.1 hi

/-- The bytes of memory after a store. -/
theorem mem_of_wrote {t : State} {l : Loc} {a n v : Nat} (hl : l = .mem a) (h : Wrote s t l n v) :
    (∀ i < n, memGet t.mem (a + i) = byteAt v i) ∧ ∀ b, b < a ∨ a + n ≤ b → memGet t.mem b = memGet s.mem b := by
  subst hl
  refine ⟨h.bytes, fun b hb => h.frame (.mem b) rfl fun ⟨i, hi, he⟩ => ?_⟩
  have : b = a + i := by simpa [Loc.plus] using he
  omega

/-! ### The accesses -/

/-- A thread whose result is bound, once its home has done what it does. -/
theorem bound_view? {t u : State} {core id : Nat} {x : W32} {xs : List W32} {v : View} (hv : t.view? core x = some v)
    (hu : Still (t.bind core x id xs) u) : ∃ w, u.view? core x = some w ∧
      w.th.pending = v.th.pending.map fun p => if p.id = id then { p with vals := some xs } else p :=
  ⟨_, (hu.view? core x).trans (view?_onThread_onTh (g := bindPending id xs) (fun _ => rfl) hv), rfl⟩

section Mem
variable {core : Nat} {g : Group} {r : Req} {a : Nat} (hloc : r.loc = .mem a) (ht : s.terms = [])
include hloc ht

theorem home_load {sz id : Nat} {v : View} (hop : r.op = .load sz) (hpend : r.pend = some id) (hsp : s.spoiled r.loc r.n = false)
    (hv : s.view? core r.tid = some v) : (s.groupLoads core g r [r]).mem = s.mem ∧ ∃ w, (s.groupLoads core g r [r]).view? core r.tid = some w ∧
      w.th.pending = v.th.pending.map fun p => if p.id = id then { p with vals := some (loadWords sz (s.rd r.loc r.n)) } else p := by
  obtain ⟨copy, same, heq⟩ := groupLoads_one (core := core) (g := g) ht hpend hsp
  have hstamp := (loadStamped_still (s := s) core g r.loc).1
  have hrd : (loadStamped s core g r.loc).1.rd r.loc r.n = s.rd r.loc r.n := by
    unfold State.rd
    refine congrArg leNat (List.map_congr_left fun i _ => hstamp.rdByte ?_)
    rw [isImage_plus, hloc]
    rfl
  rw [hrd, hop] at heq
  have hstep := stepGroup_still (s := (loadStamped s core g r.loc).1.bind core r.tid id (loadWords sz (s.rd r.loc r.n))) core g 1 copy same
  rw [heq]
  exact ⟨hstep.mem.trans hstamp.mem, bound_view? ((hstamp.view? core r.tid).trans hv) hstep⟩

theorem home_rmw {op : AtomOp} {y e : W64} {id : Nat} {v : View} (hop : r.op = .rmw op y e) (hn : r.n = op.size)
    (hy : y.toNat < 2 ^ (8 * r.n)) (hpend : r.pend = some id) (hsp : s.spoiled r.loc r.n = false) (hv : s.view? core r.tid = some v)
    (hwf : Memory.wf s.mem) : (∃ w, (s.homeReq core g r).view? core r.tid = some w ∧
      w.th.pending = v.th.pending.map fun p => if p.id = id then { p with vals := some (wordsOf (r.n / 4) (s.rd r.loc r.n)) } else p) ∧
    (atomicNew op (s.rd r.loc r.n) y.toNat e.toNat = none → (s.homeReq core g r).mem = s.mem) ∧
    ∀ new, atomicNew op (s.rd r.loc r.n) y.toNat e.toNat = some new → s.plainStore a r.n new →
      (∀ i < r.n, memGet (s.homeReq core g r).mem (a + i) = byteAt new i) ∧
        ∀ b, b < a ∨ a + r.n ≤ b → memGet (s.homeReq core g r).mem b = memGet s.mem b := by
  have hw : Writable s r.loc := by
    rw [hloc]
    exact hwf
  obtain ⟨copy, heq⟩ := homeReq_eq (core := core) (g := g) (.inl ⟨op, y, e, hop, hsp⟩)
  obtain ⟨hval, hcrews, hnone, hsome⟩ := perform_rmw_bytes (core := core) (n := r.n) (op := op) (y := y) (e := e) ht hw
  have hwords : r.op.words (s.rd r.loc r.n) = wordsOf (r.n / 4) (s.rd r.loc r.n) := by
    rw [hop, hn]
    rfl
  rw [bindReq_some hpend, hop, hval, ← hop, hwords, hop] at heq
  have hstep := stepGroup_still (s := (s.perform core r.loc r.n (.rmw op y e)).1.bind core r.tid id (wordsOf (r.n / 4) (s.rd r.loc r.n)))
    core g 1 copy false
  rw [← heq] at hstep
  have hmem : (s.homeReq core g r).mem = (s.perform core r.loc r.n (.rmw op y e)).1.mem := hstep.mem
  have hnew : atomicNew op (s.rd r.loc r.n) y.toNat e.toNat = op.apply (s.rd r.loc r.n) y.toNat e.toNat :=
    atomicNew_eq op _ (hn ▸ rd_lt s r.loc r.n) (hn ▸ hy)
  rw [hnew, hmem]
  exact ⟨bound_view? ((hcrews.view? core r.tid).trans hv) hstep, fun h => (hnone h).mem, fun new h hplain =>
    mem_of_wrote hloc (hsome new h (plainAt_mem hloc hplain))⟩

theorem home_store {x : BitVec 128} (hop : r.op = .store x) (hwf : Memory.wf s.mem) (hplain : s.plainStore a r.n x.toNat) :
    (∀ i < r.n, memGet (s.homeReq core g r).mem (a + i) = byteAt x.toNat i) ∧
      ∀ b, b < a ∨ a + r.n ≤ b → memGet (s.homeReq core g r).mem b = memGet s.mem b := by
  have hw : Writable s r.loc := by
    rw [hloc]
    exact hwf
  obtain ⟨copy, heq⟩ := homeReq_eq (s := s) (core := core) (g := g) (.inr ⟨x, hop⟩)
  have hbind : ∀ t : State, (t.bindReq core r 0).mem = t.mem := fun t => by
    unfold State.bindReq
    split <;> rfl
  rw [heq, (stepGroup_still core g 1 copy false).mem, hop]
  exact (hbind (s.storeAt core r.loc r.n x.toNat)).symm ▸ mem_of_wrote hloc (storeAt_wrote ht hw (plainAt_mem hloc hplain))

end Mem

/-- Settles O46: the group's one request is performed at once, and what the home does afterwards changes no byte. -/
theorem homePerformsAccesses : Obligations.HomePerformsAccesses := by
  intro s core grp g r a hg hr hd hloc ht ha hp hta hal
  have hx := lineGroup_performs hg ha hp hta hal
  rw [State.atHome, block_one hr hd] at hx
  refine ⟨fun sz id v hop hpend hsp hv => ?_, fun op y e id v hop hn hy _ hpend hsp hv hwf => ?_, fun x hop hwf hplain => ?_⟩
  · simp only [show r.isLoad = true by rw [Req.isLoad, hop], if_true] at hx
    obtain ⟨hmem, w, hw, hpending⟩ := home_load hloc ht hop hpend hsp hv
    exact ⟨_, w, hx, hmem, hw, hpending⟩
  · simp only [show r.isLoad = false by rw [Req.isLoad, hop], show r.isLdf = false by rw [Req.isLdf, hop], Bool.false_eq_true,
      if_false] at hx
    obtain ⟨⟨w, hw, hpending⟩, hnone, hsome⟩ := home_rmw hloc ht hop hn hy hpend hsp hv hwf
    exact ⟨_, w, hx, hw, hpending, hnone, hsome⟩
  · simp only [show r.isLoad = false by rw [Req.isLoad, hop], show r.isLdf = false by rw [Req.isLdf, hop], Bool.false_eq_true,
      if_false] at hx
    exact ⟨_, hx, home_store hloc ht hop hwf hplain⟩

end Home

end Sys2Proof.Proofs
end

section
/-! PROOFS. States whose memory has its canonical form, and the operations that keep it: those on the units, on memory, and on the lanes of a
run. A byte of memory is written by `State.wrByte` alone, or removed by the mapping of a pinned page; every other operation passes on what
those it is made of keep. -/

namespace Sys2Proof.Proofs
open Sys2Proof Sys2Proof.Machine

/-- Memory is in its canonical form: no byte that is listed is 0, and addresses rise. -/
structure Canon (s : State) : Prop where
  wf : Memory.wf s.mem

theorem canon_iff (s : State) : Canon s ↔ Memory.wf s.mem := ⟨fun h => h.wf, fun h => ⟨h⟩⟩

/-- A result leads to a state with canonical memory, if to any. -/
structure NextCanon (r : Result) : Prop where
  canon : ∀ t, r = .next t → Canon t

theorem NextCanon.next {t : State} (h : Canon t) : NextCanon (.next t) := ⟨fun _ e => by cases e; exact h⟩
theorem NextCanon.fault {f : Fault} : NextCanon (.fault f) := ⟨fun _ e => by cases e⟩

section
variable {s : State} (h : Canon s)
include h

theorem ite_canon {c : Prop} [Decidable c] {t : State} (ht : Canon t) : Canon (if c then s else t) := by
  split <;> assumption

/-- What each of some steps keeps, all of them keep. -/
theorem foldl_canon {α : Type} {f : State → α → State} (hf : ∀ s x, Canon s → Canon (f s x)) (l : List α) : Canon (l.foldl f s) := by
  induction l generalizing s with
  | nil => exact h
  | cons x l ih => exact ih (hf s x h)

/-- The same for steps that hand something on beside the state. -/
theorem foldl_canon_fst {α β : Type} {f : State × β → α → State × β} (hf : ∀ r x, Canon r.1 → Canon (f r x).1) (l : List α) (b : β) :
    Canon (l.foldl f (s, b)).1 := by
  have general : ∀ r : State × β, Canon r.1 → Canon (l.foldl f r).1 := by
    induction l with
    | nil => exact fun _ hr => hr
    | cons x l ih => exact fun r hr => ih _ (hf r x hr)
  exact general (s, b) h

/-! ### Units -/

theorem putCore_canon {c} : Canon (s.putCore c) := ⟨h.wf⟩
theorem onCore_canon {i f} : Canon (s.onCore i f) := ⟨h.wf⟩
theorem onCell_canon {i f} : Canon (s.onCell i f) := ⟨h.wf⟩
theorem onSlice_canon {i f} : Canon (s.onSlice i f) := ⟨h.wf⟩
theorem onDie_canon {i f} : Canon (s.onDie i f) := ⟨h.wf⟩
theorem onTen_canon {i f} : Canon (s.onTen i f) := ⟨h.wf⟩
theorem onTask_canon {ten id f} : Canon (s.onTask ten id f) := ⟨h.wf⟩
theorem onTids_canon {core tids f} : Canon (s.onTids core tids f) := ⟨h.wf⟩
theorem onThread_canon {core tid f} : Canon (s.onThread core tid f) := ⟨h.wf⟩
theorem sump_canon {kind die ten unit sub a b} : Canon (s.sump kind die ten unit sub a b) := ⟨h.wf⟩

/-! ### Memory, timestamps, page tables and replay terms -/

theorem wr_canon {l n v} : Canon (s.wr l n v) := ⟨s.wr_wf _ _ _ h.wf⟩
theorem putStamps_canon {l} : Canon (s.putStamps l) := ⟨h.wf⟩
theorem raisePts_canon {core t} : Canon (s.raisePts core t) := ⟨h.wf⟩
theorem stampLoad_canon {core l} : Canon (s.stampLoad core l) := ⟨(s.stampLoad_mem _ _).symm ▸ h.wf⟩
theorem stampAll_canon {core reads writes} : Canon (s.stampAll core reads writes) := by
  grind [State.stampAll, putStamps_canon, raisePts_canon, foldl_canon]
theorem stampDev_canon {l} : Canon (s.stampDev l) := ⟨h.wf⟩
theorem stampFar_canon {dev l store} : Canon (s.stampFar dev l store) := ⟨h.wf⟩
theorem cross_canon {load die} : Canon (s.cross load die) := ⟨h.wf⟩
theorem setFuture_canon {l b} : Canon (s.setFuture l b) := ⟨h.wf⟩
theorem clearFutures_canon {l n} : Canon (s.clearFutures l n) := ⟨s.clearFutures_wf _ _ h.wf⟩
theorem mapPages_canon {on root e n} {was : State} : Canon (was.mapPages s on root e n) := ⟨was.mapPages_wf _ _ _ _ _ h.wf⟩
theorem mapRoot_canon {root} : Canon (s.mapRoot root) := ⟨s.mapRoot_wf _ h.wf⟩
theorem wrTables_canon {l n v} : Canon (s.wrTables l n v) := ⟨s.wrTables_wf _ _ _ h.wf⟩
theorem settle_canon {l n} : Canon (s.settle l n) := ⟨s.settle_wf _ _ h.wf⟩

/-! ### Traps, and the lanes of a run -/

theorem cancelDeferred_canon {core tid} : Canon (s.cancelDeferred core tid) := by
  grind [State.cancelDeferred, onCore_canon, onThread_canon, canon_iff]
theorem sumpTrap_canon {core ten cause subs pc mask} : Canon (s.sumpTrap core ten cause subs pc mask) := by
  grind [State.sumpTrap, sump_canon, foldl_canon]
theorem takeTrap_canon {core group mk} : Canon (s.takeTrap core group mk) := by
  grind [State.takeTrap, cancelDeferred_canon, onThread_canon, onCore_canon, sumpTrap_canon, foldl_canon]
theorem setStatus_canon {core tid st} : Canon (s.setStatus core tid st) := ⟨h.wf⟩
theorem actQm_canon {o act tids} (hact : ∀ l t, Canon t → Canon (act l t)) : Canon (s.actQm o act tids) := by
  grind [State.actQm, onThread_canon, onCore_canon, foldl_canon]
theorem applySplit_canon {o sp act} (hact : ∀ l t, Canon t → Canon (act l t)) : Canon (s.applySplit o sp act) := by
  grind [State.applySplit, actQm_canon, setStatus_canon, onThread_canon, takeTrap_canon, foldl_canon]
theorem thenDo_canon {o chk op after tids} (ha : ∀ l t, Canon t → Canon (after l t)) : Canon ((LaneForm.thenDo o chk op after).act tids s) := by
  grind [LaneForm.thenDo, onTids_canon, LaneForm.of]
theorem eachLane_canon {k} (hk : ∀ l t, Canon t → Canon (k.act l t)) : Canon (s.eachLane k) := by
  grind [State.eachLane, applySplit_canon]
theorem stillLanes_canon {k} (hk : ∀ l t, Canon t → Canon (k.act l t)) : Canon (s.stillLanes k) := by
  grind [State.stillLanes, applySplit_canon]
theorem allLanes_canon {k} (hk : ∀ l t, Canon t → Canon (k.act l t)) : Canon (s.allLanes k) := by
  grind [State.allLanes, applySplit_canon]
theorem lanes_canon {o chk op} : Canon (s.lanes o chk op) :=
  eachLane_canon h fun _ _ ht => thenDo_canon ht fun _ _ hu => hu
theorem fill_canon {core tid id xs mark} : Canon (s.fill core tid id xs mark) := ⟨h.wf⟩
theorem bind_canon {core tid id xs} : Canon (s.bind core tid id xs) := ⟨h.wf⟩

end

end Sys2Proof.Proofs
end

section
/-! PROOFS. The accesses of the lanes, the links, tasks, crews and threads keep memory in its canonical form, each as what it is made of does. -/

namespace Sys2Proof.Proofs
open Sys2Proof Sys2Proof.Machine

section
variable {s : State} (h : Canon s)
include h

/-! ### Fetch traps -/

theorem execFetchTrap_canon : NextCanon (execFetchTrap s) := by
  unfold execFetchTrap
  extract_lets core l tr taken s' hold depths mk s''
  have waits : Canon s' := foldl_canon h (fun _ _ ht => setStatus_canon ht) _
  have holds : Canon s'' := foldl_canon waits (fun _ _ ht => setStatus_canon ht) _
  split
  · exact .next waits
  · exact .next (takeTrap_canon holds)
theorem execWordNotInstruction_canon {sub raw} : NextCanon (execWordNotInstruction sub raw s) := by
  unfold execWordNotInstruction
  extract_lets core group
  split
  · exact .next h
  · exact .next (takeTrap_canon h)

/-! ### Links and remote accesses -/

theorem onPort_canon {i f} : Canon (s.onPort i f) := ⟨h.wf⟩
theorem transmit_canon {die rank kind res l} : Canon (s.transmit die rank kind res l) := by
  grind [State.transmit, onPort_canon]
theorem reroute_canon {port} : Canon (s.reroute port) := by
  grind [State.reroute, onPort_canon]
theorem pump_canon : Canon (s.pump) := ⟨h.wf⟩
theorem flitIn_canon {port fl} : Canon (s.flitIn port fl) := by
  grind [State.flitIn, onPort_canon]
theorem execFlitData_canon {port fl} : NextCanon (execFlitData port fl s) := by
  grind [execFlitData, flitIn_canon, NextCanon.next]
theorem execFlitControl_canon {port fl} : NextCanon (execFlitControl port fl s) := by
  grind [execFlitControl, flitIn_canon, NextCanon.next]
theorem execFlitReservation_canon {port fl} : NextCanon (execFlitReservation port fl s) := by
  grind [execFlitReservation, flitIn_canon, NextCanon.next]
theorem execFlitAcknowledgement_canon {port fl} : NextCanon (execFlitAcknowledgement port fl s) := by
  grind [execFlitAcknowledgement, flitIn_canon, NextCanon.next]
theorem execFlitNegativeAcknowledgement_canon {port fl} : NextCanon (execFlitNegativeAcknowledgement port fl s) := by
  grind [execFlitNegativeAcknowledgement, flitIn_canon, NextCanon.next]
theorem sumpSwitch_canon {port part} : Canon (s.sumpSwitch port part) := ⟨h.wf⟩
theorem resendSome_canon {port fibre} : Canon (s.resendSome port fibre) := by
  grind [State.resendSome, onPort_canon]
theorem execWavelengthRetire_canon {port fibre wave} : NextCanon (execWavelengthRetire port fibre wave s) := by
  grind [execWavelengthRetire, onPort_canon, resendSome_canon, reroute_canon, sumpSwitch_canon, NextCanon.next]
theorem execFibreFailover_canon {port fibre} : NextCanon (execFibreFailover port fibre s) := by
  grind [execFibreFailover, sumpSwitch_canon, onPort_canon, resendSome_canon, NextCanon.next]
theorem execPeerUnreachable_canon {port rank} : NextCanon (execPeerUnreachable port rank s) := by
  grind [execPeerUnreachable, reroute_canon, onPort_canon, canon_iff, NextCanon.next]
theorem execLinksComeUp_canon {port rank} : NextCanon (execLinksComeUp port rank s) := by
  grind [execLinksComeUp, onPort_canon, canon_iff, NextCanon.next]
theorem later_canon {i} : Canon (s.later i) := ⟨h.wf⟩
theorem execRemoteDomainAccess_canon {acc} : NextCanon (execRemoteDomainAccess acc s) := by
  grind [execRemoteDomainAccess, transmit_canon, later_canon, settle_canon, stampFar_canon, wrTables_canon, clearFutures_canon,
    NextCanon.next]
theorem execStoreRefusalReport_canon {who addr} : NextCanon (execStoreRefusalReport who addr s) := by
  grind [execStoreRefusalReport, onThread_canon, NextCanon.next]

/-! ### Accesses of the lanes -/

theorem touchL1_canon {core l} : Canon (s.touchL1 core l) := ⟨(s.touchL1_mem _ _).symm ▸ h.wf⟩
theorem leaseLine_canon {core l} : Canon (s.leaseLine core l).1 := ⟨h.wf⟩
theorem putBytes_canon {l n v} : Canon (s.putBytes l n v) := ⟨s.putBytes_wf _ _ _ h.wf⟩
theorem stampLines_canon {core ls} : Canon (s.stampLines core ls) := ⟨(s.stampLines_mem _ _).symm ▸ h.wf⟩
theorem storeEach_canon {core xs} : Canon (s.storeEach core xs) := ⟨s.storeEach_wf _ _ h.wf⟩
theorem loadWide_canon {core l n} : Canon (s.loadWide core l n).1 := by
  grind [State.loadWide, settle_canon, stampAll_canon]
theorem answerLdf_canon {v d} : Canon (s.answerLdf v d) := ⟨(s.answerLdf_mem _ _).symm ▸ h.wf⟩
theorem perform_canon {core l n op} : Canon (s.perform core l n op).1 := ⟨s.perform_wf _ _ _ _ h.wf⟩
theorem issueReq_canon {core tid h' n op dst len} : Canon (s.issueReq core tid h' n op dst len) := by
  unfold State.issueReq
  grind [bind_canon, onThread_canon, perform_canon, setStatus_canon, putCore_canon, canon_iff]
theorem noteSeen_canon {core tid unseen} : Canon (s.noteSeen core tid unseen) := by
  grind [State.noteSeen, onThread_canon]
theorem memForm_canon {o acc pre body tids} {u : State} (hb : ∀ t c v x, Canon t → Canon (body t c v x)) :
    Canon ((memForm o acc pre body u).act tids s) := by
  refine foldl_canon h (fun t tid ht => ?_) tids
  split
  · exact ht
  · split
    · exact ht
    · exact noteSeen_canon (hb _ _ _ _ ht)
theorem loadForm_canon {f sz d a off len tids} {u : State} : Canon ((loadForm f sz d a off len u).act tids s) := by
  grind [loadForm, memForm_canon, issueReq_canon]
theorem storeForm_canon {f sz d a off len tids} {u : State} : Canon ((storeForm f sz d a off len u).act tids s) := by
  grind [storeForm, memForm_canon, issueReq_canon]
theorem ldfAt_canon {core l} : Canon (s.ldfAt core l).1 := by
  grind [State.ldfAt, settle_canon, perform_canon]
theorem ldfForm_canon {f d a off len tids} {u : State} : Canon ((ldfForm f d a off len u).act tids s) := by
  grind [ldfForm, memForm_canon, issueReq_canon]
theorem stfForm_canon {f d a off len tids} {u : State} : Canon ((stfForm f d a off len u).act tids s) := by
  grind [stfForm, memForm_canon, issueReq_canon]
theorem atomForm_canon {op o tids} {u : State} : Canon ((atomForm op o u).act tids s) := by
  grind [atomForm, memForm_canon, issueReq_canon]
theorem onAff_canon {j f} : Canon (s.onAff j f) := ⟨h.wf⟩
theorem affForm_canon {o n store tids} {u : State} : Canon ((affForm o n store u).act tids s) := by
  grind [affForm, onAff_canon, noteSeen_canon, issueReq_canon, foldl_canon, LaneForm.of]
theorem affsetForm_canon {o tids} : Canon ((affsetForm o).act tids s) := by
  grind [affsetForm, onAff_canon, onTids_canon, LaneForm.of]

/-! ### The command processor's reads and writes, and its trace -/

theorem cpWrite_canon {ten va n v} : Canon (s.cpWrite ten va n v).1 := by
  unfold State.cpWrite
  grind [stampDev_canon, wrTables_canon, clearFutures_canon, settle_canon]
theorem cpRead_canon {ten va n} : ∀ t, s.cpRead ten va n = some t → Canon t.1 := by
  intro t e
  unfold State.cpRead at e
  grind [settle_canon]
theorem trace_canon {ten r} : Canon (s.trace ten r) := by
  grind [State.trace, onTen_canon, cpWrite_canon]

/-! ### Tasks -/

theorem seeTerms_canon {core} : Canon (s.seeTerms core) := ⟨h.wf⟩
theorem notePut_canon {core} : Canon (s.notePut core) := ⟨h.wf⟩
theorem meet_canon {core} : Canon (s.meet core) := ⟨h.wf⟩
theorem meetHost_canon {core} : Canon (s.meetHost core) := ⟨h.wf⟩
theorem acceptTask_canon {ten b stage zcp} : Canon (s.acceptTask ten b stage zcp).1 := by
  unfold State.acceptTask
  grind [onTen_canon, stampDev_canon, wr_canon, canon_iff]
theorem dealStack_canon {doms c stage i} : Canon (s.dealStack doms c stage i).1 := by
  grind [State.dealStack, canon_iff]
theorem enterTask_canon {ten id} : Canon (s.enterTask ten id) := by
  unfold State.enterTask
  split
  · exact h
  next t _ =>
    have dealt := foldl_canon_fst h (f := fun (acc : State × List Allot) i =>
        ((acc.1.dealStack (s.tenAt ten).doms t.tcb.crews.toNat (t.tcb.stageq != 0#64) i).1,
          acc.2 ++ (acc.1.dealStack (s.tenAt ten).doms t.tcb.crews.toNat (t.tcb.stageq != 0#64) i).2))
      (fun _ _ hr => dealStack_canon hr) (List.range (ceilDiv t.tcb.crews.toNat 40)) []
    exact onTask_canon dealt
theorem placeCrew_canon {core k} : Canon (s.placeCrew core k) := by
  grind [State.placeCrew, onCore_canon, meetHost_canon, trace_canon]
theorem startCrew_canon {core ten id no} : Canon (s.startCrew core ten id no) := by
  grind [State.startCrew, placeCrew_canon, onTask_canon]
theorem preemptNow_canon {core sub addr who} : Canon (s.preemptNow core sub addr who) := by
  grind [State.preemptNow, takeTrap_canon, foldl_canon]
theorem setStageField_canon {t off n v} : Canon (s.setStageField t off n v) := by
  grind [State.setStageField, stampDev_canon, wr_canon]
theorem countCores_canon {ten id up} : Canon (s.countCores ten id up) := by
  grind [State.countCores, setStageField_canon]
theorem foundWork_canon {cell} : Canon (s.foundWork cell) := ⟨h.wf⟩
theorem restoreCrew_canon {core k} : Canon (s.restoreCrew core k) := by
  grind [State.restoreCrew, onCore_canon, placeCrew_canon, foundWork_canon, countCores_canon, preemptNow_canon, canon_iff]
theorem runStage_canon {core t last} : Canon (s.runStage core t last) := by
  grind [State.runStage, setStageField_canon, restoreCrew_canon, onTask_canon, startCrew_canon, countCores_canon]
theorem countBypass_canon {cell t byHint} : Canon (s.countBypass cell t byHint) := ⟨h.wf⟩

/-! ### Crews and barriers -/

theorem putRouter_canon {r} : Canon (s.putRouter r) := ⟨h.wf⟩
theorem wakeRouter_canon {r hops} : Canon (s.wakeRouter r hops) := by
  grind [State.wakeRouter, putRouter_canon]
theorem inject_canon {a b cargo} : Canon (s.inject a b cargo) := by
  grind [State.inject, cross_canon, wakeRouter_canon, canon_iff]
theorem completeInst_canon {t i} : Canon (s.completeInst t i) := by
  grind [State.completeInst, onCore_canon, meet_canon, inject_canon, onTask_canon, foldl_canon, canon_iff]
theorem tryInst_canon {ten task i} : Canon (s.tryInst ten task i) := by
  grind [State.tryInst, completeInst_canon]
theorem tellMembers_canon {die t n} : Canon (s.tellMembers die t n) := by
  grind [State.tellMembers, transmit_canon, foldl_canon]
theorem arriveInst_canon {ten task i} : Canon (s.arriveInst ten task i) := by
  grind [State.arriveInst, tellMembers_canon, tryInst_canon, inject_canon]
theorem tryBarriers_canon {ten task no} : Canon (s.tryBarriers ten task no) := by
  grind [State.tryBarriers, tryInst_canon, foldl_canon]
theorem tryRegroup_canon {core} : Canon (s.tryRegroup core) := by
  grind [State.tryRegroup, onTask_canon, onCore_canon]
theorem markTriggered_canon {c} : Canon (s.markTriggered c) := ⟨h.wf⟩
theorem tryTrigger_canon {core} : Canon (s.tryTrigger core) := by
  grind [State.tryTrigger, markTriggered_canon]
theorem endTask_canon {ten task} : Canon (s.endTask ten task) := by
  grind [State.endTask, onTen_canon, canon_iff]
theorem tryEndCrew_canon {core} : Canon (s.tryEndCrew core) := by
  grind [State.tryEndCrew, onCore_canon, onTask_canon, countCores_canon, tryBarriers_canon, runStage_canon, endTask_canon]
theorem trySave_canon {core} : Canon (s.trySave core) := by
  grind [State.trySave, onCore_canon, countCores_canon, canon_iff]
theorem settleEnd_canon {core} : Canon (s.settleEnd core) := by
  grind [State.settleEnd, tryEndCrew_canon, trySave_canon]
theorem settleCrew_canon {core} : Canon (s.settleCrew core) := by
  grind [State.settleCrew, onCore_canon, tryBarriers_canon, settleEnd_canon, tryTrigger_canon, tryRegroup_canon]

/-! ### Threads and stage queues -/

theorem spawnLane_canon {o core tid} : Canon (s.spawnLane o core tid) := by
  grind [State.spawnLane, setStatus_canon, onCore_canon, onThread_canon]
theorem spawnForm_canon {o tids} {u : State} : Canon ((spawnForm o u).act tids s) := by
  grind [spawnForm, noteSeen_canon, spawnLane_canon, foldl_canon, LaneForm.of]
theorem exitThreadForm_canon {tids} {u : State} : Canon ((exitThreadForm u).act tids s) := by
  grind [exitThreadForm, onTids_canon, onCore_canon, settleCrew_canon, foldl_canon, LaneForm.of]
theorem regroupForm_canon {o tids} {u : State} : Canon ((regroupForm o u).act tids s) := by
  grind [regroupForm, tryRegroup_canon, onTids_canon, LaneForm.of]
theorem yieldForm_canon {tids} {u : State} : Canon ((yieldForm u).act tids s) := by
  unfold yieldForm
  exact thenDo_canon h fun _ _ ht => ite_canon ht (onCore_canon ht)
theorem dqgetForm_canon {o tids} {u : State} : Canon ((dqgetForm o u).act tids s) := by
  grind [dqgetForm, onTids_canon, onCore_canon, LaneForm.of]
theorem arrive_canon {lvl tids} : Canon (s.arrive lvl tids) := by
  grind [State.arrive, arriveInst_canon, foldl_canon]
theorem barForm_canon {lvl tids} {u : State} : Canon ((barForm lvl u).act tids s) := by
  grind [barForm, arrive_canon, onTids_canon, LaneForm.of]
theorem arriveForm_canon {o tids} {u : State} : Canon ((arriveForm o u).act tids s) := by
  grind [arriveForm, arrive_canon, onTids_canon, LaneForm.of]
theorem padSeen_canon {core tid l n} : Canon (s.padSeen core tid l n) := by
  grind [State.padSeen, onThread_canon]
theorem readBlock_canon {core v va} : Canon (s.readBlock core v va).1 := by
  unfold State.readBlock
  split
  · exact stampAll_canon (settle_canon (settle_canon (padSeen_canon (padSeen_canon h))))
  · exact h
theorem submit_canon {o core tid} : Canon (s.submit o core tid) := by
  grind [State.submit, readBlock_canon, acceptTask_canon, enterTask_canon, onThread_canon]
theorem tasknewForm_canon {o tids} {u : State} : Canon ((tasknewForm o u).act tids s) := by
  grind [tasknewForm, submit_canon, onThread_canon, foldl_canon, LaneForm.of]
theorem triggerForm_canon {tids} {u : State} : Canon ((triggerForm u).act tids s) := by
  grind [triggerForm, onTids_canon, markTriggered_canon, tryTrigger_canon, LaneForm.of]
theorem fixupForm_canon {o tids} {u : State} : Canon ((fixupForm o u).act tids s) := by
  grind [fixupForm, onTask_canon, onThread_canon, meet_canon, foldl_canon, LaneForm.of]
theorem stqKeep_canon {x} : Canon (s.stqKeep x) := ⟨h.wf⟩
theorem stqPush_canon {core sp q ws} : Canon (s.stqPush core sp q ws) := by
  grind [State.stqPush, putBytes_canon, notePut_canon, touchL1_canon, stampAll_canon, stqKeep_canon]
theorem stqPop_canon {core sp q} : Canon (s.stqPop core sp q).1 := by
  grind [State.stqPop, settle_canon, putBytes_canon, seeTerms_canon, touchL1_canon, stampAll_canon, stqKeep_canon]
theorem putLane_canon {core v q g} : Canon (s.putLane core v q g) := by
  grind [State.putLane, onThread_canon, stqPush_canon]
theorem getLane_canon {core v q g} : Canon (s.getLane core v q g) := by
  grind [State.getLane, stqPop_canon, onThread_canon]
theorem sapPut_canon {c q} : Canon (s.sapPut c q) := by
  grind [State.sapPut, stqPush_canon, onCell_canon]
theorem serve_canon {desc n} : Canon (s.serve desc n) := by
  induction n generalizing s with
  | zero => exact h
  | succ n ih =>
    unfold State.serve
    split
    · exact h
    · refine ih ?_
      split
      · exact ite_canon (putLane_canon h) (ite_canon (setStatus_canon h) (getLane_canon h))
      · exact setStatus_canon h
      · exact sapPut_canon h
      · exact h
theorem serveAll_canon {desc} : Canon (s.serveAll desc) := by
  grind [State.serveAll, serve_canon]
theorem serveParked_canon {core} : Canon (s.serveParked core) := by
  grind [State.serveParked, serveAll_canon, foldl_canon]
theorem stqForm_canon {get g a o act tids} {u : State} (ha : ∀ t c v q n, Canon t → Canon (act t c v q n)) :
    Canon ((stqForm get g a o act u).act tids s) := by
  refine foldl_canon h (fun t tid ht => ?_) tids
  have settled (q : Stq) : Canon (t.settle q.desc 24) := settle_canon ht
  grind [serveAll_canon, onThread_canon, noteSeen_canon]
theorem getOrPark_canon {core v q va g since} : Canon (s.getOrPark core v q va g since) := by
  unfold State.getOrPark
  split
  · exact onThread_canon h
  · exact getLane_canon h
theorem stqputForm_canon {o tids} {u : State} : Canon ((stqputForm o u).act tids s) := by
  grind [stqputForm, stqForm_canon, setStatus_canon, putLane_canon]
theorem stqgetForm_canon {o tids} {u : State} : Canon ((stqgetForm o u).act tids s) := by
  grind [stqgetForm, stqForm_canon, getOrPark_canon]
theorem stqtryForm_canon {o tids} {u : State} : Canon ((stqtryForm o u).act tids s) := by
  refine stqForm_canon h fun t c v q n ht => ?_
  split
  · exact onThread_canon (stampLoad_canon ht)
  · exact onThread_canon (getLane_canon ht)

end

end Sys2Proof.Proofs
end

section
/-! PROOFS. The engines keep memory in its canonical form: the queues of commands, and every command as it is issued and as it completes. -/

namespace Sys2Proof.Proofs
open Sys2Proof Sys2Proof.Machine

section
variable {s : State} (h : Canon s)
include h

/-! ### Queues of commands -/

theorem onQueue_canon {r f} : Canon (s.onQueue r f) := by
  grind [State.onQueue, onCore_canon, onDie_canon, onCell_canon]
theorem onCmd_canon {r id f} : Canon (s.onCmd r id f) := by
  grind [State.onCmd, onQueue_canon]
theorem traceCmd_canon {kind x eng seq status} : Canon (s.traceCmd kind x eng seq status) := by
  grind [State.traceCmd, trace_canon]
theorem bumpSeq_canon {r} : Canon (s.bumpSeq r) := ⟨h.wf⟩
theorem deliverLine_canon {id g} : Canon (s.deliverLine id g) := ⟨h.wf⟩
theorem finishCmd_canon {r c count status} : Canon (s.finishCmd r c count status) := by
  grind [State.finishCmd, onQueue_canon, deliverLine_canon, onCore_canon, fill_canon, onTids_canon, settleEnd_canon, traceCmd_canon,
    foldl_canon]
theorem launchTile_canon {core i} : Canon (s.launchTile core i) := by
  grind [State.launchTile, onCore_canon, canon_iff]
theorem launchDue_canon {core sect n} : Canon (s.launchDue core sect n) := by
  induction n generalizing s with
  | zero => exact h
  | succ n ih =>
    unfold State.launchDue
    extract_lets k
    split
    · exact h
    · exact ih (launchTile_canon h)
theorem launchAll_canon {core} : Canon (s.launchAll core) := by
  grind [State.launchAll, launchDue_canon, foldl_canon]
theorem accept_canon {core o x words d} : Canon (s.accept core o x words d) := by
  grind [State.accept, launchDue_canon, loadWide_canon, padSeen_canon, onTids_canon, bumpSeq_canon, onQueue_canon, onCore_canon,
    cross_canon, traceCmd_canon, foldl_canon, canon_iff]
theorem enter_canon {o k x} (hk : ∀ v w t, Canon t → Canon (k.effect v w t)) : Canon (s.enter o k x) := by
  grind [State.enter, accept_canon, finishCmd_canon]
theorem issueAll_canon {o k good tids} (hk : ∀ v w t, Canon t → Canon (k.effect v w t)) : Canon (s.issueAll o k good tids) := by
  grind [State.issueAll, onTids_canon, enter_canon, actQm_canon, foldl_canon]
theorem engIssue_canon {o k} (hk : ∀ v w t, Canon t → Canon (k.effect v w t)) : Canon (s.engIssue o k) := by
  grind [State.engIssue, applySplit_canon, issueAll_canon]
theorem awaitPage_canon {r c l} : Canon (s.awaitPage r c l) := by
  grind [State.awaitPage, onCmd_canon]
theorem settledView_canon : Canon (s.settledView) := ⟨s.settledView_wf h.wf⟩
theorem settleTables_canon {root} : Canon (s.settleTables root) := ⟨s.settleTables_wf _ h.wf⟩
theorem engTouch_canon {core l} : Canon (s.engTouch core l) := by
  grind [State.engTouch, stampLoad_canon, settle_canon]
theorem mvWrite_canon {m v keep} : Canon (s.mvWrite m v keep) := ⟨s.mvWrite_wf _ _ _ h.wf⟩
theorem entriesStored_canon {written} {was : State} : Canon (was.entriesStored s written) := ⟨was.entriesStored_wf _ _ h.wf⟩
theorem mend_canon {written} : Canon (s.mend written) := ⟨h.wf⟩
theorem mvAll_canon {core ms keep} : Canon (s.mvAll core ms keep) := by
  grind [State.mvAll, engTouch_canon, settle_canon, mvWrite_canon, mend_canon, stampLines_canon, entriesStored_canon, foldl_canon]
theorem mvPart_canon {c ms first} : Canon (s.mvPart c ms first).1 := by
  grind [State.mvPart, mvAll_canon]
theorem finishMoves_canon {r c ms count status} : Canon (s.finishMoves r c ms count status) := by
  grind [State.finishMoves, finishCmd_canon, mvAll_canon, awaitPage_canon, mvPart_canon]
theorem askPage_canon {ten addr} : Canon (s.askPage ten addr) := ⟨h.wf⟩

/-! ### The copy engine -/

theorem readIndex_canon {c} : Canon (s.readIndex c) := by
  grind [State.readIndex, engTouch_canon, foldl_canon]
theorem completeCopy_canon {r c} : Canon (s.completeCopy r c) := by
  grind [State.completeCopy, readIndex_canon, finishCmd_canon, awaitPage_canon, finishMoves_canon]
theorem deliverCopy_canon {r c g} : Canon (s.deliverCopy r c g) := by
  grind [State.deliverCopy, readIndex_canon, settleTables_canon, mvAll_canon, onCmd_canon, deliverLine_canon]
theorem boxForm_canon {op idx load o v w} {u : State} : Canon ((boxForm op idx load o u).effect v w s) := by
  grind [boxForm, onCore_canon]

/-! ### The matrix engine -/

theorem metaLine_canon {core sect leased l} : Canon (s.metaLine core sect leased l).1 := by
  grind [State.metaLine, settle_canon, leaseLine_canon, onCore_canon, stampLoad_canon]
theorem metaLines_canon {c sect x cnt} : Canon (s.metaLines c sect x cnt).1 := by
  unfold State.metaLines
  refine foldl_canon_fst h (fun r va hr => ?_) _ _
  split
  · exact hr
  · split
    · exact hr
    · exact metaLine_canon hr
theorem touchPad_canon {core off n} : Canon (s.touchPad core off n) := by
  grind [State.touchPad, settle_canon, stampLoad_canon, foldl_canon]
theorem completeMm_canon {r c sect f sparse} : Canon (s.completeMm r c sect f sparse) := by
  grind [State.completeMm, awaitPage_canon, touchPad_canon, metaLines_canon, onCore_canon, finishCmd_canon]
theorem qmDeliver_canon {c f sel whole tid} : Canon (s.qmDeliver c f sel whole tid) := by
  grind [State.qmDeliver, onThread_canon, onCore_canon]
theorem completeQm_canon {r c f sel row} : Canon (s.completeQm r c f sel row) := by
  grind [State.completeQm, touchPad_canon, qmDeliver_canon, onCore_canon, finishCmd_canon, foldl_canon]
theorem completeDrn_canon {r c sect f} : Canon (s.completeDrn r c sect f) := by
  grind [State.completeDrn, onCore_canon, finishMoves_canon]
theorem completeMzero_canon {r c sect} : Canon (s.completeMzero r c sect) := by
  grind [State.completeMzero, finishCmd_canon, onCore_canon]
theorem completeMstat_canon {r c sect} : Canon (s.completeMstat r c sect) := by
  grind [State.completeMstat, onCore_canon, finishMoves_canon]

/-! ### Tables and histograms -/

theorem completePv_canon {r c} : Canon (s.completePv r c) := by
  grind [State.completePv, touchPad_canon, finishCmd_canon, engTouch_canon, awaitPage_canon, finishMoves_canon, foldl_canon]
theorem completeTbLoad_canon {r c} : Canon (s.completeTbLoad r c) := by
  grind [State.completeTbLoad, engTouch_canon, awaitPage_canon, finishCmd_canon, onCore_canon, foldl_canon]
theorem completeTbSwap_canon {r c} : Canon (s.completeTbSwap r c) := by
  grind [State.completeTbSwap, finishCmd_canon, onCore_canon]
theorem completeHgRead_canon {r c} : Canon (s.completeHgRead r c) := by
  grind [State.completeHgRead, finishMoves_canon]

/-! ### Networks of the lanes -/

theorem gradAt_canon {l t} : Canon (s.gradAt l t) := by
  grind [State.gradAt, putBytes_canon]
theorem gradEach_canon {core l} : Canon (s.gradEach core l) := by
  grind [State.gradEach, stampLines_canon, gradAt_canon, foldl_canon]
theorem settleBacks_canon {core} : Canon (s.settleBacks core) := by
  grind [State.settleBacks, onCore_canon, gradEach_canon]
theorem fillBack_canon {core tid ord ts} : Canon (s.fillBack core tid ord ts) := ⟨h.wf⟩
theorem completeNet_canon {r c} : Canon (s.completeNet r c) := by
  grind [State.completeNet, finishCmd_canon, settleBacks_canon, awaitPage_canon]
theorem settleService_canon {core c} : Canon (s.settleService core c) := by
  grind [State.settleService, onCore_canon, askPage_canon]
theorem backwardSettle_canon {core} : Canon (s.backwardSettle core) := by
  grind [State.backwardSettle, settleService_canon, onCore_canon, settleBacks_canon, settleEnd_canon]
theorem execBackwardSettle_canon {core} : NextCanon (execBackwardSettle core s) := by
  grind [execBackwardSettle, backwardSettle_canon, NextCanon.next]
theorem readInputs_canon {core l} : Canon (s.readInputs core l).1 := by
  grind [State.readInputs, settle_canon, stampAll_canon, foldl_canon]
theorem evalLane_canon {core k o opn tid} : Canon (s.evalLane core k o opn tid) := by
  grind [State.evalLane, setStatus_canon, readInputs_canon, bumpSeq_canon, putCore_canon, onThread_canon, onCore_canon, launchAll_canon,
    noteSeen_canon, traceCmd_canon, canon_iff]
theorem evalLanes_canon {core k o opn tids} : Canon (s.evalLanes core k o opn tids) := by
  grind [State.evalLanes, actQm_canon, evalLane_canon, foldl_canon]
theorem execTileLaunch_canon {core tile} : NextCanon (execTileLaunch core tile s) := by
  grind [execTileLaunch, launchTile_canon, NextCanon.next]
theorem bindRow_canon {core handle r out} : Canon (s.bindRow core handle r out) := ⟨h.wf⟩
theorem applySums_canon {core l} : Canon (s.applySums core l) := by
  grind [State.applySums, gradEach_canon]
theorem tileOut_canon {r c n handle bwd rows} : Canon (s.tileOut r c n handle bwd rows) := by
  grind [State.tileOut, settleTables_canon, engTouch_canon, bindRow_canon, fillBack_canon, applySums_canon, onCore_canon, traceCmd_canon,
    settleEnd_canon, onQueue_canon, foldl_canon]
theorem deliverTile_canon {core sect} : Canon (s.deliverTile core sect) := by
  unfold State.deliverTile
  grind [awaitPage_canon, onCmd_canon, cross_canon, tileOut_canon]
theorem execTileDelivery_canon {core sect} : NextCanon (execTileDelivery core sect s) := by
  grind [execTileDelivery, deliverTile_canon, NextCanon.next]

/-! ### Trees -/

theorem completeTdDesc_canon {r c} : Canon (s.completeTdDesc r c) := by
  grind [State.completeTdDesc, touchPad_canon, settledView_canon, awaitPage_canon, engTouch_canon, onCore_canon, finishMoves_canon,
    foldl_canon]
theorem completeTdPath_canon {r c} : Canon (s.completeTdPath r c) := by
  grind [State.completeTdPath, finishCmd_canon, touchPad_canon, finishMoves_canon]
theorem completeTdBwd_canon {r c} : Canon (s.completeTdBwd r c) := by
  unfold State.completeTdBwd
  have emptied (l : List GradTerm) (t : State) (ht : Canon t) :
      Canon (if c.ctx.replay then t.fillBack c.ctx.core c.ctx.tid c.id l else t) := by
    split
    · exact fillBack_canon ht
    · exact ht
  extract_lets core t tr n x g dx fillEmpty s1 seen gs dec nodes places ms terms grads
  have touched : Canon s1 := touchPad_canon (touchPad_canon (touchPad_canon h))
  refine ite_canon (finishCmd_canon (emptied _ _ h)) (ite_canon (finishCmd_canon (emptied _ _ h)) ?_)
  split
  · exact awaitPage_canon h
  · refine finishMoves_canon ?_
    have read := foldl_canon touched (f := fun s l => s.engTouch core l) (fun _ _ ht => engTouch_canon ht) (placesOf places)
    split
    · exact emptied _ _ read
    · exact gradEach_canon read

/-! ### Sorting, queries and factors -/

theorem touchRange_canon {core l n} : Canon (s.touchRange core l n) := by
  grind [State.touchRange, stampLoad_canon, settle_canon, foldl_canon]
theorem completeSort_canon {r c w64} : Canon (s.completeSort r c w64) := by
  grind [State.completeSort, touchRange_canon, finishCmd_canon, storeEach_canon]
theorem completeMorton_canon {r c} : Canon (s.completeMorton r c) := by
  grind [State.completeMorton, touchRange_canon, finishCmd_canon, storeEach_canon]
theorem sapStart_canon {r c} : Canon (s.sapStart r c) := by
  grind [State.sapStart, touchRange_canon, onCmd_canon]
theorem sapFault_canon {r c l} : Canon (s.sapFault r c l) := by
  grind [State.sapFault, awaitPage_canon, finishCmd_canon]
theorem completeSap_canon {r c0} : Canon (s.completeSap r c0) := by
  unfold State.completeSap
  extract_lets s1 c
  have started : Canon s1 := ite_canon (sapStart_canon h) h
  refine ite_canon (finishCmd_canon started) ?_
  split
  · exact sapFault_canon started
  · extract_lets miss
    exact ite_canon (finishCmd_canon started) (ite_canon (sapFault_canon started)
      (ite_canon (serveAll_canon (sapPut_canon started)) (ite_canon (onCmd_canon started) started)))
theorem stopSaps_canon {core} : Canon (s.stopSaps core) := by
  grind [State.stopSaps, finishCmd_canon, foldl_canon]
theorem finishQueries_canon {r c size res} : Canon (s.finishQueries r c size res) := by
  grind [State.finishQueries, awaitPage_canon, touchRange_canon, engTouch_canon, finishCmd_canon, storeEach_canon, foldl_canon]
theorem completeQbox_canon {r c} : Canon (s.completeQbox r c) := by
  grind [State.completeQbox, finishQueries_canon]
theorem completeQray_canon {r c} : Canon (s.completeQray r c) := by
  grind [State.completeQray, finishQueries_canon]
theorem putFactor_canon {r c b kind f p} : Canon (s.putFactor r c b kind f p) := by
  grind [State.putFactor, finishCmd_canon, storeEach_canon]
theorem completePress_canon {r c} : Canon (s.completePress r c) := by
  grind [State.completePress, touchRange_canon, finishCmd_canon, putFactor_canon, storeEach_canon, foldl_canon]

/-! ### The fabric engine -/

theorem fxNext_canon {r c} : Canon (s.fxNext r c) := by
  grind [State.fxNext, onCmd_canon]
theorem fxSend_canon {c d size items} : Canon (s.fxSend c d size items) := by
  grind [State.fxSend, transmit_canon]
theorem fxSendAll_canon {c size l} : Canon (s.fxSendAll c size l) := by
  grind [State.fxSendAll, fxSend_canon, foldl_canon]
theorem completeGet_canon {r c} : Canon (s.completeGet r c) := by
  grind [State.completeGet, awaitPage_canon, finishMoves_canon, fxNext_canon, fxSendAll_canon]
theorem completePut_canon {r c} : Canon (s.completePut r c) := by
  grind [State.completePut, engTouch_canon, mvAll_canon, mvPart_canon, awaitPage_canon, finishCmd_canon, fxNext_canon, onCmd_canon,
    fxSendAll_canon, foldl_canon]
theorem completeGroup_canon {r c count moves data sent go} (hgo : ∀ t, Canon t → Canon (go t)) :
    Canon (s.completeGroup r c count moves data sent go) := by
  unfold State.completeGroup
  have told (t : State) (ht : Canon t) : Canon
      ((s.fxMembers c).foldl (fun s d => s.transmit (dieOfCore c.ctx.core) d 4 c.resv [[]]) t) :=
    foldl_canon ht (fun _ _ ht => transmit_canon ht) _
  have read : Canon (moves.foldl (fun s m => (placesOf m.src).foldl (fun s l => s.engTouch c.ctx.core l) s) s) :=
    foldl_canon h (fun _ m ht => foldl_canon ht (fun _ _ ht => engTouch_canon ht) (placesOf m.src)) moves
  refine ite_canon (finishCmd_canon h) (ite_canon (finishCmd_canon h) (ite_canon h (ite_canon (finishCmd_canon h) ?_)))
  split
  · exact fxNext_canon (told _ h)
  · refine ite_canon h (ite_canon (finishCmd_canon h) ?_)
    extract_lets t
    split
    · exact awaitPage_canon h
    · exact hgo _ read
    · exact fxNext_canon (onCmd_canon (foldl_canon read (fun _ _ ht => fxSend_canon ht) _))
  · exact ite_canon (hgo _ h) h
theorem completeAred_canon {r c bf} : Canon (s.completeAred r c bf) := by
  grind [State.completeAred, completeGroup_canon, awaitPage_canon, finishMoves_canon, onCore_canon]
theorem completeBcast_canon {r c} : Canon (s.completeBcast r c) := by
  grind [State.completeBcast, completeGroup_canon, finishMoves_canon]
theorem completeSig_canon {r c} : Canon (s.completeSig r c) := by
  grind [State.completeSig, fxNext_canon, fxSend_canon, finishCmd_canon, perform_canon, awaitPage_canon]
theorem completeFx_canon {r c} : Canon (s.completeFx r c) := by
  grind [State.completeFx, completePut_canon, completeGet_canon, completeAred_canon, completeBcast_canon, completeSig_canon]

/-! ### Commands that complete -/

theorem finishLost_canon {r c} : Canon (s.finishLost r c) := by
  grind [State.finishLost, fillBack_canon, finishCmd_canon]
theorem complete_canon {r c} : Canon (s.complete r c) := by
  grind [State.complete, settleTables_canon, finishLost_canon, completeCopy_canon, completeMm_canon, completeQm_canon, completeDrn_canon,
    completeMzero_canon, completeMstat_canon, completePv_canon, completeTbLoad_canon, completeTbSwap_canon, completeHgRead_canon,
    finishCmd_canon, completeFx_canon, completeNet_canon, completeTdDesc_canon, completeTdBwd_canon, completeTdPath_canon,
    completeSort_canon, completeMorton_canon, completeSap_canon, completeQbox_canon, completeQray_canon, completePress_canon]
theorem execCommandCompletion_canon {eng idx} : NextCanon (execCommandCompletion eng idx s) := by
  grind [execCommandCompletion, complete_canon, NextCanon.next]
theorem execLineDelivery_canon {eng idx line} : NextCanon (execLineDelivery eng idx line s) := by
  grind [execLineDelivery, deliverCopy_canon, NextCanon.next]
theorem denyPage_canon {r c va} : Canon (s.denyPage r c va) := by
  grind [State.denyPage, onCmd_canon]
theorem execEngineTranslationFault_canon {eng idx refused} : NextCanon (execEngineTranslationFault eng idx refused s) := by
  grind [execEngineTranslationFault, denyPage_canon, askPage_canon, onCmd_canon, NextCanon.next]
theorem holdAt_canon {r q x eng} : Canon (s.holdAt r q x eng) := by
  grind [State.holdAt, traceCmd_canon, canon_iff]
theorem execStopHold_canon {eng} : NextCanon (execStopHold eng s) := by
  grind [execStopHold, holdAt_canon, onCmd_canon, NextCanon.next]
theorem releaseStop_canon {r} : Canon (s.releaseStop r) := by
  grind [State.releaseStop, onQueue_canon, canon_iff]
theorem execStopRelease_canon {eng} : NextCanon (execStopRelease eng s) := by
  grind [execStopRelease, releaseStop_canon, NextCanon.next]
theorem releaseHeld_canon {core} : Canon (s.releaseHeld core) := by
  grind [State.releaseHeld, releaseStop_canon, foldl_canon]
theorem execQmFusedPass_canon {core sect count} : NextCanon (execQmFusedPass core sect count s) := by
  grind [execQmFusedPass, completeQm_canon, foldl_canon, NextCanon.next]
theorem execSubarrayGate_canon {core sect sub} : NextCanon (execSubarrayGate core sect sub s) := by
  grind [execSubarrayGate, onCore_canon, NextCanon.next]
theorem execTableExchange_canon {core} : NextCanon (execTableExchange core s) := by
  grind [execTableExchange, completeTbSwap_canon, NextCanon.next]

end

end Sys2Proof.Proofs
end

section
/-! PROOFS. What lies outside the instructions of lanes and engines keeps memory in its canonical form: issue, line groups, the scheduler, the
commands of the host, and the resets. -/

namespace Sys2Proof.Proofs
open Sys2Proof Sys2Proof.Machine

section
variable {s : State} (h : Canon s)
include h

/-! ### System instructions -/

theorem eretForm_canon {tids} {u : State} : Canon ((eretForm u).act tids s) := by
  unfold eretForm
  refine thenDo_canon h fun tids t ht => ?_
  refine onTids_canon (foldl_canon ht (fun u tid hu => ?_) tids)
  split
  · exact hu
  · exact onCore_canon hu
theorem probeForm_canon {n tids} : Canon ((probeForm n).act tids s) := by
  unfold probeForm
  refine thenDo_canon h fun tids t ht => ?_
  split
  · exact ht
  · exact onTask_canon ht
theorem haltForm_canon {tids} {u : State} : Canon ((haltForm u).act tids s) := by
  unfold haltForm
  exact thenDo_canon h fun tids t ht => settleEnd_canon (foldl_canon ht (fun _ _ hu => onCore_canon hu) tids)

/-! ### Issue -/

theorem takePreempts_canon {core} : Canon (s.takePreempts core) := by
  grind [State.takePreempts, onCore_canon, preemptNow_canon]
theorem issueSection_canon {core sect c} : Canon (s.issueSection core sect c) := ⟨h.wf⟩
theorem issueFront_canon {core c} : Canon (s.issueFront core c) := ⟨h.wf⟩
theorem execGovernorWindow_canon {core} : NextCanon (execGovernorWindow core s) := by
  grind [execGovernorWindow, onCore_canon, NextCanon.next]
theorem governed_canon {core} : Canon (s.governed core) := by
  have window : Canon (match execGovernorWindow core s with | .next t => t | _ => s) := by
    split
    next t e => exact (execGovernorWindow_canon h).canon t e
    · exact h
  unfold State.governed
  extract_lets t held
  exact onCore_canon window
theorem execGangFormation_canon {core bin} : NextCanon (execGangFormation core bin s) := by
  grind [execGangFormation, onCore_canon, NextCanon.next]
theorem formGangs_canon {core} : Canon (s.formGangs core) := by
  refine foldl_canon h (fun t b ht => ?_) _
  split
  next u e => exact (execGangFormation_canon ht).canon u e
  · exact ht
theorem domBarrier_canon {core} : Canon (s.domBarrier core) := by
  grind [State.domBarrier, tryInst_canon]
theorem crossAccesses_canon {core} : Canon (s.crossAccesses core) := by
  grind [State.crossAccesses, cross_canon, foldl_canon]
theorem rouse_canon {core} : Canon (s.rouse core) := by
  grind [State.rouse, onCore_canon, crossAccesses_canon, serveParked_canon, domBarrier_canon, formGangs_canon, tryRegroup_canon,
    takePreempts_canon]
theorem execSectionIssue_canon {core sect} : NextCanon (execSectionIssue core sect s) := by
  unfold execSectionIssue
  grind [rouse_canon, governed_canon, issueSection_canon, issueFront_canon, NextCanon.next]
theorem execForcedRun_canon {core sect} : NextCanon (execForcedRun core sect s) := by
  grind [execForcedRun, onCore_canon, NextCanon.next]
theorem execYieldDeferralEnd_canon {core sect slot} : NextCanon (execYieldDeferralEnd core sect slot s) := by
  grind [execYieldDeferralEnd, onCore_canon, NextCanon.next]
theorem execResultLands_canon {who idx} : NextCanon (execResultLands who idx s) := by
  grind [execResultLands, onThread_canon, NextCanon.next]

/-! ### Line groups and walks -/

theorem execMeshHop_canon {msg} : NextCanon (execMeshHop msg s) := by
  unfold execMeshHop
  grind [putRouter_canon, wakeRouter_canon, canon_iff, NextCanon.next]
theorem execRouterPowerDown_canon {router} : NextCanon (execRouterPowerDown router s) := by
  grind [execRouterPowerDown, putRouter_canon, NextCanon.next]
theorem execRouterWake_canon {router} : NextCanon (execRouterWake router s) := by
  grind [execRouterWake, putRouter_canon, NextCanon.next]
theorem execTokenGrant_canon {die unit} : NextCanon (execTokenGrant die unit s) := by
  grind [execTokenGrant, onDie_canon, putRouter_canon, NextCanon.next]
theorem execThrottleLift_canon {die} : NextCanon (execThrottleLift die s) := by
  grind [execThrottleLift, onDie_canon, NextCanon.next]
theorem injected_canon {cell} : Canon (s.injected cell) := by
  grind [State.injected, onCell_canon, onDie_canon]
theorem execPtsAdvance_canon : NextCanon (execPtsAdvance s) := by
  grind [execPtsAdvance, canon_iff, NextCanon.next]
theorem setGroup_canon {core i g} : Canon (s.setGroup core i g) := ⟨h.wf⟩
theorem dropGroup_canon {core i} : Canon (s.dropGroup core i) := ⟨h.wf⟩
theorem onGroup_canon {core id f} : Canon (s.onGroup core id f) := ⟨h.wf⟩
theorem endGroup_canon {core id} : Canon (s.endGroup core id) := ⟨h.wf⟩
theorem putLantern_canon {x} : Canon (s.putLantern x) := ⟨h.wf⟩
theorem execLanternPass_canon {chan} : NextCanon (execLanternPass chan s) := by
  grind [execLanternPass, putLantern_canon, NextCanon.next]
theorem usedLantern_canon {chan} : Canon (s.usedLantern chan) := ⟨h.wf⟩
theorem dropLoads_canon {core grp g} : Canon (s.dropLoads core grp g) := by
  grind [State.dropLoads, dropGroup_canon, setGroup_canon]
theorem sendGroup_canon {core grp g tries} : Canon (s.sendGroup core grp g tries) := by
  grind [State.sendGroup, setGroup_canon, inject_canon, usedLantern_canon, injected_canon, cross_canon, onDie_canon, dropLoads_canon,
    dropGroup_canon, transmit_canon, foldl_canon, canon_iff]
theorem execLineGroupSend_canon {core grp} : NextCanon (execLineGroupSend core grp s) := by
  grind [execLineGroupSend, sendGroup_canon, NextCanon.next]
theorem bypassed_canon {l} : Canon (s.bypassed l) := by
  grind [State.bypassed, onSlice_canon]
theorem bindReq_canon {core r v} : Canon (s.bindReq core r v) := by
  grind [State.bindReq, bind_canon]
theorem markReq_canon {core r} : Canon (s.markReq core r) := by
  grind [State.markReq, onThread_canon]
theorem replyGroup_canon {core g same} : Canon (s.replyGroup core g same) := by
  grind [State.replyGroup, onGroup_canon, inject_canon, cross_canon, canon_iff]
theorem stepGroup_canon {core g n copy same} : Canon (s.stepGroup core g n copy same) := by
  grind [State.stepGroup, onSlice_canon, bypassed_canon, replyGroup_canon, onGroup_canon]
theorem groupLoads_canon {core g r0 rs} : Canon (s.groupLoads core g r0 rs) := by
  grind [State.groupLoads, settle_canon, leaseLine_canon, stampLoad_canon, markReq_canon, bindReq_canon, stepGroup_canon, foldl_canon]
theorem homeLdf_canon {core g r} : Canon (s.homeLdf core g r) := by
  grind [State.homeLdf, ldfAt_canon, stepGroup_canon, bindReq_canon, endGroup_canon, inject_canon, onGroup_canon, canon_iff]
theorem homeReq_canon {core g r} : Canon (s.homeReq core g r) := by
  grind [State.homeReq, stepGroup_canon, markReq_canon, perform_canon, bindReq_canon]
theorem atHome_canon {core g} : Canon (s.atHome core g) := by
  grind [State.atHome, endGroup_canon, groupLoads_canon, stepGroup_canon, markReq_canon, homeLdf_canon, homeReq_canon]
theorem oneTime_canon {core l} : Canon (s.oneTime core l) := by
  grind [State.oneTime, settle_canon, raisePts_canon, foldl_canon]
theorem execLineGroupAtHome_canon {core grp} : NextCanon (execLineGroupAtHome core grp s) := by
  grind [execLineGroupAtHome, inject_canon, setGroup_canon, atHome_canon, oneTime_canon, foldl_canon, NextCanon.next]
theorem landReqs_canon {core l} : Canon (s.landReqs core l) := by
  grind [State.landReqs, onThread_canon, foldl_canon]
theorem execLineGroupReply_canon {core grp} : NextCanon (execLineGroupReply core grp s) := by
  grind [execLineGroupReply, dropGroup_canon, onCell_canon, onCore_canon, settleEnd_canon, landReqs_canon, NextCanon.next]
theorem execNegativeAcknowledgement_canon {core grp} : NextCanon (execNegativeAcknowledgement core grp s) := by
  grind [execNegativeAcknowledgement, setGroup_canon, NextCanon.next]
theorem execNackRetry_canon {core grp} : NextCanon (execNackRetry core grp s) := by
  grind [execNackRetry, onThread_canon, sendGroup_canon, foldl_canon, NextCanon.next]
theorem execBypassEntryFree_canon {slice entry} : NextCanon (execBypassEntryFree slice entry s) := by
  grind [execBypassEntryFree, onSlice_canon, canon_iff, NextCanon.next]
theorem walkEnd_canon {die ten root page} : Canon (s.walkEnd die ten root page).1 := by
  unfold State.walkEnd
  extract_lets k va
  split
  · exact h
  · split
    · split
      · dsimp only
        exact onSlice_canon h
      · exact h
    · exact h
theorem endWalk_canon {die root page lost} : Canon (s.endWalk die root page lost) := by
  grind [State.endWalk, settle_canon, walkEnd_canon, foldl_canon, canon_iff]
theorem execWalkComplete_canon {walk} : NextCanon (execWalkComplete walk s) := by
  grind [execWalkComplete, cross_canon, endWalk_canon, NextCanon.next]
theorem accessCrossed_canon {core va lost} : Canon (s.accessCrossed core va lost) := ⟨h.wf⟩
theorem execBridgeTransfer_canon {idx} : NextCanon (execBridgeTransfer idx s) := by
  grind [execBridgeTransfer, usedLantern_canon, onGroup_canon, onDie_canon, accessCrossed_canon, endWalk_canon, canon_iff, NextCanon.next]
theorem loseGroup_canon {core g} : Canon (s.loseGroup core g) := by
  grind [State.loseGroup, perform_canon, landReqs_canon, markReq_canon, foldl_canon]
theorem loseLoad_canon {l} : Canon (s.loseLoad l) := by
  unfold State.loseLoad
  grind [sump_canon, settleEnd_canon, loseGroup_canon, endGroup_canon, onCmd_canon, endWalk_canon, accessCrossed_canon]
theorem execBridgeCrcFail_canon {idx} : NextCanon (execBridgeCrcFail idx s) := by
  grind [execBridgeCrcFail, loseLoad_canon, canon_iff, NextCanon.next]

/-! ### Pre-emption, repair and freeze -/

theorem preemptCrew_canon {core sub save} : Canon (s.preemptCrew core sub save) := by
  grind [State.preemptCrew, stopSaps_canon, releaseHeld_canon, onCore_canon, takePreempts_canon]
theorem execPreempt_canon {core sub save} : NextCanon (execPreempt core sub save s) := by
  grind [execPreempt, preemptCrew_canon, NextCanon.next]
theorem swapCore_canon {core spare} : Canon (s.swapCore core spare) := ⟨h.wf⟩
theorem execSpareCoreRepair_canon {core save} : NextCanon (execSpareCoreRepair core save s) := by
  grind [execSpareCoreRepair, preemptCrew_canon, swapCore_canon, restoreCrew_canon, NextCanon.next]
theorem execSpareSliceRepair_canon {slice} : NextCanon (execSpareSliceRepair slice s) := by
  grind [execSpareSliceRepair, onSlice_canon, sump_canon, canon_iff, NextCanon.next]
theorem execHbmRowRepair_canon {row ended} : NextCanon (execHbmRowRepair row ended s) := by
  grind [execHbmRowRepair, sump_canon, canon_iff, NextCanon.next]
theorem freeze_canon : Canon (s.freeze) := ⟨h.wf⟩
theorem execFrzN_canon : NextCanon (execFrzN s) := by
  grind [execFrzN, freeze_canon, NextCanon.next]
theorem serviceSlot_canon {ten} : ∀ t, s.serviceSlot ten = some t → Canon t.1 := by
  intro t e
  unfold State.serviceSlot at e
  extract_lets x at e
  split at e
  · cases e
  next u n head =>
    extract_lets k va at e
    split at e
    · cases e
    · obtain ⟨y, hy, rfl⟩ := Option.map_eq_some_iff.mp e
      exact cpRead_canon (cpRead_canon h _ head) _ hy
theorem execServiceForward_canon {ten} : NextCanon (execServiceForward ten s) := by
  unfold execServiceForward
  split
  · exact .next h
  next t va b slot =>
    have read : Canon t := serviceSlot_canon h _ slot
    split
    · exact .next h
    · extract_lets payload written sent
      have sentCanon : Canon sent := onTen_canon (cpWrite_canon read)
      clear_value sent payload
      exact .next ⟨sentCanon.wf⟩
theorem execServiceResend_canon {ten idx} : NextCanon (execServiceResend ten idx s) := by
  grind [execServiceResend, onTen_canon, canon_iff, NextCanon.next]

/-! ### The scheduler -/

theorem startCrews_canon {ten id l} : Canon (s.startCrews ten id l) := by
  grind [State.startCrews, foundWork_canon, startCrew_canon, foldl_canon]
theorem startChosen_canon {cell t byHint} : Canon (s.startChosen cell t byHint) := by
  grind [State.startChosen, countBypass_canon, restoreCrew_canon, startCrews_canon]
theorem startPick_canon {cell p} : Canon (s.startPick cell p) := by
  unfold State.startPick
  grind [foundWork_canon, runStage_canon, startChosen_canon]
theorem execCrewDispatch_canon {cell} : NextCanon (execCrewDispatch cell s) := by
  grind [execCrewDispatch, startPick_canon, NextCanon.next]
theorem execCrewRestore_canon {saved core} : NextCanon (execCrewRestore saved core s) := by
  grind [execCrewRestore, startPick_canon, NextCanon.next]
theorem execStealRequest_canon {thief victim} : NextCanon (execStealRequest thief victim s) := by
  grind [execStealRequest, inject_canon, onCell_canon, onTask_canon, NextCanon.next]
theorem takeUnits_canon {thief victim ten id l} : Canon (s.takeUnits thief victim ten id l) := by
  grind [State.takeUnits, onTask_canon, canon_iff]
theorem execStealAnswer_canon {thief} : NextCanon (execStealAnswer thief s) := by
  grind [execStealAnswer, inject_canon, takeUnits_canon, onCell_canon, NextCanon.next]
theorem execStealRoundWait_canon {cell} : NextCanon (execStealRoundWait cell s) := by
  grind [execStealRoundWait, onCell_canon, NextCanon.next]
theorem execCostartAnnounce_canon {ten task rank} : NextCanon (execCostartAnnounce ten task rank s) := by
  grind [execCostartAnnounce, onTask_canon, tellMembers_canon, NextCanon.next]
theorem execCostart_canon {ten task} : NextCanon (execCostart ten task s) := by
  grind [execCostart, startCrews_canon, NextCanon.next]

/-! ### Commands of the host -/

theorem send_canon {r} : Canon (s.send r) := ⟨h.wf⟩
theorem answer_canon {dg kind seq code payload} : Canon (s.answer dg kind seq code payload) := ⟨h.wf⟩
theorem nack_canon {dg reason} : Canon (s.nack dg reason) := ⟨h.wf⟩
theorem data_canon {dg payload} : Canon (s.data dg payload) := ⟨h.wf⟩
theorem datagram_canon {dg op body} (hb : ∀ t, Canon t → Canon (body t)) : Canon (s.datagram dg op body) := by
  unfold State.datagram
  refine ite_canon h ?_
  split
  · exact ite_canon (hb _ h) (nack_canon h)
  · exact nack_canon h
  · exact h
  · exact ⟨h.wf⟩
theorem execJournalMirrorWrite_canon {ten} : NextCanon (execJournalMirrorWrite ten s) := by
  grind [execJournalMirrorWrite, onTen_canon, stampDev_canon, wrTables_canon, NextCanon.next]
theorem accepted_canon {dg result task} : Canon (s.accepted dg result task) := ⟨h.wf⟩
theorem sequenced_canon {dg len refuse take} (ht : ∀ t, Canon t → Canon (take t).1) : Canon (s.sequenced dg len refuse take) := by
  unfold State.sequenced
  extract_lets ten q t next ahead
  refine ite_canon (nack_canon h) ?_
  refine ite_canon (ite_canon (nack_canon h) ?_) (ite_canon (answer_canon h) ?_)
  · split
    · exact nack_canon h
    · exact accepted_canon (ht _ h)
  · split
    · exact answer_canon h
    · exact ite_canon (answer_canon h) (ite_canon (answer_canon (answer_canon h))
        (ite_canon (answer_canon (answer_canon h)) (answer_canon h)))
theorem plainTake_canon : Canon (plainTake s).1 := ⟨h.wf⟩
theorem execLaunchCmd_canon {dg} : NextCanon (execLaunchCmd dg s) := by
  grind [execLaunchCmd, datagram_canon, sequenced_canon, acceptTask_canon, NextCanon.next]
theorem execMapCmd_canon {dg} : NextCanon (execMapCmd dg s) := by
  grind [execMapCmd, datagram_canon, sequenced_canon, plainTake_canon, NextCanon.next]
theorem execUnmapCmd_canon {dg} : NextCanon (execUnmapCmd dg s) := by
  grind [execUnmapCmd, datagram_canon, sequenced_canon, plainTake_canon, NextCanon.next]
theorem wordCmd_canon {dg op take} (ht : ∀ t, Canon t → Canon (take t).1) : Canon (wordCmd dg op take s) :=
  datagram_canon h fun _ hu => sequenced_canon hu ht
theorem execSignalCmd_canon {dg} : NextCanon (execSignalCmd dg s) := by
  grind [execSignalCmd, wordCmd_canon, plainTake_canon, NextCanon.next]
theorem execWaitCmd_canon {dg} : NextCanon (execWaitCmd dg s) := by
  grind [execWaitCmd, wordCmd_canon, plainTake_canon, NextCanon.next]
theorem execServiceReply_canon {dg} : NextCanon (execServiceReply dg s) := by
  grind [execServiceReply, wordCmd_canon, plainTake_canon, onTen_canon, NextCanon.next]
theorem execResetTenancy_canon {dg} : NextCanon (execResetTenancy dg s) := by
  grind [execResetTenancy, datagram_canon, sequenced_canon, plainTake_canon, NextCanon.next]
theorem putEntry_canon {va lvl at' e} : Canon (s.putEntry va lvl at' e) := by
  grind [State.putEntry, settle_canon, mapPages_canon, stampDev_canon, wr_canon, canon_iff]
theorem runMap_canon {ten va e lvl} : Canon (s.runMap ten va e lvl).1 := by
  grind [State.runMap, putEntry_canon]
theorem runUnmap_canon {ten va lvl} : Canon (s.runUnmap ten va lvl) := by
  grind [State.runUnmap, putEntry_canon, canon_iff]
theorem devStore_canon {l n v} : Canon (s.devStore l n v) := by
  grind [State.devStore, stampDev_canon, putBytes_canon]
theorem devStf_canon {l v} : Canon (s.devStf l v) := by
  grind [State.devStf, stampDev_canon, setFuture_canon, wrTables_canon, settle_canon, answerLdf_canon, stampLoad_canon, foldl_canon,
    canon_iff]
theorem runSignal_canon {ten va v} : Canon (s.runSignal ten va v).1 := by
  grind [State.runSignal, settle_canon, devStore_canon]
theorem runReply_canon {ten va v} : Canon (s.runReply ten va v).1 := by
  grind [State.runReply, devStf_canon]
theorem beginReset_canon {ten q seq} : Canon (s.beginReset ten q seq) := by
  grind [State.beginReset, onTen_canon, preemptCrew_canon, foldl_canon]
theorem finishReset_canon {ten payload} : Canon (s.finishReset ten payload) := by
  grind [State.finishReset, onCell_canon, onTen_canon, foldl_canon, canon_iff]
theorem runZ_canon {ten q c} : Canon (s.runZ ten q c).1 := by
  grind [State.runZ, enterTask_canon, runMap_canon, runUnmap_canon, runSignal_canon, beginReset_canon, runReply_canon]
theorem execZcpCommandStart_canon {ten queue} : NextCanon (execZcpCommandStart ten queue s) := by
  grind [execZcpCommandStart, runZ_canon, cross_canon, onTen_canon, canon_iff, NextCanon.next]
theorem execDoneEvt_canon {ten queue} : NextCanon (execDoneEvt ten queue s) := by
  grind [execDoneEvt, finishReset_canon, onTen_canon, send_canon, NextCanon.next]
theorem query_canon {dg sel args body} (hb : ∀ t, Canon t → Canon (body t)) : Canon (query dg sel args body s) :=
  datagram_canon h fun _ hu => ite_canon (nack_canon hu) (ite_canon (ite_canon (nack_canon hu) hu) (ite_canon (nack_canon hu) (hb _ hu)))
theorem execQueryDevice_canon {dg} : NextCanon (execQueryDevice dg s) := by
  grind [execQueryDevice, query_canon, data_canon, NextCanon.next]
theorem execQueryProbes_canon {dg} : NextCanon (execQueryProbes dg s) := by
  grind [execQueryProbes, query_canon, nack_canon, data_canon, NextCanon.next]
theorem execQuerySump_canon {dg} : NextCanon (execQuerySump dg s) := by
  grind [execQuerySump, query_canon, data_canon, NextCanon.next]
theorem execQueryTrace_canon {dg} : NextCanon (execQueryTrace dg s) := by
  grind [execQueryTrace, query_canon, onTen_canon, data_canon, NextCanon.next]
theorem execQueryAttest_canon {dg} : NextCanon (execQueryAttest dg s) := by
  grind [execQueryAttest, query_canon, nack_canon, data_canon, canon_iff, NextCanon.next]
theorem execJournalRead_canon {dg} : NextCanon (execJournalRead dg s) := by
  grind [execJournalRead, datagram_canon, nack_canon, data_canon, NextCanon.next]
theorem execFreezeCmd_canon {dg} : NextCanon (execFreezeCmd dg s) := by
  grind [execFreezeCmd, datagram_canon, freeze_canon, data_canon, nack_canon, NextCanon.next]
theorem execZcpOpNotNamed_canon {dg} : NextCanon (execZcpOpNotNamed dg s) := by
  grind [execZcpOpNotNamed, datagram_canon, nack_canon, NextCanon.next]

/-! ### Remote accesses of the host -/

theorem rdmaAnswer_canon {ten conn kind payload} : Canon (s.rdmaAnswer ten conn kind payload) := ⟨h.wf⟩
theorem rdmaPut_canon {l} : Canon (s.rdmaPut l) := by
  grind [State.rdmaPut, stampDev_canon, wr_canon, clearFutures_canon, settle_canon, foldl_canon]
theorem rdmaStore_canon {l} : Canon (s.rdmaStore l) := by
  grind [State.rdmaStore, entriesStored_canon, rdmaPut_canon]
theorem execRdmaRead_canon {rq} : NextCanon (execRdmaRead rq s) := by
  grind [execRdmaRead, rdmaAnswer_canon, later_canon, settle_canon, foldl_canon, NextCanon.next]
theorem execRdmaWrite_canon {rq} : NextCanon (execRdmaWrite rq s) := by
  grind [execRdmaWrite, rdmaAnswer_canon, later_canon, mend_canon, rdmaStore_canon, NextCanon.next]
theorem execRdmaInvalidRequest_canon {ten conn} : NextCanon (execRdmaInvalidRequest ten conn s) := by
  grind [execRdmaInvalidRequest, rdmaAnswer_canon, onTen_canon, NextCanon.next]
theorem execSamplingEvt_canon {who eng} : NextCanon (execSamplingEvt who eng s) := by
  unfold execSamplingEvt
  grind [trace_canon, traceCmd_canon, NextCanon.next]
omit h in
theorem execColdReset_canon : NextCanon (execColdReset s) :=
  .next (sump_canon (s := { State.reset with
    aon := s.aonAfter.boot, cores := s.cores.map Core.freshAs, slices := s.slices.map Slice.freshAs, sched := s.sched,
    upsets := s.upsets, free := s.free }) ⟨State.reset_mem_wf⟩)
theorem execWarmReset_canon : NextCanon (execWarmReset s) := by
  have kept : Memory.wf (if s.aon.frozen then s.mem.filter fun (c : Host.Cell) => decide (c.1 < 2 ^ 39) else []) := by
    split
    · exact Memory.wf_filter _ h.wf
    · exact State.reset_mem_wf
  unfold execWarmReset
  extract_lets g r
  exact .next (sump_canon ⟨kept⟩)
theorem execAlwaysOnPowerLoss_canon : NextCanon (execAlwaysOnPowerLoss s) := by
  grind [execAlwaysOnPowerLoss, canon_iff, NextCanon.next]
theorem execLossOfPower_canon : NextCanon (execLossOfPower s) := by
  grind [execLossOfPower, canon_iff, NextCanon.next]
theorem execThermalEvent_canon {die} : NextCanon (execThermalEvent die s) := by
  grind [execThermalEvent, sump_canon, canon_iff, NextCanon.next]
theorem execVoltageDroop_canon {die} : NextCanon (execVoltageDroop die s) := by
  grind [execVoltageDroop, sump_canon, NextCanon.next]
theorem execLaserModuleSwap_canon {module} : NextCanon (execLaserModuleSwap module s) := by
  grind [execLaserModuleSwap, sump_canon, NextCanon.next]

/-! ### Resets and physical events -/

theorem writeCoreReg_canon {core n t x} : Canon (s.writeCoreReg core n t x) := by
  grind [State.writeCoreReg, onCore_canon, trace_canon]
theorem mtsrForm_canon {o tids} {u : State} : Canon ((mtsrForm o u).act tids s) := by
  grind [mtsrForm, writeCoreReg_canon, onTids_canon, tryBarriers_canon, mapRoot_canon, foldl_canon]

end

end Sys2Proof.Proofs
end

section
/-! PROOFS. Every step keeps memory in its canonical form: every instruction does, by the way in which it acts on the lanes of its run, and
every event of the device, by the lemma of that event. -/

namespace Sys2Proof.Proofs
open Sys2Proof Sys2Proof.Machine

section
variable {s : State} (h : Canon s)
include h

/-! ### Instructions -/

theorem next_lanes_canon {o chk op} : NextCanon (.next (s.lanes o chk op)) := .next (lanes_canon h)

theorem next_engIssue_canon {o k} (hk : ∀ v w t, Canon t → Canon (k.effect v w t)) : NextCanon (.next (s.engIssue o k)) :=
  .next (engIssue_canon h hk)

theorem boxCmd_canon {op idx load o} : NextCanon (boxCmd op idx load o s) :=
  next_engIssue_canon h fun _ _ _ ht => boxForm_canon ht

theorem netCmd_canon {k o} : NextCanon (netCmd k o s) :=
  .next (applySplit_canon h fun _ _ ht => evalLanes_canon ht)

theorem exec_canon {i} : NextCanon (exec i s) := by
  cases i with
  | add _ | sub _ | and _ | or _ | xor _ | shl _ | shr _ | sra _ | add64 _ | sub64 _ | and64 _ | or64 _ | xor64 _ | shl64 _ | shr64 _
  | sra64 _ | mul _ | mulh _ | mulhu _ | mul64 _ | div _ | divu _ | rem _ | remu _ | seq _ | sne _ | slt _ | sltu _ | sle _ | sleu _
  | min _ | max _ | seq64 _ | sne64 _ | slt64 _ | sltu64 _ | sle64 _ | sleu64 _ | min64 _ | max64 _ | popc _ | clz _ | ctz _ | brev _
  | bfx _ | bfi _ | prmt _ | andn _ | sel _ | abs _ | neg _ | sext8 _ | sext16 _ | zext8 _ | zext16 _ | unpt _ | addi _ | addi64 _
  | andi _ | ori _ | xori _ | addiX _ _ | addi64X _ _ | andiX _ _ | oriX _ _ | xoriX _ _ | shli _ | shri _ | srai _ | rori _ | shli64 _
  | shri64 _ | srai64 _ | rori64 _ | li _ | li64 _ | liX _ _ | li64X _ _ | lea _ | fadd32 _ | fsub32 _ | fmul32 _ | ffma32 _ | fadd64 _
  | fsub64 _ | fmul64 _ | ffma64 _ | hadd2 _ | hmul2 _ | hfma2 _ | badd2 _ | bmul2 _ | bfma2 _ | feq _ | flt _ | fle _ | funord _
  | fmin _ | fmax _ | fclass _ | fsgnj _ | feq64 _ | flt64 _ | fle64 _ | funord64 _ | fmin64 _ | fmax64 _ | fclass64 _ | fsgnj64 _
  | hmin2 _ | hmax2 _ | heq2 _ | hlt2 _ | bmin2 _ | bmax2 _ | beq2 _ | blt2 _ | rcp _ | rsq _ | sqrt _ | ex2 _ | lg2 _ | sin _ | cos _
  | tanh _ | actNear _ | actLin _ | rand _ | randu _ | randn _ | rskip _ | rsel _ | epreset | epstep | rpeek _ | affcnt _ | a2gLoc _
  | a2gPad _ | a2gCel _ | g2aLoc _ | g2aPad _ | g2aCel _ | inspace _ | spaceof _ | oprdy | drain | fenceDom | fenceSys | beqz _
  | bnez _ | bltz _ | bgez _ | blez _ | bgtz _ | bra _ | bru _ | beqzX _ _ | bnezX _ _ | bltzX _ _ | bgezX _ _ | blezX _ _ | bgtzX _ _
  | braX _ _ | bruX _ _ | jmp _ | call _ | jmpX _ _ | callX _ _ | jr _ | jalr _ | ret | loop _ | win _ | iter _ | trap _ | savefe _
  | bkpt | brk => exact next_lanes_canon h
  | cvtF32F64 _ | cvtF64F32 _ | cvtF16F32 _ | cvtF32F16 _ | cvtBf16F32 _ | cvtF32Bf16 _ | cvtE4m3F32 _ | cvtF32E4m3 _ | cvtE5m2F32 _
  | cvtF32E5m2 _ | cvtF6aF32 _ | cvtF32F6a _ | cvtF6bF32 _ | cvtF32F6b _ | cvtE8m10F32 _ | cvtF16x2F32 _ | cvtF32F16x2 _
  | cvtBf16x2F32 _ | cvtF32Bf16x2 _ | cvtE4m3x2F32 _ | cvtE5m2x2F32 _ | cvtI32F32 _ | cvtUi32F32 _ | cvtI64F32 _ | cvtUi64F32 _
  | cvtI32F64 _ | cvtUi32F64 _ | cvtI64F64 _ | cvtUi64F64 _ | cvtF32I32 _ | cvtF32Ui32 _ | cvtF32I64 _ | cvtF32Ui64 _ | cvtF64I32 _
  | cvtF64Ui32 _ | cvtF64I64 _ | cvtF64Ui64 _ | cvtI8F32 _ | cvtF32I8 _ | waitb _ | dqput _ | waitdep | mfsr _ | loadfe _ =>
    exact .next (eachLane_canon h fun _ _ ht => ⟨ht.wf⟩)
  | ld _ | ldX _ _ => exact .next (eachLane_canon h fun _ _ ht => loadForm_canon ht)
  | st _ | stX _ _ => exact .next (eachLane_canon h fun _ _ ht => storeForm_canon ht)
  | ldf _ | ldfX _ _ => exact .next (eachLane_canon h fun _ _ ht => ldfForm_canon ht)
  | stf _ | stfX _ _ => exact .next (eachLane_canon h fun _ _ ht => stfForm_canon ht)
  | atomAdd _ | atomMin _ | atomMax _ | atomAnd _ | atomOr _ | atomXor _ | atomXchg _ | atomCas _ | atomAdd64 _ | atomCas64 _
  | atomXchg64 _ | atomFadd32 _ | atomFadd64 _ | atomBfadd2 _ | atomFmin32 _ | atomFmax32 _ =>
    exact .next (eachLane_canon h fun _ _ ht => atomForm_canon ht)
  | lda32 _ | lda64 _ | sta32 _ | sta64 _ => exact .next (eachLane_canon h fun _ _ ht => affForm_canon ht)
  | affset _ => exact .next (allLanes_canon h fun _ _ ht => affsetForm_canon ht)
  | barTeam | barCrew | barCell | barStack | barDom => exact .next (eachLane_canon h fun _ _ ht => barForm_canon ht)
  | arrive _ => exact .next (stillLanes_canon h fun _ _ ht => arriveForm_canon ht)
  | shfl _ | shflup _ | shfldn _ | shflx _ | anyLane _ | allLanes _ | ballot _ | matchLanes _ | redadd _ | redmin _ | redmax _
  | redfadd _ | scani _ | scane _ | segi _ | sege _ | elect _ => exact .next (allLanes_canon h fun _ _ ht => ⟨ht.wf⟩)
  | spawn _ => exact .next (eachLane_canon h fun _ _ ht => spawnForm_canon ht)
  | exitThread => exact .next (eachLane_canon h fun _ _ ht => exitThreadForm_canon ht)
  | regroup _ => exact .next (allLanes_canon h fun _ _ ht => regroupForm_canon ht)
  | yield => exact .next (eachLane_canon h fun _ _ ht => yieldForm_canon ht)
  | dqget _ => exact .next (eachLane_canon h fun _ _ ht => dqgetForm_canon ht)
  | tasknew _ => exact .next (eachLane_canon h fun _ _ ht => tasknewForm_canon ht)
  | trigger => exact .next (stillLanes_canon h fun _ _ ht => triggerForm_canon ht)
  | fixup _ => exact .next (eachLane_canon h fun _ _ ht => fixupForm_canon ht)
  | stqput _ => exact .next (eachLane_canon h fun _ _ ht => stqputForm_canon ht)
  | stqget _ => exact .next (eachLane_canon h fun _ _ ht => stqgetForm_canon ht)
  | stqtry _ => exact .next (stillLanes_canon h fun _ _ ht => stqtryForm_canon ht)
  | mtsr _ => exact .next (eachLane_canon h fun _ _ ht => mtsrForm_canon ht)
  | eret => exact .next (eachLane_canon h fun _ _ ht => eretForm_canon ht)
  | probe _ => exact .next (eachLane_canon h fun _ _ ht => probeForm_canon ht)
  | halt => exact .next (eachLane_canon h fun _ _ ht => haltForm_canon ht)
  | cpTld _ | cpTst _ | cpGth _ | cpSct _ => exact boxCmd_canon h
  | cpLin _ | cpFill _ | cpMcst _ | mmE4m3 _ | mmE5m2 _ | mmF6a _ | mmF6b _ | mmBf16 _ | mmFp16 _ | mmI8 _ | mmE8m10 _ | mmsE4m3 _
  | mmsE5m2 _ | mmsF6a _ | mmsF6b _ | mmsBf16 _ | mmsFp16 _ | mmsI8 _ | mmsE8m10 _ | qmE4m3B0 _ | qmE4m3B1 _ | qmE4m3B2 _ | qmE4m3B3 _
  | qmE5m2B0 _ | qmE5m2B1 _ | qmE5m2B2 _ | qmE5m2B3 _ | qmF6aB0 _ | qmF6aB1 _ | qmF6aB2 _ | qmF6aB3 _ | qmF6bB0 _ | qmF6bB1 _
  | qmF6bB2 _ | qmF6bB3 _ | qmBf16 _ | qmFp16 _ | qmI8 _ | qmE8m10 _ | drnF32 _ | drnBf16 _ | drnFp16 _ | drnE4m3 _ | mzero _ | mstat _
  | pvE4m3 _ | pvBf16 _ | pvI8 _ | pvMask _ | pvPred _ | tbLoad _ | tbSwap _ | hgBind _ | hgRead _ | hgClr _ | fxPut _ | fxGet _
  | fxAredF32 _ | fxAredBf16 _ | fxBcast _ | fxSig _ | neBind _ | neFlush _ | neUnbind _ | tdBind _ | tdDesc _ | tdBwd _ | tdPath _
  | grSort32 _ | grSort64 _ | grMorton _ | grSap _ | cvQbox _ | cvQray _ | psLu32 _ | psLu64 _ | psChol32 _ | psChol64 _ | psSolve _
  | psBwd _ | psPgs _ => exact next_engIssue_canon h fun _ _ _ ht => ⟨ht.wf⟩
  | neEval _ | neEvalg _ | neBwd _ => exact netCmd_canon h
  | qmFusedPass _ _ _ => exact execQmFusedPass_canon h
  | subarrayGate _ _ _ => exact execSubarrayGate_canon h
  | tableExchange _ => exact execTableExchange_canon h
  | tileLaunch _ _ => exact execTileLaunch_canon h
  | tileDelivery _ _ => exact execTileDelivery_canon h
  | backwardSettle _ => exact execBackwardSettle_canon h
  | commandCompletion _ _ => exact execCommandCompletion_canon h
  | lineDelivery _ _ _ => exact execLineDelivery_canon h
  | engineTranslationFault _ _ _ => exact execEngineTranslationFault_canon h
  | stopHold _ => exact execStopHold_canon h
  | stopRelease _ => exact execStopRelease_canon h
  | resultLands _ _ => exact execResultLands_canon h
  | sectionIssue core sect => exact execSectionIssue_canon (core := core) (sect := sect) h
  | forcedRun _ _ => exact execForcedRun_canon h
  | yieldDeferralEnd _ _ _ => exact execYieldDeferralEnd_canon h
  | governorWindow _ => exact execGovernorWindow_canon h
  | gangFormation _ _ => exact execGangFormation_canon h
  | crewDispatch _ => exact execCrewDispatch_canon h
  | stealRequest _ _ => exact execStealRequest_canon h
  | stealAnswer _ => exact execStealAnswer_canon h
  | stealRoundWait _ => exact execStealRoundWait_canon h
  | costart _ _ => exact execCostart_canon h
  | costartAnnounce _ _ _ => exact execCostartAnnounce_canon h
  | lineGroupSend _ _ => exact execLineGroupSend_canon h
  | lineGroupAtHome _ _ => exact execLineGroupAtHome_canon h
  | lineGroupReply _ _ => exact execLineGroupReply_canon h
  | negativeAcknowledgement _ _ => exact execNegativeAcknowledgement_canon h
  | nackRetry _ _ => exact execNackRetry_canon h
  | bypassEntryFree _ _ => exact execBypassEntryFree_canon h
  | ptsAdvance => exact execPtsAdvance_canon h
  | lanternPass _ => exact execLanternPass_canon h
  | meshHop _ => exact execMeshHop_canon h
  | routerPowerDown _ => exact execRouterPowerDown_canon h
  | routerWake _ => exact execRouterWake_canon h
  | tokenGrant _ _ => exact execTokenGrant_canon h
  | throttleLift _ => exact execThrottleLift_canon h
  | walkComplete _ => exact execWalkComplete_canon h
  | serviceForward ten => exact execServiceForward_canon (ten := ten) h
  | serviceResend _ _ => exact execServiceResend_canon h
  | preempt _ _ _ => exact execPreempt_canon h
  | crewRestore _ _ => exact execCrewRestore_canon h
  | spareCoreRepair _ _ => exact execSpareCoreRepair_canon h
  | spareSliceRepair _ => exact execSpareSliceRepair_canon h
  | hbmRowRepair _ _ => exact execHbmRowRepair_canon h
  | frzN => exact execFrzN_canon h
  | bridgeTransfer _ => exact execBridgeTransfer_canon h
  | bridgeCrcFail _ => exact execBridgeCrcFail_canon h
  | remoteDomainAccess _ => exact execRemoteDomainAccess_canon h
  | storeRefusalReport _ _ => exact execStoreRefusalReport_canon h
  | flitData _ _ => exact execFlitData_canon h
  | flitAcknowledgement _ _ => exact execFlitAcknowledgement_canon h
  | flitNegativeAcknowledgement _ _ => exact execFlitNegativeAcknowledgement_canon h
  | flitReservation _ _ => exact execFlitReservation_canon h
  | flitControl _ _ => exact execFlitControl_canon h
  | wavelengthRetire _ _ _ => exact execWavelengthRetire_canon h
  | fibreFailover _ _ => exact execFibreFailover_canon h
  | peerUnreachable _ _ => exact execPeerUnreachable_canon h
  | launchCmd _ => exact execLaunchCmd_canon h
  | mapCmd _ => exact execMapCmd_canon h
  | unmapCmd _ => exact execUnmapCmd_canon h
  | signalCmd _ => exact execSignalCmd_canon h
  | waitCmd _ => exact execWaitCmd_canon h
  | queryDevice _ => exact execQueryDevice_canon h
  | queryProbes _ => exact execQueryProbes_canon h
  | querySump _ => exact execQuerySump_canon h
  | queryTrace _ => exact execQueryTrace_canon h
  | queryAttest _ => exact execQueryAttest_canon h
  | journalRead _ => exact execJournalRead_canon h
  | resetTenancy _ => exact execResetTenancy_canon h
  | freezeCmd _ => exact execFreezeCmd_canon h
  | serviceReply _ => exact execServiceReply_canon h
  | zcpCommandStart _ _ => exact execZcpCommandStart_canon h
  | doneEvt _ _ => exact execDoneEvt_canon h
  | journalMirrorWrite _ => exact execJournalMirrorWrite_canon h
  | rdmaRead _ => exact execRdmaRead_canon h
  | rdmaWrite _ => exact execRdmaWrite_canon h
  | rdmaInvalidRequest _ _ => exact execRdmaInvalidRequest_canon h
  | coldReset => exact execColdReset_canon
  | warmReset => exact execWarmReset_canon h
  | alwaysOnPowerLoss => exact execAlwaysOnPowerLoss_canon h
  | thermalEvent _ => exact execThermalEvent_canon h
  | laserModuleSwap _ => exact execLaserModuleSwap_canon h
  | wordNotInstruction _ _ => exact execWordNotInstruction_canon h
  | fetchTrap => exact execFetchTrap_canon h
  | zcpOpNotNamed _ => exact execZcpOpNotNamed_canon h
  | samplingEvt _ _ => exact execSamplingEvt_canon h
  | voltageDroop _ => exact execVoltageDroop_canon h
  | lossOfPower => exact execLossOfPower_canon h
  | linksComeUp _ _ => exact execLinksComeUp_canon h

/-! ### The step -/

theorem withRaw_canon {raw} : Canon { s with issue := { s.issue with raw } } := ⟨h.wf⟩
theorem withSched_canon {r} : Canon { s with sched := r } := ⟨h.wf⟩
theorem withUpsets_canon {r} : Canon { s with upsets := r } := ⟨h.wf⟩
theorem withSlot_canon {r i} : Canon { s with slots := r, issue := i } := ⟨h.wf⟩
theorem tickOne_canon : Canon s.tickOne := ⟨h.wf⟩
theorem aonTick_canon : Canon s.aonTick := by
  unfold State.aonTick
  split
  · exact ⟨h.wf⟩
  · exact h
theorem sumpStorage_canon {l bad} : Canon (s.sumpStorage l bad) := sump_canon h

theorem runSlot_canon : NextCanon s.runSlot := by
  unfold State.runSlot
  extract_lets core
  split
  · exact .next h
  · split
    · exact exec_canon h
    · split
      · exact exec_canon h
      · extract_lets d
        clear_value d
        cases d with
        | ok i => exact exec_canon (withRaw_canon h)
        | error e => exact exec_canon h

theorem unitStep_canon {x} : NextCanon (s.unitStep x) := by
  cases x with
  | some i => exact exec_canon h
  | none => exact .next (ite_canon (tickOne_canon h) h)

theorem auto_canon : NextCanon s.auto := by
  unfold State.auto
  split
  · exact exec_canon h
  · split
    · exact .next (pump_canon h)
    · split
      · exact exec_canon h
      · extract_lets l k
        split
        · exact unitStep_canon h
        · exact .next h

theorem stoppedStep_canon : NextCanon s.stoppedStep := by
  have ticked : Canon s.aonTick := aonTick_canon h
  unfold State.stoppedStep
  split
  · split
    · exact .next ticked
    · exact .fault
  · split
    · exact exec_canon (withSched_canon ticked)
    · exact .next (withSched_canon ticked)

theorem upset_canon {u} : Canon (s.upset u) := by
  cases u with
  | word l =>
    have noted {errs} : Canon { s with errs } := ⟨h.wf⟩
    exact sumpStorage_canon (l := l) (bad := true) noted
  | corrected l => exact sumpStorage_canon h
  | reg core tid n => exact onThread_canon (sump_canon h)

theorem upsetsDue_canon : Canon s.upsetsDue :=
  foldl_canon (withUpsets_canon h) (fun _ _ ht => upset_canon ht) _

theorem cycle_canon : NextCanon s.cycle := by
  unfold State.cycle
  split
  · exact stoppedStep_canon h
  · have due : Canon ({ s with free := s.free + 1 } : State).upsetsDue := upsetsDue_canon ⟨h.wf⟩
    extract_lets t
    split
    · exact runSlot_canon (withSlot_canon due)
    · split
      · exact auto_canon due
      · split
        · split
          · exact exec_canon (withSched_canon due)
          · exact .next (withSched_canon due)
        · exact auto_canon due

end

/-- Settles O60: every instruction, event and action of a unit passes memory through the operations that keep its form. -/
theorem memoryStaysCanonical : Obligations.MemoryStaysCanonical := by
  unfold Obligations.MemoryStaysCanonical
  intro s t canonical stepped
  exact ((cycle_canon ⟨canonical⟩).canon t stepped).wf

end Sys2Proof.Proofs
end

section
/-! PROOFS. Words that the spec works out and what they decode to (R32, R35). -/

namespace Sys2Proof.Proofs
open Sys2Proof Sys2Proof.Laws

/-- A word that the encoder gives an instruction alone decodes to it, by `encoding_statement`. -/
theorem decode2_of_rawOf {i : Instr} {w : W32} (hwf : i.wf = true) (h : rawOf i = some ⟨w, none⟩) (n : Option W32) :
    decode2 w n = .ok (i, 4) := by
  have hdec := encoding_statement i hwf
  rw [h] at hdec
  exact hdec n

/-- The two words that the encoder gives an instruction behind an X word decode to it. -/
theorem decode2_of_rawOf_prefixed {i : Instr} {x : BitVec 26} {w : W32} (hwf : i.wf = true) (h : rawOf i = some ⟨w, some x⟩) :
    decode2 (packX x) (some w) = .ok (i, 8) := by
  have hdec := encoding_statement i hwf
  rwa [h] at hdec

/-- Settles O1: each word is the one that the encoder gives its instruction, and the decoder inverts the encoder. -/
theorem writtenWordsDecode : Obligations.WrittenWordsDecode :=
  ⟨decode2_of_rawOf rfl rfl none, decode2_of_rawOf rfl rfl none, decode2_of_rawOf rfl rfl none, decode2_of_rawOf rfl rfl none,
    decode2_of_rawOf rfl rfl none, decode2_of_rawOf rfl rfl none, decode2_of_rawOf rfl rfl none, decode2_of_rawOf rfl rfl none,
    decode2_of_rawOf rfl rfl none, decode2_of_rawOf_prefixed (x := 0x3FFFFFF#26) rfl rfl⟩

end Sys2Proof.Proofs
end

section
/-! PROOFS. Rows of the spec's tables that an instruction carries out as they are, and those of the immediate forms (R89 to R92). -/

namespace Sys2Proof.Proofs
open Sys2Proof Sys2Proof.Machine

/-! ### An instruction and its row -/

/-- The instruction of a row is one of its lanes alone, with the operands, the checks and the effect of the row. -/
def LaneRow.Exact (r : LaneRow) : Prop := ∀ s, exec r.instr s = .next (s.lanes r.opn r.chk r.eff)

theorem LaneRow.Exact.completes {r : LaneRow} (h : LaneRow.Exact r) (s : State) : r.completes s := fun hr => by
  rw [h s, State.lanes_ready hr]

/-! ### Immediates (R35, R46) -/

theorem sext11_eq (i : BitVec 11) : sext11 i = BitVec.ofInt 64 (immI i) := rfl

theorem imm37_eq (x : BitVec 26) (i : BitVec 11) : imm37 x i = BitVec.ofInt 64 (immX x i) := by
  have : (x ++ i).toInt = immX x i := by rw [BitVec.toInt_append, immX, Int.mul_comm]; rfl
  rw [imm37, BitVec.signExtend, this]

theorem lo32_ofInt (n : Int) : lo32 (BitVec.ofInt 64 n) = BitVec.ofInt 32 n := by
  apply BitVec.eq_of_toNat_eq
  simp only [lo32, BitVec.extractLsb'_toNat, BitVec.toNat_ofInt, Nat.shiftRight_zero]
  omega

theorem lo32_sext11 (i : BitVec 11) : lo32 (sext11 i) = BitVec.ofInt 32 (immI i) := lo32_ofInt _
theorem lo32_imm37 (x : BitVec 26) (i : BitVec 11) : lo32 (imm37 x i) = BitVec.ofInt 32 (immX x i) := by
  rw [imm37_eq, lo32_ofInt]

/-! ### Words and the numbers that the tables speak of -/

section Words
variable {w : Nat}

theorem add_ofInt_eq (a : BitVec w) (n : Int) : a + BitVec.ofInt w n = BitVec.ofInt w (a.toNat + n) := by
  rw [BitVec.ofInt_add, BitVec.ofInt_natCast, BitVec.ofNat_toNat, BitVec.setWidth_eq]

theorem shiftLeft_eq_ofNat (a : BitVec w) (n : Nat) : a <<< n = BitVec.ofNat w (a.toNat * 2 ^ n) :=
  BitVec.eq_of_toNat_eq (by rw [BitVec.toNat_shiftLeft, Nat.shiftLeft_eq, BitVec.toNat_ofNat])

theorem ushiftRight_eq_ofNat (a : BitVec w) (n : Nat) : a >>> n = BitVec.ofNat w (a.toNat / 2 ^ n) := by
  rw [← Nat.shiftRight_eq_div_pow, ← BitVec.toNat_ushiftRight, BitVec.ofNat_toNat, BitVec.setWidth_eq]

theorem sshiftRight_eq_ofInt (a : BitVec w) (n : Nat) : a.sshiftRight n = BitVec.ofInt w (a.toInt / 2 ^ n) := by
  rw [BitVec.sshiftRight_eq, Int.shiftRight_eq_div_pow, Nat.cast_pow, Nat.cast_ofNat]

/-- The two parts of a rotation have no bit in common, so that their OR is their sum. -/
theorem rotateRight_eq_ofNat (a : BitVec w) {n : Nat} (hn : n < w) :
    a.rotateRight n = BitVec.ofNat w (a.toNat / 2 ^ n + a.toNat * 2 ^ (w - n)) := by
  have apart : a >>> n &&& a <<< (w - n) = 0#w := by
    ext i hi
    simp only [BitVec.getElem_and, BitVec.getElem_ushiftRight, BitVec.getElem_shiftLeft, BitVec.getElem_zero]
    by_cases h : i < w - n
    · simp [h]
    · simp [BitVec.getLsbD_of_ge a (n + i) (by omega)]
  calc a.rotateRight n
      = a >>> n ||| a <<< (w - n) := by rw [BitVec.rotateRight_def, Nat.mod_eq_of_lt hn]
    _ = a >>> n + a <<< (w - n) := (BitVec.add_eq_or_of_and_eq_zero _ _ apart).symm
    _ = _ := by rw [ushiftRight_eq_ofNat, shiftLeft_eq_ofNat, BitVec.ofNat_add]

theorem add_shiftLeft_eq_ofNat (a b : BitVec w) (n : Nat) : a + b <<< n = BitVec.ofNat w (a.toNat + b.toNat * 2 ^ n) := by
  rw [shiftLeft_eq_ofNat, BitVec.ofNat_add, BitVec.ofNat_toNat, BitVec.setWidth_eq]

end Words

/-! ### The tables of R89 to R92 -/

theorem immRows_exact (o : I2) : ∀ r ∈ immRows o, LaneRow.Exact r := by
  simp only [immRows, List.forall_mem_cons, BitVec.ofNat_toNat, ← add_ofInt_eq, ← lo32_sext11, ← sext11_eq]
  exact ⟨fun _ => rfl, fun _ => rfl, fun _ => rfl, fun _ => rfl, fun _ => rfl, List.forall_mem_nil _⟩

theorem immXRows_exact (x : BitVec 26) (o : I2) : ∀ r ∈ immXRows x o, LaneRow.Exact r := by
  simp only [immXRows, List.forall_mem_cons, ← add_ofInt_eq, ← lo32_imm37, ← imm37_eq]
  exact ⟨fun _ => rfl, fun _ => rfl, fun _ => rfl, fun _ => rfl, fun _ => rfl, List.forall_mem_nil _⟩

theorem shift32Rows_exact (o : Sh5) : ∀ r ∈ shift32Rows o, LaneRow.Exact r := by
  simp only [shift32Rows, List.forall_mem_cons, ← shiftLeft_eq_ofNat, ← ushiftRight_eq_ofNat, ← sshiftRight_eq_ofInt,
    ← rotateRight_eq_ofNat _ o.n.isLt]
  exact ⟨fun _ => rfl, fun _ => rfl, fun _ => rfl, fun _ => rfl, List.forall_mem_nil _⟩

theorem shift64Rows_exact (o : Sh6) : ∀ r ∈ shift64Rows o, LaneRow.Exact r := by
  simp only [shift64Rows, List.forall_mem_cons, ← shiftLeft_eq_ofNat, ← ushiftRight_eq_ofNat, ← sshiftRight_eq_ofInt,
    ← rotateRight_eq_ofNat _ o.n.isLt]
  exact ⟨fun _ => rfl, fun _ => rfl, fun _ => rfl, fun _ => rfl, List.forall_mem_nil _⟩

theorem liRows_exact (o : LiOp) (x : BitVec 26) : ∀ r ∈ liRows o x, LaneRow.Exact r := by
  simp only [liRows, List.forall_mem_cons, ← lo32_sext11, ← lo32_imm37, ← sext11_eq, ← imm37_eq]
  exact ⟨fun _ => rfl, fun _ => rfl, fun _ => rfl, fun _ => rfl, List.forall_mem_nil _⟩

theorem leaRow_exact (o : RR3) : LaneRow.Exact (leaRow o) := by
  simp only [leaRow, ← add_shiftLeft_eq_ofNat]
  exact fun _ => rfl

/-- Settles O14: table by table. -/
theorem immediateResults : Obligations.ImmediateResults := by
  intro s o x m n l e r hr
  refine LaneRow.Exact.completes ?_ s
  revert r
  simp only [List.forall_mem_append, List.forall_mem_singleton]
  exact ⟨⟨⟨⟨⟨immRows_exact o, immXRows_exact x o⟩, shift32Rows_exact m⟩, shift64Rows_exact n⟩, liRows_exact l x⟩, leaRow_exact e⟩

end Sys2Proof.Proofs
end

section
/-! PROOFS. The transfers of control (R93 to R96): each is the instruction of its row. -/

namespace Sys2Proof.Proofs
open Sys2Proof Sys2Proof.Machine

theorem branchRows_exact (o : B1) : ∀ r ∈ branchRows o, LaneRow.Exact r := by
  have off := fun a => relTarget_offB a o.o
  simp only [branchRows, List.forall_mem_cons]
  exact ⟨branch_eq off condEqz_iff fun _ => rfl, branch_eq off condNez_iff fun _ => rfl, branch_eq off condLtz_iff fun _ => rfl,
    branch_eq off condGez_iff fun _ => rfl, branch_eq off condLez_iff fun _ => rfl, branch_eq off condGtz_iff fun _ => rfl,
    branch_eq off condNez_iff fun _ => rfl, List.forall_mem_nil _⟩

theorem branchXRows_exact (x : BitVec 26) (o : B1) : ∀ r ∈ branchXRows x o, LaneRow.Exact r := by
  have off := fun a => relTarget_offBX a x o.o
  simp only [branchXRows, List.forall_mem_cons]
  exact ⟨branch_eq off condEqz_iff fun _ => rfl, branch_eq off condNez_iff fun _ => rfl, branch_eq off condLtz_iff fun _ => rfl,
    branch_eq off condGez_iff fun _ => rfl, branch_eq off condLez_iff fun _ => rfl, branch_eq off condGtz_iff fun _ => rfl,
    branch_eq off condNez_iff fun _ => rfl, List.forall_mem_nil _⟩

theorem jumpRows_exact (x : BitVec 26) (b : O15) (j : O26) : ∀ r ∈ jumpRows x b j, LaneRow.Exact r := by
  simp only [jumpRows, List.forall_mem_cons]
  exact ⟨jump_eq (fun a => relTarget_offB a b) fun _ => rfl, jump_eq (fun a => relTarget_offBX a x b) fun _ => rfl,
    jump_eq (fun a => relTarget_offJ a j) fun _ => rfl, jump_eq (fun a => relTarget_offJX a x j) fun _ => rfl,
    jump_eq (fun a => relTarget_offJ a j) fun _ => rfl, jump_eq (fun a => relTarget_offJX a x j) fun _ => rfl,
    List.forall_mem_nil _⟩

theorem regJumpRows_exact (a : RA) (o : R2) : ∀ r ∈ regJumpRows a o, LaneRow.Exact r := by
  simp only [regJumpRows, List.forall_mem_cons]
  exact ⟨fun _ => rfl, fun _ => rfl, fun _ => rfl, List.forall_mem_nil _⟩

/-- Settles O16: table by table. -/
theorem transferResults : Obligations.TransferResults := by
  intro s x o b j a p r hr
  refine LaneRow.Exact.completes ?_ s
  revert r
  simp only [List.forall_mem_append]
  exact ⟨⟨⟨branchRows_exact o, branchXRows_exact x o⟩, jumpRows_exact x b j⟩, regJumpRows_exact a p⟩

end Sys2Proof.Proofs
end

section
/-! PROOFS. Sums and products, each element rounded once (R61, R66, R67, R107, R108), and the comparisons, minima, maxima, classes
and sign copies (R109 to R111): each instruction is its row. -/

namespace Sys2Proof.Proofs
open Sys2Proof Sys2Proof.Machine

/-! ### The draws of an instruction's elements (R67) -/

theorem roundDraw_fst (t : Thread) (m : Rnd) : (t.roundDraw m).1 = elemDraw t m 0 := by
  by_cases hm : m = .sr <;> simp [Thread.roundDraw, Thread.drawRound, elemDraw, hm]

theorem drawn_zero (t : Thread) (m : Rnd) : t.drawn m 0 = t := by
  simp [Thread.drawn]

theorem roundDraw_snd (t : Thread) (m : Rnd) : (t.roundDraw m).2 = t.drawn m 1 := by
  by_cases hm : m = .sr <;> simp [Thread.roundDraw, Thread.drawRound, Thread.drawn, hm]

theorem drawn_drawn (t : Thread) (m : Rnd) (j k : Nat) : (t.drawn m j).drawn m k = t.drawn m (j + k) := by
  by_cases hm : m = .sr <;> simp [Thread.drawn, hm, BitVec.ofNat_add, BitVec.add_assoc]

/-- The word of a draw depends on the counter's value, and not on the draws before it. -/
theorem elemDraw_drawn (t : Thread) (m : Rnd) (j k : Nat) : elemDraw (t.drawn m j) m k = elemDraw t m (j + k) := by
  by_cases hm : m = .sr
  · subst hm
    simp only [elemDraw, Thread.drawn, if_true, BitVec.ofNat_add, ← BitVec.add_assoc]
    rfl
  · simp [elemDraw, hm]

/-! ### The elements of sums and products (R107, R108) -/

/-- Element k of a packed operation, rounded with its own draw: its encoding and its flags. -/
def elemResult (fm : Fmt) (f : FOp) (m : Rnd) (t : Thread) (x y z k : Nat) : Nat × FFlags :=
  f fm m (elemDraw t m k) (fm.decode (elemOf fm.width x k)) (fm.decode (elemOf fm.width y k)) (fm.decode (elemOf fm.width z k))

theorem elemResults_eq (fm : Fmt) (n : Nat) (f : FOp) (m : Rnd) (t : Thread) (x y z : Nat) : elemResults fm n f m t x y z =
    (((List.range n).map fun k => (elemResult fm f m t x y z k).1 * 2 ^ (fm.width * k)).sum,
      (List.range n).foldl (fun a k => a ||| (elemResult fm f m t x y z k).2) 0) := rfl

theorem elemOf_zero (w x : Nat) : elemOf w x 0 = x % 2 ^ w := by
  simp [elemOf]

theorem elemOf_succ (w x k : Nat) : elemOf w x (k + 1) = elemOf w (x / 2 ^ w) k := by
  rw [elemOf, elemOf, Nat.div_div_eq_div_mul, ← Nat.pow_add, Nat.mul_succ, Nat.add_comm w]

theorem elemResult_zero (fm : Fmt) (f : FOp) (m : Rnd) (t : Thread) (x y z : Nat) : elemResult fm f m t x y z 0 =
    f fm m (elemDraw t m 0) (fm.decode (x % 2 ^ fm.width)) (fm.decode (y % 2 ^ fm.width)) (fm.decode (z % 2 ^ fm.width)) := by
  simp only [elemResult, elemOf_zero]

theorem elemResult_succ (fm : Fmt) (f : FOp) (m : Rnd) (t : Thread) (x y z k : Nat) : elemResult fm f m t x y z (k + 1) =
    elemResult fm f m (t.drawn m 1) (x / 2 ^ fm.width) (y / 2 ^ fm.width) (z / 2 ^ fm.width) k := by
  simp only [elemResult, elemOf_succ, elemDraw_drawn, Nat.add_comm 1]

theorem foldl_or_range_succ {w : Nat} (g : Nat → BitVec w) (n : Nat) :
    (List.range (n + 1)).foldl (fun a k => a ||| g k) 0 = g 0 ||| (List.range n).foldl (fun a k => a ||| g (k + 1)) 0 := by
  rw [List.range_succ_eq_map, List.foldl_cons, BitVec.or_comm, List.foldl_map, ← List.foldl_map (f := fun k => g (k + 1)),
    ← List.foldl_map (f := fun k => g (k + 1)), List.foldl_assoc]

/-- Elements joined at a place of w bits each: the first, and the others above it. -/
theorem sum_places_succ (w : Nat) (g : Nat → Nat) (n : Nat) :
    ((List.range (n + 1)).map fun k => g k * 2 ^ (w * k)).sum =
      g 0 + 2 ^ w * ((List.range n).map fun k => g (k + 1) * 2 ^ (w * k)).sum := by
  have place (k : Nat) : g (k + 1) * 2 ^ (w * (k + 1)) = 2 ^ w * (g (k + 1) * 2 ^ (w * k)) := by
    rw [Nat.mul_succ, Nat.pow_add, ← Nat.mul_assoc, Nat.mul_comm]
  simp only [List.range_succ_eq_map, List.map_cons, List.sum_cons, List.map_map, Function.comp_def, place, List.sum_map_mul_left,
    Nat.mul_zero, Nat.pow_zero, Nat.mul_one]

theorem elemResults_succ (fm : Fmt) (n : Nat) (f : FOp) (m : Rnd) (t : Thread) (x y z : Nat) :
    elemResults fm (n + 1) f m t x y z =
      let e := elemResult fm f m t x y z 0
      let r := elemResults fm n f m (t.drawn m 1) (x / 2 ^ fm.width) (y / 2 ^ fm.width) (z / 2 ^ fm.width)
      (e.1 + 2 ^ fm.width * r.1, e.2 ||| r.2) := by
  simp only [elemResults_eq, sum_places_succ, foldl_or_range_succ, elemResult_succ]

/-- The model rounds element 0 and goes on with the higher elements; the spec's tables speak of all elements at once. -/
theorem roundElems_eq (fm : Fmt) (m : Rnd) (f : FOp) (x y z n : Nat) (t : Thread) : roundElems fm m f x y z n t =
    ((elemResults fm n f m t x y z).1, (elemResults fm n f m t x y z).2, t.drawn m n) := by
  induction n generalizing x y z t with
  | zero => rw [drawn_zero]; rfl
  | succ n ih =>
    rw [roundElems, elemResults_succ, elemResult_zero]
    simp only [roundDraw_fst, roundDraw_snd, ih, drawn_drawn, Nat.add_comm 1]

theorem rowFp32_exact {o : RR3} {i : RR3 → Instr} {fm : Fmt} {n : Nat} {acc : Bool} {f : FOp}
    (hx : ∀ s, exec (i o) s = fp32 o fm n acc f s) : LaneRow.Exact (rowFp32 o i fm n acc f) := fun s => by
  have h := (hx s).trans (fp32_eq o fm n acc f s)
  simp only [laneElems32, roundElems_eq] at h
  exact h

theorem rowFp64_exact {o : RR3} {i : RR3 → Instr} {acc : Bool} {f : FOp}
    (hx : ∀ s, exec (i o) s = fp64 o acc f s) : LaneRow.Exact (rowFp64 o i acc f) := fun s => by
  have h := (hx s).trans (fp64_eq o acc f s)
  simp only [laneElems64, roundElems_eq] at h
  exact h

theorem floatRows_exact (o : RR3) : ∀ r ∈ floatRows o, LaneRow.Exact r := by
  simp only [floatRows, List.forall_mem_cons]
  exact ⟨rowFp32_exact fun _ => rfl, rowFp32_exact fun _ => rfl, rowFp32_exact fun _ => rfl, rowFp32_exact fun _ => rfl,
    rowFp64_exact fun _ => rfl, rowFp64_exact fun _ => rfl, rowFp64_exact fun _ => rfl, rowFp64_exact fun _ => rfl,
    rowFp32_exact fun _ => rfl, rowFp32_exact fun _ => rfl, rowFp32_exact fun _ => rfl, rowFp32_exact fun _ => rfl,
    rowFp32_exact fun _ => rfl, rowFp32_exact fun _ => rfl, List.forall_mem_nil _⟩

/-! ### Comparisons, classes and sign copies (R109, R110) -/

theorem fclass_eq (fm : Fmt) (x : Nat) : fclass fm x = BitVec.ofNat 32 (2 ^ classBit fm x) := by
  rw [fclass, classBit]
  rcases fm.decode x with (_ | _) | (_ | _) | (_ | _) | ⟨_ | _, m, e⟩ <;> simp

/-- The magnitude of a with the sign bit of b. -/
theorem copySign_eq {w : Nat} (a b : BitVec (w + 1)) :
    a &&& BitVec.ofNat (w + 1) (2 ^ w - 1) ||| b &&& BitVec.ofNat (w + 1) (2 ^ w) =
      BitVec.ofNat (w + 1) (a.toNat % 2 ^ w + b.toNat / 2 ^ w * 2 ^ w) := by
  have hpow : 2 ^ w < 2 ^ (w + 1) := Nat.pow_lt_pow_succ Nat.one_lt_two
  have magnitude : (a &&& BitVec.ofNat (w + 1) (2 ^ w - 1)).toNat = a.toNat % 2 ^ w := by
    rw [BitVec.toNat_and, BitVec.toNat_ofNat, Nat.mod_eq_of_lt (Nat.lt_of_le_of_lt (Nat.sub_le _ _) hpow), Nat.and_two_pow_sub_one_eq_mod]
  have sign : (b &&& BitVec.ofNat (w + 1) (2 ^ w)).toNat = 2 ^ w * (b.toNat / 2 ^ w) := by
    have one : b.toNat / 2 ^ w < 2 := Nat.div_lt_of_lt_mul (by rw [← Nat.pow_succ]; exact b.isLt)
    rw [BitVec.toNat_and, BitVec.toNat_ofNat, Nat.mod_eq_of_lt hpow, Nat.and_two_pow, Nat.toNat_testBit, Nat.mod_eq_of_lt one, Nat.mul_comm]
  have join := Nat.two_pow_add_eq_or_of_lt (Nat.mod_lt a.toNat (Nat.two_pow_pos w)) (b.toNat / 2 ^ w)
  rw [Nat.add_comm (a.toNat % _), Nat.mul_comm (b.toNat / _), join, ← magnitude, ← sign, ← BitVec.toNat_or, BitVec.ofNat_toNat,
    BitVec.setWidth_eq, BitVec.or_comm]

theorem rowFsel32_exact {o : R3} {i : R3 → Instr} {f : Fmt → Nat → Nat → Nat} (big : Bool)
    (hf : ∀ fm x y, f fm x y = fminmax fm big x y) (hx : ∀ s, exec (i o) s = fsel32 o big s) : LaneRow.Exact (rowFsel32 o i f) := fun s => by
  simp only [rowFsel32, hf]
  exact hx s
theorem rowFsel64_exact {o : R3} {i : R3 → Instr} {f : Fmt → Nat → Nat → Nat} (big : Bool)
    (hf : ∀ fm x y, f fm x y = fminmax fm big x y) (hx : ∀ s, exec (i o) s = fsel64 o big s) : LaneRow.Exact (rowFsel64 o i f) := fun s => by
  simp only [rowFsel64, hf]
  exact hx s

theorem fcmpRows_exact (o : R3) (p : R2) : ∀ r ∈ fcmpRows o p, LaneRow.Exact r := by
  simp only [fcmpRows, List.forall_mem_cons, ← fclass_eq, ← copySign_eq (w := 31), ← copySign_eq (w := 63)]
  exact ⟨fun _ => rfl, fun _ => rfl, fun _ => rfl, fun _ => rfl,
    rowFsel32_exact false lesser_eq fun _ => rfl, rowFsel32_exact true greater_eq fun _ => rfl, fun _ => rfl, fun _ => rfl,
    fun _ => rfl, fun _ => rfl, fun _ => rfl, fun _ => rfl,
    rowFsel64_exact false lesser_eq fun _ => rfl, rowFsel64_exact true greater_eq fun _ => rfl, fun _ => rfl, fun _ => rfl,
    List.forall_mem_nil _⟩

/-! ### Packed pairs (R111) -/

theorem elemOf_high (x : W32) : elemOf 16 x.toNat 1 = x.toNat / 2 ^ 16 :=
  Nat.mod_eq_of_lt (by have := x.isLt; omega)

theorem rowPacked_exact {o : R3} {i : R3 → Instr} {fm : Fmt} {f : Nat → Nat → Nat} {nv : FVal → FVal → Bool}
    (g : Nat → Nat → Nat × FFlags) (hw : fm.width = 16) (hg : ∀ x y, g x y = (f x y, nvBit (nv (fm.decode x) (fm.decode y))))
    (hx : ∀ s, exec (i o) s = packed2 o fm g s) : LaneRow.Exact (rowPacked o i fm f nv) := fun s => by
  have h := (hx s).trans (packed2_eq o fm g s)
  simp only [laneHigh, laneLow, hw, hg] at h
  simp only [rowPacked, elemOf_zero, elemOf_high]
  exact h

theorem elemSel_eq {fm : Fmt} {big : Bool} {f : Nat → Nat → Nat} (hf : ∀ x y, f x y = fminmax fm big x y) (x y : Nat) :
    elemSel fm big x y = (f x y, nvBit (anySig (fm.decode x) (fm.decode y))) := by
  rw [hf]; rfl

theorem packedRows_exact (o : R3) : ∀ r ∈ packedRows o, LaneRow.Exact r := by
  simp only [packedRows, List.forall_mem_cons]
  exact ⟨rowPacked_exact _ rfl (elemSel_eq (lesser_eq _)) fun _ => rfl, rowPacked_exact _ rfl (elemSel_eq (greater_eq _)) fun _ => rfl,
    rowPacked_exact (elemRel .f16 relFeq) rfl (fun _ _ => rfl) fun _ => rfl,
    rowPacked_exact (elemRel .f16 relFlt) rfl (fun _ _ => rfl) fun _ => rfl,
    rowPacked_exact _ rfl (elemSel_eq (lesser_eq _)) fun _ => rfl, rowPacked_exact _ rfl (elemSel_eq (greater_eq _)) fun _ => rfl,
    rowPacked_exact (elemRel .bf16 relFeq) rfl (fun _ _ => rfl) fun _ => rfl,
    rowPacked_exact (elemRel .bf16 relFlt) rfl (fun _ _ => rfl) fun _ => rfl,
    List.forall_mem_nil _⟩

/-- Settles O22: table by table; the sums and products by `roundElems_eq`, which joins the elements and their draws. -/
theorem floatResults : Obligations.FloatResults := by
  intro s e o p r hr
  refine LaneRow.Exact.completes ?_ s
  revert r
  simp only [List.forall_mem_append]
  exact ⟨⟨floatRows_exact e, fcmpRows_exact o p⟩, packedRows_exact o⟩

end Sys2Proof.Proofs
end

section
/-! PROOFS. Arithmetic, products, quotients and comparisons (R80 to R83): each instruction is its row. -/

namespace Sys2Proof.Proofs
open Sys2Proof Sys2Proof.Machine

/-! ### Shapes of rows -/

section Shapes
variable {o : R3} {p : R2}

theorem row32_exact {i : R3 → Instr} {f g : W32 → W32 → W32} (hf : ∀ a b, g a b = f a b) (hx : ∀ s, exec (i o) s = alu32 o g s) :
    LaneRow.Exact (row32 o i f) := fun s => by
  obtain rfl : g = f := funext₂ hf
  exact hx s

theorem row64_exact {i : R3 → Instr} {f g : W64 → W64 → W64} (hf : ∀ a b, g a b = f a b) (hx : ∀ s, exec (i o) s = alu64 o g s) :
    LaneRow.Exact (row64 o i f) := fun s => by
  obtain rfl : g = f := funext₂ hf
  exact hx s

/-- A comparison of pairs. -/
theorem row64to32_exact {i : R3 → Instr} {f : W64 → W64 → W32} {g : W64 → W64 → Bool} (hf : ∀ a b, boolWord (g a b) = f a b)
    (hx : ∀ s, exec (i o) s = set64 o g s) : LaneRow.Exact (row64to32 o i f) := fun s => by
  obtain rfl : (fun a b => boolWord (g a b)) = f := funext₂ hf
  exact hx s

theorem rowOld_exact {i : R3 → Instr} {f g : W32 → W32 → W32 → W32} (hf : ∀ a b d, g a b d = f a b d)
    (hx : ∀ s, exec (i o) s = tern32 o g s) : LaneRow.Exact (rowOld o i f) := fun s => by
  obtain rfl : g = f := funext₃ hf
  exact hx s

theorem row1_exact {i : R2 → Instr} {f g : W32 → W32} (hf : ∀ a, g a = f a) (hx : ∀ s, exec (i p) s = un32 p g s) :
    LaneRow.Exact (row1 p i f) := fun s => by
  obtain rfl : g = f := funext hf
  exact hx s

/-- A result that lands later (R79). -/
theorem rowLater_exact {i : R3 → Instr} {f g : W32 → W32 → W32} (hf : ∀ a b, g a b = f a b) (hx : ∀ s, exec (i o) s = div32 o g s) :
    LaneRow.Exact (rowLater o i f) := fun s => by
  obtain rfl : g = f := funext₂ hf
  exact hx s

end Shapes

/-! ### ALU and ALU64 (R80) -/

theorem sub_eq_ofInt {w : Nat} (a b : BitVec w) : a - b = BitVec.ofInt w ((a.toNat : Int) - b.toNat) := by
  rw [Int.sub_eq_add_neg, BitVec.ofInt_add, BitVec.ofInt_neg, BitVec.ofInt_natCast, BitVec.ofInt_natCast, BitVec.ofNat_toNat,
    BitVec.ofNat_toNat, BitVec.setWidth_eq, BitVec.setWidth_eq, BitVec.sub_eq_add_neg]

theorem amt5_eq (b : W32) : amt5 b = b.toNat % 32 := by
  rw [amt5, Laws.Encoding.bitsOf_eq, Nat.pow_zero, Nat.div_one]
  rfl
theorem amt6_eq (b : W64) : amt6 b = b.toNat % 64 := by
  rw [amt6, Laws.Encoding.bitsOf_eq, Nat.pow_zero, Nat.div_one]
  rfl

theorem aluRows_exact (o : R3) : ∀ r ∈ aluRows o, LaneRow.Exact r := by
  simp only [aluRows, List.forall_mem_cons, ← amt5_eq, ← amt6_eq]
  exact ⟨row32_exact BitVec.add_def fun _ => rfl, row32_exact sub_eq_ofInt fun _ => rfl,
    row32_exact (fun _ _ => rfl) fun _ => rfl, row32_exact (fun _ _ => rfl) fun _ => rfl, row32_exact (fun _ _ => rfl) fun _ => rfl,
    row32_exact (fun a b => shiftLeft_eq_ofNat a (amt5 b)) fun _ => rfl,
    row32_exact (fun a b => ushiftRight_eq_ofNat a (amt5 b)) fun _ => rfl,
    row32_exact (fun a b => sshiftRight_eq_ofInt a (amt5 b)) fun _ => rfl,
    row64_exact BitVec.add_def fun _ => rfl, row64_exact sub_eq_ofInt fun _ => rfl,
    row64_exact (fun _ _ => rfl) fun _ => rfl, row64_exact (fun _ _ => rfl) fun _ => rfl, row64_exact (fun _ _ => rfl) fun _ => rfl,
    row64_exact (fun a b => shiftLeft_eq_ofNat a (amt6 b)) fun _ => rfl,
    row64_exact (fun a b => ushiftRight_eq_ofNat a (amt6 b)) fun _ => rfl,
    row64_exact (fun a b => sshiftRight_eq_ofInt a (amt6 b)) fun _ => rfl, List.forall_mem_nil _⟩

/-- Settles O10: row by row. -/
theorem aluResults : Obligations.AluResults :=
  fun s o r hr => (aluRows_exact o r hr).completes s

/-! ### MULDIV (R81, R82) -/

theorem mul_eq_ofNat {w : Nat} (a b : BitVec w) : a * b = BitVec.ofNat w (a.toNat * b.toNat) :=
  BitVec.eq_of_toNat_eq (by rw [BitVec.toNat_mul, BitVec.toNat_ofNat])

theorem highProduct_natCast (p : Nat) : highProduct p = BitVec.ofNat 32 (p / 2 ^ 32) :=
  BitVec.ofInt_natCast 32 (p / 2 ^ 32)

theorem eq_zero_iff_toInt (b : W32) : b = 0#32 ↔ b.toInt = 0 := BitVec.toInt_inj.symm
theorem eq_zero_iff_toNat (b : W32) : b = 0#32 ↔ b.toNat = 0 := BitVec.toNat_inj.symm

/-- The one quotient that is out of range, 2 ^ 31, wraps to the value of R82. -/
theorem divS_eq (a b : W32) : divS a b = if b.toInt = 0 then 0xFFFFFFFF#32 else
    if a.toInt = -(2 ^ 31) ∧ b.toInt = -1 then 0x80000000#32 else BitVec.ofInt 32 (a.toInt.tdiv b.toInt) := by
  simp only [divS, eq_zero_iff_toInt]
  split
  · rfl
  split
  next h => rw [h.1, h.2]; rfl
  · rfl

theorem remS_eq (a b : W32) : remS a b = if b.toInt = 0 then a else
    if a.toInt = -(2 ^ 31) ∧ b.toInt = -1 then 0#32 else BitVec.ofInt 32 (a.toInt - a.toInt.tdiv b.toInt * b.toInt) := by
  simp only [remS, eq_zero_iff_toInt]
  split
  · rfl
  split
  next h => rw [h.1, h.2]; rfl
  · rw [Int.tmod_def, Int.mul_comm]

theorem divU_eq (a b : W32) : divU a b = if b.toNat = 0 then 0xFFFFFFFF#32 else BitVec.ofNat 32 (a.toNat / b.toNat) := by
  simp only [divU, eq_zero_iff_toNat]
  rfl

theorem remU_eq (a b : W32) : remU a b = if b.toNat = 0 then a else BitVec.ofNat 32 (a.toNat % b.toNat) := by
  simp only [remU, eq_zero_iff_toNat]

theorem mulRows_exact (o : R3) : ∀ r ∈ mulRows o, LaneRow.Exact r := by
  simp only [mulRows, List.forall_mem_cons]
  exact ⟨row32_exact mul_eq_ofNat fun _ => rfl, row32_exact (fun _ _ => rfl) fun _ => rfl,
    row32_exact (fun a b => highProduct_natCast (a.toNat * b.toNat)) fun _ => rfl, row64_exact mul_eq_ofNat fun _ => rfl,
    List.forall_mem_nil _⟩

theorem divRows_exact (o : R3) : ∀ r ∈ divRows o, LaneRow.Exact r := by
  simp only [divRows, List.forall_mem_cons]
  exact ⟨rowLater_exact divS_eq fun _ => rfl, rowLater_exact divU_eq fun _ => rfl, rowLater_exact remS_eq fun _ => rfl,
    rowLater_exact remU_eq fun _ => rfl, List.forall_mem_nil _⟩

/-- Settles O11: row by row. -/
theorem multiplyDivideResults : Obligations.MultiplyDivideResults :=
  fun s o r hr => ((List.mem_append.1 hr).elim (mulRows_exact o r) (divRows_exact o r)).completes s

/-! ### CMP and CMP64 (R83) -/

theorem boolWord_decide (p : Prop) [Decidable p] : boolWord (decide p) = oneIf p := by
  simp only [boolWord, oneIf, decide_eq_true_eq]

section Comparisons
variable {w : Nat} (a b : BitVec w)

theorem boolWord_beq : boolWord (a == b) = oneIf (a = b) := by rw [beq_eq_decide, boolWord_decide]
theorem boolWord_bne : boolWord (a != b) = oneIf (a ≠ b) := by rw [bne, beq_eq_decide, ← decide_not, boolWord_decide]
theorem boolWord_slt : boolWord (a.slt b) = oneIf (a.toInt < b.toInt) := boolWord_decide _
theorem boolWord_ult : boolWord (a.ult b) = oneIf (a.toNat < b.toNat) := boolWord_decide _
theorem boolWord_sle : boolWord (a.sle b) = oneIf (a.toInt ≤ b.toInt) := boolWord_decide _
theorem boolWord_ule : boolWord (a.ule b) = oneIf (a.toNat ≤ b.toNat) := boolWord_decide _

/-- The model's minima and maxima ask whether an operand lies strictly beyond the other, and the table of R83 the reverse. -/
theorem ite_slt_eq_ite_le (x y : BitVec w) : (if a.slt b then x else y) = if b.toInt ≤ a.toInt then y else x := by
  simp only [BitVec.slt_eq_decide, decide_eq_true_eq, ← Int.not_le, ite_not]

end Comparisons

theorem cmpRows_exact (o : R3) : ∀ r ∈ cmpRows o, LaneRow.Exact r := by
  simp only [cmpRows, List.forall_mem_cons]
  exact ⟨row32_exact boolWord_beq fun _ => rfl, row32_exact boolWord_bne fun _ => rfl, row32_exact boolWord_slt fun _ => rfl,
    row32_exact boolWord_ult fun _ => rfl, row32_exact boolWord_sle fun _ => rfl, row32_exact boolWord_ule fun _ => rfl,
    row32_exact (fun a b => ite_slt_eq_ite_le b a b a) fun _ => rfl, row32_exact (fun a b => ite_slt_eq_ite_le a b b a) fun _ => rfl,
    row64to32_exact boolWord_beq fun _ => rfl, row64to32_exact boolWord_bne fun _ => rfl, row64to32_exact boolWord_slt fun _ => rfl,
    row64to32_exact boolWord_ult fun _ => rfl, row64to32_exact boolWord_sle fun _ => rfl, row64to32_exact boolWord_ule fun _ => rfl,
    row64_exact (fun a b => ite_slt_eq_ite_le b a b a) fun _ => rfl, row64_exact (fun a b => ite_slt_eq_ite_le a b b a) fun _ => rfl,
    List.forall_mem_nil _⟩

/-- Settles O12: row by row. -/
theorem compareResults : Obligations.CompareResults :=
  fun s o r hr => (cmpRows_exact o r hr).completes s

end Sys2Proof.Proofs
end

section
/-! PROOFS. Bits, selections and ternary elements (R84 to R88): each instruction is its row. -/

namespace Sys2Proof.Proofs
open Sys2Proof Sys2Proof.Machine

/-! ### Counts of bits (R84) -/

theorem popCount_eq (a : W32) : popCount a = (List.range 32).countP fun i => a.getLsbD i :=
  List.countP_eq_length_filter.symm

/-- The numbers below n at which p holds without a gap, counted from 0. -/
theorem length_takeWhile_range {p : Nat → Bool} {k n : Nat} (hk : k ≤ n) (hall : ∀ i < k, p i = true) (hend : k < n → p k = false) :
    ((List.range n).takeWhile p).length = k := by
  obtain ⟨m, rfl⟩ := Nat.exists_eq_add_of_le hk
  rw [List.range_add, List.takeWhile_append_of_pos fun i hi => hall i (List.mem_range.1 hi), List.length_append, List.length_range]
  cases m with
  | zero => rfl
  | succ m =>
    rw [List.range_succ_eq_map, List.map_cons, Nat.add_zero, List.takeWhile_cons_of_neg (by simp [hend]), List.length_nil,
      Nat.add_zero]

theorem leadZeros_eq (a : W32) : leadZeros a = ((List.range 32).takeWhile fun i => !a.getLsbD (31 - i)).length := by
  have high {i : Nat} (hi : a.toNat < 2 ^ i) : a.getLsbD i = false := Nat.testBit_lt_two_pow hi
  rw [leadZeros]
  split
  next h => exact (length_takeWhile_range (Nat.le_refl _) (by simp [h]) (by simp)).symm
  next h =>
    have hne : a.toNat ≠ 0 := fun h0 => h (BitVec.eq_of_toNat_eq h0)
    have hlog : a.toNat.log2 < 32 := (Nat.log2_lt hne).2 a.isLt
    refine (length_takeWhile_range (by omega) (fun i hi => ?_) fun _ => ?_).symm
    · have : a.toNat < 2 ^ (31 - i) := (Nat.log2_lt hne).1 (by omega)
      simp [high this]
    · have : a.getLsbD a.toNat.log2 = true := Nat.testBit_log2 hne
      simp [show 31 - (31 - a.toNat.log2) = a.toNat.log2 by omega, this]

theorem trailZeros_eq (a : W32) : trailZeros a = ((List.range 32).takeWhile fun i => !a.getLsbD i).length := by
  rw [trailZeros]
  cases h : (List.range 32).find? a.getLsbD with
  | none => exact (length_takeWhile_range (Nat.le_refl _) (List.find?_range_eq_none.1 h) (by simp)).symm
  | some k =>
    obtain ⟨hset, hk, hbelow⟩ := List.find?_range_eq_some.1 h
    exact (length_takeWhile_range (Nat.le_of_lt (List.mem_range.1 hk)) hbelow (by simp [hset])).symm

/-! ### Fields (R85) -/

theorem fieldSpan_le (b : W32) : fieldSpan b ≤ 32 := (Nat.min_le_right _ _).trans (Nat.sub_le _ _)

theorem fieldLen_eq (b : W32) : fieldLen b = fieldSpan b := rfl

theorem fieldMask_toNat (b : W32) : (fieldMask b).toNat = 2 ^ fieldSpan b - 1 := by
  have hle : 2 ^ fieldSpan b ≤ 2 ^ 32 := Nat.pow_le_pow_right (by decide) (fieldSpan_le b)
  have hpos := Nat.two_pow_pos (fieldSpan b)
  rw [fieldMask, fieldLen_eq, BitVec.toNat_ofNat, Nat.mod_eq_of_lt (by omega)]

theorem and_fieldMask (x b : W32) : (x &&& fieldMask b).toNat = x.toNat % 2 ^ fieldSpan b := by
  rw [BitVec.toNat_and, fieldMask_toNat, Nat.and_two_pow_sub_one_eq_mod]

/-- The bits above a field are those of -(2 ^ L). -/
theorem not_fieldMask (b : W32) : ~~~fieldMask b = BitVec.ofInt 32 (-(2 ^ fieldSpan b)) := by
  have h : Int.negSucc (2 ^ fieldSpan b - 1) = -(2 ^ fieldSpan b : Nat) := by
    have := Nat.two_pow_pos (fieldSpan b)
    omega
  rw [fieldMask, fieldLen_eq, ← BitVec.ofInt_negSucc_eq_not_ofNat, h, Nat.cast_pow, Nat.cast_ofNat]

theorem or_not_fieldMask (x b : W32) : (x &&& fieldMask b) ||| ~~~fieldMask b =
    BitVec.ofInt 32 ((x &&& fieldMask b).toNat - 2 ^ fieldSpan b) := by
  have apart : x &&& fieldMask b &&& ~~~fieldMask b = 0#32 := by
    rw [BitVec.and_assoc, BitVec.and_not_self]
    exact BitVec.and_zero
  rw [← BitVec.add_eq_or_of_and_eq_zero _ _ apart, not_fieldMask, add_ofInt_eq, Int.sub_eq_add_neg]

theorem testBit_iff_le {x k : Nat} (h : x < 2 ^ (k + 1)) : x.testBit k = true ↔ 2 ^ k ≤ x := by
  refine ⟨fun hb => Nat.le_of_not_lt fun hlt => ?_, fun hle => Nat.testBit_of_two_pow_le_and_two_pow_add_one_gt hle h⟩
  rw [Nat.testBit_lt_two_pow hlt] at hb
  exact Bool.false_ne_true hb

theorem bfx_eq (a b : W32) : bfx a b =
    if b.getLsbD 16 ∧ 0 < fieldSpan b ∧ 2 ^ (fieldSpan b - 1) ≤ bfxField a b then
      BitVec.ofInt 32 ((bfxField a b : Int) - 2 ^ fieldSpan b) else BitVec.ofNat 32 (bfxField a b) := by
  have hfield : ((a >>> bitsOf b 4 0) &&& fieldMask b).toNat = bfxField a b := by
    rw [and_fieldMask, BitVec.toNat_ushiftRight, Nat.shiftRight_eq_div_pow, bfxField]
  have hsign : ((a >>> bitsOf b 4 0) &&& fieldMask b).getLsbD (fieldSpan b - 1) = true ↔ 2 ^ (fieldSpan b - 1) ≤ bfxField a b := by
    have hlt : bfxField a b < 2 ^ (fieldSpan b - 1 + 1) :=
      Nat.lt_of_lt_of_le (Nat.mod_lt _ (Nat.two_pow_pos _)) (Nat.pow_le_pow_right (by decide) (by omega))
    rw [← hfield] at hlt ⊢
    exact testBit_iff_le hlt
  simp only [bfx, Bool.and_eq_true, decide_eq_true_eq, and_assoc]
  simp only [fieldLen_eq, hsign]
  split
  · rw [or_not_fieldMask, hfield]
  · rw [← hfield, BitVec.ofNat_toNat, BitVec.setWidth_eq]

theorem bfi_eq (a b d : W32) : bfi a b d = (d &&& ~~~BitVec.ofNat 32 ((2 ^ fieldSpan b - 1) * 2 ^ bitsOf b 4 0)) |||
    BitVec.ofNat 32 (a.toNat % 2 ^ fieldSpan b * 2 ^ bitsOf b 4 0) := by
  rw [bfi, shiftLeft_eq_ofNat, shiftLeft_eq_ofNat, and_fieldMask, fieldMask_toNat]

/-! ### Words of several bytes -/

/-- A word and the bits above it, as a number. -/
theorem toNat_append_eq_add {v w : Nat} (x : BitVec v) (y : BitVec w) : (x ++ y).toNat = y.toNat + 2 ^ w * x.toNat := by
  rw [BitVec.toNat_append, ← Nat.shiftLeft_add_eq_or_of_lt y.isLt, Nat.shiftLeft_eq, Nat.add_comm, Nat.mul_comm]

theorem join4_eq (x0 x1 x2 x3 : Byte) :
    x3 ++ x2 ++ x1 ++ x0 = BitVec.ofNat 32 (x0.toNat + 2 ^ 8 * x1.toNat + 2 ^ 16 * x2.toNat + 2 ^ 24 * x3.toNat) := by
  apply BitVec.eq_of_toNat_eq
  simp only [toNat_append_eq_add, BitVec.toNat_ofNat]
  omega

theorem join5_eq (x0 x1 x2 x3 x4 : Byte) : 0#24 ++ x4 ++ x3 ++ x2 ++ x1 ++ x0 = BitVec.ofNat 64
    (x0.toNat + 2 ^ 8 * x1.toNat + 2 ^ 16 * x2.toNat + 2 ^ 24 * x3.toNat + 2 ^ 32 * x4.toNat) := by
  apply BitVec.eq_of_toNat_eq
  simp only [toNat_append_eq_add, BitVec.toNat_ofNat]
  omega

/-! ### PRMT (R86) -/

/-- The source byte of a selector byte, of those of a and of the old d. -/
theorem sourceByte_toNat (a d : W32) (k : Nat) :
    ((d ++ a).extractLsb' (8 * k) 8).toNat = (d.toNat * 2 ^ 32 + a.toNat) / 2 ^ (8 * k) % 256 := by
  rw [BitVec.extractLsb'_toNat, Nat.shiftRight_eq_div_pow, toNat_append_eq_add, Nat.add_comm, Nat.mul_comm]

theorem prmtByte_toNat (a b d : W32) (j : Nat) :
    (prmtByte a b d j).toNat = selByte a d (b.extractLsb' (8 * j) 8).toNat := by
  rw [prmtByte, selByte]
  generalize b.extractLsb' (8 * j) 8 = s
  have hplace : bitsOf s 2 0 = s.toNat % 8 := by rw [Laws.Encoding.bitsOf_eq, Nat.pow_zero, Nat.div_one]; rfl
  have hmode : bitsOf s 4 3 = s.toNat / 8 % 4 := Laws.Encoding.bitsOf_eq s 4 3
  have hnot : s.getLsbD 5 = decide (s.toNat / 32 % 2 = 1) := Nat.testBit_eq_decide_div_mod_eq
  have hm : s.toNat / 8 % 4 < 4 := Nat.mod_lt _ (by decide)
  simp only [hplace, hmode, hnot, ← sourceByte_toNat, decide_eq_true_eq]
  generalize (d ++ a).extractLsb' (8 * (s.toNat % 8)) 8 = src
  have hcompl (x : Byte) : (~~~x).toNat = 255 - x.toNat := BitVec.toNat_not
  generalize s.toNat / 8 % 4 = m at hm
  rw [apply_ite BitVec.toNat, hcompl]
  match m, hm with
  | 0, _ => rfl
  | 1, _ => simp
  | 2, _ => rfl
  | 3, _ => rfl

theorem prmt_eq (a b d : W32) : prmt a b d = BitVec.ofNat 32 (selByte a d (bitsOf b 7 0) + 2 ^ 8 * selByte a d (bitsOf b 15 8) +
    2 ^ 16 * selByte a d (bitsOf b 23 16) + 2 ^ 24 * selByte a d (bitsOf b 31 24)) := by
  rw [prmt, join4_eq]
  simp only [prmtByte_toNat]
  rfl

theorem bitRows3_exact (o : R3) : ∀ r ∈ bitRows3 o, LaneRow.Exact r := by
  simp only [bitRows3, List.forall_mem_cons]
  exact ⟨row32_exact bfx_eq fun _ => rfl, rowOld_exact bfi_eq fun _ => rfl, rowOld_exact prmt_eq fun _ => rfl,
    row32_exact (fun _ _ => rfl) fun _ => rfl, List.forall_mem_nil _⟩

theorem bitRows2_exact (o : R2) : ∀ r ∈ bitRows2 o, LaneRow.Exact r := by
  simp only [bitRows2, List.forall_mem_cons, ← popCount_eq, ← leadZeros_eq, ← trailZeros_eq]
  exact ⟨fun _ => rfl, fun _ => rfl, fun _ => rfl, fun _ => rfl, List.forall_mem_nil _⟩

/-! ### MISC (R87) -/

theorem abs_eq (a : W32) : (if a.getLsbD 31 then -a else a) = BitVec.ofNat 32 a.toInt.natAbs := by
  have hlt := a.isLt
  have hmsb : a.getLsbD 31 = decide (2 ^ 31 ≤ a.toNat) := BitVec.msb_eq_decide a
  apply BitVec.eq_of_toNat_eq
  rw [apply_ite BitVec.toNat, BitVec.toNat_neg, BitVec.toNat_ofNat, BitVec.toInt_eq_toNat_cond, hmsb]
  simp only [decide_eq_true_eq]
  split <;> split <;> omega

theorem neg_eq_ofInt (a : W32) : -a = BitVec.ofInt 32 (0 - a.toNat) := by
  rw [← BitVec.zero_sub, sub_eq_ofInt]
  rfl

/-- The low n bits read as a signed number; m is the number of their values. -/
theorem signExtend_setWidth (a : W32) {n m : Nat} (hm : 2 ^ n = 2 * m) : (a.setWidth n).signExtend 32 =
    BitVec.ofInt 32 (if a.toNat % (2 * m) < m then (a.toNat % (2 * m) : Nat) else (a.toNat % (2 * m) : Nat) - (2 * m : Nat)) := by
  rw [BitVec.signExtend, BitVec.toInt_eq_toNat_cond, BitVec.toNat_setWidth, hm]
  simp only [Nat.mul_lt_mul_left Nat.two_pos]

theorem setWidth_setWidth_eq_ofNat (a : W32) (n : Nat) : (a.setWidth n).setWidth 32 = BitVec.ofNat 32 (a.toNat % 2 ^ n) := by
  rw [← BitVec.toNat_setWidth, BitVec.ofNat_toNat]

theorem miscRows3_exact (o : R3) : ∀ r ∈ miscRows3 o, LaneRow.Exact r :=
  List.forall_mem_singleton.2 (rowOld_exact (fun _ _ _ => rfl) fun _ => rfl)

theorem miscRows2_exact (o : R2) : ∀ r ∈ miscRows2 o, LaneRow.Exact r := by
  simp only [miscRows2, List.forall_mem_cons]
  exact ⟨row1_exact abs_eq fun _ => rfl, row1_exact neg_eq_ofInt fun _ => rfl,
    row1_exact (fun a => signExtend_setWidth a (n := 8) (m := 128) rfl) fun _ => rfl,
    row1_exact (fun a => signExtend_setWidth a (n := 16) (m := 32768) rfl) fun _ => rfl,
    row1_exact (fun a => setWidth_setWidth_eq_ofNat a 8) fun _ => rfl, row1_exact (fun a => setWidth_setWidth_eq_ofNat a 16) fun _ => rfl,
    List.forall_mem_nil _⟩

/-! ### UNPT (R88) -/

theorem trit_toNat (t j : Nat) : (trit t j).toNat = tritByte t j := by
  rw [trit, tritByte]
  split
  · have h : t / 3 ^ j % 3 < 3 := Nat.mod_lt _ (by decide)
    generalize t / 3 ^ j % 3 = x at h
    match x, h with
    | 0, _ | 1, _ | 2, _ => rfl
  · rfl

theorem unpackTrits_eq (a : W32) : unpackTrits a = BitVec.ofNat 64 (tritByte (a.toNat % 256) 0 + 2 ^ 8 * tritByte (a.toNat % 256) 1 +
    2 ^ 16 * tritByte (a.toNat % 256) 2 + 2 ^ 24 * tritByte (a.toNat % 256) 3 + 2 ^ 32 * tritByte (a.toNat % 256) 4) := by
  simp only [← trit_toNat]
  exact join5_eq ..

theorem unptRow_exact (o : R2) : LaneRow.Exact (unptRow o) := by
  simp only [unptRow, ← unpackTrits_eq]
  exact fun _ => rfl

/-- Settles O13: table by table. -/
theorem bitSelectAndTernaryResults : Obligations.BitSelectAndTernaryResults := by
  intro s o p r hr
  refine LaneRow.Exact.completes ?_ s
  revert r
  simp only [List.forall_mem_append, List.forall_mem_singleton]
  exact ⟨⟨⟨⟨bitRows3_exact o, bitRows2_exact p⟩, miscRows3_exact o⟩, miscRows2_exact p⟩, unptRow_exact p⟩

end Sys2Proof.Proofs
end

section
/-! PROOFS. What the transfers of control leave unchanged (R93 to R96), and the loop-end event of an instruction that completes at
the end of a body (R99). -/

namespace Sys2Proof.Proofs
open Sys2Proof Sys2Proof.Machine

/-! ### What the transfers of control leave unchanged -/

section Frame
variable {ds : List Dst} {fl : W32} {g : Thread → Thread} {v : View}

theorem Keeps.jumpTo (a : Thread → W64) : Keeps ds fl g v (v.onTh fun t => t.jumpTo (a t)) :=
  .ofBare rfl (bare_jumpTo v.th _)

theorem rowBranch_keeps (i : Instr) (o : B1) (sfe : Bool) (off : Int) (len : W64) (c : Int → Bool) :
    Keeps ds fl g v ((rowBranch i o sfe off len c).eff v) := by
  simp only [rowBranch]
  split
  · exact .jumpTo _
  · exact .done len

theorem rowJump_keeps (i : Instr) (off : Int) : Keeps ds fl g v ((rowJump i off none).eff v) := .jumpTo _

/-- A jump that keeps an address in %ra leaves the rest of the thread but %ra. -/
theorem rowJump_keeps_link (i : Instr) (off : Int) (len : W64) :
    Keeps ds fl (fun t => { t with ra := 0#64 }) v ((rowJump i off (some len)).eff v) :=
  have h : Thread.rest (fun t => { t with ra := 0#64 }) (v.th.jumpTo (targetOf v.th.pc off)) = Thread.rest _ v.th :=
    rest_of_bare (bare_jumpTo v.th _)
  .onTh rfl rfl h

theorem branchRows_frame (o : B1) (r : LaneRow) (hr : r ∈ branchRows o) : r.frame fl g := by
  refine frame_of_keeps (branchRows_exact o r hr) fun v => ?_
  revert r
  simp [branchRows, rowBranch_keeps]

theorem branchXRows_frame (x : BitVec 26) (o : B1) (r : LaneRow) (hr : r ∈ branchXRows x o) : r.frame fl g := by
  refine frame_of_keeps (branchXRows_exact x o r hr) fun v => ?_
  revert r
  simp [branchXRows, rowBranch_keeps]

/-- BRA and JMP. -/
theorem jumpRows_frame (x : BitVec 26) (b : O15) (j : O26) (r : LaneRow) (hr : r ∈ (jumpRows x b j).take 4) : r.frame fl g := by
  refine frame_of_keeps (jumpRows_exact x b j r (List.mem_of_mem_take hr)) fun v => ?_
  revert r
  simp [jumpRows, rowJump_keeps]

/-- CALL. -/
theorem callRows_frame (x : BitVec 26) (b : O15) (j : O26) (r : LaneRow) (hr : r ∈ (jumpRows x b j).drop 4) :
    r.frame fl fun t => { t with ra := 0#64 } := by
  refine frame_of_keeps (jumpRows_exact x b j r (List.mem_of_mem_drop hr)) fun v => ?_
  revert r
  simp [jumpRows, rowJump_keeps_link]

/-- JR, JALR and RET: JALR writes its pair. -/
theorem regJumpRows_frame (a : RA) (o : R2) (r : LaneRow) (hr : r ∈ regJumpRows a o) : r.frame fl g := by
  refine frame_of_keeps (regJumpRows_exact a o r hr) fun v => ?_
  revert r
  simp only [regJumpRows, List.forall_mem_cons]
  refine ⟨.jumpTo _, ?_, .jumpTo _, List.forall_mem_nil _⟩
  obtain ⟨h0, h1⟩ := mem_writes_pair (o := { srcs := [.p o.a o.f], dsts := [⟨o.d, 2⟩] }) (d := o.d) rfl v
  exact (Keeps.wr64 h0 h1 _).trans (.jumpTo _)

end Frame

/-- Settles O17: table by table. -/
theorem controlFrame : Obligations.ControlFrame := by
  intro x o b j a p
  simp only [List.forall_mem_append]
  exact ⟨⟨⟨⟨branchRows_frame o, branchXRows_frame x o⟩, jumpRows_frame x b j⟩, regJumpRows_frame a p⟩, callRows_frame x b j⟩

/-! ### The loop-end event (R99) -/

/-- A thread that has completed an instruction, before the loop-end event that may follow. -/
def passed (t : Thread) (len : W64) : Thread := { t.clearWskip with pc := t.pc + len }

theorem passed_level (t : Thread) (len : W64) (n : Nat) : (passed t len).level n = t.level n := by
  match n with
  | 0 | 1 | _ + 2 => rfl

theorem complete_eq {t : Thread} {n : Nat} (hn : t.loopDepth = n + 1) (len : W64) :
    t.complete len = if t.pc + len - 4#64 = (t.level n).stop then (passed t len).loopEnd n else passed t len := by
  rw [Thread.complete]
  simp only [hn, Nat.add_sub_cancel, Nat.succ_pos, gt_iff_lt, decide_true, Bool.true_and, beq_iff_eq]
  exact if_congr eq_comm rfl rfl

/-- Settles O21: completion reaches the loop-end event of the innermost level at the end of its body alone, and the event is that of
`loopEnd_ends`. -/
theorem loopEndEvent : Obligations.LoopEndEvent := by
  intro t len n hn
  have hn2 : n ≤ 2 := by have := loopDepth_le t; omega
  rw [complete_eq hn]
  refine ⟨fun h => if_neg h, fun h => ?_, fun _ => ⟨rfl, rfl, rfl⟩⟩
  rw [if_pos h]
  exact loopEnds_congr (fun j => (passed_level t len j).symm) (loopEnd_ends n (passed t len) hn2)

end Sys2Proof.Proofs
end

section
/-! PROOFS. The special functions, the table activations and the random instructions (R117, R120 to R127): each instruction is its
row. -/

namespace Sys2Proof.Proofs
open Sys2Proof Sys2Proof.Machine

/-! ### Special functions and table activations (R117, R120, R121) -/

theorem sfuRows_exact (o : R2) : ∀ r ∈ sfuRows o, LaneRow.Exact r := by
  simp only [sfuRows, List.forall_mem_cons]
  exact ⟨sfuOp_eq o rcpVal, sfuOp_eq o rsqVal, sfuOp_eq o sqrtVal, sfuOp_eq o ex2Val, sfuOp_eq o lg2Val, sfuOp_eq o sinVal,
    sfuOp_eq o cosVal, sfuOp_eq o tanhVal, List.forall_mem_nil _⟩

/-- The row of ACT holds the entries of the tables at its issue, so it is the instruction's in that state alone (R121). -/
theorem actRow_completes {o : RT} {s : State} {i : RT → Instr} {lin : Bool} (hx : exec (i o) s = actOp lin o s) :
    (actRow o s i lin).completes s := fun hr =>
  (hx.trans (actOp_eq lin o s)).trans (congrArg Host.Outcome.next (State.lanes_ready hr _))

theorem actRows_complete (o : RT) (s : State) : ∀ r ∈ actRows o s, r.completes s := by
  rw [actRows_eq]
  simp only [List.forall_mem_cons]
  exact ⟨actRow_completes rfl, actRow_completes rfl, List.forall_mem_nil _⟩

/-! ### Draws of the data stream (R123) -/

theorem drawData_eq (t : Thread) : t.drawData = (dataDraw t 0, t.drew 1) := by
  rw [dataDraw, BitVec.add_zero]
  rfl

theorem through_drawData (v : View) : v.through Thread.drawData = (dataDraw v.th 0, v.onTh fun t => t.drew 1) := by
  rw [View.through, drawData_eq]
  rfl

theorem drew_drew (t : Thread) (j k : Nat) : (t.drew j).drew k = t.drew (j + k) := by
  simp [Thread.drew, BitVec.ofNat_add, BitVec.add_assoc]

/-- The word of a draw depends on the counter's value, and not on the draws before it. -/
theorem dataDraw_drew (t : Thread) (j k : Nat) : dataDraw (t.drew j) k = dataDraw t (j + k) := by
  rw [dataDraw, dataDraw, BitVec.ofNat_add, ← BitVec.add_assoc]
  rfl

/-! ### Random instructions (R125 to R127) -/

/-- The high half of a product, by which RSEL scales its draw. -/
theorem hi32_mulWide (a b : W32) : hi32 (mulWide a b) = BitVec.ofNat 32 (a.toNat * b.toNat / 2 ^ 32) := by
  have bound : a.toNat * b.toNat < 2 ^ 32 * 2 ^ 32 := Nat.mul_lt_mul'' a.isLt b.isLt
  have product : (mulWide a b).toNat = a.toNat * b.toNat := by
    rw [mulWide, BitVec.toNat_mul, BitVec.toNat_setWidth_of_le (by decide), BitVec.toNat_setWidth_of_le (by decide),
      Nat.mod_eq_of_lt (Nat.lt_of_lt_of_eq bound (Nat.pow_add 2 32 32).symm)]
  rw [hi32, BitVec.extractLsb', product, Nat.shiftRight_eq_div_pow]

/-- An instruction that takes one draw and writes `F` of it later. -/
theorem exact_of_drawData {i : Instr} {o : Opnds} {d : Fld} (F : View → W32 → W32)
    (hx : ∀ s, exec i s = .next (s.lanes o noCheck fun v =>
      ((v.through Thread.drawData).2.later32 d (F v (v.through Thread.drawData).1)).done 4#64)) :
    LaneRow.Exact ⟨i, o, fun v => ((v.onTh fun t => t.drew 1).landsQuiet d (F v (dataDraw v.th 0))).done 4#64, noCheck⟩ := fun s => by
  have h := hx s
  simp only [through_drawData] at h
  exact h

theorem randn_exact (d : RD) : LaneRow.Exact ⟨.randn d, { dsts := [⟨d.d, 1⟩] }, fun v =>
    ((v.onTh fun t => t.drew 2).landsQuiet d.d (normalFrom (dataDraw v.th 0) (dataDraw v.th 1))).done 4#64, noCheck⟩ := fun s => by
  change execRandn d s = _
  simp only [execRandn, through_drawData, View.onTh, drew_drew, dataDraw_drew]
  rfl

theorem rngRows_exact (d : RD) (ab : RAB) (o : R2) (p : R3) : ∀ r ∈ rngRows d ab o p, LaneRow.Exact r := by
  simp only [rngRows, List.forall_mem_cons, ← hi32_mulWide]
  exact ⟨exact_of_drawData (fun _ w => w) fun _ => rfl,
    exact_of_drawData (fun _ w => enc32 (roundTo .f32 .rn 0 (unitOpen w)).1) fun _ => rfl, randn_exact d, fun _ => rfl,
    exact_of_drawData (fun v w => hi32 (mulWide w (v.rd32 o.a))) fun _ => rfl, fun _ => rfl, fun _ => rfl, fun _ => rfl,
    List.forall_mem_nil _⟩

/-- Settles O23: the draws of an instruction by `through_drawData`, and ACT in the state whose tables its row holds. -/
theorem functionTableDrawResults : Obligations.FunctionTableDrawResults := by
  intro s o t d ab p
  simp only [List.forall_mem_append]
  exact ⟨⟨fun r hr => (sfuRows_exact o r hr).completes s, actRows_complete t s⟩,
    fun r hr => (rngRows_exact d ab o p r hr).completes s⟩

end Sys2Proof.Proofs
end

section
/-! PROOFS. The special cases of the special functions (R118). -/

namespace Sys2Proof.Proofs
open Sys2Proof Sys2Proof.Machine

/-! ### Operands by their bits (R53) -/

/-- The value of an FP32 encoding, by its exponent field. -/
theorem decode_f32 (x : Nat) : Fmt.f32.decode x =
    if x / 2 ^ 23 % 2 ^ 8 = 255 then (if x % 2 ^ 23 = 0 then .inf (x.testBit 31) else .nan (!(x % 2 ^ 23).testBit 22))
    else if x / 2 ^ 23 % 2 ^ 8 = 0 then (if x % 2 ^ 23 = 0 then .zero (x.testBit 31) else .fin (x.testBit 31) (x % 2 ^ 23) (-149))
    else .fin (x.testBit 31) (2 ^ 23 + x % 2 ^ 23) ((x / 2 ^ 23 % 2 ^ 8 : Nat) - 127 - 23) := by
  by_cases top : x / 8388608 % 256 = 255 <;> simp [Fmt.decode, Fmt.f32, Fmt.bias, top] <;> rfl

/-- The encodings of FP32 NaNs. -/
def IsNan32 (x : W32) : Prop := x.toNat / 2 ^ 23 % 2 ^ 8 = 255 ∧ x.toNat % 2 ^ 23 ≠ 0

theorem decode_f32_of_isNan {x : W32} (hx : IsNan32 x) : Fmt.f32.decode x.toNat = .nan (!x.getLsbD 22) := by
  obtain ⟨top, fraction⟩ := hx
  rw [decode_f32, if_pos top, if_neg fraction, Nat.testBit_mod_two_pow]
  rfl

theorem decode_f32_of_negative {x : W32} (hs : x.getLsbD 31 = true) (hm : x.toNat % 2 ^ 31 ≠ 0) (hn : ¬IsNan32 x) :
    Fmt.f32.decode x.toNat = .inf true ∨ ∃ m e, Fmt.f32.decode x.toNat = .fin true m e := by
  rw [decode_f32, show x.toNat.testBit 31 = true from hs]
  by_cases top : x.toNat / 2 ^ 23 % 2 ^ 8 = 255
  · rw [if_pos top, if_pos (not_not.mp fun fraction => hn ⟨top, fraction⟩)]
    exact .inl rfl
  · rw [if_neg top]
    by_cases low : x.toNat / 2 ^ 23 % 2 ^ 8 = 0
    · rw [if_pos low, if_neg (by omega)]
      exact .inr ⟨_, _, rfl⟩
    · rw [if_neg low]
      exact .inr ⟨_, _, rfl⟩

/-! ### Results that are NaNs -/

theorem sfu32_of_nan {f : FVal → FVal × FFlags} {x : W32} {u : FVal} {b : Bool} {fl : FFlags} (hx : Fmt.f32.decode x.toNat = u)
    (hf : f u = (.nan b, fl)) : sfu32 f x = (0x7FC00000#32, fl) := by
  rw [sfu32, hx, hf]
  exact congrArg (Prod.mk _) BitVec.or_zero

/-- Every special function keeps a NaN, with NV for a signalling one. -/
theorem sfu_keeps_nan (b : Bool) : ∀ f ∈ [rcpVal, rsqVal, sqrtVal, ex2Val, lg2Val, sinVal, cosVal, tanhVal],
    f (.nan b) = (.nan b, nvIf b) := by
  simp only [List.forall_mem_cons]
  exact ⟨rfl, rfl, rfl, rfl, rfl, rfl, rfl, rfl, List.forall_mem_nil _⟩

theorem sfu32_of_isNan {f : FVal → FVal × FFlags} (hf : ∀ b, f (.nan b) = (.nan b, nvIf b)) {x : W32} (hx : IsNan32 x) :
    sfu32 f x = (0x7FC00000#32, if x.getLsbD 22 then 0#6 else 16#6) := by
  rw [sfu32_of_nan (decode_f32_of_isNan hx) (hf _)]
  cases x.getLsbD 22 <;> rfl

/-- The roots and the logarithm have no value at a negative operand. -/
theorem sfu_negative : ∀ f ∈ [rsqVal, sqrtVal, lg2Val],
    f (.inf true) = (.nan false, FFlags.nv) ∧ ∀ m e, f (.fin true m e) = (.nan false, FFlags.nv) := by
  simp only [List.forall_mem_cons]
  exact ⟨⟨rfl, fun _ _ => rfl⟩, ⟨rfl, fun _ _ => rfl⟩, ⟨rfl, fun _ _ => rfl⟩, List.forall_mem_nil _⟩

theorem sfu32_of_negative {f : FVal → FVal × FFlags} (atInf : f (.inf true) = (.nan false, FFlags.nv))
    (atFin : ∀ m e, f (.fin true m e) = (.nan false, FFlags.nv)) {x : W32} (hs : x.getLsbD 31 = true) (hm : x.toNat % 2 ^ 31 ≠ 0)
    (hn : ¬IsNan32 x) : sfu32 f x = (0x7FC00000#32, 16#6) := by
  obtain hx | ⟨m, e, hx⟩ := decode_f32_of_negative hs hm hn
  · exact sfu32_of_nan hx atInf
  · exact sfu32_of_nan hx (atFin m e)

/-- Settles O25: NaNs and negative operands by what they decode to; the other cases are single operands, at which the functions are
evaluated. -/
theorem specialFunctionCases : Obligations.SpecialFunctionCases := by
  refine ⟨fun f hf x hx => ?nan, fun f hf x hs hm hn => ?negative, by decide⟩
  case nan => exact sfu32_of_isNan (fun b => sfu_keeps_nan b f hf) hx
  case negative =>
    obtain ⟨atInf, atFin⟩ := sfu_negative f hf
    exact sfu32_of_negative atInf atFin hs hm hn

end Sys2Proof.Proofs
end

section
/-! PROOFS. Runs of which every lane fails a check alike, and runs of which some lanes pass (R137, R234, R351, R366, R419). -/

namespace Sys2Proof.Proofs
open Sys2Proof Sys2Proof.Machine

/-! ### Which lanes take a trap -/

/-- What the lanes `l` note of the traps `f` that they take. -/
def takers (l : List View) (f : View → Trap) : List (W32 × Trap) := l.map fun v => (v.th.ident.tid, f v)

/-- The failed checks of the lanes `l`, as the split of a run meets them. -/
def failures (l : List View) (f : View → Trap) : List (Thread × Trap) := l.map fun v => (v.th, f v)

theorem filter_failures (p : Trap → Bool) (l : List View) (f : View → Trap) :
    ((failures l f).filter fun x => p x.2) = failures (l.filter fun v => p (f v)) f := by
  simp only [failures, List.filter_map, Function.comp_def]

theorem tids_takers (l : List View) (f : View → Trap) : (takers l f).map (·.1) = l.map fun v => v.th.ident.tid := by
  simp only [takers, List.map_map, Function.comp_def]

theorem foldl_min_least {α : Type} (k : α → Nat) {m : Nat} {l : List α} {n : Nat} (hn : m ≤ n) (hle : ∀ x ∈ l, m ≤ k x)
    (hex : n = m ∨ ∃ x ∈ l, k x = m) : l.foldl (fun a x => min a (k x)) n = m := by
  induction l generalizing n with
  | nil => simpa using hex
  | cons a l ih =>
    obtain ⟨ha, hl⟩ := List.forall_mem_cons.1 hle
    refine ih (n := min n (k a)) (by omega) hl ?_
    rcases hex with hnm | ⟨x, hx, hxm⟩
    · exact .inl (by omega)
    · rcases List.mem_cons.1 hx with rfl | hx
      · exact .inl (by omega)
      · exact .inr ⟨x, hx, hxm⟩

section Lanes
variable {l : List View} {f : View → Trap} {m c : Nat}

/-- The lanes that failed the earliest check take their trap together, where they have one cause (R419). -/
theorem takeTrap_first (hle : ∀ v ∈ l, m ≤ (f v).stage) (hc : ∀ v ∈ l, (f v).stage = m → (f v).cause = c)
    (hex : ∃ v ∈ l, (f v).stage = m) (hm : m ≤ 1000) :
    Machine.takeTrap (failures l f) = takers (l.filter fun v => (f v).stage == m) f := by
  have hmin : minStage (failures l f) = m := by
    refine foldl_min_least _ hm ?_ (.inr ?_)
    · simpa [failures] using hle
    · simpa [failures] using hex
  obtain ⟨w, hw, hwm⟩ := hex
  have hfind : ∃ v ∈ l, (f v).stage = m ∧ (failures l f).find? (fun x => x.2.stage == m) = some (v.th, f v) := by
    cases hf : l.find? fun v => (f v).stage == m with
    | none => exact absurd hwm (by simpa using List.find?_eq_none.1 hf w hw)
    | some v =>
      exact ⟨v, List.mem_of_find?_eq_some hf, by simpa using List.find?_some hf, by
        simp only [failures, List.find?_map, Function.comp_def, hf, Option.map_some]⟩
  obtain ⟨v, hv, hvm, hfind⟩ := hfind
  have htaken : ∀ u ∈ l, ((f u).stage == m && (f u).cause == (f v).cause) = ((f u).stage == m) := by
    intro u hu
    by_cases hum : (f u).stage = m
    · simp [hum, hc u hu hum, hc v hv hvm]
    · simp [hum]
  simp only [Machine.takeTrap, hmin, hfind]
  rw [filter_failures fun x => x.stage == m && x.cause == (f v).cause, List.filter_congr htaken, failures, takers, List.map_map]
  rfl

/-- Failures of one cause, after which the other lanes move on, are one trap. -/
theorem softTraps_single (hne : l ≠ []) (hc : ∀ v ∈ l, (f v).cause = c) : softTraps (failures l f) = [takers l f] := by
  obtain ⟨v, r, rfl⟩ := List.exists_cons_of_ne_nil hne
  have hcauses : ((failures (v :: r) f).map (·.2.cause)).eraseDups = [c] := by
    obtain ⟨hv, hr⟩ := List.forall_mem_cons.1 hc
    have hrest : (((failures r f).map (·.2.cause)).filter fun b => !b == c) = [] := by
      simpa [failures] using hr
    simp only [failures, List.map_cons, hv, List.eraseDups_cons]
    rw [← failures, hrest]
    rfl
  have hall : ((failures (v :: r) f).filter fun x => x.2.cause == c) = failures (v :: r) f := by
    simpa [List.filter_eq_self, failures] using hc
  rw [softTraps, hcauses, List.map_singleton, hall, failures, List.map_map]
  rfl

/-- The traps of the source reads are those of each of their checks, grouped by cause. -/
theorem readTraps_eq (l : List (Thread × Trap)) : readTraps l =
    ([stageEmpty, stageUninit, stageMark].flatMap fun m => softTraps (l.filter fun x => x.2.stage == m)).filter (!·.isEmpty) := rfl

/-- Lanes that fail one check of the source reads with one cause take one trap. -/
theorem readTraps_single (hne : l ≠ []) (hm : m ∈ [stageEmpty, stageUninit, stageMark])
    (h : ∀ v ∈ l, (f v).stage = m ∧ (f v).cause = c) : readTraps (failures l f) = [takers l f] := by
  have hfilled : (takers l f).isEmpty = false := by simpa [takers] using hne
  have hgroup : ∀ n, (softTraps ((failures l f).filter fun x => x.2.stage == n)).filter (!·.isEmpty) =
      if n = m then [takers l f] else [] := by
    intro n
    rw [filter_failures fun x => x.stage == n]
    split
    · next hn =>
      have hall : (l.filter fun v => (f v).stage == n) = l := List.filter_eq_self.2 fun v hv => by simp [h v hv, hn]
      rw [hall, softTraps_single hne fun v hv => (h v hv).2]
      simp [hfilled]
    · next hn =>
      have hnone : (l.filter fun v => (f v).stage == n) = [] :=
        List.filter_eq_nil_iff.2 fun v hv => by simpa [h v hv] using Ne.symm hn
      rw [hnone]
      rfl
  rw [readTraps_eq, List.filter_flatMap]
  simp only [hgroup]
  simp only [List.mem_cons, List.not_mem_nil, or_false] at hm
  rcases hm with rfl | rfl | rfl <;> rfl

end Lanes

/-! ### How a run splits -/

/-- No lane waits, no check of the decoding fails, and after what fails of the card's checks the other lanes move on: so they do. -/
theorem splitLanes_soft {l : List (Thread × Verdict)} (hw : waitsOf l = []) (hstage : ∀ x ∈ trapsOf l, stageEmpty ≤ x.2.stage)
    (hsoft : ∀ x ∈ trapsOf l, stageCard ≤ x.2.stage → x.2.soft = true) :
    splitLanes l =
      { go := oksOf l,
        traps := readTraps ((trapsOf l).filter fun x => x.2.stage < stageCard) ++
          softTraps ((trapsOf l).filter fun x => x.2.stage ≥ stageCard) } := by
  have hearly : ¬ ((trapsOf l).any fun x => x.2.stage < stageEmpty) = true := by
    simpa using hstage
  have hall : (((trapsOf l).filter fun x => x.2.stage ≥ stageCard).all fun x => x.2.soft) = true := by
    simp only [List.all_eq_true, List.mem_filter, decide_eq_true_eq]
    exact fun x hx => hsoft x hx.1 hx.2
  rw [splitLanes]
  simp only [hw]
  rw [if_neg hearly, if_pos hall]
  rfl

/-- No lane waits, and only checks of the card fail, one of them after which no lane moves on: the lanes of the earliest trap, and all
others are held (R351). -/
theorem splitLanes_hard {l : List (Thread × Verdict)} (hw : waitsOf l = []) (hstage : ∀ x ∈ trapsOf l, stageCard ≤ x.2.stage)
    (hhard : ∃ x ∈ trapsOf l, x.2.soft = false) :
    splitLanes l =
      let late := takeTrap (trapsOf l)
      { hold := oksOf l ++ (((trapsOf l).map fun x => x.1.ident.tid).filter fun x => !(late.map (·.1)).contains x),
        behind := late.map (·.1), traps := [late] } := by
  have hearly : ¬ ((trapsOf l).any fun x => x.2.stage < stageEmpty) = true := by
    simpa using fun t x hx => Nat.le_trans (by decide) (hstage (t, x) hx)
  have hreads : ((trapsOf l).filter fun x => x.2.stage < stageCard) = [] := by
    simpa [List.filter_eq_nil_iff] using hstage
  have hcards : ((trapsOf l).filter fun x => x.2.stage ≥ stageCard) = trapsOf l := by
    simpa [List.filter_eq_self] using hstage
  have hall : ¬ ((trapsOf l).all fun x => x.2.soft) = true := by
    simpa using hhard
  rw [splitLanes]
  simp only [hw, hreads, hcards]
  rw [if_neg hearly, if_neg hall]
  simp only [List.filter_nil, List.map_nil, List.append_nil]
  rfl

section Run
variable {s : State} {k : View → Verdict} {f : View → Trap} {ok : View → Bool} {m c : Nat}

/-- At a collective instruction whose every lane fails one check alike, the run takes the trap, and notes its lanes (R137). -/
theorem splitAll_allTrap (hne : s.run ≠ []) (h : ∀ v ∈ s.run, k v = .trap (f v)) (hm : m ≤ 1000)
    (hf : ∀ v ∈ s.run, (f v).stage = m ∧ (f v).cause = c) :
    splitAll (s.verdicts k) = { behind := s.tids, traps := [takers s.run f], rejoin := true } := by
  have htake : Machine.takeTrap (s.run.map fun v => (v.th, f v)) = takers s.run f := takeTrap_agree hne hm hf
  have hsome : (s.run.map fun v => (v.th, f v)).isEmpty = false := by simpa using hne
  have hothers : othersThan (s.verdicts k) (takers s.run f) = [] := othersThan_lanesWith
  simp only [splitAll, trapsOf_verdicts h, waitsOf_verdicts h]
  by_cases hcard : m < stageCard
  · have hearly : ((s.run.map fun v => (v.th, f v)).filter fun x => decide (x.2.stage < stageCard)) = s.run.map fun v => (v.th, f v) := by
      rw [List.filter_eq_self]
      simpa using fun v hv => (hf v hv).1 ▸ hcard
    rw [hearly, hsome, htake, hothers, tids_takers]
    rfl
  · rw [(filter_card (Nat.not_lt.1 hcard) fun v hv => (hf v hv).1).1, hsome, htake, hothers, tids_takers]
    rfl

/-- A run that traps as a whole at a collective instruction, its lanes noted. -/
theorem applySplit_noted (o : Opnds) (act : List W32 → State → State) :
    s.applySplit o { behind := s.tids, traps := [takers s.run f], rejoin := true } act =
      s.noted.takeTrap s.issue.core (takers s.run f) s.mkRegs := rfl

variable (h : ∀ v ∈ s.run, k v = if ok v then .ok else .trap (f v))
include h

theorem trapsOf_mixed : trapsOf (s.verdicts k) = failures (s.run.filter fun v => !ok v) f := by
  rw [State.verdicts, trapsOf, List.filterMap_map, failures, ← List.filterMap_eq_map, List.filterMap_filter]
  refine List.filterMap_congr fun v hv => ?_
  cases hok : ok v <;> simp [h v hv, hok]

theorem oksOf_mixed : oksOf (s.verdicts k) = (s.run.filter ok).map fun v => v.th.ident.tid := by
  rw [State.verdicts, oksOf, List.filterMap_map, ← List.filterMap_eq_map, List.filterMap_filter]
  refine List.filterMap_congr fun v hv => ?_
  cases hok : ok v <;> simp [h v hv, hok]

theorem waitsOf_mixed : waitsOf (s.verdicts k) = [] := by
  rw [State.verdicts, waitsOf, List.filterMap_map, List.filterMap_eq_nil_iff]
  intro v hv
  cases hok : ok v <;> simp [h v hv, hok]

end Run

/-! ### A run that fails a check as a whole -/

theorem readStage_between : ∀ m ∈ [stageEmpty, stageUninit, stageMark], stageEmpty ≤ m ∧ m < stageCard := by decide

theorem readStage_of_lt {m : Nat} (hlo : stageEmpty ≤ m) (hhi : m < 13) : m ∈ [stageEmpty, stageUninit, stageMark] := by
  simp only [stageEmpty, stageUninit, stageMark, List.mem_cons, List.not_mem_nil, or_false] at *
  omega

/-- Failed checks of the card alone, and of the source reads alone. -/
theorem failures_card {l : List View} {f : View → Trap} (h : ∀ v ∈ l, stageCard ≤ (f v).stage) :
    ((failures l f).filter fun x => x.2.stage < stageCard) = [] ∧ ((failures l f).filter fun x => x.2.stage ≥ stageCard) = failures l f := by
  simpa [failures, List.filter_eq_nil_iff, List.filter_eq_self] using h

theorem failures_read {l : List View} {f : View → Trap} (h : ∀ v ∈ l, (f v).stage < stageCard) :
    ((failures l f).filter fun x => x.2.stage < stageCard) = failures l f ∧ ((failures l f).filter fun x => x.2.stage ≥ stageCard) = [] := by
  simpa [failures, List.filter_eq_nil_iff, List.filter_eq_self] using h

section Whole
variable {s : State} {k : LaneForm} {f : View → Trap} {m c : Nat}

/-- A run whose lanes all fail a check of the source reads, or one after which other lanes would move on, takes one trap. -/
theorem eachLane_one_group (h : ∀ v ∈ s.run, k.verdict v = .trap (f v)) (hstage : ∀ v ∈ s.run, stageEmpty ≤ (f v).stage)
    (hsoft : ∀ v ∈ s.run, stageCard ≤ (f v).stage → (f v).soft = true)
    (hgroup : readTraps ((failures s.run f).filter fun x => x.2.stage < stageCard) ++
      softTraps ((failures s.run f).filter fun x => x.2.stage ≥ stageCard) = [takers s.run f]) :
    s.eachLane k = s.trapped f := by
  have htraps : trapsOf (s.verdicts k.verdict) = failures s.run f := trapsOf_verdicts h
  rw [State.eachLane, splitLanes_soft (waitsOf_verdicts h) (by simpa [htraps, failures] using hstage)
    (by simpa [htraps, failures] using hsoft), oksOf_verdicts h, htraps, hgroup]
  exact applySplit_trap _ _ []

/-- Whichever check it is that every lane of a run fails with one cause, the run takes the trap (R351, R419). -/
theorem eachLane_whole (hne : s.run ≠ []) (h : ∀ v ∈ s.run, k.verdict v = .trap (f v))
    (hf : ∀ v ∈ s.run, (f v).stage = m ∧ (f v).cause = c) (hm : m < 13 ∨ stageCard ≤ m) (hle : m ≤ 1000) :
    s.eachLane k = s.trapped f := by
  have hstage : ∀ v ∈ s.run, (f v).stage = m := fun v hv => (hf v hv).1
  have hcause : ∀ v ∈ s.run, (f v).cause = c := fun v hv => (hf v hv).2
  by_cases hdecode : m < stageEmpty
  · exact eachLane_allTrap hne h hf (.inl hdecode)
  rcases hm with hread | hcard
  · have hmem := readStage_of_lt (Nat.not_lt.1 hdecode) hread
    obtain ⟨hlo, hhi⟩ := readStage_between m hmem
    obtain ⟨hreads, hcards⟩ := failures_read fun v hv => hstage v hv ▸ hhi
    refine eachLane_one_group h (fun v hv => hstage v hv ▸ hlo) (fun v hv hc => absurd (hstage v hv ▸ hc) (Nat.not_le.2 hhi)) ?_
    rw [hreads, hcards, readTraps_single hne hmem hf]
    rfl
  · by_cases hsoft : m = stageFault ∨ c = Cause.mcheck
    · obtain ⟨hreads, hcards⟩ := failures_card fun v hv => hstage v hv ▸ hcard
      refine eachLane_one_group h (fun v hv => hstage v hv ▸ Nat.not_lt.1 hdecode)
        (fun v hv _ => by simpa [Trap.soft, hf v hv] using hsoft) ?_
      rw [hreads, hcards, softTraps_single hne hcause]
      rfl
    · obtain ⟨hfault, hmcheck⟩ := not_or.1 hsoft
      exact eachLane_allTrap hne h hf (.inr ⟨hcard, hle, hfault, hmcheck⟩)

theorem allLanes_whole (hne : s.run ≠ []) (h : ∀ v ∈ s.run, k.verdict v = .trap (f v))
    (hf : ∀ v ∈ s.run, (f v).stage = m ∧ (f v).cause = c) (hle : m ≤ 1000) :
    s.allLanes k = s.noted.takeTrap s.issue.core (takers s.run f) s.mkRegs := by
  rw [State.allLanes, splitAll_allTrap hne h hle hf, applySplit_noted]

end Whole

/-! ### A run of which some lanes pass -/

/-- Which elements a filter keeps, told by keys that tell the elements apart. -/
theorem contains_map_filter {α : Type} {g : α → W32} {l : List α} (hnd : (l.map g).Nodup) (p : α → Bool) {x : α} (hx : x ∈ l) :
    ((l.filter p).map g).contains (g x) = p x := by
  rw [Bool.eq_iff_iff, List.contains_iff_mem, List.mem_map]
  constructor
  · rintro ⟨y, hy, hyx⟩
    obtain ⟨hy, hp⟩ := List.mem_filter.1 hy
    exact List.inj_on_of_nodup_map hnd hy hx hyx ▸ hp
  · exact fun hp => ⟨x, List.mem_filter.2 ⟨hx, hp⟩, rfl⟩

section Mixed
variable {s : State} {k : LaneForm} {f : View → Trap} {ok : View → Bool} {m c : Nat}

/-- The lanes that pass execute and the others trap together (R234, R366). -/
theorem applySplit_goAndTrap (o : Opnds) (act : List W32 → State → State) {good bad : List View} (hgood : good ≠ []) :
    s.applySplit o { go := good.map fun v => v.th.ident.tid, traps := [takers bad f] } act =
      (s.actQm o act (good.map fun v => v.th.ident.tid)).takeTrap s.issue.core (takers bad f) s.mkRegs := by
  have hgo : (good.map fun v => v.th.ident.tid).isEmpty = false := by simpa using hgood
  simp [State.applySplit, hgo]

/-- No lane executes: some lanes trap together, and others are held for them (R351). -/
theorem applySplit_holdAndTrap (o : Opnds) (act : List W32 → State → State) (held first : List View) :
    s.applySplit o { hold := held.map fun v => v.th.ident.tid, behind := (takers first f).map (·.1), traps := [takers first f] } act =
      let depths := (takers first f).filterMap fun x => (s.view? s.issue.core x.1).map fun v => (x.1, v.th.depth + 1)
      (held.foldl (fun u v => u.setStatus s.issue.core v.th.ident.tid (.held depths)) s).takeTrap s.issue.core (takers first f) s.mkRegs := by
  simp [State.applySplit, List.foldl_map, List.filterMap_map]

variable (h : ∀ v ∈ s.run, k.verdict v = if ok v then .ok else .trap (f v))
include h

/-- Where the lanes that do not pass all meet a PAGEFAULT, the others execute (R234, R366). -/
theorem eachLane_pagefaults (hgood : s.run.filter ok ≠ []) (hbad : (s.run.filter fun v => !ok v) ≠ [])
    (hf : ∀ v ∈ s.run.filter fun v => !ok v, (f v).stage = stageFault ∧ (f v).cause = c) :
    s.eachLane k = (s.actQm k.opn k.act ((s.run.filter ok).map fun v => v.th.ident.tid)).takeTrap s.issue.core
      (takers (s.run.filter fun v => !ok v) f) s.mkRegs := by
  have hcard : ∀ v ∈ s.run.filter fun v => !ok v, stageCard ≤ (f v).stage := fun v hv => (hf v hv).1 ▸ by decide
  obtain ⟨hreads, hcards⟩ := failures_card hcard
  have htraps := trapsOf_mixed h
  have hsplit := splitLanes_soft (waitsOf_mixed h)
    (by rw [htraps]; simpa only [failures, List.forall_mem_map] using fun v hv => Nat.le_trans (by decide) (hcard v hv))
    (by rw [htraps]; simpa only [failures, List.forall_mem_map] using fun v hv _ => by simp [Trap.soft, hf v hv])
  rw [State.eachLane, hsplit, oksOf_mixed h, htraps, hreads, hcards, softTraps_single hbad fun v hv => (hf v hv).2]
  exact applySplit_goAndTrap _ _ hgood

/-- Where another check of the card fails, the lanes that failed the earliest one trap together and all others are held (R234,
R351). The %tids tell the lanes apart. -/
theorem eachLane_earliest (hnd : (s.run.map fun v => v.th.ident.tid).Nodup)
    (hf : ∀ v ∈ s.run.filter fun v => !ok v, stageCard ≤ (f v).stage ∧ (f v).stage ≤ 1000 ∧ m ≤ (f v).stage ∧
      ((f v).stage = m → (f v).cause = c))
    (hex : ∃ v ∈ s.run.filter fun v => !ok v, (f v).stage = m)
    (hhard : ∃ v ∈ s.run.filter fun v => !ok v, (f v).stage ≠ stageFault ∧ (f v).cause ≠ Cause.mcheck) :
    let bad := s.run.filter fun v => !ok v
    let first := bad.filter fun v => (f v).stage == m
    let depths := (takers first f).filterMap fun x => (s.view? s.issue.core x.1).map fun v => (x.1, v.th.depth + 1)
    s.eachLane k = ((s.run.filter ok ++ bad.filter fun v => (f v).stage != m).foldl
      (fun u v => u.setStatus s.issue.core v.th.ident.tid (.held depths)) s).takeTrap s.issue.core (takers first f) s.mkRegs := by
  intro bad first depths
  have htraps : trapsOf (s.verdicts k.verdict) = failures bad f := trapsOf_mixed h
  have hlate : Machine.takeTrap (failures bad f) = takers first f := by
    obtain ⟨v, hv, hvm⟩ := hex
    exact takeTrap_first (fun v hv => (hf v hv).2.2.1) (fun v hv => (hf v hv).2.2.2) ⟨v, hv, hvm⟩ (hvm ▸ (hf v hv).2.1)
  have hothers : (((failures bad f).map fun x => x.1.ident.tid).filter fun x => !((takers first f).map (·.1)).contains x) =
      (bad.filter fun v => (f v).stage != m).map fun v => v.th.ident.tid := by
    rw [tids_takers, failures, List.map_map, List.filter_map]
    have hnd' : (bad.map fun v => v.th.ident.tid).Nodup := hnd.sublist (List.filter_sublist.map _)
    exact congrArg _ (List.filter_congr fun v hv => congrArg not (contains_map_filter hnd' _ hv))
  rw [State.eachLane, splitLanes_hard (waitsOf_mixed h) ?_ ?_, oksOf_mixed h, htraps, hlate]
  · simp only []
    rw [hothers, ← List.map_append]
    exact applySplit_holdAndTrap _ _ _ _
  · rw [htraps]
    simpa only [failures, List.forall_mem_map] using fun v hv => (hf v hv).1
  · obtain ⟨v, hv, hstage, hcause⟩ := hhard
    rw [htraps]
    exact ⟨_, List.mem_map_of_mem hv, by simp [Trap.soft, hstage, hcause]⟩

end Mixed

/-- Settles O38: a run whose lanes fail alike splits into one trap, and a mixed run by the earliest check that any lane fails. -/
theorem wholeRunTraps : Obligations.WholeRunTraps := by
  refine ⟨fun s k f ⟨hne, htrap, hagree⟩ hstage => ?whole, fun s k f ok hnd hv => ?mixed⟩
  case whole =>
    obtain ⟨v, hv⟩ := List.exists_mem_of_ne_nil _ hne
    obtain ⟨hplace, hle⟩ := hstage v hv
    have hf := fun w hw => hagree w hw v hv
    exact ⟨eachLane_whole hne htrap hf hplace hle, allLanes_whole hne htrap hf hle⟩
  case mixed =>
    intro pairs good bad hgood hbad
    exact ⟨eachLane_pagefaults hv hgood hbad, fun m c hf hex hhard => eachLane_earliest hv hnd hf hex hhard⟩

end Sys2Proof.Proofs
end

section
/-! PROOFS. Issue cycles (R140, R145), forced runs (R141), deferrals (R166), the governor (R144) and the gangs of spawn bins (R150, R151). -/

namespace Sys2Proof.Proofs
open Sys2Proof Sys2Proof.Machine

/-! ### Issue cycles -/

/-- A section issues at most two runs in a cycle (R140). -/
theorem pickSlots_length (free : ExUnit → Bool) (forced : Option Run) (l behind : List Run) :
    (pickSlots free forced l behind).length ≤ 2 := by
  simp only [pickSlots]
  repeat' split
  all_goals simp

theorem getD_modifyAt {α : Type} (d : α) (f : α → α) (i : Nat) (l : List α) : (modifyAt d f i l).getD i d = f (l.getD i d) := by
  induction i generalizing l with
  | zero => cases l <;> rfl
  | succ i ih =>
    cases l with
    | nil => simpa [modifyAt] using ih []
    | cons x r => simpa [modifyAt] using ih r

@[simp] theorem sectAt_onSect (k : Core) (i : Nat) (f : Machine.Section → Machine.Section) : (k.onSect i f).sectAt i = f (k.sectAt i) :=
  getD_modifyAt ..

theorem sectAt_congr {k l : Core} (h : l.sects = k.sects) (i : Nat) : l.sectAt i = k.sectAt i := by
  rw [Core.sectAt, Core.sectAt, h]

/-- A new issue cycle leaves the sections as they are. -/
theorem tick_sects (k : Core) (cycle : Nat) : (k.tick cycle).sects = k.sects := by
  rw [Core.tick]
  split <;> rfl

theorem coreAt_issued (s : State) (now : Nat) (l : List Issue) (i : Nat) : ({ s with now, slots := l } : State).coreAt i = s.coreAt i := rfl

/-- A cycle of a section changes no other section, and counts there. -/
theorem issueSection_sects (s : State) (core sect : Nat) (c : Crew) : ∃ x : Machine.Section,
    ((s.issueSection core sect c).coreAt core).sects = ((s.coreAt core).onSect sect fun _ => x).sects ∧
    x.cycle = ((s.coreAt core).sectAt sect).cycle + 1 :=
  ⟨_, (congrArg Core.sects ((coreAt_issued ..).trans (State.coreAt_onCore ..))).trans (tick_sects ..), rfl⟩

/-- The cycle of a section fills at most two slots, with runs of it, and counts (R140). -/
theorem issueSection_slots (s : State) (core sect : Nat) (c : Crew) :
    ∃ l : List Issue, (s.issueSection core sect c).slots = s.slots ++ l ∧ l.length ≤ 2 ∧
      (∀ x ∈ l, x.core = core ∧ x.sfe = false ∧ x.sect = sect) ∧
      (((s.issueSection core sect c).coreAt core).sectAt sect).cycle = ((s.coreAt core).sectAt sect).cycle + 1 := by
  refine ⟨_, rfl, ?_, ?_, ?_⟩
  · simpa only [List.length_map] using pickSlots_length ..
  · simp only [List.forall_mem_map]
    exact fun _ _ => ⟨trivial, trivial, trivial⟩
  · obtain ⟨x, hsects, hcycle⟩ := issueSection_sects s core sect c
    rw [sectAt_congr hsects, sectAt_onSect, hcycle]

/-- The cycle of the front end fills at most one slot, with its run (R145). -/
theorem issueFront_slots (s : State) (core : Nat) (c : Crew) :
    ∃ l : List Issue, (s.issueFront core c).slots = s.slots ++ l ∧ l.length ≤ 1 ∧
      ∀ x ∈ l, x.core = core ∧ x.sfe = true ∧ c.sfe.status = .runnable := by
  refine ⟨_, rfl, ?_⟩
  split
  · next hgoes =>
    have hrun : c.sfe.status = .runnable := by
      simp only [Bool.and_eq_true] at hgoes
      exact of_decide_eq_true hgoes.1
    simpa using hrun
  · exact ⟨Nat.zero_le 1, nofun⟩

/-- The cycle of a core with a crew goes to one of its sections, or to the front end. -/
theorem exec_sectionIssue {s u : State} {core sect : Nat} {c : Crew} (hu : (if sect = 0 then s.governed core else s).rouse core = u)
    (hc : (u.coreAt core).crew = some c) : exec (.sectionIssue core sect) s =
      .next (if sect < 4 then u.issueSection core sect c else if sect = 4 then u.issueFront core c else u) := by
  have hx : exec (.sectionIssue core sect) s = execSectionIssue core sect s := rfl
  rw [hx]
  unfold execSectionIssue
  simp only [hu, hc]

/-! ### Forced runs and deferrals -/

/-- The starvation timer forces the anchor's run (R141). -/
theorem forcedRun_anchor {s : State} {core sect : Nat} (hsect : sect < 4) (ht : 1023 ≤ ((s.coreAt core).sectAt sect).timer) :
    ∃ t, exec (.forcedRun core sect) s = .next t ∧
      ((t.coreAt core).sectAt sect).forced = ((s.coreAt core).sectAt sect).anchor := by
  refine ⟨_, rfl, ?_⟩
  rw [State.coreAt_onCore, if_pos ⟨hsect, ht⟩]
  exact congrArg Section.forced (sectAt_onSect ..)

/-- After the event a gang of the slot defers only while its time is not over (R166). -/
theorem yieldDeferralEnd_defers (s : State) (core sect slot : Nat) : ∃ t, exec (.yieldDeferralEnd core sect slot) s = .next t ∧
    ∀ c, (t.coreAt core).crew = some c → ∀ g ∈ c.gangs, g.sect = sect → g.slot = slot → ∀ m n, g.defer = some (m, n) →
      ((s.coreAt core).sectAt sect).cycle < n := by
  refine ⟨_, rfl, ?_⟩
  simp only [State.coreAt_onCore, Core.onCrew, Option.map_eq_some_iff]
  rintro _ ⟨c, -, rfl⟩ g hg hsect hslot m n hdefer
  obtain ⟨g, -, rfl⟩ := List.mem_map.1 hg
  split at hdefer
  · next hnone => simp [hnone] at hdefer
  · next until' hsome =>
    split at hdefer
    · simp at hdefer
    · next hlater =>
      simp only [hsome, if_neg hlater, Option.some.injEq, Prod.mk.injEq] at hsect hslot hdefer
      obtain ⟨-, rfl⟩ := hdefer
      exact Nat.not_le.1 fun hover => hlater ⟨hsect, hslot, hover⟩

/-! ### The governor -/

@[simp] theorem govHeld_onCore (s : State) (core i : Nat) (f : Core → Core) : (s.onCore i f).govHeld core = s.govHeld core := rfl

theorem governorWindow_over {s : State} {core : Nat} (h : 16384 ≤ (s.coreAt core).govWin) :
    execGovernorWindow core s = .next (s.onCore core fun k =>
      k.governor (s.govHeld core) (Config.freeBool [24, core, s.free]) (Config.freeBool [25, core, s.free])) :=
  congrArg _ (if_pos h)

theorem governorWindow_open {s : State} {core : Nat} (h : (s.coreAt core).govWin < 16384) : execGovernorWindow core s = .next s :=
  congrArg _ (if_neg (Nat.not_le.2 h))

/-- The governor decides on a step at most one from the core's, the lowest while firmware holds the core (R144). -/
theorem governor_step (k : Core) (hold grant withdraw : Bool) (hk : k.gov ≤ 4) : ∃ g, (k.governor hold grant withdraw).govNext = some g ∧
    g ≤ 4 ∧ (hold = true → g = 0) ∧ (hold = false → g ≤ k.gov + 1 ∧ k.gov ≤ g + 1) := by
  refine ⟨_, rfl, ?_⟩
  split
  · next hh => simp [hh]
  · split
    · next hh _ => exact ⟨by omega, fun h => absurd h hh, fun _ => by omega⟩
    · split
      · next hh _ hup =>
        simp only [Bool.and_eq_true, decide_eq_true_eq] at hup
        exact ⟨by omega, fun h => absurd h hh, fun _ => by omega⟩
      · next hh _ _ => exact ⟨hk, fun h => absurd h hh, fun _ => by omega⟩

/-- A core that firmware holds issues at 600 MHz (R144). -/
theorem governed_held {s : State} {core : Nat} (h : s.govHeld core = true) : ((s.governed core).coreAt core).gov = 0 := by
  by_cases hwin : 16384 ≤ (s.coreAt core).govWin
  · simp [State.governed, governorWindow_over hwin, h]
  · simp [State.governed, governorWindow_open (Nat.not_le.1 hwin), h]

/-- The next issue cycle takes the step decided. -/
theorem governed_takes {s : State} {core g : Nat} (hwin : (s.coreAt core).govWin < 16384) (hheld : s.govHeld core = false)
    (hg : (s.coreAt core).govNext = some g) :
    ((s.governed core).coreAt core).gov = g ∧ ((s.governed core).coreAt core).govNext = none := by
  simp [State.governed, governorWindow_open hwin, hheld, hg]

/-! ### Spawned gangs -/

/-- A bin that is full or whose timer is 0 forms a gang in the slot chosen for it (R150, R151). -/
theorem formGang_threads {c : Crew} {b : Bin} {i sect slot : Nat} (t : Tcb) (ten : Tenancy) (cycle : Nat)
    (hb : c.bins.getD i none = some b) (hslot : c.slotForBin = some (sect, slot)) (hgather : c.gathering = false)
    (hpre : c.preempt = none) (hne : b.threads ≠ []) (hready : 32 ≤ b.threads.length ∨ b.timer = 0) :
    ∃ l, (c.formGang t ten i cycle).threads = c.threads ++ l ∧ (c.formGang t ten i cycle).bins = c.bins.set i none ∧
      l.length = b.threads.length ∧ ∀ x ∈ l, x.pc = b.entry ∧ x.place.sect = sect ∧ x.place.slot = slot ∧ x.status = .runnable := by
  have hforms : (!c.gathering && c.preempt.isNone && (b.threads.length ≥ 32 || b.timer = 0) && !b.threads.isEmpty) = true := by
    simpa [hgather, hpre, hne] using hready
  simp only [Crew.formGang, hb, hslot, if_pos hforms]
  refine ⟨_, rfl, trivial, by simp, ?_⟩
  intro x hx
  obtain ⟨y, -, rfl⟩ := List.mem_map.1 hx
  exact ⟨rfl, rfl, rfl, rfl⟩

theorem gangFormation_forms {s : State} {core i : Nat} {c : Crew} {k : Task} (hc : (s.coreAt core).crew = some c)
    (hk : s.task? c.ten c.task = some k) : ∃ t, exec (.gangFormation core i) s = .next t ∧
      (t.coreAt core).crew = some (c.formGang k.tcb (s.tenAt c.ten) i (s.coreAt core).cycle) := by
  refine ⟨s.onCore core fun x => x.onCrew fun c => c.formGang k.tcb (s.tenAt c.ten) i x.cycle, ?_, by simp [Core.onCrew, hc]⟩
  show execGangFormation core i s = _
  simp only [execGangFormation, hc, hk]

/-- Settles O49: each clause is the lemma of its event. -/
theorem issueCycles : Obligations.IssueCycles := by
  refine ⟨?lanes, ?front, fun s core => governed_held, fun s core sect hsect _ => forcedRun_anchor hsect, yieldDeferralEnd_defers,
    ?window, fun s core g => governed_takes, ?gang⟩
  case lanes =>
    intro s core sect c hsect u hc _
    obtain ⟨l, hslots, hlen, hof, hcycle⟩ := issueSection_slots u core sect c
    exact ⟨_, l, (exec_sectionIssue rfl hc).trans (congrArg _ (if_pos hsect)), hslots, hlen, hof, hcycle⟩
  case front =>
    intro s core c hc
    obtain ⟨l, hslots, hlen, hof⟩ := issueFront_slots (s.rouse core) core c
    exact ⟨_, l, exec_sectionIssue (sect := 4) rfl hc, hslots, hlen, hof⟩
  case window =>
    intro s core hwin hgov
    obtain ⟨g, hnext, hstep⟩ := governor_step (s.coreAt core) (s.govHeld core) (Config.freeBool [24, core, s.free])
      (Config.freeBool [25, core, s.free]) hgov
    refine ⟨_, g, governorWindow_over hwin, ?_⟩
    rw [State.coreAt_onCore]
    exact ⟨rfl, rfl, rfl, hnext, hstep⟩
  case gang =>
    intro s core i sect slot c k b hc hk hb hslot hgather hpre hne hready
    obtain ⟨t, hx, hcrew⟩ := gangFormation_forms (i := i) hc hk
    obtain ⟨l, hthreads, hbins, hlen, hnew⟩ := formGang_threads k.tcb (s.tenAt c.ten) (s.coreAt core).cycle hb hslot hgather hpre hne hready
    exact ⟨t, _, l, hx, hcrew, hthreads, hbins, hlen, hnew⟩

end Sys2Proof.Proofs
end

section
/-! PROOFS. Cross-lane operations (R159 to R162): what each lane takes from the contributors, and what it keeps. -/

namespace Sys2Proof.Proofs
open Sys2Proof Sys2Proof.Machine

/-! ### What the tables take from the contributors -/

/-- A value of another lane, or the lane's own (R160). -/
theorem shuffle_eq (cs : List Contrib) (c : Contrib) (i : Int) : shuffle cs c i = fromLane cs c i := by
  unfold shuffle fromLane
  cases cs.find? fun x => (x.lane : Int) == i <;> rfl

theorem bitsOf_low5 (b : W32) : bitsOf b 4 0 = b.toNat % 32 := amt5_eq b

theorem shuffle_low5 (cs : List Contrib) (c : Contrib) : shuffle cs c (bitsOf c.b 4 0) = fromLane cs c (c.b.toNat % 32 : Nat) := by
  rw [shuffle_eq, bitsOf_low5]

theorem shuffle_xor5 (cs : List Contrib) (c : Contrib) :
    shuffle cs c (c.lane ^^^ bitsOf c.b 4 0 : Nat) = fromLane cs c (c.lane ^^^ c.b.toNat % 32 : Nat) := by
  rw [shuffle_eq, bitsOf_low5]

theorem boolWord_iff {b : Bool} {p : Prop} [Decidable p] (h : b = true ↔ p) : boolWord b = oneIf p := by
  simp only [boolWord, oneIf, h]

/-- The sum of the powers of two of the numbers below `n` that `q` selects. -/
def bitSum (q : Nat → Bool) (n : Nat) : Nat := ((List.range n).filter q).foldl (fun m l => m + 2 ^ l) 0

theorem bitSum_succ (q : Nat → Bool) (n : Nat) : bitSum q (n + 1) = bitSum q n + if q n then 2 ^ n else 0 := by
  rw [bitSum, List.range_succ, List.filter_append, List.foldl_append]
  cases h : q n <;> simp [bitSum, h]

theorem bitSum_lt (q : Nat → Bool) (n : Nat) : bitSum q n < 2 ^ n := by
  induction n with
  | zero => exact Nat.one_pos
  | succ n ih =>
    rw [bitSum_succ, Nat.pow_succ]
    split <;> omega

/-- The powers are distinct, so that the bits of their sum are the numbers selected. -/
theorem testBit_bitSum (q : Nat → Bool) (n i : Nat) : (bitSum q n).testBit i = (decide (i < n) && q i) := by
  induction n with
  | zero => simp [bitSum]
  | succ n ih =>
    have hlt := bitSum_lt q n
    rw [bitSum_succ]
    rcases Nat.lt_trichotomy i n with h | rfl | h
    · have hi : i < n + 1 := by omega
      simp only [h, hi, decide_true, Bool.true_and] at ih ⊢
      split
      · rw [Nat.add_comm, Nat.testBit_two_pow_add_gt h, ih]
      · rw [Nat.add_zero, ih]
    · have hz := Nat.testBit_lt_two_pow hlt
      split
      next hq => rw [Nat.add_comm, Nat.testBit_two_pow_add_eq, hz]; simp [hq]
      next hq => rw [Nat.add_zero, hz]; simp [hq]
    · have hsum : bitSum q n + (if q n then 2 ^ n else 0) < 2 ^ i := by
        rw [← bitSum_succ]
        exact (bitSum_lt q (n + 1)).trans_le (Nat.pow_le_pow_right (by decide) h)
      have hi : ¬ i < n + 1 := by omega
      simp [Nat.testBit_lt_two_pow hsum, hi]

theorem getLsbD_laneBits (cs : List Contrib) (i : Nat) : (laneBits cs).getLsbD i = (decide (i < 32) && cs.any fun x => x.lane == i) := by
  rw [show laneBits cs = BitVec.ofNat 32 (bitSum (fun l => cs.any fun x => x.lane == l) 32) from rfl, BitVec.getLsbD_ofNat, testBit_bitSum,
    ← Bool.and_assoc, Bool.and_self]

theorem getLsbD_foldl_or (cs : List Contrib) (m : W32) (i : Nat) :
    (cs.foldl (fun m x => m ||| BitVec.ofNat 32 (2 ^ x.lane)) m).getLsbD i =
      (m.getLsbD i || (decide (i < 32) && cs.any fun x => x.lane == i)) := by
  induction cs generalizing m with
  | nil => simp
  | cons x cs ih =>
    rw [List.foldl_cons, ih, BitVec.getLsbD_or, BitVec.getLsbD_ofNat, Nat.testBit_two_pow, List.any_cons, Bool.or_assoc,
      ← Bool.and_or_distrib_left, beq_eq_decide]

/-- A word of lanes: an OR of their bits, or their sum. -/
theorem laneWord_eq {p : Contrib → Bool} {q : Contrib → Prop} [DecidablePred q] (h : ∀ x, p x = decide (q x)) (cs : List Contrib) :
    laneWord cs p = laneBits (cs.filter q) := by
  obtain rfl : p = fun x => decide (q x) := funext h
  refine BitVec.eq_of_getLsbD_eq fun i _ => ?_
  rw [laneWord, getLsbD_foldl_or, getLsbD_laneBits, BitVec.getLsbD_zero, Bool.false_or]

theorem foldl_add_eq (cs : List Contrib) (m : W32) : cs.foldl (fun m x => m + x.a) m = m + totalOf cs := by
  induction cs generalizing m with
  | nil => exact (BitVec.add_zero m).symm
  | cons x cs ih =>
    rw [List.foldl_cons, ih, totalOf, totalOf, List.map_cons, List.sum_cons, BitVec.ofNat_add, BitVec.ofNat_toNat, BitVec.setWidth_eq,
      BitVec.add_assoc]

theorem sumOf_eq (cs : List Contrib) (p : Contrib → Bool) : sumOf cs p = totalOf (cs.filter p) :=
  (foldl_add_eq _ _).trans (BitVec.zero_add _)

theorem sumOf_all (cs : List Contrib) : sumOf cs (fun _ => true) = totalOf cs := by
  rw [sumOf_eq, List.filter_true]

theorem toInt_smaller (m a : W32) : (if a.slt m then a else m).toInt = min m.toInt a.toInt := by
  simp only [BitVec.slt_eq_decide, decide_eq_true_eq]
  split <;> omega

theorem toInt_greater (m a : W32) : (if m.slt a then a else m).toInt = max m.toInt a.toInt := by
  simp only [BitVec.slt_eq_decide, decide_eq_true_eq]
  split <;> omega

/-- A fold over words whose steps are those of a fold over the integers that they stand for. -/
theorem foldl_toInt {f : W32 → W32 → W32} {g : Int → Int → Int} (h : ∀ m a, (f m a).toInt = g m.toInt a.toInt) (cs : List Contrib)
    (m : W32) : cs.foldl (fun m x => f m x.a) m = BitVec.ofInt 32 (cs.foldl (fun m x => g m x.a.toInt) m.toInt) := by
  induction cs generalizing m with
  | nil => exact (BitVec.ofInt_toInt).symm
  | cons x cs ih => rw [List.foldl_cons, ih, h, List.foldl_cons]

/-! ### An instruction and its row -/

section Rows
variable {s : State} {o : R3} {p : R2}

theorem gangRow3_exec {i : R3 → Instr} {f g : List Contrib → Contrib → W32} (hx : exec (i o) s = gang3 o g s)
    (h : ∀ cs c, g cs c = f cs c) : exec (gangRow3 o s i f).1 s = .next (s.allLanes (gangRow3 o s i f).2) := by
  obtain rfl : g = f := funext₂ h
  exact hx

theorem gangRow2_exec {i : R2 → Instr} {f g : List Contrib → Contrib → W32 × FFlags} (hx : exec (i p) s = gang2 p g s)
    (h : ∀ cs c, g cs c = f cs c) : exec (gangRow2 p s i f).1 s = .next (s.allLanes (gangRow2 p s i f).2) := by
  obtain rfl : g = f := funext₂ h
  exact hx

/-- The same where the operation sets no flag. -/
theorem gangRow2_exec_quiet {i : R2 → Instr} {f g : List Contrib → Contrib → W32} (hx : exec (i p) s = gang2 p (fun cs c => (g cs c, 0)) s)
    (h : ∀ cs c, g cs c = f cs c) : exec (gangRow2 p s i fun cs c => (f cs c, 0)).1 s =
      .next (s.allLanes (gangRow2 p s i fun cs c => (f cs c, 0)).2) :=
  gangRow2_exec hx fun cs c => by rw [h]

theorem crossRows_exec (o : R3) (p : R2) (s : State) : ∀ r ∈ crossRows o p s, exec r.1 s = .next (s.allLanes r.2) := by
  simp only [crossRows, List.forall_mem_cons]
  exact ⟨gangRow3_exec rfl shuffle_low5, gangRow3_exec rfl fun _ _ => shuffle_eq .., gangRow3_exec rfl fun _ _ => shuffle_eq ..,
    gangRow3_exec rfl shuffle_xor5,
    gangRow2_exec_quiet rfl fun _ _ => boolWord_iff (by simp), gangRow2_exec_quiet rfl fun _ _ => boolWord_iff (by simp),
    gangRow2_exec_quiet rfl fun cs _ => laneWord_eq (fun x => by simp [bne, beq_eq_decide]) cs,
    gangRow2_exec_quiet rfl fun cs c => laneWord_eq (fun x => beq_eq_decide x.a c.a) cs,
    gangRow2_exec_quiet rfl fun cs _ => sumOf_all cs,
    gangRow2_exec_quiet rfl fun cs _ => foldl_toInt toInt_smaller cs _, gangRow2_exec_quiet rfl fun cs _ => foldl_toInt toInt_greater cs _,
    gangRow2_exec rfl fun _ _ => rfl,
    gangRow2_exec_quiet rfl fun _ _ => sumOf_eq .., gangRow2_exec_quiet rfl fun _ _ => sumOf_eq ..,
    gangRow3_exec rfl fun _ _ => sumOf_eq .., gangRow3_exec rfl fun _ _ => sumOf_eq .., List.forall_mem_nil _⟩

/-! ### What the lanes keep -/

/-- A gang-wide operation writes its destination and sets the flags of its result. -/
theorem gangForm_lanesKeep {o : Opnds} {d a : Fld} {b : Option Fld} {f : List Contrib → Contrib → W32 × FFlags} {fl : W32}
    (hd : o.dsts = [⟨d, 1⟩]) (hf : ∀ cs c, (f cs c).2.setWidth 32 &&& ~~~fl = 0#32) :
    s.lanesKeep ((gangForm o d a b f s).act s.tids s) (gangForm o d a b f s).opn fl :=
  lanesKeep_of .refl (fun v => (noteUnseen_kept o v).trans
    (.of_keeps ((Keeps.wr32 (mem_writes_single hd v) _).trans ((Keeps.flag (hf _ _)).trans (.done _))))) .refl

theorem noFlags_masked (fl : W32) : (0 : FFlags).setWidth 32 &&& ~~~fl = 0#32 := BitVec.zero_and

theorem gangRow3_lanesKeep {i : R3 → Instr} {f : List Contrib → Contrib → W32} {fl : W32} :
    s.lanesKeep ((gangRow3 o s i f).2.act s.tids s) (gangRow3 o s i f).2.opn fl :=
  gangForm_lanesKeep (o := { srcs := [.r o.a o.f, .r o.b o.g], dsts := [⟨o.d, 1⟩] }) (d := o.d) (a := o.a) (b := some o.b)
    (f := fun cs c => (f cs c, 0)) rfl fun _ _ => noFlags_masked fl

theorem gangRow2_lanesKeep {i : R2 → Instr} {f : List Contrib → Contrib → W32 × FFlags} {fl : W32}
    (hf : ∀ cs c, (f cs c).2.setWidth 32 &&& ~~~fl = 0#32) :
    s.lanesKeep ((gangRow2 p s i f).2.act s.tids s) (gangRow2 p s i f).2.opn fl :=
  gangForm_lanesKeep (o := { srcs := [.r p.a p.f], dsts := [⟨p.d, 1⟩] }) (d := p.d) (a := p.a) (b := none) (f := f) rfl hf

/-- The same where the operation sets no flag. -/
theorem gangRow2_lanesKeep_quiet {i : R2 → Instr} {f : List Contrib → Contrib → W32} {fl : W32} :
    s.lanesKeep ((gangRow2 p s i fun cs c => (f cs c, 0)).2.act s.tids s) (gangRow2 p s i fun cs c => (f cs c, 0)).2.opn fl :=
  gangRow2_lanesKeep fun _ _ => noFlags_masked fl

theorem crossRows_lanesKeep (o : R3) (p : R2) (s : State) : ∀ r ∈ crossRows o p s,
    s.lanesKeep (r.2.act s.tids s) r.2.opn (if r.1 = .redfadd p then 63#32 else 0#32) := by
  simp only [crossRows, List.forall_mem_cons]
  refine ⟨gangRow3_lanesKeep, gangRow3_lanesKeep, gangRow3_lanesKeep, gangRow3_lanesKeep, gangRow2_lanesKeep_quiet,
    gangRow2_lanesKeep_quiet, gangRow2_lanesKeep_quiet, gangRow2_lanesKeep_quiet, gangRow2_lanesKeep_quiet, gangRow2_lanesKeep_quiet,
    gangRow2_lanesKeep_quiet, ?redfadd, gangRow2_lanesKeep_quiet, gangRow2_lanesKeep_quiet, gangRow3_lanesKeep, gangRow3_lanesKeep,
    List.forall_mem_nil _⟩
  case redfadd =>
    rw [if_pos]
    · exact gangRow2_lanesKeep fun _ _ => allFlags_masked _
    · rfl

end Rows

/-- Settles O27: each instruction is its row, whose effect on a lane writes its destination and sets the flags of its result. -/
theorem crossLaneResults : Obligations.CrossLaneResults := by
  intro s o p
  have hx := crossRows_exec o p s
  refine ⟨fun r hr hg => by rw [hx r hr, s.allLanes_passes r.2 hg], fun r hr t hq hg ht => ?_⟩
  rw [hx r hr, s.allLanes_passes r.2 hg, result_quiet hq] at ht
  obtain rfl : r.2.act s.tids s = t := by simpa using ht
  exact crossRows_lanesKeep o p s r hr

end Sys2Proof.Proofs
end

section
/-! PROOFS. A stage-queue instruction and the uniform registers (R10, R157, R179). -/

namespace Sys2Proof.Proofs
open Sys2Proof Sys2Proof.Machine

/-! ### A front end that waits for an entry in uniform registers

A put serves the threads that wait in its queue, and an entry that a waiting front end takes lands in the group that its wait names. No
STQGET parks with a group of uniform registers (R157), but the model's states are not confined to those that its steps reach. -/

/-- The address of the first byte of the cell's memory (R196). -/
def cellBase : W64 := 0xFFFFFFFF00000000#64

/-- BASE and LOG2CAP of a descriptor there (R178), whose ring of two entries stands 128 bytes behind it; HEAD and TAIL are 0. -/
def emptyQueue : Nat := (cellBase + 128#64).toNat + 2 ^ 64

/-- A crew of one lane thread, whose first pair holds the descriptor's address, and of a front end that waits at the queue for an entry in
the uniform registers from 0. -/
def awaitingCrew : Crew :=
  let c := probeCrew (Tenancy.fresh 0) 0
  { c with
    threads := c.threads.map fun t => { t with regs := (t.regs.set 0 (Reg.of (lo32 cellBase))).set 1 (Reg.of (hi32 cellBase)) }
    sfe := { c.sfe with status := .parked (.stqEmpty (.cel 0 0) cellBase 0 112#7) } }

/-- A device on which that crew's lane thread executes. -/
def awaitingDevice : State :=
  let s := State.reset.onTen 0 fun t => { t with celk := 1 }
  let s := (s.onCore 0 fun c => { c with crew := some awaitingCrew }).wr (.cel 0 0) 24 emptyQueue
  { s with issue := { core := 0, sfe := false, sect := 0, slot := 0, mask := 1#32, raw := ⟨0#32, none⟩ } }

/-- Its lane puts registers 16 to 31 into the queue. -/
def putGroup : RAB := { f := false, g := false, a := 0#7, b := 16#7 }

/-- Whether uniform register 0 is full, as a thread of core 0 finds it. -/
def uniformFull (s : State) (tid : W32) : Option Bool := (s.view? 0 tid).bind fun v => v.k[0]?.map (·.full)

theorem awaitingDevice_quiet : awaitingDevice.quiet := by
  unfold State.quiet
  decide +kernel

theorem awaitingDevice_tids : ∀ c, awaitingDevice.crew? = some c → (c.all.map fun t => t.ident.tid).Nodup := by
  have h : ∀ c ∈ awaitingDevice.crew?, (c.all.map fun t => t.ident.tid).Nodup := by decide +kernel
  exact h

theorem putGroup_goes : (stqputForm putGroup awaitingDevice).goes awaitingDevice :=
  ⟨by decide +kernel, by decide +kernel⟩

theorem uniformFull_before : uniformFull awaitingDevice 0#32 = some true := by decide +kernel

/-- The put serves the front end, which marks its group empty until the entry lands (R13). -/
theorem uniformFull_after : uniformFull (awaitingDevice.eachLane (stqputForm putGroup awaitingDevice)) 0#32 = some false := by
  decide +kernel

/-- STQPUT has no destination. -/
theorem stqput_writes (o : RAB) (s : State) (t : Thread) : (stqputForm o s).opn.writes t = [] := rfl

/-- What a lane keeps of the uniform registers, it keeps of their full bits. -/
theorem uniformFull_keeps {s u : State} {o : Opnds} {fl : W32} (h : s.lanesKeep u o fl) (hc : s.issue.core = 0) {tid : W32}
    (ht : tid ∈ s.tids) (hw : ∀ t, o.writes t = []) {a b : Bool} (ha : uniformFull s tid = some a) (hb : uniformFull u tid = some b) :
    b = a := by
  obtain ⟨v, hv, hva⟩ := Option.bind_eq_some_iff.1 ha
  obtain ⟨w, hu, hwb⟩ := Option.bind_eq_some_iff.1 hb
  rw [← hc] at hv hu
  obtain ⟨-, huni, -⟩ := h tid ht v w hv hu
  rw [huni 0 (by rw [hw]; exact List.not_mem_nil), hva] at hwb
  exact (Option.some.inj hwb).symm

/-- Refutes O33: STQPUT has no destination, but that of the lane of `awaitingDevice` marks the group of the waiting front end empty: the
uniform registers, which are registers of the lane too. -/
theorem not_threadAndTaskInstructions : ¬ Obligations.ThreadAndTaskInstructions := by
  intro h
  obtain ⟨-, -, -, -, -, -, hframe⟩ := h awaitingDevice putGroup { f := false, a := 0#7 } { d := 2#7 } { d := 2#7, l := 0#3 }
    { f := false, d := 2#7, a := 0#7 } { f := false, d := 16#7, a := 0#7, b := 2#7 }
  have hkeep := hframe awaitingDevice_quiet awaitingDevice_tids (.stqput putGroup, stqputForm putGroup awaitingDevice)
    (List.mem_append_right _ List.mem_cons_self) nofun putGroup_goes _ rfl
  exact absurd (uniformFull_keeps hkeep rfl (by decide +kernel) (stqput_writes _ _) uniformFull_before uniformFull_after) (by decide)

end Sys2Proof.Proofs
end

section
/-! PROOFS. The start of a crew whose core's image takes the record of the trial that ends (R184, R372, R380, R387). -/

namespace Sys2Proof.Proofs
open Sys2Proof Sys2Proof.Machine

/-! ### A trace ring in an image of the core

The start of a crew ends a trial, whose record the command processor writes behind the start. The model judges that write as one of system
mode, so that the ring may lie in a page of STATE (R362): then the record lands in the crew that has just started. -/

/-- A leaf that maps the image of SLOT 5 of core 0, the crew's queues (R362, R372): HOME 4, with every right. -/
def queueImageLeaf : Nat := 5 * 2 ^ 43 + 0x13F

/-- A device whose tables map that image at virtual address 0, where the trace ring of tenancy 0 stands, with room for one record; core 0 is
in a trial, and a task of one crew waits to start. -/
def trialDevice : State :=
  let s := { State.reset with tasks := [{ probeTask with started := [] }] }
  let s := s.wr (.mem (probeTable 4)) 8 (probeNext (probeTable 3))
  let s := s.wr (.mem (probeTable 3)) 8 (probeNext (probeTable 2))
  let s := s.wr (.mem (probeTable 2)) 8 (probeNext (probeTable 1))
  let s := s.wr (.mem (probeTable 1)) 8 queueImageLeaf
  let s := s.onTen 0 fun t => { t with
    root := BitVec.ofNat 64 (probeTable 4), trace := { on := true, addr := 0#64, cap := 1, count := 0, dropped := 0 } }
  s.onCore 0 fun c => { c with trial := 0x80000000#32 }

theorem trialDevice_task : trialDevice.task? 0 1 = some { probeTask with started := [] } := by decide +kernel

/-- A crew starts with no word in the image of its decision queue behind the tail (R184). -/
theorem crewAt_dqRaw (k : Task) (ten : Tenancy) (no cycle : Nat) : (k.crewAt ten no cycle).dqRaw = [] := rfl

/-- The record of the trial has left words there. -/
theorem trialDevice_started : (((trialDevice.startCrew 0 0 1 0).coreAt 0).crew.map fun c => c.dqRaw.isEmpty) = some false := by
  decide +kernel

/-- Refutes O50: the crew that starts on `trialDevice` is not the one of R184, since the record of the trial that its start ends (R387) is
written to the image of the crew itself. -/
theorem not_schedulersAct : ¬ Obligations.SchedulersAct := by
  intro h
  obtain ⟨-, hstart, -⟩ := h
  obtain ⟨hcrew, -⟩ := hstart trialDevice 0 0 1 0 _ trialDevice_task
  have hraw := trialDevice_started
  rw [hcrew, Option.map_some, crewAt_dqRaw] at hraw
  exact absurd hraw (by decide)

end Sys2Proof.Proofs
end

section
/-! PROOFS. The pre-emption of a crew that only a sweep in flight keeps on its core (R164, R330, R370). -/

namespace Sys2Proof.Proofs
open Sys2Proof Sys2Proof.Machine

/-! ### A crew that ends when it is pre-empted

A crew whose threads have all exited stays on its core while a command that it issued is in flight (R164). A pre-emption ends its GR.SAPs
(R330), and the last of them takes the crew with it. -/

/-- A crew of one lane thread that has exited, without a front end. -/
def exitedCrew : Crew :=
  let c := probeCrew (Tenancy.fresh 0) 0
  { c with threads := c.threads.map fun t => { t with status := .exited } }

/-- The GR.SAP that the thread issued before it exited. -/
def sweepCmd : Cmd :=
  { id := 1, op := .sap, words := [], cap := [], owners := [], seq := 0#32, lines := [], done := [], count := 0, held := false,
    refused := false, stop := false, past := false
    ctx := { core := 0, sect := 0, tid := 0#32, task := 1, crew := 0, ten := 0, ptbase := BitVec.ofNat 64 (probeTable 4), locbase := 0#64,
             sys := false, pad := 8192, replay := false, pc := 0#64 } }

/-- A device on which that crew waits for its command at the Grinder. -/
def sweepingDevice : State :=
  let s := { State.reset with tasks := [probeTask] }
  (s.onCore 0 fun c => { c with crew := some exitedCrew }).onCell 0 fun c => { c with grindq := [sweepCmd] }

theorem sweepingDevice_crew : (sweepingDevice.coreAt 0).crew = some exitedCrew := by decide +kernel

/-- The end of its command ends the crew. -/
theorem sweepingDevice_preempted : ((sweepingDevice.preemptCrew 0 1 0x30000#64).coreAt 0).crew = none := by decide +kernel

/-- Refutes O52: the crew of `sweepingDevice` is under no pre-emption, and when it is pre-empted for scheduling it has ended, so that none is
left on the core. -/
theorem not_preemptionRepairAndService : ¬ Obligations.PreemptionRepairAndService := by
  intro h
  obtain ⟨hpreempt, -⟩ := h
  obtain ⟨-, hkept⟩ := hpreempt sweepingDevice 0 1 0x30000#64 (by decide) (by decide) (by decide)
  obtain ⟨d, hcrew, -⟩ := hkept exitedCrew sweepingDevice_crew (.inl rfl)
  rw [sweepingDevice_preempted] at hcrew
  cases hcrew

end Sys2Proof.Proofs
end

section
/-! PROOFS. A warm reset and a slice that stands behind a number which no cell has (R197, R389, R417). -/

namespace Sys2Proof.Proofs
open Sys2Proof Sys2Proof.Machine

/-- A device that has mapped slice 160, the first number past those of its 160 slices (R197), to physical slice 0. -/
def mappedDevice : State := { State.reset with slices := [{ Slice.fresh 160 with phys := 0 }] }

/-- The state behind a step that goes on. -/
def nextState : Result → Option State
  | .next t => some t
  | _ => none

theorem mappedDevice_warmReset :
    ((nextState (exec .warmReset mappedDevice)).map fun t => (t.sliceAt 160).phys) = some 160 := by decide +kernel

/-- Refutes O58: a warm reset keeps the places of slices 0 to 159 alone, and that of slice 160 of `mappedDevice` falls back to its own
number. -/
theorem not_resetsKeepAndClear : ¬ Obligations.ResetsKeepAndClear := by
  intro h
  obtain ⟨-, hwarm, -⟩ := h
  obtain ⟨t, ht, -, hplaces, -⟩ := hwarm mappedDevice
  obtain ⟨-, -, hslice⟩ := hplaces 160
  have hphys := mappedDevice_warmReset
  rw [ht] at hphys
  have hback : (t.sliceAt 160).phys = 160 := Option.some.inj hphys
  rw [hback] at hslice
  exact absurd hslice (by decide)

end Sys2Proof.Proofs
end

section
/-! PROOFS. A line group of another device that is cut off from it (R211, R396, R399). -/

namespace Sys2Proof.Proofs
open Sys2Proof Sys2Proof.Machine

/-! ### A load and a store of one line of a device that cannot be reached

Only the loads of such a group are given up (R399; log entry 110): the group stays in the collector with its stores. -/

/-- A request of a lane for four bytes at the start of device 1's memory. -/
def farRequest (op : ReqOp) : Req :=
  { tid := 0#32, pend := none, op, n := 4, loc := .remote 1 0#64, va := 0#64, lane := 0, len := 4#64 }

def farStore : Req := farRequest (.store 0#128)

/-- A load and a store of one line of device 1, gathered 16 cycles ago. -/
def farGroup : Group :=
  { id := 0, line := (Loc.remote 1 0#64).line, leased := false, opened := 0, reqs := [farRequest (.load 4), farStore], phase := .gathering, tries := 0 }

/-- A device whose ports are all down, with that group in the collector of core 0. -/
def cutOffDevice : State := State.reset.onCore 0 fun c => { c with cycle := 16, coll := [farGroup] }

theorem cutOffDevice_due : cutOffDevice.due 0 0 farGroup = true := by decide +kernel
theorem cutOffDevice_clear : cutOffDevice.clear 0 farGroup = true := by decide +kernel

theorem cutOffDevice_sent : ((nextState (exec (.lineGroupSend 0 0) cutOffDevice)).map fun t => (t.coreAt 0).coll) =
    some [{ farGroup with reqs := [farStore] }] := by
  decide +kernel

/-- Refutes O45: the group of `cutOffDevice` is sent by the fabric, but stays in the collector with its store. -/
theorem not_lineGroupsTravel : ¬ Obligations.LineGroupsTravel := by
  intro h
  obtain ⟨hgroup, -⟩ := h
  obtain ⟨hsend, -⟩ := hgroup cutOffDevice 0 0 farGroup (by decide +kernel)
  obtain ⟨hfabric, -⟩ := hsend rfl cutOffDevice_due cutOffDevice_clear
  obtain ⟨t, ht, hcoll⟩ := hfabric 1 (by decide +kernel)
  have hsent := cutOffDevice_sent
  rw [ht] at hsent
  have hstays : (t.coreAt 0).coll = [{ farGroup with reqs := [farStore] }] := Option.some.inj hsent
  have hlen := congrArg List.length (hstays.symm.trans hcoll)
  rw [List.length_eraseIdx] at hlen
  exact absurd hlen (by decide +kernel)

end Sys2Proof.Proofs
end

section
/-! PROOFS. What memory writes, and the terms that a settle applies (R240), leave of the device: threads, collectors, TLBs and the always-on
domain. -/

namespace Sys2Proof.Proofs
open Sys2Proof Sys2Proof.Machine

theorem sliceAt_onSlice_other (s : State) (i j : Nat) (f : Slice → Slice) (h : j ≠ i) : (s.onSlice i f).sliceAt j = s.sliceAt j := by
  simp only [State.sliceAt, State.onSlice]
  rw [find_putBy_other Slice.id _ s.slices j h]

/-- The front end and the lane threads of a crew. -/
def crewLanes (k : Crew) : Thread × List Thread := (k.sfe, k.threads)

/-- From core `c` to core `d` no thread and no request has changed. -/
structure CoreHeld (c d : Core) : Prop where
  lanes : d.crew.map crewLanes = c.crew.map crewLanes
  coll  : d.coll = c.coll

theorem CoreHeld.of_eq {c d : Core} (hk : d.crew = c.crew) (hg : d.coll = c.coll) : CoreHeld c d := ⟨by rw [hk], hg⟩
theorem CoreHeld.refl (c : Core) : CoreHeld c c := ⟨rfl, rfl⟩
theorem CoreHeld.trans {a b c : Core} (h : CoreHeld a b) (k : CoreHeld b c) : CoreHeld a c :=
  ⟨k.lanes.trans h.lanes, k.coll.trans h.coll⟩
theorem CoreHeld.ite {c d e : Core} {p : Prop} [Decidable p] (hd : CoreHeld c d) (he : CoreHeld c e) : CoreHeld c (if p then d else e) := by
  split
  · exact hd
  · exact he
theorem CoreHeld.onCrew (c : Core) {f : Crew → Crew} (hf : ∀ k, crewLanes (f k) = crewLanes k) : CoreHeld c (c.onCrew f) := by
  refine ⟨?_, rfl⟩
  rw [Core.onCrew, Option.map_map]
  exact congrArg (Option.map · c.crew) (funext hf)

/-- A crew whose core is as `CoreHeld` says has the threads that it had. -/
theorem CoreHeld.crew {c d : Core} (h : CoreHeld c d) {k : Crew} (hk : c.crew = some k) : ∃ l, d.crew = some l ∧ crewLanes l = crewLanes k := by
  have hl := h.lanes
  rw [hk] at hl
  exact Option.map_eq_some_iff.1 hl

/-- From `s` to `t` no thread, no request of a collector, no shared TLB and nothing always-on has changed. -/
structure Held (s t : State) : Prop where
  core : ∀ i, CoreHeld (s.coreAt i) (t.coreAt i)
  tlb  : ∀ k, (t.sliceAt k).tlb = (s.sliceAt k).tlb
  aon  : t.aon = s.aon

section Held
variable {s t u : State}

theorem Held.refl : Held s s := ⟨fun _ => .refl _, fun _ => rfl, rfl⟩
theorem Held.trans (h : Held s t) (k : Held t u) : Held s u :=
  ⟨fun i => (h.core i).trans (k.core i), fun i => (k.tlb i).trans (h.tlb i), k.aon.trans h.aon⟩

/-- What leaves the cores, the slices and the always-on domain as they are. -/
theorem Held.of_eq (hc : t.coreAt = s.coreAt) (hs : t.slices = s.slices) (ha : t.aon = s.aon) : Held s t :=
  ⟨fun i => by rw [hc]; exact .refl _, fun k => by simp only [State.sliceAt, hs], ha⟩

theorem Held.onCore (i : Nat) {f : Core → Core} (hf : ∀ c, CoreHeld c (f c)) : Held s (s.onCore i f) := by
  refine ⟨fun j => ?_, fun _ => rfl, rfl⟩
  by_cases h : j = i
  · subst h
    rw [State.coreAt_onCore]
    exact ⟨(hf _).lanes, (hf _).coll⟩
  · rw [State.coreAt_onCore_other _ _ _ _ h]
    exact .refl _

theorem Held.onSlice (i : Nat) {f : Slice → Slice} (hf : ∀ x, (f x).tlb = x.tlb) : Held s (s.onSlice i f) := by
  refine ⟨fun _ => .refl _, fun k => ?_, rfl⟩
  by_cases h : k = i
  · subst h
    rw [State.sliceAt_onSlice]
    exact hf _
  · rw [sliceAt_onSlice_other _ _ _ _ h]

theorem Held.ite {p : Prop} [Decidable p] (ht : Held s t) (hu : Held s u) : Held s (if p then t else u) := by
  split
  · exact ht
  · exact hu

theorem Held.foldl {α : Type} (l : List α) {f : State → α → State} (hf : ∀ s x, Held s (f s x)) : Held s (l.foldl f s) := by
  induction l generalizing s with
  | nil => exact .refl
  | cons x l ih => exact (hf s x).trans ih

/-! ### The bytes of memory and of images -/

theorem onSect_coll (c : Core) (i : Nat) (f : Machine.Section → Machine.Section) : (c.onSect i f).coll = c.coll := rfl
theorem setHandleWord_coll (c : Core) (h i : Nat) (v : W32) : (c.setHandleWord h i v).coll = c.coll := rfl

theorem setImageWord_held (c : Core) (slot off : Nat) (v : W32) : CoreHeld c (c.setImageWord slot off v) := by
  have same {d : Core} (h : d.crew = c.crew) (g : d.coll = c.coll) : CoreHeld c d := .of_eq h g
  have bin (k : Crew) (j i : Nat) : crewLanes (k.setBinWord j i v) = crewLanes k := by
    simp only [Crew.setBinWord]
    split <;> rfl
  have dq (k : Crew) (n h : Nat) : crewLanes (k.setDqWord n h v) = crewLanes k := by
    simp only [Crew.setDqWord]
    split <;> rfl
  unfold Core.setImageWord
  refine .ite (same rfl rfl) (.ite (.ite (same rfl rfl) (.ite (same rfl rfl) (.ite (same rfl rfl) (.ite (same rfl rfl) (.ite ?_
    (.ite (same (onSect_crew ..) (onSect_coll ..)) (.ite (same rfl rfl) (.ite (same rfl rfl)
    (.ite (same (setHandleWord_crew ..) (setHandleWord_coll ..)) (same rfl rfl)))))))))) (.ite (.ite ?_ (.ite ?_
    (.ite (same (onSect_crew ..) (onSect_coll ..)) (.ite ?_ (.ite ?_ (.ite ?_ (same rfl rfl))))))) (same rfl rfl)))
  · exact .onCrew c fun k => rfl
  · exact .onCrew c fun k => dq k _ _
  · exact .onCrew c fun k => rfl
  · exact .onCrew c fun k => bin k _ _
  · exact .onCrew c fun k => rfl
  · exact .onCrew c fun k => rfl

theorem wrByte_held (l : Loc) (b : Byte) : Held s (s.wrByte l b) := by
  cases l with
  | mem a => exact .of_eq rfl rfl rfl
  | pad c o =>
    rw [wrByte_pad]
    exact .onCore c fun _ => .of_eq rfl rfl
  | cel c o => exact .of_eq rfl rfl rfl
  | state c k o =>
    rw [wrByte_state]
    exact .onCore c fun x => setImageWord_held x k (o / 4 * 4) _
  | remote d a => exact .refl

theorem wrBytes_held (l : Loc) (bs : List Byte) : Held s (s.wrBytes l bs) := by
  induction bs generalizing s l with
  | nil => exact .refl
  | cons b r ih => exact (wrByte_held l b).trans (ih _)

theorem wr_held (l : Loc) (n v : Nat) : Held s (s.wr l n v) := (wrBytes_held l _).trans (.of_eq rfl rfl rfl)

theorem clearFutures_held (l : Loc) (n : Nat) : Held s (s.clearFutures l n) := .foldl _ fun _ _ => .of_eq rfl rfl rfl

/-! ### Page tables that a store changes (R362, R365) -/

theorem pinPage_held (was : State) (e : W64) (lvl : Nat) (on root : Bool) : Held s (was.pinPage s e lvl on root) := by
  unfold State.pinPage
  extract_lets p first upd new lo s1 fresh kept
  have hpins : Held s s1 := .onSlice _ fun _ => rfl
  have hs : Held s kept := .ite (.ite (hpins.trans (.of_eq rfl rfl rfl)) hpins) (.ite (.onCore _ fun _ => .of_eq rfl rfl) .refl)
  exact .ite .refl (.ite (hs.trans (.of_eq rfl rfl rfl)) hs)

theorem mapPages_held (was : State) (on root : Bool) (e : W64) (n : Nat) : Held s (was.mapPages s on root e n) := by
  induction n generalizing s e with
  | zero => exact .refl
  | succ n ih =>
    unfold State.mapPages
    exact .ite .refl (.ite (pinPage_held was ..) (.ite .refl (.foldl _ fun _ _ => ih _)))

theorem entryStored_held (a : Nat) (old : W64) : Held s (s.entryStored a old) := by
  unfold State.entryStored
  refine .ite .refl ?_
  split
  · exact .refl
  · exact .ite (.of_eq rfl rfl rfl) (mapPages_held ..)

theorem wrTables_held (l : Loc) (n v : Nat) : Held s (s.wrTables l n v) := by
  cases l with
  | mem a => exact (wr_held _ n v).trans (.foldl _ fun _ _ => entryStored_held ..)
  | _ => exact wr_held _ n v

/-! ### Replay terms (R240) -/

theorem applyTerm_held (x : Term) : Held s (s.applyTerm x) := by
  unfold State.applyTerm
  refine .ite .refl ?_
  split
  · exact .refl
  · exact (clearFutures_held _ _).trans (wrTables_held ..)

theorem raisePts_held (i p : Nat) : Held s (s.raisePts i p) := .onCore i fun _ => .of_eq rfl rfl

/-- A core after every timestamp has risen to `p` at least. -/
theorem coreAt_raiseAll (s : State) (p i : Nat) : (s.raiseAll p).coreAt i = { s.coreAt i with pts := max (s.coreAt i).pts p } := by
  simp only [State.raiseAll, State.coreAt, List.find?_map, Function.comp_def]
  cases s.cores.find? fun c => c.id == i <;> rfl

theorem raiseAll_held (p : Nat) : Held s (s.raiseAll p) :=
  ⟨fun i => by rw [coreAt_raiseAll]; exact .of_eq rfl rfl, fun _ => rfl, rfl⟩

theorem stampTerms_held (ts : List Term) : Held s (s.stampTerms ts) := by
  refine .foldl _ fun s l => ?_
  have hstamped (x : Line) (cs : List Nat) (p : Nat) : Held s (cs.foldl (fun s c => s.raisePts c p) (s.putStamps x)) :=
    (Held.of_eq (s := s) (t := s.putStamps x) rfl rfl rfl).trans (.foldl cs fun _ c => raisePts_held c p)
  exact .ite ((hstamped _ _ _).trans (raiseAll_held _)) (hstamped _ _ _)

theorem settle_held (l : Loc) (n : Nat) : Held s (s.settle l n) := by
  have hterms (ts : List Term) : Held s { s with terms := ts } := .of_eq rfl rfl rfl
  exact .ite .refl (((hterms _).trans (.foldl _ fun _ x => applyTerm_held x)).trans (stampTerms_held _))

end Held

end Sys2Proof.Proofs
end

section
/-! PROOFS. The wires: lanterns, the mesh, tokens, the throttle and the die bridge (R214 to R218, R391 to R393). -/

namespace Sys2Proof.Proofs
open Sys2Proof Sys2Proof.Machine

/-! ### Lanterns and routers, by number -/

@[simp] theorem lanternAt_putLantern (s : State) (x : Lantern) : (s.putLantern x).lanternAt x.chan = x := by
  simp only [State.lanternAt, State.putLantern, find_putBy_same Lantern.chan, Option.getD_some]

theorem lanternAt_putLantern_other (s : State) (x : Lantern) {c : Nat} (h : c ≠ x.chan) : (s.putLantern x).lanternAt c = s.lanternAt c := by
  simp only [State.lanternAt, State.putLantern, find_putBy_other Lantern.chan _ _ _ h]

@[simp] theorem lanternAt_chan (s : State) (k : Nat) : (s.lanternAt k).chan = k := by
  unfold State.lanternAt
  cases h : s.lantern.find? fun x => x.chan == k with
  | none => rfl
  | some x => simpa using List.find?_some h

theorem lanternAt_usedLantern (s : State) (k : Nat) :
    (s.usedLantern k).lanternAt k = { s.lanternAt k with used := (s.lanternAt k).used + 1, since := max (s.lanternAt k).since (s.control - 162) } := by
  have h := lanternAt_putLantern s
    { s.lanternAt k with used := (s.lanternAt k).used + 1, since := max (s.lanternAt k).since (s.control - 162) }
  rwa [lanternAt_chan] at h

@[simp] theorem routerAt_putRouter (s : State) (r : Router) : (s.putRouter r).routerAt r.id = r := by
  simp only [State.routerAt, State.putRouter, find_putBy_same Router.id, Option.getD_some]

theorem routerAt_putRouter_other (s : State) (r : Router) {i : Nat} (h : i ≠ r.id) : (s.putRouter r).routerAt i = s.routerAt i := by
  simp only [State.routerAt, State.putRouter, find_putBy_other Router.id _ _ _ h]
  rfl

@[simp] theorem routerAt_id (s : State) (i : Nat) : (s.routerAt i).id = i := by
  unfold State.routerAt
  cases h : s.routers.find? fun r => r.id == i with
  | none => rfl
  | some r => simpa using List.find?_some h

/-- A router that changes keeps its number, by which it is found. -/
theorem routerAt_put_same (s : State) {r : Router} {i : Nat} (h : r.id = i) : (s.putRouter r).routerAt i = r := h ▸ routerAt_putRouter s r

/-- A wake signal changes routers alone, and puts none to sleep that it finds awake. -/
theorem wakeRouter_cases (s : State) (q hops : Nat) : s.wakeRouter q hops = s ∨
    (s.routerAt q).awake = false ∧ s.wakeRouter q hops = s.putRouter { s.routerAt q with wakeAt := s.control + hops + 6 } := by
  unfold State.wakeRouter
  simp only [Bool.or_eq_true]
  split
  · exact .inl rfl
  next h =>
    rw [not_or] at h
    exact .inr ⟨by simpa using h.1, rfl⟩

theorem wakeRouter_routers (s : State) (q hops : Nat) : { s.wakeRouter q hops with routers := s.routers } = s := by
  rcases wakeRouter_cases s q hops with h | ⟨-, h⟩
  · rw [h]
  · rw [h]
    rfl

/-- A router that is awake stays as it is when another is woken, or it itself. -/
theorem routerAt_wakeRouter {s : State} {r : Nat} (q hops : Nat) (h : (s.routerAt r).awake = true) :
    (s.wakeRouter q hops).routerAt r = s.routerAt r := by
  rcases wakeRouter_cases s q hops with hs | ⟨hq, hs⟩
  · rw [hs]
  · rw [hs]
    refine routerAt_putRouter_other _ _ ?_
    rintro rfl
    simp [hq] at h

/-! ### Lanterns (R214) -/

/-- The lantern of a channel when it has passed to the next station. -/
def lanternPassed (s : State) (chan : Nat) : Lantern :=
  { chan, station := ((s.lanternAt chan).station + 1) % 81, used := 0, since := max ((s.lanternAt chan).since + 1) (s.control - 162) }

theorem lanternPass_passes (s : State) (chan : Nat) (hc : chan < 160) (hsince : (s.lanternAt chan).since < s.control)
    (hused : 2 ≤ (s.lanternAt chan).used ∨ s.demands chan (s.lanternAt chan).station = false) :
    exec (.lanternPass chan) s = .next (s.putLantern (lanternPassed s chan)) := by
  have hcells : chan < Config.cells := hc
  show execLanternPass chan s = _
  exact congrArg Host.Outcome.next (if_pos ⟨hcells, hsince, hused.imp_right fun h => by simp [h]⟩)

/-! ### The mesh (R216, R217) -/

/-- The router that a message enters, and the wake of the one two hops further on. -/
def routerEntered (s : State) (r : Nat) (l : List Nat) : State :=
  let s := s.putRouter { id := r, awake := true, wakeAt := 0, last := s.control }
  match l[1]? with
  | none => s
  | some q => s.wakeRouter q 2

theorem entered_routers (s : State) (r : Nat) (l : List Nat) : { routerEntered s r l with routers := s.routers } = s := by
  unfold routerEntered
  split
  · rfl
  next q _ =>
    have h := wakeRouter_routers (s.putRouter { id := r, awake := true, wakeAt := 0, last := s.control }) q 2
    exact congrArg (fun t : State => { t with routers := s.routers }) h

theorem routerAt_entered (s : State) (r : Nat) (l : List Nat) :
    (routerEntered s r l).routerAt r = { id := r, awake := true, wakeAt := 0, last := s.control } := by
  have h := routerAt_putRouter s { id := r, awake := true, wakeAt := 0, last := s.control }
  unfold routerEntered
  split
  · exact h
  · exact (routerAt_wakeRouter _ _ (by rw [h])).trans h

/-- A message's step changes the mesh alone. -/
theorem entered_frame (s : State) (r : Nat) (l : List Nat) (x : List MeshMsg) :
    { ({ routerEntered s r l with msgs := x } : State) with msgs := s.msgs, routers := s.routers } = s := by
  have h := congrArg (fun t : State => { t with msgs := s.msgs }) (entered_routers s r l)
  exact h

theorem entered_msgs (s : State) (r : Nat) (l : List Nat) : (routerEntered s r l).msgs = s.msgs := by
  have h := congrArg State.msgs (entered_routers s r l)
  exact h
theorem entered_control (s : State) (r : Nat) (l : List Nat) : (routerEntered s r l).control = s.control := by
  have h := congrArg State.control (entered_routers s r l)
  exact h

theorem meshHop_enters {s : State} {n r : Nat} {l : List Nat} {m : MeshMsg} (hm : s.msgs[n]? = some m) (hp : m.path = r :: l)
    (hr : m.ready ≤ s.control) (ho : s.routerOpen r = true) (hf : s.overtakes n m = false) :
    exec (.meshHop n) s = .next { routerEntered s r l with
      msgs := if l = [] then s.msgs.eraseIdx n else s.msgs.set n { m with path := l, ready := s.control + 3 } } := by
  have hgo : m.ready ≤ s.control ∧ s.routerOpen r = true ∧ (!s.overtakes n m) = true := ⟨hr, ho, by simp [hf]⟩
  have hshow : exec (.meshHop n) s = .next (if l.isEmpty then { routerEntered s r l with msgs := (routerEntered s r l).msgs.eraseIdx n }
      else { routerEntered s r l with
        msgs := (routerEntered s r l).msgs.set n { m with path := l, ready := (routerEntered s r l).control + 3 } }) := by
    show execMeshHop n s = _
    simp only [execMeshHop, hm, hp, if_pos hgo]
    rfl
  rw [hshow, entered_msgs, entered_control]
  cases l <;> rfl

theorem powerDown_sleeps {s : State} {r : Nat} (ha : (s.routerAt r).awake = true) (hl : (s.routerAt r).last + 512 ≤ s.control) :
    exec (.routerPowerDown r) s = .next (s.putRouter { s.routerAt r with awake := false, wakeAt := 0 }) := by
  show execRouterPowerDown r s = _
  exact congrArg Host.Outcome.next (if_pos (by simp [ha, hl]))

theorem routerWake_wakes {s : State} {r : Nat} (hs : s.settled r = true) (ha : (s.routerAt r).awake = false) (h0 : (s.routerAt r).wakeAt ≠ 0)
    (hw : (s.routerAt r).wakeAt ≤ s.control) :
    exec (.routerWake r) s = .next (s.putRouter { s.routerAt r with awake := true, wakeAt := 0, last := s.control }) := by
  show execRouterWake r s = _
  exact congrArg Host.Outcome.next (if_pos (by simp [State.routerOpen, hs, ha, h0, hw]))

/-! ### Tokens and the throttle (R218) -/

/-- The die of a unit that draws a token. -/
def tokenDrawn (unit : Nat) (d : Die) : Die :=
  { d with tokens := d.tokens - 1, waiting := d.waiting.filter (· != unit), settling := d.settling ++ [unit] }

/-- A unit that waits draws a token. -/
theorem tokenGrant_draws {s : State} {die unit : Nat} (ht : (s.dieAt die).tokens ≠ 0) (hw : unit ∈ (s.dieAt die).waiting) :
    exec (.tokenGrant die unit) s = .next (s.onDie die (tokenDrawn unit)) := by
  show execTokenGrant die unit s = _
  exact if_pos ⟨by simpa using hw, ht⟩

/-- The die of a unit that has settled: it has its token back. -/
def tokenReturned (unit : Nat) (d : Die) : Die := { d with tokens := d.tokens + 1, settling := d.settling.filter (· != unit) }

/-- The device when a unit has returned its token: a router among the units is awake. -/
def tokenGranted (s : State) (die unit : Nat) : State :=
  if unit < 80 then (s.onDie die (tokenReturned unit)).putRouter { id := 80 * die + unit, awake := true, wakeAt := 0, last := s.control }
  else s.onDie die (tokenReturned unit)

/-- A unit that has settled returns its token. -/
theorem tokenGrant_returns {s : State} {die unit : Nat} (hw : unit ∉ (s.dieAt die).waiting) (hs : unit ∈ (s.dieAt die).settling) :
    exec (.tokenGrant die unit) s = .next (tokenGranted s die unit) := by
  have hwait : (s.dieAt die).waiting.contains unit = false := by simpa using hw
  have hset : (s.dieAt die).settling.contains unit = true := by simpa using hs
  show execTokenGrant die unit s = _
  simp only [execTokenGrant, hwait, hset, Bool.false_eq_true, false_and, if_false, Bool.not_false, true_and, if_true]
  rfl

theorem throttleLift_lifts {s : State} {die : Nat} (h : s.overClaim die = false) :
    exec (.throttleLift die) s = .next (s.onDie die fun d => { d with throttle := false }) := by
  show execThrottleLift die s = _
  exact congrArg Host.Outcome.next (if_neg (by simp [h]))

/-- The claim of a die is that of its cores' queues, which no die holds. -/
theorem throttled_lifted {s : State} {die : Nat} (h : s.overClaim die = false) :
    (s.onDie die fun d => { d with throttle := false }).throttled die = false := by
  have hclaim : (s.onDie die fun d => { d with throttle := false }).overClaim die = false := h
  simp only [State.throttled, hclaim, State.dieAt_onDie, Bool.false_and, Bool.or_false]

/-! ### The die bridge (R391 to R393) -/

/-- A transfer has left the bridge. -/
def crossed (s : State) (n : Nat) : State := { s with bridge := s.bridge.eraseIdx n }

theorem crossChan_none {s : State} {b : Crossing} (hl : ∀ core id, b.load ≠ .packet core id) : s.crossChan b = none := by
  unfold State.crossChan
  split
  next core id h => exact absurd h (hl core id)
  · rfl

/-- A reply has crossed: it stands last among those that wait for its cell's receive channel. -/
def replyCrossed (s : State) (n : Nat) (b : Crossing) (core id : Nat) : State :=
  { (((crossed s n).onDie (1 - b.die) fun d => { d with recvAt := s.control + 1 }).onGroup core id fun g => { g with nth := s.serial }) with
    serial := s.serial + 1 }

theorem replyCrossed_frame (s : State) (n : Nat) (b : Crossing) (core id : Nat) :
    { replyCrossed s n b core id with dies := s.dies, cores := s.cores, serial := s.serial } = crossed s n := by
  unfold replyCrossed crossed
  rfl

theorem replyCrossed_recvAt (s : State) (n : Nat) (b : Crossing) (core id : Nat) :
    ((replyCrossed s n b core id).dieAt (1 - b.die)).recvAt = s.control + 1 :=
  congrArg Die.recvAt (State.dieAt_onDie (crossed s n) (1 - b.die) fun d => { d with recvAt := s.control + 1 })

theorem replyCrossed_coreAt (s : State) (n : Nat) (b : Crossing) (core id i : Nat) :
    (replyCrossed s n b core id).coreAt i = (s.onGroup core id fun g => { g with nth := s.serial }).coreAt i := rfl

/-- A core after an effect that leaves it its number. -/
theorem coreAt_onCore_of_id {s : State} {i : Nat} {f : Core → Core} (h : (f (s.coreAt i)).id = i) : (s.onCore i f).coreAt i = f (s.coreAt i) := by
  rw [State.coreAt_onCore]
  generalize f (s.coreAt i) = c at h
  subst h
  rfl

theorem coreAt_onGroup_other (s : State) {core i : Nat} (id : Nat) (f : Machine.Group → Machine.Group) (h : i ≠ core) :
    (s.onGroup core id f).coreAt i = s.coreAt i := State.coreAt_onCore_other _ _ _ _ h

theorem coreAt_onGroup (s : State) (core id : Nat) (f : Machine.Group → Machine.Group) : (s.onGroup core id f).coreAt core =
    { s.coreAt core with coll := (s.coreAt core).coll.map fun g => if g.id = id then f g else g } :=
  coreAt_onCore_of_id (coreAt_id s core)

section Bridge
variable {s : State} {n : Nat} {b : Crossing} (hb : s.bridge[n]? = some b)
include hb

/-- A packet whose channel's lantern is at the bridge port. -/
theorem bridgeTransfer_sends {k : Nat} (hq : s.queuedBehind n b = false) (hk : s.crossChan b = some k) (hh : s.holds k 80 = true) :
    exec (.bridgeTransfer n) s = .next ((crossed s n).usedLantern k) := by
  show execBridgeTransfer n s = _
  simp only [execBridgeTransfer, hb, hq, hk, hh, Bool.false_eq_true, if_false, if_true]
  rfl

/-- A reply for whose die the receive channel of the port is free. -/
theorem bridgeTransfer_replies {core id : Nat} (hq : s.queuedBehind n b = false) (hl : b.load = .packet core id) (hk : s.crossChan b = none)
    (hr : (s.dieAt (1 - b.die)).recvAt ≤ s.control) :
    exec (.bridgeTransfer n) s = .next
      (replyCrossed s n b core id) := by
  show execBridgeTransfer n s = _
  simp only [execBridgeTransfer, hb, hq, hk, hl, if_pos hr, Bool.false_eq_true, if_false]
  rfl

theorem bridgeTransfer_access {core : Nat} {va : W64} (hq : s.queuedBehind n b = false) (hl : b.load = .access core va) :
    exec (.bridgeTransfer n) s = .next ((crossed s n).accessCrossed core va false) := by
  have hk : s.crossChan b = none := crossChan_none (by simp [hl])
  show execBridgeTransfer n s = _
  simp only [execBridgeTransfer, hb, hq, hk, hl, Bool.false_eq_true, if_false]
  rfl

theorem bridgeTransfer_walk {die page : Nat} {root : W64} (hq : s.queuedBehind n b = false) (hl : b.load = .walk die root page) :
    exec (.bridgeTransfer n) s = .next ((crossed s n).endWalk die root page false) := by
  have hk : s.crossChan b = none := crossChan_none (by simp [hl])
  show execBridgeTransfer n s = _
  simp only [execBridgeTransfer, hb, hq, hk, hl, Bool.false_eq_true, if_false]
  rfl

theorem bridgeTransfer_other (hq : s.queuedBehind n b = false) (hp : ∀ core id, b.load ≠ .packet core id)
    (hw : ∀ die root page, b.load ≠ .walk die root page) (ha : ∀ core va, b.load ≠ .access core va) :
    exec (.bridgeTransfer n) s = .next (crossed s n) := by
  have hk : s.crossChan b = none := crossChan_none hp
  show execBridgeTransfer n s = _
  simp only [execBridgeTransfer, hb, hq, hk, Bool.false_eq_true, if_false]
  rfl

theorem bridgeCrcFail_again (h : b.attempts + 1 < 16) :
    exec (.bridgeCrcFail n) s = .next { s with bridge := s.bridge.set n { b with attempts := b.attempts + 1 } } := by
  show execBridgeCrcFail n s = _
  simp only [execBridgeCrcFail, hb, if_pos h]

theorem bridgeCrcFail_loses (h : 16 ≤ b.attempts + 1) :
    exec (.bridgeCrcFail n) s = .next ((crossed s n).loseLoad b.load) := by
  show execBridgeCrcFail n s = _
  simp only [execBridgeCrcFail, hb, if_neg (Nat.not_lt.2 h)]
  rfl

end Bridge

/-! ### A transfer that is lost (R393) -/

theorem onQueue_aon (s : State) (r : EngRef) (f : List Cmd → List Cmd) : (s.onQueue r f).aon = s.aon := by
  cases hr : r.eng <;> simp only [State.onQueue, hr] <;> rfl

/-- A queue after an effect on its commands. -/
theorem queueOf_onQueue (s : State) (r : EngRef) (f : List Cmd → List Cmd) : (s.onQueue r f).queueOf r = f (s.queueOf r) := by
  cases hr : r.eng with
  | matrix k | stack k =>
    simp only [State.onQueue, State.queueOf, hr, State.coreAt_onCore]
    exact congrArg (fun x : Machine.Section => _) (sectAt_onSect (s.coreAt r.core) k _)
  | fabric => simp only [State.onQueue, State.queueOf, hr, State.dieAt_onDie]
  | grinder => simp only [State.onQueue, State.queueOf, hr, State.cellAt_onCell]
  | _ => simp only [State.onQueue, State.queueOf, hr, State.coreAt_onCore]

theorem walkEnd_aon (s : State) (die ten : Nat) (root : W64) (page : Nat) : (s.walkEnd die ten root page).1.aon = s.aon := by
  simp only [State.walkEnd]
  split
  · rfl
  · split
    · split <;> rfl
    · rfl

theorem settleLoads_held (s : State) (l : List Nat) : Held s (l.foldl (fun s a => s.settle (.mem a) 8) s) :=
  .foldl l fun _ _ => settle_held _ _

theorem endWalk_aon (s : State) (die : Nat) (root : W64) (page : Nat) (lost : Bool) : (s.endWalk die root page lost).aon = s.aon := by
  have hsettled := (settleLoads_held s (s.walkLoads die root page)).aon
  cases lost with
  | true =>
    simp only [State.endWalk, if_true]
    exact hsettled
  | false =>
    simp only [State.endWalk, Bool.false_eq_true, if_false, walkEnd_aon]
    exact hsettled

/-- The record of kind 2 that a lost transfer leaves. -/
theorem sump_last (s : State) (kind die ten unit sub : Nat) (a b : W64) :
    (s.sump kind die ten unit sub a b).aon.sump.getLast? = some { time := s.sumpTime, kind, die, ten, unit, sub, a, b } := record_last ..

/-- The view of a thread after an effect on it that leaves it its %tid. -/
theorem view?_onThread_th {s : State} {core : Nat} {x : W32} {f : View → View} {v : View} (hf : ∀ v, (f v).th.ident.tid = v.th.ident.tid)
    (h : s.view? core x = some v) : ∃ w, (s.onThread core x f).view? core x = some w ∧ w.th = (f v).th := by
  have hx := tid_of_view? h
  simp only [State.view?, State.onThread, State.onTids, State.coreAt_onCore, Core.onCrew] at h ⊢
  cases hc : (s.coreAt core).crew with
  | none => simp [hc] at h
  | some c =>
    simp only [hc] at h
    obtain ⟨t, ht, rfl⟩ := Option.map_eq_some_iff.1 h
    simp only [Option.map_some, byTid_onThreads c _ hf, ht]
    exact ⟨_, rfl, if_pos (by simpa using hx)⟩

/-- A thread with other results pending. -/
def withPending (l : List Pending) (t : Thread) : Thread := { t with pending := l }

theorem put_withPending (v : View) (l : List Pending) (d : Dst) (r : Reg) :
    (v.onTh (withPending l)).put d r = (v.put d r).onTh (withPending l) := by
  cases d <;> rfl

theorem putMarked_withPending (v : View) (l : List Pending) (m : Mark) (ds : List Dst) (xs : List W32) :
    (v.onTh (withPending l)).putMarked m ds xs = (v.putMarked m ds xs).onTh (withPending l) := by
  induction ds generalizing v xs with
  | nil => rfl
  | cons d ds ih =>
    cases xs with
    | nil => rfl
    | cons x xs => rw [View.putMarked, put_withPending, ih, View.putMarked]

theorem putMarked_ident (v : View) (m : Mark) (ds : List Dst) (xs : List W32) : (v.putMarked m ds xs).th.ident = v.th.ident := by
  induction ds generalizing v xs with
  | nil => rfl
  | cons d ds ih =>
    cases xs with
    | nil => rfl
    | cons x xs =>
      rw [View.putMarked, ih]
      cases d <;> rfl

theorem land_ident (v : View) (p : Pending) : (v.land p).th.ident = v.th.ident := by
  unfold View.land
  split
  · rfl
  · exact putMarked_ident ..

/-- What lands besides the pending results does not depend on them. -/
theorem land_withPending (v : View) (l m : List Pending) (p : Pending) (h : (l.filter fun q => q.id != p.id) = m.filter fun q => q.id != p.id) :
    (v.onTh (withPending l)).land p = (v.onTh (withPending m)).land p := by
  cases hv : p.vals with
  | none =>
    simp only [View.land, hv]
    simp only [View.onTh, withPending, h]
  | some xs =>
    simp only [View.land, hv, putMarked_withPending]
    simp only [View.onTh, withPending, h]

/-- A request's pending result, marked as lost: its destination keeps its words. -/
def lostPending (v : View) (r : Req) (p : Pending) : Pending := { p with vals := some (p.dst.map fun d => (v.get d).val), mark := .load r.va }

/-- The results of a thread when the one of a number is marked so. -/
def lostPendings (v : View) (r : Req) (id : Nat) : List Pending := v.th.pending.map fun p => if p.id = id then lostPending v r p else p

theorem filter_lostPendings (v : View) (r : Req) (id : Nat) :
    ((lostPendings v r id).filter fun q => q.id != id) = v.th.pending.filter fun q => q.id != id := by
  unfold lostPendings
  induction v.th.pending with
  | nil => rfl
  | cons p l ih =>
    by_cases hp : p.id = id
    · simpa [hp, lostPending] using ih
    · simpa [hp] using ih

theorem find_lostPendings (v : View) (r : Req) (id : Nat) :
    ((lostPendings v r id).find? fun q => q.id == id) = (v.th.pending.find? fun q => q.id == id).map (lostPending v r) := by
  unfold lostPendings
  induction v.th.pending with
  | nil => rfl
  | cons p l ih =>
    by_cases hp : p.id = id
    · simp [hp, lostPending]
    · simpa [hp] using ih

/-- What the reply of one load does to its thread. -/
def landOne (id : Nat) (v : View) : View :=
  match v.th.pending.find? fun p => p.id == id with
  | none => v
  | some p => v.land p

theorem landOne_ident (id : Nat) (v : View) : (landOne id v).th.ident = v.th.ident := by
  unfold landOne
  split
  · rfl
  · exact land_ident ..

theorem landReqs_load {s : State} {core : Nat} {r : Req} {id : Nat} (hp : r.pend = some id) (hl : r.isLoad = true) :
    s.landReqs core [r] = s.onThread core r.tid (landOne id) := by
  have hldf : r.isLdf = false := by
    cases hop : r.op <;> simp_all [Req.isLoad, Req.isLdf]
  simp only [State.landReqs, List.foldl_cons, List.foldl_nil, hp, hldf, Bool.false_eq_true, if_false]
  rfl

theorem markReq_some {s : State} {core : Nat} {r : Req} {id : Nat} (hp : r.pend = some id) :
    s.markReq core r = s.onThread core r.tid fun v => v.onTh (withPending (lostPendings v r id)) := by
  simp only [State.markReq, hp]
  rfl

/-- A group of one load that is lost. -/
theorem loseGroup_load {s : State} {core : Nat} {g : Group} {r : Req} (hg : g.reqs = [r]) (hd : g.done = 0) (hl : r.isLoad = true) :
    s.loseGroup core g = (s.markReq core r).landReqs core [r] := by
  simp only [State.loseGroup, Group.left, hg, hd, List.drop_zero, List.zipIdx_singleton, List.foldl_cons, List.foldl_nil, hl,
    Bool.not_true, Bool.false_and, Bool.false_eq_true, if_false]

/-- Its thread takes the mark with the words that stood at the destination. -/
theorem loseGroup_view {s : State} {core id : Nat} {g : Group} {r : Req} {v : View} {p : Pending} (hg : g.reqs = [r]) (hd : g.done = 0)
    (hl : r.isLoad = true) (hp : r.pend = some id) (hv : s.view? core r.tid = some v) (hf : (v.th.pending.find? fun p => p.id == id) = some p) :
    ∃ w, (s.loseGroup core g).view? core r.tid = some w ∧ w.th = (v.land (lostPending v r p)).th := by
  have hid : p.id = id := by simpa using List.find?_some hf
  have hmark := view?_onThread (f := fun v => v.onTh (withPending (lostPendings v r id))) (fun _ => rfl) (fun _ => rfl) hv
  obtain ⟨w, hw, hth⟩ := view?_onThread_th (f := landOne id) (fun v => congrArg (·.tid) (landOne_ident id v)) hmark
  refine ⟨w, by rw [loseGroup_load hg hd hl, markReq_some hp, landReqs_load hp hl]; exact hw, hth.trans (congrArg View.th ?_)⟩
  have hfind : ((lostPendings v r id).find? fun q => q.id == id) = some (lostPending v r p) := by rw [find_lostPendings, hf]; rfl
  calc landOne id (v.onTh (withPending (lostPendings v r id)))
      = (v.onTh (withPending (lostPendings v r id))).land (lostPending v r p) := by
        simp only [landOne, View.onTh, withPending, hfind]
    _ = (v.onTh (withPending v.th.pending)).land (lostPending v r p) := land_withPending _ _ _ _ (by rw [show (lostPending v r p).id = id from hid]; exact filter_lostPendings v r id)

/-- The state that a lost transfer of a line group leaves. -/
theorem loseLoad_group {s : State} {l : Load} {core id : Nat} {g : Group} (hl : l = .packet core id ∨ ∃ x y, l = .mesh x y (some (core, id)))
    (hg : ((s.coreAt core).coll.find? fun x => x.id == id) = some g) :
    s.loseLoad l = (((s.sump 2 (dieOfCore core) (s.coreAt core).ten core 1 ((g.reqs.head?.map fun r => r.va).getD 0#64) 1#64).endGroup
      core g.id).loseGroup core g).settleEnd core := by
  rcases hl with rfl | ⟨x, y, rfl⟩ <;> simp only [State.loseLoad, hg]

/-- The record of a command's lost transfer. -/
theorem loseLoad_cmd_record (s : State) (r : EngRef) (id : Nat) (va : W64) :
    ((s.loseLoad (.cmd r id va)).aon.sump.getLast?.map fun x => (x.kind, x.a)) = some (2, va) := by
  simp only [State.loseLoad, State.onCmd, onQueue_aon, sump_last, Option.map_some]

theorem loseLoad_cmd_queue (s : State) (r : EngRef) (id : Nat) (va : W64) :
    (s.loseLoad (.cmd r id va)).queueOf r = (s.queueOf r).map fun c => if c.id = id then { c with lost := true } else c := by
  simp only [State.loseLoad, State.onCmd, queueOf_onQueue]
  rfl

/-- The record of the other transfers. -/
theorem loseLoad_record (s : State) {l : Load} (hl : (∃ x y, l = .mesh x y none) ∨ (∃ die root page, l = .walk die root page) ∨
    (∃ ten q seq, l = .cp ten q seq) ∨ ∃ core va, l = .access core va) :
    ((s.loseLoad l).aon.sump.getLast?.map fun x => x.kind) = some 2 := by
  rcases hl with ⟨x, y, rfl⟩ | ⟨die, root, page, rfl⟩ | ⟨ten, q, seq, rfl⟩ | ⟨core, va, rfl⟩
  · simp only [State.loseLoad, sump_last, Option.map_some]
  · simp only [State.loseLoad, endWalk_aon, sump_last, Option.map_some]
  · simp only [State.loseLoad, sump_last, Option.map_some]
  · simp only [State.loseLoad, State.accessCrossed, State.onCore_aon, sump_last, Option.map_some]

/-- A command that is lost ends with STATUS 2. -/
theorem complete_lost {s : State} {r : EngRef} {c : Cmd} (hl : c.lost = true) (hop : c.op ≠ .tdBwd) :
    ∃ n, s.complete r c = (s.settleTables c.ctx.ptbase).finishCmd r c n 2 := by
  have hlost : s.complete r c = (s.settleTables c.ctx.ptbase).finishLost r c := by simp only [State.complete, hl, if_true]
  rw [hlost]
  simp only [State.finishLost, hop, false_and, if_false]
  exact ⟨_, rfl⟩

theorem tokenDrawn_die {s : State} {die unit : Nat} (ht : (s.dieAt die).tokens ≠ 0) :
    let d := (s.onDie die (tokenDrawn unit)).dieAt die
    d.tokens + 1 = (s.dieAt die).tokens ∧ unit ∉ d.waiting ∧ unit ∈ d.settling := by
  simp only [State.dieAt_onDie, tokenDrawn]
  exact ⟨Nat.sub_add_cancel (Nat.pos_of_ne_zero ht), by simp, by simp⟩

theorem tokenGranted_frame (s : State) (die unit : Nat) : { tokenGranted s die unit with dies := s.dies, routers := s.routers } = s := by
  unfold tokenGranted
  split <;> rfl

theorem tokenGranted_die (s : State) (die unit : Nat) : (tokenGranted s die unit).dieAt die = { tokenReturned unit (s.dieAt die) with id := die } := by
  rw [← State.dieAt_onDie]
  unfold tokenGranted
  split <;> rfl

theorem tokenGranted_router (s : State) (die : Nat) {unit : Nat} (h : unit < 80) :
    ((tokenGranted s die unit).routerAt (80 * die + unit)).awake = true := by
  rw [tokenGranted, if_pos h]
  exact congrArg Router.awake (routerAt_putRouter _ { id := 80 * die + unit, awake := true, wakeAt := 0, last := s.control })

/-- Settles O48: each step of a wire by what it writes. -/
theorem wiresMove : Obligations.WiresMove := by
  refine ⟨?lantern, ?hop, ?sleep, ?wake, fun s die unit => ⟨?draw, ?giveBack⟩, ?lift, ?bridge, ?lostLoad, ?lostCmd⟩
  case lantern =>
    intro s chan hc hsince hused
    exact ⟨_, lanternPass_passes s chan hc hsince hused, rfl, lanternAt_putLantern s (lanternPassed s chan),
      fun _ hne => lanternAt_putLantern_other s (lanternPassed s chan) hne⟩
  case hop =>
    intro s n r l m hm hp hr ho hf
    exact ⟨_, meshHop_enters hm hp hr ho hf, entered_frame s r l _, rfl, congrArg Router.awake (routerAt_entered s r l),
      congrArg Router.last (routerAt_entered s r l)⟩
  case sleep =>
    intro s r ha hl
    exact ⟨_, powerDown_sleeps ha hl, rfl, congrArg Router.awake (routerAt_put_same s (by exact routerAt_id s r))⟩
  case wake =>
    intro s r hs ha h0 hw
    exact ⟨_, routerWake_wakes hs ha h0 hw, rfl, congrArg Router.awake (routerAt_put_same s (by exact routerAt_id s r))⟩
  case draw =>
    intro ht hw
    exact ⟨_, tokenGrant_draws ht hw, rfl, tokenDrawn_die ht⟩
  case giveBack =>
    intro hw hs
    exact ⟨_, tokenGrant_returns hw hs, tokenGranted_frame s die unit, by rw [tokenGranted_die]; rfl,
      by rw [tokenGranted_die]; simp [tokenReturned], tokenGranted_router s die⟩
  case lift =>
    intro s die h
    exact ⟨_, throttleLift_lifts h, rfl, by rw [State.dieAt_onDie], throttled_lifted h⟩
  case bridge =>
    intro s n b hb
    refine ⟨fun hq => ⟨fun k hk hh => ?_, fun core id hl hk hr => ?_, fun _ _ => bridgeTransfer_access hb hq,
      fun _ _ _ => bridgeTransfer_walk hb hq, bridgeTransfer_other hb hq⟩, bridgeCrcFail_again hb, fun hlost => ?_⟩
    · exact ⟨_, bridgeTransfer_sends hb hq hk hh, rfl, congrArg Lantern.used (lanternAt_usedLantern (crossed s n) k)⟩
    · exact ⟨_, bridgeTransfer_replies hb hq hl hk hr, replyCrossed_frame s n b core id, replyCrossed_recvAt s n b core id,
        fun i hi => (replyCrossed_coreAt s n b core id i).trans (coreAt_onGroup_other s id _ hi),
        (replyCrossed_coreAt s n b core id core).trans (coreAt_onGroup s core id _)⟩
    · have hloses := bridgeCrcFail_loses hb hlost
      exact ⟨fun _ _ _ hl hg => hloses.trans (congrArg Host.Outcome.next (loseLoad_group (s := crossed s n) hl hg)),
        fun r id va hl => ⟨_, hl ▸ hloses, loseLoad_cmd_record (crossed s n) r id va, loseLoad_cmd_queue (crossed s n) r id va⟩,
        fun hl => ⟨_, hloses, loseLoad_record (crossed s n) hl⟩⟩
  case lostLoad =>
    intro s core id g r v p hg hd hl hp hv hf
    exact ⟨loseGroup_view hg hd hl hp hv hf, fun _ => ⟨_, rfl, rfl, rfl, rfl⟩⟩
  case lostCmd => exact fun s r c => complete_lost

end Sys2Proof.Proofs
end

section
/-! PROOFS. Bypass entries, program timestamps and the end of a page walk (R204, R207, R364, R391). -/

namespace Sys2Proof.Proofs
open Sys2Proof Sys2Proof.Machine

/-! ### Timestamps (R204, R207) -/

/-- The timestamp that a bypass entry leaves behind: its own, or that of its line at its home. -/
def entryRts (s : State) (b : Bypass) : Nat := max b.rts (((s.home.find? fun x => x.line == b.line).map (·.rts)).getD 0)

/-- The device without a bypass entry, whose line is resident no longer. -/
def entryFreed (s : State) (slice entry : Nat) (b : Bypass) : State :=
  let s' := s.onSlice slice fun c => { c with bypass := c.bypass.eraseIdx entry, memTs := max c.memTs (entryRts s b) }
  { s' with home := s.home.filter fun x => x.line != b.line }

theorem bypassEntryFree_frees {s : State} {slice entry : Nat} {b : Bypass} (he : (s.sliceAt slice).bypass[entry]? = some b)
    (hf : b.freeAt ≤ s.control) (hb : s.begun b.line = false) : exec (.bypassEntryFree slice entry) s = .next (entryFreed s slice entry b) := by
  have hgo : ¬(s.control < b.freeAt ∨ s.begun b.line = true) := by simp [hb, hf]
  show execBypassEntryFree slice entry s = _
  simp only [execBypassEntryFree, he, if_neg hgo]
  rfl

theorem entryFreed_slice (s : State) (slice entry : Nat) (b : Bypass) : (entryFreed s slice entry b).sliceAt slice =
    { s.sliceAt slice with id := slice, bypass := (s.sliceAt slice).bypass.eraseIdx entry,
                           memTs := max (s.sliceAt slice).memTs (entryRts s b) } :=
  State.sliceAt_onSlice s slice fun c => { c with bypass := c.bypass.eraseIdx entry, memTs := max c.memTs (entryRts s b) }

theorem entryFreed_home (s : State) (slice entry : Nat) (b : Bypass) : ∀ x ∈ (entryFreed s slice entry b).home, x.line ≠ b.line := by
  intro x hx
  simpa using (List.mem_filter.1 hx).2

/-- Every core with one more on its timestamp, one that is not listed among them. -/
theorem ptsAdvance_pts (s : State) : ∃ t, exec .ptsAdvance s = .next t ∧ ∀ i, (t.coreAt i).pts = (s.coreAt i).pts + 1 := by
  refine ⟨_, rfl, fun i => ?_⟩
  simp only [State.coreAt, List.find?_map, Function.comp_def]
  cases s.cores.find? fun c => c.id == i <;> rfl

/-! ### The end of a walk (R364, R391) -/

/-- Whether a thread of a core joined a walk: its earlier accesses are performed. -/
def joinsWalk (root : W64) (page : Nat) (c : Core) (t : Thread) : Bool := t.status == .parked (.walk root page) && !c.outstanding t.ident.tid

/-- Whether a core of a die has such a thread. -/
def awaitsWalk (die : Nat) (root : W64) (page : Nat) (c : Core) : Bool :=
  dieOfCore c.id == die && (match c.crew with
    | none => false
    | some k => k.all.any (joinsWalk root page c))

/-- The tenancy for which a walk is judged. -/
def walkTen (s : State) (die : Nat) (root : W64) (page : Nat) : Nat := ((s.cores.find? (awaitsWalk die root page)).map (·.ten)).getD 0

/-- A walk's entries with the terms held for them settled (R240). -/
def walkSettled (s : State) (die : Nat) (root : W64) (page : Nat) : State :=
  (s.walkLoads die root page).foldl (fun s a => s.settle (.mem a) 8) s

/-- A core's L1 TLB and the threads that joined a walk take what it found. -/
def walkTaken (s : State) (die : Nat) (root : W64) (page : Nat) (f : Found) (c : Core) : Core :=
  if awaitsWalk die root page c then
    (c.fillTlb root page f (s.tenAt c.ten).doms s.dev).onCrew fun k =>
      k.onThreads (joinsWalk root page c) fun v => v.onTh fun t => t.takeWalk root page f
  else c

/-- What a walk that is not lost ends with. -/
def walkResult (s : State) (die : Nat) (root : W64) (page : Nat) : State × Found :=
  (walkSettled s die root page).walkEnd die (walkTen s die root page) root page

/-- The device when every core of the die has taken a result. -/
def walkDone (s : State) (die : Nat) (root : W64) (page : Nat) (f : Found) : State :=
  { s with cores := s.cores.map (walkTaken s die root page f) }

theorem endWalk_result (s : State) (die : Nat) (root : W64) (page : Nat) : s.endWalk die root page false =
    walkDone (walkResult s die root page).1 die root page (walkResult s die root page).2 := by
  simp only [State.endWalk, Bool.false_eq_true, if_false]
  rfl

section Walk
variable {s : State} {n die page : Nat} {root : W64}

/-- A walk that waits in the list is one that a core awaits. -/
theorem awaitsWalk_of_walks (h : s.walks[n]? = some (die, root, page)) : ∃ c ∈ s.cores, awaitsWalk die root page c = true := by
  have hmem := List.mem_of_getElem? h
  simp only [State.walks, List.mem_eraseDups, List.mem_flatMap] at hmem
  obtain ⟨c, hc, hw⟩ := hmem
  refine ⟨c, hc, ?_⟩
  split at hw
  · simp at hw
  next k hk =>
    obtain ⟨t, ht, hjoin⟩ := List.mem_filterMap.1 hw
    split at hjoin
    next root' page' hst =>
      split at hjoin
      · cases hjoin
      next ho =>
        obtain ⟨rfl, rfl, rfl⟩ : dieOfCore c.id = die ∧ root' = root ∧ page' = page := by simpa using hjoin
        simp only [awaitsWalk, hk, BEq.rfl, Bool.true_and, List.any_eq_true]
        exact ⟨t, ht, by simp [joinsWalk, hst, ho]⟩
    · cases hjoin

theorem walkTen_of_all (h : s.walks[n]? = some (die, root, page)) {ten : Nat} (hten : ∀ c ∈ s.cores, c.ten = ten) :
    walkTen s die root page = ten := by
  obtain ⟨c, hc, haw⟩ := awaitsWalk_of_walks h
  unfold walkTen
  cases hf : s.cores.find? (awaitsWalk die root page) with
  | none => exact absurd haw (by simpa using List.find?_eq_none.1 hf c hc)
  | some d => exact hten d (List.mem_of_find?_eq_some hf)

/-- What the walk finds where the shared TLB has no entry of the page. -/
theorem walkEnd_found (s : State) (die ten : Nat) (root : W64) (page : Nat)
    (h : ((s.sliceAt (tlbSlice die page)).tlb.find? fun e => e.root == root && e.page == page) = none) :
    (s.walkEnd die ten root page).2 = s.walk ten root (BitVec.ofNat 64 (page * 65536)) := by
  simp only [State.walkEnd, h]
  split
  next pte lvl hw => split <;> exact hw.symm
  · dsimp only

theorem walkEnd_core (s : State) (die ten : Nat) (root : W64) (page i : Nat) :
    (s.walkEnd die ten root page).1.coreAt i = s.coreAt i := by
  simp only [State.walkEnd]
  split
  · rfl
  · split
    · split <;> rfl
    · rfl

theorem walkResult_held (s : State) (die : Nat) (root : W64) (page i : Nat) :
    CoreHeld (s.coreAt i) ((walkResult s die root page).1.coreAt i) := by
  rw [walkResult, walkEnd_core]
  exact (settleLoads_held s _).core i

/-- A core with a crew, after an effect on every listed core that leaves each its number. -/
theorem coreAt_mapCores {s : State} {i : Nat} {f : Core → Core} (hid : ∀ c, (f c).id = c.id) {k : Crew} (hk : (s.coreAt i).crew = some k) :
    ({ s with cores := s.cores.map f } : State).coreAt i = f (s.coreAt i) := by
  have hp : (fun c : Core => c.id == i) ∘ f = fun c => c.id == i := by
    funext c
    simp [hid]
  simp only [State.coreAt, List.find?_map, hp] at hk ⊢
  cases h : s.cores.find? fun c => c.id == i with
  | none =>
    rw [h] at hk
    cases hk
  | some c => rfl

theorem fillTlb_crew (c : Core) (root : W64) (page : Nat) (f : Found) (doms : List Nat) (dev : Nat) :
    (c.fillTlb root page f doms dev).crew = c.crew ∧ (c.fillTlb root page f doms dev).id = c.id := by
  unfold Core.fillTlb
  split
  · split <;> exact ⟨rfl, rfl⟩
  · exact ⟨rfl, rfl⟩

theorem walkTaken_id (s : State) (die : Nat) (root : W64) (page : Nat) (f : Found) (c : Core) : (walkTaken s die root page f c).id = c.id := by
  unfold walkTaken
  split
  · exact (fillTlb_crew ..).2
  · rfl

theorem threads_onThreads (k : Crew) (p : Thread → Bool) (g : Thread → Thread) :
    (k.onThreads p fun v => v.onTh g).threads = k.threads.map fun t => if p t then g t else t := by
  simp only [Crew.onThreads]
  split <;> rfl

/-- A thread that joined takes the result of its walk. -/
theorem walkTaken_thread {c : Core} {k : Crew} {x : Thread} (f : Found) (hd : dieOfCore c.id = die) (hk : c.crew = some k) (hx : x ∈ k.threads)
    (hs : x.status = .parked (.walk root page)) (ho : c.outstanding x.ident.tid = false) :
    ∃ d, (walkTaken s die root page f c).crew = some d ∧ { x with status := .runnable, walked := (page, f) :: x.walked } ∈ d.threads := by
  have hjoin : joinsWalk root page c x = true := by simp [joinsWalk, hs, ho]
  have haw : awaitsWalk die root page c = true := by
    simp only [awaitsWalk, hk, hd, BEq.rfl, Bool.true_and, List.any_eq_true]
    exact ⟨x, List.mem_append_left _ hx, hjoin⟩
  have hcrew := (fillTlb_crew c root page f (s.tenAt c.ten).doms s.dev).1.trans hk
  refine ⟨k.onThreads (joinsWalk root page c) fun v => v.onTh fun t => t.takeWalk root page f, ?_, ?_⟩
  · rw [walkTaken, if_pos haw, Core.onCrew, hcrew]
    rfl
  · have hmem : (if joinsWalk root page c x then x.takeWalk root page f else x) ∈
        (k.onThreads (joinsWalk root page c) fun v => v.onTh fun t => t.takeWalk root page f).threads := by
      rw [threads_onThreads]
      exact List.mem_map_of_mem (f := fun t => if joinsWalk root page c t then t.takeWalk root page f else t) hx
    rwa [if_pos hjoin, Thread.takeWalk, if_pos hs] at hmem

theorem walkResult_found (hn : s.walks[n]? = some (die, root, page)) {ten : Nat} (hten : ∀ c ∈ s.cores, c.ten = ten)
    (htlb : ((s.sliceAt (tlbSlice die page)).tlb.find? fun e => e.root == root && e.page == page) = none) :
    (walkResult s die root page).2 = (walkSettled s die root page).walk ten root (BitVec.ofNat 64 (page * 65536)) := by
  rw [walkResult, walkTen_of_all hn hten]
  refine walkEnd_found _ _ _ _ _ ?_
  rw [walkSettled, (settleLoads_held s _).tlb]
  exact htlb

/-- Every thread that joined goes on with what the walk found. -/
theorem endWalk_thread {i : Nat} {c : Crew} {x : Thread} (hc : (s.coreAt i).crew = some c) (hd : dieOfCore i = die) (hx : x ∈ c.threads)
    (hs : x.status = .parked (.walk root page)) (ho : (s.coreAt i).outstanding x.ident.tid = false) :
    ∃ d, ((s.endWalk die root page false).coreAt i).crew = some d ∧
      { x with status := .runnable, walked := (page, (walkResult s die root page).2) :: x.walked } ∈ d.threads := by
  have hheld := walkResult_held s die root page i
  obtain ⟨l, hl, hlanes⟩ := hheld.crew hc
  have hthreads : l.threads = c.threads := congrArg Prod.snd hlanes
  have hout : ((walkResult s die root page).1.coreAt i).outstanding x.ident.tid = false := by rwa [Core.outstanding, hheld.coll]
  rw [endWalk_result, walkDone, coreAt_mapCores (walkTaken_id _ die root page _) hl]
  exact walkTaken_thread _ (by rwa [coreAt_id]) hl (hthreads ▸ hx) hs hout

/-! ### The walkers of a die -/

section Complete
variable (hn : s.walks[n]? = some (die, root, page)) (h32 : n < 32) (hrepair : ∀ a ∈ s.walkLoads die root page, s.underRepair (.mem a) = false)
  (hbridge : ∀ b ∈ s.bridge, b.load ≠ .walk die root page)
include hn h32 hrepair hbridge

/-- A walk that has a walker, reads no row under repair and has no transfer on the bridge ends, or crosses. -/
theorem walkComplete_step : exec (.walkComplete n) s = .next (if (s.walkLoads die root page).any fun a => sliceOfPhys a / 80 != die then
    s.cross (.walk die root page) (1 - die) else s.endWalk die root page false) := by
  have hwalkers : ¬(((s.walks.take n).filter fun w => w.1 == die).length ≥ 32 ∨
      ((s.walkLoads die root page).any fun a => s.underRepair (.mem a)) = true) := by
    have hlen := (List.length_filter_le (fun w : Nat × W64 × Nat => w.1 == die) (s.walks.take n)).trans (List.length_take_le n s.walks)
    rw [not_or, List.any_eq_true]
    refine ⟨by omega, ?_⟩
    rintro ⟨a, ha, hr⟩
    rw [hrepair a ha] at hr
    cases hr
  have hfree : (s.bridge.any fun b => b.load == .walk die root page) = false := by
    simp only [List.any_eq_false, beq_iff_eq]
    exact hbridge
  show execWalkComplete n s = _
  simp only [execWalkComplete, hn, if_neg hwalkers, hfree, Bool.false_eq_true, if_false]
  split <;> rfl

theorem walkComplete_crosses (hfar : ∃ a ∈ s.walkLoads die root page, sliceOfPhys a / 80 ≠ die) :
    exec (.walkComplete n) s = .next { s with bridge := s.bridge ++ [{ load := .walk die root page, die := 1 - die, attempts := 0 }] } := by
  rw [walkComplete_step hn h32 hrepair hbridge]
  exact congrArg Host.Outcome.next (if_pos (by simpa using hfar))

theorem walkComplete_ends (hnear : ∀ a ∈ s.walkLoads die root page, sliceOfPhys a / 80 = die) :
    exec (.walkComplete n) s = .next (s.endWalk die root page false) := by
  rw [walkComplete_step hn h32 hrepair hbridge]
  exact congrArg Host.Outcome.next (if_neg (by simpa using hnear))

end Complete

end Walk

/-- Settles O47: a walk settles only what leaves threads, collectors and shared TLBs as they are. -/
theorem timestampsAndWalks : Obligations.TimestampsAndWalks := by
  refine ⟨fun s slice entry b he hf hb => ?_, ptsAdvance_pts, fun s n die page root hn h32 hrepair hbridge => ⟨?_, fun hnear => ?_⟩⟩
  · refine ⟨_, bypassEntryFree_frees he hf hb, ?_, ?_, ?_, entryFreed_home s slice entry b⟩
    · rw [entryFreed_slice]
    · rw [entryFreed_slice]
      exact (Nat.le_max_left ..).trans (Nat.le_max_right ..)
    · rw [entryFreed_slice]
      exact Nat.le_max_left ..
  · exact walkComplete_crosses hn h32 hrepair hbridge
  · exact ⟨_, _, walkComplete_ends hn h32 hrepair hbridge hnear, fun ten hten htlb => walkResult_found hn hten htlb,
      fun i c x hc hd hx hs ho => endWalk_thread hc hd hx hs ho⟩

end Sys2Proof.Proofs
end

section
/-! PROOFS. What the engines do of themselves: completions, faults, stops, tiles, sub-arrays and bank exchanges (R199, R250, R266, R268, R288,
R299, R306, R368, R381). -/

namespace Sys2Proof.Proofs
open Sys2Proof Sys2Proof.Machine

/-! ### Commands of a queue (R199, R250, R368) -/

section Queue
variable {s : State} {r : EngRef} {i : Nat} {c : Cmd} (hc : (s.queueOf r)[i]? = some c)
include hc

theorem commandCompletion_runs (h : s.mayRun r i c = true) : exec (.commandCompletion r i) s = .next (s.complete r c) := by
  show execCommandCompletion r i s = _
  simp only [execCommandCompletion, hc, h, if_true]

theorem lineDelivery_delivers (h : s.mayRun r i c = true) (he : r.eng = .copy) (l : Nat) :
    exec (.lineDelivery r i l) s = .next (s.deliverCopy r c l) := by
  show execLineDelivery r i l s = _
  simp only [execLineDelivery, hc, h, he, BEq.rfl, Bool.and_self, if_true]

theorem translationFault_asks {va : W64} (hw : s.awaitsPage r i c = some va) (ha : c.asked va = false) :
    exec (.engineTranslationFault r i false) s =
      .next ((s.onCmd r c.id fun x => { x with held := true, wants := some va }).askPage c.ctx.ten va) := by
  show execEngineTranslationFault r i false s = _
  simp only [execEngineTranslationFault, hc, hw, ha, Bool.false_eq_true, if_false]

theorem translationFault_refused {va : W64} (hw : s.awaitsPage r i c = some va) (ha : c.asked va = true) :
    exec (.engineTranslationFault r i true) s = .next (s.denyPage r c va) := by
  show execEngineTranslationFault r i true s = _
  simp only [execEngineTranslationFault, hc, hw, ha, if_true]

end Queue

/-- A command, no tile, to which the host has refused a page. -/
theorem denyPage_queue (s : State) (r : EngRef) {c : Cmd} (va : W64) (h : c.op.isTile = false) :
    ∃ d, (s.denyPage r c va).queueOf r = (s.queueOf r).map d ∧ d c = { c with refused := true } := by
  refine ⟨_, queueOf_onQueue s r _, ?_⟩
  refine (if_pos rfl).trans ?_
  beta_reduce
  split
  next ho =>
    rw [ho] at h
    cases h
  · rfl

/-! ### Stops (R381) -/

theorem stopHold_command {s : State} {r : EngRef} {c : Cmd} {l : List Cmd} (hs : s.stopped r = false) (hq : s.queueOf r = c :: l)
    (hh : s.isHead r c.seq = true) (ht : c.op.isTile = false) (hp : c.past = false)
    (hb : ∀ x ∈ s.queueOf r, x.begun = false ∧ s.crossing x = false) :
    exec (.stopHold r) s = .next ((s.onCmd r c.id fun x => { x with stop := true }).holdAt r c.seq c.ctx c.op.engNo) := by
  have hhead : (s.queueOf r).head?.filter (fun c => !c.op.isTile && s.isHead r c.seq) = some c := by simp [hq, hh, ht]
  have hidle : (s.queueOf r).any (fun x => x.begun || s.crossing x) = false := by
    rw [List.any_eq_false]
    intro x hx
    simp [hb x hx]
  show execStopHold r s = _
  simp only [execStopHold, hs, hhead, hp, hidle, Bool.or_self, Bool.false_eq_true, if_false]

theorem stopHold_row {s : State} {r : EngRef} {x : Row} (hs : s.stopped r = false) (he : r.eng = .carafe)
    (hh : ∀ c ∈ (s.queueOf r).head?, c.op.isTile = true ∨ s.isHead r c.seq = false) (hx : s.headRow r = some x) :
    exec (.stopHold r) s = .next (s.holdAt r x.seq x.ctx 8) := by
  have hhead : (s.queueOf r).head?.filter (fun c => !c.op.isTile && s.isHead r c.seq) = none := by
    cases hq : (s.queueOf r).head? with
    | none => rfl
    | some c => rcases hh c hq with h | h <;> simp [h]
  show execStopHold r s = _
  simp only [execStopHold, hs, hhead, he, hx, Bool.false_eq_true, if_false, if_true]

theorem releaseStop_stops (s : State) (r : EngRef) : ∀ x ∈ (s.releaseStop r).stops, x.1 ≠ engHome r := by
  intro x hx
  simpa using (List.mem_filter.1 hx).2

/-! ### The matrix engine and the tables (R266, R268, R288) -/

/-- One operation of a fused pass. -/
def fusedStep (r : EngRef) (s : State) (x : Cmd × Nat) : State :=
  match x.1.op with
  | .qm f sel => s.completeQm r x.1 f sel x.2
  | _ => s

theorem qmFusedPass_passes {s : State} {core sect n : Nat} (hf : fusable ((s.queueOf { core, eng := .matrix sect }).take n) = true)
    (hr : ∀ c ∈ (s.queueOf { core, eng := .matrix sect }).take n, s.readsFree c (s.engReads c) = true)
    (hs : s.stopped { core, eng := .matrix sect } = false) :
    exec (.qmFusedPass core sect n) s =
      .next (((s.queueOf { core, eng := .matrix sect }).take n).zipIdx.foldl (fusedStep { core, eng := .matrix sect }) s) := by
  have hall : ((s.queueOf { core, eng := .matrix sect }).take n).all (fun c => s.readsFree c (s.engReads c)) = true := List.all_eq_true.2 hr
  show execQmFusedPass core sect n s = _
  simp only [execQmFusedPass, hf, hs, hall, Bool.not_false, Bool.and_self, if_true]
  rfl

/-- A sub-array of a section that loses its power. -/
def gateSub (sub : Nat) (y : Machine.Section) : Machine.Section := { y with awake := setBit y.awake sub false }

theorem subarrayGate_gates {s : State} {core sect sub : Nat} (h0 : bitsOf (s.coreAt core).mgidle 15 0 ≠ 0)
    (hi : bitsOf (s.coreAt core).mgidle 15 0 ≤ s.arith - ((s.coreAt core).sectAt sect).lastUse.getD sub 0) :
    exec (.subarrayGate core sect sub) s = .next (s.onCore core fun k => k.onSect sect (gateSub sub)) := by
  show execSubarrayGate core sect sub s = _
  exact if_pos ⟨h0, hi⟩

theorem gated_asleep (s : State) (core sect : Nat) {sub : Nat} (h : sub < 4) :
    (((s.onCore core fun k => k.onSect sect (gateSub sub)).coreAt core).sectAt sect).awake.getLsbD sub = false := by
  have hsect : ((s.onCore core fun k => k.onSect sect (gateSub sub)).coreAt core).sectAt sect = gateSub sub ((s.coreAt core).sectAt sect) := by
    rw [State.coreAt_onCore]
    exact sectAt_onSect (s.coreAt core) sect (gateSub sub)
  rw [hsect, gateSub, getLsbD_setBit _ _ h, if_pos rfl]

theorem tableExchange_exchanges {s : State} {core : Nat} {c : Cmd} {l : List Cmd} (hq : s.queueOf { core, eng := .table } = c :: l)
    (ho : c.op = .tbSwap) (hm : s.mayRun { core, eng := .table } 0 c = true) :
    exec (.tableExchange core) s = .next (s.completeTbSwap { core, eng := .table } c) := by
  show execTableExchange core s = _
  simp only [execTableExchange, hq, ho, hm, BEq.rfl, Bool.and_self, if_true]

/-! ### Tiles (R299 to R302) -/

/-- The command as which a tile enters its matrix queue. -/
def tileCmd (s : State) (k : Tile) : Cmd :=
  { id := s.serial + 1, op := .tile k.net k.handle k.bind k.bwd k.rows, ctx := k.ctx, words := [], cap := [], owners := [],
    seq := (k.rows.head?.map (·.seq)).getD 0#32, lines := [], done := [], count := 0, held := false, refused := false, stop := false,
    past := false }

/-- A core whose tile i has launched as a command. -/
def launched (i sect : Nat) (c : Cmd) (k : Core) : Core :=
  { (k.onSect sect fun y => { y with mq := y.mq ++ [c] }) with tiles := k.tiles.eraseIdx i }

theorem launched_mq (i sect : Nat) (c : Cmd) (k : Core) : ((launched i sect c k).sectAt sect).mq = (k.sectAt sect).mq ++ [c] :=
  congrArg Machine.Section.mq (sectAt_onSect k sect _)

theorem tileLaunch_launches {s : State} {core i : Nat} {k : Tile} (hk : (s.coreAt core).tiles[i]? = some k)
    (hd : k.due (s.coreAt core).cycle = true)
    (hq : ((s.coreAt core).sectAt k.sect).mq.length - drawnPass ((s.coreAt core).sectAt k.sect).mq < 8) :
    exec (.tileLaunch core i) s = .next { s.onCore core (launched i k.sect (tileCmd s k)) with serial := s.serial + 1 } := by
  show execTileLaunch core i s = _
  simp only [execTileLaunch, State.launchTile, hk, hd, hq, decide_true, Bool.and_self, if_true]
  rfl

/-- The core whose tile has launched. -/
theorem tileLaunch_core (s : State) (core i : Nat) (k : Tile) :
    ({ s.onCore core (launched i k.sect (tileCmd s k)) with serial := s.serial + 1 } : State).coreAt core =
      launched i k.sect (tileCmd s k) (s.coreAt core) := coreAt_onCore_of_id (coreAt_id s core)

section Tile
variable {s : State} {core sect : Nat} {c : Cmd} {l : List Cmd} {net : List W32} {h b : Nat} {bwd : Bool} {rows : List Row}
  (hq : ((s.coreAt core).sectAt sect).mq = c :: l) (ho : c.op = .tile net h b bwd rows)
  (hm : rows.flatMap (s.rowMisses (Net.of net) bwd) = []) (hr : ∀ x ∈ rows, s.linesFree x.ord (s.rowReads (Net.of net) bwd x) = true)
  (hs : s.stopped { core, eng := .carafe } = false) (hx : s.crossing c = false)
include hq ho hm hr hs hx

/-- A tile that nothing holds back goes over the bridge first where its network is homed on the other die. -/
theorem tileDelivery_step : exec (.tileDelivery core sect) s =
    .next (match (if c.stage = 0 then s.farRow core (Net.of net) rows else none) with
      | some va => (s.cross (.cmd { core, eng := .matrix sect } c.id va) (1 - dieOfCore core)).onCmd { core, eng := .matrix sect } c.id
          fun x => { x with stage := 1 }
      | none => s.tileOut { core, eng := .matrix sect } c (Net.of net) h bwd rows) := by
  have hfree : rows.all (fun x => s.linesFree x.ord (s.rowReads (Net.of net) bwd x)) = true := List.all_eq_true.2 hr
  show execTileDelivery core sect s = _
  simp only [execTileDelivery, State.deliverTile, hq, ho, hm, hs, hfree, hx, Bool.not_true, Bool.or_self, Bool.false_eq_true, if_false] <;> rfl

theorem tileDelivery_delivers (hn : c.stage ≠ 0 ∨ s.farRow core (Net.of net) rows = none) :
    exec (.tileDelivery core sect) s = .next (s.tileOut { core, eng := .matrix sect } c (Net.of net) h bwd rows) := by
  have hnone : (if c.stage = 0 then s.farRow core (Net.of net) rows else none) = none := by
    rcases hn with hn | hn
    · exact if_neg hn
    · rw [hn, ite_self]
  rw [tileDelivery_step hq ho hm hr hs hx, hnone]

theorem tileDelivery_crosses {va : W64} (hst : c.stage = 0) (hn : s.farRow core (Net.of net) rows = some va) :
    exec (.tileDelivery core sect) s = .next ((s.cross (.cmd { core, eng := .matrix sect } c.id va) (1 - dieOfCore core)).onCmd
      { core, eng := .matrix sect } c.id fun x => { x with stage := 1 }) := by
  rw [tileDelivery_step hq ho hm hr hs hx, if_pos hst, hn]

end Tile

/-! ### The backward store (R306) -/

/-- Whether a thread waits for room in the store. -/
def awaitsStore (t : Thread) : Bool := match t.status with | .parked (.backward _) => true | _ => false

theorem backwardSettle_settles {s : State} {core : Nat} {c : Crew} (hc : (s.coreAt core).crew = some c) (hb : c.backs ≠ [])
    (hf : c.backsFilled = true) (hh : s.settleHeld c = false) (hw : ∃ x ∈ c.all, ∃ n, x.status = .parked (.backward n)) :
    exec (.backwardSettle core) s = .next ((s.settleBacks core).onCore core fun k => k.onCrew fun c =>
      { c with rspill := if c.rspill = BitVec.allOnes 32 then c.rspill else c.rspill + 1#32 }) := by
  have hwait : c.all.any awaitsStore = true := by
    obtain ⟨x, hx, n, hn⟩ := hw
    exact List.any_eq_true.2 ⟨x, hx, by rw [awaitsStore, hn]⟩
  have hgo : ¬((c.backs.isEmpty || !c.backsFilled || !(c.all.any awaitsStore || c.all.all fun t => t.status == .exited)) = true) := by
    simp [hb, hf, hwait]
  have hheld : ¬s.settleHeld c = true := by simp [hh]
  show execBackwardSettle core s = _
  simp only [execBackwardSettle, State.backwardSettle, hc]
  exact congrArg Host.Outcome.next ((if_neg hgo).trans ((if_neg hheld).trans (if_pos hwait)))

end Sys2Proof.Proofs
end

section
/-! PROOFS. What a command's reads and its completion leave: the bytes of storage, the accumulators, and a crew that goes on (R199, R275). -/

namespace Sys2Proof.Proofs
open Sys2Proof Sys2Proof.Machine

/-! ### States of the same accumulators whose crews go on alike -/

/-- Whether a crew is pre-empted, and where its lane threads stand. -/
def crewStands (k : Crew) : Option (Nat × W64) × List Status := (k.preempt, k.threads.map (·.status))

/-- From core `c` to core `d` no accumulator has changed, and the crew goes on as it did. -/
structure CoreSteady (c d : Core) : Prop where
  crew : d.crew.map crewStands = c.crew.map crewStands
  acc  : ∀ j, (d.sectAt j).acc = (c.sectAt j).acc

theorem CoreSteady.refl (c : Core) : CoreSteady c c := ⟨rfl, fun _ => rfl⟩
theorem CoreSteady.trans {a b c : Core} (h : CoreSteady a b) (k : CoreSteady b c) : CoreSteady a c :=
  ⟨k.crew.trans h.crew, fun j => (k.acc j).trans (h.acc j)⟩
theorem CoreSteady.of_eq {c d : Core} (hk : d.crew = c.crew) (hs : d.sects = c.sects) : CoreSteady c d :=
  ⟨by rw [hk], fun j => by rw [sectAt_congr hs]⟩

theorem getD_modifyAt_other {α : Type} (d : α) (f : α → α) {i j : Nat} (h : j ≠ i) (l : List α) :
    (modifyAt d f i l).getD j d = l.getD j d := by
  induction i generalizing l j with
  | zero =>
    obtain ⟨j, rfl⟩ := Nat.exists_eq_succ_of_ne_zero h
    cases l <;> rfl
  | succ i ih =>
    cases j with
    | zero => cases l <;> rfl
    | succ j =>
      have hj : j ≠ i := fun he => h (by rw [he])
      cases l with
      | nil => simpa [modifyAt] using ih hj []
      | cons x r => simpa [modifyAt] using ih hj r

theorem CoreSteady.onSect (c : Core) (i : Nat) {f : Machine.Section → Machine.Section} (hf : ∀ x, (f x).acc = x.acc) :
    CoreSteady c (c.onSect i f) := by
  refine ⟨rfl, fun j => ?_⟩
  by_cases h : j = i
  · subst h
    rw [sectAt_onSect, hf]
  · exact congrArg Machine.Section.acc (getD_modifyAt_other _ f h c.sects)

theorem CoreSteady.onThreads (c : Core) (p : Thread → Bool) {f : View → View} (hf : ∀ v, (f v).th.status = v.th.status) :
    CoreSteady c (c.onCrew fun k => k.onThreads p f) := by
  have hk (k : Crew) : crewStands (k.onThreads p f) = crewStands k := by
    simp only [crewStands, Crew.onThreads]
    split
    all_goals
      simp only [List.map_map, Prod.mk.injEq, true_and]
      refine List.map_congr_left fun t _ => ?_
      simp only [Function.comp]
      split
      · exact hf _
      · rfl
  refine ⟨?_, fun _ => rfl⟩
  rw [Core.onCrew, Option.map_map]
  exact congrArg (Option.map · c.crew) (funext hk)

/-- Nor has a word of the scratchpad. -/
structure CoreCalm (c d : Core) : Prop where
  steady : CoreSteady c d
  pad    : d.pad = c.pad
  pinned : d.pinned = c.pinned
  epoch  : d.epoch = c.epoch

/-- From `s` to `t` no accumulator has changed, every crew goes on as it did, and the tenancies are the same. -/
structure Steady (s t : State) : Prop where
  tens : t.tens = s.tens
  core : ∀ i, CoreSteady (s.coreAt i) (t.coreAt i)

/-- From `s` to `t` no byte of storage has changed. -/
def SameBytes (s t : State) : Prop := ∀ m : Loc, m.isImage = false → t.rdByte m = s.rdByte m

/-- Nothing of both has changed. -/
structure Calm (s t : State) : Prop where
  steady : Steady s t
  bytes  : SameBytes s t

section Calm
variable {s t u : State}

theorem Steady.refl : Steady s s := ⟨rfl, fun _ => .refl _⟩
theorem Steady.trans (h : Steady s t) (k : Steady t u) : Steady s u := ⟨k.tens.trans h.tens, fun i => (h.core i).trans (k.core i)⟩
theorem Steady.of_eq (ht : t.tens = s.tens) (hc : t.coreAt = s.coreAt) : Steady s t := ⟨ht, fun i => by rw [hc]; exact .refl _⟩

theorem Steady.onCore (i : Nat) {f : Core → Core} (hf : ∀ c, CoreSteady c (f c)) : Steady s (s.onCore i f) := by
  refine ⟨rfl, fun j => ?_⟩
  by_cases h : j = i
  · subst h
    rw [State.coreAt_onCore]
    exact ⟨(hf _).crew, (hf _).acc⟩
  · rw [State.coreAt_onCore_other _ _ _ _ h]
    exact .refl _

theorem Calm.refl : Calm s s := ⟨.refl, fun _ _ => rfl⟩
theorem Calm.trans (h : Calm s t) (k : Calm t u) : Calm s u := ⟨h.steady.trans k.steady, fun m hm => (k.bytes m hm).trans (h.bytes m hm)⟩

/-- What leaves memory, the cores and the tenancies as they are. -/
theorem Calm.of_eq (hm : t.mem = s.mem) (hl : t.cells = s.cells) (hf : t.free = s.free) (ht : t.tens = s.tens) (hc : t.coreAt = s.coreAt) :
    Calm s t :=
  ⟨.of_eq ht hc, fun _ h => rdByte_congr hm hl hf (fun i o => by rw [hc]) h⟩

theorem Calm.onCore (i : Nat) {f : Core → Core} (hf : ∀ c, CoreCalm c (f c)) : Calm s (s.onCore i f) := by
  refine ⟨.onCore i fun c => (hf c).steady, fun _ h => rdByte_congr (s := s) (t := s.onCore i f) rfl rfl rfl (fun j o => ?_) h⟩
  by_cases hj : j = i
  · subst hj
    obtain ⟨-, hpad, hpinned, hepoch⟩ := hf (s.coreAt j)
    rw [State.coreAt_onCore]
    exact padByte_congr (c := s.coreAt j) (d := { f (s.coreAt j) with id := j }) hpad hpinned (coreAt_id s j).symm hepoch o
  · rw [State.coreAt_onCore_other _ _ _ _ hj]

theorem Calm.ite {p : Prop} [Decidable p] (ht : Calm s t) (hu : Calm s u) : Calm s (if p then t else u) := by
  split
  · exact ht
  · exact hu

theorem Calm.foldl {α : Type} (l : List α) {f : State → α → State} (hf : ∀ s x, Calm s (f s x)) : Calm s (l.foldl f s) := by
  induction l generalizing s with
  | nil => exact .refl
  | cons x l ih => exact (hf s x).trans ih

/-! ### The reads of an engine -/

theorem raisePts_calm (i p : Nat) : Calm s (s.raisePts i p) := .onCore i fun _ => ⟨.of_eq rfl rfl, rfl, rfl, rfl⟩
theorem putStamps_calm (x : Line) : Calm s (s.putStamps x) := .of_eq rfl rfl rfl rfl rfl

theorem stampLoad_calm (i : Nat) (l : Loc) : Calm s (s.stampLoad i l) := by
  unfold State.stampLoad
  exact .ite .refl ((putStamps_calm _).trans (raisePts_calm i _))

theorem stampStore_calm (i : Nat) (l : Loc) : Calm s (s.stampStore i l) := by
  unfold State.stampStore
  exact .ite .refl ((putStamps_calm _).trans (raisePts_calm i _))

theorem touchL1_calm (i : Nat) (l : Loc) : Calm s (s.touchL1 i l) := by
  unfold State.touchL1
  exact .ite (.onCore i fun _ => ⟨.of_eq rfl rfl, rfl, rfl, rfl⟩) .refl

theorem stampLines_calm (i : Nat) (ls : List Loc) : Calm s (s.stampLines i ls) :=
  .foldl _ fun _ _ => (stampStore_calm i _).trans (touchL1_calm i _)

/-! ### The completion of a command (R275) -/

@[simp] theorem cellAt_id (s : State) (i : Nat) : (s.cellAt i).id = i := by
  rw [State.cellAt]
  cases h : s.cells.find? fun c => c.id == i with
  | none => rfl
  | some c => simpa using List.find?_some h

theorem onQueue_calm (r : EngRef) (f : List Cmd → List Cmd) : Calm s (s.onQueue r f) := by
  cases hr : r.eng with
  | matrix k | stack k =>
    simp only [State.onQueue, hr]
    exact .onCore _ fun c => ⟨.onSect c k fun _ => rfl, rfl, rfl, rfl⟩
  | fabric =>
    simp only [State.onQueue, hr]
    exact .of_eq rfl rfl rfl rfl rfl
  | grinder =>
    simp only [State.onQueue, hr]
    refine ⟨.of_eq rfl rfl, fun m hm => ?_⟩
    cases m with
    | cel c o =>
      by_cases h : c = cellOf r.core
      · subst h
        simp only [State.rdByte, State.cellAt_onCell, Cell.byte, cellAt_id]
      · simp only [State.rdByte, State.cellAt_onCell_other _ _ _ _ h]
    | state c k o => cases hm
    | _ => rfl
  | _ =>
    simp only [State.onQueue, hr]
    exact .onCore _ fun _ => ⟨.of_eq rfl rfl, rfl, rfl, rfl⟩

theorem deliverLine_calm (id g : Nat) : Calm s (s.deliverLine id g) := .onCore _ fun _ => ⟨.of_eq rfl rfl, rfl, rfl, rfl⟩

theorem onTids_calm (i : Nat) (tids : List W32) {f : View → View} (hf : ∀ v, (f v).th.status = v.th.status) : Calm s (s.onTids i tids f) :=
  .onCore i fun c => ⟨.onThreads c _ hf, rfl, rfl, rfl⟩

theorem putMarked_status (v : View) (m : Mark) (ds : List Dst) (xs : List W32) : (v.putMarked m ds xs).th.status = v.th.status := by
  induction ds generalizing v xs with
  | nil => rfl
  | cons d ds ih =>
    cases xs with
    | nil => rfl
    | cons x xs =>
      rw [View.putMarked, ih]
      cases d <;> rfl

theorem land_status (v : View) (p : Pending) : (v.land p).th.status = v.th.status := by
  unfold View.land
  split
  · rfl
  · exact putMarked_status ..

theorem fill_calm (i : Nat) (tid : W32) (id : Nat) (xs : List W32) (m : Mark) : Calm s (s.fill i tid id xs m) := by
  refine onTids_calm i [tid] fun v => ?_
  split
  · rfl
  · exact land_status ..

/-- A crew on a core that is not pre-empted, and that has a thread to run: nothing ends or saves it (R164, R370). -/
def GoesOn (s : State) (i : Nat) : Prop := ∃ k, (s.coreAt i).crew = some k ∧ k.preempt = none ∧ ∃ t ∈ k.threads, t.status = .runnable

theorem GoesOn.steady {i : Nat} (hs : Steady s t) (h : GoesOn s i) : GoesOn t i := by
  obtain ⟨k, hk, hpre, x, hx, hrun⟩ := h
  have hcrew := (hs.core i).crew
  rw [hk, Option.map_some] at hcrew
  obtain ⟨l, hl, hstands⟩ := Option.map_eq_some_iff.1 hcrew
  simp only [crewStands, Prod.mk.injEq] at hstands
  obtain ⟨hpreempt, hstatus⟩ := hstands
  have hmem : Status.runnable ∈ l.threads.map (·.status) := by
    rw [hstatus, ← hrun]
    exact List.mem_map_of_mem hx
  obtain ⟨y, hy, hyrun⟩ := List.mem_map.1 hmem
  exact ⟨l, hl, hpreempt.trans hpre, y, hy, hyrun⟩

theorem settleEnd_goesOn {i : Nat} (h : GoesOn s i) : s.settleEnd i = s := by
  obtain ⟨k, hk, hpre, x, hx, hrun⟩ := h
  have hsave : s.trySave i = s := by simp only [State.trySave, hk, hpre]
  have hall : (k.all.all fun t => t.status == .exited) = false :=
    List.all_eq_false.2 ⟨x, List.mem_append_left _ hx, by simp [hrun]⟩
  have hover : s.crewOver i = false := by simp only [State.crewOver, hk, hall, Bool.false_and]
  rw [State.settleEnd, hsave, State.tryEndCrew, hover]
  rfl

theorem traceCmd_off {x : CmdCtx} (h : (s.tenAt x.ten).trace.on = false) (kind eng : Nat) (seq : W32) (status : Nat) :
    s.traceCmd kind x eng seq status = s := by
  simp only [State.traceCmd, State.trace, h, Bool.not_false, if_true]

/-- The completion of a command without a trace, under a crew that goes on. -/
theorem finishCmd_calm (r : EngRef) {c : Cmd} (n e : Nat) (hgo : GoesOn s c.ctx.core) (ht : (s.tenAt c.ctx.ten).trace.on = false) :
    Calm s (s.finishCmd r c n e) := by
  unfold State.finishCmd
  extract_lets core s1 s2 s3 s4 s5 s6
  have h1 : Calm s s1 := onQueue_calm ..
  have h2 : Calm s s2 := h1.trans (.foldl _ fun _ _ => deliverLine_calm ..)
  have h3 : Calm s s3 := h2.trans (.onCore _ fun _ => ⟨.of_eq rfl rfl, rfl, rfl, rfl⟩)
  have h4 : Calm s s4 := by
    refine h3.trans ?_
    simp only [s4]
    split
    · exact .onCore _ fun c => ⟨.onSect c _ fun _ => rfl, rfl, rfl, rfl⟩
    · exact .refl
  have h5 : Calm s s5 := h4.trans (.foldl _ fun _ _ => fill_calm ..)
  have h6 : Calm s s6 := h5.trans (onTids_calm _ _ fun _ => rfl)
  have htrace : (s6.tenAt c.ctx.ten).trace.on = false := by rwa [State.tenAt, h6.steady.tens]
  rw [traceCmd_off htrace, settleEnd_goesOn (hgo.steady h6.steady)]
  exact h6

end Calm

end Sys2Proof.Proofs
end

section
/-! PROOFS. A copy between two ranges of the scratchpad (R258, R276). -/

namespace Sys2Proof.Proofs
open Sys2Proof Sys2Proof.Machine

/-! ### Addresses of the pad aperture (R196) -/

theorem padAddr_plus (d k j : Nat) : padAddr d + BitVec.ofNat 64 k + BitVec.ofNat 64 j = 0xFFFFFFFE00000000#64 + BitVec.ofNat 64 (d + k + j) := by
  simp only [padAddr, BitVec.ofInt_natCast, BitVec.ofNat_add, BitVec.add_assoc]

section Window
variable {o : Nat} (h : o < 2 ^ 32)
include h

theorem padAperture_toNat : (0xFFFFFFFE00000000#64 + BitVec.ofNat 64 o).toNat = 0xFFFFFFFE00000000 + o := by
  rw [BitVec.toNat_add, BitVec.toNat_ofNat, BitVec.toNat_ofNat]
  omega

theorem padAperture_window : windowOf (0xFFFFFFFE00000000#64 + BitVec.ofNat 64 o) = some 2 := by
  have hhi : bitsOf (0xFFFFFFFE00000000#64 + BitVec.ofNat 64 o) 63 34 = 2 ^ 30 - 1 := by
    rw [bitsOf, BitVec.extractLsb'_toNat, padAperture_toNat h, Nat.shiftRight_eq_div_pow]
    omega
  have hlo : bitsOf (0xFFFFFFFE00000000#64 + BitVec.ofNat 64 o) 33 32 = 2 := by
    rw [bitsOf, BitVec.extractLsb'_toNat, padAperture_toNat h, Nat.shiftRight_eq_div_pow]
    omega
  rw [windowOf, if_pos hhi, hlo]

theorem padAperture_off : windowOff (0xFFFFFFFE00000000#64 + BitVec.ofNat 64 o) = o := by
  rw [windowOff, bitsOf, BitVec.extractLsb'_toNat, padAperture_toNat h, Nat.shiftRight_eq_div_pow]
  omega

theorem padAperture_canonical : canonical (0xFFFFFFFE00000000#64 + BitVec.ofNat 64 o) = true := by
  have h48 : (0xFFFFFFFE00000000#64 + BitVec.ofNat 64 o).getLsbD 48 = true := by
    rw [BitVec.getLsbD, padAperture_toNat h, Nat.testBit_eq_decide_div_mod_eq]
    exact decide_eq_true (by omega)
  have hhi : (0xFFFFFFFE00000000#64 + BitVec.ofNat 64 o).extractLsb' 49 15 = BitVec.allOnes 15 := by
    refine BitVec.eq_of_toNat_eq ?_
    rw [BitVec.extractLsb'_toNat, padAperture_toNat h, Nat.shiftRight_eq_div_pow, BitVec.toNat_allOnes]
    omega
  rw [canonical, h48, hhi]
  decide

/-- An address of the command's pad reaches its byte. -/
theorem engSite_pad (s : State) {x : CmdCtx} (refused rd wr : Bool) (hp : o < x.pad * 128) :
    s.engSite x refused rd wr (0xFFFFFFFE00000000#64 + BitVec.ofNat 64 o) = .ok (.pad x.core o) := by
  simp only [State.engSite, padAperture_canonical h, padAperture_window h, padAperture_off h, Bool.not_true, Bool.false_eq_true, if_false,
    if_pos hp]

end Window

/-! ### The moves of CP.LIN -/

/-- The places of 16 bytes of a core's scratchpad. -/
def padChunk (core o : Nat) : List Loc := (List.range 16).map fun j => .pad core (o + j)

/-- The move of 16 bytes between two offsets of a core's scratchpad. -/
def padMove (core src dst k : Nat) : Mv :=
  { unit := ((padAddr dst).toNat + k) / 128 - (padAddr dst).toNat / 128, src := (padChunk core (src + k)).map .ok, bits := 128,
    dst := (padChunk core (dst + k)).map .ok }

theorem placesOf_ok (l : List Loc) : placesOf (l.map .ok) = l := by
  rw [placesOf, List.filterMap_map]
  exact List.filterMap_some

theorem errsOf_ok (l : List Loc) : errsOf (l.map .ok) = [] := by
  rw [errsOf, List.filterMap_map]
  exact List.filterMap_eq_nil_iff.2 fun _ _ => rfl

theorem padMove_errs (core src dst k : Nat) : (padMove core src dst k).errs = [] := by
  rw [Mv.errs, padMove, errsOf_ok, errsOf_ok]
  rfl

theorem mem_chunks {n k : Nat} : k ∈ chunks n ↔ ∃ q < n / 16, k = 16 * q := by
  simp only [chunks, List.mem_map, List.mem_range, eq_comm]

/-- Byte i of a range whose length is a multiple of 16 lies in one of its chunks. -/
theorem chunk_of_byte {n i : Nat} (h16 : n % 16 = 0) (hi : i < n) : 16 * (i / 16) ∈ chunks n ∧ i % 16 < 16 ∧ 16 * (i / 16) + i % 16 = i :=
  ⟨mem_chunks.2 ⟨i / 16, by omega, rfl⟩, Nat.mod_lt _ (by decide), Nat.div_add_mod i 16⟩

theorem chunk_lt {n k : Nat} (h16 : n % 16 = 0) (hk : k ∈ chunks n) : k + 16 ≤ n := by
  obtain ⟨q, hq, rfl⟩ := mem_chunks.1 hk
  omega

section Moves
variable {s : State} {c : Cmd} (he : s.errs = [])
include he

/-- 16 bytes of the command's pad, which no error has taken. -/
theorem engBytes_pad (rd wr : Bool) {d k : Nat} (h32 : c.ctx.pad * 128 ≤ 2 ^ 32) (hp : d + k + 16 ≤ c.ctx.pad * 128) :
    s.engBytes c rd wr (padAddr d + BitVec.ofNat 64 k) 16 = (padChunk c.ctx.core (d + k)).map .ok := by
  simp only [State.engBytes, State.ctxBytes, padChunk, List.map_map]
  refine List.map_congr_left fun j hj => ?_
  have hj16 := List.mem_range.1 hj
  have hsite := engSite_pad (o := d + k + j) (by omega) s (x := c.ctx) c.refused rd wr (by omega)
  rw [padAddr_plus, State.engPlace, hsite]
  cases rd with
  | false => rfl
  | true => simp [State.sound, State.spoiled, he]

theorem copyMoves_lin {src dst : Nat} (ho : c.op = .lin) (hd : pairAt c.words 0 = padAddr dst) (hs : pairAt c.words 2 = padAddr src)
    (h16 : (wordAt c.words 4).toNat % 16 = 0) (h32 : c.ctx.pad * 128 ≤ 2 ^ 32) (hsrc : src + (wordAt c.words 4).toNat ≤ c.ctx.pad * 128)
    (hdst : dst + (wordAt c.words 4).toNat ≤ c.ctx.pad * 128) :
    s.copyMoves c = (chunks (wordAt c.words 4).toNat).map (padMove c.ctx.core src dst) := by
  simp only [State.copyMoves, ho, hd, hs]
  refine List.map_congr_left fun k hk => ?_
  have hlt := chunk_lt h16 hk
  rw [engBytes_pad he _ _ h32 (by omega), engBytes_pad he _ _ h32 (by omega)]
  rfl

end Moves

/-! ### Bytes written one after another -/

/-- One byte of a move takes its place. -/
def putByte (s : State) (x : Loc × Byte) : State := (s.clearFutures x.1 1).wr x.1 1 x.2.toNat

theorem wr_steady {s : State} {core o : Nat} (n v : Nat) : Steady s (s.wr (.pad core o) n v) := by
  have hbytes (bs : List Byte) (s : State) (o : Nat) : Steady s (s.wrBytes (.pad core o) bs) := by
    induction bs generalizing s o with
    | nil => exact .refl
    | cons b r ih =>
      have hone : Steady s (s.wrByte (.pad core o) b) := by
        rw [wrByte_pad]
        exact .onCore core fun _ => .of_eq rfl rfl
      exact hone.trans (ih _ _)
  exact (hbytes _ s o).trans (.of_eq rfl rfl)

theorem clearFutures_calm {s : State} (l : Loc) (n : Nat) : Calm s (s.clearFutures l n) := .foldl _ fun _ _ => .of_eq rfl rfl rfl rfl rfl

theorem putByte_steady {s : State} {core o : Nat} (b : Byte) : Steady s (putByte s (.pad core o, b)) :=
  (clearFutures_calm _ 1).steady.trans (wr_steady 1 _)

theorem rdByte_putByte {s : State} {core o : Nat} (b : Byte) {m : Loc} (hm : m.isImage = false) :
    (putByte s (.pad core o, b)).rdByte m = if m = .pad core o then b else s.rdByte m := by
  have hw := wr_wrote (s := s.clearFutures (.pad core o) 1) (l := .pad core o) trivial 1 b.toNat
  split
  next h =>
    subst h
    have hb := hw.bytes 0 Nat.one_pos
    have hval : byteAt b.toNat 0 = b := by simp [byteAt]
    rwa [hval] at hb
  next h =>
    have hout : ¬ m.within (.pad core o) 1 := by
      rintro ⟨i, hi, he⟩
      obtain rfl : i = 0 := by omega
      exact h he
    exact (hw.frame m hm hout).trans ((clearFutures_calm _ 1).bytes m hm)

/-- Bytes that go to a core's scratchpad, each the one that `val` gives its place. -/
def PadBytes (core : Nat) (val : Loc → Byte) (l : List (Loc × Byte)) : Prop := ∀ x ∈ l, (∃ o, x.1 = .pad core o) ∧ x.2 = val x.1

theorem putBytes_steady {s : State} {core : Nat} {val : Loc → Byte} {l : List (Loc × Byte)} (hl : PadBytes core val l) :
    Steady s (l.foldl putByte s) := by
  induction l generalizing s with
  | nil => exact .refl
  | cons x l ih =>
    obtain ⟨⟨o, ho⟩, -⟩ := hl x List.mem_cons_self
    obtain ⟨p, b⟩ := x
    obtain rfl : p = .pad core o := ho
    exact (putByte_steady b).trans (ih fun y hy => hl y (List.mem_cons_of_mem _ hy))

theorem rdByte_putBytes {s : State} {core : Nat} {val : Loc → Byte} {l : List (Loc × Byte)} (hl : PadBytes core val l) {m : Loc}
    (hm : m.isImage = false) : (l.foldl putByte s).rdByte m = if m ∈ l.map Prod.fst then val m else s.rdByte m := by
  induction l generalizing s with
  | nil => simp
  | cons x l ih =>
    obtain ⟨⟨o, ho⟩, hv⟩ := hl x List.mem_cons_self
    obtain ⟨p, b⟩ := x
    obtain rfl : p = .pad core o := ho
    obtain rfl : b = val (.pad core o) := hv
    rw [List.foldl_cons, ih fun y hy => hl y (List.mem_cons_of_mem _ hy), rdByte_putByte _ hm, List.map_cons]
    by_cases hmem : m ∈ l.map Prod.fst
    · rw [if_pos hmem, if_pos (List.mem_cons_of_mem _ hmem)]
    · rw [if_neg hmem]
      by_cases heq : m = .pad core o
      · subst heq
        rw [if_pos rfl, if_pos List.mem_cons_self]
      · rw [if_neg heq, if_neg (by simpa [heq] using hmem)]

/-! ### The moves performed (R228, R258) -/

/-- What a step leaves that only reads: no held term, and the bytes, the accumulators and the crews as they were. -/
structure Hushed (s t : State) : Prop where
  terms : t.terms = []
  calm  : Calm s t

theorem Hushed.foldl {α : Type} (l : List α) {f : State → α → State} (hf : ∀ s x, s.terms = [] → Hushed s (f s x)) {s : State}
    (hs : s.terms = []) : Hushed s (l.foldl f s) := by
  induction l generalizing s with
  | nil => exact ⟨hs, .refl⟩
  | cons x l ih =>
    have hx := hf s x hs
    have hl := ih hx.terms
    exact ⟨hl.terms, hx.calm.trans hl.calm⟩

theorem stampLoad_terms (s : State) (i : Nat) (l : Loc) : (s.stampLoad i l).terms = s.terms := by
  simp only [State.stampLoad]
  split <;> rfl

theorem engTouch_hushed {s : State} (i : Nat) (l : Loc) (h : s.terms = []) : Hushed s (s.engTouch i l) := by
  rw [State.engTouch, settle_nil h]
  exact ⟨(stampLoad_terms ..).trans h, stampLoad_calm i l⟩

theorem settleEach_nil {s : State} (l : List Loc) (h : s.terms = []) : l.foldl (fun s l => s.settle l 1) s = s := by
  induction l with
  | nil => rfl
  | cons x l ih => rw [List.foldl_cons, settle_nil h, ih]

/-- The bytes that a move of the copy writes, of a value. -/
def chunkBytes (core dst k v : Nat) : List (Loc × Byte) := (List.range 16).map fun j => (.pad core (dst + k + j), byteAt v j)

theorem mvWrite_padMove (s : State) (core src dst k v : Nat) :
    s.mvWrite (padMove core src dst k) v (fun _ => true) = (chunkBytes core dst k v).foldl putByte s := by
  have hplaces : placesOf (padMove core src dst k).dst = padChunk core (dst + k) := placesOf_ok _
  have hzip : (padChunk core (dst + k)).zip (bytesOf (padChunk core (dst + k)).length v) = chunkBytes core dst k v := by
    have hlen : (padChunk core (dst + k)).length = 16 := by simp [padChunk]
    rw [hlen]
    exact List.zip_map'
  simp only [State.mvWrite, hplaces, if_true]
  exact congrArg (List.foldl putByte s) hzip

/-- The number that a move of the copy carries. -/
def chunkValue (s : State) (core src k : Nat) : Nat := leNat ((List.range 16).map fun j => s.rdByte (.pad core (src + k + j)))

theorem mvValue_padMove (s : State) (core src dst k : Nat) : s.mvValue (padMove core src dst k) = chunkValue s core src k := by
  have hplaces : placesOf (padMove core src dst k).src = padChunk core (src + k) := placesOf_ok _
  have hbytes : (padChunk core (src + k)).map s.rdByte = (List.range 16).map fun j => s.rdByte (.pad core (src + k + j)) := by
    rw [padChunk, List.map_map]
    rfl
  have hlt : chunkValue s core src k < 2 ^ 128 := by
    have h := leNat_lt ((List.range 16).map fun j => s.rdByte (.pad core (src + k + j)))
    rwa [List.length_map, List.length_range] at h
  have hsrc : (padMove core src dst k).src.isEmpty = false := rfl
  rw [State.mvValue, hsrc, hplaces, hbytes]
  exact (congrArg (· % 2 ^ 128) (Nat.div_one _)).trans (Nat.mod_eq_of_lt hlt)

/-- The byte of the source that belongs at a place of the destination. -/
def movedByte (s : State) (core src dst : Nat) : Loc → Byte
  | .pad _ o => s.rdByte (.pad core (src + (o - dst)))
  | _ => 0#8

/-- All the bytes of the copy. -/
def copyBytes (s : State) (core src dst : Nat) (ks : List Nat) : List (Loc × Byte) :=
  ks.flatMap fun k => chunkBytes core dst k (chunkValue s core src k)

theorem copyBytes_pad (s : State) (core src dst : Nat) (ks : List Nat) :
    PadBytes core (movedByte s core src dst) (copyBytes s core src dst ks) := by
  intro x hx
  obtain ⟨k, -, hk⟩ := List.mem_flatMap.1 hx
  obtain ⟨j, hj, rfl⟩ := List.mem_map.1 hk
  refine ⟨⟨_, rfl⟩, ?_⟩
  have hoff : src + (dst + k + j - dst) = src + k + j := by omega
  simp only [movedByte, hoff]
  exact byteAt_leNat (fun j => s.rdByte (.pad core (src + k + j))) (List.mem_range.1 hj)

/-- The places that the copy writes. -/
theorem mem_copyBytes {s : State} {core src dst n : Nat} (h16 : n % 16 = 0) (m : Loc) :
    m ∈ (copyBytes s core src dst (chunks n)).map Prod.fst ↔ ∃ i < n, m = .pad core (dst + i) := by
  simp only [copyBytes, chunkBytes, List.map_flatMap, List.map_map, List.mem_flatMap, List.mem_map, List.mem_range, Function.comp]
  constructor
  · rintro ⟨k, hk, j, hj, rfl⟩
    have hlt := chunk_lt h16 hk
    exact ⟨k + j, by omega, by rw [Nat.add_assoc]⟩
  · rintro ⟨i, hi, rfl⟩
    obtain ⟨hk, hj, hsum⟩ := chunk_of_byte h16 hi
    exact ⟨_, hk, _, hj, by rw [Nat.add_assoc, hsum]⟩

theorem entriesStored_pad (was s : State) {l : List Loc} (h : ∀ x ∈ l, ∃ c o, x = .pad c o) : was.entriesStored s l = s := by
  have hnone : (l.filterMap fun x => match x with | .mem a => some (a / 8 * 8) | _ => none) = [] := by
    rw [List.filterMap_eq_nil_iff]
    intro x hx
    obtain ⟨c, o, rfl⟩ := h x hx
    rfl
  unfold State.entriesStored
  exact congrArg (fun l : List Nat => l.eraseDups.foldl _ s) hnone

/-- The state that the copy reads: every byte as it was. -/
def copyRead (s : State) (core : Nat) (ms : List Mv) : State :=
  ms.foldl (fun s m => (placesOf m.src).foldl (fun s l => s.engTouch core l) s) s

theorem copyRead_hushed {s : State} (core : Nat) (ms : List Mv) (h : s.terms = []) : Hushed s (copyRead s core ms) :=
  .foldl ms (fun _ m hs => .foldl (placesOf m.src) (fun _ l => engTouch_hushed core l) hs) h

/-- The moves of the copy, all reads before all writes. -/
theorem mvAll_padMoves {s : State} {core src dst : Nat} (ks : List Nat) (h : s.terms = []) :
    let r := copyRead s core (ks.map (padMove core src dst))
    Calm ((copyBytes r core src dst ks).foldl putByte r) (s.mvAll core (ks.map (padMove core src dst)) fun _ _ => true) := by
  intro r
  have hr : r.terms = [] := (copyRead_hushed core _ h).terms
  have hwrites : ((ks.map (padMove core src dst)).zip ((ks.map (padMove core src dst)).map r.mvValue)).foldl
      (fun t x => t.mvWrite x.1 x.2 fun _ => true) r = (copyBytes r core src dst ks).foldl putByte r := by
    rw [List.map_map, List.zip_map', List.foldl_map, copyBytes, List.foldl_flatMap]
    refine List.foldl_ext _ _ _ fun t k _ => ?_
    rw [← mvWrite_padMove (src := src), ← mvValue_padMove (dst := dst)]
    rfl
  have hpads : ∀ x ∈ (ks.map (padMove core src dst)).flatMap fun m => (placesOf m.dst).filter fun _ => true, ∃ c o, x = .pad c o := by
    intro x hx
    obtain ⟨m, hm, hx⟩ := List.mem_flatMap.1 hx
    obtain ⟨k, -, rfl⟩ := List.mem_map.1 hm
    have hx := (List.mem_filter.1 hx).1
    rw [show placesOf (padMove core src dst k).dst = padChunk core (dst + k) from placesOf_ok _] at hx
    obtain ⟨j, -, rfl⟩ := List.mem_map.1 hx
    exact ⟨_, _, rfl⟩
  have hsettled : ((ks.map (padMove core src dst)).flatMap fun m => placesOf m.dst).foldl (fun s l => s.settle l 1) r = r :=
    settleEach_nil _ hr
  unfold State.mvAll
  extract_lets written s1 s2 t
  have h2 : s2 = r := hsettled
  have ht : t = (copyBytes r core src dst ks).foldl putByte r := by
    rw [← hwrites]
    simp only [t, h2]
  rw [ht, entriesStored_pad s2 _ (l := written) hpads]
  exact (stampLines_calm core _).trans (.of_eq rfl rfl rfl rfl rfl)

/-! ### The command -/

theorem settleTables_nil {s : State} (h : s.terms = []) (root : W64) : s.settleTables root = s := by
  rw [State.settleTables, h]
  rfl

theorem mvStop_padMoves (core src dst : Nat) (ks : List Nat) : mvStop (ks.map (padMove core src dst)) = none := by
  have hbad : (ks.map (padMove core src dst)).filter (fun m => !m.errs.isEmpty) = [] := by
    rw [List.filter_eq_nil_iff]
    intro m hm
    obtain ⟨k, -, rfl⟩ := List.mem_map.1 hm
    simp [padMove_errs]
  rw [mvStop, hbad]

/-- Nothing of the copy has been delivered. -/
theorem undelivered_padMoves {c : Cmd} (h : c.done = []) (core src dst : Nat) (ks : List Nat) :
    (ks.map (padMove core src dst)).filter (fun m => !c.delivered m) = ks.map (padMove core src dst) := by
  rw [List.filter_eq_self]
  intro m hm
  obtain ⟨k, -, rfl⟩ := List.mem_map.1 hm
  have hfirst : Loc.pad core (dst + k + 0) ∈ placesOf (padMove core src dst k).dst := by
    rw [show placesOf (padMove core src dst k).dst = padChunk core (dst + k) from placesOf_ok _]
    exact List.mem_map_of_mem (f := fun j => Loc.pad core (dst + k + j)) (by decide : 0 ∈ List.range 16)
  have hall : ((placesOf (padMove core src dst k).dst).all fun l => match l.padLine with
      | none => false
      | some g => c.done.contains g) = false := by
    rw [List.all_eq_false]
    exact ⟨_, hfirst, by simp [Loc.padLine, h]⟩
  rw [Cmd.delivered]
  exact (congrArg (fun b => !(!(placesOf (padMove core src dst k).dst).isEmpty && b)) hall).trans (by simp)

section Lin
variable {s : State} {c : Cmd} {src dst : Nat} (hl : c.lost = false) (ht : s.terms = []) (he : s.errs = []) (ho : c.op = .lin)
  (hdone : c.done = []) (hd : pairAt c.words 0 = padAddr dst) (hs : pairAt c.words 2 = padAddr src)
  (h16 : (wordAt c.words 4).toNat % 16 = 0) (h32 : c.ctx.pad * 128 ≤ 2 ^ 32) (hsrc : src + (wordAt c.words 4).toNat ≤ c.ctx.pad * 128)
  (hdst : dst + (wordAt c.words 4).toNat ≤ c.ctx.pad * 128)
include hl ht he ho hdone hd hs h16 h32 hsrc hdst

theorem complete_lin (r : EngRef) : ∃ n e, s.complete r c =
    (s.mvAll c.ctx.core ((chunks (wordAt c.words 4).toNat).map (padMove c.ctx.core src dst)) fun _ _ => true).finishCmd r c n e := by
  have hcopy : s.complete r c = s.completeCopy r c := by
    simp only [State.complete, settleTables_nil ht, hl, ho, Bool.false_eq_true, if_false]
  have hindex : c.indexList = none := by simp only [Cmd.indexList, ho]
  rw [hcopy, State.completeCopy]
  simp only [State.readIndex, hindex, copyMoves_lin he ho hd hs h16 h32 hsrc hdst, undelivered_padMoves hdone, mvStop_padMoves,
    State.finishMoves, List.isEmpty_nil, Bool.not_true, Bool.false_eq_true, if_false]
  exact ⟨_, _, rfl⟩

/-- What the copy leaves at each place: in the destination the byte of the source, and elsewhere the byte that was there. -/
theorem rdByte_lin (hgo : GoesOn s c.ctx.core) (htr : (s.tenAt c.ctx.ten).trace.on = false) (r : EngRef) {m : Loc} (hm : m.isImage = false) :
    (s.complete r c).rdByte m = if ∃ i < (wordAt c.words 4).toNat, m = .pad c.ctx.core (dst + i) then movedByte s c.ctx.core src dst m
      else s.rdByte m := by
  obtain ⟨n, e, hcomplete⟩ := complete_lin hl ht he ho hdone hd hs h16 h32 hsrc hdst r
  rw [hcomplete]
  set ks := chunks (wordAt c.words 4).toNat with hks
  have hread := (copyRead_hushed c.ctx.core (ks.map (padMove c.ctx.core src dst)) ht).calm
  have hmoves := mvAll_padMoves (core := c.ctx.core) (src := src) (dst := dst) ks ht
  set u := copyRead s c.ctx.core (ks.map (padMove c.ctx.core src dst))
  have hpads := copyBytes_pad u c.ctx.core src dst ks
  have hsteady := (hread.steady.trans (putBytes_steady hpads)).trans hmoves.steady
  have hfinish := finishCmd_calm r n e (hgo.steady hsteady) (c := c) (by rwa [State.tenAt, hsteady.tens])
  have hmoved : movedByte u c.ctx.core src dst m = movedByte s c.ctx.core src dst m := by
    cases m with
    | pad k o => exact hread.bytes (.pad c.ctx.core (src + (o - dst))) rfl
    | _ => rfl
  rw [hfinish.bytes m hm, hmoves.bytes m hm, rdByte_putBytes hpads hm, hread.bytes m hm, hmoved]
  simp only [hks, mem_copyBytes h16]

theorem lin_destination (hgo : GoesOn s c.ctx.core) (htr : (s.tenAt c.ctx.ten).trace.on = false) (r : EngRef) {i : Nat}
    (hi : i < (wordAt c.words 4).toNat) :
    (s.complete r c).rdByte (.pad c.ctx.core (dst + i)) = s.rdByte (.pad c.ctx.core (src + i)) := by
  rw [rdByte_lin hl ht he ho hdone hd hs h16 h32 hsrc hdst hgo htr r rfl, if_pos ⟨i, hi, rfl⟩]
  simp only [movedByte, Nat.add_sub_cancel_left]

theorem lin_frame (hgo : GoesOn s c.ctx.core) (htr : (s.tenAt c.ctx.ten).trace.on = false) (r : EngRef) {o : Nat}
    (hout : o < dst ∨ dst + (wordAt c.words 4).toNat ≤ o) :
    (s.complete r c).rdByte (.pad c.ctx.core o) = s.rdByte (.pad c.ctx.core o) := by
  rw [rdByte_lin hl ht he ho hdone hd hs h16 h32 hsrc hdst hgo htr r rfl, if_neg]
  rintro ⟨i, hi, heq⟩
  obtain ⟨-, rfl⟩ := Loc.pad.inj heq
  omega

end Lin

end Sys2Proof.Proofs
end

section
/-! PROOFS. The integer product of the matrix engine (R71, R262). -/

namespace Sys2Proof.Proofs
open Sys2Proof Sys2Proof.Machine

/-! ### The sum of a row of A and a row of B -/

/-- The product of the signed bytes that stand at position i of row m of A and of row n of B. -/
def byteProduct (s : State) (core : Nat) (x : MmShape) (m n i : Nat) : Int :=
  byteInt (s.operandAt core x.a (x.k * 1) x.span 1 m i) * byteInt (s.operandAt core x.b (x.k * 1) x.span 1 n i)

/-- The sum of the products at the first `len` positions. -/
def productSum (s : State) (core : Nat) (x : MmShape) (m n len : Nat) : Int := ((List.range len).map (byteProduct s core x m n)).sum

/-- The first `ch` + 1 chunks hold those of the first `ch`, and one chunk more. -/
theorem productSum_chunk (s : State) (core : Nat) (x : MmShape) (m n ch : Nat) :
    productSum s core x m n (min (128 * (ch + 1)) x.k) = productSum s core x m n (min (128 * ch) x.k) +
      ((List.range (min 128 (x.k - 128 * ch))).map fun j => byteProduct s core x m n (128 * ch + j)).sum := by
  have hlen : min (128 * (ch + 1)) x.k = min (128 * ch) x.k + min 128 (x.k - 128 * ch) := by omega
  rw [productSum, productSum, hlen, List.range_add, List.map_append, List.sum_append, List.map_map]
  congr 2
  refine List.map_congr_left fun j hj => ?_
  have hj := List.mem_range.1 hj
  have hlo : min (128 * ch) x.k = 128 * ch := by omega
  simp only [Function.comp, hlo]

/-- What one chunk adds to an accumulator word, modulo 2^32. -/
theorem chunkStep_i8 (acc : Nat) (p : List (Nat × Nat)) (sa sb : Nat) :
    BitVec.ofNat 32 (chunkStep .i8 acc (p.map (·.1)) (p.map (·.2)) sa sb).1 =
      BitVec.ofNat 32 acc + BitVec.ofInt 32 ((p.map fun q => byteInt q.1 * byteInt q.2).sum) := by
  have hzip : (p.map (·.1)).zip (p.map (·.2)) = p := by
    rw [List.zip_map']
    exact List.map_id p
  simp only [chunkStep, hzip, BitVec.ofNat_toNat, BitVec.setWidth_eq, BitVec.ofInt_add, BitVec.ofInt_natCast]

/-- The pairs of a chunk of a dense product of bytes. -/
theorem mmPairs_i8 (s : State) (c : Cmd) (x : MmShape) (ml : List (Nat × List Byte)) (m n ch : Nat) :
    ((s.mmPairs c x .i8 false ml m n ch).map fun q => byteInt q.1 * byteInt q.2) =
      (List.range (min 128 (x.k - 128 * ch))).map fun j => byteProduct s c.ctx.core x m n (128 * ch + j) := by
  simp only [State.mmPairs, Bool.false_eq_true, if_false, List.map_map]
  rfl

/-- An element after its first chunks. -/
theorem mmElem_i8 (s : State) (c : Cmd) (x : MmShape) (ml : List (Nat × List Byte)) (old m n cnt : Nat) :
    BitVec.ofNat 32 (s.mmElem c x .i8 false ml old m n cnt).1 =
      BitVec.ofInt 32 (((if x.acc then old else 0 : Nat) : Int) + productSum s c.ctx.core x m n (min (128 * cnt) x.k)) := by
  induction cnt with
  | zero =>
    simp only [State.mmElem, productSum, Nat.mul_zero, Nat.zero_min, List.range_zero, List.map_nil, List.sum_nil, List.foldl_nil, add_zero,
      BitVec.ofInt_natCast]
  | succ ch ih =>
    have hstep : (s.mmElem c x .i8 false ml old m n (ch + 1)).1 = (chunkStep .i8 (s.mmElem c x .i8 false ml old m n ch).1
        ((s.mmPairs c x .i8 false ml m n ch).map (·.1)) ((s.mmPairs c x .i8 false ml m n ch).map (·.2)) oneF32 oneF32).1 := by
      simp only [State.mmElem, List.range_succ, List.foldl_append, List.foldl_cons, List.foldl_nil, mfScaled, Bool.false_eq_true, if_false]
    rw [hstep, chunkStep_i8, ih, mmPairs_i8, productSum_chunk, ← BitVec.ofInt_add, add_assoc]

/-! ### Words of an accumulator memory -/

theorem lookWord_putBy (l : List (Nat × W32)) (p : Nat × W32) (j : Nat) :
    lookWord (putBy (·.1) p l) j = if j = p.1 then p.2 else lookWord l j := by
  split
  next h =>
    subst h
    rw [lookWord, find_putBy_same (fun q : Nat × W32 => q.1)]
    rfl
  next h => rw [lookWord, find_putBy_other (fun q : Nat × W32 => q.1) _ _ _ h, lookWord]

theorem lookWord_setAcc (y : Machine.Section) (val : Nat → W32) {l : List (Nat × Nat)} (hl : ∀ p ∈ l, BitVec.ofNat 32 p.2 = val p.1) (j : Nat) :
    lookWord (y.setAcc l).acc j = if j ∈ l.map Prod.fst then val j else lookWord y.acc j := by
  suffices h : ∀ a : List (Nat × W32), lookWord (l.foldl (fun a p => putBy (·.1) (p.1, BitVec.ofNat 32 p.2) a) a) j =
      if j ∈ l.map Prod.fst then val j else lookWord a j from h y.acc
  induction l with
  | nil => simp
  | cons p l ih =>
    intro a
    rw [List.foldl_cons, ih (fun q hq => hl q (List.mem_cons_of_mem _ hq)), lookWord_putBy, hl p List.mem_cons_self, List.map_cons]
    by_cases hmem : j ∈ l.map Prod.fst
    · rw [if_pos hmem, if_pos (List.mem_cons_of_mem _ hmem)]
    · rw [if_neg hmem]
      by_cases hj : j = p.1
      · rw [if_pos hj, if_pos (by simp [hj]), hj]
      · rw [if_neg hj, if_neg (by simpa [hj] using hmem)]

/-! ### The command -/

theorem touchPad_hushed {s : State} (core off n : Nat) (h : s.terms = []) : Hushed s (s.touchPad core off n) := by
  rw [State.touchPad, settle_nil h]
  exact .foldl _ (fun s g hs => ⟨(stampLoad_terms ..).trans hs, stampLoad_calm ..⟩) h

/-- The state that the product reads. -/
def mmRead (s : State) (core : Nat) (x : MmShape) : State :=
  ((s.touchPad core x.a (x.aBytes .i8)).touchPad core x.b (x.bBytes .i8 false)).touchPad core x.scale (x.sBytes .i8)

theorem mmRead_calm {s : State} (core : Nat) (x : MmShape) (h : s.terms = []) : Calm s (mmRead s core x) := by
  have ha := touchPad_hushed core x.a (x.aBytes .i8) h
  have hb := touchPad_hushed core x.b (x.bBytes .i8 false) ha.terms
  exact (ha.calm.trans hb.calm).trans (touchPad_hushed core x.scale (x.sBytes .i8) hb.terms).calm

/-- The accumulator words of a product, each with its index and its flags. -/
def mmWords (s : State) (c : Cmd) (sect : Nat) (x : MmShape) : List (Nat × Nat × FFlags) :=
  (List.range x.m).flatMap fun m => (List.range x.n).map fun n =>
    (x.o + 128 * m + n, s.mmElem c x .i8 false [] (lookWord ((s.coreAt c.ctx.core).sectAt sect).acc (x.o + 128 * m + n)).toNat m n x.nc)

/-- The section that holds the words of a product. -/
def mmWritten (now : Nat) (x : MmShape) (es : List (Nat × Nat × FFlags)) (y : Machine.Section) : Machine.Section :=
  ((y.setAcc (es.map fun e => (e.1, e.2.1))).addFlags (es.foldl (fun fl e => fl ||| e.2.2) 0)).useSub now (subArrays x.m x.n)

/-- A product has a chunk, and its chunks hold its K. -/
theorem nc_pos (w : List W32) : 0 < (MmShape.of w).nc ∧ (MmShape.of w).k ≤ 128 * (MmShape.of w).nc := by
  simp only [MmShape.nc, MmShape.of, ceilDiv]
  omega

theorem shape_n (w : List W32) : (MmShape.of w).n ≤ 128 := by
  have h := ((wordAt w 2).extractLsb' 7 (13 + 1 - 7)).isLt
  simp only [MmShape.of, fieldIn, bitsOf]
  omega

section Product
variable {s : State} {c : Cmd} {sect : Nat} (hl : c.lost = false) (ht : s.terms = []) (he : s.errs = []) (ho : c.op = .mm .i8)
include hl ht he ho

theorem complete_mm : s.complete { core := c.ctx.core, eng := .matrix sect } c =
    ((mmRead s c.ctx.core (MmShape.of c.words)).onCore c.ctx.core fun k => k.onSect sect
      (mmWritten (mmRead s c.ctx.core (MmShape.of c.words)).arith (MmShape.of c.words)
        (mmWords (mmRead s c.ctx.core (MmShape.of c.words)) c sect (MmShape.of c.words)))).finishCmd
      { core := c.ctx.core, eng := .matrix sect } c (MmShape.of c.words).nc 0 := by
  have hmm : s.complete { core := c.ctx.core, eng := .matrix sect } c =
      s.completeMm { core := c.ctx.core, eng := .matrix sect } c sect .i8 false := by
    simp only [State.complete, settleTables_nil ht, hl, ho, Bool.false_eq_true, if_false]
    rfl
  have hflaws (ch : Nat) : s.mmFlaws c.ctx.core (MmShape.of c.words) .i8 false ch = [] := by simp [State.mmFlaws, he]
  have hnone : (List.range (MmShape.of c.words).nc).find? (fun _ => !([] : List Miss).isEmpty) = none := by simp
  rw [hmm]
  simp only [State.completeMm, hflaws, Bool.false_eq_true, if_false, List.append_nil, hnone, Option.getD_none, Nat.lt_irrefl, false_and,
    (nc_pos c.words).1.ne']
  rfl

end Product

/-- The accumulator word of an index that a product leaves. -/
def mmWord (s : State) (core sect : Nat) (x : MmShape) (i : Nat) : W32 :=
  BitVec.ofInt 32 (((if x.acc then (lookWord ((s.coreAt core).sectAt sect).acc i).toNat else 0 : Nat) : Int) +
    productSum s core x ((i - x.o) / 128) ((i - x.o) % 128) x.k)

theorem mmWords_value (s : State) (c : Cmd) (sect : Nat) (w : List W32) :
    ∀ e ∈ mmWords s c sect (MmShape.of w), BitVec.ofNat 32 e.2.1 = mmWord s c.ctx.core sect (MmShape.of w) e.1 := by
  intro e hmem
  obtain ⟨m, -, hmem⟩ := List.mem_flatMap.1 hmem
  obtain ⟨n, hn, rfl⟩ := List.mem_map.1 hmem
  have hn128 := (List.mem_range.1 hn).trans_le (shape_n w)
  have hrow : ((MmShape.of w).o + 128 * m + n - (MmShape.of w).o) / 128 = m := by omega
  have hcol : ((MmShape.of w).o + 128 * m + n - (MmShape.of w).o) % 128 = n := by omega
  simp only [mmElem_i8, mmWord, hrow, hcol, Nat.min_eq_right (nc_pos w).2]

theorem mem_mmWords (s : State) (c : Cmd) (sect : Nat) {x : MmShape} {m n : Nat} (hm : m < x.m) (hn : n < x.n) :
    x.o + 128 * m + n ∈ ((mmWords s c sect x).map fun e => (e.1, e.2.1)).map Prod.fst := by
  simp only [mmWords, List.map_flatMap, List.map_map, List.mem_flatMap, List.mem_map, List.mem_range, Function.comp]
  exact ⟨m, hm, n, hn, rfl⟩

/-- Rows of the same bytes have the same sum. -/
theorem productSum_congr {s t : State} (h : SameBytes s t) (core : Nat) (x : MmShape) (m n len : Nat) :
    productSum t core x m n len = productSum s core x m n len := by
  have hop (base row i : Nat) : t.operandAt core base (x.k * 1) x.span 1 row i = s.operandAt core base (x.k * 1) x.span 1 row i := by
    have hrd (o : Nat) : t.rd (.pad core o) 1 = s.rd (.pad core o) 1 :=
      congrArg leNat (List.map_congr_left fun j _ => h (.pad core (o + j)) rfl)
    exact hrd _
  have hprod : byteProduct t core x m n = byteProduct s core x m n := by
    funext i
    simp only [byteProduct, hop]
  rw [productSum, hprod, productSum]

/-- The accumulator of a section that a command has written and completed with. -/
theorem finished_acc {s : State} (r : EngRef) {c : Cmd} (sect n e : Nat) (f : Machine.Section → Machine.Section) (hgo : GoesOn s c.ctx.core)
    (htr : (s.tenAt c.ctx.ten).trace.on = false) :
    ((((s.onCore c.ctx.core fun k => k.onSect sect f).finishCmd r c n e).coreAt c.ctx.core).sectAt sect).acc =
      (f ((s.coreAt c.ctx.core).sectAt sect)).acc := by
  have hcore := State.coreAt_onCore s c.ctx.core fun k => k.onSect sect f
  have hgo' : GoesOn (s.onCore c.ctx.core fun k => k.onSect sect f) c.ctx.core := by
    rw [GoesOn, hcore]
    exact hgo
  have hfinish := finishCmd_calm r n e hgo' htr
  rw [(hfinish.steady.core c.ctx.core).acc sect, hcore]
  exact congrArg Machine.Section.acc (sectAt_onSect (s.coreAt c.ctx.core) sect f)

theorem mmWritten_word (s : State) (c : Cmd) (sect now : Nat) {m n : Nat} (y : Machine.Section) (hm : m < (MmShape.of c.words).m)
    (hn : n < (MmShape.of c.words).n) :
    lookWord (mmWritten now (MmShape.of c.words) (mmWords s c sect (MmShape.of c.words)) y).acc ((MmShape.of c.words).o + 128 * m + n) =
      mmWord s c.ctx.core sect (MmShape.of c.words) ((MmShape.of c.words).o + 128 * m + n) := by
  have hval : ∀ p ∈ (mmWords s c sect (MmShape.of c.words)).map fun e => (e.1, e.2.1),
      BitVec.ofNat 32 p.2 = mmWord s c.ctx.core sect (MmShape.of c.words) p.1 := by
    intro p hp
    obtain ⟨e, hmem, rfl⟩ := List.mem_map.1 hp
    exact mmWords_value s c sect c.words e hmem
  exact (lookWord_setAcc y _ hval _).trans (if_pos (mem_mmWords s c sect hm hn))

/-- What MM.I8 leaves in a word of the accumulator (R71, R262). -/
theorem mm_word {s : State} {c : Cmd} {sect m n : Nat} (hl : c.lost = false) (ht : s.terms = []) (he : s.errs = []) (ho : c.op = .mm .i8)
    (hgo : GoesOn s c.ctx.core) (htr : (s.tenAt c.ctx.ten).trace.on = false) (hm : m < (MmShape.of c.words).m)
    (hn : n < (MmShape.of c.words).n) :
    lookWord (((s.complete { core := c.ctx.core, eng := .matrix sect } c).coreAt c.ctx.core).sectAt sect).acc
        ((MmShape.of c.words).o + 128 * m + n) =
      mmWord s c.ctx.core sect (MmShape.of c.words) ((MmShape.of c.words).o + 128 * m + n) := by
  have hread := mmRead_calm c.ctx.core (MmShape.of c.words) ht
  have htr' : ((mmRead s c.ctx.core (MmShape.of c.words)).tenAt c.ctx.ten).trace.on = false := by
    rwa [State.tenAt, hread.steady.tens]
  rw [complete_mm hl ht he ho, finished_acc _ _ _ _ _ (hgo.steady hread.steady) htr', mmWritten_word _ _ _ _ _ hm hn, mmWord, mmWord,
    (hread.steady.core c.ctx.core).acc sect, productSum_congr hread.bytes]

end Sys2Proof.Proofs
end

section
/-! PROOFS. What the engines do, step by step, and what a copy and a product leave (R199, R250, R258, R262). -/

namespace Sys2Proof.Proofs
open Sys2Proof Sys2Proof.Machine

/-- A product's word as the sum of the products of its operands' bytes. -/
theorem mmWord_sum (s : State) (core sect : Nat) (w : List W32) {m n : Nat} (hn : n < (MmShape.of w).n) :
    let x := MmShape.of w
    let elem (base row i : Nat) : Int := (BitVec.ofNat 8 (s.rd (.pad core (base + swizzle x.span 0 x.k row i)) 1)).toInt
    mmWord s core sect x (x.o + 128 * m + n) =
      BitVec.ofInt 32 ((if x.acc then ((lookWord ((s.coreAt core).sectAt sect).acc (x.o + 128 * m + n)).toNat : Int) else 0) +
        ((List.range x.k).map fun i => elem x.a m i * elem x.b n i).sum) := by
  intro x elem
  have hn128 := hn.trans_le (shape_n w)
  have hrow : (x.o + 128 * m + n - x.o) / 128 = m := by omega
  have hcol : (x.o + 128 * m + n - x.o) % 128 = n := by omega
  have hprod : byteProduct s core x m n = fun i => elem x.a m i * elem x.b n i := by
    funext i
    simp only [byteProduct, State.operandAt, byteInt, Nat.mul_one, elem]
  rw [mmWord, hrow, hcol, productSum, hprod, Nat.cast_ite, Nat.cast_zero]

/-- Settles O51: each step by what the model's event does, the copy by the bytes that it writes one after another, and the product by
induction on the chunks of K. -/
theorem enginesAct : Obligations.EnginesAct := by
  refine ⟨?command, fun s r hs => ⟨?stopCommand, ?stopRow⟩, ?release, ?fused, ?gate, ?exchange, ?launch, ?deliver, ?settle, ?results⟩
  case command =>
    intro s r i c hc
    exact ⟨commandCompletion_runs hc, fun h he l => lineDelivery_delivers hc h he l, fun va hw =>
      ⟨translationFault_asks hc hw, fun ha => ⟨translationFault_refused hc hw ha, denyPage_queue s r va⟩⟩⟩
  case stopCommand => exact fun c l hq hh ht hp hb => stopHold_command hs hq hh ht hp hb
  case stopRow => exact fun x he hh hx => stopHold_row hs he hh hx
  case release => exact fun s r => ⟨_, rfl, releaseStop_stops s r⟩
  case fused => exact fun s core sect n => qmFusedPass_passes
  case gate =>
    intro s core sect sub _ hsub h0 hi
    exact ⟨_, subarrayGate_gates h0 hi, gated_asleep s core sect hsub⟩
  case exchange => exact fun s core c l => tableExchange_exchanges
  case launch =>
    intro s core i k hk hd hq _
    refine ⟨_, tileCmd s k, tileLaunch_launches hk hd hq, ?_, ?_, rfl⟩
    · rw [tileLaunch_core]
      rfl
    · rw [tileLaunch_core]
      exact launched_mq i k.sect (tileCmd s k) (s.coreAt core)
  case deliver =>
    intro s core sect c l net h b bwd rows hq ho hm hr hs hx
    exact ⟨tileDelivery_delivers hq ho hm hr hs hx, fun va => tileDelivery_crosses hq ho hm hr hs hx⟩
  case settle => exact fun s core c => backwardSettle_settles
  case results =>
    intro s c k hk hpre hrun htr hl ht he
    have hgo : GoesOn s c.ctx.core := ⟨k, hk, hpre, hrun⟩
    refine ⟨fun r src dst ho hdone hd hs h16 h32 hsrc hdst => ⟨fun i hi => ?_, fun o hout => ?_⟩, fun sect ho _ m hm n hn => ?_⟩
    · exact lin_destination hl ht he ho hdone hd hs h16 h32 hsrc hdst hgo htr r hi
    · exact lin_frame hl ht he ho hdone hd hs h16 h32 hsrc hdst hgo htr r hout
    · exact (mm_word hl ht he ho hgo htr hm hn).trans (mmWord_sum s c.ctx.core sect c.words hn)

end Sys2Proof.Proofs
end

section
/-! PROOFS. What the issue of a lane's request does (R211, R220): to the lane, to the collector, and at the home of an access at the core itself. -/

namespace Sys2Proof.Proofs
open Sys2Proof Sys2Proof.Machine

/-! ### Effects on a lane -/

/-- An effect on a lane that writes no value of a register, and empties none but those of `ds`. -/
structure LaneEffect (ds : List Dst) (f : View → View) : Prop where
  kept : ∀ v, RegsKept ds 0#32 v (f v)
  win  : ∀ v, (f v).th.win = v.th.win
  uni  : ∀ v, (f v).k.map (·.val) = v.k.map (·.val)

section LaneEffect
variable {ds : List Dst} {f g : View → View}

theorem LaneEffect.tid (h : LaneEffect ds f) (v : View) : (f v).th.ident.tid = v.th.ident.tid := (h.kept v).tid

theorem LaneEffect.same : LaneEffect ds fun v => v := ⟨fun _ => ⟨rfl, fun _ _ => rfl, fun _ _ => rfl, rfl⟩, fun _ => rfl, fun _ => rfl⟩

theorem LaneEffect.andThen (hf : LaneEffect ds f) (hg : LaneEffect ds g) : LaneEffect ds fun v => g (f v) :=
  ⟨fun v => (hf.kept v).trans (hg.kept (f v)), fun v => (hg.win (f v)).trans (hf.win v), fun v => (hg.uni (f v)).trans (hf.uni v)⟩

/-- An effect on the thread that keeps its registers. -/
theorem LaneEffect.onTh {g : Thread → Thread} (h : ∀ t, SameRegs t (g t)) : LaneEffect ds fun v => v.onTh g :=
  ⟨SameRegs.kept h ds 0#32, fun v => (h v.th).win, fun _ => rfl⟩

theorem LaneEffect.ite {p : Prop} [Decidable p] (hf : LaneEffect ds f) (hg : LaneEffect ds g) : LaneEffect ds fun v => if p then f v else g v := by
  by_cases h : p
  · simpa only [if_pos h] using hf
  · simpa only [if_neg h] using hg

theorem markEmpty_uni (l : List Dst) (v : View) : (v.markEmpty l).k.map (·.val) = v.k.map (·.val) := by
  unfold View.markEmpty
  induction l generalizing v with
  | nil => rfl
  | cons d l ih => exact (ih _).trans (put_values v d (r := { v.get d with full := false }) rfl).uni

theorem LaneEffect.markEmpty (ds : List Dst) : LaneEffect ds fun v => v.markEmpty ds := by
  have hkeeps (v : View) : Keeps ds 0#32 id v (v.markEmpty ds) := .markEmpty fun _ h => h
  exact ⟨fun v => .of_keeps (hkeeps v), fun v => congrArg (·.win) (hkeeps v).2.2.2.2, markEmpty_uni ds⟩

/-- The lane marks the destinations of its request, if it has any. -/
theorem marked_effect (op : ReqOp) (dst : Option (List Dst)) : LaneEffect (dst.getD []) (marked op dst) := by
  cases dst with
  | none => exact .same
  | some ds =>
    have h := LaneEffect.markEmpty ds
    have hpending (v : View) : RegsKept ds 0#32 (v.markEmpty ds) (marked op (some ds) v) := ⟨rfl, fun _ _ => rfl, fun _ _ => rfl, rfl⟩
    exact ⟨fun v => (h.kept v).trans (hpending v), h.win, h.uni⟩

theorem commit_effect (len : W64) : LaneEffect ds fun v => v.commit len := by
  refine .onTh fun t => ?_
  obtain ⟨htid, hregs, hwin, hflags⟩ := sameRegs_complete { t with walked := [], crossed := none } len
  exact ⟨htid, hregs, hwin, hflags⟩

theorem status_effect (st : Status) : LaneEffect ds fun v => v.onTh fun t => { t with status := st } := .onTh fun _ => ⟨rfl, rfl, rfl, rfl⟩

theorem sameRegs_noteSeen (t : Thread) : SameRegs t t.noteSeen := by
  unfold Thread.noteSeen
  split
  · split <;> exact ⟨rfl, rfl, rfl, rfl⟩
  · exact ⟨rfl, rfl, rfl, rfl⟩

theorem sameRegs_bind (id : Nat) (xs : List W32) (t : Thread) : SameRegs t (bindPending id xs t) := ⟨rfl, rfl, rfl, rfl⟩

end LaneEffect

/-! ### The collector (R211) -/

/-- A request that enters the collector changes nothing else of its core. -/
theorem collect_coll {c d : Core} {serial : Nat} {h : Hit} {r : Req} (hd : c.collect serial h r = some d) : ∃ l, d = { c with coll := l } := by
  simp only [Core.collect] at hd
  repeat' split at hd
  all_goals
    cases hd
    try exact ⟨_, rfl⟩

theorem putCore_collect {s : State} {core : Nat} {d : Core} {serial : Nat} {h : Hit} {r : Req}
    (hd : (s.coreAt core).collect serial h r = some d) : ∃ l, s.putCore d = s.onCore core fun c => { c with coll := l } := by
  obtain ⟨l, rfl⟩ := collect_coll hd
  refine ⟨l, ?_⟩
  rw [State.onCore]
  exact congrArg s.putCore (congrArg (fun i => { s.coreAt core with coll := l, id := i }) (coreAt_id s core))

/-- A collector with other requests, and the number that the next one takes. -/
def withColl (s : State) (core : Nat) (l : List Group) (n : Nat) : State := { s.onCore core fun c => { c with coll := l } with serial := n }

/-! ### The issue of a request -/

/-- What holds of a state, and is kept by effects on the lane, by its collector, and by the access at the core itself, holds after the issue of
the lane's request. -/
theorem issueReq_keeps {P : State → Prop} {s : State} {core n : Nat} {x : W32} {h : Hit} {op : ReqOp} {dst : Option (List Dst)} {len : W64}
    (hs : P s) (lane : ∀ u f, LaneEffect (dst.getD []) f → P u → P (u.onThread core x f)) (coll : ∀ l m, P (withColl s core l m))
    (near : h.near core = true → P (s.perform core h.loc n op).1) : P (s.issueReq core x h n op dst len) := by
  have hbound (u : State) (id : Nat) (xs : List W32) (hu : P u) : P ((u.onThread core x (issued op dst len)).bind core x id xs) := by
    rw [bind_eq]
    exact lane _ _ (.onTh (sameRegs_bind id xs)) (lane u _ ((marked_effect op dst).andThen (commit_effect len)) hu)
  have hstatus (u : State) (st : Status) (hu : P u) : P (u.onThread core x fun v => v.onTh fun t => { t with status := st }) :=
    lane u _ (status_effect st) hu
  unfold State.issueReq
  split
  · exact hs
  next v _ =>
    extract_lets id load mark bound hit
    clear_value hit
    split
    next hnear => exact hbound _ _ _ (near (Bool.and_eq_true_iff.1 hnear).1)
    · split
      · exact lane _ _ (.onTh fun _ => ⟨rfl, rfl, rfl, rfl⟩) (hbound _ _ _ hs)
      · cases hit with
        | some y => exact hbound _ _ _ hs
        | none =>
          simp only
          split
          · exact hstatus _ _ hs
          next d hd =>
            obtain ⟨l, hl⟩ := putCore_collect hd
            rw [hl]
            refine lane _ _ (.ite ?_ (.ite ?_ ?_)) (coll l _)
            · exact (marked_effect op dst).andThen (status_effect _)
            · exact status_effect _
            · refine ((marked_effect op dst).andThen (.onTh (g := fun t => if h.remote then { t with far := t.far ++ [h.va] } else t)
                fun t => ?_)).andThen (commit_effect len)
              split <;> exact ⟨rfl, rfl, rfl, rfl⟩

/-- What the note of an unwritten word keeps (R16). -/
theorem noteSeen_keeps {P : State → Prop} {s : State} {core : Nat} {x : W32} {ds : List Dst} (b : Bool) (hs : P s)
    (lane : ∀ u f, LaneEffect ds f → P u → P (u.onThread core x f)) : P (s.noteSeen core x b) := by
  unfold State.noteSeen
  split
  · exact lane s _ (.onTh sameRegs_noteSeen) hs
  · exact hs

/-- What holds at the start of a fold and is kept by each of its steps holds at its end. -/
theorem foldl_keeps {α β : Type} {P : β → Prop} (l : List α) {f : β → α → β} (hf : ∀ b, ∀ a ∈ l, P b → P (f b a)) {b : β} (hb : P b) :
    P (l.foldl f b) := by
  induction l generalizing b with
  | nil => exact hb
  | cons a l ih => exact ih (fun b x hx => hf b x (List.mem_cons_of_mem _ hx)) (hf b a List.mem_cons_self hb)

/-- What the body of a memory instruction keeps for each lane, with the note of what the lane read, the instruction keeps. -/
theorem memForm_keeps {P : State → Prop} {s0 : State} {o : Opnds} {acc : View → Access} {pre : View → Verdict}
    {body : State → Nat → View → Hit → State} {tids : List W32} {u : State}
    (step : ∀ u, ∀ x ∈ tids, ∀ v h b, P u → u.view? s0.issue.core x = some v → P ((body u s0.issue.core v h).noteSeen s0.issue.core x b))
    (hu : P u) : P ((memForm o acc pre body s0).act tids u) := by
  refine foldl_keeps tids (fun u x hx hP => ?_) hu
  split
  · exact hP
  next v hv =>
    split
    · exact hP
    · exact step u x hx v _ _ hP hv

end Sys2Proof.Proofs
end

section
/-! PROOFS. Loads, LDF, the affine loads and AFFSET leave every byte, whether their lanes execute, park, are held or trap (R213, R235, R237). -/

namespace Sys2Proof.Proofs
open Sys2Proof Sys2Proof.Machine

/-! ### States of the same storage -/

/-- From core `c` to core `d` no word of the scratchpad has changed. -/
structure CoreStore (c d : Core) : Prop where
  pad    : d.pad = c.pad
  pinned : d.pinned = c.pinned
  epoch  : d.epoch = c.epoch

/-- From `s` to `t` no byte of storage and no held term has changed. -/
structure StoreKept (s t : State) : Prop where
  terms : t.terms = s.terms
  bytes : SameBytes s t

section StoreKept
variable {s t u : State}

theorem StoreKept.refl : StoreKept s s := ⟨rfl, fun _ _ => rfl⟩
theorem StoreKept.trans (h : StoreKept s t) (k : StoreKept t u) : StoreKept s u :=
  ⟨k.terms.trans h.terms, fun m hm => (k.bytes m hm).trans (h.bytes m hm)⟩

/-- What leaves memory, the held terms and the cores as they are. -/
theorem StoreKept.of_eq (hm : t.mem = s.mem) (hl : t.cells = s.cells) (hf : t.free = s.free) (ht : t.terms = s.terms)
    (hc : t.coreAt = s.coreAt) : StoreKept s t :=
  ⟨ht, fun _ h => rdByte_congr hm hl hf (fun i o => by rw [hc]) h⟩

theorem StoreKept.onCore (i : Nat) {f : Core → Core} (hf : ∀ c, CoreStore c (f c)) : StoreKept s (s.onCore i f) := by
  refine ⟨rfl, fun _ h => rdByte_congr (s := s) (t := s.onCore i f) rfl rfl rfl (fun j o => ?_) h⟩
  by_cases hj : j = i
  · subst hj
    obtain ⟨hpad, hpinned, hepoch⟩ := hf (s.coreAt j)
    rw [State.coreAt_onCore]
    exact padByte_congr (c := s.coreAt j) (d := { f (s.coreAt j) with id := j }) hpad hpinned (coreAt_id s j).symm hepoch o
  · rw [State.coreAt_onCore_other _ _ _ _ hj]

theorem StoreKept.onTids (i : Nat) (tids : List W32) (f : View → View) : StoreKept s (s.onTids i tids f) := .onCore i fun _ => ⟨rfl, rfl, rfl⟩
theorem StoreKept.onThread (i : Nat) (x : W32) (f : View → View) : StoreKept s (s.onThread i x f) := .onTids i [x] f

theorem StoreKept.ite {p : Prop} [Decidable p] (ht : StoreKept s t) (hu : StoreKept s u) : StoreKept s (if p then t else u) := by
  split
  · exact ht
  · exact hu

theorem StoreKept.foldl {α : Type} (l : List α) {f : State → α → State} (hf : ∀ s x, StoreKept s (f s x)) : StoreKept s (l.foldl f s) :=
  foldl_keeps l (fun u x _ hu => hu.trans (hf u x)) .refl

/-! ### Traps (R28, R302, R351, R388) -/

theorem cancelDeferred_store (core : Nat) (x : W32) : StoreKept s (s.cancelDeferred core x) := by
  unfold State.cancelDeferred
  extract_lets mine tried ids s1 s2
  have h1 : StoreKept s s1 := .of_eq rfl rfl rfl rfl rfl
  have h2 : StoreKept s1 s2 := .onCore core fun _ => ⟨rfl, rfl, rfl⟩
  exact .ite .refl ((h1.trans h2).trans (.onThread core x _))

theorem sumpTrap_store (core ten cause : Nat) (subs : List Nat) (pc : W64) (mask : W32) :
    StoreKept s (s.sumpTrap core ten cause subs pc mask) :=
  .foldl _ fun _ _ => .ite (.of_eq rfl rfl rfl rfl rfl) .refl

theorem closeTiles_store (l : List W32) (c : Core) : CoreStore c (l.foldl Core.closeTiles c) :=
  foldl_keeps (P := CoreStore c) l (f := Core.closeTiles) (fun _ _ _ h => ⟨h.pad, h.pinned, h.epoch⟩) ⟨rfl, rfl, rfl⟩

theorem takeTrap_store (core : Nat) (group : List (W32 × Trap)) (mk : Thread → Trap → W32 → TrapRegs) :
    StoreKept s (s.takeTrap core group mk) := by
  unfold State.takeTrap
  split
  · exact .refl
  · extract_lets who mask wsub adj s1 s2 s3 s4
    have h1 : StoreKept s s1 := .foldl _ fun _ _ => cancelDeferred_store ..
    have h2 : StoreKept s s2 := h1.trans (.foldl _ fun _ _ => .onThread ..)
    have h3 : StoreKept s s3 := h2.trans (.onCore core fun c => closeTiles_store _ c)
    have h4 : StoreKept s s4 := h3.trans (.onCore core fun _ => ⟨rfl, rfl, rfl⟩)
    clear_value who
    cases who with
    | nil => exact h4
    | cons t l => exact h4.trans (sumpTrap_store ..)

/-! ### A split carried out (R137, R229, R351) -/

theorem actQm_store {o : Opnds} {act : List W32 → State → State} {tids : List W32} (hs : s.terms = [])
    (hact : ∀ u : State, u.terms = [] → StoreKept u (act tids u)) : StoreKept s (s.actQm o act tids) := by
  unfold State.actQm
  extract_lets who core key s1 s2 acted cmds s3
  have h1 : StoreKept s s1 := .foldl _ fun _ _ => .onThread ..
  have h2 : StoreKept s s2 := h1.trans (hact s1 (h1.terms.trans hs))
  have h3 : StoreKept s s3 := h2.trans (.foldl _ fun _ _ => .onThread ..)
  exact .ite (hact s hs) (.ite h3 (h3.trans (.onCore core fun _ => ⟨rfl, rfl, rfl⟩)))

/-- What stands after the lanes that execute: lanes park, are held, or trap, which changes no byte. -/
theorem applySplit_store (s : State) (o : Opnds) (sp : Split) (act : List W32 → State → State) :
    StoreKept (if sp.go.isEmpty then s else s.actQm o act sp.go) (s.applySplit o sp act) := by
  unfold State.applySplit
  extract_lets core depths mk s1 s2 s3 s4
  have h2 : StoreKept s1 s2 := .foldl _ fun _ _ => .onThread ..
  have h3 : StoreKept s1 s3 := h2.trans (.foldl _ fun _ _ => .onThread ..)
  have h4 : StoreKept s1 s4 := h3.trans (.ite (.foldl _ fun _ _ => .onThread ..) .refl)
  exact h4.trans (.foldl _ fun _ _ => takeTrap_store ..)

theorem applySplit_acts {o : Opnds} {sp : Split} {act : List W32 → State → State} (hs : s.terms = [])
    (hact : ∀ u : State, u.terms = [] → StoreKept u (act sp.go u)) : StoreKept s (s.applySplit o sp act) :=
  (StoreKept.ite .refl (actQm_store hs hact)).trans (applySplit_store ..)

/-! ### Loads -/

/-- A request that only reads, where no term is held. -/
theorem issueReq_store {core n : Nat} {x : W32} {h : Hit} {op : ReqOp} {dst : Option (List Dst)} {len : W64} (hs : s.terms = [])
    (hop : op = .future ∨ ∃ sz, op = .load sz) : StoreKept s (s.issueReq core x h n op dst len) := by
  have hperform : s.perform core h.loc n op = (s.stampLoad core h.loc, s.rd h.loc n) := by
    obtain rfl | ⟨sz, rfl⟩ := hop <;> rw [State.perform, settle_nil hs]
  refine issueReq_keeps .refl (fun u f _ hu => hu.trans (.onThread ..)) (fun l m => ?_) fun _ => ?_
  · have hcoll : StoreKept s (s.onCore core fun c => { c with coll := l }) := .onCore core fun _ => ⟨rfl, rfl, rfl⟩
    exact hcoll.trans (.of_eq rfl rfl rfl rfl rfl)
  · rw [hperform]
    exact ⟨stampLoad_terms .., (stampLoad_calm core h.loc).bytes⟩

theorem noteSeen_store {core : Nat} {x : W32} {b : Bool} : StoreKept s (s.noteSeen core x b) :=
  noteSeen_keeps (ds := []) b .refl fun _ _ _ hu => hu.trans (.onThread ..)

theorem memForm_store {s0 : State} {o : Opnds} {acc : View → Access} {pre : View → Verdict} {body : State → Nat → View → Hit → State}
    {tids : List W32} (hs : s.terms = []) (hbody : ∀ u core v h, u.terms = [] → StoreKept u (body u core v h)) :
    StoreKept s ((memForm o acc pre body s0).act tids s) :=
  memForm_keeps (fun u _ _ v h _ hu _ => (hu.trans (hbody u _ v h (hu.terms.trans hs))).trans noteSeen_store) .refl

theorem loadForm_store {s0 : State} {f : Bool} {sz : BitVec 3} {d a : Fld} {off len : W64} (tids : List W32) (u : State) (hu : u.terms = []) :
    StoreKept u ((loadForm f sz d a off len s0).act tids u) := by
  rw [loadForm]
  exact memForm_store hu fun _ _ _ _ hw => issueReq_store hw (.inr ⟨_, rfl⟩)

theorem ldfForm_store {s0 : State} {f : Bool} {d a : Fld} {off len : W64} (tids : List W32) (u : State) (hu : u.terms = []) :
    StoreKept u ((ldfForm f d a off len s0).act tids u) := by
  rw [ldfForm]
  exact memForm_store hu fun _ _ _ _ hw => issueReq_store hw (.inl rfl)

theorem onAff_store (j : Nat) (f : AffRec → AffRec) : StoreKept s (s.onAff j f) := .onCore _ fun _ => ⟨rfl, rfl, rfl⟩

/-- What the requests of an affine access keep, the access keeps. -/
theorem affForm_keeps {P : State → Prop} {s0 : State} {o : RJ} {n : Nat} {store : Bool} {tids : List W32} {u : State}
    (aff : ∀ f, P (u.onAff o.j.toNat f))
    (step : ∀ u, ∀ x ∈ tids, ∀ v b, P u → u.view? s0.issue.core x = some v →
      P ((u.issueReq s0.issue.core x { loc := .pad s0.issue.core ((s0.affRec o.j.toNat).offset (v.rd32 o.a)).toNat } n
        (if store then .store (storeData v o.d (if n = 8 then 5 else 4)) else .load (if n = 8 then 5 else 4))
        (if store then none else some (v.th.refs o.d (n / 4))) 4#64).noteSeen s0.issue.core x b)) :
    P ((affForm o n store s0).act tids u) := by
  refine foldl_keeps tids (fun u x hx hP => ?_) (aff _)
  split
  · exact hP
  next v hv => exact step u x hx v _ hP hv

theorem affLoad_store {s0 : State} {o : RJ} {n : Nat} {tids : List W32} (hs : s.terms = []) :
    StoreKept s ((affForm o n false s0).act tids s) :=
  affForm_keeps (fun _ => onAff_store ..) fun _ _ _ _ _ hu _ =>
    (hu.trans (issueReq_store (hu.terms.trans hs) (.inr ⟨_, rfl⟩))).trans noteSeen_store

theorem affset_store {o : RAJ} {tids : List W32} : StoreKept s ((affsetForm o).act tids s) := by
  refine StoreKept.trans ?_ (.onTids ..)
  split
  · exact .refl
  · exact onAff_store ..

/-- The first clause of O31: table by table. -/
theorem loads_sameBytes {t : State} {o : M2} {l : L2} {j : RJ} {a : RAJ} {x : BitVec 26} (hs : s.terms = []) :
    ∀ i ∈ (loadAccesses o l x).map (·.1) ++ [.lda32 j, .lda64 j, .affset a], exec i s = .next t → s.sameBytes t := by
  have each {i : Instr} (k : LaneForm) (hx : exec i s = .next (s.eachLane k))
      (hact : ∀ tids, ∀ u : State, u.terms = [] → StoreKept u (k.act tids u)) : exec i s = .next t → s.sameBytes t := by
    intro ht
    rw [hx] at ht
    obtain rfl : s.eachLane k = t := by simpa using ht
    exact (applySplit_acts hs (hact _)).bytes
  simp only [loadAccesses, List.map_cons, List.map_nil, List.forall_mem_append, List.forall_mem_cons]
  refine ⟨⟨each (loadForm o.f o.s o.d o.a (off8 o.i) 4#64 s) rfl loadForm_store,
    each (loadForm o.f o.s o.d o.a (off34 x o.i) 8#64 s) rfl loadForm_store,
    each (ldfForm l.f l.d l.a (off8 l.i) 4#64 s) rfl ldfForm_store, each (ldfForm l.f l.d l.a (off34 x l.i) 8#64 s) rfl ldfForm_store,
    List.forall_mem_nil _⟩, each (affForm j 4 false s) rfl fun _ _ => affLoad_store,
    each (affForm j 8 false s) rfl fun _ _ => affLoad_store, fun ht => ?_, List.forall_mem_nil _⟩
  obtain rfl : s.allLanes (affsetForm a) = t := by simpa using (show Host.Outcome.next (s.allLanes (affsetForm a)) = .next t from ht)
  exact (applySplit_acts hs fun _ _ => affset_store).bytes

end StoreKept

end Sys2Proof.Proofs
end

section
/-! PROOFS. What an access at its home changes: the bytes of its place, held terms, and timestamps (R203, R209, R238, R240). -/

namespace Sys2Proof.Proofs
open Sys2Proof Sys2Proof.Machine

/-! ### Steps beside memory -/

/-- From core `c` to core `d` no crew, no word of the scratchpad and no translation has changed. -/
structure CoreAside (c d : Core) : Prop where
  still : CoreStill c d
  tlb   : d.tlb = c.tlb

theorem CoreAside.refl (c : Core) : CoreAside c c := ⟨.refl c, rfl⟩

/-- What an access keeps apart from its bytes, its terms and its answers. -/
structure Aside (s t : State) : Prop where
  mem   : t.mem = s.mem
  cells : t.cells = s.cells
  free  : t.free = s.free
  tens  : t.tens = s.tens
  stale : t.stale = s.stale
  dev   : t.dev = s.dev
  errs  : t.errs = s.errs
  terms : t.terms = s.terms
  core  : ∀ i, CoreAside (s.coreAt i) (t.coreAt i)

section Aside
variable {s t u : State}

theorem Aside.refl : Aside s s := ⟨rfl, rfl, rfl, rfl, rfl, rfl, rfl, rfl, fun _ => .refl _⟩
theorem Aside.trans (h : Aside s t) (k : Aside t u) : Aside s u :=
  ⟨k.mem.trans h.mem, k.cells.trans h.cells, k.free.trans h.free, k.tens.trans h.tens, k.stale.trans h.stale, k.dev.trans h.dev,
    k.errs.trans h.errs, k.terms.trans h.terms,
    fun i => ⟨(h.core i).still.trans (k.core i).still, (k.core i).tlb.trans (h.core i).tlb⟩⟩

/-- What an access writes beside memory: timestamps, future words, transfers, deferred requests. -/
theorem Aside.putStamps (x : Line) : Aside s (s.putStamps x) := ⟨rfl, rfl, rfl, rfl, rfl, rfl, rfl, rfl, fun _ => .refl _⟩
theorem Aside.setFuture (l : Loc) (b : Bool) : Aside s (s.setFuture l b) := ⟨rfl, rfl, rfl, rfl, rfl, rfl, rfl, rfl, fun _ => .refl _⟩
theorem Aside.cross (x : Load) (die : Nat) : Aside s (s.cross x die) := ⟨rfl, rfl, rfl, rfl, rfl, rfl, rfl, rfl, fun _ => .refl _⟩
theorem Aside.deferred (l : List Deferred) : Aside s { s with deferred := l } := ⟨rfl, rfl, rfl, rfl, rfl, rfl, rfl, rfl, fun _ => .refl _⟩
theorem Aside.serial (n : Nat) : Aside s { s with serial := n } := ⟨rfl, rfl, rfl, rfl, rfl, rfl, rfl, rfl, fun _ => .refl _⟩

theorem Aside.onCore (i : Nat) {f : Core → Core} (hf : ∀ c, CoreAside c (f c)) : Aside s (s.onCore i f) := by
  refine ⟨rfl, rfl, rfl, rfl, rfl, rfl, rfl, rfl, fun j => ?_⟩
  by_cases h : j = i
  · subst h
    rw [State.coreAt_onCore]
    obtain ⟨⟨hc, hp, hn, he⟩, ht⟩ := hf (s.coreAt j)
    exact ⟨⟨hc, hp, hn, he⟩, ht⟩
  · rw [State.coreAt_onCore_other _ _ _ _ h]
    exact .refl _

theorem Aside.ite {p : Prop} [Decidable p] (ht : Aside s t) (hu : Aside s u) : Aside s (if p then t else u) := by
  split
  · exact ht
  · exact hu

theorem Aside.foldl {α : Type} (l : List α) {f : State → α → State} (hf : ∀ s x, Aside s (f s x)) : Aside s (l.foldl f s) :=
  foldl_keeps l (fun u x _ hu => hu.trans (hf u x)) .refl

theorem raisePts_aside (i p : Nat) : Aside s (s.raisePts i p) :=
  .onCore i (f := fun c => { c with pts := max c.pts p }) fun _ => ⟨⟨rfl, rfl, rfl, rfl⟩, rfl⟩

theorem raiseAll_aside (p : Nat) : Aside s (s.raiseAll p) :=
  ⟨rfl, rfl, rfl, rfl, rfl, rfl, rfl, rfl, fun i => by rw [coreAt_raiseAll]; exact ⟨⟨rfl, rfl, rfl, rfl⟩, rfl⟩⟩

theorem stampLoad_aside (i : Nat) (l : Loc) : Aside s (s.stampLoad i l) := by
  unfold State.stampLoad
  exact .ite .refl ((Aside.putStamps _).trans (raisePts_aside i _))

theorem stampStore_aside (i : Nat) (l : Loc) : Aside s (s.stampStore i l) := by
  unfold State.stampStore
  exact .ite .refl ((Aside.putStamps _).trans (raisePts_aside i _))

theorem stampTerms_aside (ts : List Term) : Aside s (s.stampTerms ts) := by
  refine .foldl _ fun s l => ?_
  have hstamped (x : Line) (cs : List Nat) (p : Nat) : Aside s (cs.foldl (fun s c => s.raisePts c p) (s.putStamps x)) :=
    (Aside.putStamps x).trans (.foldl cs fun _ c => raisePts_aside c p)
  exact .ite ((hstamped _ _ _).trans (raiseAll_aside _)) (hstamped _ _ _)

theorem clearFutures_aside (l : Loc) (n : Nat) : Aside s (s.clearFutures l n) := .foldl _ fun _ _ => .setFuture ..

theorem withColl_aside (core : Nat) (l : List Group) (n : Nat) : Aside s (withColl s core l n) :=
  have hcoll : Aside s (s.onCore core fun c => { c with coll := l }) := .onCore core fun _ => ⟨⟨rfl, rfl, rfl, rfl⟩, rfl⟩
  hcoll.trans (.serial n)

end Aside

/-! ### The order in which terms settle (R240) -/

theorem mem_insertBy {α : Type} {le : α → α → Bool} {x y : α} {l : List α} (h : y ∈ insertBy le x l) : y = x ∨ y ∈ l := by
  induction l with
  | nil => exact .inl (List.mem_singleton.1 h)
  | cons z l ih =>
    rw [insertBy] at h
    split at h
    · exact List.mem_cons.1 h
    · rcases List.mem_cons.1 h with rfl | h
      · exact .inr List.mem_cons_self
      · exact (ih h).imp_right (List.mem_cons_of_mem _)

theorem mem_sortBy {α : Type} {le : α → α → Bool} {y : α} {l : List α} (h : y ∈ sortBy le l) : y ∈ l := by
  induction l with
  | nil => exact h
  | cons x l ih =>
    rcases mem_insertBy h with rfl | h
    · exact List.mem_cons_self
    · exact List.mem_cons_of_mem _ (ih h)

/-! ### What the access at its home keeps -/

/-- Every held term is at a place where `Safe` lets it write. -/
def TermsSafe (Safe : Loc → Nat → Prop) (l : List Term) : Prop := ∀ x ∈ l, Safe x.loc x.op.size

/-- A crew of some more spilled terms. -/
def spillCrews (s : State) (g : Crew → Bool) : State := { s with cores := s.cores.map fun k => k.onCrew fun c => if g c then c.spill else c }

theorem coreAt_spillCrews (s : State) (g : Crew → Bool) (i : Nat) :
    (spillCrews s g).coreAt i = (s.coreAt i).onCrew fun c => if g c then c.spill else c := by
  simp only [spillCrews, State.coreAt, List.find?_map, Function.comp_def, Core.onCrew]
  cases s.cores.find? fun c => c.id == i <;> rfl

/-- What holds whatever an access does that writes only where `Safe` says. -/
structure HomeRule (Safe : Loc → Nat → Prop) (P : State → Prop) : Prop where
  safe  : ∀ {s}, P s → TermsSafe Safe s.terms
  aside : ∀ {s t}, Aside s t → P s → P t
  write : ∀ {s} l n v, Safe l n → P s → P (s.wrTables l n v)
  terms : ∀ {s} ts, TermsSafe Safe ts → P s → P { s with terms := ts }
  bind  : ∀ {s} core x id xs, P s → P (s.bind core x id xs)
  spill : ∀ {s} g, P s → P (spillCrews s g)

section Home
variable {Safe : Loc → Nat → Prop} {P : State → Prop} (r : HomeRule Safe P)
include r

theorem HomeRule.put {s : State} (l : Loc) (n v : Nat) (hl : Safe l n) (h : P s) : P ((s.clearFutures l n).wrTables l n v) :=
  r.write l n v hl (r.aside (clearFutures_aside l n) h)

theorem HomeRule.applyTerm {s : State} (x : Term) (hx : Safe x.loc x.op.size) (h : P s) : P (s.applyTerm x) := by
  unfold State.applyTerm
  extract_lets n
  split
  · exact h
  · split
    · exact h
    · exact r.put x.loc n _ hx h

theorem HomeRule.settle {s : State} (l : Loc) (n : Nat) (h : P s) : P (s.settle l n) := by
  have hsafe := r.safe h
  have hkept : P { s with terms := s.terms.filter fun t => !t.covers l n } := r.terms _ (fun x hx => hsafe x (List.mem_filter.1 hx).1) h
  unfold State.settle
  extract_lets mine
  split
  · exact h
  · refine r.aside (stampTerms_aside mine) (foldl_keeps mine (fun u x hx hu => r.applyTerm x ?_ hu) hkept)
    exact hsafe x (List.mem_filter.1 (mem_sortBy hx)).1

theorem HomeRule.holdTerm {s : State} (x : Term) (hx : Safe x.loc x.op.size) (h : P s) : P (s.holdTerm x) := by
  unfold State.holdTerm
  extract_lets s1
  have h1 : P s1 := by
    simp only [s1]
    split
    · exact r.settle _ _ h
    · exact h
  split
  extract_lets s2
  have h2 : P s2 := by
    simp only [s2]
    split
    · exact h1
    · unfold State.spillTerms
      split
      · exact h1
      · exact r.spill _ (r.settle _ _ h1)
  refine r.terms _ (fun y hy => ?_) h2
  rcases List.mem_append.1 hy with hy | hy
  · exact r.safe h2 y hy
  · obtain rfl := List.mem_singleton.1 hy
    exact hx

theorem HomeRule.answerLdf {s : State} (v : Nat) (d : Deferred) (h : P s) : P (s.answerLdf v d) := by
  unfold State.answerLdf
  extract_lets s1 q s2 s3
  have h1 : P s1 := r.bind _ _ _ _ h
  have h2 : P s2 := r.aside (.onCore d.core fun _ => ⟨⟨rfl, rfl, rfl, rfl⟩, rfl⟩) h1
  have h3 : P s3 := r.aside (.serial _) h2
  split
  · exact h3
  · exact r.aside (.cross _ _) h3

theorem HomeRule.answerAll {s : State} (l : Loc) (v : Nat) (h : P s) : P (s.answerAll l v) :=
  foldl_keeps _ (fun _ d _ hu => r.answerLdf v d (r.aside (stampLoad_aside d.core l) hu)) (r.aside (.deferred _) h)

theorem HomeRule.storeAt {s : State} (core : Nat) (l : Loc) (n v : Nat) (hl : Safe l n) (h : P s) : P (s.storeAt core l n v) :=
  r.aside (stampStore_aside core l) (r.put l n v hl (r.settle l n h))

/-- The access performed: one that writes, where it may. -/
theorem HomeRule.perform {s : State} (core : Nat) (l : Loc) (n : Nat) (op : ReqOp) (hl : Safe l n) (hstf : ∀ v, op = .stf v → n = 8)
    (hterm : ∀ a y ten task crew tid, op = .term a y ten task crew tid → n = a.size) (h : P s) : P (s.perform core l n op).1 := by
  cases op with
  | load sz => exact r.aside (stampLoad_aside core l) (r.settle l n h)
  | future => exact r.aside (stampLoad_aside core l) (r.settle l n h)
  | store v => exact r.storeAt core l n _ hl h
  | stf v =>
    obtain rfl := hstf v rfl
    exact r.answerAll l _ (r.aside ((Aside.setFuture l true).trans (stampStore_aside core l)) (r.write l 8 _ hl (r.settle l 8 h)))
  | term a y ten task crew tid =>
    obtain rfl := hterm a y ten task crew tid rfl
    exact r.holdTerm _ hl h
  | rmw a y e =>
    simp only [State.perform]
    split
    · exact r.aside (stampLoad_aside core l) (r.settle l n h)
    · exact r.storeAt core l n _ hl (r.settle l n h)

end Home

end Sys2Proof.Proofs
end

section
/-! PROOFS. Loads, stores, future words, atomics and affine accesses change no register of their lanes but the destination, and no sticky flag
(R13, R69). -/

namespace Sys2Proof.Proofs
open Sys2Proof Sys2Proof.Machine

/-- From `s` to `t` the threads of core `core` keep their windows, every register but the destinations of `o`, and their sticky flags. -/
structure OutsideKept (core : Nat) (o : Opnds) (s t : State) : Prop where
  lane : ∀ x w, t.view? core x = some w → ∃ v, s.view? core x = some v ∧ w.th.win = v.th.win ∧ RegsKept (o.writes v.th) 0#32 v w

/-- A thread after an effect on one: its own effect, and what the front end's has done to the uniform registers. -/
theorem view?_onThread_lane {core : Nat} {s : State} {x y : W32} {f : View → View} (hf : ∀ v, (f v).th.ident.tid = v.th.ident.tid) {w : View}
    (hw : (s.onThread core x f).view? core y = some w) :
    ∃ v, s.view? core y = some v ∧ w.th = (if y = x then (f v).th else v.th) ∧ (w.k = v.k ∨ ∃ u, u.k = v.k ∧ w.k = (f u).k) := by
  simp only [State.view?, State.onThread, State.onTids, State.coreAt_onCore, Core.onCrew] at hw ⊢
  cases hc : (s.coreAt core).crew with
  | none => simp [hc] at hw
  | some c =>
    simp only [hc, Option.map_some, byTid_onThreads c _ hf] at hw ⊢
    cases ht : c.byTid y with
    | none => simp [ht] at hw
    | some t =>
      have hty : t.ident.tid = y := by simpa using List.find?_some ht
      simp only [ht, Option.map_some, hty, List.contains_iff_mem, List.mem_singleton] at hw
      obtain rfl := Option.some.inj hw
      refine ⟨⟨t, c.k⟩, rfl, rfl, ?_⟩
      simp only [Crew.onThreads]
      split
      · exact .inr ⟨⟨c.sfe, c.k⟩, rfl, rfl⟩
      · exact .inl rfl

section Outside
variable {core : Nat} {o : Opnds} {s t u : State}

theorem OutsideKept.refl : OutsideKept core o s s := ⟨fun _ w hw => ⟨w, hw, rfl, rfl, fun _ _ => rfl, fun _ _ => rfl, rfl⟩⟩

theorem OutsideKept.trans (h : OutsideKept core o s t) (k : OutsideKept core o t u) : OutsideKept core o s u := by
  refine ⟨fun x w hw => ?_⟩
  obtain ⟨v, hv, hwin, hkept⟩ := k.lane x w hw
  obtain ⟨z, hz, kwin, kkept⟩ := h.lane x v hv
  rw [writes_congr o kwin] at hkept
  exact ⟨z, hz, hwin.trans kwin, kkept.trans hkept⟩

/-- A step that writes no register of the core's threads. -/
theorem OutsideKept.of_lanes (h : LanesKept core s t) : OutsideKept core o s t := by
  refine ⟨fun x w hw => ?_⟩
  obtain ⟨v, hv, ⟨htid, hregs, hwin, hflags⟩, hk⟩ := h.view? hw
  exact ⟨v, hv, hwin, htid, fun _ _ => by rw [hregs], fun _ _ => by rw [hk], by rw [hflags]⟩

/-- An effect on a lane that empties only destinations of its instruction. -/
theorem OutsideKept.onThread {x : W32} {v : View} {ds : List Dst} {f : View → View} (h : OutsideKept core o s t) (hf : LaneEffect ds f)
    (hv : s.view? core x = some v) (hds : ∀ d ∈ ds, d ∈ o.writes v.th) : OutsideKept core o s (t.onThread core x f) := by
  refine ⟨fun y w hw => ?_⟩
  obtain ⟨z, hz, hth, hk⟩ := view?_onThread_lane hf.tid hw
  obtain ⟨v', hv', hwin, htid, hphys, huni, hflags⟩ := h.lane y z hz
  have huni' (n : Nat) (hn : Dst.uni n ∉ o.writes v'.th) : w.k[n]? = v'.k[n]? := by
    rw [← huni n hn]
    rcases hk with hk | ⟨u, hu, hk⟩
    · rw [hk]
    · rw [hk, (hf.kept u).uni n fun hmem => hn (uni_mem_writes _ (hds _ hmem)), hu]
  refine ⟨v', hv', ?_⟩
  by_cases hy : y = x
  · subst hy
    obtain rfl : v = v' := Option.some.inj (hv.symm.trans hv')
    obtain ⟨ktid, kphys, -, kflags⟩ := hf.kept z
    rw [if_pos rfl] at hth
    rw [hth]
    exact ⟨(hf.win z).trans hwin, by rw [hth, ktid, htid],
      fun n hn => by rw [hth, kphys n fun hmem => hn (hds _ hmem), hphys n hn], huni', by rw [hth, kflags, hflags]⟩
  · rw [if_neg hy] at hth
    rw [hth]
    exact ⟨hwin, by rw [hth, htid], fun n hn => by rw [hth, hphys n hn], huni', by rw [hth, hflags]⟩

theorem Aside.lanes (h : Aside s t) : LanesKept core s t := .of_crew (h.core core).still.crew

/-- An access at its home writes no register. -/
theorem lanesKept_home (core : Nat) (s : State) : HomeRule (fun _ _ => True) (LanesKept core s) where
  safe _ _ _ := trivial
  aside h k := k.trans h.lanes
  write l n v _ k := k.trans (wrTables_kept l n v)
  terms _ _ k := k.trans (.of_crew rfl)
  bind i x id xs k := k.trans (.onTids i [x] (sameRegs_bind id xs))
  spill g k := by
    refine k.trans ⟨?_⟩
    rw [coreAt_spillCrews]
    refine (CoreKept.onCrew _ fun c => ?_).crew
    split
    · exact .of_eq rfl rfl rfl
    · exact .refl c

/-- The issue of a request that lands in destinations of its instruction. -/
theorem issueReq_outside {x : W32} {v : View} {n : Nat} {h : Hit} {op : ReqOp} {dst : Option (List Dst)} {len : W64}
    (hu : OutsideKept core o s u) (hv : s.view? core x = some v) (hds : ∀ d ∈ dst.getD [], d ∈ o.writes v.th)
    (hstf : ∀ v, op = .stf v → n = 8) (hterm : ∀ a y ten task crew tid, op = .term a y ten task crew tid → n = a.size) :
    OutsideKept core o s (u.issueReq core x h n op dst len) :=
  issueReq_keeps hu (fun _ _ hf k => k.onThread hf hv hds) (fun l m => hu.trans (.of_lanes (withColl_aside core l m).lanes)) fun _ =>
    hu.trans (.of_lanes ((lanesKept_home core u).perform core h.loc n op trivial hstf hterm .refl))

theorem noteSeen_outside {x : W32} {v : View} {b : Bool} (hu : OutsideKept core o s u) (hv : s.view? core x = some v) :
    OutsideKept core o s (u.noteSeen core x b) :=
  noteSeen_keeps (ds := []) b hu fun _ _ hf k => k.onThread hf hv (List.forall_mem_nil _)

/-- A memory instruction whose body issues a request for destinations of the instruction. -/
theorem memForm_outside {acc : View → Access} {pre : View → Verdict} {body : State → Nat → View → Hit → State} {tids : List W32}
    (hbody : ∀ u v w h, OutsideKept s.issue.core o s u → s.view? s.issue.core v.th.ident.tid = some w → v.th.win = w.th.win →
      OutsideKept s.issue.core o s (body u s.issue.core v h)) :
    OutsideKept s.issue.core o s ((memForm o acc pre body s).act tids s) := by
  refine memForm_keeps (fun u x _ v h b hu hv => ?_) .refl
  obtain ⟨w, hw, hwin, -⟩ := hu.lane x v hv
  exact noteSeen_outside (hbody u v w h hu (by rw [tid_of_view? hv]; exact hw) hwin) hw

/-- The destination of an instruction of one, in its thread's window. -/
theorem refs_mem_writes {d : Fld} {w : Nat} {t v : Thread} (hd : o.dsts = [⟨d, w⟩]) (hwin : v.win = t.win) :
    ∀ x ∈ v.refs d w, x ∈ o.writes t := by
  rw [← writes_congr o hwin]
  simp [Opnds.writes, hd]

theorem OutsideKept.lanesKeep (h : OutsideKept s.issue.core o s t) : s.lanesKeep t o 0#32 := by
  intro x _ v w hv hw
  obtain ⟨v', hv', -, -, hphys, huni, hflags⟩ := h.lane x w hw
  obtain rfl : v = v' := Option.some.inj (hv.symm.trans hv')
  exact ⟨hphys, huni, hflags⟩

end Outside

/-! ### The instructions -/

section Forms
variable {s : State}

theorem loadForm_outside {f : Bool} {sz : BitVec 3} {d a : Fld} {off len : W64} {tids : List W32} :
    OutsideKept s.issue.core (loadForm f sz d a off len s).opn s ((loadForm f sz d a off len s).act tids s) := by
  rw [loadForm]
  exact memForm_outside fun u v w h hu hw hwin => issueReq_outside hu hw (refs_mem_writes rfl hwin) (by simp) (by simp)

theorem storeForm_outside {f : Bool} {sz : BitVec 3} {d a : Fld} {off len : W64} {tids : List W32} :
    OutsideKept s.issue.core (storeForm f sz d a off len s).opn s ((storeForm f sz d a off len s).act tids s) := by
  rw [storeForm]
  exact memForm_outside fun u v w h hu hw _ => issueReq_outside hu hw (List.forall_mem_nil _) (by simp) (by simp)

theorem ldfForm_outside {f : Bool} {d a : Fld} {off len : W64} {tids : List W32} :
    OutsideKept s.issue.core (ldfForm f d a off len s).opn s ((ldfForm f d a off len s).act tids s) := by
  rw [ldfForm]
  exact memForm_outside fun u v w h hu hw hwin => issueReq_outside hu hw (refs_mem_writes rfl hwin) (by simp) (by simp)

theorem stfForm_outside {f : Bool} {d a : Fld} {off len : W64} {tids : List W32} :
    OutsideKept s.issue.core (stfForm f d a off len s).opn s ((stfForm f d a off len s).act tids s) := by
  rw [stfForm]
  exact memForm_outside fun u v w h hu hw _ => issueReq_outside hu hw (List.forall_mem_nil _) (by simp) (by simp)

theorem atomForm_outside {op : AtomOp} {p : R3} {tids : List W32} :
    OutsideKept s.issue.core (atomForm op p s).opn s ((atomForm op p s).act tids s) := by
  rw [atomForm]
  refine memForm_outside fun u v w h hu hw hwin => ?_
  split
  · exact issueReq_outside hu hw (List.forall_mem_nil _) (by simp) (by simp +contextual)
  · exact issueReq_outside hu hw (refs_mem_writes rfl hwin) (by simp) (by simp)

theorem onAff_lanes (core j : Nat) (f : AffRec → AffRec) : LanesKept core s (s.onAff j f) := .onCrew _ fun _ => .of_eq rfl rfl rfl

theorem affForm_outside {o : RJ} {n : Nat} {store : Bool} {tids : List W32} :
    OutsideKept s.issue.core (affOpnds o n store) s ((affForm o n store s).act tids s) := by
  refine affForm_keeps (fun f => .of_lanes (onAff_lanes ..)) fun u x _ v b hu hv => ?_
  obtain ⟨w, hw, hwin, -⟩ := hu.lane x v hv
  refine noteSeen_outside (issueReq_outside hu hw ?_ ?_ ?_) hw
  · cases store with
    | true => exact List.forall_mem_nil _
    | false => exact refs_mem_writes rfl hwin
  · cases store <;> simp
  · cases store <;> simp

theorem affset_lanesKeep {o : RAJ} : s.lanesKeep ((affsetForm o).act s.tids s) (affsetForm o).opn 0#32 := by
  have hkept (v : View) : RegsKept ((affsetForm o).opn.writes v.th) 0#32 v (((affsetForm o).opn.noteUnseen v).done 4#64) :=
    (noteUnseen_kept _ v).trans (.of_keeps (.done _))
  cases h : s.run with
  | nil =>
    have hact : (affsetForm o).act s.tids s = s.onTids s.issue.core s.tids fun v => ((affsetForm o).opn.noteUnseen v).done 4#64 := by
      simp only [affsetForm, LaneForm.of, h]
    rw [hact]
    exact lanesKeep_of .refl hkept .refl
  | cons w l =>
    have hact : (affsetForm o).act s.tids s = (s.onAff o.j.toNat fun _ => { bits := w.rd128 o.a &&& affMask, cnt := 0#32 }).onTids
        s.issue.core s.tids fun v => ((affsetForm o).opn.noteUnseen v).done 4#64 := by
      simp only [affsetForm, LaneForm.of, h]
      rfl
    rw [hact]
    exact lanesKeep_of (onAff_lanes ..) hkept .refl

/-- The third clause of O31: table by table. -/
theorem accesses_lanesKeep {t : State} {o : M2} {l : L2} {p : R3} {j : RJ} {a : RAJ} {x : BitVec 26} (hq : s.quiet) :
    ∀ r ∈ memRows o l x s ++ (atomRows.map fun r => (r.1 p, atomForm r.2 p s)) ++ affRows j a s, r.2.goes s → exec r.1 s = .next t →
      s.lanesKeep t r.2.opn 0#32 := by
  have each {i : Instr} (k : LaneForm) (hx : exec i s = .next (s.eachLane k)) (hact : s.lanesKeep (k.act s.tids s) k.opn 0#32)
      (hg : k.goes s) (ht : exec i s = .next t) : s.lanesKeep t k.opn 0#32 := by
    rw [hx, s.eachLane_passes k hg, result_quiet hq] at ht
    obtain rfl : k.act s.tids s = t := by simpa using ht
    exact hact
  simp only [memRows, affRows, List.forall_mem_append, List.forall_mem_cons, List.forall_mem_map, ← off34_eq]
  refine ⟨⟨⟨each _ rfl loadForm_outside.lanesKeep, each _ rfl loadForm_outside.lanesKeep, each _ rfl storeForm_outside.lanesKeep,
    each _ rfl storeForm_outside.lanesKeep, each _ rfl ldfForm_outside.lanesKeep, each _ rfl ldfForm_outside.lanesKeep,
    each _ rfl stfForm_outside.lanesKeep, each _ rfl stfForm_outside.lanesKeep, List.forall_mem_nil _⟩,
    fun r hr => each _ (atomRows_exec p s r hr) atomForm_outside.lanesKeep⟩,
    each _ rfl (affForm_outside (n := 4) (store := false)).lanesKeep, each _ rfl (affForm_outside (n := 8) (store := false)).lanesKeep,
    each _ rfl (affForm_outside (n := 4) (store := true)).lanesKeep, each _ rfl (affForm_outside (n := 8) (store := true)).lanesKeep,
    fun hg ht => ?_, List.forall_mem_nil _⟩
  have hx : exec (.affset a) s = .next (s.allLanes (affsetForm a)) := rfl
  rw [hx, s.allLanes_passes _ hg, result_quiet hq] at ht
  obtain rfl : (affsetForm a).act s.tids s = t := by simpa using ht
  exact affset_lanesKeep

end Forms

end Sys2Proof.Proofs
end

section
/-! PROOFS. Where an access lands (R234, R361 to R364), which what stores to scratchpads change does not tell. -/

namespace Sys2Proof.Proofs
open Sys2Proof Sys2Proof.Machine

/-! ### Views of one thread that read the same values -/

/-- Two views of a thread that differ in its results on their way, and in which uniform registers are empty. -/
structure Alike (v w : View) : Prop where
  th  : ∃ p, w.th = { v.th with pending := p }
  uni : w.k.map (·.val) = v.k.map (·.val)

section Alike
variable {u v w : View}

theorem Alike.refl (v : View) : Alike v v := ⟨⟨v.th.pending, rfl⟩, rfl⟩
theorem Alike.trans (h : Alike u v) (k : Alike v w) : Alike u w := by
  obtain ⟨⟨p, hp⟩, hk⟩ := h
  obtain ⟨⟨r, hr⟩, kk⟩ := k
  exact ⟨⟨r, by rw [hr, hp]⟩, kk.trans hk⟩

theorem getD_val (l : List Reg) (n : Nat) : (l.getD n Reg.z).val = (l.map (·.val)).getD n Reg.z.val := by
  rw [List.getD_eq_getElem?_getD, List.getD_eq_getElem?_getD, List.getElem?_map]
  cases l[n]? <;> rfl

theorem Alike.word (h : Alike v w) (f : Fld) (i : Nat) : w.word f i = v.word f i := by
  obtain ⟨⟨p, hp⟩, hk⟩ := h
  have href : w.th.ref f i = v.th.ref f i := by rw [hp]; rfl
  rw [View.word, View.word, href]
  cases v.th.ref f i with
  | drop => rfl
  | phys n => simp only [View.get, hp]
  | uni n => simp only [View.get, getD_val, hk]

theorem Alike.rd32 (h : Alike v w) (f : Fld) : w.rd32 f = v.rd32 f := h.word f 0
theorem Alike.rd64 (h : Alike v w) (f : Fld) : w.rd64 f = v.rd64 f := by rw [View.rd64, View.rd64, h.word, h.word]
theorem Alike.baseVal (h : Alike v w) (f : Fld) : w.baseVal f = v.baseVal f := by
  simp only [View.baseVal, h.rd32, h.rd64]

end Alike

/-! ### States of the same translations -/

/-- From `s` to `t` nothing that tells where an access of core `core` lands has changed. -/
structure SameMap (core : Nat) (s t : State) : Prop where
  mem   : t.mem = s.mem
  tens  : t.tens = s.tens
  stale : t.stale = s.stale
  free  : t.free = s.free
  dev   : t.dev = s.dev
  lost  : ∀ a n, t.spoiled (.mem a) n = s.spoiled (.mem a) n
  tlb   : (t.coreAt core).tlb = (s.coreAt core).tlb
  crew  : (t.coreAt core).crew.map (fun c => (c.ten, c.pad)) = (s.coreAt core).crew.map fun c => (c.ten, c.pad)

/-- Every held term is at a scratchpad. -/
def PadTerms (s : State) : Prop := ∀ x ∈ s.terms, ∃ c o, x.loc = .pad c o

section Check
variable {core : Nat} {s t : State}

theorem SameMap.refl : SameMap core s s := ⟨rfl, rfl, rfl, rfl, rfl, fun _ _ => rfl, rfl, rfl⟩
theorem SameMap.trans {u : State} (h : SameMap core s t) (k : SameMap core t u) : SameMap core s u :=
  ⟨k.mem.trans h.mem, k.tens.trans h.tens, k.stale.trans h.stale, k.free.trans h.free, k.dev.trans h.dev,
    fun a n => (k.lost a n).trans (h.lost a n), k.tlb.trans h.tlb, k.crew.trans h.crew⟩

theorem SameMap.onCore (i : Nat) {f : Core → Core} (ht : ∀ c, (f c).tlb = c.tlb)
    (hf : ∀ c, (f c).crew.map (fun c => (c.ten, c.pad)) = c.crew.map fun c => (c.ten, c.pad)) : SameMap core s (s.onCore i f) := by
  by_cases h : core = i
  · subst h
    refine ⟨rfl, rfl, rfl, rfl, rfl, fun _ _ => rfl, ?_, ?_⟩ <;> rw [State.coreAt_onCore]
    · exact ht _
    · exact hf _
  · refine ⟨rfl, rfl, rfl, rfl, rfl, fun _ _ => rfl, ?_, ?_⟩ <;> rw [State.coreAt_onCore_other _ _ _ _ h]

theorem settle_mem (h : PadTerms s) (a n : Nat) : s.settle (.mem a) n = s := by
  have hnone : s.terms.filter (fun x => x.covers (.mem a) n) = [] := by
    rw [List.filter_eq_nil_iff]
    intro x hx
    obtain ⟨c, o, ho⟩ := h x hx
    simp [Term.covers, Loc.meets, Loc.diff, ho]
  rw [State.settle, hnone]
  rfl

variable (hm : SameMap core s t) (hs : PadTerms s) (ht : PadTerms t)
include hm

theorem phys64_same (a : Nat) : t.phys64 a = s.phys64 a := by
  have hbytes (i : Nat) : t.rdByte ((Loc.mem a).plus i) = s.rdByte ((Loc.mem a).plus i) := by
    simp only [Loc.plus, State.rdByte, hm.mem]
  simp only [State.phys64, State.rd, hbytes]

theorem celsz_same (cell : Nat) : t.celsz cell = s.celsz cell := by
  simp only [State.celsz, State.tenOfStack, State.tenAt, hm.tens]

theorem judge_same (ten : Nat) (sys : Bool) (need : Rights) (va : W64) (f : Found) :
    t.judge ten sys need va f = s.judge ten sys need va f := by
  have hten : t.tenAt ten = s.tenAt ten := by rw [State.tenAt, State.tenAt, hm.tens]
  unfold State.judge
  rw [hten, hm.dev]

include hs ht

theorem entryRead_same (va : W64) (a : Nat) : t.entryRead va a = s.entryRead va a := by
  simp only [State.entryRead, settle_mem hs, settle_mem ht, phys64_same hm, hm.stale, hm.free]

theorem walkFrom_same (doms : List Nat) (va : W64) (table lvl : Nat) : t.walkFrom doms va table lvl = s.walkFrom doms va table lvl := by
  induction lvl generalizing table with
  | zero => rfl
  | succ lvl ih => simp only [State.walkFrom, entryRead_same hm hs ht, hm.lost, ih]

theorem walk_same (ten : Nat) (root va : W64) : t.walk ten root va = s.walk ten root va := by
  have hten : t.tenAt ten = s.tenAt ten := by rw [State.tenAt, State.tenAt, hm.tens]
  rw [State.walk, State.walk, hten, walkFrom_same hm hs ht]

theorem heldEntry_same (ten : Nat) (va : W64) (e : TlbEntry) : t.heldEntry ten va e = s.heldEntry ten va e := by
  rw [State.heldEntry, State.heldEntry, walk_same hm hs ht, hm.free]

/-- An access of a thread lands where it did. -/
theorem check_same (a : Access) {u v : Thread} (huv : ∃ p, u = { v with pending := p }) : t.check core u a = s.check core v a := by
  obtain ⟨p, rfl⟩ := huv
  have hten : ((t.coreAt core).crew.map (·.ten)).getD 0 = ((s.coreAt core).crew.map (·.ten)).getD 0 := by
    have h := congrArg (Option.map Prod.fst) hm.crew
    simp only [Option.map_map, Function.comp_def] at h
    rw [h]
  have hpad : ((t.coreAt core).crew.map (·.pad)).getD 0 = ((s.coreAt core).crew.map (·.pad)).getD 0 := by
    have h := congrArg (Option.map Prod.snd) hm.crew
    simp only [Option.map_map, Function.comp_def] at h
    rw [h]
  have hfound (ten : Nat) (va : W64) : t.found core ten { v with pending := p } va = s.found core ten v va := by
    have htlb : (t.coreAt core).tlbFind v.ptbase va = (s.coreAt core).tlbFind v.ptbase va := by rw [Core.tlbFind, Core.tlbFind, hm.tlb]
    simp only [State.found, htlb, funext (heldEntry_same hm hs ht ten va)]
  simp only [State.check, hten, hpad, hfound, celsz_same hm, judge_same hm]
  rfl

end Check

/-! ### The storage that an access reaches -/

theorem placeOf_state {dev : Nat} {e : W64} {lvl : Nat} {va : W64} {c k o : Nat} (h : placeOf dev e lvl va = .state c k o) :
    ((Pte.of e).home == 4 && !((Pte.of e).domain && (Pte.of e).dev != dev)) = true := by
  simp only [placeOf] at h
  split at h
  · cases h
  next hremote =>
    split at h
    case h_3 hhome => simp [hhome, hremote]
    all_goals cases h

/-- A translation that reaches an image says so. -/
theorem judge_state {s : State} {ten : Nat} {sys : Bool} {need : Rights} {va : W64} {f : Found} {h : Hit} (hj : s.judge ten sys need va f = .ok h)
    {c k o : Nat} (hl : h.loc = .state c k o) : h.state = true := by
  cases f with
  | entry e lvl =>
    simp only [State.judge] at hj
    split at hj
    · cases hj
    · split at hj
      · cases hj
      · cases hj
        exact placeOf_state hl
  | _ => cases hj

/-- Where an access lands that passes its checks: in a window of the core, or where a translation says. -/
theorem check_lands {s : State} {core : Nat} {t : Thread} {a : Access} {h : Hit} (hc : s.check core t a = .ok h) :
    (∃ o, h.loc = .pad core o) ∨ (∃ c o, h.loc = .cel c o) ∨
      ∃ ten sys need va f g, s.judge ten sys need va f = .ok g ∧ h.loc = g.loc ∧ h.state = g.state := by
  unfold State.check at hc
  extract_lets trap crew ten o bad placed at hc
  split at hc
  · cases hc
  split at hc
  · cases hc
  split at hc
  · cases hc
  split at hc
  · cases hc
  cases hp : placed with
  | error e =>
    rw [hp] at hc
    cases hc
  | ok g =>
    rw [hp] at hc
    simp only at hc
    split at hc
    · cases hc
    cases hc
    simp only [placed] at hp
    split at hp
    · cases hp
      exact .inl ⟨_, rfl⟩
    · cases hp
      exact .inr (.inl ⟨_, _, rfl⟩)
    · split at hp
      · split at hp
        next g' hj =>
          split at hp
          · cases hp
          · split at hp
            · cases hp
            · cases hp
              exact .inr (.inr ⟨_, _, _, _, _, _, hj, rfl, rfl⟩)
        · cases hp
      · cases hp

/-- A place at the core itself that is no image is one of its scratchpad. -/
theorem near_pad_of_check {s : State} {core : Nat} {t : Thread} {a : Access} {h : Hit} (hc : s.check core t a = .ok h)
    (hn : h.near core = true) (hi : h.state = false) : ∃ o, h.loc = .pad core o := by
  cases hl : h.loc with
  | pad c o =>
    obtain rfl : c = core := by simpa [Hit.near, hl] using hn
    exact ⟨o, rfl⟩
  | state c k o =>
    obtain ⟨o', ho⟩ | ⟨c', o', ho⟩ | ⟨_, _, _, _, _, g, hj, hloc, hstate⟩ := check_lands hc
    · rw [hl] at ho
      cases ho
    · rw [hl] at ho
      cases ho
    · rw [hstate, judge_state hj (hloc.symm.trans hl)] at hi
      cases hi
  | _ => simp [Hit.near, hl] at hn

end Sys2Proof.Proofs
end

section
/-! PROOFS. What stores, future words and atomics leave of memory: every byte but those of their lanes' accesses (R213, R233, R238, R240). -/

namespace Sys2Proof.Proofs
open Sys2Proof Sys2Proof.Machine

/-! ### States in which a byte, and the lanes that have still to act, are as before -/

/-- Bytes of a core's scratchpad, of which `q` is none. -/
def PadOff (core : Nat) (q : Loc) (l : Loc) (n : Nat) : Prop := (∃ o, l = .pad core o) ∧ ¬ q.within l n

/-- From `s` to `t` byte `q` has not changed, no held term is to change it, accesses of core `core` land as before, and the threads `L` read
the same values. -/
structure Away (core : Nat) (q : Loc) (L : List W32) (s t : State) : Prop where
  map   : SameMap core s t
  byte  : t.rdByte q = s.rdByte q
  terms : TermsSafe (PadOff core q) t.terms
  lane  : ∀ y ∈ L, ∀ w, t.view? core y = some w → ∃ v, s.view? core y = some v ∧ Alike v w

theorem TermsSafe.pads {core : Nat} {q : Loc} {s : State} (h : TermsSafe (PadOff core q) s.terms) : PadTerms s := by
  intro x hx
  obtain ⟨⟨o, ho⟩, -⟩ := h x hx
  exact ⟨core, o, ho⟩

section Away
variable {core : Nat} {q : Loc} {L : List W32} {s t u : State}

theorem Away.refl (h : s.terms = []) : Away core q L s s :=
  ⟨.refl, rfl, by rw [h]; exact List.forall_mem_nil _, fun _ _ w hw => ⟨w, hw, .refl w⟩⟩

theorem Away.mono {L' : List W32} (h : Away core q L s t) (hL : ∀ y ∈ L', y ∈ L) : Away core q L' s t :=
  ⟨h.map, h.byte, h.terms, fun y hy => h.lane y (hL y hy)⟩

/-- A step that leaves the byte, and the lanes that have still to act. -/
theorem Away.step (h : Away core q L s t) (hm : SameMap core t u) (hb : u.rdByte q = t.rdByte q) (ht : u.terms = t.terms)
    (hl : ∀ y ∈ L, ∀ w, u.view? core y = some w → ∃ v, t.view? core y = some v ∧ Alike v w) : Away core q L s u := by
  refine ⟨h.map.trans hm, hb.trans h.byte, ht ▸ h.terms, fun y hy w hw => ?_⟩
  obtain ⟨v, hv, hvw⟩ := hl y hy w hw
  obtain ⟨z, hz, hzv⟩ := h.lane y hy v hv
  exact ⟨z, hz, hzv.trans hvw⟩

/-- The same for one that leaves the crews as they are. -/
theorem Away.of_crews (h : Away core q L s t) (hm : SameMap core t u) (hb : u.rdByte q = t.rdByte q) (ht : u.terms = t.terms)
    (hc : CrewsSame t u) : Away core q L s u :=
  h.step hm hb ht fun y _ w hw => ⟨w, (hc.view? core y).symm.trans hw, .refl w⟩

/-! ### What an access at its home keeps -/

theorem Aside.still (h : Aside s t) : Still s t := ⟨h.mem, h.cells, h.free, fun i => (h.core i).still⟩

theorem Aside.map (h : Aside s t) : SameMap core s t :=
  ⟨h.mem, h.tens, h.stale, h.free, h.dev, fun a n => by rw [State.spoiled, State.spoiled, h.errs], (h.core core).tlb,
    by rw [(h.core core).still.crew]⟩

theorem sameMap_onTids (i : Nat) (tids : List W32) (f : View → View) : SameMap core s (s.onTids i tids f) := by
  refine .onCore i (fun _ => rfl) fun c => ?_
  rw [Core.onCrew, Option.map_map]
  refine congrArg (Option.map · c.crew) (funext fun k => ?_)
  simp only [Function.comp, Crew.onThreads]
  split <;> rfl

/-- Errors of flat memory stand whatever is written to a scratchpad (R369). -/
theorem clearErrs_map (c o n : Nat) : SameMap core s (s.clearErrs (.pad c o) n) := by
  refine ⟨rfl, rfl, rfl, rfl, rfl, fun a m => ?_, rfl, rfl⟩
  simp only [State.spoiled, State.clearErrs, List.any_filter]
  refine congrArg s.errs.any (funext fun e => ?_)
  cases e <;> simp [Loc.diff, Loc.meets]

theorem wr_map (c o n v : Nat) : SameMap core s (s.wr (.pad c o) n v) ∧ (s.wr (.pad c o) n v).terms = s.terms := by
  have hbytes (bs : List Byte) (s : State) (o : Nat) :
      SameMap core s (s.wrBytes (.pad c o) bs) ∧ (s.wrBytes (.pad c o) bs).terms = s.terms := by
    induction bs generalizing s o with
    | nil => exact ⟨.refl, rfl⟩
    | cons b r ih =>
      have hone : SameMap core s (s.wrByte (.pad c o) b) := by
        rw [wrByte_pad]
        exact .onCore c (fun _ => rfl) fun _ => rfl
      obtain ⟨hmap, hterms⟩ := ih (s.wrByte (.pad c o) b) (o + 1)
      exact ⟨hone.trans hmap, hterms⟩
  obtain ⟨hmap, hterms⟩ := hbytes (bytesOf n v) s o
  exact ⟨hmap.trans (clearErrs_map c o n), hterms⟩

theorem spillCrews_map (g : Crew → Bool) : SameMap core s (spillCrews s g) := by
  refine ⟨rfl, rfl, rfl, rfl, rfl, fun _ _ => rfl, by rw [coreAt_spillCrews]; rfl, ?_⟩
  rw [coreAt_spillCrews, Core.onCrew, Option.map_map]
  refine congrArg (Option.map · (s.coreAt core).crew) (funext fun k => ?_)
  simp only [Function.comp]
  split <;> rfl

theorem spillCrews_view? (g : Crew → Bool) (x : W32) : (spillCrews s g).view? core x = s.view? core x := by
  simp only [State.view?, coreAt_spillCrews, Core.onCrew]
  cases (s.coreAt core).crew with
  | none => rfl
  | some c =>
    simp only [Option.map_some]
    split <;> rfl

theorem spillCrews_still (g : Crew → Bool) {l : Loc} (hl : l.isImage = false) : (spillCrews s g).rdByte l = s.rdByte l :=
  rdByte_congr (s := s) (t := spillCrews s g) rfl rfl rfl (fun i o => by rw [coreAt_spillCrews]; rfl) hl

/-- A value bound to a result on its way changes no view but for it. -/
theorem bind_alike {i : Nat} {x y : W32} {id : Nat} {xs : List W32} {w : View} (hw : (s.bind i x id xs).view? core y = some w) :
    ∃ v, s.view? core y = some v ∧ Alike v w := by
  rw [bind_eq] at hw
  by_cases h : core = i
  · subst h
    obtain ⟨v, hv, hth, hk⟩ := view?_onThread_lane (f := fun v => v.onTh (bindPending id xs)) (fun _ => rfl) hw
    refine ⟨v, hv, ?_, ?_⟩
    · rw [hth]
      split
      · exact ⟨(bindPending id xs v.th).pending, rfl⟩
      · exact ⟨v.th.pending, rfl⟩
    · rcases hk with hk | ⟨u, hu, hk⟩
      · rw [hk]
      · rw [hk, ← hu]
        rfl
  · refine ⟨w, ?_, .refl w⟩
    simp only [State.view?, State.onThread, State.onTids, State.coreAt_onCore_other _ _ _ _ h] at hw ⊢
    exact hw

theorem away_home (s : State) (L : List W32) (hq : q.isImage = false) : HomeRule (PadOff core q) (Away core q L s) where
  safe h := h.terms
  aside h k := k.of_crews h.map (h.still.rdByte hq) h.terms h.still.crews
  write l n v hl k := by
    obtain ⟨⟨o, rfl⟩, hout⟩ := hl
    obtain ⟨hmap, hterms⟩ := wr_map core o n v
    exact k.of_crews hmap ((wr_wrote (l := .pad core o) trivial n v).frame q hq hout) hterms (wr_crews rfl n v)
  terms ts hts k := ⟨k.map.trans ⟨rfl, rfl, rfl, rfl, rfl, fun _ _ => rfl, rfl, rfl⟩, k.byte, hts, k.lane⟩
  bind i x id xs k := k.step (sameMap_onTids i [x] _) (rdByte_onThread _ i x _ hq) rfl fun _ _ _ hw => bind_alike hw
  spill g k := k.step (spillCrews_map g) (spillCrews_still g hq) rfl fun y _ w hw => ⟨w, (spillCrews_view? g y).symm.trans hw, .refl w⟩

/-! ### The lanes of an instruction in their order (R220) -/

/-- An effect on a lane that is none of those that have still to act. -/
theorem Away.onThread {x : W32} {ds : List Dst} {f : View → View} (h : Away core q L s t) (hf : LaneEffect ds f) (hq : q.isImage = false)
    (hx : x ∉ L) : Away core q L s (t.onThread core x f) := by
  refine h.step (sameMap_onTids core [x] f) (rdByte_onThread _ core x f hq) rfl fun y hy w hw => ?_
  obtain ⟨v, hv, hth, hk⟩ := view?_onThread_lane hf.tid hw
  have hne : y ≠ x := fun he => hx (he ▸ hy)
  rw [if_neg hne] at hth
  refine ⟨v, hv, ⟨v.th.pending, hth⟩, ?_⟩
  rcases hk with hk | ⟨u, hu, hk⟩
  · rw [hk]
  · rw [hk, hf.uni u, hu]

theorem issueReq_away {x : W32} {n : Nat} {h : Hit} {op : ReqOp} {dst : Option (List Dst)} {len : W64} (hq : q.isImage = false) (hx : x ∉ L)
    (hu : Away core q L s u) (hsafe : h.near core = true → PadOff core q h.loc n) (hstf : ∀ v, op = .stf v → n = 8)
    (hterm : ∀ a y ten task crew tid, op = .term a y ten task crew tid → n = a.size) : Away core q L s (u.issueReq core x h n op dst len) :=
  issueReq_keeps hu (fun _ _ hf k => k.onThread hf hq hx) (fun l m => (away_home s L hq).aside (withColl_aside core l m) hu)
    fun hn => (away_home s L hq).perform core h.loc n op (hsafe hn) hstf hterm hu

theorem noteSeen_away {x : W32} {b : Bool} (hq : q.isImage = false) (hx : x ∉ L) (hu : Away core q L s u) :
    Away core q L s (u.noteSeen core x b) :=
  noteSeen_keeps (ds := []) b hu fun _ _ hf k => k.onThread hf hq hx

/-- A fold over lanes, each of which leaves those behind it as they are. -/
theorem foldl_away {l : List W32} {f : State → W32 → State} (hl : l.Nodup) (hu : Away core q l s u)
    (hf : ∀ x ∈ l, ∀ r, x ∉ r → ∀ u, Away core q (x :: r) s u → Away core q r s (f u x)) : Away core q [] s (l.foldl f u) := by
  induction l generalizing u with
  | nil => exact hu
  | cons x r ih =>
    obtain ⟨hx, hr⟩ := List.nodup_cons.1 hl
    exact ih hr (hf x List.mem_cons_self r hx u hu) fun y hy => hf y (List.mem_cons_of_mem _ hy)

/-- What byte `q` has to be for an instruction: no byte of the access of a lane, and no lane's access is to an image. -/
def OffAccesses (s : State) (acc : View → Access) (q : Loc) : Prop :=
  ∀ tid ∈ s.tids, ∀ v, s.view? s.issue.core tid = some v → ∀ h, s.check s.issue.core v.th (acc v) = .ok h →
    h.state = false ∧ ¬ q.within h.loc (acc v).n

end Away

end Sys2Proof.Proofs
end

section
/-! PROOFS. The bytes that stores, future words and atomics leave, instruction by instruction (R213, R233, R238). -/

namespace Sys2Proof.Proofs
open Sys2Proof Sys2Proof.Machine

/-! ### The lanes that execute (R137, R351) -/

theorem oksOf_sublist (l : List (Thread × Verdict)) : (oksOf l).Sublist (l.map fun x => x.1.ident.tid) := by
  induction l with
  | nil => exact .slnil
  | cons x l ih =>
    obtain ⟨t, v⟩ := x
    cases v with
    | ok => exact ih.cons_cons _
    | _ => exact ih.cons _

theorem together_go (sp : Split) : sp.together.go.Sublist sp.go := by
  unfold Split.together
  extract_lets who
  split
  · exact .refl _
  · exact List.nil_sublist _

theorem splitLanes_go (l : List (Thread × Verdict)) : (splitLanes l).go.Sublist (oksOf l) := by
  unfold splitLanes
  extract_lets tr t reads card late
  split
  · exact List.nil_sublist _
  · split
    · exact together_go _
    · exact List.nil_sublist _

theorem mem_oksOf {l : List (Thread × Verdict)} {x : W32} (h : x ∈ oksOf l) : ∃ y ∈ l, y.1.ident.tid = x ∧ y.2 = .ok := by
  simp only [oksOf, List.mem_filterMap] at h
  obtain ⟨⟨t, v⟩, hmem, hv⟩ := h
  cases v with
  | ok => exact ⟨_, hmem, by simpa using hv, rfl⟩
  | _ => cases hv

/-- Among threads of different %tids the one of a %tid is found. -/
theorem find?_tid {l : List Thread} (hnd : (l.map fun t => t.ident.tid).Nodup) {t : Thread} (ht : t ∈ l) :
    l.find? (fun u => u.ident.tid == t.ident.tid) = some t := by
  induction l with
  | nil => cases ht
  | cons u l ih =>
    obtain ⟨hu, hl⟩ := List.nodup_cons.1 hnd
    rcases List.mem_cons.1 ht with rfl | ht
    · exact List.find?_cons_of_pos (by simp)
    · have hne : u.ident.tid ≠ t.ident.tid := fun he => hu (List.mem_map.2 ⟨t, ht, he.symm⟩)
      rw [List.find?_cons_of_neg (by simpa using hne)]
      exact ih hl ht

section Lanes
variable {s : State} (hnd : ∀ c, s.crew? = some c → (c.all.map fun t => t.ident.tid).Nodup)
include hnd

theorem tids_nodup : s.tids.Nodup := by
  unfold State.tids State.run
  cases hc : s.crew? with
  | none => exact .nil
  | some c =>
    rw [List.map_map]
    exact (hnd c hc).sublist (List.filter_sublist.map _)

/-- A thread of the run, by its %tid. -/
theorem view?_of_run {v : View} (hv : v ∈ s.run) : s.view? s.issue.core v.th.ident.tid = some v := by
  unfold State.run at hv
  cases hc : s.crew? with
  | none => simp [hc] at hv
  | some c =>
    simp only [hc, List.mem_map, List.mem_filter] at hv
    obtain ⟨t, ⟨ht, -⟩, rfl⟩ := hv
    have hfind : c.byTid t.ident.tid = some t := find?_tid (hnd c hc) ht
    have hcrew : (s.coreAt s.issue.core).crew = some c := hc
    simp only [State.view?, hcrew, hfind, Option.map_some]

/-- A byte that the lanes that execute leave, the instruction leaves: what else becomes of a run changes none. -/
theorem eachLane_byte {k : LaneForm} {q : Loc} (hquiet : s.quiet) (hq : q.isImage = false)
    (hact : ∀ tids, tids.Nodup → (∀ x ∈ tids, ∃ v ∈ s.run, v.th.ident.tid = x ∧ k.verdict v = .ok) → (k.act tids s).rdByte q = s.rdByte q) :
    (s.eachLane k).rdByte q = s.rdByte q := by
  have hoks : (oksOf (s.verdicts k.verdict)).Sublist s.tids := s.verdicts_tids k.verdict ▸ oksOf_sublist _
  have hgo := splitLanes_go (s.verdicts k.verdict)
  rw [State.eachLane, (applySplit_store s k.opn (splitLanes (s.verdicts k.verdict)) k.act).bytes q hq]
  split
  · rfl
  · rw [actQm_quiet hquiet]
    refine hact _ ((tids_nodup hnd).sublist (hgo.trans hoks)) fun x hx => ?_
    obtain ⟨y, hy, htid, hok⟩ := mem_oksOf (hgo.subset hx)
    obtain ⟨v, hv, rfl⟩ := List.mem_map.1 hy
    exact ⟨v, hv, htid, hok⟩

end Lanes

/-! ### Stores, future words and atomics -/

section Forms
variable {s : State} {q : Loc} (hs : s.terms = []) (hq : q.isImage = false)
include hs hq

/-- A memory instruction whose body issues a request for the bytes of its access. -/
theorem memForm_away {o : Opnds} {acc : View → Access} {pre : View → Verdict} {body : State → Nat → View → Hit → State} {tids : List W32}
    (hoff : OffAccesses s acc q) (hnodup : tids.Nodup) (htids : ∀ x ∈ tids, x ∈ s.tids) (hacc : ∀ v w, Alike v w → acc w = acc v)
    (hbody : ∀ u L v h, v.th.ident.tid ∉ L → (h.near s.issue.core = true → PadOff s.issue.core q h.loc (acc v).n) →
      Away s.issue.core q L s u → Away s.issue.core q L s (body u s.issue.core v h)) :
    Away s.issue.core q [] s ((memForm o acc pre body s).act tids s) := by
  have hpads : PadTerms s := by simp [PadTerms, hs]
  refine foldl_away hnodup (.refl hs) fun x hx r hxr u hu => ?_
  have hrest : Away s.issue.core q r s u := hu.mono fun _ => List.mem_cons_of_mem _
  split
  · exact hrest
  next w hw =>
    split
    · exact hrest
    next h hc =>
      obtain ⟨v, hv, halike⟩ := hu.lane x List.mem_cons_self w hw
      rw [check_same hu.map hpads hu.terms.pads _ halike.th, hacc v w halike] at hc
      obtain ⟨hstate, hout⟩ := hoff x (htids x hx) v hv h hc
      refine noteSeen_away hq hxr (hbody u r w h (by rwa [tid_of_view? hw]) (fun hn => ?_) hrest)
      rw [hacc v w halike]
      exact ⟨near_pad_of_check hc hn hstate, hout⟩

/-- What a row of the second clause of O31 says of the lanes that execute. -/
def LanesAway (s : State) (q : Loc) (k : LaneForm) (acc : View → Access) : Prop :=
  OffAccesses s acc q → ∀ tids : List W32, tids.Nodup → (∀ x ∈ tids, ∃ v ∈ s.run, v.th.ident.tid = x ∧ k.verdict v = .ok) →
    Away s.issue.core q [] s (k.act tids s)

theorem lanesAway_memForm {o : Opnds} {acc : View → Access} {pre : View → Verdict} {body : State → Nat → View → Hit → State}
    (hacc : ∀ v w, Alike v w → acc w = acc v)
    (hbody : ∀ u L v h, v.th.ident.tid ∉ L → (h.near s.issue.core = true → PadOff s.issue.core q h.loc (acc v).n) →
      Away s.issue.core q L s u → Away s.issue.core q L s (body u s.issue.core v h)) : LanesAway s q (memForm o acc pre body s) acc := by
  refine fun hoff tids hnodup hrun => memForm_away hs hq hoff hnodup (fun x hx => ?_) hacc hbody
  obtain ⟨v, hv, rfl, -⟩ := hrun x hx
  exact List.mem_map_of_mem hv

omit hs hq in
theorem effAddr_alike {v w : View} (h : Alike v w) (a : Fld) (off : W64) (n : Nat) : effAddr w a off n = effAddr v a off n := by
  rw [effAddr, effAddr, h.baseVal]

theorem storeForm_away {f : Bool} {sz : BitVec 3} {d a : Fld} {off len : W64} :
    LanesAway s q (storeForm f sz d a off len s) fun v => accessOf v a off (szBytes sz.toNat) true := by
  rw [storeForm]
  exact lanesAway_memForm hs hq (fun v w h => by rw [effAddr_alike h]) fun u L v h hx hsafe hu =>
    issueReq_away hq hx hu hsafe (by simp) (by simp)

theorem stfForm_away {f : Bool} {d a : Fld} {off len : W64} :
    LanesAway s q (stfForm f d a off len s) fun v => { accessOf v a off 8 true with fut := true } := by
  rw [stfForm]
  exact lanesAway_memForm hs hq (fun v w h => by rw [effAddr_alike h]) fun u L v h hx hsafe hu =>
    issueReq_away hq hx hu hsafe (by simp) (by simp)

theorem atomForm_away {op : AtomOp} {p : R3} :
    LanesAway s q (atomForm op p s) fun v => { va := v.baseVal p.a, n := op.size, rd := true, wr := true } := by
  rw [atomForm]
  refine lanesAway_memForm hs hq (fun v w h => by rw [h.baseVal]) fun u L v h hx hsafe hu => ?_
  split
  · exact issueReq_away hq hx hu hsafe (by simp) (by simp +contextual)
  · exact issueReq_away hq hx hu hsafe (by simp) (by simp)

end Forms

end Sys2Proof.Proofs
end

section
/-! PROOFS. The bytes that the affine stores leave (R213), and what loads and stores leave of memory, registers and flags (R69). -/

namespace Sys2Proof.Proofs
open Sys2Proof Sys2Proof.Machine

/-! ### The place of an affine access (R196, R213) -/

/-- An offset fits the window of the scratchpad: it is a base of 20 bits and four products of 16 and 8 bits. -/
theorem offset_lt (r : AffRec) (x : W32) : r.offset x < 2 ^ 32 := by
  have hbase : r.base < 2 ^ 20 := by
    have h := (r.bits.extractLsb' 0 20).isLt
    rw [AffRec.base, bitsOf]
    omega
  have hterm (k : Nat) : r.stride k * affIndex x k < 2 ^ 24 := by
    have hstride : r.stride k < 2 ^ 15 := by
      have h := BitVec.two_mul_toInt_lt (x := r.bits.extractLsb' (32 + 16 * k) 16)
      rw [AffRec.stride]
      omega
    have hindex : affIndex x k < 2 ^ 8 := by
      have h := (x.extractLsb' (8 * k) (8 * k + 7 + 1 - 8 * k)).isLt
      rw [show 8 * k + 7 + 1 - 8 * k = 8 by omega] at h
      rw [affIndex, bitsOf, show 8 * k + 7 + 1 - 8 * k = 8 by omega]
      exact h
    nlinarith
  have h0 := hterm 0
  have h1 := hterm 1
  have h2 := hterm 2
  have h3 := hterm 3
  rw [AffRec.offset]
  omega

/-- An access in the window of the scratchpad lands there, or traps. -/
theorem check_pad {s : State} {core : Nat} {t : Thread} {a : Access} {o : Nat} (ho : o < 2 ^ 32)
    (ha : a.va = 0xFFFFFFFE00000000#64 + BitVec.ofNat 64 o) (hf : a.fut = false) :
    (∃ h, s.check core t a = .ok h ∧ h.loc = .pad core o) ∨ ∃ x, s.check core t a = .error (.trap x) := by
  unfold State.check
  extract_lets trap crew ten off bad placed
  have hplaced : placed = .ok { loc := .pad core o } := by
    simp only [placed, off, ha, padAperture_window ho, padAperture_off ho]
  rw [hplaced]
  split
  · exact .inr ⟨_, rfl⟩
  split
  · exact .inr ⟨_, rfl⟩
  split
  · exact .inr ⟨_, rfl⟩
  split
  · exact .inr ⟨_, rfl⟩
  · refine .inl ⟨{ loc := .pad core o, va := a.va }, ?_, rfl⟩
    simp only [hf, Bool.false_and, Bool.false_eq_true, if_false]

theorem andThen_eq_ok {v w : Verdict} (h : v.andThen w = .ok) : v = .ok ∧ w = .ok := by
  cases v with
  | ok => exact ⟨rfl, h⟩
  | _ => cases h

/-- An access whose verdict lets its lane execute passes the checks of its address. -/
theorem accessVerdict_pad {s : State} {core : Nat} {t : Thread} {a : Access} {o : Nat} (ho : o < 2 ^ 32)
    (ha : a.va = 0xFFFFFFFE00000000#64 + BitVec.ofNat 64 o) (hf : a.fut = false) (hv : s.accessVerdict core t a = .ok) :
    ∃ h, s.check core t a = .ok h ∧ h.loc = .pad core o := by
  rcases check_pad (s := s) (core := core) (t := t) ho ha hf with h | ⟨x, hx⟩
  · exact h
  · rw [State.accessVerdict, hx] at hv
    cases hv

theorem affCheck_nonneg {r : AffRec} {pad n : Nat} {x : W32} (h : affCheck r pad x n = .ok) : 0 ≤ r.offset x := by
  simp only [affCheck] at h
  split at h
  · cases h
  split at h
  · cases h
  next hrange => omega

/-- A lane that executes an affine store passes the checks of its address, at its offset of the scratchpad. -/
theorem affStore_check {s : State} {o : RJ} {n : Nat} {v : View} (hv : (affForm o n true s).verdict v = .ok) :
    ∃ h, s.check s.issue.core v.th { va := padAddr ((s.affRec o.j.toNat).offset (v.rd32 o.a)), n, rd := false, wr := true } = .ok h ∧
      h.loc = .pad s.issue.core ((s.affRec o.j.toNat).offset (v.rd32 o.a)).toNat := by
  obtain ⟨-, hrest⟩ := andThen_eq_ok hv
  obtain ⟨haff, haccess⟩ := andThen_eq_ok hrest
  have h0 := affCheck_nonneg haff
  have hlt := offset_lt (s.affRec o.j.toNat) (v.rd32 o.a)
  have hoff : BitVec.ofInt 64 ((s.affRec o.j.toNat).offset (v.rd32 o.a)) = BitVec.ofNat 64 ((s.affRec o.j.toNat).offset (v.rd32 o.a)).toNat := by
    conv_lhs => rw [← Int.toNat_of_nonneg h0, BitVec.ofInt_natCast]
  exact accessVerdict_pad (by omega) (congrArg (0xFFFFFFFE00000000#64 + ·) hoff) rfl haccess

section Affine
variable {s : State} {q : Loc} (hs : s.terms = []) (hq : q.isImage = false)
include hs hq

theorem onAff_away {L : List W32} (j : Nat) (f : AffRec → AffRec) : Away s.issue.core q L s (s.onAff j f) := by
  have hview (y : W32) : (s.onAff j f).view? s.issue.core y = s.view? s.issue.core y := by
    simp only [State.view?, State.onAff, State.coreAt_onCore, Core.onCrew]
    cases (s.coreAt s.issue.core).crew <;> rfl
  refine Away.step (.refl hs) (.onCore _ (fun _ => rfl) fun c => ?_) ((onAff_store j f).bytes q hq) rfl fun y _ w hw =>
    ⟨w, (hview y).symm.trans hw, .refl w⟩
  rw [Core.onCrew, Option.map_map]
  rfl

theorem affStore_away {o : RJ} {n : Nat} (hnd : ∀ c, s.crew? = some c → (c.all.map fun t => t.ident.tid).Nodup) :
    LanesAway s q (affForm o n true s) fun v =>
      { va := padAddr ((s.affRec o.j.toNat).offset (v.rd32 o.a)), n, rd := false, wr := true } := by
  intro hoff tids hnodup hrun
  refine foldl_away hnodup (onAff_away hs hq _ _) fun x hx r hxr u hu => ?_
  have hrest : Away s.issue.core q r s u := hu.mono fun _ => List.mem_cons_of_mem _
  split
  · exact hrest
  next w hw =>
    obtain ⟨v, hv, halike⟩ := hu.lane x List.mem_cons_self w hw
    obtain ⟨v', hmem, rfl, hok⟩ := hrun x hx
    obtain rfl : v = v' := Option.some.inj (hv.symm.trans (view?_of_run hnd hmem))
    obtain ⟨h, hc, hloc⟩ := affStore_check hok
    obtain ⟨-, hout⟩ := hoff _ (List.mem_map_of_mem hmem) v hv h hc
    refine noteSeen_away hq hxr (issueReq_away hq hxr hrest (fun _ => ⟨⟨_, rfl⟩, ?_⟩) (by simp) (by simp))
    rwa [hloc, ← halike.rd32] at hout

/-- The second clause of O31: table by table. -/
theorem stores_keepByte {t : State} {o : M2} {l : L2} {p : R3} {j : RJ} {x : BitVec 26} (hquiet : s.quiet)
    (hnd : ∀ c, s.crew? = some c → (c.all.map fun t => t.ident.tid).Nodup) :
    ∀ r ∈ storeAccesses o l x ++ atomAccesses atomRows p ++ affStores j s, exec r.1 s = .next t → OffAccesses s r.2.2 q →
      t.rdByte q = s.rdByte q := by
  have each {i : Instr} {acc : View → Access} (k : LaneForm) (hx : exec i s = .next (s.eachLane k)) (haway : LanesAway s q k acc)
      (ht : exec i s = .next t) (hoff : OffAccesses s acc q) : t.rdByte q = s.rdByte q := by
    rw [hx] at ht
    obtain rfl : s.eachLane k = t := by simpa using ht
    exact eachLane_byte hnd hquiet hq fun tids hnodup hrun => (haway hoff tids hnodup hrun).byte
  simp only [storeAccesses, atomAccesses, affStores, List.forall_mem_append, List.forall_mem_cons, List.forall_mem_map, ← off34_eq]
  exact ⟨⟨⟨each _ rfl (storeForm_away hs hq), each _ rfl (storeForm_away hs hq), each _ rfl (stfForm_away hs hq),
    each _ rfl (stfForm_away hs hq), List.forall_mem_nil _⟩, fun r hr => each _ (atomRows_exec p s r hr) (atomForm_away hs hq)⟩,
    each _ rfl (affStore_away hs hq hnd), each _ rfl (affStore_away hs hq hnd), List.forall_mem_nil _⟩

end Affine

/-- Settles O31: loads by what a read leaves, stores by the lanes in their order, and registers by what each request leaves of its lane. -/
theorem loadAndStoreFrame : Obligations.LoadAndStoreFrame := by
  intro s t o l p j a x hs hnd
  exact ⟨loads_sameBytes hs, fun hquiet r hr ht q hq hoff => stores_keepByte hs hq hquiet hnd r hr ht hoff, accesses_lanesKeep⟩

end Sys2Proof.Proofs
end

section
/-! PROOFS. AFFCNT, the conversions of addresses and the fences (R229, R230, R242 to R244): each is the instruction of its row. -/

namespace Sys2Proof.Proofs
open Sys2Proof Sys2Proof.Machine

/-- An instruction that acts on its lanes as the row says in this state completes there. -/
theorem completes_of_exec {r : LaneRow} {s : State} (h : exec r.instr s = .next (s.lanes r.opn r.chk r.eff)) : r.completes s :=
  fun hr => by rw [h, State.lanes_ready hr]

/-! ### Windows and spaces (R196, R243) -/

theorem windowOff_eq (a : W64) : windowOff a = a.toNat % 2 ^ 32 := by
  rw [windowOff, Laws.Encoding.bitsOf_eq, Nat.pow_zero, Nat.div_one]

/-- The number of a space fits in a register. -/
theorem spaceOf_lt (l : Limits) (a : W64) : spaceOf l a < 2 ^ 32 := by
  unfold spaceOf
  repeat' split
  all_goals omega

theorem spaceOf_beq (l : Limits) (a : W64) (b : W32) : boolWord (BitVec.ofNat 32 (spaceOf l a) == b) = oneIf (spaceOf l a = b.toNat) := by
  refine boolWord_iff (beq_iff_eq.trans ⟨fun h => ?_, fun h => ?_⟩)
  · rw [← h, BitVec.toNat_ofNat, Nat.mod_eq_of_lt (spaceOf_lt l a)]
  · rw [h, BitVec.ofNat_toNat, BitVec.setWidth_eq]

/-- What the rows of G2A answer of an address: its offset in the window of space `k`, or none. -/
def offsetAnswer (l : Limits) (k : Nat) (a : W64) : W32 := if spaceOf l a = k then BitVec.ofNat 32 (a.toNat % 2 ^ 32) else 0xFFFFFFFF#32

/-- The same of G2A.LOC, where an address may also lie above %locbase, which is `b`. -/
def locAnswer (l : Limits) (b a : W64) : W32 :=
  if spaceOf l a = 1 then offsetAnswer l 1 a
  else if b ≠ 0#64 ∧ b.toNat ≤ a.toNat ∧ a.toNat < b.toNat + 65536 then BitVec.ofNat 32 (a.toNat - b.toNat) else 0xFFFFFFFF#32

theorem offsetAnswer_eq (l : Limits) (k : Nat) (a : W64) :
    (if spaceOf l a = k then BitVec.ofNat 32 (windowOff a) else noOffset) = offsetAnswer l k a := by
  rw [windowOff_eq]
  rfl

theorem locOffset_eq (l : Limits) (b a : W64) : locOffset l b a = locAnswer l b a := by
  have hrange : (b.toNat ≤ a.toNat ∧ a.toNat - b.toNat < 65536) ↔ b.toNat ≤ a.toNat ∧ a.toNat < b.toNat + 65536 := by omega
  by_cases hspace : spaceOf l a = 1
  · simp only [locOffset, locAnswer, offsetAnswer, windowOff_eq, hspace, if_true]
  · simp only [locOffset, locAnswer, hspace, if_false, hrange]
    rfl

/-! ### The rows -/

section Rows
variable {s : State} {o : R2}

/-- A conversion from an offset in a window whose base is `base`. -/
theorem a2g_completes {i : R2 → Instr} {base : Nat} (hx : exec (i o) s = a2g (BitVec.ofNat 64 base) o s) :
    LaneRow.completes ⟨i o, { srcs := [.r o.a o.f], dsts := [⟨o.d, 2⟩] }, fun v =>
      (v.wr64 o.d (BitVec.ofNat 64 (base + (v.rd32 o.a).toNat))).done 4#64, noCheck⟩ s := by
  refine completes_of_exec (hx.trans ?_)
  simp only [a2g, BitVec.ofNat_add, BitVec.ofNat_toNat]

theorem g2aLoc_completes : LaneRow.completes ⟨.g2aLoc o, { srcs := [.base o.a o.f], dsts := [⟨o.d, 1⟩] }, fun v =>
    (v.wr32 o.d (locAnswer (s.limits s.issue.core) v.th.locbase (v.baseVal o.a))).done 4#64, noCheck⟩ s := by
  refine completes_of_exec (Eq.trans (b := execG2aLoc o s) rfl ?_)
  simp only [execG2aLoc, addrOp, locOffset_eq]

/-- A conversion to an offset in the window of space `k`. -/
theorem g2a_completes {i : R2 → Instr} {k : Nat}
    (hx : exec (i o) s = addrOp o (fun l _ a => if spaceOf l a = k then BitVec.ofNat 32 (windowOff a) else noOffset) s) :
    LaneRow.completes ⟨i o, { srcs := [.base o.a o.f], dsts := [⟨o.d, 1⟩] }, fun v =>
      (v.wr32 o.d (offsetAnswer (s.limits s.issue.core) k (v.baseVal o.a))).done 4#64, noCheck⟩ s := by
  refine completes_of_exec (hx.trans ?_)
  simp only [addrOp, offsetAnswer_eq]

theorem inspace_completes (p : R3) : LaneRow.completes ⟨.inspace p, { srcs := [.base p.a p.f, .r p.b p.g], dsts := [⟨p.d, 1⟩] }, fun v =>
    (v.wr32 p.d (oneIf (spaceOf (s.limits s.issue.core) (v.baseVal p.a) = (v.rd32 p.b).toNat))).done 4#64, noCheck⟩ s := by
  refine completes_of_exec (Eq.trans (b := execInspace p s) rfl ?_)
  simp only [execInspace, spaceOf_beq]

theorem addrRows_complete (j : RDJ) (p : R3) : ∀ r ∈ addrRows j o p s, r.completes s := by
  simp only [addrRows, List.forall_mem_cons]
  exact ⟨completes_of_exec rfl, a2g_completes rfl, a2g_completes rfl, a2g_completes rfl, g2aLoc_completes, g2a_completes rfl,
    g2a_completes rfl, completes_of_exec rfl, inspace_completes p, List.forall_mem_nil _⟩

theorem fenceRows_complete : ∀ r ∈ fenceRows s, r.completes s := by
  simp only [fenceRows, List.forall_mem_cons]
  exact ⟨completes_of_exec rfl, completes_of_exec rfl, completes_of_exec rfl, completes_of_exec rfl, List.forall_mem_nil _⟩

end Rows

/-- Settles O29: each instruction acts on its lanes as its row says. -/
theorem addressAndFenceResults : Obligations.AddressAndFenceResults :=
  fun _ j _ p r hr => (List.mem_append.1 hr).elim (addrRows_complete j p r) (fenceRows_complete r)

end Sys2Proof.Proofs
end

section
/-! PROOFS. Bulk data (R227, R408): what a READ answers, where the bytes of a WRITE come to stand, and the requests that are refused. -/

namespace Sys2Proof.Proofs
open Sys2Proof Sys2Proof.Machine

/-! ### One byte placed -/

section Place
variable {s : State}

theorem bytesOf_one (b : Byte) : bytesOf 1 b.toNat = [b] := by
  simp [bytesOf]

theorem wr_byte (l : Loc) (b : Byte) : s.wr l 1 b.toNat = (s.wrByte l b).clearErrs l 1 := by
  rw [State.wr, bytesOf_one]
  rfl

theorem putByte_terms (x : Loc × Byte) : (putByte s x).terms = s.terms := by
  obtain ⟨l, b⟩ := x
  have hclear := (clearFutures_aside (s := s) l 1).terms
  simp only [putByte, wr_byte]
  cases l <;> exact hclear

theorem putByte_wf {x : Loc × Byte} (h : Memory.wf s.mem) : Memory.wf (putByte s x).mem :=
  State.wr_wf _ _ _ _ (State.clearFutures_wf _ _ _ h)

/-- A byte placed is what its address of memory then holds, and every other address holds what it held. -/
theorem memGet_putByte (h : Memory.wf s.mem) (x : Loc × Byte) (a : Nat) :
    memGet (putByte s x).mem a = if x.1 = .mem a then x.2 else memGet s.mem a := by
  obtain ⟨l, b⟩ := x
  have hclear := (clearFutures_aside (s := s) l 1).mem
  simp only [putByte, wr_byte]
  cases l with
  | mem c =>
    show memGet (memSet (s.clearFutures (.mem c) 1).mem c b) a = _
    rw [hclear]
    by_cases hc : c = a
    · subst hc
      rw [if_pos rfl, memGet_memSet_same _ _ _ h]
    · rw [if_neg fun he => hc (Loc.mem.inj he), memGet_memSet_other _ _ _ _ (Ne.symm hc) h]
  | _ => exact congrArg (memGet · a) hclear

end Place

/-! ### The bytes of a WRITE, one after another -/

section Bytes
variable {s : State} {a : Nat}

theorem memGet_putBytes_other {l : List (Loc × Byte)} (h : Memory.wf s.mem) (hl : ∀ x ∈ l, x.1 ≠ .mem a) :
    memGet (l.foldl putByte s).mem a = memGet s.mem a := by
  induction l generalizing s with
  | nil => rfl
  | cons x l ih =>
    rw [List.foldl_cons, ih (putByte_wf h) fun y hy => hl y (List.mem_cons_of_mem _ hy), memGet_putByte h,
      if_neg (hl x List.mem_cons_self)]

theorem not_mem_zip {l : List Loc} {bs : List Byte} {p : Loc} (h : p ∉ l) : ∀ x ∈ l.zip bs, x.1 ≠ p :=
  fun _ hx he => h (he ▸ (List.of_mem_zip hx).1)

/-- Of the bytes that fall on one address the last stands there. -/
theorem memGet_putBytes_last {l : List Loc} {bs : List Byte} {i : Nat} {b : Byte} (h : Memory.wf s.mem) (hl : l[i]? = some (.mem a))
    (hb : bs[i]? = some b) (hlast : ∀ j : Nat, i < j → l[j]? ≠ some (.mem a)) : memGet ((l.zip bs).foldl putByte s).mem a = b := by
  induction l generalizing s bs i with
  | nil => cases hl
  | cons p l ih =>
    cases bs with
    | nil => cases hb
    | cons c bs =>
      rw [List.zip_cons_cons, List.foldl_cons]
      cases i with
      | zero =>
        obtain rfl : p = .mem a := Option.some.inj hl
        obtain rfl : c = b := Option.some.inj hb
        have hrest : Loc.mem a ∉ l := fun hmem => by
          obtain ⟨j, hj⟩ := List.mem_iff_getElem?.1 hmem
          exact hlast (j + 1) j.succ_pos hj
        rw [memGet_putBytes_other (putByte_wf h) (not_mem_zip hrest), memGet_putByte h, if_pos rfl]
      | succ i => exact ih (putByte_wf h) hl hb fun j hj => hlast (j + 1) (Nat.succ_lt_succ hj)

/-- Where no term is held, the bytes of a WRITE take their places one after another. -/
theorem rdmaPut_mem (l : List (Loc × Byte)) (h : s.terms = []) : (s.rdmaPut l).mem = (l.foldl putByte s).mem := by
  have hfold : l.foldl (fun t x => ((t.settle x.1 1).clearFutures x.1 1).wr x.1 1 x.2.toNat) s = l.foldl putByte s := by
    induction l generalizing s with
    | nil => rfl
    | cons x l ih =>
      rw [List.foldl_cons, List.foldl_cons, settle_nil h]
      exact ih ((putByte_terms x).trans h)
  rw [State.rdmaPut, hfold]
  exact State.foldl_mem_eq State.stampDev State.stampDev_mem _ _

/-- Bytes that are no entry of a page table in use change none (R365). -/
theorem entriesStored_plain (was : State) {l : List Loc} (h : ∀ a, Loc.mem a ∈ l → s.entryLevel (a / 8 * 8) = none) :
    was.entriesStored s l = s := by
  unfold State.entriesStored
  refine List.foldlRecOn (motive := (· = s)) _ _ rfl ?_
  rintro _ rfl w hw
  obtain ⟨p, hp, hword⟩ := List.mem_filterMap.1 (List.mem_eraseDups.1 hw)
  cases p with
  | mem a =>
    obtain rfl : a / 8 * 8 = w := Option.some.inj hword
    simp only [State.entryStored, h a hp, ite_self]
  | _ => cases hword

theorem rdmaStore_mem {l : List Loc} {bs : List Byte} (hs : s.terms = [])
    (h : ∀ a, Loc.mem a ∈ l → (s.rdmaPut (l.zip bs)).entryLevel (a / 8 * 8) = none) :
    (s.rdmaStore (l.zip bs)).mem = ((l.zip bs).foldl putByte s).mem := by
  have hplain : ∀ a, Loc.mem a ∈ (l.zip bs).map (·.1) → (s.rdmaPut (l.zip bs)).entryLevel (a / 8 * 8) = none := by
    intro a ha
    obtain ⟨x, hx, hxa⟩ := List.mem_map.1 ha
    exact h a (hxa ▸ (List.of_mem_zip hx).1)
  rw [State.rdmaStore, entriesStored_plain s hplain, rdmaPut_mem _ hs]

end Bytes

/-! ### The requests -/

/-- A tenancy whose connection `conn` has ended. -/
def connEnded (conn : Nat) (t : Tenancy) : Tenancy := { t with conns := t.conns.set conn false }

theorem connUp_connEnded (conn : Nat) (t : Tenancy) : (connEnded conn t).connUp conn = false := by
  rw [connEnded, Tenancy.connUp, List.getD_eq_getElem?_getD, List.getElem?_set_self']
  cases t.conns[conn]? <;> rfl

section Requests
variable {s : State} {rq : RdmaReq} (hup : (s.tenAt rq.ten).connUp rq.conn = true)
include hup

theorem rdmaRead_answers {l : List Loc} (hkey : rq.key = (s.tenAt rq.ten).rdmaKey) (hs : s.terms = [])
    (hl : s.rdmaBytes rq true false rq.len = some l) (hok : ∀ p ∈ l, s.underRepair p = false ∧ s.spoiled p 1 = false) :
    exec (.rdmaRead rq) s = .next (s.rdmaAnswer rq.ten rq.conn 4 (l.map s.rdByte)) := by
  have hrepair : l.any s.underRepair = false := List.any_eq_false.2 fun p hp => by simp [(hok p hp).1]
  have hsound : (l.any fun p => s.spoiled p 1) = false := List.any_eq_false.2 fun p hp => by simp [(hok p hp).2]
  show execRdmaRead rq s = _
  simp [execRdmaRead, hup, hkey, hl, hrepair, settleEach_nil _ hs, hsound]

theorem rdmaWrite_acknowledges {l : List Loc} (hkey : rq.key = (s.tenAt rq.ten).rdmaKey)
    (hl : s.rdmaBytes rq false true rq.data.length = some l) (hok : ∀ p ∈ l, s.underRepair p = false) :
    exec (.rdmaWrite rq) s = .next (((s.rdmaStore (l.zip rq.data)).mend l).rdmaAnswer rq.ten rq.conn 1 []) := by
  have hrepair : l.any s.underRepair = false := List.any_eq_false.2 fun p hp => by simp [hok p hp]
  show execRdmaWrite rq s = _
  simp [execRdmaWrite, hup, hkey, hl, hrepair]

theorem wrongKey_refused (hkey : rq.key ≠ (s.tenAt rq.ten).rdmaKey) :
    exec (.rdmaRead rq) s = .next (s.rdmaAnswer rq.ten rq.conn 2 []) ∧
      exec (.rdmaWrite rq) s = .next (s.rdmaAnswer rq.ten rq.conn 2 []) := by
  show execRdmaRead rq s = _ ∧ execRdmaWrite rq s = _
  simp [execRdmaRead, execRdmaWrite, hup, hkey]

theorem rdmaInvalidRequest_ends : ∃ t, exec (.rdmaInvalidRequest rq.ten rq.conn) s = .next t ∧ (t.tenAt rq.ten).connUp rq.conn = false := by
  have hexec : exec (.rdmaInvalidRequest rq.ten rq.conn) s =
      .next ((s.onTen rq.ten (connEnded rq.conn)).rdmaAnswer rq.ten rq.conn 3 []) := by
    show execRdmaInvalidRequest rq.ten rq.conn s = _
    simp only [execRdmaInvalidRequest, hup, Bool.not_true, Bool.false_eq_true, if_false]
    rfl
  refine ⟨_, hexec, ?_⟩
  have hten : (s.onTen rq.ten (connEnded rq.conn)).tenAt rq.ten = { connEnded rq.conn (s.tenAt rq.ten) with id := rq.ten } :=
    State.tenAt_onTen ..
  exact (congrArg (·.connUp rq.conn) hten).trans (connUp_connEnded rq.conn (s.tenAt rq.ten))

end Requests

/-- Settles O57: a READ finds nothing to settle, and of a WRITE's bytes each in turn replaces what stands at its place. -/
theorem bulkDataRequests : Obligations.BulkDataRequests := by
  intro s rq hup
  refine ⟨fun hkey hs l hl hok => rdmaRead_answers hup hkey hs hl hok, fun hkey l hl hok => ?_, wrongKey_refused hup,
    rdmaInvalidRequest_ends hup⟩
  refine ⟨_, rdmaWrite_acknowledges hup hkey hl hok, by simp [State.rdmaAnswer, State.send], fun hs hwf hentry => ?_⟩
  have hmem : (((s.rdmaStore (l.zip rq.data)).mend l).rdmaAnswer rq.ten rq.conn 1 []).mem = ((l.zip rq.data).foldl putByte s).mem :=
    rdmaStore_mem hs hentry
  rw [hmem]
  exact ⟨fun i a b hi hb hlast => memGet_putBytes_last hwf hi hb hlast, fun a ha => memGet_putBytes_other hwf (not_mem_zip ha)⟩

end Sys2Proof.Proofs
end

section
/-! PROOFS. Loads, stores, future words, atomics and affine accesses whose lanes all pass (R233 to R242): each is the instruction of its row,
which acts on its lanes one by one, but AFFSET on all of them together. -/

namespace Sys2Proof.Proofs
open Sys2Proof Sys2Proof.Machine

/-! ### An instruction and its form -/

section Forms
variable {s : State} {i : Instr} {k : LaneForm}

/-- An instruction of each lane alone completes where every lane passes the checks and waits of its form. -/
theorem exec_result_of_eachLane (hx : exec i s = .next (s.eachLane k)) (hg : k.goes s) : exec i s = .next (k.result s) :=
  hx.trans (congrArg Host.Outcome.next (s.eachLane_passes k hg))

/-- The same of a collective instruction. -/
theorem exec_result_of_allLanes (hx : exec i s = .next (s.allLanes k)) (hg : k.goes s) : exec i s = .next (k.result s) :=
  hx.trans (congrArg Host.Outcome.next (s.allLanes_passes k hg))

end Forms

/-! ### The tables -/

section Tables
variable (s : State)

theorem memRows_exec (o : M2) (l : L2) (x : BitVec 26) : ∀ r ∈ memRows o l x s, exec r.1 s = .next (s.eachLane r.2) := by
  simp only [memRows, List.forall_mem_cons, ← off34_eq]
  exact ⟨rfl, rfl, rfl, rfl, rfl, rfl, rfl, rfl, List.forall_mem_nil _⟩

theorem memRows_complete (o : M2) (l : L2) (x : BitVec 26) : formsComplete s (memRows o l x s) :=
  fun r hr => exec_result_of_eachLane (memRows_exec s o l x r hr)

theorem atomRows_complete (p : R3) : formsComplete s (atomRows.map fun r => (r.1 p, atomForm r.2 p s)) :=
  List.forall_mem_map.2 fun r hr => exec_result_of_eachLane (atomRows_exec p s r hr)

theorem affRows_complete (j : RJ) (a : RAJ) : formsComplete s (affRows j a s) := by
  simp only [formsComplete, affRows, List.forall_mem_cons]
  exact ⟨exec_result_of_eachLane rfl, exec_result_of_eachLane rfl, exec_result_of_eachLane rfl, exec_result_of_eachLane rfl,
    exec_result_of_allLanes rfl, List.forall_mem_nil _⟩

end Tables

/-- Settles O28: table by table. -/
theorem memoryAccessesComplete : Obligations.MemoryAccessesComplete :=
  fun s o l p j a x => ⟨memRows_complete s o l x, atomRows_complete s p, affRows_complete s j a⟩

end Sys2Proof.Proofs
end

section
/-! PROOFS. Commands of the engines at their issue (R250, R251, R273, R274), and lane evaluations (R299, R304, R305). -/

namespace Sys2Proof.Proofs
open Sys2Proof Sys2Proof.Machine

/-! ### Commands -/

section Commands
variable {s : State}

/-- A list of commands issues where each is the issue of its card's form. -/
theorem commandsIssue_of_engIssue {l : List (Instr × R2 × EngForm)} (h : ∀ r ∈ l, exec r.1 s = .next (s.engIssue r.2.1 r.2.2)) :
    commandsIssue s l :=
  fun r hr _ hi => (h r hr).trans (congrArg _ (State.engIssue_issues hi))

theorem copyRows_exec (o : R2) : ∀ r ∈ copyRows o s, exec r.1 s = .next (s.engIssue r.2.1 r.2.2) := by
  simp only [copyRows, List.forall_mem_cons]
  exact ⟨rfl, rfl, rfl, rfl, rfl, rfl, rfl, List.forall_mem_nil _⟩

theorem matrixRows_exec (o : R2) : ∀ r ∈ matrixRows o s, exec r.1 s = .next (s.engIssue r.2.1 r.2.2) := by
  simp only [matrixRows, List.forall_mem_cons]
  exact ⟨rfl, rfl, rfl, rfl, rfl, rfl, rfl, rfl, rfl, rfl, rfl, rfl, rfl, rfl, rfl, rfl, rfl, rfl, rfl, rfl, rfl, rfl, rfl, rfl, rfl, rfl,
    rfl, rfl, rfl, rfl, rfl, rfl, rfl, rfl, rfl, rfl, rfl, rfl, rfl, rfl, rfl, rfl, List.forall_mem_nil _⟩

theorem tableRows_exec (o : R2) (d : RD) : ∀ r ∈ tableRows o d s, exec r.1 s = .next (s.engIssue r.2.1 r.2.2) := by
  simp only [tableRows, List.forall_mem_cons]
  exact ⟨rfl, rfl, rfl, rfl, rfl, rfl, rfl, rfl, rfl, rfl, rfl, rfl, rfl, rfl, rfl, rfl, List.forall_mem_nil _⟩

theorem physicsRows_exec (o : R2) (d : RD) : ∀ r ∈ physicsRows o d s, exec r.1 s = .next (s.engIssue r.2.1 r.2.2) := by
  simp only [physicsRows, List.forall_mem_cons]
  exact ⟨rfl, rfl, rfl, rfl, rfl, rfl, rfl, rfl, rfl, rfl, rfl, rfl, rfl, rfl, rfl, rfl, rfl, rfl, rfl, rfl, List.forall_mem_nil _⟩

end Commands

/-! ### Lane evaluations -/

/-- Where no network of the run fails its checks, every lane counts as one that takes its evaluation, and none traps behind the split. -/
theorem netCmd_evaluates {s : State} {k : NetOp} {o : R2} (h : s.evaluates k o) : netCmd k o s = .next (s.evaluated k o) := by
  obtain ⟨hpass, hfail⟩ := h
  have hall : (s.run.filter fun v => (netFail k o v (s.laneNet s.issue.core k o v)).isNone) = s.run :=
    List.filter_eq_self.2 fun v hv => by rw [hfail v hv]; rfl
  have hsplit : splitNet (s.verdicts (s.netVerdict s.issue.core k o s.run.length)) = { go := s.tids } := by
    rw [splitNet_ok (State.verdicts_ok hpass.2), State.verdicts_tids]
  have hbad : ∀ go : List W32, ((s.run.filter fun v => go.contains v.th.ident.tid).filterMap fun v =>
      (netFail k o v (s.laneNet s.issue.core k o v)).map fun sub =>
        (v.th.ident.tid, trapAt 40 Cause.engine sub (o.a.setWidth 64))) = [] := fun go =>
    List.filterMap_eq_nil_iff.2 fun v hv => by rw [hfail v (List.mem_of_mem_filter hv)]; rfl
  have hgo : (s.tids.filter fun t => !(([] : List (W32 × Trap)).map (·.1)).contains t) = s.tids := List.filter_eq_self.2 fun _ _ => rfl
  simp only [netCmd, hall, hsplit, hbad, hgo, List.isEmpty_nil, if_true, List.append_nil]
  exact congrArg _ (State.applySplit_go _ _ (State.tids_ne hpass))

/-- Settles O42: every command is the issue of its card's form, and the lane evaluations by `netCmd_evaluates`. -/
theorem commandsIssue : Obligations.CommandsIssue := by
  refine fun s o d => ⟨commandsIssue_of_engIssue (copyRows_exec o), commandsIssue_of_engIssue (matrixRows_exec o),
    commandsIssue_of_engIssue (tableRows_exec o d), commandsIssue_of_engIssue (physicsRows_exec o d), ?_⟩
  simp only [List.mem_cons, List.not_mem_nil, or_false, Prod.mk.injEq]
  rintro k i (⟨rfl, rfl⟩ | ⟨rfl, rfl⟩ | ⟨rfl, rfl⟩) h
  all_goals exact netCmd_evaluates h

end Sys2Proof.Proofs
end

section
/-! PROOFS. A command that issues stands last in its queue (R250, R274, R299): what leaves the queues of engines as they are, and the tiles that
launch before a command. -/

namespace Sys2Proof.Proofs
open Sys2Proof Sys2Proof.Machine

/-! ### What a store to memory keeps, page tables included (R362, R365) -/

/-- A property of the device that a byte written, and a page that a table maps or removes, leave true. -/
structure TableRule (P : State → Prop) : Prop where
  byte  : ∀ {s} l b, P s → P (s.wrByte l b)
  errs  : ∀ {s} l, P s → P { s with errs := l }
  stale : ∀ {s} l, P s → P { s with stale := l }
  pin   : ∀ {s} (was : State) e lvl on root, P s → P (was.pinPage s e lvl on root)

section Rule
variable {P : State → Prop} (hP : TableRule P) {s : State}
include hP

theorem TableRule.wr (l : Loc) (n v : Nat) (h : P s) : P (s.wr l n v) := by
  have hbytes : ∀ (bs : List Byte) {s : State} (l : Loc), P s → P (s.wrBytes l bs) := by
    intro bs
    induction bs with
    | nil => exact fun _ h => h
    | cons b r ih => exact fun l h => ih _ (hP.byte l b h)
  exact hP.errs _ (hbytes _ l h)

theorem TableRule.mapPages (was : State) (on root : Bool) (e : W64) (n : Nat) (h : P s) : P (was.mapPages s on root e n) := by
  induction n generalizing s e with
  | zero => exact h
  | succ n ih =>
    unfold State.mapPages
    split
    · exact h
    · split
      · exact hP.pin was _ _ _ _ h
      · split
        · exact h
        · exact List.foldlRecOn _ _ h fun _ ht _ _ => ih _ ht

theorem TableRule.entryStored (a : Nat) (old : W64) (h : P s) : P (s.entryStored a old) := by
  unfold State.entryStored
  simp only
  split
  · exact h
  · split
    · exact h
    · split
      · exact hP.stale _ h
      · exact hP.mapPages _ _ _ _ _ h

theorem TableRule.wrTables (l : Loc) (n v : Nat) (h : P s) : P (s.wrTables l n v) := by
  cases l with
  | mem a => exact List.foldlRecOn _ _ (hP.wr _ n v h) fun _ ht _ _ => hP.entryStored _ _ ht
  | _ => exact hP.wr _ n v h

end Rule

/-! ### States of the same queues -/

/-- From core `c` to core `d` no queue has changed: neither one of the core itself nor one of a section. -/
structure CoreQueues (c d : Core) : Prop where
  own   : [d.copyq, d.tblq, d.netq, d.caverq, d.pressq] = [c.copyq, c.tblq, c.netq, c.caverq, c.pressq]
  mat   : ∀ k, (d.sectAt k).mq = (c.sectAt k).mq
  stack : ∀ k, (d.sectAt k).sq = (c.sectAt k).sq

theorem CoreQueues.of_eq {c d : Core} (ho : [d.copyq, d.tblq, d.netq, d.caverq, d.pressq] = [c.copyq, c.tblq, c.netq, c.caverq, c.pressq])
    (hs : d.sects = c.sects) : CoreQueues c d :=
  ⟨ho, fun k => by rw [sectAt_congr hs], fun k => by rw [sectAt_congr hs]⟩
theorem CoreQueues.refl (c : Core) : CoreQueues c c := .of_eq rfl rfl
theorem CoreQueues.ite {c d e : Core} {p : Prop} [Decidable p] (hd : CoreQueues c d) (he : CoreQueues c e) :
    CoreQueues c (if p then d else e) := by
  split
  · exact hd
  · exact he

/-- A change of one section keeps what the change of that section keeps. -/
theorem sectAt_onSect_keeps {α : Type} (g : Machine.Section → α) (c : Core) (i : Nat) {f : Machine.Section → Machine.Section}
    (hf : ∀ x, g (f x) = g x) (k : Nat) : g ((c.onSect i f).sectAt k) = g (c.sectAt k) := by
  by_cases h : k = i
  · rw [h, sectAt_onSect, hf]
  · exact congrArg g (getD_modifyAt_other _ f h c.sects)

theorem CoreQueues.onSect (c : Core) (i : Nat) {f : Machine.Section → Machine.Section} (hm : ∀ x, (f x).mq = x.mq)
    (hs : ∀ x, (f x).sq = x.sq) : CoreQueues c (c.onSect i f) :=
  ⟨rfl, sectAt_onSect_keeps Machine.Section.mq c i hm, sectAt_onSect_keeps Machine.Section.sq c i hs⟩

/-- From `s` to `t` no queue of an engine and no held term has changed. -/
structure QueuesKept (s t : State) : Prop where
  core  : ∀ i, CoreQueues (s.coreAt i) (t.coreAt i)
  grind : ∀ i, (t.cellAt i).grindq = (s.cellAt i).grindq
  dies  : t.dies = s.dies
  terms : t.terms = s.terms

section Kept
variable {s t u : State}

theorem QueuesKept.refl : QueuesKept s s := ⟨fun _ => .refl _, fun _ => rfl, rfl, rfl⟩
theorem QueuesKept.trans (h : QueuesKept s t) (k : QueuesKept t u) : QueuesKept s u where
  core i := ⟨(k.core i).own.trans (h.core i).own, fun j => ((k.core i).mat j).trans ((h.core i).mat j),
    fun j => ((k.core i).stack j).trans ((h.core i).stack j)⟩
  grind i := (k.grind i).trans (h.grind i)
  dies := k.dies.trans h.dies
  terms := k.terms.trans h.terms

/-- What leaves the cores, the cells, the dies and the terms as they are. -/
theorem QueuesKept.of_eq (hc : t.coreAt = s.coreAt) (hl : t.cellAt = s.cellAt) (hd : t.dies = s.dies) (ht : t.terms = s.terms) :
    QueuesKept s t := ⟨fun i => by rw [hc]; exact .refl _, fun i => by rw [hl], hd, ht⟩

theorem QueuesKept.onCore (i : Nat) {f : Core → Core} (hf : ∀ c, CoreQueues c (f c)) : QueuesKept s (s.onCore i f) := by
  refine ⟨fun j => ?_, fun _ => rfl, rfl, rfl⟩
  by_cases h : j = i
  · subst h
    rw [State.coreAt_onCore]
    exact ⟨(hf _).own, (hf _).mat, (hf _).stack⟩
  · rw [State.coreAt_onCore_other _ _ _ _ h]
    exact .refl _

theorem QueuesKept.onCell (i : Nat) {f : Cell → Cell} (hf : ∀ x, (f x).grindq = x.grindq) : QueuesKept s (s.onCell i f) := by
  refine ⟨fun _ => .refl _, fun j => ?_, rfl, rfl⟩
  by_cases h : j = i
  · subst h
    rw [State.cellAt_onCell]
    exact hf _
  · rw [State.cellAt_onCell_other _ _ _ _ h]

theorem QueuesKept.ite {p : Prop} [Decidable p] (ht : QueuesKept s t) (hu : QueuesKept s u) : QueuesKept s (if p then t else u) := by
  split
  · exact ht
  · exact hu

theorem QueuesKept.foldl {α : Type} (l : List α) {f : State → α → State} (hf : ∀ s x, QueuesKept s (f s x)) : QueuesKept s (l.foldl f s) :=
  List.foldlRecOn (motive := QueuesKept s) _ _ .refl fun t ht x _ => ht.trans (hf t x)

theorem QueuesKept.queueOf (h : QueuesKept s t) (r : EngRef) : t.queueOf r = s.queueOf r := by
  have hown := (h.core r.core).own
  simp only [List.cons.injEq, and_true] at hown
  obtain ⟨hcopy, htbl, hnet, hcaver, hpress⟩ := hown
  cases hr : r.eng with
  | copy => simpa only [State.queueOf, hr] using hcopy
  | matrix k => simpa only [State.queueOf, hr] using (h.core r.core).mat k
  | stack k => simpa only [State.queueOf, hr] using (h.core r.core).stack k
  | table => simpa only [State.queueOf, hr] using htbl
  | fabric => simp only [State.queueOf, hr, State.dieAt, h.dies]
  | carafe => simpa only [State.queueOf, hr] using hnet
  | grinder => simpa only [State.queueOf, hr] using h.grind (cellOf r.core)
  | caver => simpa only [State.queueOf, hr] using hcaver
  | press => simpa only [State.queueOf, hr] using hpress

/-! ### What leaves the queues alone -/

theorem setPathWord_queues (x : Machine.Section) (j i : Nat) (v : W32) : (x.setPathWord j i v).mq = x.mq ∧ (x.setPathWord j i v).sq = x.sq := by
  unfold Section.setPathWord
  split
  · exact ⟨rfl, rfl⟩
  · split <;> exact ⟨rfl, rfl⟩

theorem onTable_queues (c : Core) (i : Nat) (f : ActTable → ActTable) : CoreQueues c (c.onTable i f) := .of_eq rfl rfl
theorem setHandleWord_queues (c : Core) (h i : Nat) (v : W32) : CoreQueues c (c.setHandleWord h i v) := .of_eq rfl rfl

/-- The words of a core's image are no commands (R372). -/
theorem setImageWord_queues (c : Core) (slot off : Nat) (v : W32) : CoreQueues c (c.setImageWord slot off v) := by
  have same {d : Core} := CoreQueues.of_eq (c := c) (d := d)
  unfold Core.setImageWord
  refine .ite (.onSect c slot (fun _ => rfl) fun _ => rfl) (.ite (.ite (onTable_queues ..) (.ite (same rfl rfl) (.ite (same rfl rfl)
    (.ite (same rfl rfl) (.ite (same rfl rfl) (.ite ?_ (.ite (same rfl rfl) (.ite (same rfl rfl)
    (.ite (setHandleWord_queues ..) (same rfl rfl))))))))))
    (.ite (.ite (same rfl rfl) (.ite (same rfl rfl) (.ite ?_ (.ite (same rfl rfl) (.ite (same rfl rfl) (.ite (same rfl rfl) (same rfl rfl)))))))
      (same rfl rfl)))
  · refine .onSect c _ (fun x => ?_) fun x => ?_
    all_goals split <;> rfl
  · exact .onSect c _ (fun x => (setPathWord_queues x _ _ v).1) fun x => (setPathWord_queues x _ _ v).2

theorem wrByte_queues (l : Loc) (b : Byte) : QueuesKept s (s.wrByte l b) := by
  cases l with
  | mem a => exact .of_eq rfl rfl rfl rfl
  | pad c o =>
    rw [wrByte_pad]
    exact .onCore c fun _ => .of_eq rfl rfl
  | cel c o => exact QueuesKept.onCell (s := s) c (f := fun x => { x with bytes := putBy (·.1) (o, b) x.bytes }) fun _ => rfl
  | state c k o =>
    rw [wrByte_state]
    exact .onCore c fun x => setImageWord_queues x k (o / 4 * 4) _
  | remote d a => exact .refl

theorem pinPage_queues (was : State) (e : W64) (lvl : Nat) (on root : Bool) : QueuesKept s (was.pinPage s e lvl on root) := by
  unfold State.pinPage
  extract_lets p first upd new lo s1 fresh kept
  have hs : QueuesKept s kept := .ite (.ite (.of_eq rfl rfl rfl rfl) (.of_eq rfl rfl rfl rfl)) (.ite (.onCore _ fun _ => .of_eq rfl rfl) .refl)
  exact .ite .refl (.ite (hs.trans (.of_eq rfl rfl rfl rfl)) hs)

theorem tableRule_queues (s : State) : TableRule (QueuesKept s) where
  byte l b h := h.trans (wrByte_queues l b)
  errs _ h := h.trans (.of_eq rfl rfl rfl rfl)
  stale _ h := h.trans (.of_eq rfl rfl rfl rfl)
  pin was e lvl on root h := h.trans (pinPage_queues was e lvl on root)

theorem putStamps_queues (x : Line) : QueuesKept s (s.putStamps x) := .of_eq rfl rfl rfl rfl
theorem raisePts_queues (core t : Nat) : QueuesKept s (s.raisePts core t) := .onCore core fun _ => .of_eq rfl rfl

theorem stampAll_queues (core : Nat) (rs ws : List Loc) : QueuesKept s (s.stampAll core rs ws) := by
  unfold State.stampAll
  extract_lets t u
  have hreads : QueuesKept s u := .foldl rs fun _ _ => putStamps_queues _
  exact (hreads.trans (.foldl ws fun _ _ => putStamps_queues _)).trans (raisePts_queues core t)

theorem onTids_queues (core : Nat) (tids : List W32) (f : View → View) : QueuesKept s (s.onTids core tids f) :=
  .onCore core fun _ => .of_eq rfl rfl

theorem bumpSeq_queues (r : EngRef) : QueuesKept s (s.bumpSeq r) := by
  unfold State.bumpSeq
  exact .onCore _ fun _ => .of_eq rfl rfl

/-- The read of a record at issue, where no term is held for it. -/
theorem loadRecord_queues (ht : s.terms = []) (core : Nat) (tid : W32) (l : Loc) (n : Nat) :
    QueuesKept s ((s.padSeen core tid l n).loadWide core l n).1 := by
  have hseen : QueuesKept s (s.padSeen core tid l n) := by
    unfold State.padSeen
    exact .ite (onTids_queues ..) .refl
  unfold State.loadWide
  rw [settle_nil (hseen.terms.trans ht)]
  exact hseen.trans (stampAll_queues ..)

/-- A write of the command processor is no command. -/
theorem cpWrite_queues (ht : s.terms = []) (ten : Nat) (va : W64) (n v : Nat) : QueuesKept s (s.cpWrite ten va n v).1 := by
  unfold State.cpWrite
  split
  · exact .refl
  next h _ =>
    rw [settle_nil ht]
    have hclear : QueuesKept s (s.clearFutures h.loc n) := .foldl _ fun _ _ => .of_eq rfl rfl rfl rfl
    exact ((tableRule_queues s).wrTables h.loc n v hclear).trans (.of_eq rfl rfl rfl rfl)

theorem trace_queues (ht : s.terms = []) (ten : Nat) (r : TraceRec) : QueuesKept s (s.trace ten r) := by
  unfold State.trace
  refine .ite .refl (.ite (.of_eq rfl rfl rfl rfl) ?_)
  split
  · exact .of_eq rfl rfl rfl rfl
  next u hu =>
    have hwrite := cpWrite_queues ht ten ((s.tenAt ten).trace.addr + BitVec.ofNat 64 (32 * (s.tenAt ten).trace.count)) 32 r.bits
    rw [hu] at hwrite
    exact hwrite.trans (.of_eq rfl rfl rfl rfl)

end Kept

/-! ### The tiles that launch before a command (R299) -/

section Tiles
variable {s : State}

/-- The command counts of a core come from its `seqs`. -/
theorem seqOf_congr {t : State} (h : ∀ i, (t.coreAt i).seqs = (s.coreAt i).seqs) (r : EngRef) : t.seqOf r = s.seqOf r := by
  rw [State.seqOf, State.seqOf, h]

/-- From `s` to `t` tiles have gone to the end of queue `r`, and nothing else has changed there. -/
structure TilesJoin (r : EngRef) (s t : State) : Prop where
  queue : ∃ l : List Cmd, t.queueOf r = s.queueOf r ++ l ∧ ∀ y ∈ l, y.op.isTile = true
  seqs  : ∀ i, (t.coreAt i).seqs = (s.coreAt i).seqs
  terms : t.terms = s.terms

theorem TilesJoin.refl (r : EngRef) : TilesJoin r s s := ⟨⟨[], (List.append_nil _).symm, List.forall_mem_nil _⟩, fun _ => rfl, rfl⟩
theorem TilesJoin.trans {r : EngRef} {t u : State} (h : TilesJoin r s t) (k : TilesJoin r t u) : TilesJoin r s u := by
  obtain ⟨l, hl, hltiles⟩ := h.queue
  obtain ⟨m, hm, hmtiles⟩ := k.queue
  refine ⟨⟨l ++ m, by rw [hm, hl, List.append_assoc], fun y hy => ?_⟩, fun i => (k.seqs i).trans (h.seqs i), k.terms.trans h.terms⟩
  exact (List.mem_append.1 hy).elim (hltiles y) (hmtiles y)

/-- A tile that launches joins the matrix queue of its section, and no other queue. -/
theorem onCore_launched_joins (core i sect n : Nat) (c : Cmd) (hc : c.op.isTile = true) (r : EngRef) :
    TilesJoin r s { s.onCore core (launched i sect c) with serial := n } := by
  have hother : ∀ j, j ≠ core → ({ s.onCore core (launched i sect c) with serial := n } : State).coreAt j = s.coreAt j :=
    fun j hj => State.coreAt_onCore_other s core j _ hj
  have hself : ({ s.onCore core (launched i sect c) with serial := n } : State).coreAt core = launched i sect c (s.coreAt core) :=
    coreAt_onCore_of_id (coreAt_id s core)
  refine ⟨?_, fun j => ?_, rfl⟩
  · by_cases hr : r.core = core ∧ r.eng = .matrix sect
    · refine ⟨[c], ?_, by simpa using hc⟩
      simp only [State.queueOf, hr.1, hr.2, hself, launched_mq]
    · refine ⟨[], ?_, List.forall_mem_nil _⟩
      rw [List.append_nil]
      by_cases hcore : r.core = core
      · have hsect : r.eng ≠ .matrix sect := fun h => hr ⟨hcore, h⟩
        have hstack : ∀ k, ((launched i sect c (s.coreAt core)).sectAt k).sq = ((s.coreAt core).sectAt k).sq :=
          sectAt_onSect_keeps Machine.Section.sq (s.coreAt core) sect fun _ => rfl
        cases he : r.eng with
        | matrix k =>
          have hk : k ≠ sect := fun h => hsect (by rw [he, h])
          simp only [State.queueOf, he, hcore, hself]
          exact congrArg Machine.Section.mq (getD_modifyAt_other _ _ hk _)
        | stack k => simpa only [State.queueOf, he, hcore, hself] using hstack k
        | fabric | grinder =>
          simp only [State.queueOf, he]
          rfl
        | _ =>
          simp only [State.queueOf, he, hcore, hself]
          rfl
      · cases he : r.eng with
        | fabric | grinder =>
          simp only [State.queueOf, he]
          rfl
        | _ => simp only [State.queueOf, he, hother _ hcore]
  · by_cases hj : j = core
    · rw [hj, hself]
      rfl
    · rw [hother j hj]

theorem launchTile_joins (core i : Nat) (r : EngRef) : TilesJoin r s (s.launchTile core i) := by
  unfold State.launchTile
  simp only
  split
  · exact .refl r
  · split
    · exact onCore_launched_joins core i _ _ _ rfl r
    · exact .refl r

theorem launchDue_joins (core sect n : Nat) (r : EngRef) : TilesJoin r s (s.launchDue core sect n) := by
  induction n generalizing s with
  | zero => exact .refl r
  | succ n ih =>
    unfold State.launchDue
    simp only
    split
    · exact .refl r
    · exact (launchTile_joins core _ r).trans ih

/-- Where no tile is due none launches. -/
theorem launchDue_none {core : Nat} (h : ∀ k ∈ (s.coreAt core).tiles, k.due (s.coreAt core).cycle = false) (sect n : Nat) :
    s.launchDue core sect n = s := by
  cases n with
  | zero => rfl
  | succ n =>
    have hnone : ((s.coreAt core).tiles.findIdx? fun t => t.sect == sect && t.due (s.coreAt core).cycle) = none :=
      List.findIdx?_eq_none_iff.2 fun k hk => by rw [h k hk, Bool.and_false]
    simp only [State.launchDue, hnone]

/-- The state in which a command of queue `e` enters: the due tiles of a matrix queue have launched. -/
def tilesFirst (s : State) (core : Nat) (e : Eng) : State :=
  match e with
  | .matrix j => s.launchDue core j (s.coreAt core).tiles.length
  | _ => s

theorem tilesFirst_joins (core : Nat) (e : Eng) (r : EngRef) : TilesJoin r s (tilesFirst s core e) := by
  cases e with
  | matrix j => exact launchDue_joins ..
  | _ => exact .refl r

theorem tilesFirst_none {core : Nat} (h : ∀ k ∈ (s.coreAt core).tiles, k.due (s.coreAt core).cycle = false) (e : Eng) :
    tilesFirst s core e = s := by
  cases e with
  | matrix j => exact launchDue_none h ..
  | _ => rfl

end Tiles

/-! ### The command itself -/

theorem onQueue_terms (s : State) (r : EngRef) (f : List Cmd → List Cmd) : (s.onQueue r f).terms = s.terms := by
  cases hr : r.eng <;> simp only [State.onQueue, hr] <;> rfl

/-- The command as which a draft enters its queue. -/
def draftCmd (s : State) (core : Nat) (x : CmdCtx) (words : List W32) (d : Draft) : Cmd :=
  { id := s.serial + 1, op := d.op, ctx := x, words, cap := d.cap,
    owners := d.fills.filterMap fun tid => (s.view? core tid).map fun v => (tid, v.th.serial), seq := s.seqOf d.ref, lines := d.lines,
    done := [], count := 0, held := false, refused := false, stop := false, past := false }

/-- Behind the tiles that launch first, a command enters its queue last, and what follows its entry changes no queue. -/
theorem accept_queueOf {s : State} (ht : s.terms = []) (core : Nat) (o : R2) (x : CmdCtx) (words : List W32) (d : Draft) :
    (s.accept core o x words d).queueOf d.ref =
      (tilesFirst s core d.ref.eng).queueOf d.ref ++ [draftCmd (tilesFirst s core d.ref.eng) core x words d] := by
  have hfirst : (tilesFirst s core d.ref.eng).terms = [] := (tilesFirst_joins core d.ref.eng d.ref).terms.trans ht
  show State.queueOf (State.accept _ _ _ _ _ _) _ = _
  unfold State.accept
  extract_lets s1 id seq owners cmd s2 s3 s4 s5 s6 s7
  change s1.terms = [] at hfirst
  have h2 : QueuesKept s1 s2 := by
    unfold s2
    split
    · exact .refl
    · exact loadRecord_queues hfirst ..
  have h3 : QueuesKept s1 s3 := h2.trans (onTids_queues ..)
  have hjoin : s4.queueOf d.ref = s1.queueOf d.ref ++ [cmd] := by
    have hbump : QueuesKept ({ s3 with serial := id }.onQueue d.ref fun q => q ++ [cmd]) s4 := bumpSeq_queues d.ref
    have hserial : QueuesKept s3 { s3 with serial := id } := .of_eq rfl rfl rfl rfl
    rw [hbump.queueOf, queueOf_onQueue, (h3.trans hserial).queueOf]
  have hterms : s4.terms = [] := (onQueue_terms ..).trans (h3.terms.trans hfirst)
  have h5 : QueuesKept s4 s5 := .onCore _ fun _ => .of_eq rfl rfl
  have h6 : QueuesKept s5 s6 := by
    unfold s6
    split
    · exact .ite .refl (.of_eq rfl rfl rfl rfl)
    · exact .refl
  have h7 : QueuesKept s6 s7 := .foldl _ fun _ _ => .onCore _ fun _ => .of_eq rfl rfl
  have hafter : QueuesKept s4 s7 := (h5.trans h6).trans h7
  exact ((trace_queues (hafter.terms.trans hterms) ..).queueOf d.ref).trans ((hafter.queueOf d.ref).trans hjoin)

/-- Settles O43: the tiles by `tilesFirst_joins`, and the command behind them by `accept_queueOf`. -/
theorem issuedCommandStandsInItsQueue : Obligations.IssuedCommandStandsInItsQueue := by
  intro s core o x words d _ ht
  have hjoins := tilesFirst_joins (s := s) core d.ref.eng d.ref
  obtain ⟨l, hl, htiles⟩ := hjoins.queue
  refine ⟨l, draftCmd (tilesFirst s core d.ref.eng) core x words d, by rw [accept_queueOf ht, hl], htiles, fun hnone => ?_, rfl, rfl, rfl,
    seqOf_congr hjoins.seqs d.ref, rfl, rfl, rfl⟩
  rw [tilesFirst_none hnone] at hl
  exact List.self_eq_append_right.1 hl

end Sys2Proof.Proofs
end

section
/-! PROOFS. The fabric's links and the accesses of other devices (R390, R396 to R399, R402). -/

namespace Sys2Proof.Proofs
open Sys2Proof Sys2Proof.Machine

/-! ### Ports by number -/

section Ports
variable (s : State)

@[simp] theorem portAt_onPort (i : Nat) (f : Port → Port) : (s.onPort i f).portAt i = { f (s.portAt i) with id := i } := by
  have h := find_putBy_same Port.id { f (s.portAt i) with id := i } s.ports
  simp only [State.portAt, State.onPort] at *
  rw [h]
  rfl

theorem portAt_onPort_other (i j : Nat) (f : Port → Port) (h : j ≠ i) : (s.onPort i f).portAt j = s.portAt j := by
  have h' := find_putBy_other Port.id { f (s.portAt i) with id := i } s.ports j h
  simp only [State.portAt, State.onPort] at *
  rw [h']

@[simp] theorem portAt_id (i : Nat) : (s.portAt i).id = i := by
  rw [State.portAt]
  cases h : s.ports.find? fun p => p.id == i with
  | none => rfl
  | some p => simpa using List.find?_some h

/-- A port that keeps its number stands as its update says. -/
theorem portAt_onPort_of_id {i : Nat} {f : Port → Port} (h : (f (s.portAt i)).id = i) : (s.onPort i f).portAt i = f (s.portAt i) := by
  have hsame (p : Port) (hp : p.id = i) : { p with id := i } = p := by
    subst hp
    rfl
  exact (portAt_onPort ..).trans (hsame _ h)

end Ports

/-! ### Bytes of a number -/

/-- The low n bytes of a number make its remainder. -/
theorem leNat_bytesOf (n v : Nat) : leNat (bytesOf n v) = v % 2 ^ (8 * n) := by
  induction n generalizing v with
  | zero => simp [bytesOf, leNat, Nat.mod_one]
  | succ n ih =>
    have htail : (List.range n).map (fun i => (BitVec.ofNat 8 (v >>> (8 * (i + 1))) : Byte)) = bytesOf n (v / 256) :=
      List.map_congr_left fun i _ => by rw [Nat.mul_succ, Nat.add_comm, Nat.shiftRight_add, Nat.shiftRight_eq_div_pow v 8]
    have hcons : bytesOf (n + 1) v = BitVec.ofNat 8 v :: bytesOf n (v / 256) := by
      rw [← htail, bytesOf, List.range_succ_eq_map, List.map_cons, List.map_map]
      rfl
    rw [hcons, leNat, ih, BitVec.toNat_ofNat, show 8 * (n + 1) = 8 + 8 * n by omega, Nat.pow_add, Nat.mod_mul]

/-- A place that holds the bytes of a number reads as its remainder. -/
theorem rd_of_bytes {t : State} {l : Loc} {n v : Nat} (h : ∀ i < n, t.rdByte (l.plus i) = byteAt v i) : t.rd l n = v % 2 ^ (8 * n) := by
  rw [← leNat_bytesOf]
  exact congrArg leNat (List.map_congr_left fun i hi => h i (List.mem_range.1 hi))

/-! ### A flit that arrives (R398) -/

section Flits
variable {p : Port} {f : Flit}

theorem finding_good (hc : f.crcOk = true) (hs : f.seq = p.rx) : p.finding f = .good := by
  simp [Port.finding, hc, hs]

theorem finding_duplicate (hc : f.crcOk = true) (hd : (f.seq - p.rx).getLsbD 23 = true) : p.finding f = .duplicate := by
  have hs : f.seq ≠ p.rx := fun h => by simp [h] at hd
  simp [Port.finding, hc, hs, hd]

theorem finding_bad (h : f.crcOk = false ∨ (f.seq ≠ p.rx ∧ (f.seq - p.rx).getLsbD 23 = false)) : p.finding f = .bad := by
  rcases h with hc | ⟨hs, hd⟩
  · simp [Port.finding, hc]
  · simp only [Port.finding, if_neg hs, hd, Bool.false_eq_true, if_false, ite_self]

/-- What every flit delivered does to its port. -/
theorem deliver_port (p : Port) (f : Flit) : (p.deliver f).rx = p.rx + 1#24 ∧ (p.deliver f).got = p.got + 1 ∧ (p.deliver f).out = p.out ∧
    (p.deliver f).id = p.id ∧ (p.deliver f).held = p.held.filter fun x => x.seq != f.seq := by
  unfold Port.deliver
  simp only
  split
  · exact ⟨rfl, rfl, rfl, rfl, rfl⟩
  · exact ⟨rfl, rfl, rfl, rfl, rfl⟩
  · split <;> exact ⟨rfl, rfl, rfl, rfl, rfl⟩
  · exact ⟨rfl, rfl, rfl, rfl, rfl⟩

theorem deliver_acknowledgement (h : f.kind = 2) : (p.deliver f).replay =
    p.replay.filter fun x => decide (x.seq ≠ flitNames f ∧ (x.seq - flitNames f).getLsbD 23 = false) := by
  simp only [Port.deliver, h]
  exact List.filter_congr fun x _ => by simp only [bne, beq_eq_decide, Bool.decide_and, Bool.decide_eq_false, ne_eq, decide_not]

theorem deliver_negative (h : f.kind = 3) : flitNames f ∈ (p.deliver f).resend := by
  simp only [Port.deliver, h]
  split
  next hc => exact List.contains_iff_mem.1 hc
  · exact List.mem_append_right _ List.mem_cons_self

theorem deliver_reservation (h : f.kind = 4) : f.res ∈ (p.deliver f).resv := by
  simp only [Port.deliver, h]
  split
  next hc => exact List.contains_iff_mem.1 hc
  · exact List.mem_append_right _ List.mem_cons_self

/-- Where the next flit has not come, none that was held follows. -/
theorem deliverHeld_none {q : Port} (h : ∀ x ∈ q.held, x.seq ≠ q.rx) (n : Nat) : Port.deliverHeld n q = q := by
  cases n with
  | zero => rfl
  | succ n =>
    have hnone : (q.held.find? fun x => x.seq == q.rx) = none := List.find?_eq_none.2 fun x hx => by simpa using h x hx
    simp only [Port.deliverHeld, hnone]

theorem deliverHeld_deliver (h : ∀ x ∈ p.held, x.seq ≠ p.rx + 1#24) (n : Nat) : Port.deliverHeld n (p.deliver f) = p.deliver f := by
  obtain ⟨hrx, -, -, -, hheld⟩ := deliver_port p f
  refine deliverHeld_none (fun x hx => ?_) n
  rw [hheld] at hx
  rw [hrx]
  exact h x (List.mem_of_mem_filter hx)

/-- A flit that is no acknowledgement of either sort is answered. -/
theorem answers_of_kind (h2 : f.kind ≠ 2) (h3 : f.kind ≠ 3) (q : Port) : p.answers q f = true := by
  simp [Port.answers, h2, h3]

end Flits

/-! ### The answer to a flit (R398) -/

/-- A port tells its peer of a SEQ, in a flit of a kind. -/
def tellPeer (s : State) (n : Nat) (peer : Option Nat) (kind : Nat) (q : BitVec 24) : State :=
  match peer with
  | none => s
  | some d => s.onPort n fun x => { x with out := x.out ++ [s.flitTo n d kind 0#64 (bytesOf 3 q.toNat)] }

/-- The SEQ of an acknowledgement stands where its receiver looks for it (log entry 78). -/
theorem flitNames_flitTo (s : State) (n d kind : Nat) (res : W64) (q : BitVec 24) :
    flitNames (s.flitTo n d kind res (bytesOf 3 q.toNat)) = q := by
  have hlen : (bytesOf 3 q.toNat).length = 3 := by simp [bytesOf]
  have htake : ((bytesOf 3 q.toNat).take 232 ++ (List.range (232 - (bytesOf 3 q.toNat).length)).map fun i =>
      Config.freeByte [29, s.free, n, i]).take 3 = bytesOf 3 q.toNat := by
    rw [List.take_of_length_le (i := 232) (by omega)]
    exact List.take_left' hlen
  rw [flitNames, State.flitTo, htake, leNat_bytesOf, Nat.mod_eq_of_lt q.isLt, BitVec.ofNat_toNat, BitVec.setWidth_eq]

theorem portAt_tellPeer (s : State) (n : Nat) (peer : Option Nat) (kind : Nat) (q : BitVec 24) :
    ∃ l, (tellPeer s n peer kind q).portAt n = { s.portAt n with out := (s.portAt n).out ++ l } ∧
      ∀ d, peer = some d → ∃ x, l = [x] ∧ x.kind = kind ∧ flitNames x = q ∧ x.dst = d := by
  cases peer with
  | none => exact ⟨[], by rw [List.append_nil]; rfl, nofun⟩
  | some d =>
    refine ⟨[s.flitTo n d kind 0#64 (bytesOf 3 q.toNat)], portAt_onPort_of_id s (portAt_id s n), ?_⟩
    rintro e ⟨⟩
    exact ⟨_, rfl, rfl, flitNames_flitTo .., rfl⟩

section Arrival
variable {s : State} {n : Nat} {f : Flit} (hup : (s.portAt n).up = true)
include hup

theorem flitIn_good (h : (s.portAt n).finding f = .good) : s.flitIn n f =
    let q := Port.deliverHeld (s.portAt n).held.length ((s.portAt n).deliver f)
    if (s.portAt n).answers q f then tellPeer (s.onPort n fun _ => q) n (s.portAt n).peer 2 (q.rx - 1#24) else s.onPort n fun _ => q := by
  simp only [State.flitIn, hup, h, Bool.not_true, Bool.false_eq_true, if_false]
  rfl

theorem flitIn_duplicate (h : (s.portAt n).finding f = .duplicate) : s.flitIn n f = s := by
  simp only [State.flitIn, hup, h, Bool.not_true, Bool.false_eq_true, if_false]

theorem flitIn_bad (h : (s.portAt n).finding f = .bad) : ∃ t, s.flitIn n f = tellPeer t n (s.portAt n).peer 3 (s.portAt n).rx ∧
    (t.portAt n).rx = (s.portAt n).rx ∧ (t.portAt n).got = (s.portAt n).got ∧ (t.portAt n).nak = some (s.portAt n).rx ∧
    (t.portAt n).out = (s.portAt n).out := by
  simp only [State.flitIn, hup, h, Bool.not_true, Bool.false_eq_true, if_false]
  refine ⟨_, rfl, ?_⟩
  rw [portAt_onPort]
  exact ⟨rfl, rfl, rfl, rfl⟩

/-- A good flit in its turn, behind which none is held, is delivered, and answered as its kind says. -/
theorem flitIn_delivers (hc : f.crcOk = true) (hs : f.seq = (s.portAt n).rx) (hheld : ∀ x ∈ (s.portAt n).held, x.seq ≠ (s.portAt n).rx + 1#24) :
    ∃ l, (s.flitIn n f).portAt n = { (s.portAt n).deliver f with out := (s.portAt n).out ++ l } ∧
      (f.kind ≠ 2 → f.kind ≠ 3 → ∀ d, (s.portAt n).peer = some d → ∃ x, l = [x] ∧ x.kind = 2 ∧ flitNames x = f.seq ∧ x.dst = d) := by
  obtain ⟨hrx, -, hout, hid, -⟩ := deliver_port (s.portAt n) f
  have hport : (s.onPort n fun _ => (s.portAt n).deliver f).portAt n = (s.portAt n).deliver f :=
    portAt_onPort_of_id s (hid.trans (portAt_id s n))
  have hin := flitIn_good hup (finding_good hc hs)
  simp only [deliverHeld_deliver hheld, hrx, BitVec.add_sub_cancel, ← hs] at hin
  rw [hin]
  split
  · obtain ⟨l, hl, hpeer⟩ := portAt_tellPeer (s.onPort n fun _ => (s.portAt n).deliver f) n (s.portAt n).peer 2 f.seq
    rw [hport, hout] at hl
    exact ⟨l, hl, fun _ _ => hpeer⟩
  next hno =>
    refine ⟨[], by rw [hport, ← hout, List.append_nil], fun h2 h3 => absurd (answers_of_kind h2 h3 _) hno⟩

/-- A good flit in its turn: what its port holds afterwards. -/
theorem flitIn_good_port (hc : f.crcOk = true) (hs : f.seq = (s.portAt n).rx) (hheld : ∀ x ∈ (s.portAt n).held, x.seq ≠ (s.portAt n).rx + 1#24) :
    let p := s.portAt n
    let q := (s.flitIn n f).portAt n
    q.rx = p.rx + 1#24 ∧ q.got = p.got + 1 ∧
    (f.kind = 2 → q.replay = p.replay.filter fun x => decide (x.seq ≠ flitNames f ∧ (x.seq - flitNames f).getLsbD 23 = false)) ∧
    (f.kind = 3 → flitNames f ∈ q.resend) ∧ (f.kind = 4 → f.res ∈ q.resv) ∧
    (f.kind ≠ 2 → f.kind ≠ 3 → ∀ d, p.peer = some d → ∃ x, q.out = p.out ++ [x] ∧ x.kind = 2 ∧ flitNames x = f.seq ∧ x.dst = d) := by
  intro p q
  obtain ⟨l, hport, hanswer⟩ := flitIn_delivers hup hc hs hheld
  obtain ⟨hrx, hgot, -, -, -⟩ := deliver_port p f
  rw [show q = { p.deliver f with out := p.out ++ l } from hport]
  refine ⟨hrx, hgot, deliver_acknowledgement, deliver_negative, deliver_reservation, fun h2 h3 d hd => ?_⟩
  obtain ⟨x, rfl, hx⟩ := hanswer h2 h3 d hd
  exact ⟨x, rfl, hx⟩

/-- A flit that fails: what its port holds afterwards. -/
theorem flitIn_bad_port (h : (s.portAt n).finding f = .bad) :
    let p := s.portAt n
    let q := (s.flitIn n f).portAt n
    q.rx = p.rx ∧ q.got = p.got ∧ q.nak = some p.rx ∧
    ∀ d, p.peer = some d → ∃ x, q.out = p.out ++ [x] ∧ x.kind = 3 ∧ flitNames x = p.rx ∧ x.dst = d := by
  intro p q
  obtain ⟨t, ht, hrx, hgot, hnak, hout⟩ := flitIn_bad hup h
  obtain ⟨l, hport, hanswer⟩ := portAt_tellPeer t n p.peer 3 p.rx
  rw [show q = { t.portAt n with out := (t.portAt n).out ++ l } from (congrArg (·.portAt n) ht).trans hport]
  refine ⟨hrx, hgot, hnak, fun d hd => ?_⟩
  obtain ⟨x, rfl, hx⟩ := hanswer d hd
  exact ⟨x, congrArg (· ++ [x]) hout, hx⟩

end Arrival

/-! ### The slots of a port (R398) -/

section Slots
variable {p : Port} {q : BitVec 24} {l : List (BitVec 24)} {x : Flit} {claim : Bool}

/-- What is to be sent again comes first. -/
theorem nextFlit_again (hr : p.resend = q :: l) (hx : (p.replay.find? fun y => y.seq == q) = some x) (hc : claim = false ∨ x.kind ≠ 1) :
    p.nextFlit claim = some (x, true) := by
  have hfree : (claim && x.kind == 1 && decide (p.slotAt < p.dataAt)) = false := by
    rcases hc with hc | hc
    · rw [hc, Bool.false_and, Bool.false_and]
    · rw [beq_false_of_ne hc, Bool.and_false, Bool.false_and]
  simp only [Port.nextFlit, hr, List.filterMap_cons, hx, List.map_cons, List.cons_append, List.find?_cons, hfree, Bool.not_false]

theorem emit_again (p : Port) (x : Flit) : (p.emit (x, true)).wire = p.wire ++ [x] ∧ (p.emit (x, true)).again = p.again + 1 ∧
    x.seq ∉ (p.emit (x, true)).resend :=
  ⟨rfl, rfl, by simp [Port.emit]⟩

end Slots

/-! ### Failing parts (R398, R399) -/

section Fibres
variable {s : State} {n k : Nat}

theorem onFibre_get (p : Port) (i : Nat) (f : Fibre → Fibre) : (p.onFibre i f).fibres[i]? = p.fibres[i]?.map f := by
  simp [Port.onFibre, List.getElem?_map, List.getElem?_zipIdx, Option.map_map, Function.comp_def]

/-- An effect on one port that keeps its fibres keeps those of every port. -/
theorem onPort_fibres (s : State) (i m : Nat) {f : Port → Port} (hf : ∀ p, (f p).fibres = p.fibres) :
    ((s.onPort i f).portAt m).fibres = (s.portAt m).fibres := by
  by_cases h : m = i
  · subst h
    rw [portAt_onPort]
    exact hf _
  · rw [portAt_onPort_other _ _ _ _ h]

theorem resendSome_fibres (s : State) (n k m : Nat) : ((s.resendSome n k).portAt m).fibres = (s.portAt m).fibres := by
  unfold State.resendSome
  split
  · rfl
  · exact onPort_fibres s n m fun _ => rfl

theorem reroute_fibres (s : State) (n m : Nat) : ((s.reroute n).portAt m).fibres = (s.portAt m).fibres := by
  unfold State.reroute
  simp only
  split
  · rfl
  · split
    · rfl
    · rw [onPort_fibres, onPort_fibres]
      all_goals exact fun _ => rfl

/-- What a wavelength that is retired does to its fibre. -/
def retireWave (w : Nat) (x : Fibre) : Fibre :=
  if x.spares > 0 then { x with spares := x.spares - 1, retired := x.retired ++ [w] }
  else { x with active := x.active - 1, retired := x.retired ++ [w] }

/-- A port one of whose wavelengths is retired: the negative acknowledgements of its direction count anew. -/
def retiredPort (k w : Nat) (p : Port) : Port :=
  { p.onFibre k (retireWave w) with naks := if k < 8 then [] else p.naks, bads := if k < 8 then p.bads else [] }

theorem retired_fibre {w : Nat} {x : Fibre} (hx : (s.portAt n).fibres[k]? = some x) :
    ((((s.resendSome n k).onPort n (retiredPort k w)).reroute n).portAt n).fibres[k]? = some (retireWave w x) := by
  have hport : (((s.resendSome n k).onPort n (retiredPort k w)).portAt n).fibres =
      (((s.resendSome n k).portAt n).onFibre k (retireWave w)).fibres := by
    rw [portAt_onPort]
    rfl
  rw [reroute_fibres, hport, onFibre_get, resendSome_fibres, hx]
  rfl

section Retire
variable {w : Nat} {x : Fibre} (hx : (s.portAt n).fibres[k]? = some x) (hw : w < 34) (ha : 0 < x.active) (hr : w ∉ x.retired)
  (hf : s.waveFails n k w = true)
include hx hw ha hr hf

theorem wavelengthRetire_retires : exec (.wavelengthRetire n k w) s =
      .next (if x.spares > 0 then (((s.resendSome n k).onPort n (retiredPort k w)).reroute n).sumpSwitch n (256 * k + w)
        else ((s.resendSome n k).onPort n (retiredPort k w)).reroute n) := by
  have hgo : ¬(w ≥ 34 ∨ x.active = 0 ∨ x.retired.contains w = true ∨ s.waveFails n k w = false) := by
    simp [hr, hf]
    omega
  show execWavelengthRetire n k w s = _
  simp only [execWavelengthRetire, hx, if_neg hgo]
  rfl

theorem wavelengthRetire_spare (hs : 0 < x.spares) : ∃ t, exec (.wavelengthRetire n k w) s = .next t ∧
    (t.portAt n).fibres[k]? = some { x with spares := x.spares - 1, retired := x.retired ++ [w] } ∧
    (t.aon.sump.getLast?.map fun r => r.kind) = some 7 :=
  ⟨_, (wavelengthRetire_retires hx hw ha hr hf).trans (congrArg _ (if_pos hs)), (retired_fibre hx).trans (congrArg some (if_pos hs)),
    congrArg _ (sump_last ..)⟩

theorem wavelengthRetire_fewer (hs : x.spares = 0) : ∃ t, exec (.wavelengthRetire n k w) s = .next t ∧
    (t.portAt n).fibres[k]? = some { x with active := x.active - 1, retired := x.retired ++ [w] } :=
  have hno : ¬x.spares > 0 := by omega
  ⟨_, (wavelengthRetire_retires hx hw ha hr hf).trans (congrArg _ (if_neg hno)), (retired_fibre hx).trans (congrArg some (if_neg hno))⟩

end Retire

/-- A port whose spare fibre has taken over the traffic of a fibre. -/
def spareTaken (k : Nat) (p : Port) : Port := (p.onFibre k fun _ => { active := 32, spares := 2, onSpare := true }).takeSpare k

theorem fibreFailover_replaces {x : Fibre} (hx : (s.portAt n).fibres[k]? = some x) (hs : (s.portAt n).spareFor k = true) (ha : x.active < 32) :
    exec (.fibreFailover n k) s = .next (((s.resendSome n k).onPort n (spareTaken k)).sumpSwitch n (256 * k + 255)) := by
  show execFibreFailover n k s = _
  simp only [execFibreFailover, hx, hs, ha, decide_true, Bool.and_self, if_true]
  rfl

theorem spareTaken_spare (k : Nat) (p : Port) : (spareTaken k p).spareFor k = false := by
  by_cases h : k < 8 <;> simp [spareTaken, Port.takeSpare, Port.spareFor, h]

theorem spareTaken_fibres (k : Nat) (p : Port) :
    (spareTaken k p).fibres = (p.onFibre k fun _ => { active := 32, spares := 2, onSpare := true }).fibres := by
  unfold spareTaken Port.takeSpare
  split <;> rfl

theorem failover_port {x : Fibre} (hx : (s.portAt n).fibres[k]? = some x) :
    let t := ((s.resendSome n k).onPort n (spareTaken k)).sumpSwitch n (256 * k + 255)
    (t.portAt n).spareFor k = false ∧ (t.portAt n).fibres[k]? = some { active := 32, spares := 2, onSpare := true } := by
  intro t
  have hport : t.portAt n = { spareTaken k ((s.resendSome n k).portAt n) with id := n } := portAt_onPort ..
  rw [hport]
  refine ⟨spareTaken_spare k _, ?_⟩
  show (spareTaken k ((s.resendSome n k).portAt n)).fibres[k]? = _
  rw [spareTaken_fibres, onFibre_get, resendSome_fibres, hx]
  rfl

end Fibres

/-! ### Peers (R399) -/

section Peers
variable {s : State} {n rank : Nat}

theorem mem_putBy {α : Type} {key : α → Nat} {x y : α} {l : List α} (hl : (l.map key).Nodup) (h : y ∈ putBy key x l) :
    y = x ∨ (y ∈ l ∧ key y ≠ key x) := by
  induction l with
  | nil => exact .inl (List.mem_singleton.1 h)
  | cons z r ih =>
    obtain ⟨hz, hr⟩ := List.nodup_cons.1 hl
    by_cases hk : key z = key x
    · rw [putBy, if_pos hk] at h
      refine (List.mem_cons.1 h).imp_right fun hy => ⟨List.mem_cons_of_mem _ hy, fun he => hz ?_⟩
      exact hk.trans he.symm ▸ List.mem_map_of_mem hy
    · rw [putBy, if_neg hk] at h
      rcases List.mem_cons.1 h with rfl | hy
      · exact .inr ⟨List.mem_cons_self, hk⟩
      · exact (ih hr hy).imp_right fun ⟨hm, hne⟩ => ⟨List.mem_cons_of_mem _ hm, hne⟩

/-- Whether no port has a usable path to a device. -/
def noPath (s : State) (rank : Nat) : Prop := ∀ p ∈ s.ports, p.usable = true → p.peer ≠ some rank

theorem noPath.any_false (h : noPath s rank) : (s.ports.any fun p => p.usable && p.peer == some rank) = false :=
  List.any_eq_false.2 fun p hp => by simpa using h p hp

theorem noPath.portTo (h : noPath s rank) (die : Nat) : s.portTo die rank = none := by
  have hnil : (s.ports.filter fun p => p.usable && p.peer == some rank) = [] :=
    List.filter_eq_nil_iff.2 fun p hp => by simpa using h p hp
  rw [State.portTo, hnil]
  rfl

/-- A port to a device whose link is down. -/
def linkDown (rank : Nat) (p : Port) : Port := if p.peer = some rank then { p with up := false } else p

section Down
variable (hpeer : (s.portAt n).peer = some rank)
include hpeer

theorem portAt_linkDown : (s.onPort n (linkDown rank)).portAt n = { s.portAt n with up := false } := by
  have hdown : linkDown rank (s.portAt n) = { s.portAt n with up := false } := if_pos hpeer
  rw [portAt_onPort_of_id _ (by rw [hdown]; exact portAt_id s n), hdown]

theorem noPath_linkDown (hothers : ∀ p ∈ s.ports, p.id ≠ n → p.usable = true → p.peer ≠ some rank) (hids : (s.ports.map fun p => p.id).Nodup) :
    noPath (s.onPort n (linkDown rank)) rank := by
  intro p hp hu
  rcases mem_putBy hids hp with rfl | ⟨hmem, hid⟩
  · have hdown : linkDown rank (s.portAt n) = { s.portAt n with up := false } := if_pos hpeer
    simp [Port.usable, hdown] at hu
  · exact hothers p hmem hid hu

/-- What a port without a path still has to send waits where no other port has one. -/
theorem reroute_waits (h : noPath s rank) : s.reroute n = s := by
  simp only [State.reroute, hpeer, Option.bind_some, h.portTo, ite_self]

end Down

theorem peerUnreachable_exec (hpeer : (s.portAt n).peer = some rank)
    (hothers : ∀ p ∈ s.ports, p.id ≠ n → p.usable = true → p.peer ≠ some rank) (hids : (s.ports.map fun p => p.id).Nodup) :
    ∃ l, rank ∈ l ∧ exec (.peerUnreachable n rank) s = .next { s.onPort n (linkDown rank) with unreach := l } := by
  have hno := noPath_linkDown hpeer hothers hids
  have hpeer' : ((s.onPort n (linkDown rank)).portAt n).peer = some rank := by
    rw [portAt_linkDown hpeer]
    exact hpeer
  have hexec : exec (.peerUnreachable n rank) s =
      let t := (s.onPort n (linkDown rank)).reroute n
      .next (if (t.ports.any fun p => p.usable && p.peer == some rank) || t.unreach.contains rank then t
        else { t with unreach := t.unreach ++ [rank] }) := rfl
  rw [hexec, reroute_waits hpeer' hno]
  simp only [hno.any_false, Bool.false_or]
  split
  next hc => exact ⟨s.unreach, List.contains_iff_mem.1 hc, rfl⟩
  · exact ⟨s.unreach ++ [rank], List.mem_append_right _ List.mem_cons_self, rfl⟩

/-- A device behind a link that goes down is unreachable where no other port reaches it. -/
theorem peerUnreachable_cutsOff (hpeer : (s.portAt n).peer = some rank)
    (hothers : ∀ p ∈ s.ports, p.id ≠ n → p.usable = true → p.peer ≠ some rank) (hids : (s.ports.map fun p => p.id).Nodup) :
    ∃ t, exec (.peerUnreachable n rank) s = .next t ∧ rank ∈ t.unreach ∧ (t.portAt n).up = false ∧ t.cutOff rank = true := by
  obtain ⟨l, hmem, hexec⟩ := peerUnreachable_exec hpeer hothers hids
  exact ⟨_, hexec, hmem, congrArg Port.up (portAt_linkDown hpeer), Bool.or_eq_true_iff.2 (.inl (List.contains_iff_mem.2 hmem))⟩

/-- A link that has come up to a device, with both sequences at their start. -/
def linkUp (rank now : Nat) (p : Port) : Port :=
  { p with peer := some rank, up := true, tx := 0#24, rx := 0#24, replay := [], nak := none, resv := [], resend := [],
           out := if p.peer = some rank then p.pending.filter Flit.carries else [], held := [], slotAt := now, dataAt := now, naks := [],
           bads := [] }

theorem linksComeUp_starts (s : State) (n rank : Nat) : ∃ t, exec (.linksComeUp n rank) s = .next t ∧ rank ∉ t.unreach ∧
    (t.portAt n).up = true ∧ (t.portAt n).peer = some rank ∧ (t.portAt n).tx = 0#24 ∧ (t.portAt n).rx = 0#24 := by
  have hexec : exec (.linksComeUp n rank) s =
      .next { s.onPort n (linkUp rank s.now) with unreach := s.unreach.filter (· != rank) } := rfl
  have hport : ({ s.onPort n (linkUp rank s.now) with unreach := s.unreach.filter (· != rank) } : State).portAt n =
      { linkUp rank s.now (s.portAt n) with id := n } := portAt_onPort ..
  refine ⟨_, hexec, by simp, ?_⟩
  rw [hport]
  exact ⟨rfl, rfl, rfl, rfl⟩

end Peers

/-! ### Accesses of other devices (R390, R396, R402) -/

section Remote
variable {s : State}

theorem transmit_frame (s : State) (die rank kind : Nat) (res : W64) (l : List (List Byte)) :
    (s.transmit die rank kind res l).mem = s.mem ∧ (s.transmit die rank kind res l).cores = s.cores := by
  unfold State.transmit
  split <;> exact ⟨rfl, rfl⟩

/-- What a port sends does not depend on the timestamps of a line. -/
theorem transmit_stampFar_ports (s : State) (dev : Nat) (m : Loc) (store : Bool) (die rank kind : Nat) (res : W64) (l : List (List Byte)) :
    ((s.stampFar dev m store).transmit die rank kind res l).ports = (s.transmit die rank kind res l).ports := by
  have hport : (s.stampFar dev m store).portTo die rank = s.portTo die rank := rfl
  simp only [State.transmit, hport]
  split <;> rfl

/-- A store to a place after which no page table follows writes its bytes and no others. -/
theorem plain_wrote {l : Loc} (hl : Writable s l) (n v : Nat) : Wrote s ((s.clearFutures l n).wr l n v) l n v :=
  have hclear := clearFutures_still s l n
  .before hclear (wr_wrote (hclear.writable hl) n v)

variable {a : RemoteAccess}

theorem remoteAccess_refused (h : s.remotePlace a = none) :
    exec (.remoteDomainAccess a) s = .next (s.transmit 0 a.rank 5 0#64 [bytesOf 8 a.addr.toNat]) := by
  show execRemoteDomainAccess a s = _
  simp only [execRemoteDomainAccess, h]

variable {l : Loc} (hl : s.remotePlace a = some l)
include hl

theorem remoteAccess_waits (hr : s.underRepair l = true) :
    exec (.remoteDomainAccess a) s = .next { s with sched := s.sched ++ [(s.control + 1, .remoteDomainAccess a)] } := by
  show execRemoteDomainAccess a s = _
  simp only [execRemoteDomainAccess, hl, hr, if_true]
  rfl

section Performed
variable (hr : s.underRepair l = false) (ht : s.terms = [])
include hr ht

theorem remoteAccess_load {n : Nat} (hop : a.op = .load n) : ∃ t, exec (.remoteDomainAccess a) s = .next t ∧ t.mem = s.mem ∧
    t.cores = s.cores ∧
    t.ports = (s.transmit l.die a.rank 1 0#64 [bytesOf 8 a.addr.toNat ++ bytesOf n (s.rd l n)]).ports := by
  have hexec : exec (.remoteDomainAccess a) s =
      .next ((s.stampFar a.rank l false).transmit l.die a.rank 1 0#64 [bytesOf 8 a.addr.toNat ++ bytesOf n (s.rd l n)]) := by
    show execRemoteDomainAccess a s = _
    simp only [execRemoteDomainAccess, hl, hr, Bool.false_eq_true, if_false, settle_nil ht, hop, remoteSize]
  obtain ⟨hmem, hcores⟩ := transmit_frame (s.stampFar a.rank l false) l.die a.rank 1 0#64 [bytesOf 8 a.addr.toNat ++ bytesOf n (s.rd l n)]
  exact ⟨_, hexec, hmem, hcores, transmit_stampFar_ports ..⟩

variable {x : Nat} (hx : l = .mem x) (hwf : Memory.wf s.mem)
include hx hwf

/-- A store of another device, or an addition, to flat memory that is no table: which bytes it writes. -/
theorem remoteAccess_writes {n v : Nat} (hop : (∃ w, a.op = .store n w ∧ v = w.toNat) ∨
      ∃ w, a.op = .add w ∧ n = 8 ∧ v = (s.rd l 8 + w.toNat) % 2 ^ 64) (hplain : s.plainStore x n v) :
    ∃ t, exec (.remoteDomainAccess a) s = .next t ∧ (∀ i < n, memGet t.mem (x + i) = byteAt v i) ∧
      ∀ b, b < x ∨ x + n ≤ b → memGet t.mem b = memGet s.mem b := by
  have hat : (s.clearFutures l n).wrTables l n v = (s.clearFutures l n).wr l n v := plainAt_mem hx hplain
  have hexec : exec (.remoteDomainAccess a) s = .next ((((s.clearFutures l n).wrTables l n v).stampFar a.rank l true).transmit l.die a.rank 5
      0#64 [bytesOf 8 a.addr.toNat]) := by
    show execRemoteDomainAccess a s = _
    rcases hop with ⟨w, hop, rfl⟩ | ⟨w, hop, rfl, rfl⟩
    all_goals simp only [execRemoteDomainAccess, hl, hr, Bool.false_eq_true, if_false, settle_nil ht, hop, remoteSize]
  have hw : Writable s l := by
    rw [hx]
    exact hwf
  refine ⟨_, hexec, ?_⟩
  rw [(transmit_frame ..).1, hat]
  have hbytes := mem_of_wrote hx (plain_wrote hw n v)
  exact hbytes

theorem remoteAccess_add {v : W64} (hop : a.op = .add v) (hplain : s.plainStore x 8 ((s.rd (.mem x) 8 + v.toNat) % 2 ^ 64)) :
    ∃ t, exec (.remoteDomainAccess a) s = .next t ∧ t.rd (.mem x) 8 = (s.rd (.mem x) 8 + v.toNat) % 2 ^ 64 := by
  obtain ⟨t, hexec, hbytes, -⟩ := remoteAccess_writes hl hr ht hx hwf (.inr ⟨v, hop, rfl, by rw [hx]⟩) hplain
  exact ⟨t, hexec, (rd_of_bytes (l := .mem x) hbytes).trans (Nat.mod_eq_of_lt (Nat.mod_lt _ (by decide)))⟩

end Performed

end Remote

/-! ### The statement -/

/-- What a link does with a flit (R398). -/
theorem flit_received {s : State} {n k : Nat} {f : Flit} {i : Instr}
    (hi : (k, i) ∈ [(1, Instr.flitData n f), (2, .flitAcknowledgement n f), (3, .flitNegativeAcknowledgement n f), (4, .flitReservation n f),
      (5, .flitControl n f)]) (hk : f.kind = k) : exec i s = .next (s.flitIn n f) := by
  simp only [List.mem_cons, List.not_mem_nil, or_false, Prod.mk.injEq] at hi
  rcases hi with ⟨rfl, rfl⟩ | ⟨rfl, rfl⟩ | ⟨rfl, rfl⟩ | ⟨rfl, rfl⟩ | ⟨rfl, rfl⟩
  all_goals exact congrArg Host.Outcome.next (if_pos hk)

/-- Settles O53: flits by what their link finds of them, parts and peers by their ports, and accesses by what a store to memory writes. -/
theorem linksAndRemoteAccesses : Obligations.LinksAndRemoteAccesses := by
  refine ⟨fun s n f hup k i hi hk => ⟨_, flit_received hi hk, hk ▸ flitIn_good_port hup,
      fun hc hd => flitIn_duplicate hup (finding_duplicate hc hd), fun hbad => flitIn_bad_port hup (finding_bad hbad)⟩,
    fun p q l x claim hr hx hc => ⟨nextFlit_again hr hx hc, emit_again p x⟩,
    fun s n k w x hx hw ha hr hf => ⟨wavelengthRetire_spare hx hw ha hr hf, wavelengthRetire_fewer hx hw ha hr hf⟩,
    fun s n k x hx hs ha => ⟨_, fibreFailover_replaces hx hs ha, failover_port hx⟩,
    fun s n rank hpeer hothers hids => peerUnreachable_cutsOff hpeer hothers hids, linksComeUp_starts,
    fun s a => ⟨remoteAccess_refused, fun l hl => ?_⟩⟩
  split
  next hr => exact remoteAccess_waits hl hr
  next hr =>
    have hr' : s.underRepair l = false := Bool.eq_false_iff.2 hr
    exact fun ht => ⟨fun n hop => remoteAccess_load hl hr' ht hop,
      fun v x hop hx hwf hplain => remoteAccess_add hl hr' ht hx hwf hop hplain,
      fun n v x hop hx hwf hplain => remoteAccess_writes hl hr' ht hx hwf (.inl ⟨v, hop, rfl⟩) hplain⟩

end Sys2Proof.Proofs
end

section
/-! PROOFS. The host's commands: datagrams, and the acceptance of the sequenced ones (R404 to R407, R409, R411). -/

namespace Sys2Proof.Proofs
open Sys2Proof Sys2Proof.Machine

/-! ### Datagrams (R404) -/

section Datagrams
variable {s : State} {dg : Datagram}

/-- A datagram of its command, taken in with its right length, is handled. -/
theorem datagram_handles {op : Nat} (hi : dgIntake dg dg.op.toNat = .handle) (hl : dg.len.toNat = dg.payload.length) (ho : dg.op.toNat = op)
    (body : State → State) : s.datagram dg op body = body s := by
  subst ho
  simp only [State.datagram, ne_eq, not_true, if_false, hi, hl, if_true]

/-! ### Acceptance (R405 to R407, R409, R411) -/

section Sequenced
variable {len : Nat} {refuse : State → Option Nat} {take : State → State × W32 × Nat} (hn : dg.payload.length = len)
  (hq : dg.qid.toNat < 16) (ht : dg.ten.toNat < 8)
include hn hq ht

/-- The next command of a queue and a journal with room is accepted where its own checks pass. -/
theorem sequenced_accepts (hseq : dg.seq = ((s.tenAt dg.ten.toNat).zq dg.qid.toNat).next)
    (hroom : ((s.tenAt dg.ten.toNat).zq dg.qid.toNat).live.length < 256 ∧ (s.tenAt dg.ten.toNat).journalFull = false)
    (hr : refuse s = none) : s.sequenced dg len refuse take = (take s).1.accepted dg (take s).2.1 (take s).2.2 := by
  have hbad : ¬(dg.payload.length ≠ len ∨ dg.qid.toNat ≥ 16 ∨ dg.ten.toNat ≥ 8) := by omega
  have hahead : dg.seq - ((s.tenAt dg.ten.toNat).zq dg.qid.toNat).next = 0#32 := by rw [hseq, BitVec.sub_self]
  have hlive : ¬((s.tenAt dg.ten.toNat).zq dg.qid.toNat).live.length ≥ 256 := by omega
  simp only [State.sequenced, if_neg hbad, hahead, hlive, hroom.2, decide_false, Bool.or_self, Bool.false_eq_true, if_true, if_false, hr]

/-- A command ahead of NEXT is refused with code 3 and NEXT. -/
theorem sequenced_ahead (hseq : dg.seq ≠ ((s.tenAt dg.ten.toNat).zq dg.qid.toNat).next)
    (hahead : (dg.seq - ((s.tenAt dg.ten.toNat).zq dg.qid.toNat).next).getLsbD 31 = false) :
    s.sequenced dg len refuse take = s.answer dg 2 ((s.tenAt dg.ten.toNat).zq dg.qid.toNat).next 3#32 [] := by
  have hbad : ¬(dg.payload.length ≠ len ∨ dg.qid.toNat ≥ 16 ∨ dg.ten.toNat ≥ 8) := by omega
  have hne : ¬dg.seq - ((s.tenAt dg.ten.toNat).zq dg.qid.toNat).next = 0#32 := fun h => hseq (by simpa [BitVec.sub_eq_iff_eq_add] using h)
  simp only [State.sequenced, if_neg hbad, if_neg hne, hahead, Bool.not_false, if_true]
  rfl

end Sequenced

/-- The sequenced commands whose acceptance changes nothing else: each with its OP, the bytes of its payload, and whether its own checks
fail. -/
def plainCmds (s : State) (dg : Datagram) : List (Instr × Nat × Nat × Bool) :=
  [(.mapCmd dg, 2, 17, mapBad dg 16), (.unmapCmd dg, 3, 9, mapBad dg 8), (.signalCmd dg, 4, 16, decide (dgField dg 0 8 % 8 ≠ 0)),
    (.waitCmd dg, 5, 16, decide (dgField dg 0 8 % 8 ≠ 0)), (.resetTenancy dg, 8, 16, s.resetBad dg)]

theorem plainCmds_exec (s : State) (dg : Datagram) : ∀ c ∈ plainCmds s dg, ∃ refuse : State → Option Nat,
    exec c.1 s = .next (s.datagram dg c.2.1 fun s => s.sequenced dg c.2.2.1 refuse plainTake) ∧ (c.2.2.2 = false → refuse s = none) := by
  simp only [plainCmds, List.forall_mem_cons]
  exact ⟨⟨_, rfl, fun h => if_neg (Bool.eq_false_iff.1 h)⟩, ⟨_, rfl, fun h => if_neg (Bool.eq_false_iff.1 h)⟩,
    ⟨_, rfl, fun h => if_neg (of_decide_eq_false h)⟩, ⟨_, rfl, fun h => if_neg (of_decide_eq_false h)⟩,
    ⟨_, rfl, fun h => if_neg (Bool.eq_false_iff.1 h)⟩, List.forall_mem_nil _⟩

/-- Every sequenced command, LAUNCH and SERVICE_REPLY too, is one by its OP and its length. -/
theorem sequencedCmds_exec (s : State) (dg : Datagram) :
    ∀ c ∈ plainCmds s dg ++ [(.launchCmd dg, 1, 256, false), (.serviceReply dg, 10, 16, false)], ∃ refuse take,
      exec c.1 s = .next (s.datagram dg c.2.1 fun s => s.sequenced dg c.2.2.1 refuse take) := by
  simp only [List.forall_mem_append, List.forall_mem_cons]
  refine ⟨fun c hc => ?_, ⟨_, _, rfl⟩, ⟨_, _, rfl⟩, List.forall_mem_nil _⟩
  obtain ⟨refuse, hexec, -⟩ := plainCmds_exec s dg c hc
  exact ⟨refuse, plainTake, hexec⟩

end Datagrams

/-! ### Queues and journals of a tenancy (R406, R409) -/

section Tenancies
variable (t : Tenancy) (q : Nat)

theorem onZq_get (f : ZQueue → ZQueue) : (t.onZq q f).zqs[q]? = t.zqs[q]?.map f := by
  simp [Tenancy.onZq, List.getElem?_map, List.getElem?_zipIdx, Option.map_map, Function.comp_def]

theorem zq_onZq {q : Nat} (h : q < t.zqs.length) (f : ZQueue → ZQueue) : (t.onZq q f).zq q = f (t.zq q) := by
  rw [Tenancy.zq, Tenancy.zq, List.getD_eq_getElem?_getD, List.getD_eq_getElem?_getD, onZq_get, List.getElem?_eq_getElem h]
  rfl

/-- Of a queue that is changed, the commands are those of the changed queue, if it is one of the tenancy's. -/
theorem mem_zq_onZq {f : ZQueue → ZQueue} {x : ZCmd} (h : x ∈ ((t.onZq q f).zq q).live) : x ∈ (f (t.zq q)).live := by
  rw [Tenancy.zq, List.getD_eq_getElem?_getD, onZq_get] at h
  rw [Tenancy.zq, List.getD_eq_getElem?_getD]
  cases hq : t.zqs[q]? with
  | none =>
    rw [hq] at h
    cases h
  | some z =>
    rw [hq] at h
    exact h

theorem zq_mark (p : Nat) (seq : W32) (state : Nat) (result : Option W32) : (t.mark p seq state result).zq q = t.zq q := by
  unfold Tenancy.mark
  split
  · rfl
  · split <;> rfl

theorem log_last (e : JEntry) : (t.log e).journal.getLast? = some e := by simp [Tenancy.log]

end Tenancies

/-- The journal's entry of a command that is accepted, and the command as its queue holds it. -/
def entryOf (s : State) (dg : Datagram) (result : W32) : JEntry :=
  { seq := dg.seq, qid := dg.qid.toNat, op := dg.op.toNat, hash := dgHash dg, time := s.sumpTime, state := 1, result }
def queuedCmd (dg : Datagram) (task : Nat) : ZCmd :=
  { seq := dg.seq, op := dg.op.toNat, payload := dg.payload, started := false, task, code := none }

/-- A tenancy that has accepted a command. -/
def acceptedTen (dg : Datagram) (e : JEntry) (c : ZCmd) (t : Tenancy) : Tenancy :=
  (t.log e).onZq dg.qid.toNat fun z => { next := dg.seq + 1#32, live := z.live ++ [c] }

theorem zq_acceptedTen {dg : Datagram} {t : Tenancy} (hq : dg.qid.toNat < t.zqs.length) (e : JEntry) (c : ZCmd) :
    (acceptedTen dg e c t).zq dg.qid.toNat = { next := dg.seq + 1#32, live := (t.zq dg.qid.toNat).live ++ [c] } :=
  zq_onZq (t.log e) hq _

/-- What an acceptance leaves: NEXT, the queue, the ACK, the record and the journal's entry. -/
theorem accepted_effect (s : State) (dg : Datagram) (result : W32) (task : Nat) (hq : dg.qid.toNat < (s.tenAt dg.ten.toNat).zqs.length) :
    let t := s.accepted dg result task
    let z := (t.tenAt dg.ten.toNat).zq dg.qid.toNat
    z.next = dg.seq + 1#32 ∧ (z.live.getLast?.map fun c => c.seq) = some dg.seq ∧
    t.out = s.out ++
      [{ op := dg.op.toNat % 128 + 128, ten := dg.ten.toNat, kind := 1, qid := dg.qid.toNat, seq := dg.seq, code := result, payload := [] }] ∧
    (t.aon.sump.getLast?.map fun r => r.kind) = some 4 ∧
    ((t.tenAt dg.ten.toNat).journal.getLast?.map fun e => (e.seq, e.state)) = some (dg.seq, 1) := by
  intro t z
  have hten : t.tenAt dg.ten.toNat = { acceptedTen dg (entryOf s dg result) (queuedCmd dg task) (s.tenAt dg.ten.toNat) with id := dg.ten.toNat } :=
    State.tenAt_onTen s dg.ten.toNat (acceptedTen dg (entryOf s dg result) (queuedCmd dg task))
  have hz : z = { next := dg.seq + 1#32, live := ((s.tenAt dg.ten.toNat).zq dg.qid.toNat).live ++ [queuedCmd dg task] } :=
    (congrArg (Tenancy.zq · dg.qid.toNat) hten).trans (zq_acceptedTen hq (entryOf s dg result) (queuedCmd dg task))
  have hjournal : (t.tenAt dg.ten.toNat).journal.getLast? = some (entryOf s dg result) :=
    (congrArg (fun t => t.journal.getLast?) hten).trans (log_last (s.tenAt dg.ten.toNat) (entryOf s dg result))
  rw [hz, hjournal, List.getLast?_concat]
  exact ⟨rfl, rfl, rfl, congrArg _ (sump_last ..), rfl⟩

/-- Settles O54: each command is a sequenced one, and is accepted or refused as such. -/
theorem sequencedCommandsAreAccepted : Obligations.SequencedCommandsAreAccepted := by
  intro s dg hi hl hq ht ten q next b stage room cmds
  refine ⟨fun c hc ho hn hseq hroom hok => ?_, fun ho hn hseq hroom hr => ?_, fun ho hn hseq hroom hok => ?_,
    fun c hc ho hn hseq hahead => ?_, fun result task hz => accepted_effect s dg result task hz⟩
  · obtain ⟨refuse, hexec, hrefuse⟩ := plainCmds_exec s dg c hc
    rw [hexec, datagram_handles hi hl ho, sequenced_accepts hn hq ht hseq hroom (hrefuse hok)]
    rfl
  · have hexec : exec (.launchCmd dg) s = .next (s.datagram dg 1 fun s => s.sequenced dg 256
        (fun s => (s.tcbReason ten b (s.hostStage ten b)).map (0x100 + ·)) fun s =>
          ((s.acceptTask ten b (s.hostStage ten b) (some (q, dg.seq))).1,
            BitVec.ofNat 32 (s.acceptTask ten b (s.hostStage ten b) (some (q, dg.seq))).2,
            (s.acceptTask ten b (s.hostStage ten b) (some (q, dg.seq))).2)) := rfl
    rw [hexec, datagram_handles hi hl ho, sequenced_accepts hn hq ht hseq hroom (Option.map_eq_none_iff.2 hr)]
    rfl
  · have hexec : exec (.serviceReply dg) s = .next (s.datagram dg 10 fun s => s.sequenced dg 16
        (fun _ => if dgField dg 0 8 % 8 ≠ 0 then some 2 else none) fun s => plainTake (s.onTen ten fun t =>
          { t with service := t.service.filter fun x => x.reply.toNat != dgField dg 0 8 })) := rfl
    rw [hexec, datagram_handles hi hl ho, sequenced_accepts hn hq ht hseq hroom (if_neg (not_not.2 hok))]
    rfl
  · obtain ⟨refuse, take, hexec⟩ := sequencedCmds_exec s dg c hc
    rw [hexec, datagram_handles hi hl ho, sequenced_ahead hn hq ht hseq hahead]
    exact ⟨_, rfl, rfl, rfl⟩

end Sys2Proof.Proofs
end

section
/-! PROOFS. The host's commands: their start and their end, and the journal's mirror (R390, R405, R407, R409, R413); memory after reset (R417). -/

namespace Sys2Proof.Proofs
open Sys2Proof Sys2Proof.Machine

/-! ### Memory after reset (R417) -/

/-- Settles O4: the device after reset lists no byte. -/
theorem resetMemoryIsCanonical : Obligations.ResetMemoryIsCanonical := State.reset_mem_wf

/-! ### The start of a command (R390, R407, R413) -/

section Start
variable {s : State} {ten q : Nat} {c : ZCmd}

/-- A tenancy one of whose commands has started, with what is known of its CODE; `tag` is the number that an UNMAP keeps. -/
def startedTen (q : Nat) (c : ZCmd) (code : Option W32) (tag : Nat) (t : Tenancy) : Tenancy :=
  t.onZq q fun z => z.onCmd c.seq fun x => { x with started := true, code, task := if c.op = 3 then tag else x.task }

theorem startedTen_started {code : Option W32} {tag : Nat} {t : Tenancy} {x : ZCmd} (hx : x ∈ ((startedTen q c code tag t).zq q).live)
    (hs : x.seq = c.seq) : x.started = true := by
  obtain ⟨y, -, rfl⟩ := List.mem_map.1 (mem_zq_onZq t q hx)
  by_cases hy : y.seq = c.seq
  · rw [if_pos hy]
  · rw [if_neg hy] at hs
    exact absurd hs hy

/-- What starts the next command of a queue, of which no row under repair and no earlier reset keeps it: the command's own effect, and then
the note of it in its tenancy. -/
theorem zcpCommandStart_starts (hc : ((s.tenAt ten).zq q).startable = some c) (hp : s.zParks ten c = false) :
    ∃ (u : State) (g : Tenancy → Tenancy), exec (.zcpCommandStart ten q) s = .next (u.onTen ten g) ∧ u.mem = (s.runZ ten q c).1.mem ∧
      ∀ t, ∃ code tag, (g t).zq q = (startedTen q c code tag t).zq q := by
  show ∃ u g, execZcpCommandStart ten q s = _ ∧ _
  simp only [execZcpCommandStart, hc, hp, Bool.false_eq_true, if_false]
  have hmark (p : Prop) [Decidable p] (t : Tenancy) : (if p then t else t.mark q c.seq 2 none).zq q = t.zq q := by
    split
    · rfl
    · exact zq_mark ..
  exact ⟨_, _, rfl, (apply_ite State.mem _ _ _).trans (ite_self _), fun t => ⟨_, _, hmark _ (startedTen q c _ _ t)⟩⟩

/-- SIGNAL adds to its word. -/
theorem runSignal_adds {a : Nat} {va v : W64} (ht : s.terms = []) (hwf : Memory.wf s.mem)
    (hplace : s.cpPlace ten va true true false true = .ok (.mem a))
    (hplain : s.plainStore a 8 ((s.rd (.mem a) 8 + v.toNat) % 2 ^ 64)) :
    ∀ i < 8, memGet (s.runSignal ten va v).1.mem (a + i) = byteAt ((s.rd (.mem a) 8 + v.toNat) % 2 ^ 64) i := by
  have hput : s.putBytes (.mem a) 8 ((s.rd (.mem a) 8 + v.toNat) % 2 ^ 64) =
      (s.clearFutures (.mem a) 8).wr (.mem a) 8 ((s.rd (.mem a) 8 + v.toNat) % 2 ^ 64) := by
    rw [State.putBytes, settle_nil ht]
    exact plainAt_mem rfl hplain
  have hsignal : (s.runSignal ten va v).1.mem = (s.putBytes (.mem a) 8 ((s.rd (.mem a) 8 + v.toNat) % 2 ^ 64)).mem := by
    simp only [State.runSignal, hplace, settle_nil ht, State.devStore, State.stampDev_mem]
  rw [hsignal, hput]
  exact (mem_of_wrote rfl (plain_wrote (l := .mem a) hwf 8 ((s.rd (.mem a) 8 + v.toNat) % 2 ^ 64))).1

theorem zcpCommandStart_signal {a : Nat} (hc : ((s.tenAt ten).zq q).startable = some c) (hp : s.zParks ten c = false) (hop : c.op = 4)
    (ht : s.terms = []) (hwf : Memory.wf s.mem) (hplace : s.cpPlace ten (c.pair 0) true true false true = .ok (.mem a))
    (hplain : s.plainStore a 8 ((s.rd (.mem a) 8 + (c.pair 8).toNat) % 2 ^ 64)) :
    ∃ t, exec (.zcpCommandStart ten q) s = .next t ∧ t.rd (.mem a) 8 = (s.rd (.mem a) 8 + (c.pair 8).toNat) % 2 ^ 64 := by
  obtain ⟨u, g, hexec, hmem, -⟩ := zcpCommandStart_starts hc hp
  have hrun : (s.runZ ten q c).1.mem = (s.runSignal ten (c.pair 0) (c.pair 8)).1.mem := by simp only [State.runZ, hop]
  refine ⟨_, hexec, (rd_of_bytes (l := .mem a) fun i hi => ?_).trans (Nat.mod_eq_of_lt (Nat.mod_lt _ (by decide)))⟩
  exact (congrArg (memGet · (a + i)) (hmem.trans hrun)).trans (runSignal_adds ht hwf hplace hplain i hi)

end Start

/-! ### DONE and the journal's mirror (R405, R407, R409) -/

section Done
variable {s : State} {ten q : Nat}

/-- A tenancy whose finished command has left its queue, its entry complete or failed. -/
def doneTen (q : Nat) (c : ZCmd) (code : W32) (t : Tenancy) : Tenancy :=
  let t := t.onZq q fun z => { z with live := z.live.filter fun x => x.seq != c.seq }
  if code = 0#32 then t.mark q c.seq 3 none else t.mark q c.seq 4 (some code)

theorem doneTen_left {c : ZCmd} {code : W32} {t : Tenancy} {x : ZCmd} (hx : x ∈ ((doneTen q c code t).zq q).live) : x.seq ≠ c.seq := by
  have hzq : (doneTen q c code t).zq q = (t.onZq q fun z => { z with live := z.live.filter fun x => x.seq != c.seq }).zq q := by
    unfold doneTen
    simp only
    split
    all_goals exact zq_mark ..
  rw [hzq] at hx
  simpa using (List.mem_filter.1 (mem_zq_onZq t q hx)).2

theorem doneEvt_done {c : ZCmd} (hc : (((s.tenAt ten).zq q).live.find? fun c => (s.doneCode ten q c).isSome) = some c) :
    ∃ t, exec (.doneEvt ten q) s = .next t ∧ (∀ x ∈ ((t.tenAt ten).zq q).live, x.seq ≠ c.seq) ∧ t.out.getLast? = some
      { op := c.op + 128, ten, kind := 3, qid := q, seq := c.seq, code := (s.doneCode ten q c).getD 0#32, payload := [] } := by
  obtain ⟨u, hexec⟩ : ∃ u : State, exec (.doneEvt ten q) s = .next ((u.onTen ten (doneTen q c ((s.doneCode ten q c).getD 0#32))).send
      { op := c.op + 128, ten, kind := 3, qid := q, seq := c.seq, code := (s.doneCode ten q c).getD 0#32, payload := [] }) := by
    show ∃ u, execDoneEvt ten q s = _
    simp only [execDoneEvt, hc]
    exact ⟨_, rfl⟩
  refine ⟨_, hexec, fun x hx => ?_, List.getLast?_concat⟩
  have hten : (u.onTen ten (doneTen q c ((s.doneCode ten q c).getD 0#32))).tenAt ten =
      { doneTen q c ((s.doneCode ten q c).getD 0#32) (u.tenAt ten) with id := ten } := State.tenAt_onTen ..
  exact doneTen_left ((congrArg (fun t : Tenancy => (t.zq q).live) hten) ▸ hx)

/-- Stores to memory change no tenancy. -/
theorem tableRule_tens (s : State) : TableRule fun t => t.tens = s.tens where
  byte l b h := by cases l <;> exact h
  errs _ h := h
  stale _ h := h
  pin was e lvl on root h := by
    unfold State.pinPage
    extract_lets p first upd new lo s1 fresh kept
    have hs1 : s1.tens = s.tens := h
    have hkept : kept.tens = s.tens := by
      unfold kept
      split
      · split <;> exact h
      · split <;> exact h
    split
    · exact h
    · split <;> exact hkept

theorem wrTables_tens (s : State) (l : Loc) (n v : Nat) : (s.wrTables l n v).tens = s.tens := (tableRule_tens s).wrTables l n v rfl
theorem stampDev_tens (s : State) (l : Loc) : (s.stampDev l).tens = s.tens := rfl

theorem journalMirrorWrite_copies {n : Nat} {r : List Nat} (hd : (s.tenAt ten).dirty = n :: r) :
    ∃ t, exec (.journalMirrorWrite ten) s = .next t ∧ (t.tenAt ten).dirty = r := by
  obtain ⟨t, hexec, htens⟩ : ∃ t, exec (.journalMirrorWrite ten) s = .next t ∧ t.tens = (s.onTen ten fun t => { t with dirty := r }).tens := by
    show ∃ t, execJournalMirrorWrite ten s = _ ∧ _
    simp only [execJournalMirrorWrite, hd]
    refine ⟨_, rfl, ?_⟩
    split
    · split
      · rfl
      · exact (stampDev_tens ..).trans (wrTables_tens ..)
    · rfl
  refine ⟨t, hexec, ?_⟩
  have hten : (s.onTen ten fun t => { t with dirty := r }).tenAt ten = { s.tenAt ten with dirty := r, id := ten } := State.tenAt_onTen ..
  rw [State.tenAt, htens]
  exact congrArg Tenancy.dirty hten

end Done

/-- Settles O55: a start by what it notes in its tenancy, SIGNAL by its store, DONE by the queue that it leaves. -/
theorem commandsStartAndEnd : Obligations.CommandsStartAndEnd := by
  refine fun s ten q => ⟨fun c hc hp => ?_, fun c a hc hp hop ht hwf hplace hplain => zcpCommandStart_signal hc hp hop ht hwf hplace hplain,
    fun c hc => doneEvt_done hc, fun n r hd => journalMirrorWrite_copies hd⟩
  obtain ⟨u, g, hexec, -, hstarted⟩ := zcpCommandStart_starts hc hp
  refine ⟨_, hexec, fun x hx hs => ?_⟩
  obtain ⟨code, tag, hzq⟩ := hstarted (u.tenAt ten)
  have hten : ((u.onTen ten g).tenAt ten).zq q = (g (u.tenAt ten)).zq q := by
    rw [State.tenAt_onTen]
    rfl
  rw [hten, hzq] at hx
  exact startedTen_started hx hs

end Sys2Proof.Proofs
end

section
/-! PROOFS. The host's unsequenced commands (R405, R410, R412, R414, R415). -/

namespace Sys2Proof.Proofs
open Sys2Proof Sys2Proof.Machine

/-! ### Unsequenced commands (R405, R410, R412, R414, R415) -/

section Unsequenced
variable {s : State} {dg : Datagram} (hi : dgIntake dg dg.op.toNat = .handle) (hl : dg.len.toNat = dg.payload.length)
include hi hl

/-- A QUERY with its selector and all its arguments is answered. -/
theorem query_answers {sel args : Nat} (ho : dg.op.toNat = 6) (hmax : dg.payload.length ≤ 68) (hsel : dgField dg 0 4 = sel)
    (hmin : 4 + args ≤ dg.payload.length) (body : State → State) : query dg sel args body s = body s := by
  have hlen : ¬(dg.payload.length < 4 ∨ dg.payload.length > 68) := by omega
  have hargs : ¬dg.payload.length < 4 + args := by omega
  rw [query, datagram_handles hi hl ho]
  simp only [if_neg hlen, hsel, ne_eq, not_true, if_false, if_neg hargs]

section Queries
variable (ho : dg.op.toNat = 6) (hmax : dg.payload.length ≤ 68)
include ho hmax

theorem queryDevice_answers (hsel : dgField dg 0 4 = 0) (hmin : 4 ≤ dg.payload.length) :
    ∃ p, exec (.queryDevice dg) s = .next (s.data dg p) ∧ p.length = 28 :=
  ⟨_, congrArg Host.Outcome.next (query_answers hi hl ho hmax hsel hmin _), by simp [bytesOf]⟩

theorem queryProbes_answers {k : Task} (hsel : dgField dg 0 4 = 1) (hmin : 8 ≤ dg.payload.length)
    (hk : s.task? dg.ten.toNat (dgField dg 4 4) = some k) :
    exec (.queryProbes dg) s = .next (s.data dg (k.probes.flatMap fun x => bytesOf 8 x.toNat)) := by
  show execQueryProbes dg s = _
  rw [execQueryProbes, query_answers hi hl ho hmax hsel hmin, hk]

theorem querySump_answers (hsel : dgField dg 0 4 = 2) (hmin : 8 ≤ dg.payload.length) : exec (.querySump dg) s = .next (s.data dg
    (((s.aon.sump.drop (dgField dg 4 4)).take 32).flatMap fun r => (r.seenBy dg.ten.toNat).bytes)) :=
  congrArg Host.Outcome.next (query_answers hi hl ho hmax hsel hmin _)

/-- A trace ring that QUERY 3 starts or stops. -/
def ringSet (dg : Datagram) (old : Trace) : Trace :=
  if dgField dg 4 4 = 0 then { old with on := false }
  else { on := true, addr := BitVec.ofNat 64 (dgField dg 8 8), cap := dgField dg 16 4, count := 0, dropped := 0 }

omit hi hl ho hmax in
theorem ringSet_on (old : Trace) : (ringSet dg old).on = decide (dgField dg 4 4 ≠ 0) := by
  by_cases h : dgField dg 4 4 = 0 <;> simp [ringSet, h]

theorem queryTrace_answers (hsel : dgField dg 0 4 = 3) (hmin : 8 ≤ dg.payload.length) : ∃ t, exec (.queryTrace dg) s = .next t ∧
    (t.tenAt dg.ten.toNat).trace.on = decide (dgField dg 4 4 ≠ 0) ∧ t.out.length = s.out.length + 1 := by
  obtain ⟨p, hexec⟩ : ∃ p, exec (.queryTrace dg) s = .next ((s.onTen dg.ten.toNat fun t =>
      { t with trace := ringSet dg (s.tenAt dg.ten.toNat).trace }).data dg p) :=
    ⟨_, congrArg Host.Outcome.next (query_answers hi hl ho hmax hsel hmin _)⟩
  have hten : (s.onTen dg.ten.toNat fun t => { t with trace := ringSet dg (s.tenAt dg.ten.toNat).trace }).tenAt dg.ten.toNat =
      { s.tenAt dg.ten.toNat with trace := ringSet dg (s.tenAt dg.ten.toNat).trace, id := dg.ten.toNat } := State.tenAt_onTen ..
  exact ⟨_, hexec, (congrArg (fun t => t.trace.on) hten).trans (ringSet_on _), List.length_append⟩

theorem queryAttest_signs (hsel : dgField dg 0 4 = 4) (hmin : 36 ≤ dg.payload.length) (hlms : s.aon.lms < 2 ^ 40) :
    ∃ t, exec (.queryAttest dg) s = .next t ∧ t.aon.lms = s.aon.lms + 1 ∧ t.out.length = s.out.length + 1 := by
  show ∃ t, execQueryAttest dg s = _ ∧ _
  rw [execQueryAttest, query_answers hi hl ho hmax hsel hmin, if_neg (by omega)]
  exact ⟨_, rfl, rfl, List.length_append⟩

theorem queryAttest_refuses (hsel : dgField dg 0 4 = 4) (hmin : 36 ≤ dg.payload.length) (hlms : 2 ^ 40 ≤ s.aon.lms) :
    exec (.queryAttest dg) s = .next (s.nack dg 6) := by
  show execQueryAttest dg s = _
  rw [execQueryAttest, query_answers hi hl ho hmax hsel hmin, if_pos hlms]

end Queries

theorem journalRead_answers (ho : dg.op.toNat = 7) (hn : dg.payload.length = 12) (hsel : dgField dg 0 4 < 16) (hpos : 0 < dgField dg 8 4)
    (hmax : dgField dg 8 4 ≤ 32) : ∃ p, exec (.journalRead dg) s = .next (s.data dg p) ∧
      p.take 4 = bytesOf 4 ((s.tenAt dg.ten.toNat).zq (dgField dg 0 4)).next.toNat := by
  have hok : ¬(dg.payload.length ≠ 12 ∨ dgField dg 0 4 ≥ 16 ∨ dgField dg 8 4 = 0 ∨ dgField dg 8 4 > 32) := by omega
  show ∃ p, execJournalRead dg s = _ ∧ _
  simp only [execJournalRead, datagram_handles hi hl ho, if_neg hok]
  exact ⟨_, rfl, List.take_left' (by simp [bytesOf])⟩

theorem freezeCmd_freezes (ho : dg.op.toNat = 9) (hn : dg.payload.length = 0) : exec (.freezeCmd dg) s = .next (s.data dg []).freeze := by
  show execFreezeCmd dg s = _
  rw [execFreezeCmd, datagram_handles hi hl ho, List.length_eq_zero_iff.1 hn]
  rfl

theorem zcpOpNotNamed_refuses (ho : dg.op.toNat = 0 ∨ 10 < dg.op.toNat) : exec (.zcpOpNotNamed dg) s = .next (s.nack dg 2) := by
  have hop : ¬(1 ≤ dg.op.toNat ∧ dg.op.toNat ≤ 10) := by omega
  show execZcpOpNotNamed dg s = _
  simp only [execZcpOpNotNamed, if_neg hop, datagram_handles hi hl rfl]

end Unsequenced

/-- Settles O56: command by command. -/
theorem unsequencedCommandsAnswer : Obligations.UnsequencedCommandsAnswer :=
  fun _ _ hi hl => ⟨fun ho hmax => ⟨queryDevice_answers hi hl ho hmax, fun _ => queryProbes_answers hi hl ho hmax,
      querySump_answers hi hl ho hmax, queryTrace_answers hi hl ho hmax, queryAttest_signs hi hl ho hmax, queryAttest_refuses hi hl ho hmax⟩,
    journalRead_answers hi hl, freezeCmd_freezes hi hl, zcpOpNotNamed_refuses hi hl⟩

end Sys2Proof.Proofs
end
